-- ==== Sys2Proof/Word.lean ====
section
/-! DEFINITION. The word type and the plain containers the state is made of. -/

namespace Sys2Proof

/-- A 64-bit scalar value (R11). -/
abbrev Word := BitVec 64

/-- A finite map keyed by numbers, as plain data: pairs in strictly rising order of the key. -/
abbrev SMap (α : Type) := List (Nat × α)

end Sys2Proof
end

