-- ==== Sys2Proof/Syntax.lean ====
section
/-! DEFINITION. The abstract syntax: one constructor per row of spec/opcode_table.json.
A row with an encoding (R24 to R42) has its fields as arguments, in the order the table lists them, each as the bits of the
word (R9).  A row without an encoding is one whole, indivisible event of the device (spec/95): its arguments are the
operands that say where the event happens (a tile number of R2, a partition, a physical line `pa[55:7]`, ...). -/

namespace Sys2Proof

/-- The operations and events of spec/opcode_table.json. -/
inductive Instr where
  /-- `ADD` (R65). -/
  | add (d : BitVec 5) (a : BitVec 5) (b : BitVec 5)
  /-- `SUB` (R65). -/
  | sub (d : BitVec 5) (a : BitVec 5) (b : BitVec 5)
  /-- `AND` (R65). -/
  | and (d : BitVec 5) (a : BitVec 5) (b : BitVec 5)
  /-- `OR` (R65). -/
  | or (d : BitVec 5) (a : BitVec 5) (b : BitVec 5)
  /-- `XOR` (R65). -/
  | xor (d : BitVec 5) (a : BitVec 5) (b : BitVec 5)
  /-- `ANDN` (R65). -/
  | andn (d : BitVec 5) (a : BitVec 5) (b : BitVec 5)
  /-- `SLL` (R65). -/
  | sll (d : BitVec 5) (a : BitVec 5) (b : BitVec 5)
  /-- `SRL` (R65). -/
  | srl (d : BitVec 5) (a : BitVec 5) (b : BitVec 5)
  /-- `SRA` (R65). -/
  | sra (d : BitVec 5) (a : BitVec 5) (b : BitVec 5)
  /-- `ROL` (R65). -/
  | rol (d : BitVec 5) (a : BitVec 5) (b : BitVec 5)
  /-- `ROR` (R65). -/
  | ror (d : BitVec 5) (a : BitVec 5) (b : BitVec 5)
  /-- `SLT` (R65). -/
  | slt (d : BitVec 5) (a : BitVec 5) (b : BitVec 5)
  /-- `SLTU` (R65). -/
  | sltu (d : BitVec 5) (a : BitVec 5) (b : BitVec 5)
  /-- `MIN` (R65). -/
  | min (d : BitVec 5) (a : BitVec 5) (b : BitVec 5)
  /-- `MAX` (R65). -/
  | max (d : BitVec 5) (a : BitVec 5) (b : BitVec 5)
  /-- `MINU` (R65). -/
  | minu (d : BitVec 5) (a : BitVec 5) (b : BitVec 5)
  /-- `MAXU` (R65). -/
  | maxu (d : BitVec 5) (a : BitVec 5) (b : BitVec 5)
  /-- `MUL` (R65). -/
  | mul (d : BitVec 5) (a : BitVec 5) (b : BitVec 5)
  /-- `MULH` (R65). -/
  | mulh (d : BitVec 5) (a : BitVec 5) (b : BitVec 5)
  /-- `MULHU` (R65). -/
  | mulhu (d : BitVec 5) (a : BitVec 5) (b : BitVec 5)
  /-- `MULHSU` (R65). -/
  | mulhsu (d : BitVec 5) (a : BitVec 5) (b : BitVec 5)
  /-- `DIV` (R66). -/
  | div (d : BitVec 5) (a : BitVec 5) (b : BitVec 5)
  /-- `DIVU` (R66). -/
  | divu (d : BitVec 5) (a : BitVec 5) (b : BitVec 5)
  /-- `REM` (R66). -/
  | rem (d : BitVec 5) (a : BitVec 5) (b : BitVec 5)
  /-- `REMU` (R66). -/
  | remu (d : BitVec 5) (a : BitVec 5) (b : BitVec 5)
  /-- `CLZ` (R67). -/
  | clz (d : BitVec 5) (a : BitVec 5)
  /-- `CTZ` (R67). -/
  | ctz (d : BitVec 5) (a : BitVec 5)
  /-- `FFS` (R67). -/
  | ffs (d : BitVec 5) (a : BitVec 5)
  /-- `POPC` (R67). -/
  | popc (d : BitVec 5) (a : BitVec 5)
  /-- `BSWAP` (R67). -/
  | bswap (d : BitVec 5) (a : BitVec 5)
  /-- `ADDI` (R65). -/
  | addi (d : BitVec 5) (a : BitVec 5) (i : BitVec 16)
  /-- `ANDI` (R65). -/
  | andi (d : BitVec 5) (a : BitVec 5) (i : BitVec 16)
  /-- `ORI` (R65). -/
  | ori (d : BitVec 5) (a : BitVec 5) (i : BitVec 16)
  /-- `XORI` (R65). -/
  | xori (d : BitVec 5) (a : BitVec 5) (i : BitVec 16)
  /-- `SLTI` (R65). -/
  | slti (d : BitVec 5) (a : BitVec 5) (i : BitVec 15)
  /-- `SLTIU` (R65). -/
  | sltiu (d : BitVec 5) (a : BitVec 5) (i : BitVec 15)
  /-- `SLLI` (R65). -/
  | slli (d : BitVec 5) (a : BitVec 5) (h : BitVec 6)
  /-- `SRLI` (R65). -/
  | srli (d : BitVec 5) (a : BitVec 5) (h : BitVec 6)
  /-- `SRAI` (R65). -/
  | srai (d : BitVec 5) (a : BitVec 5) (h : BitVec 6)
  /-- `RORI` (R65). -/
  | rori (d : BitVec 5) (a : BitVec 5) (h : BitVec 6)
  /-- `LIH` (R25). -/
  | lih (d : BitVec 5) (i : BitVec 21)
  /-- `LD_B` (R71). -/
  | ldB (d : BitVec 5) (a : BitVec 5) (i : BitVec 13)
  /-- `LD_H` (R71). -/
  | ldH (d : BitVec 5) (a : BitVec 5) (i : BitVec 13)
  /-- `LD_W` (R71). -/
  | ldW (d : BitVec 5) (a : BitVec 5) (i : BitVec 13)
  /-- `LD_D` (R71). -/
  | ldD (d : BitVec 5) (a : BitVec 5) (i : BitVec 13)
  /-- `LD_BU` (R71). -/
  | ldBu (d : BitVec 5) (a : BitVec 5) (i : BitVec 13)
  /-- `LD_HU` (R71). -/
  | ldHu (d : BitVec 5) (a : BitVec 5) (i : BitVec 13)
  /-- `LD_WU` (R71). -/
  | ldWu (d : BitVec 5) (a : BitVec 5) (i : BitVec 13)
  /-- `ST_B` (R71). -/
  | stB (d : BitVec 5) (a : BitVec 5) (i : BitVec 13)
  /-- `ST_H` (R71). -/
  | stH (d : BitVec 5) (a : BitVec 5) (i : BitVec 13)
  /-- `ST_W` (R71). -/
  | stW (d : BitVec 5) (a : BitVec 5) (i : BitVec 13)
  /-- `ST_D` (R71). -/
  | stD (d : BitVec 5) (a : BitVec 5) (i : BitVec 13)
  /-- `AMO_SWAP` (R73). -/
  | amoSwap (d : BitVec 5) (a : BitVec 5) (b : BitVec 5) (o : BitVec 2) (s : BitVec 3) (z : BitVec 2)
  /-- `AMO_ADD` (R73). -/
  | amoAdd (d : BitVec 5) (a : BitVec 5) (b : BitVec 5) (o : BitVec 2) (s : BitVec 3) (z : BitVec 2)
  /-- `AMO_AND` (R73). -/
  | amoAnd (d : BitVec 5) (a : BitVec 5) (b : BitVec 5) (o : BitVec 2) (s : BitVec 3) (z : BitVec 2)
  /-- `AMO_OR` (R73). -/
  | amoOr (d : BitVec 5) (a : BitVec 5) (b : BitVec 5) (o : BitVec 2) (s : BitVec 3) (z : BitVec 2)
  /-- `AMO_XOR` (R73). -/
  | amoXor (d : BitVec 5) (a : BitVec 5) (b : BitVec 5) (o : BitVec 2) (s : BitVec 3) (z : BitVec 2)
  /-- `AMO_MIN` (R73). -/
  | amoMin (d : BitVec 5) (a : BitVec 5) (b : BitVec 5) (o : BitVec 2) (s : BitVec 3) (z : BitVec 2)
  /-- `AMO_MAX` (R73). -/
  | amoMax (d : BitVec 5) (a : BitVec 5) (b : BitVec 5) (o : BitVec 2) (s : BitVec 3) (z : BitVec 2)
  /-- `AMO_MINU` (R73). -/
  | amoMinu (d : BitVec 5) (a : BitVec 5) (b : BitVec 5) (o : BitVec 2) (s : BitVec 3) (z : BitVec 2)
  /-- `AMO_MAXU` (R73). -/
  | amoMaxu (d : BitVec 5) (a : BitVec 5) (b : BitVec 5) (o : BitVec 2) (s : BitVec 3) (z : BitVec 2)
  /-- `AMO_CAS` (R73). -/
  | amoCas (d : BitVec 5) (a : BitVec 5) (b : BitVec 5) (o : BitVec 2) (s : BitVec 3) (z : BitVec 2)
  /-- `ORDERED_LOAD_ZEXT` (R72). -/
  | orderedLoadZext (d : BitVec 5) (a : BitVec 5) (o : BitVec 2) (s : BitVec 3) (z : BitVec 2)
  /-- `ORDERED_LOAD_SEXT` (R72). -/
  | orderedLoadSext (d : BitVec 5) (a : BitVec 5) (o : BitVec 2) (s : BitVec 3) (z : BitVec 2)
  /-- `ORDERED_STORE` (R72). -/
  | orderedStore (a : BitVec 5) (b : BitVec 5) (o : BitVec 2) (s : BitVec 3) (z : BitVec 2)
  /-- `BEQ` (R76). -/
  | beq (a : BitVec 5) (b : BitVec 5) (i : BitVec 13)
  /-- `BNE` (R76). -/
  | bne (a : BitVec 5) (b : BitVec 5) (i : BitVec 13)
  /-- `BLT` (R76). -/
  | blt (a : BitVec 5) (b : BitVec 5) (i : BitVec 13)
  /-- `BGE` (R76). -/
  | bge (a : BitVec 5) (b : BitVec 5) (i : BitVec 13)
  /-- `BLTU` (R76). -/
  | bltu (a : BitVec 5) (b : BitVec 5) (i : BitVec 13)
  /-- `BGEU` (R76). -/
  | bgeu (a : BitVec 5) (b : BitVec 5) (i : BitVec 13)
  /-- `JAL` (R77). -/
  | jal (i : BitVec 26)
  /-- `JALR` (R77). -/
  | jalr (d : BitVec 5) (a : BitVec 5) (i : BitVec 16)
  /-- `CSRRW` (R84). -/
  | csrrw (d : BitVec 5) (a : BitVec 5) (c : BitVec 12)
  /-- `CSRRS` (R84). -/
  | csrrs (d : BitVec 5) (a : BitVec 5) (c : BitVec 12)
  /-- `CSRRC` (R84). -/
  | csrrc (d : BitVec 5) (a : BitVec 5) (c : BitVec 12)
  /-- `CSRRWI` (R84). -/
  | csrrwi (d : BitVec 5) (a : BitVec 5) (c : BitVec 12)
  /-- `CSRRSI` (R84). -/
  | csrrsi (d : BitVec 5) (a : BitVec 5) (c : BitVec 12)
  /-- `CSRRCI` (R84). -/
  | csrrci (d : BitVec 5) (a : BitVec 5) (c : BitVec 12)
  /-- `ILL` (R88). -/
  | ill (x : BitVec 5) (y : BitVec 5) (z : BitVec 5)
  /-- `TRAP` (R88). -/
  | trap (c : BitVec 10)
  /-- `TRET` (R88). -/
  | tret
  /-- `BRK` (R88). -/
  | brk (c : BitVec 10)
  /-- `FENCE` (R79). -/
  | fence (s : BitVec 3)
  /-- `FENCE_Q` (R80). -/
  | fenceQ (m : BitVec 5)
  /-- `FENCE_I` (R81). -/
  | fenceI
  /-- `MWAIT` (R83). -/
  | mwait (d : BitVec 5) (a : BitVec 5) (b : BitVec 5)
  /-- `NON_INSTRUCTION_WORD` (R43). -/
  | nonInstructionWord (word : BitVec 32)
  /-- `VADD` (R101). -/
  | vadd (d : BitVec 5) (a : BitVec 5) (b : BitVec 5) (k : BitVec 3)
  /-- `VSUB` (R101). -/
  | vsub (d : BitVec 5) (a : BitVec 5) (b : BitVec 5) (k : BitVec 3)
  /-- `VMUL` (R101). -/
  | vmul (d : BitVec 5) (a : BitVec 5) (b : BitVec 5) (k : BitVec 3)
  /-- `VMULH` (R101). -/
  | vmulh (d : BitVec 5) (a : BitVec 5) (b : BitVec 5) (k : BitVec 3)
  /-- `VFMA` (R101). -/
  | vfma (d : BitVec 5) (a : BitVec 5) (b : BitVec 5) (k : BitVec 3)
  /-- `VFMS` (R101). -/
  | vfms (d : BitVec 5) (a : BitVec 5) (b : BitVec 5) (k : BitVec 3)
  /-- `VFNMA` (R101). -/
  | vfnma (d : BitVec 5) (a : BitVec 5) (b : BitVec 5) (k : BitVec 3)
  /-- `VDIV` (R101). -/
  | vdiv (d : BitVec 5) (a : BitVec 5) (b : BitVec 5) (k : BitVec 3)
  /-- `VMIN` (R101). -/
  | vmin (d : BitVec 5) (a : BitVec 5) (b : BitVec 5) (k : BitVec 3)
  /-- `VMAX` (R101). -/
  | vmax (d : BitVec 5) (a : BitVec 5) (b : BitVec 5) (k : BitVec 3)
  /-- `VSADD` (R101). -/
  | vsadd (d : BitVec 5) (a : BitVec 5) (b : BitVec 5) (k : BitVec 3)
  /-- `VSSUB` (R101). -/
  | vssub (d : BitVec 5) (a : BitVec 5) (b : BitVec 5) (k : BitVec 3)
  /-- `VAND` (R101). -/
  | vand (d : BitVec 5) (a : BitVec 5) (b : BitVec 5) (k : BitVec 3)
  /-- `VOR` (R101). -/
  | vor (d : BitVec 5) (a : BitVec 5) (b : BitVec 5) (k : BitVec 3)
  /-- `VXOR` (R101). -/
  | vxor (d : BitVec 5) (a : BitVec 5) (b : BitVec 5) (k : BitVec 3)
  /-- `VANDN` (R101). -/
  | vandn (d : BitVec 5) (a : BitVec 5) (b : BitVec 5) (k : BitVec 3)
  /-- `VSLL` (R101). -/
  | vsll (d : BitVec 5) (a : BitVec 5) (b : BitVec 5) (k : BitVec 3)
  /-- `VSRL` (R101). -/
  | vsrl (d : BitVec 5) (a : BitVec 5) (b : BitVec 5) (k : BitVec 3)
  /-- `VSRA` (R101). -/
  | vsra (d : BitVec 5) (a : BitVec 5) (b : BitVec 5) (k : BitVec 3)
  /-- `VCEQ` (R105). -/
  | vceq (d : BitVec 5) (a : BitVec 5) (b : BitVec 5) (k : BitVec 3)
  /-- `VCNE` (R105). -/
  | vcne (d : BitVec 5) (a : BitVec 5) (b : BitVec 5) (k : BitVec 3)
  /-- `VCLT` (R105). -/
  | vclt (d : BitVec 5) (a : BitVec 5) (b : BitVec 5) (k : BitVec 3)
  /-- `VCLE` (R105). -/
  | vcle (d : BitVec 5) (a : BitVec 5) (b : BitVec 5) (k : BitVec 3)
  /-- `VABS` (R107). -/
  | vabs (d : BitVec 5) (a : BitVec 5) (k : BitVec 3)
  /-- `VNEG` (R107). -/
  | vneg (d : BitVec 5) (a : BitVec 5) (k : BitVec 3)
  /-- `VCLZ` (R107). -/
  | vclz (d : BitVec 5) (a : BitVec 5) (k : BitVec 3)
  /-- `VCTZ` (R107). -/
  | vctz (d : BitVec 5) (a : BitVec 5) (k : BitVec 3)
  /-- `VFFS` (R107). -/
  | vffs (d : BitVec 5) (a : BitVec 5) (k : BitVec 3)
  /-- `VPOPC` (R107). -/
  | vpopc (d : BitVec 5) (a : BitVec 5) (k : BitVec 3)
  /-- `VEXP2` (R108). -/
  | vexp2 (d : BitVec 5) (a : BitVec 5) (k : BitVec 3)
  /-- `VLOG2` (R108). -/
  | vlog2 (d : BitVec 5) (a : BitVec 5) (k : BitVec 3)
  /-- `VRCP` (R108). -/
  | vrcp (d : BitVec 5) (a : BitVec 5) (k : BitVec 3)
  /-- `VRSQ` (R108). -/
  | vrsq (d : BitVec 5) (a : BitVec 5) (k : BitVec 3)
  /-- `VCVT` (R109). -/
  | vcvt (d : BitVec 5) (a : BitVec 5) (k : BitVec 3)
  /-- `VCVT_RNE` (R109). -/
  | vcvtRne (d : BitVec 5) (a : BitVec 5) (k : BitVec 3)
  /-- `VCVT_RTZ` (R109). -/
  | vcvtRtz (d : BitVec 5) (a : BitVec 5) (k : BitVec 3)
  /-- `VCVT_RDN` (R109). -/
  | vcvtRdn (d : BitVec 5) (a : BitVec 5) (k : BitVec 3)
  /-- `VCVT_RUP` (R109). -/
  | vcvtRup (d : BitVec 5) (a : BitVec 5) (k : BitVec 3)
  /-- `VCVT_RMM` (R109). -/
  | vcvtRmm (d : BitVec 5) (a : BitVec 5) (k : BitVec 3)
  /-- `VCVT_SR` (R110). -/
  | vcvtSr (d : BitVec 5) (a : BitVec 5) (k : BitVec 3)
  /-- `VQUANT` (R111). -/
  | vquant (d : BitVec 5) (a : BitVec 5) (b : BitVec 5) (k : BitVec 3)
  /-- `VDEQUANT` (R111). -/
  | vdequant (d : BitVec 5) (a : BitVec 5) (b : BitVec 5) (k : BitVec 3)
  /-- `VADD_S` (R101). -/
  | vaddS (d : BitVec 5) (a : BitVec 5) (b : BitVec 5) (k : BitVec 3)
  /-- `VSUB_S` (R101). -/
  | vsubS (d : BitVec 5) (a : BitVec 5) (b : BitVec 5) (k : BitVec 3)
  /-- `VMUL_S` (R101). -/
  | vmulS (d : BitVec 5) (a : BitVec 5) (b : BitVec 5) (k : BitVec 3)
  /-- `VMULH_S` (R101). -/
  | vmulhS (d : BitVec 5) (a : BitVec 5) (b : BitVec 5) (k : BitVec 3)
  /-- `VFMA_S` (R101). -/
  | vfmaS (d : BitVec 5) (a : BitVec 5) (b : BitVec 5) (k : BitVec 3)
  /-- `VFMS_S` (R101). -/
  | vfmsS (d : BitVec 5) (a : BitVec 5) (b : BitVec 5) (k : BitVec 3)
  /-- `VFNMA_S` (R101). -/
  | vfnmaS (d : BitVec 5) (a : BitVec 5) (b : BitVec 5) (k : BitVec 3)
  /-- `VDIV_S` (R101). -/
  | vdivS (d : BitVec 5) (a : BitVec 5) (b : BitVec 5) (k : BitVec 3)
  /-- `VMIN_S` (R101). -/
  | vminS (d : BitVec 5) (a : BitVec 5) (b : BitVec 5) (k : BitVec 3)
  /-- `VMAX_S` (R101). -/
  | vmaxS (d : BitVec 5) (a : BitVec 5) (b : BitVec 5) (k : BitVec 3)
  /-- `VSADD_S` (R101). -/
  | vsaddS (d : BitVec 5) (a : BitVec 5) (b : BitVec 5) (k : BitVec 3)
  /-- `VSSUB_S` (R101). -/
  | vssubS (d : BitVec 5) (a : BitVec 5) (b : BitVec 5) (k : BitVec 3)
  /-- `VAND_S` (R101). -/
  | vandS (d : BitVec 5) (a : BitVec 5) (b : BitVec 5) (k : BitVec 3)
  /-- `VOR_S` (R101). -/
  | vorS (d : BitVec 5) (a : BitVec 5) (b : BitVec 5) (k : BitVec 3)
  /-- `VXOR_S` (R101). -/
  | vxorS (d : BitVec 5) (a : BitVec 5) (b : BitVec 5) (k : BitVec 3)
  /-- `VANDN_S` (R101). -/
  | vandnS (d : BitVec 5) (a : BitVec 5) (b : BitVec 5) (k : BitVec 3)
  /-- `VSLL_S` (R101). -/
  | vsllS (d : BitVec 5) (a : BitVec 5) (b : BitVec 5) (k : BitVec 3)
  /-- `VSRL_S` (R101). -/
  | vsrlS (d : BitVec 5) (a : BitVec 5) (b : BitVec 5) (k : BitVec 3)
  /-- `VSRA_S` (R101). -/
  | vsraS (d : BitVec 5) (a : BitVec 5) (b : BitVec 5) (k : BitVec 3)
  /-- `VCEQ_S` (R105). -/
  | vceqS (d : BitVec 5) (a : BitVec 5) (b : BitVec 5) (k : BitVec 3)
  /-- `VCNE_S` (R105). -/
  | vcneS (d : BitVec 5) (a : BitVec 5) (b : BitVec 5) (k : BitVec 3)
  /-- `VCLT_S` (R105). -/
  | vcltS (d : BitVec 5) (a : BitVec 5) (b : BitVec 5) (k : BitVec 3)
  /-- `VCLE_S` (R105). -/
  | vcleS (d : BitVec 5) (a : BitVec 5) (b : BitVec 5) (k : BitVec 3)
  /-- `VADD_I` (R101). -/
  | vaddI (d : BitVec 5) (a : BitVec 5) (i : BitVec 5) (k : BitVec 3)
  /-- `VSUB_I` (R101). -/
  | vsubI (d : BitVec 5) (a : BitVec 5) (i : BitVec 5) (k : BitVec 3)
  /-- `VMUL_I` (R101). -/
  | vmulI (d : BitVec 5) (a : BitVec 5) (i : BitVec 5) (k : BitVec 3)
  /-- `VMULH_I` (R101). -/
  | vmulhI (d : BitVec 5) (a : BitVec 5) (i : BitVec 5) (k : BitVec 3)
  /-- `VMIN_I` (R101). -/
  | vminI (d : BitVec 5) (a : BitVec 5) (i : BitVec 5) (k : BitVec 3)
  /-- `VMAX_I` (R101). -/
  | vmaxI (d : BitVec 5) (a : BitVec 5) (i : BitVec 5) (k : BitVec 3)
  /-- `VSADD_I` (R101). -/
  | vsaddI (d : BitVec 5) (a : BitVec 5) (i : BitVec 5) (k : BitVec 3)
  /-- `VSSUB_I` (R101). -/
  | vssubI (d : BitVec 5) (a : BitVec 5) (i : BitVec 5) (k : BitVec 3)
  /-- `VAND_I` (R101). -/
  | vandI (d : BitVec 5) (a : BitVec 5) (i : BitVec 5) (k : BitVec 3)
  /-- `VOR_I` (R101). -/
  | vorI (d : BitVec 5) (a : BitVec 5) (i : BitVec 5) (k : BitVec 3)
  /-- `VXOR_I` (R101). -/
  | vxorI (d : BitVec 5) (a : BitVec 5) (i : BitVec 5) (k : BitVec 3)
  /-- `VANDN_I` (R101). -/
  | vandnI (d : BitVec 5) (a : BitVec 5) (i : BitVec 5) (k : BitVec 3)
  /-- `VSLL_I` (R101). -/
  | vsllI (d : BitVec 5) (a : BitVec 5) (i : BitVec 5) (k : BitVec 3)
  /-- `VSRL_I` (R101). -/
  | vsrlI (d : BitVec 5) (a : BitVec 5) (i : BitVec 5) (k : BitVec 3)
  /-- `VSRA_I` (R101). -/
  | vsraI (d : BitVec 5) (a : BitVec 5) (i : BitVec 5) (k : BitVec 3)
  /-- `VCEQ_I` (R105). -/
  | vceqI (d : BitVec 5) (a : BitVec 5) (i : BitVec 5) (k : BitVec 3)
  /-- `VCNE_I` (R105). -/
  | vcneI (d : BitVec 5) (a : BitVec 5) (i : BitVec 5) (k : BitVec 3)
  /-- `VCLT_I` (R105). -/
  | vcltI (d : BitVec 5) (a : BitVec 5) (i : BitVec 5) (k : BitVec 3)
  /-- `VCLE_I` (R105). -/
  | vcleI (d : BitVec 5) (a : BitVec 5) (i : BitVec 5) (k : BitVec 3)
  /-- `MAND` (R106). -/
  | mand (d : BitVec 5) (a : BitVec 5) (b : BitVec 5)
  /-- `MOR` (R106). -/
  | mor (d : BitVec 5) (a : BitVec 5) (b : BitVec 5)
  /-- `MXOR` (R106). -/
  | mxor (d : BitVec 5) (a : BitVec 5) (b : BitVec 5)
  /-- `MANDN` (R106). -/
  | mandn (d : BitVec 5) (a : BitVec 5) (b : BitVec 5)
  /-- `MORN` (R106). -/
  | morn (d : BitVec 5) (a : BitVec 5) (b : BitVec 5)
  /-- `MNOT` (R106). -/
  | mnot (d : BitVec 5) (a : BitVec 5)
  /-- `MPOPC` (R106). -/
  | mpopc (d : BitVec 5) (a : BitVec 5) (k : BitVec 3)
  /-- `MFIRST` (R106). -/
  | mfirst (d : BitVec 5) (a : BitVec 5) (k : BitVec 3)
  /-- `MSET` (R106). -/
  | mset (d : BitVec 5)
  /-- `MCLR` (R106). -/
  | mclr (d : BitVec 5)
  /-- `VSLIDEUP` (R112). -/
  | vslideup (d : BitVec 5) (a : BitVec 5) (b : BitVec 5) (k : BitVec 3)
  /-- `VSLIDEDN` (R112). -/
  | vslidedn (d : BitVec 5) (a : BitVec 5) (b : BitVec 5) (k : BitVec 3)
  /-- `VGATHER` (R112). -/
  | vgather (d : BitVec 5) (a : BitVec 5) (b : BitVec 5) (k : BitVec 3)
  /-- `VCOMPRESS` (R112). -/
  | vcompress (d : BitVec 5) (a : BitVec 5) (k : BitVec 3)
  /-- `VEXPAND` (R112). -/
  | vexpand (d : BitVec 5) (a : BitVec 5) (k : BitVec 3)
  /-- `VBCAST` (R112). -/
  | vbcast (d : BitVec 5) (a : BitVec 5) (k : BitVec 3)
  /-- `VEXT` (R112). -/
  | vext (d : BitVec 5) (a : BitVec 5) (b : BitVec 5)
  /-- `VINS` (R112). -/
  | vins (d : BitVec 5) (a : BitVec 5) (b : BitVec 5)
  /-- `VREDSUM` (R113). -/
  | vredsum (d : BitVec 5) (a : BitVec 5) (b : BitVec 5) (k : BitVec 3)
  /-- `VREDSUMO` (R113). -/
  | vredsumo (d : BitVec 5) (a : BitVec 5) (b : BitVec 5) (k : BitVec 3)
  /-- `VREDMIN` (R113). -/
  | vredmin (d : BitVec 5) (a : BitVec 5) (b : BitVec 5) (k : BitVec 3)
  /-- `VREDMAX` (R113). -/
  | vredmax (d : BitVec 5) (a : BitVec 5) (b : BitVec 5) (k : BitVec 3)
  /-- `VSETL` (R95). -/
  | vsetl (d : BitVec 5) (a : BitVec 5) (b : BitVec 5)
  /-- `VTAG` (R94). -/
  | vtag (d : BitVec 5) (t : BitVec 5) (r : BitVec 3) (g : BitVec 2)
  /-- `VLD` (R114). -/
  | vld (d : BitVec 5) (a : BitVec 5) (k : BitVec 3)
  /-- `VLDS` (R114). -/
  | vlds (d : BitVec 5) (a : BitVec 5) (b : BitVec 5) (k : BitVec 3)
  /-- `VLDX` (R114). -/
  | vldx (d : BitVec 5) (a : BitVec 5) (b : BitVec 5) (k : BitVec 3)
  /-- `VLD_FF` (R118). -/
  | vldFf (d : BitVec 5) (a : BitVec 5) (k : BitVec 3)
  /-- `VLDT` (R119). -/
  | vldt (d : BitVec 5) (a : BitVec 5) (k : BitVec 3)
  /-- `VST` (R114). -/
  | vst (d : BitVec 5) (a : BitVec 5) (k : BitVec 3)
  /-- `VSTS` (R114). -/
  | vsts (d : BitVec 5) (a : BitVec 5) (b : BitVec 5) (k : BitVec 3)
  /-- `VSTX` (R114). -/
  | vstx (d : BitVec 5) (a : BitVec 5) (b : BitVec 5) (k : BitVec 3)
  /-- `VSTT` (R119). -/
  | vstt (d : BitVec 5) (a : BitVec 5) (k : BitVec 3)
  /-- `VMM_ADD` (R120). -/
  | vmmAdd (d : BitVec 5) (a : BitVec 5) (b : BitVec 5) (k : BitVec 3)
  /-- `VMM_SUB` (R120). -/
  | vmmSub (d : BitVec 5) (a : BitVec 5) (b : BitVec 5) (k : BitVec 3)
  /-- `VMM_MUL` (R120). -/
  | vmmMul (d : BitVec 5) (a : BitVec 5) (b : BitVec 5) (k : BitVec 3)
  /-- `VMM_MIN` (R120). -/
  | vmmMin (d : BitVec 5) (a : BitVec 5) (b : BitVec 5) (k : BitVec 3)
  /-- `VMM_MAX` (R120). -/
  | vmmMax (d : BitVec 5) (a : BitVec 5) (b : BitVec 5) (k : BitVec 3)
  /-- `VMM_AND` (R120). -/
  | vmmAnd (d : BitVec 5) (a : BitVec 5) (b : BitVec 5) (k : BitVec 3)
  /-- `VMM_OR` (R120). -/
  | vmmOr (d : BitVec 5) (a : BitVec 5) (b : BitVec 5) (k : BitVec 3)
  /-- `VMM_XOR` (R120). -/
  | vmmXor (d : BitVec 5) (a : BitVec 5) (b : BitVec 5) (k : BitVec 3)
  /-- `VMM_CPY` (R120). -/
  | vmmCpy (d : BitVec 5) (a : BitVec 5) (k : BitVec 3)
  /-- `VFBA` (R122). -/
  | vfba (s : BitVec 3)
  /-- `MCFG` (R124). -/
  | mcfg (a : BitVec 5) (f : BitVec 5) (t : BitVec 1) (u : BitVec 1) (v : BitVec 1)
  /-- `MMA` (R134). -/
  | mma (q : BitVec 3) (e : BitVec 2) (a : BitVec 5) (b : BitVec 5)
  /-- `MMA_X` (R135). -/
  | mmaX (q : BitVec 3) (e : BitVec 2) (a : BitVec 5) (b : BitVec 5) (v : BitVec 5)
  /-- `MMA_G` (R136). -/
  | mmaG (q : BitVec 3) (e : BitVec 2) (a : BitVec 5) (b : BitVec 5) (v : BitVec 5)
  /-- `MMA_S24` (R137). -/
  | mmaS24 (q : BitVec 3) (e : BitVec 2) (a : BitVec 5) (b : BitVec 5) (v : BitVec 5)
  /-- `MMA_BM` (R138). -/
  | mmaBm (q : BitVec 3) (e : BitVec 2) (a : BitVec 5) (b : BitVec 5) (v : BitVec 5)
  /-- `MZERO` (R140). -/
  | mzero (q : BitVec 3)
  /-- `MRSUM` (R140). -/
  | mrsum (q : BitVec 3) (e : BitVec 2) (a : BitVec 5) (b : BitVec 5)
  /-- `MLD` (R141). -/
  | mld (q : BitVec 3) (e : BitVec 1) (a : BitVec 5)
  /-- `MST` (R141). -/
  | mst (q : BitVec 3) (e : BitVec 1) (a : BitVec 5)
  /-- `MST_SM` (R141). -/
  | mstSm (q : BitVec 3) (e : BitVec 1) (a : BitVec 5)
  /-- `MDRAIN` (R142). -/
  | mdrain (q : BitVec 3) (e : BitVec 1) (a : BitVec 5) (b : BitVec 5) (t : BitVec 5)
  /-- `XCOPY` (R144). -/
  | xcopy (d : BitVec 5) (a : BitVec 5) (c : BitVec 4)
  /-- `XCOPY_Q` (R151). -/
  | xcopyQ (d : BitVec 5) (a : BitVec 5)
  /-- `XABORT` (R154). -/
  | xabort (a : BitVec 5)
  /-- `XQRY` (R154). -/
  | xqry (d : BitVec 5) (a : BitVec 5)
  /-- `XWAIT_W` (R153). -/
  | xwaitW (c : BitVec 4) (b : BitVec 5)
  /-- `XWAIT_E` (R153). -/
  | xwaitE
  /-- `XEV` (R152). -/
  | xev (d : BitVec 5)
  /-- `FCFG_LD` (R219). -/
  | fcfgLd (d : BitVec 5) (a : BitVec 5)
  /-- `FCFG_SW` (R220). -/
  | fcfgSw (d : BitVec 5) (a : BitVec 5)
  /-- `FSTART` (R221). -/
  | fstart
  /-- `FSTOP` (R221). -/
  | fstop
  /-- `FSAVE` (R222). -/
  | fsave (a : BitVec 5)
  /-- `FREST` (R222). -/
  | frest (a : BitVec 5)
  /-- `FMARK` (R223). -/
  | fmark (a : BitVec 5)
  /-- `FSTAT` (R225). -/
  | fstat (d : BitVec 5) (s : BitVec 5)
  /-- `FPORT_W` (R224). -/
  | fportW (a : BitVec 5) (p : BitVec 4)
  /-- `FPORT_W_EOS` (R224). -/
  | fportWEos (a : BitVec 5) (p : BitVec 4)
  /-- `FPORT_R` (R224). -/
  | fportR (d : BitVec 5) (p : BitVec 4)
  /-- `FPORT_R_STATUS` (R224). -/
  | fportRStatus (d : BitVec 5) (p : BitVec 4)
  /-- `SOPEN` (R270). -/
  | sopen (d : BitVec 5) (a : BitVec 5)
  /-- `SCLOSE` (R272). -/
  | sclose (d : BitVec 5)
  /-- `SADV` (R272). -/
  | sadv (d : BitVec 5) (a : BitVec 5)
  /-- `SPOS` (R272). -/
  | spos (d : BitVec 5) (a : BitVec 5)
  /-- `CHBIND` (R274). -/
  | chbind (c : BitVec 5) (a : BitVec 5)
  /-- `CHSEND` (R275). -/
  | chsend (d : BitVec 5) (a : BitVec 5) (c : BitVec 5)
  /-- `CHRECV` (R277). -/
  | chrecv (d : BitVec 5) (a : BitVec 5) (c : BitVec 5)
  /-- `CHPOLL` (R278). -/
  | chpoll (d : BitVec 5) (c : BitVec 5)
  /-- `CHSEQ` (R278). -/
  | chseq (d : BitVec 5) (c : BitVec 5)
  /-- `DRGT_SET` (R280). -/
  | drgtSet (l : BitVec 4) (a : BitVec 5)
  /-- `DRGT_RD` (R281). -/
  | drgtRd (d : BitVec 5) (l : BitVec 4) (s : BitVec 5)
  /-- `DRGT_FREEZE` (R281). -/
  | drgtFreeze (l : BitVec 4)
  /-- `DRGT_THAW` (R281). -/
  | drgtThaw (l : BitVec 4)
  /-- `LAUNCH` (R320). -/
  | launch (d : BitVec 5) (a : BitVec 5)
  /-- `TRIG` (R322). -/
  | trig
  /-- `EXIT` (R90). -/
  | exit (a : BitVec 5)
  /-- `WAIT_CH` (R324). -/
  | waitCh (d : BitVec 5) (a : BitVec 5)
  /-- `WAIT_CTR` (R318). -/
  | waitCtr (d : BitVec 5) (a : BitVec 5) (b : BitVec 5)
  /-- `YIELD` (R324). -/
  | yield
  /-- `RTAKE` (R326). -/
  | rtake (d : BitVec 5) (a : BitVec 5)
  /-- `CTR_RD` (R317). -/
  | ctrRd (d : BitVec 5) (a : BitVec 5)
  /-- `CTR_ADD` (R317). -/
  | ctrAdd (a : BitVec 5) (b : BitVec 5)
  /-- `CANCEL` (R319). -/
  | cancel (a : BitVec 5)
  /-- `GSQ_ARM` (R327). -/
  | gsqArm (a : BitVec 5) (b : BitVec 5)
  /-- `SPALLOC` (R328). -/
  | spalloc (d : BitVec 5) (a : BitVec 5)
  /-- `SPFREE` (R328). -/
  | spfree (a : BitVec 5) (b : BitVec 5)
  /-- `OPREQ` (R329). -/
  | opreq (d : BitVec 5) (a : BitVec 5)
  /-- `OPCAP` (R330). -/
  | opcap (d : BitVec 5) (a : BitVec 5)
  /-- `TAKE_TRAP` (R86). -/
  | takeTrap (tile : BitVec 10) (slot : BitVec 3)
  /-- `FETCH_FAULT` (R78). -/
  | fetchFault (tile : BitVec 10) (slot : BitVec 3)
  /-- `ENGINE_TRAP` (R379). -/
  | engineTrap (tile : BitVec 10)
  /-- `VECTOR_ENTRY_PERFORM` (R257). -/
  | vectorEntryPerform (tile : BitVec 10)
  /-- `MATRIX_ENTRY_START` (R129). -/
  | matrixEntryStart (tile : BitVec 10)
  /-- `MATRIX_ENTRY_COMPLETE` (R442). -/
  | matrixEntryComplete (tile : BitVec 10) (me : BitVec 1)
  /-- `ENGINE_ENTRY_RETIRE` (R356). -/
  | engineEntryRetire (tile : BitVec 10)
  /-- `MWAIT_TIMEOUT` (R83). -/
  | mwaitTimeout (tile : BitVec 10) (slot : BitVec 3)
  /-- `STRAND_AGE_PROMOTION` (R357). -/
  | strandAgePromotion (tile : BitVec 10) (slot : BitVec 3)
  /-- `COPY_ACCEPT` (R147). -/
  | copyAccept (tile : BitVec 10)
  /-- `COPY_LINE_WRITE` (R148). -/
  | copyLineWrite (tile : BitVec 10) (cslot : BitVec 9)
  /-- `COPY_COMPLETE` (R155). -/
  | copyComplete (tile : BitVec 10) (cslot : BitVec 9)
  /-- `COPY_PAGE_FAULT` (R387). -/
  | copyPageFault (tile : BitVec 10) (cslot : BitVec 9)
  /-- `EVENT_POST_DEFERRED` (R152). -/
  | eventPostDeferred (tile : BitVec 10) (cslot : BitVec 9)
  /-- `TEAM_START` (R185). -/
  | teamStart (part : BitVec 4) (cid : BitVec 20) (tile : BitVec 10)
  /-- `HELPER_END` (R90). -/
  | helperEnd (tile : BitVec 10) (slot : BitVec 3)
  /-- `TEAM_EXIT` (R323). -/
  | teamExit (tile : BitVec 10)
  /-- `CANCEL_DELIVERY` (R362). -/
  | cancelDelivery (tile : BitVec 10) (slot : BitVec 3)
  /-- `SUPERVISOR_RESTART` (R354). -/
  | supervisorRestart (part : BitVec 4)
  /-- `NOTICE_POST_RETRY` (R372). -/
  | noticePostRetry (part : BitVec 4)
  /-- `FABRIC_ADD` (R204). -/
  | fabricAdd (tile : BitVec 10) (pos : BitVec 6)
  /-- `FABRIC_SUB` (R204). -/
  | fabricSub (tile : BitVec 10) (pos : BitVec 6)
  /-- `FABRIC_MUL` (R204). -/
  | fabricMul (tile : BitVec 10) (pos : BitVec 6)
  /-- `FABRIC_FMA` (R204). -/
  | fabricFma (tile : BitVec 10) (pos : BitVec 6)
  /-- `FABRIC_MIN` (R204). -/
  | fabricMin (tile : BitVec 10) (pos : BitVec 6)
  /-- `FABRIC_MAX` (R204). -/
  | fabricMax (tile : BitVec 10) (pos : BitVec 6)
  /-- `FABRIC_AND` (R204). -/
  | fabricAnd (tile : BitVec 10) (pos : BitVec 6)
  /-- `FABRIC_OR` (R204). -/
  | fabricOr (tile : BitVec 10) (pos : BitVec 6)
  /-- `FABRIC_XOR` (R204). -/
  | fabricXor (tile : BitVec 10) (pos : BitVec 6)
  /-- `FABRIC_SHL` (R204). -/
  | fabricShl (tile : BitVec 10) (pos : BitVec 6)
  /-- `FABRIC_SHR` (R204). -/
  | fabricShr (tile : BitVec 10) (pos : BitVec 6)
  /-- `FABRIC_CMP` (R204). -/
  | fabricCmp (tile : BitVec 10) (pos : BitVec 6)
  /-- `FABRIC_SEL` (R204). -/
  | fabricSel (tile : BitVec 10) (pos : BitVec 6)
  /-- `FABRIC_CVT` (R204). -/
  | fabricCvt (tile : BitVec 10) (pos : BitVec 6)
  /-- `FABRIC_UNPK` (R205). -/
  | fabricUnpk (tile : BitVec 10) (pos : BitVec 6)
  /-- `FABRIC_PACK` (R205). -/
  | fabricPack (tile : BitVec 10) (pos : BitVec 6)
  /-- `FABRIC_AGEN` (R209). -/
  | fabricAgen (tile : BitVec 10) (pos : BitVec 6)
  /-- `FABRIC_LDN` (R206). -/
  | fabricLdn (tile : BitVec 10) (pos : BitVec 6)
  /-- `FABRIC_STN` (R206). -/
  | fabricStn (tile : BitVec 10) (pos : BitVec 6)
  /-- `FABRIC_AMON` (R206). -/
  | fabricAmon (tile : BitVec 10) (pos : BitVec 6)
  /-- `FABRIC_GATE` (R208). -/
  | fabricGate (tile : BitVec 10) (pos : BitVec 6)
  /-- `FABRIC_STEER` (R208). -/
  | fabricSteer (tile : BitVec 10) (pos : BitVec 6)
  /-- `FABRIC_MERGE` (R208). -/
  | fabricMerge (tile : BitVec 10) (pos : BitVec 6)
  /-- `FABRIC_ISECT` (R208). -/
  | fabricIsect (tile : BitVec 10) (pos : BitVec 6)
  /-- `FABRIC_CARRY` (R208). -/
  | fabricCarry (tile : BitVec 10) (pos : BitVec 6)
  /-- `FABRIC_INV` (R208). -/
  | fabricInv (tile : BitVec 10) (pos : BitVec 6)
  /-- `FABRIC_CTR` (R208). -/
  | fabricCtr (tile : BitVec 10) (pos : BitVec 6)
  /-- `FABRIC_RTAKE` (R209). -/
  | fabricRtake (tile : BitVec 10) (pos : BitVec 6)
  /-- `FABRIC_XREQ` (R210). -/
  | fabricXreq (tile : BitVec 10) (pos : BitVec 6)
  /-- `FABRIC_VIN` (R211). -/
  | fabricVin (tile : BitVec 10) (pos : BitVec 6)
  /-- `FABRIC_VOUT` (R211). -/
  | fabricVout (tile : BitVec 10) (pos : BitVec 6)
  /-- `FABRIC_CONST` (R212). -/
  | fabricConst (tile : BitVec 10) (pos : BitVec 6)
  /-- `FABRIC_DROP` (R212). -/
  | fabricDrop (tile : BitVec 10) (pos : BitVec 6)
  /-- `FABRIC_DUP` (R212). -/
  | fabricDup (tile : BitVec 10) (pos : BitVec 6)
  /-- `FABRIC_ACC` (R213). -/
  | fabricAcc (tile : BitVec 10) (pos : BitVec 6)
  /-- `FABRIC_TAGCHK` (R214). -/
  | fabricTagchk (tile : BitVec 10) (pos : BitVec 6)
  /-- `FABRIC_POSITION_SWITCH` (R220). -/
  | fabricPositionSwitch (tile : BitVec 10) (pos : BitVec 6)
  /-- `LATE_FIRING` (R243). -/
  | lateFiring (tile : BitVec 10) (pos : BitVec 6)
  /-- `RESOLUTION_WATCH_WRITE` (R386). -/
  | resolutionWatchWrite (line : BitVec 49)
  /-- `STREAM_ELEMENT_ARRIVAL` (R336). -/
  | streamElementArrival (tile : BitVec 10) (stile : BitVec 10)
  /-- `DRAUGHT_SAMPLE` (R341). -/
  | draughtSample (tile : BitVec 10) (loop : BitVec 4)
  /-- `RATE_MESSAGE_ARRIVAL` (R342). -/
  | rateMessageArrival (ptile : BitVec 10) (ctile : BitVec 10) (loop : BitVec 4)
  /-- `RESERVATION_REGISTRATION` (R282). -/
  | reservationRegistration (tile : BitVec 10) (st : BitVec 4)
  /-- `RESERVATION_PAGE_REGISTER` (R443). -/
  | reservationPageRegister (tile : BitVec 10) (st : BitVec 4) (vpage : BitVec 36)
  /-- `LINE_REQUEST` (R292). -/
  | lineRequest (tile : BitVec 10) (line : BitVec 49) (write : BitVec 1)
  /-- `PROBE_SHARED` (R292). -/
  | probeShared (tile : BitVec 10) (line : BitVec 49)
  /-- `PROBE_INVALIDATE` (R292). -/
  | probeInvalidate (tile : BitVec 10) (line : BitVec 49)
  /-- `LINE_EVICTION` (R292). -/
  | lineEviction (tile : BitVec 10) (line : BitVec 49)
  /-- `TILE_CACHE_RETENTION` (R294). -/
  | tileCacheRetention (tile : BitVec 10)
  /-- `SPLIT_PROBE` (R284). -/
  | splitProbe (rix : BitVec 14)
  /-- `SPLIT_ANSWER` (R296). -/
  | splitAnswer (rix : BitVec 14)
  /-- `POSITION_REPORT` (R285). -/
  | positionReport (rix : BitVec 14)
  /-- `RESERVATION_RELEASE` (R296). -/
  | reservationRelease (rix : BitVec 14)
  /-- `FORWARDED_ACQUIRE` (R259). -/
  | forwardedAcquire (tile : BitVec 10) (line : BitVec 49)
  /-- `BACK_INVALIDATE_SNOOP` (R302). -/
  | backInvalidateSnoop (line : BitVec 49)
  /-- `EXTERNAL_READ` (R266). -/
  | externalRead (addr : BitVec 56) (size : BitVec 2)
  /-- `EXTERNAL_WRITE` (R266). -/
  | externalWrite (addr : BitVec 56) (size : BitVec 2) (data : BitVec 64)
  /-- `MIGRATION_ARM` (R313). -/
  | migrationArm (part : BitVec 4)
  /-- `MIGRATION_START` (R313). -/
  | migrationStart (part : BitVec 4)
  /-- `MIGRATION_LINE_COPY` (R313). -/
  | migrationLineCopy (part : BitVec 4)
  /-- `POOL_WORD_OBSERVED` (R326). -/
  | poolWordObserved (part : BitVec 4) (pool : BitVec 8)
  /-- `PART_PREEMPT` (R388). -/
  | partPreempt (part : BitVec 4)
  /-- `TILE_HALT` (R388). -/
  | tileHalt (tile : BitVec 10)
  /-- `CONTEXT_SWAP_OUT` (R390). -/
  | contextSwapOut (tile : BitVec 10)
  /-- `CONTEXT_MOVE` (R391). -/
  | contextMove (tile : BitVec 10)
  /-- `STRIPE_EVICTION` (R392). -/
  | stripeEviction (tile : BitVec 10) (stripe : BitVec 11) (chbuf : BitVec 1)
  /-- `PART_RESUME` (R393). -/
  | partResume (part : BitVec 4)
  /-- `CONTEXT_RESTORE` (R393). -/
  | contextRestore (tile : BitVec 10)
  /-- `STRIPE_REFILL` (R393). -/
  | stripeRefill (tile : BitVec 10) (stripe : BitVec 11) (chbuf : BitVec 1)
  /-- `MARKER_NOTICE_ARRIVAL` (R400). -/
  | markerNoticeArrival (tile : BitVec 10) (stile : BitVec 10)
  /-- `SNAPSHOT` (R401). -/
  | snapshot (tile : BitVec 10)
  /-- `ERROR_CONSUMED` (R396). -/
  | errorConsumed (tile : BitVec 10) (slot : BitVec 3) (granule : BitVec 50) (src : BitVec 8)
  /-- `ROLLBACK` (R404). -/
  | rollback (tile : BitVec 10)
  /-- `PERMIT_AUDIT` (R407). -/
  | permitAudit (lost : BitVec 16)
  /-- `FLIT_CRC_RETRY` (R408). -/
  | flitCrcRetry (tile : BitVec 10) (tries : BitVec 4)
  /-- `UCIE_LANE_REPAIR` (R408). -/
  | ucieLaneRepair (link : BitVec 4) (ok : BitVec 1)
  /-- `PATROL_SCRUB` (R408). -/
  | patrolScrub (granule : BitVec 50) (bad : BitVec 2)
  /-- `TILE_FENCE` (R413). -/
  | tileFence (tile : BitVec 10)
  /-- `ALLOCATOR_ACK` (R424). -/
  | allocatorAck (tile : BitVec 10)
  /-- `STRIPE_MOVE` (R425). -/
  | stripeMove (tile : BitVec 10)
  /-- `CACHE_WAY_DISABLE` (R426). -/
  | cacheWayDisable (tile : BitVec 10)
  /-- `CLOCK_CHANGE` (R424). -/
  | clockChange
  /-- `VOLTAGE_RAMP` (R424). -/
  | voltageRamp
  /-- `OP_STEP_COMPLETE` (R424). -/
  | opStepComplete
  /-- `CHAR_MAP_REFRESH` (R421). -/
  | charMapRefresh (tile : BitVec 10) (point : BitVec 2) (fails : BitVec 1600) (tcw : BitVec 128) (l1w : BitVec 8)
  /-- `DEVICE_RESET` (R437). -/
  | deviceReset
  /-- `PART_SETUP` (R436). -/
  | partSetup (record : BitVec 2048)
  /-- `PART_RESET` (R434). -/
  | partReset (part : BitVec 4)
  /-- `PART_FREE` (R434). -/
  | partFree (part : BitVec 4)
  /-- `LEND` (R432). -/
  | lend (base : BitVec 26) (count : BitVec 26) (borrowers : List (BitVec 16))
  /-- `REVOKE` (R433). -/
  | revoke (base : BitVec 26) (count : BitVec 26)
  /-- `REVOCATION_NOTICE` (R433). -/
  | revocationNotice (base : BitVec 26) (count : BitVec 26)
  /-- `REVOCATION_ACK` (R433). -/
  | revocationAck (dev : BitVec 16)
  /-- `REVOKE_TIMEOUT` (R433). -/
  | revokeTimeout (dev : BitVec 16)
  /-- `ERRLOG` (R411). -/
  | errlog (log : BitVec 5) (first : BitVec 12) (count : BitVec 13)
  /-- `CHARMAP` (R420). -/
  | charmap (tile : BitVec 10)
  /-- `MEASURE` (R439). -/
  | measure
  /-- `ATTEST` (R439). -/
  | attest (nonce : BitVec 256)
  /-- `FW_STAGE` (R438). -/
  | fwStage (image : List (BitVec 8))
  /-- `DEV_CONFIG` (R431). -/
  | devConfig (windows : List (BitVec 128)) (timeout : BitVec 32) (audit : BitVec 3)
  /-- `HBM_CHANNEL_FAILURE` (R413). -/
  | hbmChannelFailure (channel : BitVec 8)
  /-- `CXL_COMPLETION_TIMEOUT` (R430). -/
  | cxlCompletionTimeout (tile : BitVec 10) (slot : BitVec 3)
  /-- `LINK_TRAINING` (R430). -/
  | linkTraining (port : BitVec 4) (width : BitVec 5) (ok : BitVec 1)
  deriving DecidableEq, Repr

end Sys2Proof
end

