-- ==== Sys2Proof/Machine/State.lean ====
section
/-! DEFINITION. The state of the device, as plain data, and its value right after reset.

Finite families (tiles, registers, counters, ...) are `SMap`s: an absent key stands for the family's reset value.  Physical
memory is one list of cells in canonical form (strictly rising addresses, no cell equal to what an unlisted byte reads as). -/

namespace Sys2Proof.Machine

/-! ### Traps and waits -/

/-- A trap a rule raises (R86, R379): the cause code and sub-cause of Tables 21.2 and 21.3, the values of `tva` and `telem`,
and the address for `tpc` where the rule names another one than the instruction's own. -/
structure Trap where
  cause : BitVec 8
  sub   : BitVec 8 := 0
  tva   : BitVec 56 := 0
  telem : BitVec 15 := 0
  tpc   : Option Word := none
  /-- a decode trap (R45) -/
  decode : Bool := false
  /-- its own notice has been posted, and that of the `DOUBLE` that it becomes (R228, R306, R372) -/
  posted : Bool := false
  doubled : Bool := false
  deriving DecidableEq, Repr

/-- What a WAITING strand (Table 19.1) or a stalled engine entry stands at.  The wait ends when the instruction, executed
again, no longer meets its condition. -/
inductive WaitKind where
  /-- older engine entries must retire (R45, R85, R87) -/
  | drain
  /-- older engine entries must commit (R378) -/
  | commit
  /-- a `fence.q` naming bit 20 has not retired (R80) -/
  | join
  /-- a scalar register that an engine entry still has to write -/
  | register
  /-- all 64 engine-queue entries are held (R356) -/
  | queueFull
  /-- a byte at or above a channel's watermark (R148, R157) -/
  | watermark
  /-- a byte pinned by an engine instruction (R190) -/
  | pin
  /-- a reservation under the wait or split policy, or a PENDING one: the reservation's identifier and the line (R296, R297) -/
  | reservation (rid line : Nat)
  /-- the partition's share of reservation entries is in use (R299) -/
  | reservationShare
  /-- a stripe not yet refilled after a resumption (R393) -/
  | refill
  /-- a line whose migration copy is in progress (R314) -/
  | migration
  /-- `mwait`, with its destination register and the cycle at which it times out (R83) -/
  | mwait (d : BitVec 5) (limit : Option Nat)
  /-- `wait.ch` (R324) -/
  | waitCh (mask : BitVec 32)
  /-- `wait.ctr` (R318) -/
  | waitCtr
  /-- no launch counter is free (R320) -/
  | launchCounter
  /-- four graphs are armed (R327), or no graph counter is free -/
  | graphSlot
  /-- `trig` or `exit` before the covered operations are performed (R90, R322) -/
  | operations
  /-- an engine entry of the tile names the stream register (R269) -/
  | streamEntry
  /-- `spfree` while a copy or a pin holds the region (R328) -/
  | regionHeld
  /-- an operating-point step in progress, with its target; then its result (R329) -/
  | opreq (target : Nat) (result : Option Word)
  /-- an empty receive channel or fabric port, or a full one (R121, R224, R246) -/
  | port
  /-- the strand's own `fport.w` or `fport.r` still waits in the engine queue (R224, Table 19.1) -/
  | portEntry
  /-- no copy slot, or no channel range, is free (R147, R150) -/
  | copySlot
  /-- `xwait.w` or `xwait.e` (R153) -/
  | copyWait
  /-- `vfba` before the barrier completes (R122) -/
  | barrier
  /-- a fabric that has not stopped or switched yet (R219 to R222) -/
  | fabric
  /-- the notice ring is full or cannot be written (R372) -/
  | notice
  deriving DecidableEq, Repr

/-- The states of Table 19.1. -/
inductive StrandState where
  | free | runnable | waiting (w : WaitKind) | halted | ended
  deriving DecidableEq, Repr

/-! ### Strands -/

/-- One strand slot (R11, R21, R82, R86, R344, R357). -/
structure Strand where
  /-- s1 to s31; register 0 is never stored (R11) -/
  regs      : SMap Word := []
  /-- program counter (R8) -/
  pc        : Word := 0
  state     : StrandState := .free
  /-- the handler bit H (R86) -/
  h         : Bool := false
  tcause    : BitVec 16 := 0
  tpc       : BitVec 48 := 0
  tva       : BitVec 56 := 0
  telem     : BitVec 15 := 0
  tvec      : BitVec 48 := 0
  tscr      : Word := 0
  /-- `fstat`: RM in [2:0], NX, UF, OF, DZ, NV in [8:4] -/
  fstat     : BitVec 9 := 0
  /-- `fidx.nv` … `fidx.nx`, keys 0 to 4 -/
  fidx      : SMap Word := []
  drsel     : BitVec 4 := 0
  /-- the watch: its 128-byte physical line and the written bit (R82) -/
  watch     : Option (BitVec 49) := none
  written   : Bool := false
  /-- issue bucket (R344) and age count (R357) -/
  bucket    : Int := 0
  age       : Nat := 0
  /-- the age count has reached 64: the strand compares as PRIO 8 until it next issues (R357) -/
  promoted  : Bool := false
  /-- `yield` has ended the strand's issue for this arbitration round (R324) -/
  yielded   : Bool := false
  /-- cancels that have reached the strand and are not yet delivered (R362): the identifiers -/
  cancels   : List Word := []
  /-- traps delivered at the next instruction boundary (R227, R405) -/
  traps     : List Trap := []
  /-- reservations with a write that is ordered before the strand's next release: its own accesses', those that `fence.q` has joined, and
  those before the writes that they have read from (R258, R287) -/
  carried   : List Nat := []
  /-- a notice of the strand's has still to be written: the strand stays where it is (R372) -/
  posting   : Bool := false
  deriving DecidableEq, Repr

/-! ### Stream registers, channels, Draught loops -/

/-- A stream register (R17, Table 13.2). -/
structure Stream where
  isOpen : Bool := false
  kind   : BitVec 3 := 0
  intent : BitVec 2 := 0
  pol    : BitVec 2 := 0
  addr   : Word := 0
  ext    : BitVec 32 := 0
  es     : BitVec 32 := 0
  ch     : BitVec 5 := 0
  port   : BitVec 4 := 0
  dtile  : BitVec 10 := 0
  pos    : Word := 0
  seq    : BitVec 16 := 0
  /-- reservation identifier: the key of the entries registered for the register (R17, R443) -/
  rid    : Option Nat := none
  /-- HW of R404: after a rollback, the highest SEQ that the register had sent -/
  hw     : Option (BitVec 16) := none
  deriving DecidableEq, Repr

/-- A stream element (Table 18.1) with the order in which it arrived (R324). -/
structure Element where
  pay   : BitVec 512
  seq   : BitVec 16
  ch    : BitVec 5
  dtile : BitVec 10
  stile : BitVec 10
  cc    : BitVec 16
  time  : Nat := 0
  /-- slot of the backing area's channel buffer from which it has still to be brought back (R392, R393) -/
  place : Option Nat := none
  deriving DecidableEq, Repr

/-- A channel-table entry with its queue and counts (R273, R274, R278, R336, R338). -/
structure Channel where
  entry    : Word := 0
  queue    : List Element := []
  expected : BitVec 16 := 0
  loss     : Nat := 0
  masked   : Nat := 0
  /-- elements from this queue place on are withheld after a stream-loss event (R338) -/
  withheld : Option Nat := none
  deriving DecidableEq, Repr

/-- A Draught loop at its consumer tile (R279, R280, R341, R346). -/
structure Loop where
  bound  : Bool := false
  w0     : Word := 0
  w1     : Word := 0
  gen    : Nat := 0
  integ  : Int := 0
  wp     : Nat := 128
  wc     : Nat := 128
  /-- cycles to the next sample -/
  next   : Nat := 0
  frozen : Bool := false
  /-- paused by a stream-loss event whose rollback is pending (R339) -/
  lossFrozen : Bool := false
  deriving DecidableEq, Repr

/-- A weight that a loop applies to a target of this tile as producer: loop's consumer tile and number, generation, target,
weight (R342, R343). -/
structure ProducerWeight where
  ctile  : Nat
  loop   : Nat
  gen    : Nat
  target : BitVec 7
  weight : Nat
  deriving DecidableEq, Repr

/-! ### Vector and matrix state -/

/-- One view of the configuration of the lead strand (R12, R91, R123): `vtagtab` by register, `vl`, `vstart`, `mcfg`, `mk` (here `kval`). -/
structure View where
  /-- 32 entries of `vtagtab`; an absent key reads 0x000A -/
  tags   : SMap (BitVec 16) := []
  vl     : Nat := 0
  vstart : Nat := 0
  mcfg   : BitVec 8 := 0
  kval   : BitVec 7 := 0
  deriving DecidableEq, Repr

/-- The element operations of Table 1.9 codes 0x00 to 0x12. -/
inductive ArithOp where
  | add | sub | mul | mulh | fma | fms | fnma | div | min | max | sadd | ssub | and | or | xor | andn | sll | srl | sra
  deriving DecidableEq, Repr

/-- Compares (Table 1.9 codes 0x18 to 0x1B). -/
inductive CmpOp where
  | eq | ne | lt | le
  deriving DecidableEq, Repr

/-- Unary element operations (Table 1.9 codes 0x20 to 0x29). -/
inductive UnaryOp where
  | abs | neg | clz | ctz | ffs | popc | exp2 | log2 | rcp | rsq
  deriving DecidableEq, Repr

/-- Rounding selection of `vcvt` (R31): dyn takes `fstat.RM`. -/
inductive CvtMode where
  | dyn | rne | rtz | rdn | rup | rmm | sr
  deriving DecidableEq, Repr

/-- Mask algebra (R33). -/
inductive MaskOp where
  | and | or | xor | andn | orn
  deriving DecidableEq, Repr

/-- Reductions (Table 1.10). -/
inductive RedOp where
  | sum | sumo | min | max
  deriving DecidableEq, Repr

/-- Memory-to-memory element operations (Table 1.11). -/
inductive VmmOp where
  | add | sub | mul | min | max | and | or | xor | cpy
  deriving DecidableEq, Repr

/-- The second operand of an element operation: a register group, a scalar, or the immediate (R31, R32). -/
inductive SrcB where
  | vec (b : BitVec 5) | scalar (b : BitVec 5) | imm (i : BitVec 5)
  deriving DecidableEq, Repr

/-- The address form of a vector memory instruction (Table 1.11). -/
inductive MemForm where
  | unit | strided (b : BitVec 5) | indexed (b : BitVec 5) | firstFault | shaped
  deriving DecidableEq, Repr

/-- The matrix multiplications (Table 1.12). -/
inductive MmaKind where
  | dense | scaled (v : BitVec 5) | grouped (v : BitVec 5) | s24 (v : BitVec 5) | bitmap (v : BitVec 5) | rowSum
  deriving DecidableEq, Repr

/-- An engine-queue operation: what an instruction of a lead-only major leaves in the queue (R356). -/
inductive EngOp where
  | arith (op : ArithOp) (d a : BitVec 5) (b : SrcB) (k : BitVec 3)
  | cmp (op : CmpOp) (d a : BitVec 5) (b : SrcB) (k : BitVec 3)
  | unary (op : UnaryOp) (d a : BitVec 5) (k : BitVec 3)
  | cvt (mode : CvtMode) (d a : BitVec 5) (k : BitVec 3)
  | quant (d a b : BitVec 5) (k : BitVec 3)
  | dequant (d a b : BitVec 5) (k : BitVec 3)
  | maskOp (op : MaskOp) (d a b : BitVec 5)
  | maskNot (d a : BitVec 5)
  | maskPopc (d a : BitVec 5) (k : BitVec 3)
  | maskFirst (d a : BitVec 5) (k : BitVec 3)
  | maskSet (d : BitVec 5)
  | maskClr (d : BitVec 5)
  | slideUp (d a b : BitVec 5) (k : BitVec 3)
  | slideDown (d a b : BitVec 5) (k : BitVec 3)
  | gather (d a b : BitVec 5) (k : BitVec 3)
  | compress (d a : BitVec 5) (k : BitVec 3)
  | expand (d a : BitVec 5) (k : BitVec 3)
  | bcast (d a : BitVec 5) (k : BitVec 3)
  | extract (d a b : BitVec 5)
  | insert (d a b : BitVec 5)
  | reduce (op : RedOp) (d a b : BitVec 5) (k : BitVec 3)
  | vsetl (d a b : BitVec 5)
  | vtag (d t : BitVec 5) (r : BitVec 3) (g : BitVec 2)
  | load (form : MemForm) (d a : BitVec 5) (k : BitVec 3)
  | store (form : MemForm) (d a : BitVec 5) (k : BitVec 3)
  | vmm (op : VmmOp) (d a b : BitVec 5) (k : BitVec 3)
  | vfba (s : BitVec 3)
  | mcfg (a f : BitVec 5) (sat sb sa : BitVec 1)
  | mma (kind : MmaKind) (q : BitVec 3) (sel : BitVec 2) (a b : BitVec 5)
  | mzero (q : BitVec 3)
  | mld (q : BitVec 3) (sel : BitVec 1) (a : BitVec 5)
  | mst (q : BitVec 3) (sel : BitVec 1) (a : BitVec 5)
  | mstSm (q : BitVec 3) (sel : BitVec 1) (a : BitVec 5)
  | mdrain (q : BitVec 3) (sel : BitVec 1) (a b t : BitVec 5)
  | xcopy (d a : BitVec 5) (c : BitVec 4)
  | xcopyQ (d a : BitVec 5)
  | xabort (a : BitVec 5)
  | xqry (d a : BitVec 5)
  | xwaitW (c : BitVec 4) (b : BitVec 5)
  | xwaitE
  | xev (d : BitVec 5)
  | fcfgLd (d a : BitVec 5)
  | fcfgSw (d a : BitVec 5)
  | fstart
  | fstop
  | fsave (a : BitVec 5)
  | frest (a : BitVec 5)
  | fmark (a : BitVec 5)
  | fstat (d s : BitVec 5)
  | fportW (a : BitVec 5) (p : BitVec 4) (eos : Bool)
  | fportR (d : BitVec 5) (p : BitVec 4) (status : Bool)
  | fenceQ (m : BitVec 5)
  deriving DecidableEq, Repr

/-- How far an engine entry has come. -/
inductive EntryState where
  /-- issued, not begun -/
  | issued
  /-- begun and stalled at an instruction boundary -/
  | stalled (w : WaitKind)
  /-- a matrix entry whose results are in place while its engine is still occupied (R442) -/
  | running (me : BitVec 1)
  /-- performed; waits to retire in issue order (R356) -/
  | performed
  deriving DecidableEq, Repr

/-- Registers as they stood before an entry wrote them: what is put back when the entry is discarded (R131, R377). -/
structure RegSave where
  v   : SMap (BitVec 8192) := []
  m   : SMap (BitVec 8192) := []
  q   : SMap (BitVec 32768) := []
  sat : SMap (BitVec 1024) := []
  deriving DecidableEq, Repr

/-- An entry of the engine queue (R356) with the values that R377 keeps for it. -/
structure Entry where
  op    : EngOp
  /-- slot of the strand that issued it: a `fence.q` may be a helper's or the supervisor's (R80) -/
  slot  : Nat := 0
  pc    : Word
  regs  : SMap Word
  /-- the issue views when the entry issued (R91, R123) -/
  view  : View
  state : EntryState := .issued
  /-- `fstat` flags and `fidx` values that its retirement records (R22): element per flag NV, DZ, OF, UF, NX -/
  flags : List (Option Nat) := []
  /-- scalar registers and values that its retirement writes (R96) -/
  dests : List (BitVec 5 × Word) := []
  /-- the length to which its retirement trims `vl` (R92) -/
  trim  : Option Nat := none
  /-- tag that a `vldt` has read from its shape record (R119) -/
  rtag  : Option (BitVec 5) := none
  /-- the value of G that its retirement sets (R169) -/
  g     : Option (BitVec 32) := none
  /-- scratchpad bytes that it pins: runs [a, b) of offsets by tile (R189) -/
  pins  : SMap (List (Nat × Nat)) := []
  /-- it was performed ahead of an entry that may still trap: the registers that it changed (R131, R356) -/
  saved : Option RegSave := none
  deriving DecidableEq, Repr

/-! ### The spatial fabric (R195 to R251) -/

inductive TokKind where
  | data | eos | switch | marker
  deriving DecidableEq, Repr

/-- A token (R196, Table 11.2). -/
structure Token where
  val  : Word := 0
  kind : TokKind := .data
  gen  : BitVec 8 := 0
  mark : BitVec 16 := 0
  /-- firing ordinal, on the data tokens of a divertible operator (R241) -/
  ord  : Option (BitVec 16) := none
  deriving DecidableEq, Repr

/-- A position with its operator's state (R249, Tables 11.3 and 11.4). -/
structure Pos where
  word : Word := 0
  gen  : BitVec 8 := 0
  stl  : Bool := false
  flt  : Bool := false
  dv   : Bool := false
  s0   : Word := 0
  s1   : Word := 0
  s2   : Word := 0
  /-- input slots A, B, C and output slots O0, O1, O2, keys 0 to 2 -/
  ins  : SMap Token := []
  outs : SMap Token := []
  /-- held markers, the oldest first, that the position has emitted already (R223) -/
  marked : Nat := 0
  /-- inputs that have received EOS, bit per input (R217); bit 3: the last token of a two-token end has still to follow, or an
  unlinked `const` has ended; bit 4: `inv` keeps the value in its slot A -/
  ended : Nat := 0
  /-- the last meridian marker that has passed (R401) -/
  mark : Option (BitVec 16) := none
  /-- issue bucket of a gated position (R345) -/
  bucket : Int := 0
  /-- line of the table entry that a stalled operator's resolution watch is on (R386) -/
  watch : Nat := 0
  /-- cycle since which the request of a `rtake` operator waits (R326) -/
  since : Option Nat := none
  /-- the words of a range token that follows the marker which `rtake` has emitted ahead of it (R400) -/
  owed : Option (Word × Word) := none
  /-- a fault whose notice has still to be written: the position stays as it is (R372) -/
  posting : Option Trap := none
  deriving DecidableEq, Repr

/-- A link with the tokens in flight on it, the one nearest the input first (R199, R203). -/
structure FLink where
  word : Word
  gen  : BitVec 8
  toks : List Token := []
  deriving DecidableEq, Repr

/-- A spill-queue entry (Table 11.5). -/
structure Spill where
  ea   : Word
  opr  : Word
  parked : Option (BitVec 2 × Word) := none
  src  : Nat
  dst  : Nat
  replayed : Bool := false
  ord  : BitVec 16
  gen  : BitVec 8
  /-- line of the table entry that the entry's resolution watch is on (R386) -/
  watch : Nat := 0
  /-- the line has been written since: the access is to be performed again (R243) -/
  again : Bool := false
  deriving DecidableEq, Repr

/-- A configuration image: element words, link words, loop records (R197). -/
structure Image where
  elems : SMap Word := []
  links : List Word := []
  loops : List (Word × Word) := []
  deriving DecidableEq, Repr

structure Fabric where
  /-- state code of Table 9.6 -/
  code  : Nat := 0
  image : Image := {}
  /-- generation of `image` -/
  gen   : BitVec 8 := 0
  pos   : SMap Pos := []
  links : List FLink := []
  /-- image address and image of a switch that is still spreading (R220) -/
  next  : Option (Word × Image) := none
  inq   : SMap (List Token) := []
  outq  : SMap (List Token) := []
  /-- E bits of the ports (R224) -/
  ebits : BitVec 16 := 0
  spill : List Spill := []
  spillHigh : Nat := 0
  /-- counters of Table 9.10, keys 1 to 3, 5 to 9 -/
  counts : SMap Nat := []
  faultPos : Nat := 0
  faultCause : BitVec 8 := 0
  /-- markers held for injection (R223) -/
  marks : List (BitVec 16) := []
  /-- how many of them go ahead of the switch that is still leaving the sources (R220, R235) -/
  swAt : Nat := 0
  deriving DecidableEq, Repr

/-! ### Transfers -/

/-- How far a copy has come (R147, R149, R154). -/
inductive CopyState where
  | running
  /-- suspended on a page fault, with the line of the table entry it watches (R386, R387) -/
  | suspended (line : Nat)
  | complete | aborted | failed
  deriving DecidableEq, Repr

inductive XState where
  | idle | busy | failed
  deriving DecidableEq, Repr

/-- A transfer channel (R148): its range [rb, re) and watermark are offsets in the scratchpad of `tile`. -/
structure XChan where
  state : XState := .idle
  tile  : Nat := 0
  /-- bits [24:22] of the scratchpad address that the range was given by -/
  top   : Nat := 0
  rb    : Nat := 0
  re    : Nat := 0
  wm    : Nat := 0
  /-- runs [a, b) of bytes above WM that are written or lie in a layout gap below a written byte -/
  filled : List (Nat × Nat) := []
  deriving DecidableEq, Repr

/-- An accepted copy (R144, R145). -/
structure Copy where
  /-- identifier (R147) -/
  ident : Nat
  /-- launch whose team accepted it (R152) -/
  cid   : BitVec 20
  chan  : Nat
  /-- scratchpad to memory -/
  out   : Bool
  tag   : Nat
  base  : Nat
  exts  : List Nat
  strides : List Int
  /-- scratchpad address bits [24:0] of the first element, rotation code, line pitch -/
  spa   : Nat
  rot   : Nat
  lp    : Nat
  lim   : Nat
  mreg  : Nat
  ev    : Bool
  /-- linear index of the next element -/
  next  : Nat := 0
  moved : Nat := 0
  state : CopyState := .running
  cause : BitVec 8 := 0
  sub   : BitVec 8 := 0
  fault : Nat := 0
  /-- bytes that it claimed of its channel's range, the channel as it stood before when it began a new range, and the slot taken last before
  it: what is put back when its entry is discarded (R131) -/
  span  : Nat := 0
  /-- a byte has been moved, or its access has faulted: the acceptance stands (R147) -/
  begun : Bool := false
  /-- it has failed, and its notice has still to be written before its slot is released (R372) -/
  posting : Bool := false
  prior : Option XChan := none
  lastSlot : Nat := 511
  deriving DecidableEq, Repr

/-! ### Teams and scratchpad allocation -/

/-- Who holds a run of stripes: a launch of the tile's partition by its counter identifier, or the supervisor (R328). -/
inductive Owner where
  | launch (cid : BitVec 20) | supervisor
  deriving DecidableEq, Repr

/-- A run of allocated logical stripes (R180, R328). -/
structure Region where
  base    : Nat
  stripes : Nat
  owner   : Owner
  /-- the launch footprint, which `spfree` does not free -/
  footprint : Bool
  /-- of a launch of cluster scope: held until its teams on all four tiles have exited (R180) -/
  cluster : Bool := false
  deriving DecidableEq, Repr

/-- The team a tile runs (R352). -/
structure Team where
  cid    : BitVec 20
  ns     : Nat
  prio   : Nat
  /-- index of the tile in the launch (R62: s3) -/
  index  : Nat
  cs     : Bool
  contributed : Bool := false
  status : BitVec 8 := 0
  /-- graph counter identifier, node and instance, for a team that a sequencer started (R327, R366) -/
  node   : Option (BitVec 20 × Nat × Nat) := none
  deriving DecidableEq, Repr

/-! ### Launches and graphs -/

/-- A launch that has not completed: its record and the tiles whose teams have not started (R320, R321). -/
structure Launch where
  cid   : BitVec 20
  /-- the 48 words of the launch record (Table 16.3) -/
  words : List Word
  /-- ARG, with the instance number added for a graph's launch (R327) -/
  arg   : Word
  pending : List Nat
  /-- graph counter, node and instance, for a launch that a sequencer made -/
  node  : Option (BitVec 20 × Nat × Nat) := none
  deriving DecidableEq, Repr

/-- A node of an armed graph (Table 16.5). -/
structure GNode where
  /-- the launch record's words -/
  words : List Word
  npred : Nat
  succs : List Nat
  /-- instances started and instances contributed -/
  started : Nat := 0
  contributed : Nat := 0
  exited : List Nat := []
  deriving DecidableEq, Repr

/-- A graph armed at a cluster's sequencer (R327). -/
structure Graph where
  cluster : Nat
  cid   : BitVec 20
  n     : Nat
  nodes : List GNode
  deriving DecidableEq, Repr

/-! ### A tile -/

/-- The part of a tile that a context save holds and a snapshot restores (Table 21.6). -/
structure Ctx where
  /-- strand slots 0 to 7 -/
  strands : SMap Strand := []
  v       : SMap (BitVec 8192) := []
  m       : SMap (BitVec 8192) := []
  q       : SMap (BitVec 32768) := []
  sat     : SMap (BitVec 1024) := []
  /-- the architectural registers -/
  av      : View := {}
  /-- the stochastic-rounding generator G, which never holds 0 (R167); a team's start seeds it (R168) -/
  g       : BitVec 32 := 1
  /-- arrivals at the launch's barrier of each scope 0 to 4 (R122) -/
  arrivals : SMap Nat := []
  streams : SMap Stream := []
  chans   : SMap Channel := []
  loops   : SMap Loop := []
  xchans  : SMap XChan := []
  fabric  : Fabric := {}
  /-- accepted copies by slot, the reuse count of each slot, and the slot taken last (R147, R154) -/
  copies  : SMap Copy := []
  slotUse : SMap Nat := []
  slotLast : Nat := 511
  /-- reservations with a write that an operation of an engine queue, keys 0 to 3, has made or read from (R258, R263) -/
  under   : SMap (List Nat) := []
  /-- event queue, oldest record first (R152), and the slots of ended copies whose records wait for space, in the order in which they
  ended (R187) -/
  events  : List (Word × Word) := []
  deferred : List Nat := []
  deriving DecidableEq, Repr

/-! ### Reliability -/

/-- What an undo-log entry holds (Table 22.3). -/
inductive UndoKind where
  /-- old contents of the memory granule `pa[55:6]`, 64 bytes as a number -/
  | memory (granule : Nat) (old : BitVec 512)
  /-- old contents of the scratchpad granule at that offset of the tile `holder` -/
  | spd (holder granule : Nat) (old : BitVec 512)
  /-- an arrival from outside the region -/
  | arrival (e : Element)
  deriving DecidableEq, Repr

structure Undo where
  kind : UndoKind
  /-- wave of the latest snapshot when the entry was made -/
  wave : BitVec 16
  /-- EXP: supplied outside the region since -/
  exposed : Bool := false
  /-- the granule was poisoned -/
  bad : Bool := false
  /-- place of the entry among all that the device has made -/
  time : Nat := 0
  deriving DecidableEq, Repr

/-! ### Caches and translations of a tile -/

/-- A line held in a cache: its way, the line number `pa[55:7]`, the cycle at which it was filled, and for L1I its 128 bytes (R192). -/
structure CacheLine where
  way   : Nat
  line  : Nat
  stamp : Nat
  data  : BitVec 1024 := 0
  deriving DecidableEq, Repr

/-- A translation that a tile keeps (R308): partition, first virtual byte and size exponent of the page, the lines of the table entries
that its walk read, and the stream register that walked it ahead (R310). -/
structure Xlat where
  part   : Nat
  base   : Nat
  bits   : Nat
  walked : List Nat
  stream : Option Nat := none
  deriving DecidableEq, Repr

structure Tile where
  ctx    : Ctx := {}
  /-- tile cache, L1D and L1I by set (Table 8.2): the lines each set holds -/
  tc     : SMap (List CacheLine) := []
  l1d    : SMap (List CacheLine) := []
  l1i    : SMap (List CacheLine) := []
  /-- byte-valid masks of the reserved lines that the tile cache holds (R283) -/
  rmask  : SMap (BitVec 128) := []
  /-- translations kept (R308) -/
  xlat   : List Xlat := []
  /-- undo log, newest entry first (R402) -/
  undo   : List Undo := []
  /-- wave of the latest snapshot when an entry last found no room -/
  undoLost : Option (BitVec 16) := none
  /-- char map slots by point (Table 24.2): FAILS, TCW, L1W -/
  fails  : SMap (BitVec 1600) := []
  tcw    : SMap (BitVec 128) := []
  l1w    : SMap (BitVec 8) := []
  /-- the stripe remap table where it differs from the table of OP0 (R422): logical to physical stripe -/
  remap  : SMap Nat := []
  /-- cache ways disabled by the last step: TCW and L1W bits (R426) -/
  tcOff  : BitVec 128 := 0
  l1Off  : BitVec 8 := 0
  /-- the tile stands halted for pre-emption (R388) -/
  halted : Bool := false
  /-- the context in shadow storage, and one moved to the backing area (R390, R391) -/
  saved   : Option Ctx := none
  backing : Option Ctx := none
  /-- logical stripes, and the channel buffer, that stand in the backing area (R392, R393) -/
  evicted : List Nat := []
  chEvicted : Bool := false
  /-- wave of the latest snapshot, and the two most recent snapshots, latest first (R401, R402) -/
  wave   : Option (BitVec 16) := none
  snaps  : List (BitVec 16 × Ctx) := []
  /-- latest marker notice from each tile of the region (R400) -/
  marked : SMap (BitVec 16) := []
  /-- an error that a rollback is to contain: its source (Table 22.8: 8 a stream loss), its physical address -/
  rollback : Option (BitVec 8 × BitVec 56) := none
  /-- fenced: the tile does not respond (R413) -/
  fenced : Bool := false
  /-- graph counter, node and instance of the last team, when its fabric configuration may serve the next instance (R366) -/
  lastNode : Option (BitVec 20 × Nat × Nat) := none
  /-- partition the tile belongs to (`partid`) -/
  part   : Option Nat := none
  team   : Option Team := none
  /-- the engine queue, oldest entry first (R356) -/
  queue  : List Entry := []
  /-- scratchpad bytes that the entry being performed has read: its pins to be -/
  reads  : SMap (List (Nat × Nat)) := []
  /-- scratchpad bytes by logical offset; an unlisted byte reads 0 (R180) -/
  spd    : List Host.Cell := []
  /-- poisoned 64-byte granules of the scratchpad (R396), and granules with an uncorrectable error that nothing has found yet (R408) -/
  spdPoison : List Nat := []
  spdLatent : List Nat := []
  regions : List Region := []
  /-- weights that loops of other tiles apply here as producer (R342) -/
  weights : List ProducerWeight := []
  deriving DecidableEq, Repr

/-! ### Partitions -/

/-- A counter of the counter file (R316, Table 16.2). -/
structure Counter where
  gen     : BitVec 8 := 0
  live    : Bool := false
  contrib : Nat := 0
  exited  : Nat := 0
  teams   : Nat := 0
  xst     : BitVec 8 := 0
  done    : Nat := 0
  n       : Nat := 0
  val     : BitVec 48 := 0
  can     : Bool := false
  parent  : Option (BitVec 20) := none
  deriving DecidableEq, Repr

/-- The migration slice's record of a partition's migration (R312, R313). -/
structure Migration where
  old  : Nat
  new  : Nat
  /-- page size exponent -/
  size : Nat
  ptr  : Nat := 0
  /-- STATE: 1 armed, 2 copying, 3 done -/
  phase : Nat := 1
  failed : Bool := false
  deriving DecidableEq, Repr

/-- Pre-emption of a partition (R388 to R393). -/
inductive PreState where
  | running | halting | saved | resuming
  deriving DecidableEq, Repr

structure Partition where
  pre      : PreState := .running
  /-- the partition record, word k in bits [64k + 63 : 64k] (Table 25.3) -/
  record   : BitVec 2048 := 0
  counters : SMap Counter := []
  mig      : Option Migration := none
  /-- the setting of ARM that stands in the mailbox has been answered (R313) -/
  armSeen  : Bool := false
  launches : List Launch := []
  graphs   : List Graph := []
  /-- launch and graph index taken last (R316) -/
  lastLaunch : Nat := 1023
  lastGraph  : Nat := 1023
  /-- account of each tile for each pool, physical address of word 2 of each pool that the server has looked at, pools whose CLOSED has been
  written from 1 to 0 and which it has still to observe, tokens served of each pool (R326, R400).  Pool p's are held by the server of
  MD(p mod 4) (R325). -/
  accounts : SMap (SMap Nat) := []
  poolAt   : SMap Nat := []
  reopened : List Nat := []
  served   : SMap Nat := []
  /-- tokens of each pool that were marked as wave starts (R400) -/
  marked   : SMap Nat := []
  /-- cycles at which the supervisor strand was restarted, latest first (R354) -/
  restarts : List Nat := []
  /-- the supervisor strand is left HALTED until PART_RESET (R354) -/
  abandoned : Bool := false
  /-- notices the posting agents still hold, oldest first (R372): the four words -/
  notices  : List (Word × Word × Word × Word) := []
  /-- line of the table entry that stopped the last attempt to write one: it is tried again when the line is written (R372) -/
  noteWatch : Option Nat := none
  /-- tile whose slot 7 the supervisor strand holds; none: the partition is not set up -/
  sup      : Option Nat := none
  /-- error log, oldest record first: the four words of Table 22.8 -/
  errlog   : List (Word × Word × Word × Word) := []
  /-- highest complete wave of each region: its counter, its instance (0 for a launch), the wave (R401) -/
  waves    : List (BitVec 20 × Nat × BitVec 16) := []
  deriving DecidableEq, Repr

/-! ### Coherence and reservations -/

/-- Tile-cache line states (Table 15.2); I is the absence of the tile from the line's holders. -/
inductive LineState where
  | m | o | e | s
  deriving DecidableEq, Repr

/-- States of a reservation entry (Table 15.3). -/
inductive ResState where
  | pending | granted | splitting | releasing
  deriving DecidableEq, Repr

/-- A directory region entry (Table 15.1) under its RTAG `pa[55:9]`.  LSn and OWNn stand under keys 0 to 3; LSn = 3 and RIX follow from
the reservation entries. -/
structure DirEntry where
  cv   : BitVec 256 := 0
  ls   : SMap (BitVec 2) := []
  own  : SMap (BitVec 8) := []
  pid0 : BitVec 16 := 0
  pid1 : BitVec 16 := 0
  pv   : BitVec 2 := 0
  ovf  : Bool := false
  deriving DecidableEq, Repr

/-- What a home knows of a release whose release sequence a word's value belongs to (R258, R259): the word's physical address and bytes, the
releasing tile, the scope, and the reservations with a write that the release orders before itself. -/
structure Release where
  addr  : Nat
  tile  : Nat
  scope : BitVec 3
  size  : Nat
  under : List Nat := []
  deriving DecidableEq, Repr

/-- A reservation entry at one home slice for one registered page of a stream's range (R295, R296, R443). -/
structure ResEntry where
  /-- identifier that the owner's stream register holds -/
  rid   : Nat
  owner : Nat
  st    : Nat
  part  : Nat
  slice : Nat
  /-- physical bytes [lo, hi) of the page's part of the range, and the virtual address of `lo` -/
  lo    : Nat
  hi    : Nat
  vlo   : Nat
  /-- ES < 0: the stream runs downward -/
  down  : Bool
  write : Bool
  pol   : BitVec 2
  state : ResState
  /-- lines below it (above it, when `down`) have left the reservation -/
  cut   : Nat
  /-- lines of the table entries that the page's translation was walked through: a write to one ends the registration (R443) -/
  walked : List Nat := []
  /-- the edge of a split answer on its way to the slice (R284) -/
  answer : Option Nat := none
  /-- lines whose accesses the slice holds (R285) -/
  held : List Nat := []
  /-- place among the 2,048 entries of the slice (R299) -/
  ix : Nat := 0
  deriving DecidableEq, Repr

/-- A device window (R431): bytes [base, base + size), class 1 peer or 2 pool, target device. -/
structure Window where
  base : Nat
  size : Nat
  cls  : BitVec 2
  dev  : BitVec 16
  deriving DecidableEq, Repr

/-- A range lent to the pool, in 1 GiB units (R432), with the borrowers that a revocation still waits for (R433). -/
structure Lent where
  base : Nat
  count : Nat
  borrowers : List (BitVec 16)
  awaited : Option (List (BitVec 16)) := none
  deriving DecidableEq, Repr

/-- An operating-point step in progress (R424). -/
structure OpStep where
  target : Nat
  /-- tiles whose allocator has acknowledged -/
  acked   : List Nat := []
  checked : Bool := false
  /-- tiles whose caches are prepared -/
  ways    : List Nat := []
  clock   : Bool := false
  ramp    : Bool := false
  deriving DecidableEq, Repr

/-! ### Messages in transit -/

/-- A stream element on its way from tile `src` to tile `dst` (R335). -/
structure Flight where
  src  : Nat
  dst  : Nat
  elem : Element
  deriving DecidableEq, Repr

/-- A rate message on its way to a producer tile (R341, R342). -/
structure RateMsg where
  ptile  : Nat
  ctile  : Nat
  loop   : Nat
  gen    : Nat
  weight : Nat
  deriving DecidableEq, Repr

/-- A marker notice on its way between two tiles of a region (R400). -/
structure Marker where
  src  : Nat
  dst  : Nat
  wave : BitVec 16
  /-- elements in flight from `src` to `dst` that were sent before it -/
  ahead : Nat := 0
  deriving DecidableEq, Repr

/-! ### The device -/

/-- Whose turn it is, when the outside world or an interleaving decides: an event, or the issue of one tile (`lag`: an engine
instruction only takes its queue entry).  The model's own data (see the assumption log), no state of the spec. -/
inductive Turn where
  | event (i : Instr) | issue (tile : Nat) (lag : Bool)
  /-- an error of the hardware's that the opcode table has no event for: one that was corrected (its tile, source, address), an uncorrectable
  one that an eviction or a write-back has found (tile, granule), and one that arises in a scratchpad granule (tile, granule) (R395, R408) -/
  | corrected (tile src addr : Nat) | poisoned (tile granule : Nat) | spdError (tile granule : Nat)
  deriving DecidableEq, Repr

/-- A management command (Table 25.2). -/
inductive Command where
  | partSetup (record : BitVec 2048) | partReset (part : BitVec 4) | partPreempt (part : BitVec 4) | partResume (part : BitVec 4)
  | partFree (part : BitVec 4)
  | lend (base count : BitVec 26) (borrowers : List (BitVec 16)) | revoke (base count : BitVec 26)
  | errlog (log : BitVec 5) (first : BitVec 12) (count : BitVec 13) | charmap (tile : BitVec 10)
  | measure | attest (nonce : BitVec 256) | fwStage (image : List (BitVec 8))
  | devConfig (windows : List (BitVec 128)) (timeout : BitVec 32) (audit : BitVec 3)
  deriving DecidableEq, Repr

structure State where
  /-- tiles 0 to 1023 by global number (R2) -/
  tiles : SMap Tile := []
  parts : SMap Partition := []
  /-- physical memory (R289) -/
  mem   : List Host.Cell := []
  /-- arithmetic-clock cycles since reset -/
  cyc   : Nat := 0
  /-- current operating point and BUSY (`opcur`) -/
  opcur : BitVec 2 := 0
  opBusy : Bool := false
  /-- the tile and slot whose instruction `exec` runs: the model's own cursor -/
  ct    : Nat := 0
  cs    : Nat := 0
  agenda : List Turn := []
  /-- management commands that arrived while another was in progress, oldest first (R434) -/
  commands : List Command := []
  /-- undo-log entries made so far (R402) -/
  undoMade : Nat := 0
  /-- the present turn leaves the engines behind: the model's own -/
  lag   : Bool := false
  /-- holders of each cached 128-byte line `pa[55:7]` (R291, R292) -/
  lines : SMap (SMap LineState) := []
  /-- directory region entries, and the regions whose lines the memory-side cache of their die holds, with a dirty bit for each line
  (R290) -/
  dir   : SMap DirEntry := []
  msc   : SMap (BitVec 4) := []
  /-- releases whose words stand, oldest first (R259) -/
  rels  : List Release := []
  /-- the virtual edges that splits of a reservation have reached, by slice (R298) -/
  cuts  : SMap (SMap Nat) := []
  /-- reservation entries, in order of registration -/
  resv  : List ResEntry := []
  /-- identifier for the next reservation -/
  nextRid : Nat := 0
  /-- stream elements, rate messages and marker notices in transit, each in send order -/
  flight : List Flight := []
  rates  : List RateMsg := []
  markers : List Marker := []
  windows : List Window := []
  /-- window bytes whose lender has revoked them (R433): base and size -/
  revoked : List (Nat × Nat) := []
  /-- lines that hold a leaf entry some suspended access watches (R386), and those of them written since -/
  resWatches : List Nat := []
  resWritten : List Nat := []
  /-- tiles whose cache data array is in retention (R294) -/
  retained : List Nat := []
  /-- poisoned granules `pa[55:6]` (R395) and consumptions not yet classed (R396): tile, slot, granule -/
  poison : List Nat := []
  /-- the device's error log (R411) -/
  errlog : List (Word × Word × Word × Word) := []
  consumed : List (Nat × Nat × Nat) := []
  opStep : Option OpStep := none
  lent  : List Lent := []
  /-- `DEV_CONFIG`: completion timeout in ns and permit-audit period code (R407, R434) -/
  timeout : BitVec 32 := 0
  audit : BitVec 3 := 2
  /-- boot failed: only `FW_STAGE` and `MEASURE` execute (R437) -/
  recovery : Bool := false
  /-- fuses FKEY and FVER, and the images of the non-volatile store: 0 MC firmware, 1 device firmware (R437, R438) -/
  fkey  : BitVec 256 := 0
  fver  : BitVec 16 := 0
  store : SMap (List (BitVec 8)) := []
  /-- measurement registers (R439) -/
  meas  : SMap (BitVec 256) := []
  /-- output payload of the last management command (R434), and data of the last external read -/
  mbox  : List Word := []
  extData : Word := 0
  /-- the last external read was completed with poison (R396, R433) -/
  extPoison : Bool := false
  /-- HBM channels that have failed (R413); links that carry no traffic (R408); width of each trained port (R430) -/
  hbmDown : List Nat := []
  ucieDown : List Nat := []
  ports : SMap Nat := []
  deriving DecidableEq, Repr

/-- Why a step stops with a fault. -/
inductive Fault where
  /-- raised by nothing the spec describes: a state whose internal tables disagree (no run reaches it).  Safe. -/
  | corrupt
  deriving DecidableEq, Repr

/-- Why a step is refused. -/
inductive Refusal where
  /-- raised by an arm of `exec` that has no meaning yet.  Safe. -/
  | notModelled (mnemonic : String)
  deriving DecidableEq, Repr

/-- Right after device reset (R12, R21, R437): every register zero but the values of Table 1.3. -/
def State.reset : State := {}

end Sys2Proof.Machine
end

