-- ==== Sys2Proof/Machine/Bits.lean ====
section
/-! DEFINITION. Containers, bytes and bit fields: the small functions everything else is written with. -/

namespace Sys2Proof.Machine

/-! ### Maps -/

/-- The value at key `k`, or the family's reset value `d`. -/
def sget {α : Type} (d : α) : SMap α → Nat → α
  | [], _ => d
  | (j, v) :: r, k => if j = k then v else sget d r k

/-- The value at key `k`, if listed. -/
def sfind {α : Type} : SMap α → Nat → Option α
  | [], _ => none
  | (j, v) :: r, k => if j = k then some v else sfind r k

/-- Set key `k`, keeping the keys in rising order. -/
def sput {α : Type} : SMap α → Nat → α → SMap α
  | [], k, v => [(k, v)]
  | (j, w) :: r, k, v => if k < j then (k, v) :: (j, w) :: r else if k = j then (k, v) :: r else (j, w) :: sput r k v

/-- Remove key `k`. -/
def sdel {α : Type} : SMap α → Nat → SMap α
  | [], _ => []
  | (j, w) :: r, k => if j = k then r else (j, w) :: sdel r k

/-! ### Bytes of a memory or a scratchpad: an unlisted byte reads 0 -/

/-- The byte at address `a`. -/
def cellGet : List Host.Cell → Nat → BitVec 8
  | [], _ => 0
  | (j, v) :: r, a => if j = a then v else cellGet r a

/-- Write one byte, keeping the canonical form: rising addresses, no byte 0 listed. -/
def cellPut : List Host.Cell → Nat → BitVec 8 → List Host.Cell
  | [], a, v => if v = 0 then [] else [(a, v)]
  | (j, w) :: r, a, v =>
    if a < j then (if v = 0 then (j, w) :: r else (a, v) :: (j, w) :: r)
    else if a = j then (if v = 0 then r else (a, v) :: r)
    else (j, w) :: cellPut r a v

/-- The canonical form: addresses strictly rising, no listed byte equal to what an unlisted one reads as. -/
def Memory.wf : List Host.Cell → Bool
  | [] => true
  | [(_, v)] => v != 0
  | (j, v) :: (k, w) :: r => v != 0 && decide (j < k) && Memory.wf ((k, w) :: r)

/-- `n` bytes from address `a`, lowest first. -/
def cellsGet (c : List Host.Cell) (a n : Nat) : List (BitVec 8) := (List.range n).map fun i => cellGet c (a + i)

/-- Write bytes at rising addresses from `a`. -/
def cellsPut : List Host.Cell → Nat → List (BitVec 8) → List Host.Cell
  | c, _, [] => c
  | c, a, b :: r => cellsPut (cellPut c a b) (a + 1) r

/-- Little-endian number of a byte list (R8). -/
def leNat : List (BitVec 8) → Nat
  | [] => 0
  | b :: r => b.toNat + 256 * leNat r

/-- The `n` low bytes of a number, lowest first. -/
def natLe : Nat → Nat → List (BitVec 8)
  | 0, _ => []
  | n + 1, x => BitVec.ofNat 8 x :: natLe n (x / 256)

/-! ### Bit fields -/

/-- Bits [lo + n − 1 : lo] of a number. -/
def fieldOf (x lo n : Nat) : Nat := (x / 2 ^ lo) % 2 ^ n

/-- Bits [lo + n − 1 : lo] of a bit vector, as a number. -/
def fld {w : Nat} (x : BitVec w) (lo n : Nat) : Nat := (x.extractLsb' lo n).toNat

/-- Replace bits [lo + n − 1 : lo] by the low bits of `v`. -/
def setField {w : Nat} (x : BitVec w) (lo n v : Nat) : BitVec w :=
  (x &&& ~~~ (BitVec.ofNat w ((2 ^ n - 1) * 2 ^ lo))) ||| BitVec.ofNat w ((v % 2 ^ n) * 2 ^ lo)

/-- Sign extension of an `n`-bit number to an integer. -/
def signed (n x : Nat) : Int := if x % 2 ^ n < 2 ^ (n - 1) then (x % 2 ^ n : Nat) else ((x % 2 ^ n : Nat) : Int) - 2 ^ n

/-- An integer modulo 2^n. -/
def wrap (n : Nat) (x : Int) : Nat := (x % (2 ^ n : Int)).toNat

/-- Clamp an integer into [lo, hi]. -/
def clampI (x lo hi : Int) : Int := if x < lo then lo else if hi < x then hi else x

/-- Do [a, a + n) and [b, b + m) meet? -/
def overlaps (a n b m : Nat) : Bool := decide (a < b + m) && decide (b < a + n)

/-- Number of set bits among the low `n`. -/
def popBits : Nat → Nat → Nat
  | 0, _ => 0
  | n + 1, x => x % 2 + popBits n (x / 2)

/-- Number of zero bits below the lowest set bit among the low `n`; `n` when there is none. -/
def trailZeros : Nat → Nat → Nat
  | 0, _ => 0
  | n + 1, x => if x % 2 = 1 then 0 else 1 + trailZeros n (x / 2)

/-- Number of zero bits above the highest set bit among the low `n`; `n` when there is none. -/
def leadZeros : Nat → Nat → Nat
  | 0, _ => 0
  | n + 1, x => if x / 2 ^ n % 2 = 1 then 0 else 1 + leadZeros n x

/-- The first index below `n` at which `p` holds. -/
def firstIdx (p : Nat → Bool) (n : Nat) : Option Nat := (List.range n).find? p

/-- `Except` run over a list of indices, threading a value. -/
def foldE {α ε : Type} (f : Nat → α → Except ε α) : List Nat → α → Except ε α
  | [], a => .ok a
  | i :: r, a => match f i a with
    | .ok b => foldE f r b
    | .error e => .error e

end Sys2Proof.Machine
end

