-- ==== Sys2Proof/Machine/Flags.lean ====
section
/-! DEFINITION. The floating-point exception flags (R21, R22, R104, R163 to R165): how they are raised, and how a retiring
instruction merges them into `fstat` and `fidx`. -/

namespace Sys2Proof.Machine

/-- The exceptions one operation raises. -/
structure FFlags where
  nv : Bool := false
  dz : Bool := false
  of : Bool := false
  uf : Bool := false
  nx : Bool := false
  deriving DecidableEq, Repr

def FFlags.merge (a b : FFlags) : FFlags :=
  { nv := a.nv || b.nv, dz := a.dz || b.dz, of := a.of || b.of, uf := a.uf || b.uf, nx := a.nx || b.nx }

/-- The five flags in the order of `fidx.nv` … `fidx.nx`. -/
def FFlags.list (f : FFlags) : List Bool := [f.nv, f.dz, f.of, f.uf, f.nx]

/-- Merge an element's flags into an instruction's record: the lowest raising element per flag (R22, R104). -/
def mergeFlags (acc : List (Option Nat)) (i : Nat) (f : FFlags) : List (Option Nat) :=
  (List.range 5).map fun k =>
    match acc.getD k none with
    | some j => some (if f.list.getD k false then min j i else j)
    | none => if f.list.getD k false then some i else none

/-- No flag raised yet. -/
def noFlags : List (Option Nat) := []

/-- Flags raised before a stall, then those raised after it (R22). -/
def joinFlags (a b : List (Option Nat)) : List (Option Nat) := (List.range 5).map fun k => (a.getD k none).or (b.getD k none)

/-- At retirement, set the raised `fstat` flags and fill each `fidx` register that has V = 0 (R22). -/
def retireFlags (y : Strand) (pc : Word) (fl : List (Option Nat)) : Strand :=
  (List.range 5).foldl (fun y k =>
    match fl.getD k none with
    | none => y
    | some i =>
      let old := sget 0 y.fidx k
      { y with
        fstat := y.fstat ||| BitVec.ofNat 9 (2 ^ (8 - k))
        fidx := if old.getLsbD 63 then y.fidx
                else sput y.fidx k (BitVec.ofNat 64 (2 ^ 63 + 2 ^ 48 * (i % 2 ^ 14) + fieldOf pc.toNat 2 46 * 4)) }) y

end Sys2Proof.Machine
end

