-- ==== Sys2Proof/Config.lean ====
section
/-! DEFINITION. What an implementation fixes and the spec leaves open: constants without a body, about which nothing can be proved. -/

namespace Sys2Proof.Config

/-- The HBM channel that holds the 64-byte granule `pa[55:6]` (R413 names channels; the spec gives no mapping). -/
opaque hbmChannel : Nat → BitVec 8

/-! ### Firmware images (R437): the spec names the header's fields and not their places -/

/-- Version, body length, SHA-256 of the body and public key, as a 128-byte header holds them, and whether its MAGIC is right. -/
opaque headerMagic : List (BitVec 8) → BitVec 32
opaque headerVersion : List (BitVec 8) → BitVec 16
opaque headerLength : List (BitVec 8) → Nat
opaque headerHash : List (BitVec 8) → BitVec 256
opaque headerKey : List (BitVec 8) → BitVec 256

/-- Is the image device firmware, by its header (else MC firmware)? -/
opaque isDeviceImage : List (BitVec 8) → Bool

/-- Images of the MC firmware (0) and the device firmware (1) that the non-volatile store holds while nothing has been staged. -/
opaque factoryImage : Nat → List (BitVec 8)

/-! ### Attestation (R439) -/

/-- The device's identity certificate chain. -/
opaque identityChain : List (BitVec 64)

/-- The identity key, which never leaves the MC: its secret seed, secret prefix and public seed; and the randomness of a signature. -/
opaque identitySecret : BitVec 128
opaque identityPrefix : BitVec 128
opaque identitySeed : BitVec 128
opaque signRandom : List (BitVec 8) → BitVec 128

end Sys2Proof.Config
end

