-- ==== Sys2Proof/Machine/Cache.lean ====
section
/-! DEFINITION. Tiles and partitions of the state, watches, the caches of a tile and the directory: which tile holds which line (R192 to
R194, R289 to R294).  The bytes of memory stand once, in `State.mem`; only L1I keeps bytes of its own, because no store snoops it. -/

namespace Sys2Proof.Machine

/-! ### Tiles and partitions -/

def State.tile (s : State) (t : Nat) : Tile := sget {} s.tiles t
def State.setTile (s : State) (t : Nat) (x : Tile) : State := { s with tiles := sput s.tiles t x }
/-- The tile stands: it is halted for pre-emption or fenced, and nothing of its team's moves (R388, R413). -/
def Tile.still (x : Tile) : Bool := x.halted || x.fenced
def Tile.strand (x : Tile) (k : Nat) : Strand := sget {} x.ctx.strands k
def Tile.setStrand (x : Tile) (k : Nat) (y : Strand) : Tile := { x with ctx := { x.ctx with strands := sput x.ctx.strands k y } }
def State.strandOf (s : State) (t k : Nat) : Strand := (s.tile t).strand k
def State.setStrandOf (s : State) (t k : Nat) (y : Strand) : State := s.setTile t ((s.tile t).setStrand k y)
def State.partition (s : State) (p : Nat) : Partition := sget {} s.parts p
def State.setPartition (s : State) (p : Nat) (x : Partition) : State := { s with parts := sput s.parts p x }

/-- Word `k` of a partition record (Table 25.3). -/
def Partition.word (p : Partition) (k : Nat) : Nat := fld p.record (64 * k) 64

/-- First tile of a tile's cluster: four tiles in a 2×2 group have consecutive numbers (R2). -/
def clusterBase (t : Nat) : Nat := t / 4 * 4

/-! ### Agents -/

/-- Who makes an access: the tile (none: outside the package), the strand slot of a scalar access, the stream register of an element
access; and whether it is an instruction fetch. -/
structure Agent where
  tile   : Option Nat := none
  slot   : Option Nat := none
  stream : Option Nat := none
  fetch  : Bool := false
  /-- engine queue of an access that no strand slot makes: 0 vector, 1 matrix, 2 transfer, 3 fabric port and fabric (R80) -/
  queue  : Nat := 0
  deriving DecidableEq, Repr

/-! ### Watches (R82) -/

/-- Does a write of `ag` to the line end the watch of strand `k` of tile `t`? -/
def watchHit (ag : Agent) (line t k : Nat) (y : Strand) : Bool :=
  y.watch = some (BitVec.ofNat 49 line) && !y.written && !(ag.tile = some t && ag.slot = some k)

def wakeTile (ag : Agent) (line t : Nat) (x : Tile) : Tile :=
  { x with ctx := { x.ctx with strands := x.ctx.strands.map fun (k, y) =>
      (k, if watchHit ag line t k y then { y with written := true } else y) } }

/-- Set the written bit of every other strand's watch on the line (R82). -/
def wakeWatches (s : State) (ag : Agent) (line : Nat) : State :=
  if s.tiles.any (fun (t, x) => x.ctx.strands.any (fun (k, y) => watchHit ag line t k y)) then
    { s with tiles := s.tiles.map fun (t, x) => (t, wakeTile ag line t x) }
  else s

/-! ### Sets and ways (Table 8.2) -/

/-- Set of a line in the tile cache, pa[15:7], and in L1D and L1I, pa[12:7]. -/
def tcSet (line : Nat) : Nat := line % 512
def l1Set (line : Nat) : Nat := line % 64

/-- Usable ways of a tile-cache set, of an L1D set and of an L1I set (R194, Table 24.2). -/
def Tile.tcWays (x : Tile) (set : Nat) : List Nat := (List.range 16).filter fun w => !x.tcOff.getLsbD (16 * (set / 64) + w)
def Tile.l1dWays (x : Tile) : List Nat := (List.range 8).filter fun w => !x.l1Off.getLsbD w
def l1iWays : List Nat := List.range 4

/-- The line as a cache holds it. -/
def cacheFind (c : SMap (List CacheLine)) (set line : Nat) : Option CacheLine := (sget [] c set).find? (·.line = line)

/-- Replace what a set holds. -/
def setPut (c : SMap (List CacheLine)) (set : Nat) (ls : List CacheLine) : SMap (List CacheLine) :=
  if ls.isEmpty then sdel c set else sput c set ls

/-- The cache without the line. -/
def cacheDrop (c : SMap (List CacheLine)) (set line : Nat) : SMap (List CacheLine) :=
  if (cacheFind c set line).isSome then setPut c set ((sget [] c set).filter (·.line ≠ line)) else c

/-- The line of a set that was filled first. -/
def firstFilled : List CacheLine → Option CacheLine
  | [] => none
  | a :: r => some (r.foldl (fun b x => if x.stamp < b.stamp then x else b) a)

/-- Where a line goes that is filled into a set: a free usable way, else that of the line filled first, which has to leave.  The spec
names no replacement policy. -/
def fillWay (ls : List CacheLine) (ways : List Nat) : Option (Nat × Option Nat) :=
  match ways.find? fun w => !ls.any (·.way = w) with
  | some w => some (w, none)
  | none => (firstFilled (ls.filter (ways.contains ·.way))).map fun v => (v.way, some v.line)

/-- Fill a line that leaves no other to write back: L1D and L1I drop a victim silently. -/
def cacheFill (c : SMap (List CacheLine)) (set : Nat) (ways : List Nat) (line now : Nat) (data : BitVec 1024) : SMap (List CacheLine) :=
  let ls := sget [] c set
  match fillWay ls ways with
  | none => c
  | some (w, _) => sput c set (ls.filter (·.way ≠ w) ++ [{ way := w, line := line, stamp := now, data := data }])

/-- A line is invalidated in both L1 caches (R192). -/
def Tile.dropL1 (x : Tile) (line : Nat) : Tile :=
  { x with l1d := cacheDrop x.l1d (l1Set line) line, l1i := cacheDrop x.l1i (l1Set line) line }

/-- A line leaves the tile cache, and the L1 caches with it (R192). -/
def Tile.uncache (x : Tile) (line : Nat) : Tile :=
  let y := x.dropL1 line
  { y with tc := cacheDrop y.tc (tcSet line) line, rmask := sdel y.rmask line }

/-! ### Who holds a line (R290, R291) -/

/-- Does the tile keep a translation walked through the line (R308)? -/
def Tile.keepsXlat (x : Tile) (line : Nat) : Bool := x.xlat.any (·.walked.contains line)

/-- Tiles that keep a translation walked through the line. -/
def xlatTiles (s : State) (line : Nat) : List Nat := (s.tiles.filter fun (_, x) => x.keepsXlat line).map (·.1)

/-- Does the filter of cluster `c` name a tile for a line of the region? -/
def clusterHolds (s : State) (c region : Nat) : Bool :=
  (List.range 4).any fun n =>
    (sget [] s.lines (4 * region + n)).any (fun (t, _) => t / 4 = c) || (xlatTiles s (4 * region + n)).any (· / 4 = c)

def isDirty : Option LineState → Bool
  | some .m => true
  | some .o => true
  | _ => false

/-- LSn and OWNn of a line with holders `h` and translation holders `xs`: X while one cluster alone holds it and one tile in M, O or E. -/
def lineCode (h : SMap LineState) (xs : List Nat) : BitVec 2 × BitVec 8 :=
  match h.find? (fun (_, x) => x != .s) with
  | some (t, _) => if (h.map (·.1) ++ xs).all (· / 4 = t / 4) then (2, BitVec.ofNat 8 (t / 4)) else (1, 0)
  | none => (if h.isEmpty && xs.isEmpty then 0 else 1, 0)

/-- CV with the clusters of the holders set; after a probe to the region, clusters that hold nothing of it are cleared (R291). -/
def sharerVector (s : State) (probed : Bool) (region : Nat) (cv : BitVec 256) (ts : List Nat) : BitVec 256 :=
  let cv1 := ts.foldl (fun v t => v ||| ((1 : BitVec 256) <<< (t / 4))) cv
  if probed then (List.range 256).foldl (fun v c => if v.getLsbD c && !clusterHolds s c region then v &&& ~~~ ((1 : BitVec 256) <<< c) else v) cv1
  else cv1

/-- Entries of a slice, and regions of its memory-side cache, at most: 128 MiB of 512 bytes each (R1, R290). -/
def sliceCapacity : Nat := 262144

/-- Slice of a region: `pa[12:11]` (R289). -/
def regionSlice (r : Nat) : Nat := r % 16 / 4

/-- Has the line's slice an entry for its region, or room for one? -/
def roomAt (line : Nat) (s : State) : Bool :=
  (sfind s.dir (line / 4)).isSome || decide ((s.dir.filter fun (k, _) => regionSlice k = regionSlice (line / 4)).length < sliceCapacity)

/-- The memory-side cache of a die takes in a region; when it is full, one that the directory does not track leaves. -/
def mscHold (r : Nat) (s : State) : State :=
  if (sfind s.msc r).isSome then s
  else
    let held := s.msc.filter fun (k, _) => regionSlice k = regionSlice r
    let s1 := if held.length < sliceCapacity then s else match held.find? fun (k, _) => (sfind s.dir k).isNone with
      | some (k, _) => { s with msc := sdel s.msc k }
      | none => s
    { s1 with msc := sput s1.msc r 0 }

/-- The slice's entry for the line's region follows the line's holders (R290, Table 15.1); the memory-side cache holds the region. -/
def noteRegion (probed : Bool) (line : Nat) (s : State) : State :=
  let r := line / 4
  let h := sget [] s.lines line
  let xs := xlatTiles s line
  let e := sget {} s.dir r
  let c := lineCode h xs
  let e1 := { e with cv := sharerVector s probed r e.cv (h.map (·.1) ++ xs), ls := sput e.ls (line % 4) c.1, own := sput e.own (line % 4) c.2 }
  if e1.cv = 0 && e1.pv = 0 && !e1.ovf then { s with dir := sdel s.dir r }
  else mscHold r { s with dir := sput s.dir r e1 }

/-- The same where the slice has an entry already: holders have gone. -/
def refreshRegion (probed : Bool) (line : Nat) (s : State) : State :=
  if (sfind s.dir (line / 4)).isSome then noteRegion probed line s else s

/-- Does a request for the line send a probe: for a write to a line that the slice records, for a read to one that it records as X (R291)? -/
def probeSent (s : State) (line : Nat) (write : Bool) : Bool :=
  let c := sget 0 (sget {} s.dir (line / 4)).ls (line % 4)
  if write then c != 0 else c = 2

/-- Dirty data of a line reaches its home: the memory-side cache where that holds the region, else HBM. -/
def writeBack (line : Nat) (s : State) : State :=
  match sfind s.msc (line / 4) with
  | some d => { s with msc := sput s.msc (line / 4) (d ||| ((1 : BitVec 4) <<< (line % 4))) }
  | none => s

/-- A dirty line that is probed wakes a data array in retention (R294). -/
def wakeDirty (t line : Nat) (s : State) : State :=
  if isDirty (sfind (sget [] s.lines line) t) && s.retained.contains t then { s with retained := s.retained.filter (· != t) } else s

/-- Tile `t` holds the line no more: its L1 copies go, the watches of its strands on the line end (R82), dirty data is written back.
The slice's record is left to the caller. -/
def loseLine (t line : Nat) (s : State) : State :=
  match sfind (sget [] s.lines line) t with
  | none => s.setTile t ((s.tile t).uncache line)
  | some x =>
    let h := sdel (sget [] s.lines line) t
    let s1 := wakeDirty t line s
    let s2 := { s1 with lines := if h.isEmpty then sdel s1.lines line else sput s1.lines line h }
    let s3 := s2.setTile t ((wakeTile {} line t (s2.tile t)).uncache line)
    if isDirty (some x) then writeBack line s3 else s3

/-- The tile answers a probe for invalidation (R292). -/
def dropLine (t line : Nat) (s : State) : State :=
  if (sfind (sget [] s.lines line) t).isSome then noteRegion true line (loseLine t line s) else s

/-- Recall every tile's copy of a line; clusters that hold nothing any more answer the probe too (R291). -/
def recallLine (line : Nat) (s : State) : State :=
  let h := sget [] s.lines line
  if h.isEmpty then (if probeSent s line true then refreshRegion true line s else s)
  else noteRegion true line (h.foldl (fun s (t, _) => loseLine t line s) s)

/-- Recall what an owner holds of a line under its reservation (R283); the line stays reserved. -/
def recallReserved (line : Nat) (s : State) : State :=
  ((s.tiles.filter fun (_, x) => (sfind x.rmask line).isSome).map (·.1)).foldl
    (fun s t => writeBack line (s.setTile t ((s.tile t).uncache line))) s

/-- Eviction (R292): the slice hears of dirty data only, a clean line leaves the cluster filter alone (R291). -/
def evictLine (t line : Nat) (s : State) : State :=
  if isDirty (sfind (sget [] s.lines line) t) then noteRegion false line (loseLine t line s) else loseLine t line s

/-- The tile cache of `t` holds the line; another may have to leave. -/
def fillTile (t line : Nat) (s : State) : State :=
  let x := s.tile t
  if (cacheFind x.tc (tcSet line) line).isSome then s
  else match fillWay (sget [] x.tc (tcSet line)) (x.tcWays (tcSet line)) with
    | none => s
    | some (w, v) =>
      let s1 := match v with
        | some l => evictLine t l s
        | none => s
      let x1 := s1.tile t
      s1.setTile t { x1 with tc := sput x1.tc (tcSet line) (sget [] x1.tc (tcSet line) ++ [{ way := w, line := line, stamp := s.cyc }]) }

/-- Can tile `t` take the line in without driving another out? -/
def hasWay (t line : Nat) (s : State) : Bool :=
  let x := s.tile t
  (cacheFind x.tc (tcSet line) line).isSome || (x.tcWays (tcSet line)).any fun w => !(sget [] x.tc (tcSet line)).any (·.way = w)

/-- Tile `t` is recorded for a line that leaves its reservation, beside the holders `others`.  Where that would drive another line or another
region out, the tile's copy is evicted at once. -/
def recordOwner (t line : Nat) (others : SMap LineState) (own : LineState) (s : State) : State :=
  let keep := roomAt line s && hasWay t line s
  let h := if keep then sput others t own else others
  let s1 := { s with lines := if h.isEmpty then sdel s.lines line else sput s.lines line h }
  if keep then
    let s2 := fillTile t line s1
    noteRegion false line (s2.setTile t { s2.tile t with rmask := sdel (s2.tile t).rmask line })
  else refreshRegion false line (writeBack line (s1.setTile t ((s1.tile t).uncache line)))

/-- L1D holds the line. -/
def fillL1d (t line : Nat) (s : State) : State :=
  let x := s.tile t
  if (cacheFind x.l1d (l1Set line) line).isSome then s
  else s.setTile t { x with l1d := cacheFill x.l1d (l1Set line) x.l1dWays line s.cyc 0 }

/-! ### Tile-cache states (Table 15.2) -/

/-- How an access reaches the caches (Table 8.3). -/
inductive Path where
  /-- through the tile cache -/
  | cached
  /-- at the home, without allocation -/
  | home
  /-- uncached (R309) -/
  | uncached
  deriving DecidableEq, Repr

/-- Answer to a probe for a shared copy. -/
def LineState.shared : LineState → LineState
  | .m => .o
  | .o => .o
  | .e => .s
  | .s => .s

/-- The states of a line's holders after an access of tile `t` (Table 15.2); `shared`: someone beside the listed tiles holds it. -/
def lineAfter (h : SMap LineState) (t : Nat) (write shared : Bool) : SMap LineState :=
  if write then [(t, .m)]
  else match sfind h t with
    | some _ => h
    | none => if h.isEmpty && !shared then [(t, .e)] else sput (h.map fun (k, x) => (k, x.shared)) t .s

/-- The holders beside `t` answer the probe that an access of `t` makes: they wake, and before a write they lose the line. -/
def probeOthers (t line : Nat) (write : Bool) (s : State) : State :=
  ((sget [] s.lines line).filter (·.1 ≠ t)).foldl
    (fun s (u, _) => if write then loseLine u line s else wakeDirty u line s) s

/-- An access of tile `t` through its tile cache. -/
def touchCached (s : State) (ag : Agent) (t line : Nat) (write shared : Bool) : State :=
  let h := sget [] s.lines line
  let h' := lineAfter h t write (shared || (xlatTiles s line).any (· ≠ t))
  let s1 := if h' = h then s
    else
      let s0 := probeOthers t line write s
      noteRegion (h.any (·.1 ≠ t) || probeSent s line write) line { s0 with lines := sput s0.lines line h' }
  let s2 := fillTile t line s1
  if ag.fetch then s2
  else if ag.slot.isSome then (if write then s2 else fillL1d t line s2)
  else if write then s2.setTile t { s2.tile t with l1d := cacheDrop (s2.tile t).l1d (l1Set line) line }
  else s2

/-- An access at the home: holders supply the line for a read, and lose it before a write. -/
def touchHome (s : State) (line : Nat) (write : Bool) : State :=
  let h := sget [] s.lines line
  if write then recallLine line s
  else if h.isEmpty then (if probeSent s line false then refreshRegion true line s else s)
  else
    let s1 := h.foldl (fun s (u, _) => wakeDirty u line s) s
    noteRegion true line { s1 with lines := sput s1.lines line (h.map fun (k, x) => (k, x.shared)) }

def touchLine (s : State) (path : Path) (ag : Agent) (line : Nat) (write shared : Bool) : State :=
  match path, ag.tile with
  | .cached, some t => touchCached s ag t line write shared
  | _, _ => touchHome s line write

end Sys2Proof.Machine
end

