-- ==== Sys2Proof/Machine/Mem.lean ====
section
/-! DEFINITION. Physical memory and translation: what every agent's access goes through.

`M` is the meaning of the access-making operations: a state, and the exits an access can take.  A caller decides whether an
exit keeps the state reached (engine entries, R117) or the state before the instruction (scalar instructions, R87). -/

namespace Sys2Proof.Machine

/-- How an operation ends other than by its own end: a trap or a wait. -/
inductive Exit where
  | trap (t : Trap) | wait (w : WaitKind)
  deriving DecidableEq, Repr

abbrev M := EStateM Exit State

/-! ### Cause codes (Table 21.2) -/

def cILL : BitVec 8 := 0x01
def cRSVD : BitVec 8 := 0x02
def cPRIV : BitVec 8 := 0x03
def cTRAP : BitVec 8 := 0x04
def cBRK : BitVec 8 := 0x05
def cDOUBLE : BitVec 8 := 0x06
def cADDR : BitVec 8 := 0x08
def cMISALIGN : BitVec 8 := 0x09
def cSPDRANGE : BitVec 8 := 0x0A
def cPAGE : BitVec 8 := 0x0B
def cPROT : BitVec 8 := 0x0C
def cWALK : BitVec 8 := 0x0D
def cRSVTRAP : BitVec 8 := 0x0E
def cXFER : BitVec 8 := 0x0F
def cSCALE : BitVec 8 := 0x10
def cBITMAP : BitVec 8 := 0x11
def cCAPACITY : BitVec 8 := 0x12
def cCOUPLING : BitVec 8 := 0x13
def cFLEN : BitVec 8 := 0x18
def cFTAG : BitVec 8 := 0x19
def cFORPHAN : BitVec 8 := 0x1A
def cCANCEL : BitVec 8 := 0x20
def cMCHK : BitVec 8 := 0x21

/-! ### Reservations as line accesses meet them (R284, R285, R295 to R297) -/

/-- Has the 128-byte line left the entry's reservation (R284)? -/
def ResEntry.lineLeft (e : ResEntry) (line : Nat) : Bool :=
  if e.down then decide (e.cut ≤ line * 128) else decide (line * 128 + 128 ≤ e.cut)

/-- Does the entry still cover the line? -/
def ResEntry.covers (e : ResEntry) (line : Nat) : Bool :=
  overlaps (line * 128) 128 e.lo (e.hi - e.lo) && decide (line * 128 / 2048 % 4 = e.slice) && !e.lineLeft line

/-- Virtual address of the edge between the passed and the unpassed part of a stream's range (R284): below it (above it, for a stream that
runs downward) elements have passed. -/
def splitEdge (st : Stream) : Nat :=
  if st.es.toInt < 0 then st.addr.toNat + st.ext.toNat - (-(st.pos.toInt)).toNat else st.addr.toNat + st.pos.toInt.toNat

/-- The entry's cut for that edge (R284): the last line boundary that does not reach into the unpassed part. -/
def splitCut (e : ResEntry) (edge : Nat) : Nat :=
  if edge ≤ e.vlo then e.lo / 128 * 128
  else if e.vlo + (e.hi - e.lo) ≤ edge then (e.hi + 127) / 128 * 128
  else if e.down then (e.lo + (edge - e.vlo) + 127) / 128 * 128
  else (e.lo + (edge - e.vlo)) / 128 * 128

/-- Cuts only rise (R298); downward, they only fall. -/
def ResEntry.applyCut (e : ResEntry) (c : Nat) : ResEntry :=
  { e with cut := if e.down then min e.cut c else max e.cut c }

/-- The lines of the entry that leave it when its cut moves to `c`. -/
def leavingLines (e : ResEntry) (c : Nat) : List Nat :=
  let e' := e.applyCut c
  ((List.range ((e.hi + 127) / 128 - e.lo / 128)).map (· + e.lo / 128)).filter fun l => e.covers l && !e'.covers l

/-- Does an entry still cover a line of its range? -/
def ResEntry.coversAny (e : ResEntry) : Bool :=
  ((List.range ((e.hi + 127) / 128 - e.lo / 128)).map (· + e.lo / 128)).any e.covers

/-! Grants (Table 15.3). -/

/-- Does the older entry `o` hold back entry `e` at the line (R296)? -/
def ResEntry.holdsBack (o e : ResEntry) (line : Nat) : Bool := (o.write || e.write) && o.covers line && e.covers line

/-- Do the older entries hold back any line of entry `e`? -/
def ResEntry.blocked (old : List ResEntry) (e : ResEntry) : Bool :=
  let os := old.filter fun o => decide (o.slice = e.slice) && overlaps o.lo (o.hi - o.lo) (e.lo / 128 * 128) ((e.hi + 127) / 128 * 128 - e.lo / 128 * 128) && (o.write || e.write)
  !os.isEmpty && ((List.range ((e.hi + 127) / 128 - e.lo / 128)).map (· + e.lo / 128)).any fun l => os.any (·.holdsBack e l)

/-- Recall every tile's copy of the lines that entry `e` holds and no older entry holds back (R282); the watches on them end (R82). -/
def recallFree (old : List ResEntry) (e : ResEntry) (s : State) : State :=
  (s.lines.filter fun (l, _) => e.covers l && !old.any (·.holdsBack e l)).foldl (fun s (l, _) => recallLine l s) s

/-- After entries were released or split, the entries that wait behind them are granted the lines that came free (Table 15.3). -/
def settleGrants (s : State) : List ResEntry → List ResEntry → State
  | _, [] => s
  | old, e :: r =>
    if e.state = .pending then
      let s1 := recallFree old e s
      settleGrants (if e.blocked old then s1 else { s1 with resv := s1.resv.map fun x => if x = e then { x with state := .granted } else x }) (old ++ [e]) r
    else settleGrants s (old ++ [e]) r

/-- A line leaves the reservation of entry `e`: it is recorded in M (S for a read-intent entry, Table 15.4) with the owner as holder. -/
def leaveLine (e : ResEntry) (s : State) (l : Nat) : State :=
  if e.write then recordOwner e.owner l [] .m s
  else recordOwner e.owner l ((sget [] s.lines l).map fun (k, x) => (k, x.shared)) .s s

/-- Entries of one reservation at one slice: the slice holds them as one (R296), and a split cuts all of them. -/
def ResEntry.sibling (e x : ResEntry) : Bool := decide (x.rid = e.rid) && decide (x.slice = e.slice)

/-- The edge that splits of a reservation have reached at a slice (R298). -/
def State.cutEdge (s : State) (rid slice : Nat) : Option Nat := sfind (sget [] s.cuts rid) slice

/-- Keep the edge: it only rises, or for a stream that runs downward only falls (R298). -/
def noteCut (e : ResEntry) (edge : Nat) (s : State) : State :=
  let m := match s.cutEdge e.rid e.slice with
    | some d => if e.down then min d edge else max d edge
    | none => edge
  { s with cuts := sput s.cuts e.rid (sput (sget [] s.cuts e.rid) e.slice m) }

/-- Split at an edge: the slice's entries of the reservation are cut, the passed lines leave, and entry `e` goes to state `st` (R296); what
has passed whole is freed. -/
def cutEntries (s : State) (e : ResEntry) (edge : Nat) (st : ResState) (answer : Option Nat) : State :=
  let cut := fun x : ResEntry => let y := x.applyCut (splitCut x edge); { y with held := y.held.filter y.covers }
  let rs := (s.resv.map fun x => if x = e then { cut x with state := st, answer := answer } else if e.sibling x then cut x else x).filter
    fun x => !e.sibling x || x.coversAny
  let s1 := (s.resv.filter e.sibling).foldl (fun s x => (leavingLines x (splitCut x edge)).foldl (leaveLine x) s) { noteCut e edge s with resv := rs }
  settleGrants s1 [] rs

/-- The stream register of the entry's owner, in the context that holds it: in place, in shadow storage or in the backing area. -/
def State.ownerStream (s : State) (e : ResEntry) : Stream :=
  let x := s.tile e.owner
  let cs := [x.ctx] ++ x.saved.toList ++ x.backing.toList
  match (cs.map fun c => sget {} c.streams e.st).find? (·.rid = some e.rid) with
  | some st => st
  | none => sget {} x.ctx.streams e.st

/-- Where the owner of entry `e` stands now (R284). -/
def State.edgeNow (s : State) (e : ResEntry) : Nat := splitEdge (s.ownerStream e)

/-- The cut of entry `e` at the owner's present position. -/
def State.cutNow (s : State) (e : ResEntry) : Nat := splitCut e (s.edgeNow e)

/-! Releases whose words stand (R258, R259, R287). -/

/-- The releases whose word the `n` bytes at `pa` contain or meet. -/
def State.releasesAt (s : State) (pa n : Nat) : List Release := s.rels.filter fun r => overlaps pa n r.addr r.size

/-- The lines of its range. -/
def ResEntry.rangeLines (e : ResEntry) : List Nat :=
  ((List.range ((e.hi + 127) / 128 - e.lo / 128)).map (· + e.lo / 128)).filter fun l => decide (l * 128 / 2048 % 4 = e.slice)

/-- The owner of a reservation performs the writes made under it (R287): a split-policy entry with write intent is split where the stream
stands, its state unchanged; under another policy the written bytes go to their homes and the lines stay reserved. -/
def flushReservation (rid : Nat) (s : State) : State :=
  let mine := s.resv.filter fun e => e.rid = rid && e.write
  let s1 := (mine.filter (·.pol ≠ 2)).foldl (fun s e => (e.rangeLines.filter fun l => e.covers l && (sfind (s.tile e.owner).rmask l).isSome).foldl
    (fun s l => writeBack l s) s) s
  (mine.filter (·.pol = 2)).foldl (fun s e => cutEntries s e (s.edgeNow e) e.state e.answer) s1

/-- Reservations that the releases of entry `e`'s owner in the lines that leave at an edge order before themselves. -/
def underLeaving (s : State) (e : ResEntry) (edge : Nat) : List Nat :=
  (s.resv.filter e.sibling).flatMap fun x => (leavingLines x (splitCut x edge)).flatMap fun l =>
    ((s.releasesAt (128 * l) 128).filter (·.tile = e.owner)).flatMap (·.under)

/-- The reservations that a flush of `rs` reaches: a released word that is split from a reservation has the flush of its own release
happen (R259). -/
def flushClosure (s : State) : Nat → List Nat → List Nat
  | 0, rs => rs
  | n + 1, rs =>
    let more := ((s.resv.filter fun e => rs.contains e.rid && e.write && e.pol = 2).flatMap fun e => underLeaving s e (s.edgeNow e)).eraseDups
    let new := more.filter fun r => !rs.contains r
    if new.isEmpty then rs else flushClosure s n (rs ++ new)

/-- Perform the writes under the reservations `rs`, and those that releases among the lines which leave order before themselves. -/
def flushAll (rs : List Nat) (s : State) : State := (flushClosure s s.resv.length rs.eraseDups).foldl (fun s r => flushReservation r s) s

/-- Split entry `e` at an edge, with the flush of R259 for released words in the lines that leave. -/
def applySplit (s : State) (e : ResEntry) (edge : Nat) (st : ResState) (answer : Option Nat) : State :=
  let rs := underLeaving s e edge
  let s1 := cutEntries s e edge st answer
  if rs.isEmpty then s1 else flushAll rs s1

/-- A position report splits the entry again (R285, Table 15.3). -/
def reportEntry (s : State) (e : ResEntry) : State :=
  applySplit s e (s.edgeNow e) (if e.state = .splitting then .granted else e.state) e.answer

/-- Does entry `e` hold the line: does no entry registered before it hold it back (Table 15.3)? -/
def ResEntry.holds (e : ResEntry) (s : State) (line : Nat) : Bool :=
  e.covers line && !(s.resv.takeWhile fun x => !(x.rid = e.rid && x.slice = e.slice && x.lo = e.lo)).any (·.holdsBack e line)

/-- Is the access an element access of a younger reservation of its own tile that is PENDING at the line behind entry `e`, either with write
intent, whoever owns them (R296)? -/
def ResEntry.behind (e : ResEntry) (s : State) (ag : Agent) (line : Nat) : Bool :=
  match ag.tile, ag.stream with
  | some t, some k => match (sget {} (s.tile t).ctx.streams k).rid with
    | some r => decide (r ≠ e.rid) && (s.resv.dropWhile (· != e)).any fun f => decide (f.rid = r) && f.covers line && (e.write || f.write)
    | none => false
  | _, _ => false

/-- Is the access one of an agent outside the owner tile that conflicts with entry `e` (R295)? -/
def ResEntry.outsider (e : ResEntry) (ag : Agent) (write : Bool) : Bool := decide (ag.tile ≠ some e.owner) && (e.write || write)

/-- Does entry `e` stand in the way of an access of `ag` to the line? -/
def ResEntry.conflicts (e : ResEntry) (s : State) (ag : Agent) (line : Nat) (write : Bool) : Bool :=
  e.holds s line && (e.behind s ag line || e.outsider ag write)

/-- Judge an access to one line against every entry, in order of registration: a trap, a hold, or passage (R286, Table 15.4).  An element
access of a PENDING reservation stalls under every policy (Table 15.3).  An agent that is no tile has nothing that traps: under the trap
policy too it is held. -/
def judgeLine (ag : Agent) (va : BitVec 56) (line : Nat) (write : Bool) : List ResEntry → M Unit
  | [] => pure ()
  | e :: r => do
    let s ← get
    if e.conflicts s ag line write then
      if e.pol = 3 && ag.tile.isSome && !e.behind s ag line then throw (.trap { cause := cRSVTRAP, tva := va })
      else throw (.wait (.reservation e.rid line))
    judgeLine ag va line write r

/-- The slice holds an access to the line: under the split policy it probes the owner, and the entry is SPLITTING until the answer
(R285).  A line that was held already waits for the owner's position reports. -/
def ResEntry.hold (e : ResEntry) (rid line : Nat) : ResEntry :=
  if e.rid = rid && e.pol = 2 && e.covers line && !e.held.contains line then
    { e with held := e.held ++ [line], state := if e.state = .granted then .splitting else e.state }
  else e

/-- What a wait leaves at the slices: an access that is held provokes a split. -/
def State.noteWait (s : State) (w : WaitKind) : State :=
  match w with
  | .reservation rid line => { s with resv := s.resv.map (·.hold rid line) }
  | _ => s

/-! ### Undo log and exposure (R402) -/

/-- Is slot `k` of tile `t` its partition's supervisor strand (R353)? -/
def State.isSupervisor (s : State) (t k : Nat) : Bool :=
  k = 7 && (match (s.tile t).part with | some p => (s.partition p).sup = some t | none => false)

/-- Tiles of a launch record: FIRST to FIRST + COUNT − 1. -/
def recordTiles (ws : List Word) : List Nat :=
  let w2 := (ws.getD 2 0).toNat
  (List.range (fieldOf w2 10 11)).map (· + fieldOf w2 0 10)

/-- The region of a team: its counter, and the instance for a graph (R399). -/
def Team.region (m : Team) : BitVec 20 × Nat := match m.node with | some (g, _, i) => (g, i) | none => (m.cid, 0)

/-- The region of a launch (R399). -/
def Launch.region (l : Launch) : BitVec 20 × Nat := match l.node with | some (g, _, i) => (g, i) | none => (l.cid, 0)

/-- The tile set of the regions under a counter: that of its launch, or of every launch of an instance of its graph (R399). -/
def regionSet (x : Partition) (c : BitVec 20) : List Nat :=
  (x.launches.filter (·.cid = c)).flatMap (recordTiles ·.words) ++ (x.graphs.filter (·.cid = c)).flatMap fun g => g.nodes.flatMap (recordTiles ·.words)

/-- Does tile `u` belong to a region: by its team, or, while no team runs there, by the region's tile set? -/
def State.inRegion (s : State) (p : Nat) (r : BitVec 20 × Nat) (u : Nat) : Bool :=
  decide ((s.tile u).part = some p) &&
  (match (s.tile u).team with
   | some m => decide (m.region = r)
   | none => (regionSet (s.partition p) r.1).contains u)

/-- Does tile `b` belong to the region of the team on tile `a`? -/
def sameRegion (s : State) (a b : Nat) : Bool :=
  match (s.tile a).team, (s.tile a).part with
  | some m, some p => s.inRegion p m.region b
  | _, _ => false

/-- The tiles that run teams of tile `t`'s region. -/
def regionTeams (s : State) (t : Nat) : List Nat :=
  (s.tiles.filter fun (u, x) => x.team.isSome && sameRegion s t u).map (·.1)

/-- The tile of an agent of a region; a supervisor strand belongs to none (R399). -/
def Agent.member (ag : Agent) (s : State) : Option Nat :=
  match ag.tile, ag.slot with
  | some t, some k => if s.isSupervisor t k then none else some t
  | o, _ => o

/-- A home that supplies a line to an agent outside the region sets EXP on the entries of its granules. -/
def exposeLine (s : State) (reader : Option Nat) (line : Nat) : State :=
  let hit := fun (u : Undo) => match u.kind with | .memory g _ => decide (g / 2 = line) | _ => false
  { s with tiles := s.tiles.map fun (t, x) =>
      if x.undo.any (fun u => hit u && !u.exposed) && (match reader with | some r => r != t && !sameRegion s t r | none => true)
      then (t, { x with undo := x.undo.map fun u => if hit u then { u with exposed := true } else u })
      else (t, x) }

/-- Entries a tile's undo log holds at most (R402). -/
def undoCapacity : Nat := 3072

/-- Make an entry of tile `t`'s undo log: without room for it, the rollback to this wave or an earlier one is lost (R403). -/
def pushUndo (t : Nat) (k : UndoKind) (w : BitVec 16) (bad : Bool) (s : State) : State :=
  let x := s.tile t
  if x.undo.length < undoCapacity then
    { s.setTile t { x with undo := { kind := k, wave := w, time := s.undoMade, bad := bad } :: x.undo } with undoMade := s.undoMade + 1 }
  else s.setTile t { x with undoLost := some w }

/-- Before its first write after its latest snapshot to a memory granule, a tile logs the granule's old contents. -/
def logMemory (s : State) (t g : Nat) : State :=
  let x := s.tile t
  match x.wave with
  | none => s
  | some w =>
    if x.undo.any (fun u => u.wave = w && (match u.kind with | .memory g' _ => decide (g' = g) | _ => false)) then s
    else pushUndo t (.memory g (BitVec.ofNat 512 (leNat (cellsGet s.mem (64 * g) 64)))) w (s.poison.contains g) s

/-- The same for a scratchpad granule of tile `h`. -/
def logSpd (s : State) (t h g : Nat) : State :=
  let x := s.tile t
  match x.wave with
  | none => s
  | some w =>
    if x.undo.any (fun u => u.wave = w && (match u.kind with | .spd h' g' _ => decide (h' = h) && decide (g' = g) | _ => false)) then s
    else pushUndo t (.spd h g (BitVec.ofNat 512 (leNat (cellsGet (s.tile h).spd (64 * g) 64)))) w ((s.tile h).spdPoison.contains g) s

/-! ### Physical accesses -/

/-- The lines of the `n` bytes at `pa`. -/
def linesOf (pa n : Nat) : List Nat := (List.range ((pa + n - 1) / 128 - pa / 128 + 1)).map (· + pa / 128)

/-- The flush of R259 when a released word's line leaves the tile that owns it, whoever asked for it. -/
def flushLine (t line : Nat) (s : State) : State :=
  flushAll (((s.releasesAt (128 * line) 128).filter (·.tile = t)).flatMap (·.under)) s

/-- The same for every holder of a line that is about to be recalled. -/
def flushHolders (line : Nat) (s : State) : State := (sget [] s.lines line).foldl (fun s (t, _) => flushLine t line s) s

/-- What the lines of a released entry become: clean at home and E at the owner, S where another holder was served (Table 15.3). -/
def releaseLine (e : ResEntry) (s : State) (l : Nat) : State :=
  let others := ((sget [] s.lines l).filter fun (k, _) => k != e.owner).map fun (k, _) => (k, LineState.s)
  let s1 := if roomAt l s && hasWay e.owner l s then s else flushLine e.owner l s
  recordOwner e.owner l others (if others.isEmpty then .e else .s) (writeBack l s1)

def releaseLines (s : State) (e : ResEntry) : State := e.rangeLines.foldl (releaseLine e) s

/-- Release the entries that satisfy `p`; what waits behind them is granted. -/
def releaseEntries (p : ResEntry → Bool) (s : State) : State :=
  if s.resv.any p then
    let s1 := (s.resv.filter p).foldl releaseLines { s with resv := s.resv.filter fun e => !p e }
    settleGrants s1 [] s1.resv
  else s

/-- Translations walked through one of the lines end, and so do the registrations of the pages that they translate (R308, R443). -/
def endXlats (ls : List Nat) (s : State) : State :=
  let hit := fun (w : List Nat) => w.any ls.contains
  let s1 := if s.tiles.any fun (_, x) => x.xlat.any fun y => hit y.walked then
      ls.foldl (fun s l => refreshRegion true l s)
        { s with tiles := s.tiles.map fun (t, x) => (t, { x with xlat := x.xlat.filter fun y => !hit y.walked }) }
    else s
  releaseEntries (fun e => hit e.walked) s1

/-- What a write of the `n` bytes at `pa` does beside the bytes themselves: undo log, watches, translations and registrations that it shoots
down, resolution watches, released words that it replaces. -/
def noteWrite (s : State) (ag : Agent) (pa n : Nat) : State :=
  let s1 := match ag.tile with
    | some t => (List.range ((pa + n - 1) / 64 - pa / 64 + 1)).foldl (fun s i => logMemory s t (pa / 64 + i)) s
    | none => s
  let ls := linesOf pa n
  let s2 := ls.foldl (fun s l => wakeWatches s ag l) s1
  let s3 := endXlats ls s2
  let s4 := { s3 with rels := s3.rels.filter fun r => !overlaps pa n r.addr r.size }
  let hot := ls.filter fun l => s4.resWatches.contains l && !s4.resWritten.contains l
  if hot.isEmpty then s4 else { s4 with resWritten := s4.resWritten ++ hot }

/-! ### Releases and acquires (R258, R259, R287) -/

/-- Does the instance of scope `sc` around tile `t` hold the agent (R253)? -/
def inInstance (sc : BitVec 3) (t : Nat) (u : Option Nat) : Bool :=
  match u with
  | none => sc = 4
  | some u => match sc.toNat with
    | 0 => u = t
    | 1 => u / 4 = t / 4
    | 2 => u / 256 = t / 256
    | _ => true

/-- An acquire of `ag` at scope `sc` that reads the `n` bytes at `pa`: it is forwarded to the tile of each release that it can synchronise
with, and the writes ordered before that release are performed (R259). -/
def acquireFlush (ag : Agent) (sc : BitVec 3) (pa n : Nat) (s : State) : State :=
  flushAll (((s.releasesAt pa n).filter fun r => inInstance r.scope r.tile ag.tile &&
      (match ag.tile with | some u => inInstance sc u (some r.tile) | none => true)).flatMap (·.under)) s

/-- Reservations with writes that an operation of the agent has made or read from count for the releases that come behind it (R258): at
once for a scalar access, and for an operation of an engine queue once a `fence.q` has joined the queue. -/
def noteUnder (ag : Agent) (us : List Nat) (s : State) : State :=
  match ag.tile with
  | none => s
  | some t => match ag.slot with
    | some k =>
      let y := s.strandOf t k
      if us.all y.carried.contains then s else s.setStrandOf t k { y with carried := (y.carried ++ us).eraseDups }
    | none =>
      let c := (s.tile t).ctx
      let old := sget [] c.under ag.queue
      if us.all old.contains then s else s.setTile t { s.tile t with ctx := { c with under := sput c.under ag.queue (old ++ us).eraseDups } }

/-- A read of the `n` bytes at `pa` carries on what the releases that it reads from order before themselves (R258). -/
def carryReleases (ag : Agent) (pa n : Nat) (s : State) : State := noteUnder ag ((s.releasesAt pa n).flatMap (·.under)).eraseDups s

/-- Record the release of the `n` bytes at `pa` at the word's home: what it orders before itself is what its strand carries. -/
def noteRelease (t k : Nat) (sc : BitVec 3) (pa n : Nat) (s : State) : State :=
  let r : Release := { addr := pa, tile := t, scope := sc, size := n, under := (s.strandOf t k).carried }
  { s with rels := (s.rels.filter fun q => !(q.addr = pa && q.size = n && q.tile = t && q.scope = sc)) ++ [r] }

/-- The flush of R259 for the dirty line that a fill of `line` drives out of the tile's cache. -/
def flushVictim (t line : Nat) (s : State) : State :=
  let x := s.tile t
  if (cacheFind x.tc (tcSet line) line).isSome then s
  else match fillWay (sget [] x.tc (tcSet line)) (x.tcWays (tcSet line)) with
    | some (_, some v) => if isDirty (sfind (sget [] s.lines v) t) then flushLine t v s else s
    | _ => s

/-! ### Bytes -/

/-- Pools whose CLOSED changes from 1 to 0 in a write of the `n` bytes at `pa` (R326). -/
def reopenedPools (x : Partition) (old new : List Host.Cell) (pa n : Nat) : List Nat :=
  (x.poolAt.filter fun (_, a) => overlaps pa n (a + 4) 1 && (cellGet old (a + 4)).getLsbD 0 && !(cellGet new (a + 4)).getLsbD 0).map (·.1)

/-- The range servers have such a write to observe. -/
def notePools (old : List Host.Cell) (pa n : Nat) (s : State) : State :=
  if s.parts.any fun (_, x) => !(reopenedPools x old s.mem pa n).isEmpty then
    { s with parts := s.parts.map fun (p, x) => (p, { x with reopened := (x.reopened ++ reopenedPools x old s.mem pa n).eraseDups }) }
  else s

/-- Write bytes at a physical address: one write of the agent, performed at once at every scope (R253, R254). -/
def physPut (s : State) (ag : Agent) (pa : Nat) (bs : List (BitVec 8)) : State :=
  if bs.isEmpty then s
  else
    let s1 := noteWrite s ag pa bs.length
    notePools s1.mem pa bs.length
      { s1 with mem := cellsPut s1.mem pa bs
                poison := s1.poison.filter fun g => !(decide (pa ≤ 64 * g) && decide (64 * g + 64 ≤ pa + bs.length)) }

/-- A local access wakes the data array of the tile's cache (R294). -/
def wakeArray (s : State) (path : Path) (t : Option Nat) : State :=
  match path, t with
  | .cached, some k => if s.retained.contains k then { s with retained := s.retained.filter (· != k) } else s
  | _, _ => s

/-- Bits [o, o + n) of a line's byte-valid mask. -/
def byteMask (o n : Nat) : BitVec 128 := BitVec.ofNat 128 ((2 ^ n - 1) * 2 ^ o)

/-- The bytes of a line that the entry's range does not cover: they are fetched from the home once (R283). -/
def ResEntry.outside (e : ResEntry) (line : Nat) : BitVec 128 :=
  ~~~ byteMask (e.lo - 128 * line) (min e.hi (128 * line + 128) - max e.lo (128 * line))

/-- An access of the owner's tile to bytes [o, o + n) of a line under its reservation: the line is allocated there with its valid bytes, with
no message to the slice; a read fetches absent bytes once (R283, R295). -/
def touchReserved (s : State) (ag : Agent) (e : ResEntry) (line o n : Nat) (write : Bool) : State :=
  let s1 := fillTile e.owner line s
  let x := s1.tile e.owner
  let m := if write then (sfind x.rmask line).getD (e.outside line) ||| byteMask o n else BitVec.allOnes 128
  let s2 := s1.setTile e.owner { x with rmask := sput x.rmask line m }
  if write then noteUnder ag [e.rid] s2 else s2

/-- A slice that holds 262,144 entries frees one for another region: the copies of its lines are recalled and the translations derived from
them end (R290). -/
def freeRegion (r : Nat) (s : State) : State :=
  let ls := (List.range 4).map (4 * r + ·)
  let s1 := endXlats ls (ls.foldl (fun s l => recallReserved l (recallLine l (flushHolders l s))) s)
  { s1 with dir := sdel s1.dir r }

/-- Room at the line's slice for an entry of its region. -/
def roomFor (line : Nat) (s : State) : State :=
  if roomAt line s then s
  else match s.dir.find? fun (k, _) => regionSlice k = regionSlice (line / 4) with
    | some (k, _) => freeRegion k s
    | none => s

/-- The cache traffic of bytes [o, o + n) of a line (Table 8.3, R283, R292).  A line of another tile's read-intent reservation is read as a
shared one. -/
def cacheAccess (ag : Agent) (path : Path) (line o n : Nat) (write : Bool) (s0 : State) : State :=
  let s := match path, ag.tile with
    | .cached, some t => flushVictim t line s0
    | _, _ => s0
  match s.resv.find? (·.covers line) with
  | some e =>
    if ag.tile = some e.owner && path = .cached then touchReserved s ag e line o n write
    else if write then s else touchLine (roomFor line s) path ag line write true
  | none => touchLine (roomFor line s) path ag line write false

/-- The access checks and the cache traffic of `n` bytes at `pa` by `ag` (R292, R295, R297), line by line. -/
def lineAccess (ag : Agent) (path : Path) (va : BitVec 56) (pa n : Nat) (write : Bool) : M Unit := do
  for line in linesOf pa n do
    judgeLine ag va line write (← get).resv
    let lo := max pa (128 * line)
    modify fun s => exposeLine (wakeArray (cacheAccess ag path line (lo - 128 * line) (min (pa + n) (128 * line + 128) - lo) write s) path ag.tile) (ag.member s) line

/-- Does a link to the outside carry CXL.cache and CXL.mem: has a port trained, and has the device booted (R430, R437)? -/
def State.linkUp (s : State) : Bool := !s.ports.isEmpty && !s.recovery

/-- Is a granule of memory poisoned: by itself, held by a failed HBM channel, or behind a link that carries nothing, so that its completion
times out (R395, R413, R430)? -/
def State.poisoned (s : State) (g : Nat) : Bool :=
  s.poison.contains g || (decide (2 ^ 33 ≤ g) && !s.linkUp) || (!s.hbmDown.isEmpty && decide (g < 2 ^ 33) && s.hbmDown.contains (Config.hbmChannel g).toNat)

/-- The 64-byte granules of [a, a + n). -/
def granules (a n : Nat) : List Nat := (List.range ((a + n - 1) / 64 - a / 64 + 1)).map (· + a / 64)

/-- Read `n` bytes of physical memory for an agent that does not consume them (R396). -/
def physReadQuiet (ag : Agent) (path : Path) (va : BitVec 56) (pa n : Nat) : M (List (BitVec 8)) := do
  lineAccess ag path va pa n false
  modify (carryReleases ag pa n)
  return cellsGet (← get).mem pa n

/-- The consumption of a granule by an agent (R396), to be classed by ERROR_CONSUMED; `g` is 0 for a scratchpad granule. -/
def consume (ag : Agent) (g : Nat) (s : State) : State :=
  { s with consumed := s.consumed ++ [(ag.tile.getD 1024, ag.slot.getD 0, g)] }

/-- Read `n` bytes of physical memory for an agent. -/
def physRead (ag : Agent) (path : Path) (va : BitVec 56) (pa n : Nat) : M (List (BitVec 8)) := do
  let bs ← physReadQuiet ag path va pa n
  modify fun s => ((granules pa n).filter s.poisoned).foldl (fun s g => consume ag g s) s
  return bs

/-- Write bytes of physical memory for an agent. -/
def physWrite (ag : Agent) (path : Path) (va : BitVec 56) (pa : Nat) (bs : List (BitVec 8)) : M Unit := do
  lineAccess ag path va pa bs.length true
  modify fun s => physPut s ag pa bs

/-! ### Translation (R304 to R314) -/

inductive Access where
  | read | write | atomic | fetch
  deriving DecidableEq, Repr

/-- A leaf a walk found: the entry, its physical address, and the exponent of the page size. -/
structure Leaf where
  pte  : Nat
  addr : Nat
  bits : Nat
  deriving DecidableEq, Repr

/-- How a walk ends short of a leaf: cause, sub-cause and the physical address of the entry it stopped at. -/
structure WalkFault where
  cause : BitVec 8
  sub   : BitVec 8
  entry : Nat
  deriving DecidableEq, Repr

/-- Route a physical address of a frame in migration (R314): below PTR the new frame, at or above it the old one.  A migration that is done
routes nothing any more: OLD may be in use again. -/
def migRoute (s : State) (part pa : Nat) : Nat :=
  match (s.partition part).mig with
  | some g => if g.phase = 2 && g.old ≤ pa && pa < g.old + g.ptr then g.new + (pa - g.old) else pa
  | none => pa

/-- Is the address inside a window of the class (R431)?  HBM lies below 2^39. -/
def addressClass (s : State) (pa : Nat) : Option (BitVec 2) :=
  if pa < 2 ^ 39 then some 0 else (s.windows.find? fun w => decide (w.base ≤ pa) && decide (pa < w.base + w.size)).map (·.cls)

def isRevoked (s : State) (pa n : Nat) : Bool := s.revoked.any fun (b, z) => overlaps pa n b z

/-- Quota test of a page by ranges: walks the quota from `pa` upward through adjacent ranges. -/
def quotaReach (p : Partition) : Nat → Nat → Nat
  | 0, a => a
  | f + 1, a =>
    match (List.range 8).find? (fun k =>
      let b := fieldOf (p.word (16 + 2 * k)) 12 44 * 4096
      decide (b ≤ a) && decide (a < b + 4096 * fieldOf (p.word (17 + 2 * k)) 0 32)) with
    | some k => quotaReach p f (fieldOf (p.word (16 + 2 * k)) 12 44 * 4096 + 4096 * fieldOf (p.word (17 + 2 * k)) 0 32)
    | none => a

/-- A leaf admits its page when every 4 KiB frame lies in the union of the quota ranges (R300). -/
def pageInQuota (p : Partition) (pa n : Nat) : Bool := decide (pa + n ≤ quotaReach p 9 pa)

/-- Reserved bits and values of a table entry (Table 15.7, `WALK` 2), at the level whose leaf would cover 2^bits bytes. -/
def pteReserved (level pte : Nat) : Bool :=
  let lf := fieldOf pte 9 1
  let c64 := fieldOf pte 10 1
  let pfn := fieldOf pte 12 44 * 4096
  let bits := if level = 0 ∧ c64 = 1 then 16 else 12 + 9 * level
  fieldOf pte 58 6 != 0 || fieldOf pte 11 1 != 0 || fieldOf pte 56 2 == 3 ||
  (if lf = 1 then
     level == 3 || (fieldOf pte 2 1 == 1 && fieldOf pte 1 1 == 0) || (c64 == 1 && level != 0) || pfn % 2 ^ bits != 0
   else level == 0 || c64 != 0 || fieldOf pte 1 8 != 0)

/-- Do the 16 entries of a C64 group agree in every bit but A and D (`WALK` 3)? -/
def c64Agrees (s : State) (entry pte : Nat) : Bool :=
  let base := entry / 128 * 128
  let strip := fun x : Nat => x - fieldOf x 5 2 * 32
  (List.range 16).all fun i => decide (strip (leNat (cellsGet s.mem (base + 8 * i) 8)) = strip pte)

/-- The walk from the node at `node`, `n` levels deep: the leaf, or the fault of Table 15.8. -/
def walkFrom (s : State) (part : Nat) (va : Nat) : Nat → Nat → Except WalkFault Leaf
  | 0, node => .error { cause := cWALK, sub := 2, entry := node }
  | n + 1, node =>
    if isRevoked s node 4096 then .error { cause := cWALK, sub := 1, entry := node }
    else
      let entry := migRoute s part (node + 8 * fieldOf va (12 + 9 * n) 9)
      let pte := leNat (cellsGet s.mem entry 8)
      let pfn := fieldOf pte 12 44 * 4096
      if pte % 2 = 0 then .error { cause := cPAGE, sub := 1, entry := entry }
      else if pteReserved n pte then .error { cause := cWALK, sub := 2, entry := entry }
      else match addressClass s pfn with
        | none => .error { cause := cADDR, sub := 0, entry := entry }
        | some c =>
          if c.toNat ≠ fieldOf pte 56 2 then .error { cause := cWALK, sub := 4, entry := entry }
          else if fieldOf pte 9 1 = 0 then walkFrom s part va n pfn
          else if fieldOf pte 10 1 = 1 ∧ ¬ c64Agrees s entry pte then .error { cause := cWALK, sub := 3, entry := entry }
          else
            let bits := if fieldOf pte 10 1 = 1 then 16 else 12 + 9 * n
            if isRevoked s pfn (2 ^ bits) then .error { cause := cPAGE, sub := 2, entry := entry }
            else if !pageInQuota (s.partition part) pfn (2 ^ bits) then .error { cause := cPROT, sub := 11, entry := entry }
            else .ok { pte := pte, addr := entry, bits := bits }

/-- The lines of the table entries that a walk reads, from the node at `node` on (R308). -/
def walkedLines (s : State) (part : Nat) (va : Nat) : Nat → Nat → List Nat
  | 0, _ => []
  | n + 1, node =>
    let entry := migRoute s part (node + 8 * fieldOf va (12 + 9 * n) 9)
    let pte := leNat (cellsGet s.mem entry 8)
    (entry / 128) :: (if pte % 2 = 1 ∧ fieldOf pte 9 1 = 0 then walkedLines s part va n (fieldOf pte 12 44 * 4096) else [])

/-- The walk of a virtual address of partition `part` from its root (R304); an address past 48 bits names nothing (R68),
and neither does a root in no window (R431). -/
def walk (s : State) (part va : Nat) : Except WalkFault Leaf :=
  let root := fieldOf ((s.partition part).word 5) 12 44 * 4096
  if 2 ^ 48 ≤ va then .error { cause := cADDR, sub := 0, entry := 0 }
  else if (addressClass s root).isNone then .error { cause := cADDR, sub := 0, entry := root }
  else walkFrom s part va 4 root

/-- The permission a leaf lacks for an access (R306), as the `PROT` sub-cause. -/
def lacks (pte : Nat) : Access → Option (BitVec 8)
  | .read => if fieldOf pte 1 1 = 1 then none else some 8
  | .write => if fieldOf pte 2 1 = 1 then none else some 9
  | .atomic => if fieldOf pte 1 1 = 0 then some 8 else if fieldOf pte 2 1 = 1 then none else some 9
  | .fetch => if fieldOf pte 3 1 = 1 then none else some 10

/-- The physical address of `va` under a leaf; under a leaf with MIG = 1, whose PFN is the new frame, it is routed until the migration is
done (R313, R314). -/
def leafAddress (s : State) (part : Nat) (l : Leaf) (va : Nat) : Nat :=
  let pa := fieldOf l.pte 12 44 * 4096 + va % 2 ^ l.bits
  if fieldOf l.pte 8 1 = 1 then
    match (s.partition part).mig with
    | some g => if g.phase ≠ 3 && g.new ≤ pa && pa < g.new + 2 ^ g.size then migRoute s part (g.old + (pa - g.new)) else pa
    | none => pa
  else pa

/-- Is NS set in the leaf (R309)? -/
def Leaf.ns (l : Leaf) : Bool := fieldOf l.pte 7 1 = 1

/-- Walk and check permissions without changing anything: what a fault-free translation finds. -/
def probe (s : State) (part va : Nat) (acc : Access) : Except WalkFault Leaf :=
  match walk s part va with
  | .error f => .error f
  | .ok l => match lacks l.pte acc with
    | some sub => .error { cause := cPROT, sub := sub, entry := l.addr }
    | none => .ok l

/-- Set A, and D for a write, in the leaf (R307), as an atomic of the walker at the entry's home: a write of the entry, which drops the
translations derived from its line (R308). -/
def markLeaf (s : State) (ag : Agent) (l : Leaf) (acc : Access) : State :=
  let want := if acc = .write ∨ acc = .atomic then 0x60 else 0x20
  let new := l.pte ||| want
  if new = l.pte then s else physPut (touchHome s (l.addr / 128) true) { ag with slot := none } l.addr (natLe 8 new)

/-- The walk read the lines of the entries at their homes; the tile keeps the translation and holds those lines from now on (R308). -/
def keepXlat (t part va : Nat) (l : Leaf) (st : Option Nat) (s : State) : State :=
  let x := s.tile t
  let base := va / 2 ^ l.bits * 2 ^ l.bits
  if x.xlat.any (fun y => decide (y.part = part) && decide (y.base = base) && decide (y.bits = l.bits) && (st.isNone || decide (y.stream = st))) then s
  else
    let ws := walkedLines s part va 4 (fieldOf ((s.partition part).word 5) 12 44 * 4096)
    let s1 := ws.foldl (fun s w => touchHome s w false) s
    let x1 := s1.tile t
    ws.foldl (fun s w => noteRegion false w (roomFor w s))
      (s1.setTile t { x1 with xlat := x1.xlat ++ [{ part := part, base := base, bits := l.bits, walked := ws, stream := st }] })

/-- Translate for an access: the physical address and whether the page is uncached; A and D are set, and the tile keeps the translation. -/
def translate (ag : Agent) (part va : Nat) (acc : Access) : M (Nat × Bool) := do
  let s ← get
  match probe s part va acc with
  | .error f => throw (.trap { cause := f.cause, sub := f.sub, tva := BitVec.ofNat 56 va })
  | .ok l =>
    let s1 := markLeaf s ag l acc
    set (match ag.tile with
      | some t => keepXlat t part va l none s1
      | none => s1)
    return (leafAddress s part l va, l.ns)

/-! ### Walk-ahead (R310) -/

/-- First bytes of the page of `va` and of the next `n` pages in the direction of `down`; a page that does not translate counts 4 KiB. -/
def pagesFrom (s : State) (part : Nat) (down : Bool) : Nat → Nat → List Nat
  | 0, _ => []
  | n + 1, va =>
    let bits := match walk s part va with
      | .ok l => l.bits
      | .error _ => 12
    let base := va / 2 ^ bits * 2 ^ bits
    va :: (if down then (if base = 0 then [] else pagesFrom s part down n (base - 1)) else pagesFrom s part down n (base + 2 ^ bits))

/-- Current address c of a stream (R270). -/
def Stream.current (st : Stream) : Word :=
  if st.es.toInt < 0 then st.addr + st.ext.zeroExtend 64 + st.es.signExtend 64 + st.pos else st.addr + st.pos

/-- Stream register `k` of tile `t`, of KIND 0, keeps translated the page of its position and the next four pages along ES; a page that
faults is left out. -/
def walkAhead (t k : Nat) (s : State) : State :=
  let st := sget {} (s.tile t).ctx.streams k
  let part := (s.tile t).part.getD 0
  if !st.isOpen || st.kind != 0 then s
  else
    let s0 := s.setTile t { s.tile t with xlat := (s.tile t).xlat.filter fun y => y.stream != some k }
    let vs := pagesFrom s part (decide (st.es.toInt < 0)) 5 st.current.toNat
    let s1 := vs.foldl (fun s va => match walk s part va with
      | .ok l => markLeaf s { tile := some t } l .read
      | .error _ => s) s0
    vs.foldl (fun s va => match walk s part va with
      | .ok l => keepXlat t part va l (some k) s
      | .error _ => s) s1

end Sys2Proof.Machine
end

