-- ==== Sys2Proof/Machine/Queue.lean ====
section
/-! DEFINITION. The entries of the engine queue as data (R356, R377): the queue that an operation belongs to, the bytes that an entry pins
(R189 to R191), and the abandonment of the entry at `vcp`. -/

namespace Sys2Proof.Machine

def updCtx (t : Nat) (f : Ctx → Ctx) (s : State) : State := s.setTile t { s.tile t with ctx := f (s.tile t).ctx }

def setQueue (t : Nat) (q : List Entry) (s : State) : State := s.setTile t { s.tile t with queue := q }

def setVstart (t n : Nat) (s : State) : State := updCtx t (fun c => { c with av := { c.av with vstart := n } }) s

/-- Scalar registers as an entry read them when it issued (R96). -/
def Entry.reg (e : Entry) (r : BitVec 5) : Word := if r = 0 then 0 else sget 0 e.regs r.toNat

/-! ### The four queues (R356) -/

inductive Queue where
  | vector | matrix | transfer | fabric | join
  deriving DecidableEq, Repr

def EngOp.queue : EngOp → Queue
  | .mcfg _ _ _ _ _ => .matrix
  | .mma _ _ _ _ _ => .matrix
  | .mzero _ => .matrix
  | .mld _ _ _ => .matrix
  | .mst _ _ _ => .matrix
  | .mstSm _ _ _ => .matrix
  | .mdrain _ _ _ _ _ => .matrix
  | .xcopy _ _ _ => .transfer
  | .xcopyQ _ _ => .transfer
  | .xabort _ => .transfer
  | .xqry _ _ => .transfer
  | .xwaitW _ _ => .transfer
  | .xwaitE => .transfer
  | .xev _ => .transfer
  | .fcfgLd _ _ => .fabric
  | .fcfgSw _ _ => .fabric
  | .fstart => .fabric
  | .fstop => .fabric
  | .fsave _ => .fabric
  | .frest _ => .fabric
  | .fmark _ => .fabric
  | .fstat _ _ => .fabric
  | .fportW _ _ _ => .fabric
  | .fportR _ _ _ => .fabric
  | .fenceQ _ => .join
  | _ => .vector

/-- The entry can no longer trap, and waits only to retire or for its engine to become free. -/
def Entry.committed (e : Entry) : Bool := match e.state with | .performed => true | .running _ => true | _ => false

def Entry.isStalled (e : Entry) : Bool := match e.state with | .stalled _ => true | _ => false

/-! ### A copy whose acceptance is not yet certain (R131, R147) -/

def Copy.active (c : Copy) : Bool := match c.state with | .running => true | .suspended _ => true | _ => false

/-- The copy that an identifier names (R154). -/
def findCopy (c : Ctx) (ident : Word) : Option (Nat × Copy) :=
  let slot := fld ident 0 9
  match sfind c.copies slot with
  | some k => if ident.toNat / 2 ^ 20 = 0 ∧ k.ident % 2 ^ 16 = fld ident 0 16 then some (slot, k) else none
  | none => none

/-- Is it an `xcopy` or an `xcopy.q`? -/
def EngOp.isCopy : EngOp → Bool
  | .xcopy _ _ _ => true
  | .xcopyQ _ _ => true
  | _ => false

/-- The channel as it stands without a copy of `n` bytes at its top, which has moved nothing: the range ends below it, and a BUSY channel is
idle when no other copy of the range is in progress. -/
def XChan.shorten (x : XChan) (n : Nat) (others : Bool) : XChan :=
  if others || x.state ≠ .busy then { x with re := x.re - n } else { x with re := x.re - n, wm := x.re - n, state := .idle, filled := [] }

/-- The copy that a discarded entry had had accepted has had no effect (R131, R377): its slot and its channel are as before.  A copy that has
moved a byte, or whose access has faulted, goes on (R147). -/
def withdrawCopy (c : Ctx) (e : Entry) : Ctx :=
  match e.state, e.op.isCopy, e.dests with
  | .performed, true, [(_, ident)] => match findCopy c ident with
    | some (slot, k) =>
      if k.begun || !k.active then c
      else
        let x := sget {} c.xchans k.chan
        let others := c.copies.any fun (j, o) => j != slot && decide (o.chan = k.chan) && !o.out && o.active
        let x1 := match k.prior with
          | some y => y
          | none => if k.out then x else x.shorten k.span others
        { c with copies := sdel c.copies slot, slotLast := k.lastSlot, xchans := sput c.xchans k.chan x1 }
    | none => c
  | _, _, _ => c

/-! ### Registers of an entry performed ahead of its turn (R131, R356, R377) -/

/-- The registers of a family that a performance has changed, with their former values. -/
def formerRegs {α : Type} [DecidableEq α] (d : α) (old new : SMap α) : SMap α :=
  (new.filter fun (k, v) => decide (v ≠ sget d old k)).map fun (k, _) => (k, sget d old k)

/-- What the performance between two states of a tile's context has changed. -/
def savedRegs (old new : Ctx) : RegSave :=
  { v := formerRegs 0 old.v new.v, m := formerRegs 0 old.m new.m, q := formerRegs 0 old.q new.q, sat := formerRegs 0 old.sat new.sat }

/-- Registers put back. -/
def putRegs {α : Type} (l m : SMap α) : SMap α := l.foldl (fun m (k, v) => sput m k v) m

def RegSave.restore (r : RegSave) (c : Ctx) : Ctx :=
  { c with v := putRegs r.v c.v, m := putRegs r.m c.m, q := putRegs r.q c.q, sat := putRegs r.sat c.sat }

/-- A discarded entry has had no effect. -/
def withdrawEntry (c : Ctx) (e : Entry) : Ctx := withdrawCopy (match e.saved with | some r => r.restore c | none => c) e

/-! ### Abandonment (R377) -/

/-- The entries that the strand in slot `k` has issued. -/
def Tile.entriesOf (x : Tile) (k : Nat) : List Entry := x.queue.filter (·.slot = k)

/-- The entries of the lead strand are discarded, the youngest first. -/
def withdrawAll (t : Nat) (s : State) : State := updCtx t (fun c => ((s.tile t).entriesOf 0).reverse.foldl withdrawEntry c) s

/-- A strand that waited is runnable again. -/
def Strand.leaveWait (y : Strand) : Strand := { y with state := match y.state with | .waiting _ => .runnable | st => st }

/-- The entries of slot `k` leave the queue. -/
def dropEntries (t k : Nat) (s : State) : State := setQueue t ((s.tile t).queue.filter (·.slot ≠ k)) s

/-- The lead strand returns to the values it held when its entry `e` at `vcp` issued; the entry and every younger one are discarded, the flags
that its elements have raised are recorded (R22, R178), and its resume index stands in `vstart` (R377, Table 21.1). -/
def abandonHead (t : Nat) (e : Entry) (resume : Nat) (s : State) : State :=
  let y := if e.committed then s.strandOf t 0 else retireFlags (s.strandOf t 0) e.pc e.flags
  setVstart t resume (dropEntries t 0 ((withdrawAll t s).setStrandOf t 0 ({ y with regs := e.regs, pc := e.pc } : Strand).leaveWait))

/-- A helper or the supervisor strand returns to its oldest `fence.q` that has not retired (R80, R377). -/
def abandonFence (t k : Nat) (s : State) : State :=
  match (s.tile t).entriesOf k with
  | e :: _ => dropEntries t k (s.setStrandOf t k ({ s.strandOf t k with regs := e.regs, pc := e.pc } : Strand).leaveWait)
  | [] => s

/-- Does an abandonment leave partial progress in `vstart` (Table 21.1)? -/
def EngOp.resumes : EngOp → Bool
  | .load _ _ _ _ => true
  | .store _ _ _ _ => true
  | .vmm _ _ _ _ _ => true
  | .vfba _ => true
  | .mma _ _ _ _ _ => true
  | .mld _ _ _ => true
  | .mst _ _ _ => true
  | .mstSm _ _ _ => true
  | .mdrain _ _ _ _ _ => true
  | _ => false

/-- The resume index of an abandoned entry (Table 21.1). -/
def EngOp.resumeAt (op : EngOp) (vstart : Nat) : Nat := if op.resumes then vstart else 0

/-! ### Pins (R189 to R191) -/

/-- Add the run [a, b) to a list of disjoint rising runs. -/
def addRun (a b : Nat) : List (Nat × Nat) → List (Nat × Nat)
  | [] => [(a, b)]
  | (x, y) :: r => if b < x then (a, b) :: (x, y) :: r else if y < a then (x, y) :: addRun a b r else addRun (min a x) (max b y) r

/-- The entry that tile `t` performs has read `n` bytes of tile `h`'s scratchpad as an operand. -/
def pinBytes (t h off n : Nat) (s : State) : State :=
  let x := s.tile t
  s.setTile t { x with reads := sput x.reads h (addRun off (off + n) (sget [] x.reads h)) }

/-- Does the entry pin one of the bytes? -/
def Entry.pinsAny (e : Entry) (h off n : Nat) : Bool := (sget [] e.pins h).any fun (a, b) => overlaps off n a (b - a)

/-- Tiles of the cluster with an entry that pins one of `n` bytes of tile `h`. -/
def pinners (s : State) (h off n : Nat) : List Nat :=
  ((List.range 4).map (clusterBase h + ·)).filter fun u => (s.tile u).queue.any (·.pinsAny h off n)

/-- Is the entry stalled as R191 names: on a watermark, which a stripe not yet refilled counts as (R393), on a reservation under the wait policy,
or on an empty channel? -/
def Entry.yieldsPins (e : Entry) (s : State) : Bool :=
  match e.state with
  | .stalled .watermark => true
  | .stalled .refill => true
  | .stalled .port => true
  | .stalled (.reservation rid _) => s.resv.any fun r => r.rid = rid && r.pol = 1
  | _ => false

/-- Before a write to `n` bytes of tile `h`: an instruction that pins one of them and stands stalled at `vcp` is abandoned at its boundary
(R191); the write waits for every other pin (R190). -/
def releasePins (h off n : Nat) : M Unit := do
  for u in pinners (← get) h off n do
    let s ← get
    match (s.tile u).queue with
    | e :: _ =>
      if e.yieldsPins s && e.pinsAny h off n then set (abandonHead u e (e.op.resumeAt (s.tile u).ctx.av.vstart) s) else throw (.wait .pin)
    | [] => pure ()

end Sys2Proof.Machine
end

