-- ==== Sys2Proof/Machine/Ops.lean ====
section
/-! DEFINITION. The named operations over strands, registers and memory: registers and the program counter, taking a trap
and returning from one, scratchpad addresses, scalar accesses, notices and the error log. -/

namespace Sys2Proof.Machine

/-! ### The current strand -/

def State.cur (s : State) : Strand := s.strandOf s.ct s.cs
def State.curTile (s : State) : Tile := s.tile s.ct
def State.setCur (s : State) (y : Strand) : State := s.setStrandOf s.ct s.cs y
def State.setCurTile (s : State) (x : Tile) : State := s.setTile s.ct x

/-- Read a scalar register: s0 reads as zero (R11). -/
def Strand.reg (y : Strand) (r : BitVec 5) : Word := if r = 0 then 0 else sget 0 y.regs r.toNat

/-- Write a scalar register: a write to s0 is discarded (R11). -/
def Strand.setReg (y : Strand) (r : BitVec 5) (v : Word) : Strand :=
  if r = 0 then y else { y with regs := sput y.regs r.toNat v }

def State.reg (s : State) (r : BitVec 5) : Word := s.cur.reg r
def State.setReg (s : State) (r : BitVec 5) (v : Word) : State := s.setCur (s.cur.setReg r v)

/-- Continue at address `a`. -/
def State.goto (s : State) (a : Word) : State := s.setCur { s.cur with pc := a, state := .runnable }

/-- Continue at the next word. -/
def State.advance (s : State) : State := s.goto (s.cur.pc + 4)

/-- Write `sd` and continue at the next word: the end of most scalar instructions. -/
def State.retire (s : State) (d : BitVec 5) (v : Word) : State := (s.setReg d v).advance

/-- The strand stands at its instruction, WAITING (Table 19.1); an access that a slice holds provokes a split there (R285). -/
def State.waitAt (s : State) (w : WaitKind) : State := (s.setCur { s.cur with state := .waiting w, age := 0 }).noteWait w

/-- Is the current strand the lead strand of a team (R352)? -/
def State.isLead (s : State) : Bool := s.cs = 0 && s.curTile.team.isSome

/-- The partition of the current tile (0 where the tile has none). -/
def State.curPart (s : State) : Nat := s.curTile.part.getD 0

/-- The current strand as the agent of an access. -/
def State.agent (s : State) : Agent := { tile := some s.ct, slot := some s.cs }

/-- Older engine entries of the strand are unretired. -/
def State.enginesBusy (s : State) : Bool := s.curTile.queue.any (·.slot = s.cs)

/-- Is a cancel, a trap or a pre-emption pending for the strand (R83, R380)? -/
def State.eventPending (s : State) (t k : Nat) : Bool :=
  let y := s.strandOf t k
  !y.cancels.isEmpty || !y.traps.isEmpty ||
  (match (s.tile t).part with | some p => (s.partition p).pre == .halting && !(s.tile t).halted | none => false)

/-- Logical stripes usable at a point, from the tile's char map (R420). -/
def Tile.capAt (x : Tile) (p : Nat) : Nat := min 1536 (1600 - popBits 1600 (sget 0 x.fails p).toNat)

/-- Is the logical stripe allocated? -/
def Tile.stripeTaken (x : Tile) (n : Nat) : Bool := x.regions.any fun r => decide (r.base ≤ n) && decide (n < r.base + r.stripes)

/-- Only the regions that satisfy `p` stay allocated; of a freed stripe nothing has still to be brought back from the backing area (R180,
R393). -/
def Tile.keepRegions (p : Region → Bool) (x : Tile) : Tile :=
  let y := { x with regions := x.regions.filter p }
  { y with evicted := x.evicted.filter y.stripeTaken }

/-- The stripes that an eviction has released: those of a saved context.  A resumption allocates them again, and refills them (R392, R393). -/
def Tile.awayStripes (x : Tile) : List Nat := if x.saved.isSome || x.backing.isSome then x.evicted else []

/-- Allocated stripes (`spcap`.ALLOC). -/
def Tile.alloc (x : Tile) : Nat := (x.regions.map (·.stripes)).sum - x.awayStripes.length

/-! ### Error log (R411) -/

def logCapacity : Nat := 4096

/-- Table 22.8: class, source, tile, partition, wave; address; `cyc`; count. -/
def logRecord (s : State) (cls src tile part wave : Nat) (addr : Nat) : Word × Word × Word × Word :=
  (BitVec.ofNat 64 (cls % 16 + 16 * (src % 256) + 2 ^ 12 * (tile % 1024) + 2 ^ 22 * (part % 16) + 2 ^ 26 * (wave % 2 ^ 16)),
   BitVec.ofNat 64 (addr % 2 ^ 56), BitVec.ofNat 64 s.cyc, 1)

def keepNewest {α : Type} (n : Nat) (l : List α) : List α := l.drop (l.length - n)

/-- Append a record to the partition's log, or to the device's. -/
def State.log (s : State) (part : Option Nat) (cls src tile wave addr : Nat) : State :=
  let r := logRecord s cls src tile (part.getD 0) wave addr
  match part with
  | some p => s.setPartition p { s.partition p with errlog := keepNewest logCapacity ((s.partition p).errlog ++ [r]) }
  | none => { s with errlog := keepNewest logCapacity (s.errlog ++ [r]) }

/-! ### Notices (R372, Table 19.5) -/

/-- Read `n` bytes at a virtual address of the partition for the device itself, as a load of the supervisor strand is translated, or,
for `acc`, as its store is. -/
def partRead (p va n : Nat) (acc : Access) : M Nat := do
  let (pa, _) ← translate {} p va acc
  return leNat (← physReadQuiet {} .home (BitVec.ofNat 56 va) pa n)

/-- Write bytes at a virtual address of the partition as a store of the supervisor strand would be translated. -/
def partWrite (p va : Nat) (bs : List (BitVec 8)) : M Unit := do
  let (pa, _) ← translate {} p va .write
  physWrite {} .home (BitVec.ofNat 56 va) pa bs

/-- How an attempt to post a notice ends: a full ring leaves it with its agent, and so does a reservation that holds the ring's words; a write
that faults has an address and the table entry at which its walk stops. -/
inductive PostResult where
  | posted (s : State) | held (s : State) | unwritable (s : State) (va entry : Nat)

/-- Write the record at slot NTAIL mod 1,024, then NTAIL + 1; false when the ring is full. -/
def writeNotice (p : Nat) (w : Word × Word × Word × Word) : M Bool := do
  let ring := ((← get).partition p).word 9 % 2 ^ 48
  let tail ← partRead p (ring + 32768) 4 .write
  let head ← partRead p (ring + 32772) 4 .write
  if (tail + 2 ^ 32 - head) % 2 ^ 32 = 1024 then return false
  partWrite p (ring + 32 * (tail % 1024)) (natLe 8 w.1.toNat ++ natLe 8 w.2.1.toNat ++ natLe 8 w.2.2.1.toNat ++ natLe 8 w.2.2.2.toNat)
  partWrite p (ring + 32768) (natLe 4 (tail + 1))
  return true

/-- The entry at which the ring's translation stops. -/
def ringEntry (s : State) (p : Nat) (tr : Trap) : Nat :=
  match probe s p tr.tva.toNat .write with
  | .error f => f.entry
  | .ok _ => 0

def tryPost (s : State) (p : Nat) (w : Word × Word × Word × Word) : PostResult :=
  match writeNotice p w s with
  | .ok true s1 => .posted s1
  | .ok false _ => .held s
  | .error (.wait k) _ => .held (s.noteWait k)
  | .error (.trap tr) _ => .unwritable s tr.tva.toNat (ringEntry s p tr)

/-- A notice cannot be written at `va`: a record of class 6, and a watch on the line of the entry at which the walk stops (R372). -/
def watchNotice (p va entry : Nat) (s : State) : State :=
  let s1 := s.log (some p) 6 10 0x3FF 0 va
  { s1.setPartition p { s1.partition p with noteWatch := some (entry / 128) } with resWatches := s1.resWatches ++ [entry / 128] }

/-- Post a notice, or leave it with the agent that posts it until space frees or the ring's page can be written (R372). -/
def postNotice (s : State) (p : Nat) (w : Word × Word × Word × Word) : State :=
  let hold := fun s : State => s.setPartition p { s.partition p with notices := (s.partition p).notices ++ [w] }
  if !(s.partition p).notices.isEmpty then hold s
  else match tryPost s p w with
    | .posted s1 => s1
    | .held s1 => hold s1
    | .unwritable s1 va entry => watchNotice p va entry (hold s1)

/-- Post notices in order; has their agent still to wait for one of them? -/
def postAll (s : State) (p : Nat) (ws : List (Word × Word × Word × Word)) : State × Bool :=
  let s1 := ws.foldl (fun s w => postNotice s p w) s
  (s1, !ws.isEmpty && !(s1.partition p).notices.isEmpty)

/-- The record of Table 19.5. -/
def noticeWords (cause sub : BitVec 8) (tile slot : Nat) (pos : Option Nat) (addr : BitVec 56) (telem : BitVec 15) (hi : BitVec 8)
    (cid : Nat) : Word × Word × Word × Word :=
  (BitVec.ofNat 64 (cause.toNat + 2 ^ 8 * sub.toNat + 2 ^ 16 * (tile % 1024) + 2 ^ 26 * (slot % 8)
      + (match pos with | some e => 2 ^ 29 + 2 ^ 30 * (e % 64) | none => 0) + 2 ^ 63),
   addr.zeroExtend 64,
   BitVec.ofNat 64 (telem.toNat + 2 ^ 24 * hi.toNat),
   BitVec.ofNat 64 cid)

/-- The launch counter identifier of the tile's team, 0 for the supervisor strand. -/
def State.cidOf (s : State) (t k : Nat) : Nat :=
  if s.isSupervisor t k then 0 else match (s.tile t).team with | some m => m.cid.toNat | none => 0

/-! ### Taking a trap and returning from one (R86, R88) -/

/-- The notices that a trap of slot `k` has still to have posted: that of a `WALK` fault (R306), and that of a trap which cannot be taken
(R86). -/
def trapNotices (s : State) (t k : Nat) (tr : Trap) (double : Bool) : List (Word × Word × Word × Word) :=
  (if tr.cause = cWALK ∧ !tr.posted then [noticeWords tr.cause tr.sub t k none tr.tva tr.telem 0 (s.cidOf t k)] else []) ++
  (if double ∧ !tr.doubled then [noticeWords cDOUBLE tr.cause t k none tr.tva tr.telem tr.sub (s.cidOf t k)] else [])

/-- Has the strand still to wait for its notice (R372)? -/
def postingHeld (s : State) (t k : Nat) : Bool :=
  (s.strandOf t k).posting && (match (s.tile t).part with | some p => !(s.partition p).notices.isEmpty | none => false)

/-- A decode trap: `ILL`, `RSVD` or `PRIV` (R45). -/
def decodeTrap (cause : BitVec 8) : Trap := { cause := cause, decode := true }

/-- A decode trap of the strand in slot 0 leaves `vstart` at zero (R45). -/
def clearStart (s : State) (t k : Nat) (tr : Trap) : State :=
  if tr.decode && k = 0 then s.setTile t { s.tile t with ctx := { (s.tile t).ctx with av := { (s.tile t).ctx.av with vstart := 0 } } } else s

/-- Post what a trap of slot `k` has still to have posted; has the strand to wait for it? -/
def postTrap (s : State) (t k : Nat) (tr : Trap) (double : Bool) : State × Bool :=
  match (s.tile t).part with
  | some p => postAll s p (trapNotices s t k tr double)
  | none => (s, false)

/-- The handler's registers as a trap leaves them (R86). -/
def Strand.enter (y : Strand) (tr : Trap) : Strand :=
  { y with
    tcause := tr.cause.zeroExtend 16 ||| (tr.sub.zeroExtend 16 <<< 8)
    tpc    := ((tr.tpc.getD y.pc).truncate 48) &&& ~~~3
    tva    := tr.tva
    telem  := tr.telem
    h      := true
    pc     := y.tvec.zeroExtend 64
    state  := .runnable }

/-- Can a trap of the strand not be taken (R86)? -/
def Strand.doubles (y : Strand) : Bool := y.h || y.tvec == 0

/-- The strand in slot `k` of tile `t` takes a trap (R86): it enters its handler, or halts and is reported as `DOUBLE`.  While a notice of the
trap cannot be written the strand stays where it is, the trap pending (R372). -/
def takeTrap (s : State) (t k : Nat) (tr : Trap) : State :=
  let s0 := clearStart s t k tr
  let double := (s0.strandOf t k).doubles
  let (s1, held) := postTrap s0 t k tr double
  let y := s1.strandOf t k
  s1.setStrandOf t k
    (if held then { y with traps := { tr with posted := true, doubled := tr.doubled || double } :: y.traps, state := .runnable, posting := true }
     else if double then { y with state := .halted }
     else y.enter tr)

/-- A trap of the current instruction: it is taken once every older engine entry has retired (R45, R87). -/
def raise (s : State) (tr : Trap) : State :=
  if s.enginesBusy then s.waitAt .drain else takeTrap s s.ct s.cs tr

/-- `tret` (R88): with H = 1, pc := `tpc` and H := 0; nothing else is restored. -/
def returnFromTrap (s : State) : State :=
  s.setCur { s.cur with pc := s.cur.tpc.zeroExtend 64, h := false, state := .runnable }

/-- The state after a scalar instruction: a trap or a wait leaves no part of it done (R87, R89). -/
def scalarEnd (m : M Unit) (s : State) : State :=
  match m s with
  | .ok _ s' => s'
  | .error (.trap tr) _ => raise s tr
  | .error (.wait w) _ => s.waitAt w

/-- Run a scalar instruction. -/
def runScalar (m : M Unit) (s : State) : Host.Outcome State Fault Refusal := .next (scalarEnd m s)

/-- Wait until every older engine entry has committed (R378). -/
def awaitCommit : M Unit := do if (← get).enginesBusy then throw (.wait .commit)

/-- Has a cycle limit passed? -/
def limitReached (s : State) : Option Nat → Bool
  | none => false
  | some l => decide (l ≤ s.cyc)

/-- How the loop of `mwait` ends for slot `k` of tile `t`, in the order of R83; none: the strand sleeps. -/
def mwaitStatus (s : State) (t k : Nat) (limit : Option Nat) : Option Word :=
  if (s.strandOf t k).written then some 0
  else if limitReached s limit then some 1
  else if s.eventPending t k then some 2
  else none

/-- A sleeping `mwait` of slot `k` of tile `t` completes, when its loop ends or because of a pre-emption, a cancel or a trap (R83). -/
def endMwait (t k : Nat) (s : State) : State :=
  let y := s.strandOf t k
  match y.state with
  | .waiting (.mwait d l) => s.setStrandOf t k { y.setReg d ((mwaitStatus s t k l).getD 2) with pc := y.pc + 4, state := .runnable }
  | _ => s

/-! ### Scratchpad (R68, R69, R148, R179 to R186) -/

/-- The classes of an effective address (R68). -/
inductive AddrClass where
  | virt (va : Nat)
  | spd (window : Bool) (pos off : Nat)
  deriving DecidableEq, Repr

def classify (ea : Word) : Option AddrClass :=
  if fld ea 48 16 = 0 then some (.virt ea.toNat)
  else if fld ea 56 8 = 0xFE ∧ fld ea 25 31 = 0 then some (.spd (ea.getLsbD 24) (fld ea 22 2) (fld ea 0 22))
  else none

/-- The tile a scratchpad address names, seen from tile `t`. -/
def spdTile (t : Nat) (window : Bool) (pos : Nat) : Nat := if window then clusterBase t + pos else t

/-- Is the stripe of tile `h` below its capacity, and held for the accessing strand: by the launch of its team, or for the supervisor (R69, R179,
R180)? -/
def stripeHeld (s : State) (t k h stripe : Nat) : Bool :=
  let own : Option Owner :=
    if s.isSupervisor t k then (if h = t then some .supervisor else none)
    else match (s.tile t).team with
      | some m => some (.launch m.cid)
      | none => none
  decide (stripe < (s.tile h).capAt s.opcur.toNat) &&
  (s.tile h).regions.any fun r => decide (some r.owner = own) && decide (r.base ≤ stripe) && decide (stripe < r.base + r.stripes)

/-- The range rule of R69 for `n` bytes. -/
def spdInRange (s : State) (t k : Nat) (window : Bool) (pos off n : Nat) : Bool :=
  (if window then (match (s.tile t).team with | some m => m.cs && !s.isSupervisor t k | none => false) else pos = 0) &&
  decide (off + n ≤ 2 ^ 22) &&
  (List.range ((off + n - 1) / 2048 - off / 2048 + 1)).all fun i => stripeHeld s t k (spdTile t window pos) (off / 2048 + i)

/-- What the watermarks say of one byte (R148, R186). -/
inductive WmState where
  | free | busy | failed
  deriving DecidableEq, Repr

/-- The context of a tile, in place or saved (R390). -/
def Tile.held (x : Tile) : Ctx := (x.saved.or x.backing).getD x.ctx

def wmByte (s : State) (h off : Nat) : WmState :=
  let hits := (List.range 4).flatMap fun i =>
    ((s.tile (clusterBase h + i)).held.xchans.filter fun (_, c) => decide (c.tile = h) && decide (c.wm ≤ off) && decide (off < c.re)
      && decide (c.state ≠ .idle)).map fun (_, c) => c.state
  if hits.contains .failed then .failed else if hits.isEmpty then .free else .busy

/-- An access to a stripe that has still to be refilled waits (R393). -/
def refillCheck (h off n : Nat) : M Unit := do
  let s ← get
  if (List.range n).any fun i => (s.tile h).evicted.contains ((off + i) / 2048) then throw (.wait .refill)

/-- The watermark stall and the `XFER` trap of an access to `n` bytes (R148, R186). -/
def wmCheck (ea : Word) (h off n : Nat) : M Unit := do
  let s ← get
  match (List.range n).find? fun i => wmByte s h (off + i) = .failed with
  | some i => throw (.trap { cause := cXFER, tva := (ea + BitVec.ofNat 64 i).truncate 56 })
  | none =>
    if (List.range n).any fun i => wmByte s h (off + i) = .busy then throw (.wait .watermark)
    refillCheck h off n

/-- Bytes of tile `h`'s scratchpad. -/
def spdGet (s : State) (h off n : Nat) : List (BitVec 8) := cellsGet (s.tile h).spd off n

/-- Does a granule of the tile's scratchpad hold an error, marked or still latent? -/
def Tile.spdBad (x : Tile) (g : Nat) : Bool := x.spdPoison.contains g || x.spdLatent.contains g

/-- The granules of a list that a write of the `n` bytes at `off` does not write whole. -/
def survivors (l : List Nat) (off n : Nat) : List Nat := l.filter fun g => !(decide (off ≤ 64 * g) && decide (64 * g + 64 ≤ off + n))

/-- Read them for an agent that consumes them (R396). -/
def spdRead (ag : Agent) (h off n : Nat) : M (List (BitVec 8)) := do
  modify fun s => ((granules off n).filter (s.tile h).spdBad).foldl (fun s _ => consume ag 0 s) s
  return spdGet (← get) h off n

/-- Write bytes of tile `h`'s scratchpad on behalf of tile `t` (R181, R402).  A granule that is written whole holds no error any longer. -/
def spdPut (s : State) (t h off : Nat) (bs : List (BitVec 8)) : State :=
  if bs.isEmpty then s
  else
    let s1 := (granules off bs.length).foldl (fun s g => logSpd s t h g) s
    let x := s1.tile h
    s1.setTile h { x with
      spd := cellsPut x.spd off bs, spdPoison := survivors x.spdPoison off bs.length, spdLatent := survivors x.spdLatent off bs.length }

/-- Write them behind the pins (R190). -/
def spdWrite (t h off : Nat) (bs : List (BitVec 8)) : M Unit := do
  releasePins h off bs.length
  modify fun s => spdPut s t h off bs

/-! ### Scalar accesses (R68 to R75) -/

/-- Where a checked access goes. -/
inductive Place where
  | mem (pa : Nat) (va : BitVec 56) (ns : Bool)
  | spd (tile off : Nat)
  deriving DecidableEq, Repr

def tvaOf (ea : Word) : BitVec 56 := ea.truncate 56

/-- The faults of an access of `n` bytes at `ea` for the strand in slot `k` of tile `t`, made by agent `ag`, in the order of R70
up to the translation. -/
def placeFor (t k : Nat) (ag : Agent) (ea : Word) (n : Nat) (acc : Access) : M Place := do
  let s ← get
  match classify ea with
  | none => throw (.trap { cause := cADDR, tva := tvaOf ea })
  | some c =>
    if ea.toNat % n ≠ 0 then throw (.trap { cause := cMISALIGN, tva := tvaOf ea })
    match c with
    | .spd w pos off =>
      if !spdInRange s t k w pos off n then throw (.trap { cause := cSPDRANGE, tva := tvaOf ea })
      wmCheck ea (spdTile t w pos) off n
      return .spd (spdTile t w pos) off
    | .virt va =>
      let (pa, ns) ← translate ag ((s.tile t).part.getD 0) va acc
      return .mem pa (tvaOf ea) ns

/-- Accesses of the strand-memory queue wait behind a `fence.q` that names it (R75, R80). -/
def awaitJoin : M Unit := do
  let s ← get
  if (s.curTile.entriesOf s.cs).any (fun e => match e.op with | .fenceQ m => m.getLsbD 4 | _ => false) then throw (.wait .join)

/-- The faults of a scalar access of `n` bytes at `ea` (R70), behind a `fence.q` that names the strand-memory queue. -/
def scalarPlace (ea : Word) (n : Nat) (acc : Access) : M Place := do
  awaitJoin
  let s ← get
  let p ← placeFor s.ct s.cs s.agent ea n acc
  match p with
  | .mem _ _ ns => if ns && acc ≠ .write && s.enginesBusy then throw (.wait .commit)
  | .spd .. => pure ()
  return p

/-- What a reservation says of an access to a checked place, before the access is made (R70, R440). -/
def judgePlace (ag : Agent) (p : Place) (n : Nat) (write : Bool) : M Unit := do
  match p with
  | .mem pa va _ => for line in linesOf pa n do judgeLine ag va line write (← get).resv
  | .spd .. => pure ()

/-- Read `n` bytes at a checked place, as agent `ag` of tile `t`. -/
def readPlace (ag : Agent) (p : Place) (n : Nat) : M (List (BitVec 8)) := do
  match p with
  | .spd h off => spdRead ag h off n
  | .mem pa va ns => physRead ag (if ns then .uncached else .cached) va pa n

/-- Write bytes at a checked place, as agent `ag` of tile `t`. -/
def writePlace (t : Nat) (ag : Agent) (p : Place) (bs : List (BitVec 8)) : M Unit := do
  match p with
  | .spd h off => spdWrite t h off bs
  | .mem pa va ns => physWrite ag (if ns then .uncached else .cached) va pa bs

/-- Set the strand's watch to a physical line and clear its written bit (R82). -/
def setWatch (pa : Nat) : M Unit :=
  modify fun s => s.setCur { s.cur with watch := some (BitVec.ofNat 49 (pa / 128)), written := false }

/-- The ordering and the scope that an ordered load, an ordered store or an atomic names (R72, R258). -/
structure Order where
  acq   : Bool := false
  rel   : Bool := false
  scope : BitVec 3 := 0
  deriving DecidableEq, Repr

/-- ORD 1 and 3 acquire, 2 and 3 release (R27). -/
def orderOf (o : BitVec 2) (sc : BitVec 3) : Order := { acq := o.getLsbD 0, rel := o.getLsbD 1, scope := sc }

/-- Before the current strand reads the `n` bytes at `pa`: an acquire has the releasing tiles flush first (R259). -/
def acquireFirst (o : Order) (ag : Agent) (pa n : Nat) (s : State) : State := if o.acq then acquireFlush ag o.scope pa n s else s

/-- The release of the current strand of the `n` bytes at `pa`, when it is one (R258). -/
def afterWrite (o : Order) (pa n : Nat) (s : State) : State := if o.rel then noteRelease s.ct s.cs o.scope pa n s else s

/-- Load `n` bytes at `ea`. -/
def scalarLoad (ea : Word) (n : Nat) (o : Order) : M Nat := do
  match ← scalarPlace ea n .read with
  | .spd h off =>
    modify fun s => s.setCur { s.cur with watch := none, written := false }
    return leNat (← spdRead (← get).agent h off n)
  | .mem pa va ns =>
    modify (acquireFirst o (← get).agent pa n)
    let bs ← physRead (← get).agent (if ns then .uncached else .cached) va pa n
    setWatch pa
    return leNat bs

/-- Store the `n` low bytes of `v` at `ea`. -/
def scalarStore (ea : Word) (n v : Nat) (o : Order) : M Unit := do
  awaitCommit
  match ← scalarPlace ea n .write with
  | .spd h off => spdWrite (← get).ct h off (natLe n v)
  | .mem pa va ns =>
    physWrite (← get).agent (if ns then .uncached else .cached) va pa (natLe n v)
    modify (afterWrite o pa n)

/-- The word's line stands in M at the releasing tile after a release at a scope that executes at the home (R292). -/
def keepRelease (o : Order) (path : Path) (line : Nat) (s : State) : State :=
  if o.rel && path = .home && !(s.resv.any (·.covers line)) then
    let s1 := flushVictim s.ct line (roomFor line s)
    noteRegion false line (fillTile s1.ct line { s1 with lines := sput s1.lines line [(s1.ct, .m)] })
  else s

/-- Where a read-modify-write atomic is executed (R74, R206): in the tile that holds the line in M, or at the home; `wide`: at `.d` or beyond. -/
def atomicPath (ns wide : Bool) : Path := if ns then .uncached else if wide then .home else .cached

/-- Write the word of an atomic: the release sequences of the value that it read go on with it (R258). -/
def putAtomic (ag : Agent) (pa : Nat) (bs : List (BitVec 8)) (s : State) : State :=
  let before := s.releasesAt pa bs.length
  let s1 := physPut s ag pa bs
  { s1 with rels := s1.rels ++ before }

/-- A read-modify-write atomic of an agent on `n` bytes of memory (R73, R74, R206): `f` gives the new value, none for no write.  Returns the
old value.  Where it is executed at the home, the holders of the line first perform the writes ordered before their releases in it (R259). -/
def memAtomic (ag : Agent) (path : Path) (va : BitVec 56) (pa n : Nat) (f : Nat → Option Nat) : M Nat := do
  if path ≠ .cached then modify (flushHolders (pa / 128))
  lineAccess ag path va pa n true
  modify (carryReleases ag pa n)
  let bs := cellsGet (← get).mem pa n
  modify fun s => ((granules pa n).filter s.poisoned).foldl (fun s g => consume ag g s) s
  match f (leNat bs) with
  | some v => modify (putAtomic ag pa (natLe n v))
  | none => pure ()
  return leNat bs

/-- A scalar atomic (R73, R74) and its ordering (R258, R259).  Returns the old value. -/
def scalarAtomic (ea : Word) (n : Nat) (o : Order) (f : Nat → Option Nat) : M Nat := do
  awaitCommit
  match ← scalarPlace ea n .atomic with
  | .spd h off =>
    let old := leNat (← spdRead (← get).agent h off n)
    match f old with
    | some v => spdWrite (← get).ct h off (natLe n v)
    | none => pure ()
    modify fun s => s.setCur { s.cur with watch := none, written := false }
    return old
  | .mem pa va ns =>
    let path := atomicPath ns (2 ≤ o.scope.toNat)
    let ag := (← get).agent
    modify (acquireFirst o ag pa n)
    let old ← memAtomic ag path va pa n f
    if (f old).isSome then modify fun s => keepRelease o path (pa / 128) (afterWrite o pa n s)
    setWatch pa
    return old

/-! ### Records read or written at a register's address (R440) -/

/-- The address classes an instruction accepts. -/
inductive Accepts where
  | memory | scratchpad | either
  deriving DecidableEq, Repr

/-- Check a record's address and alignment, and every 8-byte access of it, in the order of R440. -/
def recordPlaces (ea : Word) (bytes align : Nat) (acc : Access) (accepts : Accepts) : M (List Place) := do
  let ok := match classify ea, accepts with
    | some (.virt _), .scratchpad => false
    | some (.spd ..), .memory => false
    | some _, _ => true
    | none, _ => false
  if !ok then throw (.trap { cause := cADDR, tva := tvaOf ea })
  if ea.toNat % align ≠ 0 then throw (.trap { cause := cMISALIGN, tva := tvaOf ea })
  (List.range (bytes / 8)).mapM fun i => scalarPlace (ea + BitVec.ofNat 64 (8 * i)) 8 acc

/-- Read a record as naturally aligned 8-byte accesses: its 64-bit words. -/
def readRecord (ea : Word) (bytes align : Nat) (accepts : Accepts) : M (List Nat) := do
  let ps ← recordPlaces ea bytes align .read accepts
  ps.mapM fun p => do
    match p with
    | .spd h off => return leNat (← spdRead (← get).agent h off 8)
    | .mem pa va ns =>
      let bs ← physRead (← get).agent (if ns then .uncached else .cached) va pa 8
      return leNat bs

/-- Write 64-bit words the same way. -/
def writeRecord (ea : Word) (align : Nat) (ws : List Nat) : M Unit := do
  let ps ← recordPlaces ea (8 * ws.length) align .write .either
  for (p, w) in ps.zip ws do
    match p with
    | .spd h off => spdWrite (← get).ct h off (natLe 8 w)
    | .mem pa va ns => physWrite (← get).agent (if ns then .uncached else .cached) va pa (natLe 8 w)

/-- Word `i` of a record. -/
def rword (r : List Nat) (i : Nat) : Nat := r.getD i 0

end Sys2Proof.Machine
end

