-- ==== Sys2Proof/Machine/Operands.lean ====
section
/-! DEFINITION. Operand values of the scalar instructions (R10, R65 to R67), and the scalar registers an instruction names. -/

namespace Sys2Proof.Machine

/-- Shifts and rotates use y[5:0] only (R65). -/
def shamt (y : Word) : Nat := y.toNat % 64

/-- 1 or 0. -/
def boolWord (b : Bool) : Word := if b then 1 else 0

/-- Bits [127:64] of a product (R65). -/
def highProduct (x y : Int) : Word := BitVec.ofInt 64 (x * y / 2 ^ 64)

/-- Truncating division; by zero gives −1 (Table 3.3). -/
def divSigned (x y : Word) : Word := if y = 0 then -1 else x.sdiv y
def divUnsigned (x y : Word) : Word := if y = 0 then -1 else x / y
/-- The remainder takes the sign of the dividend; by zero it is x (Table 3.3). -/
def remSigned (x y : Word) : Word := if y = 0 then x else x.srem y
def remUnsigned (x y : Word) : Word := if y = 0 then x else x % y

/-- The index of the lowest set bit plus one, 0 for none (R67). -/
def findFirst (n x : Nat) : Nat := if x % 2 ^ n = 0 then 0 else trailZeros n x + 1

/-- Effective address of LD and ST (R68). -/
def effAddr (base : Word) (i : BitVec 13) : Word := base + i.signExtend 64

/-- Target of a branch or a jump: the instruction's own address + 4 × the offset (R10). -/
def wordTarget {n : Nat} (pc : Word) (i : BitVec n) : Word := pc + (i.signExtend 64 <<< 2)

end Sys2Proof.Machine
end

