-- ==== Sys2Proof/Machine/Branch.lean ====
section
/-! DEFINITION. Branches and jumps: majors 0x0C to 0x0E (R28, R76 to R78).  A bad target faults when it is fetched. -/

namespace Sys2Proof.Machine

/-- Continue at the branch target when the condition holds, else at the next word (R76). -/
def branchIf (c : Bool) (i : BitVec 13) (s : State) : State := if c then s.goto (wordTarget s.cur.pc i) else s.advance

/-- `beq` (R76). -/
def execBeq (a b : BitVec 5) (i : BitVec 13) (s : State) : Host.Outcome State Fault Refusal :=
  .next (branchIf (s.reg a == s.reg b) i s)

/-- `bne` (R76). -/
def execBne (a b : BitVec 5) (i : BitVec 13) (s : State) : Host.Outcome State Fault Refusal :=
  .next (branchIf (s.reg a != s.reg b) i s)

/-- `blt` (R76). -/
def execBlt (a b : BitVec 5) (i : BitVec 13) (s : State) : Host.Outcome State Fault Refusal :=
  .next (branchIf ((s.reg a).slt (s.reg b)) i s)

/-- `bge` (R76). -/
def execBge (a b : BitVec 5) (i : BitVec 13) (s : State) : Host.Outcome State Fault Refusal :=
  .next (branchIf (!(s.reg a).slt (s.reg b)) i s)

/-- `bltu` (R76). -/
def execBltu (a b : BitVec 5) (i : BitVec 13) (s : State) : Host.Outcome State Fault Refusal :=
  .next (branchIf ((s.reg a).ult (s.reg b)) i s)

/-- `bgeu` (R76). -/
def execBgeu (a b : BitVec 5) (i : BitVec 13) (s : State) : Host.Outcome State Fault Refusal :=
  .next (branchIf (!(s.reg a).ult (s.reg b)) i s)

/-- `jal` (R77): links s31. -/
def execJal (i : BitVec 26) (s : State) : Host.Outcome State Fault Refusal :=
  .next ((s.setReg 31 (s.cur.pc + 4)).goto (wordTarget s.cur.pc i))

/-- `jalr` (R77): reads sa before it writes sd; an unaligned target traps and changes neither sd nor the pc. -/
def execJalr (d a : BitVec 5) (i : BitVec 16) (s : State) : Host.Outcome State Fault Refusal :=
  let t := s.reg a + i.signExtend 64
  if t.extractLsb' 0 2 ≠ 0 then .next (raise s { cause := cMISALIGN, tva := tvaOf t })
  else .next ((s.setReg d (s.cur.pc + 4)).goto t)

end Sys2Proof.Machine
end

