-- ==== Sys2Proof/WellFormed.lean ====
section
/-! DEFINITION. Which instructions are well formed: the operand values that Table 1.18 (R43) makes a reserved encoding, whatever
the state of the machine.  What depends on the tags in force (group alignment, R14) is checked when the instruction issues. -/

namespace Sys2Proof

/-- A scope code (R19): 5 to 7 are reserved. -/
def legalScope (s : BitVec 3) : Bool := s.toNat ≤ 4
/-- The atomics take sizes 32 and 64 only (Table 1.7). -/
def atomicSize (z : BitVec 2) : Bool := 2 ≤ z.toNat
/-- An ordered load is relaxed or `.acq` (Table 1.7). -/
def loadOrder (o : BitVec 2) : Bool := o.toNat ≤ 1
/-- An ordered store is relaxed or `.rel` (Table 1.7). -/
def storeOrder (o : BitVec 2) : Bool := o == 0 || o == 2
/-- A mask register field holds 0 to 7 (R15). -/
def maskReg (r : BitVec 5) : Bool := r.toNat < 8
/-- A stream register field holds 0 to 15 (R17). -/
def streamReg (r : BitVec 5) : Bool := r.toNat < 16
/-- The lower register of a pair is even and nonzero (R11). -/
def registerPair (r : BitVec 5) : Bool := r != 0 && !r.getLsbD 0
/-- The element tag codes of Table 1.2 (R13). -/
def legalTag (t : BitVec 5) : Bool :=
  [0x01, 0x02, 0x03, 0x04, 0x05, 0x09, 0x0A, 0x0B, 0x0C, 0x0D, 0x10, 0x11, 0x12, 0x13, 0x14, 0x15, 0x18, 0x19].contains t.toNat
/-- The ratio of a tag (R14): 0 to 3, and nonzero only on `e8m0` and `sz32`. -/
def legalRatio (t : BitVec 5) (r : BitVec 3) : Bool := r == 0 || (r.toNat ≤ 3 && (t == 0x18 || t == 0x19))
/-- The matrix formats of Table 1.13 (R38). -/
def legalFormat (f : BitVec 5) : Bool := f.toNat ≤ 9
/-- The two integer formats of Table 1.13. -/
def integerFormat (f : BitVec 5) : Bool := f.toNat ≤ 1

/-- No field of the instruction holds a reserved value or combination (R11, R13 to R15, R17 to R19, R27, R38, R43). -/
def Instr.wellFormed : Instr → Bool
  | .amoSwap _ _ _ _ s z => atomicSize z && legalScope s
  | .amoAdd _ _ _ _ s z => atomicSize z && legalScope s
  | .amoAnd _ _ _ _ s z => atomicSize z && legalScope s
  | .amoOr _ _ _ _ s z => atomicSize z && legalScope s
  | .amoXor _ _ _ _ s z => atomicSize z && legalScope s
  | .amoMin _ _ _ _ s z => atomicSize z && legalScope s
  | .amoMax _ _ _ _ s z => atomicSize z && legalScope s
  | .amoMinu _ _ _ _ s z => atomicSize z && legalScope s
  | .amoMaxu _ _ _ _ s z => atomicSize z && legalScope s
  | .amoCas _ _ _ _ s z => atomicSize z && legalScope s
  | .orderedLoadZext _ _ o s _ => legalScope s && loadOrder o
  | .orderedLoadSext _ _ o s z => legalScope s && loadOrder o && z != 3
  | .orderedStore _ _ o s _ => legalScope s && storeOrder o
  | .fence s => legalScope s
  | .fenceQ m => m != 0
  | .vceq d _ _ _ => maskReg d
  | .vcne d _ _ _ => maskReg d
  | .vclt d _ _ _ => maskReg d
  | .vcle d _ _ _ => maskReg d
  | .vceqS d _ _ _ => maskReg d
  | .vcneS d _ _ _ => maskReg d
  | .vcltS d _ _ _ => maskReg d
  | .vcleS d _ _ _ => maskReg d
  | .vceqI d _ _ _ => maskReg d
  | .vcneI d _ _ _ => maskReg d
  | .vcltI d _ _ _ => maskReg d
  | .vcleI d _ _ _ => maskReg d
  | .mand d a b => maskReg d && maskReg a && maskReg b
  | .mor d a b => maskReg d && maskReg a && maskReg b
  | .mxor d a b => maskReg d && maskReg a && maskReg b
  | .mandn d a b => maskReg d && maskReg a && maskReg b
  | .morn d a b => maskReg d && maskReg a && maskReg b
  | .mnot d a => maskReg d && maskReg a
  | .mpopc _ a _ => maskReg a
  | .mfirst _ a _ => maskReg a
  | .mset d => maskReg d
  | .mclr d => maskReg d
  | .vcompress _ _ k => k != 0
  | .vexpand _ _ k => k != 0
  | .vtag _ t r _ => legalTag t && legalRatio t r
  | .vld _ a _ => streamReg a
  | .vlds _ a _ _ => streamReg a
  | .vldx _ a _ _ => streamReg a
  | .vldFf _ a _ => streamReg a
  | .vst _ a _ => streamReg a
  | .vsts _ a _ _ => streamReg a
  | .vstx _ a _ _ => streamReg a
  | .vmmAdd d a b _ => streamReg d && streamReg a && streamReg b
  | .vmmSub d a b _ => streamReg d && streamReg a && streamReg b
  | .vmmMul d a b _ => streamReg d && streamReg a && streamReg b
  | .vmmMin d a b _ => streamReg d && streamReg a && streamReg b
  | .vmmMax d a b _ => streamReg d && streamReg a && streamReg b
  | .vmmAnd d a b _ => streamReg d && streamReg a && streamReg b
  | .vmmOr d a b _ => streamReg d && streamReg a && streamReg b
  | .vmmXor d a b _ => streamReg d && streamReg a && streamReg b
  | .vmmCpy d a _ => streamReg d && streamReg a
  | .vfba s => legalScope s
  | .mcfg _ f t u v => legalFormat f && (integerFormat f || (t == 0 && u == 0 && v == 0))
  | .mma _ e a b => (!e.getLsbD 0 || registerPair a) && (!e.getLsbD 1 || registerPair b)
  | .mmaX _ e a b _ => (!e.getLsbD 0 || registerPair a) && (!e.getLsbD 1 || registerPair b)
  | .mmaG _ e a b _ => (!e.getLsbD 0 || registerPair a) && (!e.getLsbD 1 || registerPair b)
  | .mmaS24 _ e a b _ => (!e.getLsbD 0 || registerPair a) && (!e.getLsbD 1 || registerPair b)
  | .mmaBm _ e a b _ => (!e.getLsbD 0 || registerPair a) && (!e.getLsbD 1 || registerPair b)
  | .mrsum _ e a b => (!e.getLsbD 0 || registerPair a) && (!e.getLsbD 1 || registerPair b)
  | .mld _ e a => e == 0 || registerPair a
  | .mst _ e a => e == 0 || registerPair a
  | .mstSm _ e a => e == 0 || registerPair a
  | .mdrain _ e a _ t => (e == 0 || registerPair a) && legalTag t
  | .xcopyQ _ a => registerPair a
  | .xev d => registerPair d
  | .sopen d _ => streamReg d
  | .sclose d => streamReg d
  | .sadv d _ => streamReg d
  | .spos _ a => streamReg a
  | .chsend d _ _ => streamReg d
  | .rtake d _ => registerPair d
  | .add .. | .sub .. | .and .. | .or .. | .xor .. | .andn .. | .sll .. | .srl .. | .sra .. | .rol .. | .ror ..
  | .slt .. | .sltu .. | .min .. | .max .. | .minu .. | .maxu .. | .mul .. | .mulh .. | .mulhu .. | .mulhsu ..
  | .div .. | .divu .. | .rem .. | .remu .. | .clz .. | .ctz .. | .ffs .. | .popc .. | .bswap .. | .addi .. | .andi ..
  | .ori .. | .xori .. | .slti .. | .sltiu .. | .slli .. | .srli .. | .srai .. | .rori .. | .lih .. | .ldB .. | .ldH ..
  | .ldW .. | .ldD .. | .ldBu .. | .ldHu .. | .ldWu .. | .stB .. | .stH .. | .stW .. | .stD .. | .beq .. | .bne ..
  | .blt .. | .bge .. | .bltu .. | .bgeu .. | .jal .. | .jalr .. | .csrrw .. | .csrrs .. | .csrrc .. | .csrrwi ..
  | .csrrsi .. | .csrrci .. | .ill .. | .trap .. | .tret | .brk .. | .fenceI | .mwait .. | .nonInstructionWord ..
  | .vadd .. | .vsub .. | .vmul .. | .vmulh .. | .vfma .. | .vfms .. | .vfnma .. | .vdiv .. | .vmin .. | .vmax ..
  | .vsadd .. | .vssub .. | .vand .. | .vor .. | .vxor .. | .vandn .. | .vsll .. | .vsrl .. | .vsra .. | .vabs ..
  | .vneg .. | .vclz .. | .vctz .. | .vffs .. | .vpopc .. | .vexp2 .. | .vlog2 .. | .vrcp .. | .vrsq .. | .vcvt ..
  | .vcvtRne .. | .vcvtRtz .. | .vcvtRdn .. | .vcvtRup .. | .vcvtRmm .. | .vcvtSr .. | .vquant .. | .vdequant ..
  | .vaddS .. | .vsubS .. | .vmulS .. | .vmulhS .. | .vfmaS .. | .vfmsS .. | .vfnmaS .. | .vdivS .. | .vminS ..
  | .vmaxS .. | .vsaddS .. | .vssubS .. | .vandS .. | .vorS .. | .vxorS .. | .vandnS .. | .vsllS .. | .vsrlS ..
  | .vsraS .. | .vaddI .. | .vsubI .. | .vmulI .. | .vmulhI .. | .vminI .. | .vmaxI .. | .vsaddI .. | .vssubI ..
  | .vandI .. | .vorI .. | .vxorI .. | .vandnI .. | .vsllI .. | .vsrlI .. | .vsraI .. | .vslideup .. | .vslidedn ..
  | .vgather .. | .vbcast .. | .vext .. | .vins .. | .vredsum .. | .vredsumo .. | .vredmin .. | .vredmax .. | .vsetl ..
  | .vldt .. | .vstt .. | .mzero .. | .xcopy .. | .xabort .. | .xqry .. | .xwaitW .. | .xwaitE | .fcfgLd .. | .fcfgSw ..
  | .fstart | .fstop | .fsave .. | .frest .. | .fmark .. | .fstat .. | .fportW .. | .fportWEos .. | .fportR ..
  | .fportRStatus .. | .chbind .. | .chrecv .. | .chpoll .. | .chseq .. | .drgtSet .. | .drgtRd .. | .drgtFreeze ..
  | .drgtThaw .. | .launch .. | .trig | .exit .. | .waitCh .. | .waitCtr .. | .yield | .ctrRd .. | .ctrAdd .. | .cancel ..
  | .gsqArm .. | .spalloc .. | .spfree .. | .opreq .. | .opcap .. | .takeTrap .. | .fetchFault .. | .engineTrap ..
  | .vectorEntryPerform .. | .matrixEntryStart .. | .matrixEntryComplete .. | .engineEntryRetire .. | .mwaitTimeout ..
  | .strandAgePromotion .. | .copyAccept .. | .copyLineWrite .. | .copyComplete .. | .copyPageFault .. | .eventPostDeferred ..
  | .teamStart .. | .helperEnd .. | .teamExit .. | .cancelDelivery .. | .supervisorRestart .. | .noticePostRetry ..
  | .fabricAdd .. | .fabricSub .. | .fabricMul .. | .fabricFma .. | .fabricMin .. | .fabricMax .. | .fabricAnd ..
  | .fabricOr .. | .fabricXor .. | .fabricShl .. | .fabricShr .. | .fabricCmp .. | .fabricSel .. | .fabricCvt ..
  | .fabricUnpk .. | .fabricPack .. | .fabricAgen .. | .fabricLdn .. | .fabricStn .. | .fabricAmon .. | .fabricGate ..
  | .fabricSteer .. | .fabricMerge .. | .fabricIsect .. | .fabricCarry .. | .fabricInv .. | .fabricCtr .. | .fabricRtake ..
  | .fabricXreq .. | .fabricVin .. | .fabricVout .. | .fabricConst .. | .fabricDrop .. | .fabricDup .. | .fabricAcc ..
  | .fabricTagchk .. | .fabricPositionSwitch .. | .lateFiring .. | .resolutionWatchWrite .. | .streamElementArrival ..
  | .draughtSample .. | .rateMessageArrival .. | .reservationRegistration .. | .reservationPageRegister .. | .lineRequest ..
  | .probeShared .. | .probeInvalidate .. | .lineEviction .. | .tileCacheRetention .. | .splitProbe .. | .splitAnswer ..
  | .positionReport .. | .reservationRelease .. | .forwardedAcquire .. | .backInvalidateSnoop .. | .externalRead ..
  | .externalWrite .. | .migrationArm .. | .migrationStart .. | .migrationLineCopy .. | .poolWordObserved .. | .partPreempt ..
  | .tileHalt .. | .contextSwapOut .. | .contextMove .. | .stripeEviction .. | .partResume .. | .contextRestore ..
  | .stripeRefill .. | .markerNoticeArrival .. | .snapshot .. | .errorConsumed .. | .rollback .. | .permitAudit ..
  | .flitCrcRetry .. | .ucieLaneRepair .. | .patrolScrub .. | .tileFence .. | .allocatorAck .. | .stripeMove ..
  | .cacheWayDisable .. | .clockChange | .voltageRamp | .opStepComplete | .charMapRefresh .. | .deviceReset | .partSetup ..
  | .partReset .. | .partFree .. | .lend .. | .revoke .. | .revocationNotice .. | .revocationAck .. | .revokeTimeout ..
  | .errlog .. | .charmap .. | .measure | .attest .. | .fwStage .. | .devConfig .. | .hbmChannelFailure .. | .cxlCompletionTimeout ..
  | .linkTraining .. => true

end Sys2Proof
end

