-- ==== Sys2Proof/Machine/Csr.lean ====
section
/-! DEFINITION. Control and status registers (R20, R21, R84, R85; Table 1.3) and the CSR instructions, major 0x0F (R29). -/

namespace Sys2Proof.Machine

/-- Access marks of Table 1.3: RO, L (lead only), S (supervisor only); `engine`: R85 makes the access wait for older entries;
`now`: a write acts at once. -/
structure CsrMark where
  ro : Bool := false
  lead : Bool := false
  sup : Bool := false
  engine : Bool := false
  now : Bool := false

/-- The registers of Table 1.3. -/
def csrMark (c : Nat) : Option CsrMark :=
  if c = 0x001 then some { engine := true }
  else if 0x008 ≤ c ∧ c ≤ 0x00C then some { lead := true, engine := true }
  else if c = 0x010 then some { ro := true, lead := true, engine := true }
  else if c = 0x011 then some { lead := true, engine := true }
  else if c = 0x012 then some { ro := true, lead := true }
  else if 0x018 ≤ c ∧ c ≤ 0x021 then some { lead := true, engine := true }
  else if 0x030 ≤ c ∧ c ≤ 0x03F then some { ro := true, lead := true }
  else if 0x040 ≤ c ∧ c ≤ 0x045 then some { now := true }
  else if 0x080 ≤ c ∧ c ≤ 0x082 then some { ro := true }
  else if 0x0C0 ≤ c ∧ c ≤ 0x0C3 then some { ro := true }
  else if 0x0D0 ≤ c ∧ c ≤ 0x0D5 then some { ro := true, sup := true }
  else if c = 0x100 then some {}
  else if 0x101 ≤ c ∧ c ≤ 0x107 then some { ro := true }
  else none

/-- An entry of `vtagtab` (R12, R21). -/
def View.tag (v : View) (r : Nat) : BitVec 16 := sget 0x000A v.tags r

/-- `vtagtab` k: entries 4k to 4k + 3 in 16 bits each. -/
def tagWord (v : View) (k : Nat) : Nat :=
  (v.tag (4 * k)).toNat + 2 ^ 16 * (v.tag (4 * k + 1)).toNat + 2 ^ 32 * (v.tag (4 * k + 2)).toNat + 2 ^ 48 * (v.tag (4 * k + 3)).toNat

/-- Is entry `e` a legal tag, group and ratio (R13, R14)? -/
def tagLegal (e : Nat) : Bool := legalTag (BitVec.ofNat 5 e) && legalRatio (BitVec.ofNat 5 e) (BitVec.ofNat 3 (fieldOf e 7 3))

/-- Depth of a matrix format: elements of K in 48 bytes (R21, Table 1.13). -/
def formatDepth (fmt : Nat) : Nat :=
  if fmt = 1 ∨ fmt = 6 then 96 else if fmt = 7 ∨ fmt = 8 then 24 else if fmt = 9 then 12 else 48

/-- A legal value of `mcfg` (R38): FMT in range, SA, SB and SAT only with the integer formats. -/
def mcfgLegal (v : Nat) : Bool := decide (v % 32 ≤ 9) && (decide (v % 32 ≤ 1) || fieldOf v 5 3 == 0)

/-- The `dr.*` registers of a loop (Table 1.3), selectors 0 to 6 (Table 13.6). -/
def loopReg (l : Loop) (sel : Nat) : Nat :=
  let w := l.w0.toNat
  match sel with
  | 0 => if l.bound then fieldOf w 13 13 else 256
  | 1 => if l.bound then fieldOf w 26 7 else 8
  | 2 => if l.bound then fieldOf w 33 4 + 16 * fieldOf w 37 4 + 256 * fieldOf w 41 4 else 0
  | 3 => if l.bound then fieldOf l.w1.toNat 0 16 else 1 + 256 * 255
  | 4 => if l.bound then l.wp else 128
  | 5 => if l.bound then l.wc else 128
  | _ => if l.bound then wrap 16 l.integ else 0

/-- The value a CSR reads as; reserved bits read as zero (R20). -/
def csrRead (s : State) (c : Nat) : Nat :=
  let y := s.cur
  let x := s.curTile
  let v := x.ctx.av
  let p := s.partition s.curPart
  if c = 0x001 then y.fstat.toNat
  else if 0x008 ≤ c ∧ c ≤ 0x00C then (sget 0 y.fidx (c - 0x008)).toNat
  else if c = 0x010 then v.vl
  else if c = 0x011 then v.vstart
  else if c = 0x012 then fieldOf (match x.queue with | e :: _ => e.pc | [] => y.pc + 4).toNat 2 46 * 4
  else if 0x018 ≤ c ∧ c ≤ 0x01F then tagWord v (c - 0x018)
  else if c = 0x020 then v.mcfg.toNat
  else if c = 0x021 then v.kval.toNat
  else if 0x030 ≤ c ∧ c ≤ 0x03F then
    let ch := sget {} x.ctx.xchans (c - 0x030)
    (ch.top * 2 ^ 22 + ch.wm) % 2 ^ 24
  else if c = 0x040 then y.tcause.toNat
  else if c = 0x041 then y.tpc.toNat
  else if c = 0x042 then y.tva.toNat
  else if c = 0x043 then y.telem.toNat
  else if c = 0x044 then y.tvec.toNat
  else if c = 0x045 then y.tscr.toNat
  else if c = 0x080 then s.opcur.toNat + (if s.opBusy then 4 else 0)
  else if c = 0x081 then (if x.part.isSome then fieldOf (p.word 0) 24 2 else 3)
  else if c = 0x082 then x.capAt s.opcur.toNat + 2 ^ 16 * (x.alloc % 2 ^ 11)
  else if c = 0x0C0 then s.ct
  else if c = 0x0C1 then s.cs + (if s.isLead then 8 else 0)
  else if c = 0x0C2 then s.curPart
  else if c = 0x0C3 then s.cyc % 2 ^ 64
  else if 0x0D0 ≤ c ∧ c ≤ 0x0D4 then fieldOf (p.word (8 + (c - 0x0D0))) 0 48
  else if c = 0x0D5 then fieldOf (p.word 0) 4 10 + 2 ^ 16 * fieldOf (p.word 0) 14 10
  else if c = 0x100 then y.drsel.toNat
  else if 0x101 ≤ c ∧ c ≤ 0x107 then loopReg (sget {} x.ctx.loops y.drsel.toNat) (c - 0x101)
  else 0

/-- Set the architectural view of the current tile; the issue view is that view itself, since the engine queue is empty when
software writes it (R85). -/
def setViews (s : State) (v : View) : State :=
  s.setCurTile { s.curTile with ctx := { s.curTile.ctx with av := v } }

/-- Four `vtagtab` entries from the fields of `n`, from register `r` on. -/
def putTags (t : SMap (BitVec 16)) (r n : Nat) : SMap (BitVec 16) :=
  (List.range 4).foldl (fun t i => sput t (r + i) (BitVec.ofNat 16 (fieldOf n (16 * i) 10))) t

/-- Write a CSR; none for a reserved value (R20, step 5).  Writes to reserved bits are ignored. -/
def csrWrite (s : State) (c : Nat) (n : Nat) : Option State :=
  let y := s.cur
  let v := s.curTile.ctx.av
  if c = 0x001 then (if n % 8 ≤ 4 then some (s.setCur { y with fstat := BitVec.ofNat 9 n &&& 0x1F7 }) else none)
  else if 0x008 ≤ c ∧ c ≤ 0x00C then
    some (s.setCur { y with fidx := sput y.fidx (c - 0x008) (BitVec.ofNat 64 n &&& 0xBFFFFFFFFFFFFFFC#64) })
  else if c = 0x011 then some (setViews s { v with vstart := n % 2 ^ 15 })
  else if 0x018 ≤ c ∧ c ≤ 0x01F then
    if (List.range 4).all (fun i => tagLegal (fieldOf n (16 * i) 10)) then
      some (setViews s { v with tags := putTags v.tags (4 * (c - 0x018)) n })
    else none
  else if c = 0x020 then (if mcfgLegal (n % 256) then some (setViews s { v with mcfg := BitVec.ofNat 8 n }) else none)
  else if c = 0x021 then
    (if n % 128 ≤ formatDepth (v.mcfg.toNat % 32) then some (setViews s { v with kval := BitVec.ofNat 7 n }) else none)
  else if c = 0x040 then some (s.setCur { y with tcause := BitVec.ofNat 16 n })
  else if c = 0x041 then some (s.setCur { y with tpc := BitVec.ofNat 48 n &&& ~~~3 })
  else if c = 0x042 then some (s.setCur { y with tva := BitVec.ofNat 56 n })
  else if c = 0x043 then some (s.setCur { y with telem := BitVec.ofNat 15 n })
  else if c = 0x044 then some (s.setCur { y with tvec := BitVec.ofNat 48 n &&& ~~~3 })
  else if c = 0x045 then some (s.setCur { y with tscr := BitVec.ofNat 64 n })
  else if c = 0x100 then some (s.setCur { y with drsel := BitVec.ofNat 4 n })
  else some s

/-- A CSR instruction (R20, R84, R85): `new old` is the value a write stores. -/
def csrAccess (d : BitVec 5) (c : BitVec 12) (isWrite : Bool) (new : Word → Word) : M Unit := do
  let s ← get
  match csrMark c.toNat with
  | none => throw (.trap (decodeTrap cILL))
  | some m =>
    if isWrite && m.ro then throw (.trap (decodeTrap cILL))
    if m.lead && !s.isLead then throw (.trap (decodeTrap cILL))
    if m.sup && !s.isSupervisor s.ct s.cs then throw (.trap (decodeTrap cPRIV))
    if m.engine && s.enginesBusy then throw (.wait .drain)
    if isWrite && !m.now then awaitCommit
    let old := BitVec.ofNat 64 (csrRead s c.toNat)
    if isWrite then
      match csrWrite s c.toNat (new old).toNat with
      | none => throw (.trap { cause := cRSVD })
      | some s' => set (s'.retire d old)
    else set (s.retire d old)

/-- `csrrw` (R84): every `csrrw` is a write (R20). -/
def execCsrrw (d a : BitVec 5) (c : BitVec 12) (s : State) : Host.Outcome State Fault Refusal :=
  runScalar (csrAccess d c true fun _ => s.reg a) s

/-- `csrrs` (R84): a write only when its a field is nonzero (R20). -/
def execCsrrs (d a : BitVec 5) (c : BitVec 12) (s : State) : Host.Outcome State Fault Refusal :=
  runScalar (csrAccess d c (a != 0) fun old => old ||| s.reg a) s

/-- `csrrc` (R84). -/
def execCsrrc (d a : BitVec 5) (c : BitVec 12) (s : State) : Host.Outcome State Fault Refusal :=
  runScalar (csrAccess d c (a != 0) fun old => old &&& ~~~(s.reg a)) s

/-- `csrrwi` (R84): the a field is a zimm5 source (R29). -/
def execCsrrwi (d a : BitVec 5) (c : BitVec 12) (s : State) : Host.Outcome State Fault Refusal :=
  runScalar (csrAccess d c true fun _ => a.zeroExtend 64) s

/-- `csrrsi` (R84). -/
def execCsrrsi (d a : BitVec 5) (c : BitVec 12) (s : State) : Host.Outcome State Fault Refusal :=
  runScalar (csrAccess d c (a != 0) fun old => old ||| a.zeroExtend 64) s

/-- `csrrci` (R84). -/
def execCsrrci (d a : BitVec 5) (c : BitVec 12) (s : State) : Host.Outcome State Fault Refusal :=
  runScalar (csrAccess d c (a != 0) fun old => old &&& ~~~(a.zeroExtend 64)) s

end Sys2Proof.Machine
end

