-- ==== Sys2Proof/Machine/Reserve.lean ====
section
/-! DEFINITION. Range reservations (R282 to R288, R295 to R299, R443): registering a page of a stream's range at its homes, and
releasing what a stream register holds.  The conflicts themselves are judged with each access (`Machine/Mem.lean`). -/

namespace Sys2Proof.Machine

/-- Home slice of a physical address (R289). -/
def homeSlice (pa : Nat) : Nat := pa / 2048 % 4

/-- Slices that the physical bytes [lo, hi) touch. -/
def slicesOf (lo hi : Nat) : List Nat := (List.range 4).filter fun k => (List.range 4).any fun i =>
  decide (lo / 2048 * 2048 + 2048 * i < hi) && decide (homeSlice (lo / 2048 * 2048 + 2048 * i) = k)

/-- Is a registration at a slice refused for now: 128 reservations of the partition are held there (R299)? -/
def shareFull (s : State) (part slice rid : Nat) : Bool :=
  let rids := ((s.resv.filter fun e => decide (e.part = part) && decide (e.slice = slice)).map (·.rid)).eraseDups
  !rids.contains rid && decide (128 ≤ rids.length)

/-- Lowest of the 2,048 entries of a slice that is free (R299). -/
def freeIndex (s : State) (slice : Nat) : Nat :=
  let used := (s.resv.filter fun e => decide (e.slice = slice)).map (·.ix)
  ((List.range 2048).find? fun i => !used.contains i).getD 2048

/-- Record the part of one page at one slice (R282, R296): the slice tracks the regions of its lines from then on (R290). -/
def recordEntry (s : State) (e : ResEntry) : State :=
  let e1 := { e with state := if e.blocked s.resv then .pending else .granted, ix := freeIndex s e.slice }
  recallFree s.resv e1 { s with resv := s.resv ++ [e1] }

/-- The runs of consecutive frame bytes to which the `n` bytes of a page at `va` translate: virtual start, physical start, bytes.  There are
two in a page under migration whose PTR stands among them (R314). -/
def pageRuns (s : State) (part : Nat) (l : Leaf) (va n : Nat) : List (Nat × Nat × Nat) :=
  let whole := [(va, leafAddress s part l va, n)]
  match (s.partition part).mig with
  | none => whole
  | some g =>
    let raw := fieldOf l.pte 12 44 * 4096 + va % 2 ^ l.bits
    if fieldOf l.pte 8 1 = 1 && g.phase = 2 && g.new ≤ raw && raw < g.new + g.ptr && g.new + g.ptr < raw + n then
      let k := g.new + g.ptr - raw
      [(va, leafAddress s part l va, k), (va + k, leafAddress s part l (va + k), n - k)]
    else whole

/-- The registered part of the page of `va` in the range of stream `st`: its leaf and its runs. -/
def pagePart (s : State) (part : Nat) (st : Stream) (va : Nat) : Option (Leaf × List (Nat × Nat × Nat)) :=
  match walk s part va with
  | .error _ => none
  | .ok l =>
    let lo := max (va / 2 ^ l.bits * 2 ^ l.bits) st.addr.toNat
    let hi := min (va / 2 ^ l.bits * 2 ^ l.bits + 2 ^ l.bits) (st.addr.toNat + st.ext.toNat)
    some (l, if lo < hi then pageRuns s part l lo (hi - lo) else [])

/-- The entry of one run at a slice; lines that splits have passed already do not come back (R298). -/
def runEntry (s : State) (t k : Nat) (st : Stream) (rid part : Nat) (walked : List Nat) (r : Nat × Nat × Nat) (slice : Nat) : ResEntry :=
  let lo := r.2.1
  let n := r.2.2
  let down := decide (st.es.toInt < 0)
  let e : ResEntry :=
    { rid := rid, owner := t, st := k, part := part, slice := slice, lo := lo, hi := lo + n, vlo := r.1, down := down,
      write := st.intent.getLsbD 1, pol := st.pol, state := .granted,
      cut := if down then (lo + n + 127) / 128 * 128 else lo / 128 * 128, walked := walked }
  match s.cutEdge rid slice with
  | some edge => e.applyCut (splitCut e edge)
  | none => e

/-- The entries that the runs of a page need: one at every slice that they touch, but none where every line has left the reservation. -/
def runEntries (s : State) (t k : Nat) (st : Stream) (rid part : Nat) (walked : List Nat) (runs : List (Nat × Nat × Nat)) : List ResEntry :=
  (runs.flatMap fun r => (slicesOf r.2.1 (r.2.1 + r.2.2)).map (runEntry s t k st rid part walked r)).filter fun e =>
    (s.cutEdge rid e.slice).isNone || e.coversAny

/-- Register the page of `va` of stream register `k` of tile `t` (R443): none when the share of some slice is in use; the state
unchanged when the page does not translate or is registered.  The page is translated as the walk-ahead does: A is set, and the tile
keeps the translation (R307, R308). -/
def registerPage (s : State) (t k : Nat) (st : Stream) (rid va : Nat) : Option State :=
  let part := (s.tile t).part.getD 0
  if s.resv.any (fun e => decide (e.rid = rid) && decide (e.vlo ≤ va) && decide (va < e.vlo + (e.hi - e.lo))) then some s
  else match pagePart s part st va with
    | none => some s
    | some (l, runs) =>
      let es := runEntries s t k st rid part (walkedLines s part va 4 (fieldOf ((s.partition part).word 5) 12 44 * 4096)) runs
      if es.any fun e => shareFull s part e.slice rid then none
      else
        let s1 := if es.isEmpty then s else keepXlat t part va l (some k) (markLeaf s { tile := some t } l .read)
        some (es.foldl recordEntry s1)

/-- The page behind that of `va`; a 4 KiB frame counts where nothing translates. -/
def nextPage (s : State) (part va : Nat) : Nat :=
  match walk s part va with
  | .ok l => va / 2 ^ l.bits * 2 ^ l.bits + 2 ^ l.bits
  | .error _ => va / 4096 * 4096 + 4096

/-- A is set in the leaf of every page of [va, stop) that translates, ahead of the registrations, which a later write of a leaf's line would
end (R307, R308). -/
def markRange (t part stop : Nat) : Nat → Nat → State → State
  | 0, _, s => s
  | n + 1, va, s =>
    if stop ≤ va || 2 ^ 48 ≤ va then s
    else markRange t part stop n (nextPage s part va) (match walk s part va with
      | .ok l => markLeaf s { tile := some t } l .read
      | .error _ => s)

/-- Register every page of [va, stop) that translates, stepping over 4 KiB frames that do not; no address past 48 bits translates. -/
def registerPages (t k : Nat) (st : Stream) (rid stop : Nat) : Nat → Nat → State → Option State
  | 0, _, s => some s
  | n + 1, va, s =>
    if stop ≤ va || 2 ^ 48 ≤ va then some s
    else match registerPage s t k st rid va with
      | none => none
      | some s' => registerPages t k st rid stop n (nextPage s ((s.tile t).part.getD 0) va) s'

/-- Register the range of stream `st`, which is to stand in register `k` of tile `t` (R282, R443): none when the share of some slice is in
use. -/
def registerRange (t k : Nat) (st : Stream) (rid : Nat) (s : State) : Option State :=
  let stop := st.addr.toNat + st.ext.toNat
  let n := st.ext.toNat / 4096 + 2
  registerPages t k st rid stop n st.addr.toNat (markRange t ((s.tile t).part.getD 0) stop n st.addr.toNat s)

/-- Free the entries of reservation `rid` (R272, Table 15.3). -/
def releaseRid (s : State) (rid : Nat) : State :=
  let s1 := releaseEntries (fun e => decide (e.rid = rid)) s
  { s1 with cuts := sdel s1.cuts rid }

/-! ### What a region entry says of reservations (Table 15.1) -/

/-- LSn of a line: 3 while a reservation entry covers it. -/
def lineStateCode (s : State) (line : Nat) : BitVec 2 :=
  if s.resv.any (·.covers line) then 3 else sget 0 (sget {} s.dir (line / 4)).ls (line % 4)

/-- RIX of a region: the entry of its first line that is under a reservation, 0xFFF when there is none. -/
def regionRix (s : State) (region : Nat) : BitVec 12 :=
  match (List.range 4).findSome? fun n => s.resv.find? (·.covers (4 * region + n)) with
  | some e => BitVec.ofNat 12 e.ix
  | none => 0xFFF

/-- Before an element access at `va` through a reserved stream: register its page if that is still to do (R443). -/
def ensureRegistered (t k va : Nat) : M Unit := do
  let s ← get
  let st := sget {} (s.tile t).ctx.streams k
  match st.rid with
  | none => pure ()
  | some r => match registerPage s t k st r va with
    | some s' => set s'
    | none => throw (.wait .reservationShare)

end Sys2Proof.Machine
end

