-- ==== Sys2Proof/Machine/Stream.lean ====
section
/-! DEFINITION. Stream, channel and Draught instructions (R268 to R281) and what happens to their elements and rate messages
(R335 to R351). -/

namespace Sys2Proof.Machine

/-! ### Carry code (R409) -/

def crcBit (c : Nat) (b : Nat) : Nat :=
  let top := c / 2 ^ 15 % 2
  let c' := c * 2 % 2 ^ 16
  if top = b then c' else c' ^^^ 0x1021

def crcByte (c : Nat) (b : Nat) : Nat := (List.range 8).foldl (fun c i => crcBit c (b / 2 ^ (7 - i) % 2)) c

def crcBytes (c : Nat) : List (BitVec 8) → Nat
  | [] => c
  | b :: r => crcBytes (crcByte c b.toNat) r

/-- CC of a 64-byte payload under an address tag (R409). -/
def carryCode (tag : Nat) (payload : List (BitVec 8)) : BitVec 16 := BitVec.ofNat 16 (crcBytes 0xFFFF (natLe 8 tag ++ payload))

/-- Address tag of a stream element (Table 22.6). -/
def elemTag (dtile ch seq stile : Nat) : Nat := dtile % 1024 + 2 ^ 10 * (ch % 32) + 2 ^ 16 * (seq % 2 ^ 16) + 2 ^ 32 * (stile % 1024)

/-- Address tags of a memory granule, `pa[55:6]`, and of a scratchpad granule at an offset of the tile that holds it. -/
def memTag (granule : Nat) : Nat := granule % 2 ^ 50 + 2 ^ 63
def spdTag (tile off : Nat) : Nat := off % 2 ^ 25 / 64 * 64 + 2 ^ 25 * (tile % 1024) + 2 ^ 62 + 2 ^ 63

/-- CC of a granule as the engine that produces it makes it, and as the one that consumes it checks it (R410). -/
def memCode (s : State) (granule : Nat) : BitVec 16 := carryCode (memTag granule) (cellsGet s.mem (64 * granule) 64)
def spdCode (s : State) (tile off : Nat) : BitVec 16 := carryCode (spdTag tile off) (cellsGet (s.tile tile).spd (off / 64 * 64) 64)

def Element.ccGood (e : Element) : Bool :=
  carryCode (elemTag e.dtile.toNat e.ch.toNat e.seq.toNat e.stile.toNat) (natLe 64 e.pay.toNat) == e.cc

/-! ### Channel-table entries (Table 13.3) -/

def Channel.tag (c : Channel) : Nat := fld c.entry 0 5
def Channel.hslot (c : Channel) : Nat := fld c.entry 11 3
def Channel.handled (c : Channel) : Bool := c.entry.getLsbD 14
def Channel.lossless (c : Channel) : Bool := c.entry.getLsbD 15
def Channel.depth (c : Channel) : Nat := fld c.entry 16 7
def Channel.masked? (c : Channel) : Bool := c.entry.getLsbD 23
def Channel.enabled (c : Channel) : Bool := c.entry.getLsbD 24

/-- Is an entry free of reserved values, for a team of `ns` + 1 strands (R273, R274)? -/
def entryLegal (n : Nat) (ns : Option Nat) : Bool :=
  let tag := n % 32
  (tagIsIntCode tag || tagIsFloatCode tag) && fieldOf n 25 39 == 0 && 1 ≤ fieldOf n 16 7 && fieldOf n 16 7 ≤ 64 &&
  (fieldOf n 14 1 == 0 || (match ns with | some k => decide (fieldOf n 11 3 ≤ k) | none => false))
where
  tagIsIntCode (t : Nat) : Bool := (1 ≤ t && t ≤ 5) || (9 ≤ t && t ≤ 0xD)
  tagIsFloatCode (t : Nat) : Bool := 0x10 ≤ t && t ≤ 0x15

def Tile.chan (x : Tile) (c : Nat) : Channel := sget {} x.ctx.chans c
def Tile.setChan (x : Tile) (c : Nat) (v : Channel) : Tile := { x with ctx := { x.ctx with chans := sput x.ctx.chans c v } }
def Tile.stream (x : Tile) (k : Nat) : Stream := sget {} x.ctx.streams k
def Tile.setStream (x : Tile) (k : Nat) (v : Stream) : Tile := { x with ctx := { x.ctx with streams := sput x.ctx.streams k v } }
def Tile.loop (x : Tile) (k : Nat) : Loop := sget {} x.ctx.loops k
def Tile.setLoop (x : Tile) (k : Nat) (v : Loop) : Tile := { x with ctx := { x.ctx with loops := sput x.ctx.loops k v } }
/-- Highest strand slot of the tile's team. -/
def Tile.teamTop (x : Tile) : Option Nat := x.team.map (·.ns)

/-- Highest slot of the current strand's team; the supervisor strand is in none (R353). -/
def State.strandTop (s : State) : Option Nat := if s.isSupervisor s.ct s.cs then none else s.curTile.teamTop

/-- Write an entry (R274): a change of TAG, CLS, DEPTH or EN discards the queue. -/
def Channel.bind (c : Channel) (e : Word) : Channel :=
  let key := fun w : Word => (fld w 0 5, w.getLsbD 15, fld w 16 7, w.getLsbD 24)
  if key c.entry = key e then { c with entry := e } else { entry := e }

/-! ### Arrival (R336 to R339) -/

/-- The stream-loss event on channel `c` (R339): its loops freeze, elements from queue place `n` on are withheld, and a rollback is asked for. -/
def lossEvent (x : Tile) (c n : Nat) : Tile :=
  let ch := x.chan c
  match ch.withheld with
  | some _ => x
  | none =>
    let x1 := x.setChan c { ch with withheld := some n }
    { x1 with rollback := x1.rollback.or (some (8, 0)), ctx := { x1.ctx with loops := x1.ctx.loops.map fun (k, l) =>
        (k, if l.bound ∧ fld l.w0 4 5 = c then { l with lossFrozen := true } else l) } }

def satCount (n : Nat) : Nat := min n 0xFFFF

/-- An element reaches its channel (R336). -/
def arrive (x : Tile) (e : Element) : Tile :=
  let c := e.ch.toNat
  let ch := x.chan c
  let note := fun (x : Tile) => if (x.chan c).masked? then x.setChan c { x.chan c with masked := satCount ((x.chan c).masked + 1) } else x
  if !e.ccGood then
    let x1 := x.setChan c { ch with loss := satCount (ch.loss + 1) }
    if ch.lossless then lossEvent x1 c ch.queue.length else x1
  else if !ch.enabled then x.setChan c { ch with loss := satCount (ch.loss + 1) }
  else if ch.depth ≤ ch.queue.length then
    let x1 := x.setChan c { ch with
      queue := ch.queue.dropLast ++ [e], loss := satCount (ch.loss + 1), withheld := ch.withheld.map (min · (ch.queue.length - 1)) }
    note (if ch.lossless then lossEvent x1 c (ch.queue.length - 1) else x1)
  else note (x.setChan c { ch with queue := ch.queue ++ [e] })

/-- Apply a function to a pre-empted tile with the context that it holds: in shadow storage, else in the backing area, else in place. -/
def onHeldCtx (f : Tile → Tile) (x : Tile) : Tile :=
  match x.saved, x.backing with
  | some c, _ => let y := f { x with ctx := c }; { y with saved := some y.ctx, ctx := x.ctx }
  | none, some c => let y := f { x with ctx := c }; { y with backing := some y.ctx, ctx := x.ctx }
  | none, none => f x

/-- The element that leaves the network for tile `t` (R276), with its undo-log entry when it comes from outside the region (R402).
An element that reaches a saved context is appended to its channels (R392). -/
def deliver (s : State) (t : Nat) (e : Element) : State :=
  let x := s.tile t
  let e := { e with time := s.cyc }
  let outside := !sameRegion s t e.stile.toNat
  let s0 := match x.wave with
    | some w => if outside ∧ ((sget ({} : Channel) x.held.chans e.ch.toNat).enabled ∨ x.team.isSome) then pushUndo t (.arrival e) w false s else s
    | none => s
  let s1 := s0.setTile t (onHeldCtx (arrive · e) (s0.tile t))
  if e.ccGood then s1 else s1.log x.part 2 5 t 0 0

/-- Oldest readable element of a channel and the channel without it. -/
def Channel.take (c : Channel) : Option (Element × Channel) :=
  match c.queue with
  | [] => none
  | e :: r =>
    if c.withheld = some 0 then none
    else some (e, { c with queue := r, withheld := c.withheld.map (· - 1) })

/-- Does the channel hold an element for `wait.ch` of slot `k` (R324, R360)? -/
def Channel.ready (c : Channel) (k : Nat) : Bool :=
  !c.queue.isEmpty && c.enabled && !(c.masked? && c.handled && decide (c.hslot = k))

/-! ### Sending (R275) -/

/-- Is wave or sequence number `a` at or after `b`, by their signed difference (R336, R400)? -/
def waveGe (a b : BitVec 16) : Bool := decide (0 ≤ (a - b).toInt)

/-- Inject one element through send stream `k` of tile `t` (R275); suppressed while a rollback replays it to the outside, which ends when the
register has sent all that it had sent before (R404). -/
def inject (s : State) (t k ch : Nat) (payload : List (BitVec 8)) : State :=
  let x := s.tile t
  let st := x.stream k
  let d := st.dtile.toNat
  let e : Element :=
    { pay := BitVec.ofNat 512 (leNat payload), seq := st.seq, ch := BitVec.ofNat 5 ch, dtile := st.dtile, stile := BitVec.ofNat 10 t
      cc := carryCode (elemTag d ch st.seq.toNat t) payload }
  let suppressed := match st.hw with
    | some h => !waveGe st.seq h && !sameRegion s t d
    | none => false
  let hw := match st.hw with | some h => if waveGe (st.seq + 1) h then none else some h | none => none
  let s1 := s.setTile t (x.setStream k { st with seq := st.seq + 1, hw := hw })
  if suppressed then s1 else { s1 with flight := s1.flight ++ [{ src := t, dst := d, elem := e }] }

/-! ### Engine entries that name a stream register (R269) -/

def namesStream (op : EngOp) (k : Nat) : Bool :=
  match op with
  | .load .shaped _ _ _ => false
  | .store .shaped _ _ _ => false
  | .load _ _ a _ => decide (a.toNat = k)
  | .store _ _ a _ => decide (a.toNat = k)
  | .vmm op d a b _ => decide (d.toNat = k) || decide (a.toNat = k) || (decide (b.toNat = k) && op != .cpy)
  | _ => false

/-- Wait until no engine entry of the tile names the register (R269). -/
def awaitStream (k : Nat) : M Unit := do
  if (← get).curTile.queue.any (fun e => namesStream e.op k) then throw (.wait .streamEntry)

/-! ### Stream registers (R270 to R272) -/

/-- The checks of R271 on an open record's words, up to the kinds. -/
def openRecordLegal (r : List Nat) : Bool :=
  let w1 := rword r 1
  let w2 := rword r 2
  let kind := fieldOf w2 0 3
  let int := fieldOf w2 3 2
  decide (kind ≤ 4) && int != 0 && fieldOf w2 26 38 == 0 && rword r 3 == 0 &&
  (kind == 0 || fieldOf w2 5 2 == 0) &&
  (kind == 3 || kind == 4 || fieldOf w2 7 5 == 0) &&
  (kind == 2 || fieldOf w2 12 4 == 0) &&
  (kind == 4 || fieldOf w2 16 10 == 0) &&
  (kind ≤ 1 || (rword r 0 == 0 && fieldOf w1 0 32 == 0)) &&
  (kind != 3 || int == 1) && (kind != 4 || int == 2)

/-- The address class that KIND requires (R270). -/
def openRecordClass (r : List Nat) : Bool :=
  match fieldOf (rword r 2) 0 3, classify (BitVec.ofNat 64 (rword r 0)) with
  | 0, some (.virt _) => true
  | 0, _ => false
  | 1, some (.spd ..) => true
  | 1, _ => false
  | _, _ => true

/-- The stream register that a record opens. -/
def openStream (r : List Nat) : Stream :=
  let w1 := rword r 1
  let w2 := rword r 2
  { isOpen := true, kind := BitVec.ofNat 3 w2, intent := BitVec.ofNat 2 (fieldOf w2 3 2), pol := BitVec.ofNat 2 (fieldOf w2 5 2)
    addr := BitVec.ofNat 64 (rword r 0), ext := BitVec.ofNat 32 w1, es := BitVec.ofNat 32 (w1 / 2 ^ 32)
    ch := BitVec.ofNat 5 (fieldOf w2 7 5), port := BitVec.ofNat 4 (fieldOf w2 12 4), dtile := BitVec.ofNat 10 (fieldOf w2 16 10) }

/-- `sopen` (R270, R271, R443): the walk-ahead begins (R310). -/
def sopen (d a : BitVec 5) : M Unit := do
  awaitCommit
  awaitStream d.toNat
  let ea := (← get).reg a
  let r ← readRecord ea 32 32 .either
  let s ← get
  let k := d.toNat
  if (s.curTile.stream k).isOpen then throw (.trap { cause := cPROT, sub := 3 })
  if !openRecordLegal r then throw (.trap { cause := cRSVD })
  if !openRecordClass r then throw (.trap { cause := cADDR, tva := BitVec.ofNat 56 (rword r 0) })
  let st := openStream r
  if st.kind = 4 ∧ (s.tile st.dtile.toNat).part ≠ s.curTile.part then throw (.trap { cause := cPROT, sub := 5 })
  if st.kind = 3 ∧ !(s.curTile.chan st.ch.toNat).enabled then throw (.trap { cause := cPROT, sub := 5 })
  if st.pol ≠ 0 ∧ st.ext ≠ 0 then
    let rid := s.nextRid
    let s1 := { s.setCurTile (s.curTile.setStream k { st with rid := some rid }) with nextRid := rid + 1 }
    match registerRange s.ct k st rid s1 with
    | none => throw (.wait .reservationShare)
    | some s2 => set (walkAhead s.ct k s2).advance
  else set (walkAhead s.ct k (s.setCurTile (s.curTile.setStream k st))).advance

def execSopen (d a : BitVec 5) (s : State) : Host.Outcome State Fault Refusal := runScalar (sopen d a) s

/-- `sclose` (R272): every element write has been performed; the reservation is released. -/
def sclose (d : BitVec 5) : M Unit := do
  awaitCommit
  awaitStream d.toNat
  let s ← get
  let st := s.curTile.stream d.toNat
  if st.isOpen then
    let s1 := match st.rid with | some r => releaseRid s r | none => s
    set (s1.setCurTile (s1.curTile.setStream d.toNat { st with isOpen := false, rid := none })).advance
  else set s.advance

def execSclose (d : BitVec 5) (s : State) : Host.Outcome State Fault Refusal := runScalar (sclose d) s

/-- `sadv` (R272); the walk-ahead follows the position (R310). -/
def sadv (d a : BitVec 5) : M Unit := do
  awaitCommit
  awaitStream d.toNat
  let s ← get
  let st := s.curTile.stream d.toNat
  if !st.isOpen then throw (.trap { cause := cPROT, sub := 1 })
  set (walkAhead s.ct d.toNat (s.setCurTile (s.curTile.setStream d.toNat { st with pos := st.pos + s.reg a * st.es.signExtend 64 }))).advance

def execSadv (d a : BitVec 5) (s : State) : Host.Outcome State Fault Refusal := runScalar (sadv d a) s

/-- `spos` (R272): 0 for a closed register. -/
def spos (d a : BitVec 5) : M Unit := do
  awaitStream a.toNat
  let s ← get
  let st := s.curTile.stream a.toNat
  set (s.retire d (if st.isOpen then st.pos else 0))

def execSpos (d a : BitVec 5) (s : State) : Host.Outcome State Fault Refusal := runScalar (spos d a) s

/-! ### Channels (R274 to R278) -/

/-- `chbind` (R274). -/
def chbind (d a : BitVec 5) : M Unit := do
  awaitCommit
  let s ← get
  let v := s.reg a
  if !entryLegal v.toNat s.strandTop then throw (.trap { cause := cRSVD })
  set (s.setCurTile (s.curTile.setChan d.toNat ((s.curTile.chan d.toNat).bind v))).advance

def execChbind (d a : BitVec 5) (s : State) : Host.Outcome State Fault Refusal := runScalar (chbind d a) s

/-- `chsend` (R275). -/
def chsend (d a c : BitVec 5) : M Unit := do
  awaitCommit
  let s ← get
  let st := s.curTile.stream d.toNat
  if !st.isOpen then throw (.trap { cause := cPROT, sub := 1 })
  if st.kind ≠ 4 then throw (.trap { cause := cPROT, sub := 4 })
  let ws ← readRecord (s.reg a) 64 64 .either
  modify fun s => (inject s s.ct d.toNat c.toNat (ws.flatMap (natLe 8))).advance

def execChsend (d a c : BitVec 5) (s : State) : Host.Outcome State Fault Refusal := runScalar (chsend d a c) s

/-- Write 64-bit words at places that have been checked. -/
def putPlaces (ps : List Place) (ws : List Nat) : M Unit :=
  for (p, w) in ps.zip ws do
    match p with
    | .spd h off => spdWrite (← get).ct h off (natLe 8 w)
    | .mem pa va ns => physWrite (← get).agent (if ns then .uncached else .cached) va pa (natLe 8 w)

/-- The faults of a 64-byte store at `ea`, and whether it would have to wait: nothing is written. -/
def storeFaults (ea : Word) : M Bool := do
  let s ← get
  match (do putPlaces (← recordPlaces ea 64 64 .write .either) (List.replicate 8 0) : M Unit) s with
  | .error (.trap tr) _ => throw (.trap tr)
  | .error (.wait _) _ => return true
  | .ok _ _ => return false

/-- `chrecv` (R277): the faults of the store come first, and where nothing is delivered nothing waits. -/
def chrecv (d a c : BitVec 5) : M Unit := do
  awaitCommit
  discard (storeFaults ((← get).reg a))
  let s ← get
  let ch := s.curTile.chan c.toNat
  if !ch.enabled then set (s.retire d (BitVec.ofNat 64 (3 + 2 ^ 32 * ch.queue.length)))
  else match ch.take with
    | none => set (s.retire d (BitVec.ofNat 64 (1 + 2 ^ 32 * ch.queue.length)))
    | some (e, ch') =>
      let st := if e.seq = ch.expected then 0 else 2
      putPlaces (← recordPlaces (s.reg a) 64 64 .write .either) ((List.range 8).map fun i => fld e.pay (64 * i) 64)
      modify fun s => (s.setCurTile (s.curTile.setChan c.toNat { ch' with expected := e.seq + 1 })).retire d
        (BitVec.ofNat 64 (st + 2 ^ 16 * e.seq.toNat + 2 ^ 32 * ch'.queue.length))

def execChrecv (d a c : BitVec 5) (s : State) : Host.Outcome State Fault Refusal := runScalar (chrecv d a c) s

/-- `chpoll` (R278). -/
def execChpoll (d c : BitVec 5) (s : State) : Host.Outcome State Fault Refusal :=
  let ch := s.curTile.chan c.toNat
  .next (s.retire d (BitVec.ofNat 64 (ch.queue.length + (if ch.queue.length = ch.depth then 128 else 0)
    + 256 * fld ch.entry 15 1 + 512 * fld ch.entry 24 1 + 1024 * fld ch.entry 23 1)))

/-- `chseq` (R278). -/
def execChseq (d c : BitVec 5) (s : State) : Host.Outcome State Fault Refusal :=
  let ch := s.curTile.chan c.toNat
  .next (s.retire d (BitVec.ofNat 64 (ch.expected.toNat + 2 ^ 16 * (ch.loss % 2 ^ 16) + 2 ^ 32 * (ch.masked % 2 ^ 16))))

/-! ### Draught loops (R279 to R281, R341 to R351) -/

/-- The fields of a loop record (Table 13.5). -/
structure LoopRec where
  num : Nat
  ch : Nat
  period : Nat
  sp : Nat
  kp : Nat
  ki : Nat
  sh : Nat
  wmin : Nat
  wmax : Nat
  ptile : Nat
  ptgt : Nat
  ctgt : Nat

def loopRec (w0 w1 : Nat) : LoopRec :=
  { num := fieldOf w0 0 4, ch := fieldOf w0 4 5, period := fieldOf w0 13 13, sp := fieldOf w0 26 7, kp := fieldOf w0 33 4
    ki := fieldOf w0 37 4, sh := fieldOf w0 41 4, wmin := fieldOf w1 0 8, wmax := fieldOf w1 8 8, ptile := fieldOf w1 16 10
    ptgt := fieldOf w1 26 7, ctgt := fieldOf w1 33 7 }

def Loop.record (l : Loop) : LoopRec := loopRec l.w0.toNat l.w1.toNat
def LoopRec.inert (r : LoopRec) : Bool := r.kp == 0 && r.ki == 0

/-- A bound loop that actuates its weights. -/
def Loop.live (l : Loop) : Bool := l.bound && !l.record.inert

/-- A weight target as Table 13.5 codes it: a fabric position where bit 6 is set, else the strand slot in bits [2:0]. -/
def weightTarget (n : Nat) : Nat := if n / 64 % 2 = 1 then n else n % 8

/-- The checks of step 2 of R280 but LOOP, on tile `t`, for a strand of a team with slots up to `top`. -/
def loopRecLegal (s : State) (t : Nat) (top : Option Nat) (w0 w1 : Nat) : Bool :=
  let r := loopRec w0 w1
  let x := s.tile t
  let ch := x.chan r.ch
  fieldOf w0 9 4 == 0 && fieldOf w0 45 19 == 0 && fieldOf w1 40 24 == 0 &&
  decide (16 ≤ r.period) && decide (r.period ≤ 4096) && r.wmin != 0 && decide (r.wmin ≤ r.wmax) &&
  ch.enabled && decide (r.sp ≤ ch.depth) &&
  (decide (64 ≤ r.ctgt) || (match top with | some k => decide (weightTarget r.ctgt ≤ k) | none => false)) &&
  decide ((s.tile r.ptile).part = x.part) && x.part.isSome

/-- Mesh column, row and compute die of a tile (R2). -/
def meshColumn (t : Nat) : Nat := t / 4 % 8 * 2 + t % 2
def meshRow (t : Nat) : Nat := t % 256 / 32 * 2 + t / 2 % 2
def dieOf (t : Nat) : Nat := t / 256

def absDiff (a b : Nat) : Nat := (a - b) + (b - a)

/-- Loop latency (R349). -/
def loopLatency (p c : Nat) : Nat :=
  if dieOf p = dieOf c then 16 + 4 * (absDiff (meshColumn p) (meshColumn c) + absDiff (meshRow p) (meshRow c)) else 288

/-- The partition's bound loops that enter the stability checks, saved contexts' included: consumer tile, number, record (R351). -/
def partLoops (s : State) (p : Option Nat) : List (Nat × Nat × LoopRec) :=
  s.tiles.flatMap fun (t, x) => if x.part = p then (x.held.loops.filter fun (_, l) => l.live).map fun (k, l) => (t, k, l.record) else []

/-- Weight targets of a loop at consumer tile `t`: (tile, target). -/
def prodTarget (r : LoopRec) : Nat × Nat := (r.ptile, weightTarget r.ptgt)
def consTarget (t : Nat) (r : LoopRec) : Nat × Nat := (t, weightTarget r.ctgt)

/-- Roles in which loops actuate a target. -/
def roles (ls : List (Nat × Nat × LoopRec)) (tg : Nat × Nat) : Nat :=
  (ls.map fun (t, _, r) => (if prodTarget r = tg then 1 else 0) + (if consTarget t r = tg then 1 else 0)).sum

/-- Gain product and shift sum along every directed path from `v` back to `goal`: does each stay below 1/2 (Table 18.5)? -/
def cyclesOk (ls : List (Nat × Nat × LoopRec)) (goal : Nat × Nat) : Nat → Nat × Nat → Nat → Nat → Bool
  | 0, _, _, _ => true
  | n + 1, v, gain, sh =>
    if v = goal then decide (2 * gain < 2 ^ sh)
    else (ls.filter fun (_, _, r) => prodTarget r = v).all fun (t, _, r) =>
      cyclesOk ls goal n (consTarget t r) (gain * (r.kp + r.ki)) (sh + r.sh)

/-- The stability rules for adding loop `r` at consumer tile `t` to the set `ls` (R350, Table 18.5). -/
def stable (ls : List (Nat × Nat × LoopRec)) (t : Nat) (r : LoopRec) : Bool :=
  let l := loopLatency r.ptile t
  let all := ls ++ [(t, r.num, r)]
  r.inert ||
  (decide (2 * l ≤ r.period) && decide (r.kp * (r.period + l) < r.period * 2 ^ r.sh) && decide (8 * r.ki ≤ r.kp) &&
   decide (roles all (prodTarget r) ≤ 2) && decide (roles all (consTarget t r) ≤ 2) &&
   cyclesOk all (prodTarget r) (all.length + 1) (consTarget t r) (r.kp + r.ki) r.sh)

/-- Clamp of 128 into the limits of a loop (R280). -/
def startWeight (r : LoopRec) : Nat := max r.wmin (min 128 r.wmax)

/-- Remove what a loop actuates at its producer tile. -/
def dropProducer (s : State) (ctile k : Nat) : State :=
  { s with tiles := s.tiles.map fun (t, x) =>
      if x.weights.any (fun w => decide (w.ctile = ctile) && decide (w.loop = k)) then
        (t, { x with weights := x.weights.filter fun w => !(decide (w.ctile = ctile) && decide (w.loop = k)) }) else (t, x) }

/-- End the binding of a loop (R280, R333). -/
def unbindLoop (s : State) (t k : Nat) : State :=
  let l := (s.tile t).loop k
  let s1 := dropProducer s t k
  s1.setTile t ((s1.tile t).setLoop k { gen := l.gen })

/-- Bind a loop from its record words (R280). -/
def bindLoop (s : State) (t : Nat) (w0 w1 : Nat) : State :=
  let r := loopRec w0 w1
  let w := startWeight r
  let s1 := unbindLoop s t r.num
  let gen := ((s1.tile t).loop r.num).gen + 1
  let s2 := s1.setTile t ((s1.tile t).setLoop r.num
    { bound := true, w0 := BitVec.ofNat 64 w0, w1 := BitVec.ofNat 64 w1, gen := gen, integ := 0, wp := w, wc := w, next := r.period })
  if r.inert then s2
  else
    let px := s2.tile r.ptile
    let s3 := s2.setTile r.ptile { px with weights := px.weights ++
      [{ ctile := t, loop := r.num, gen := gen, target := BitVec.ofNat 7 (weightTarget r.ptgt), weight := 128 }] }
    { s3 with rates := s3.rates ++ [{ ptile := r.ptile, ctile := t, loop := r.num, gen := gen, weight := w }] }

/-- The other bound loops of the partition, as seen when loop `k` of tile `t` is bound anew (R350). -/
def otherLoops (s : State) (t : Nat) (ks : List Nat) : List (Nat × Nat × LoopRec) :=
  (partLoops s (s.tile t).part).filter fun (t', k', _) => !(decide (t' = t) && ks.contains k')

/-- `drgt.set` (R280). -/
def drgtSet (l : BitVec 4) (a : BitVec 5) : M Unit := do
  awaitCommit
  let r ← readRecord ((← get).reg a) 16 16 .either
  let s ← get
  let w0 := rword r 0
  let w1 := rword r 1
  if fieldOf w0 0 4 ≠ l.toNat ∨ !loopRecLegal s s.ct s.strandTop w0 w1 then throw (.trap { cause := cRSVD })
  if !stable (otherLoops s s.ct [l.toNat]) s.ct (loopRec w0 w1) then throw (.trap { cause := cCOUPLING })
  set (bindLoop s s.ct w0 w1).advance

def execDrgtSet (l : BitVec 4) (a : BitVec 5) (s : State) : Host.Outcome State Fault Refusal := runScalar (drgtSet l a) s

/-- `drgt.rd` (R281): selector 7 reads 0 for an unbound loop. -/
def execDrgtRd (d : BitVec 5) (l : BitVec 4) (e : BitVec 5) (s : State) : Host.Outcome State Fault Refusal :=
  let x := s.curTile.loop l.toNat
  let r := x.record
  let v := if e.toNat < 7 then loopReg x e.toNat
    else if !x.bound then 0
    else r.ch + 2 ^ 5 * r.ptile + 2 ^ 15 * r.ptgt + 2 ^ 22 * r.ctgt + 2 ^ 29 + (if x.frozen || x.lossFrozen then 2 ^ 30 else 0) + (if r.inert then 2 ^ 31 else 0)
  .next (if 7 < e.toNat then raise s (decodeTrap cRSVD) else s.retire d (BitVec.ofNat 64 v))

/-- `drgt.frz` (R281): `thaw` takes the next sample T cycles later. -/
def drgtFrz (l : BitVec 4) (m : BitVec 5) : M Unit := do
  awaitCommit
  if 1 < m.toNat then throw (.trap { cause := cRSVD })
  let s ← get
  let x := s.curTile.loop l.toNat
  if !x.bound then set s.advance
  else if m = 1 then set (s.setCurTile (s.curTile.setLoop l.toNat { x with frozen := true })).advance
  else set (s.setCurTile (s.curTile.setLoop l.toNat { x with frozen := false, next := x.record.period })).advance

def execDrgtFreeze (l : BitVec 4) (s : State) : Host.Outcome State Fault Refusal := runScalar (drgtFrz l 1) s
def execDrgtThaw (l : BitVec 4) (s : State) : Host.Outcome State Fault Refusal := runScalar (drgtFrz l 0) s

/-- Saturation to 16 bits (R341). -/
def sat16 (x : Int) : Int := clampI x (-32768) 32767

/-- One sample of a loop (R341): the loop afterwards and whether wp changed. -/
def sampleLoop (l : Loop) (n : Nat) : Loop × Bool :=
  let r := l.record
  let e : Int := (n : Int) - r.sp
  let i := if n = 0 then l.integ else sat16 (l.integ + e)
  let u : Int := ((r.kp : Int) * e + (r.ki : Int) * i) / 2 ^ r.sh
  let wp := (clampI ((l.wp : Int) - u) r.wmin r.wmax).toNat
  let wc := if n = 0 then l.wc else (clampI ((l.wc : Int) + u) r.wmin r.wmax).toNat
  ({ l with integ := i, wp := wp, wc := wc, next := r.period }, wp != l.wp)

/-- May the loop sample (R341, R346)? -/
def Loop.samples (l : Loop) : Bool := l.live && !l.frozen && !l.lossFrozen

/-- The sample of loop `k` of tile `t`. -/
def draughtSample (s : State) (t k : Nat) : State :=
  let x := s.tile t
  let l := x.loop k
  if !l.samples then s
  else
    let r := l.record
    let ch := x.chan r.ch
    let (l', changed) := sampleLoop l (if ch.enabled then ch.queue.length else 0)
    let s1 := s.setTile t (x.setLoop k l')
    if changed then { s1 with rates := s1.rates ++ [{ ptile := r.ptile, ctile := t, loop := k, gen := l.gen, weight := l'.wp }] } else s1

/-- A rate message reaches its producer tile (R342): a stale generation is discarded. -/
def applyRate (s : State) (m : RateMsg) : State :=
  let x := s.tile m.ptile
  s.setTile m.ptile { x with weights := x.weights.map fun w =>
    if w.ctile = m.ctile ∧ w.loop = m.loop ∧ w.gen = m.gen then { w with weight := m.weight } else w }

/-- Effective weight of a target of tile `t` (R343). -/
def effectiveWeight (x : Tile) (target : Nat) : Nat :=
  let c := (x.ctx.loops.filter fun (_, l) => l.live && decide (weightTarget l.record.ctgt = target)).map fun (_, l) => l.wc
  let p := (x.weights.filter fun w => decide (w.target.toNat = target)).map (·.weight)
  match c ++ p with
  | [] => 128
  | w :: r => r.foldl min w

end Sys2Proof.Machine
end

