-- ==== Sys2Proof/Machine/Num.lean ====
section
/-! DEFINITION. The number formats (R159 to R166): element encodings as exact values, one rounding of an exact value into a
format, and the element operations written with them.  Every operation computes exactly and rounds once. -/

namespace Sys2Proof.Machine

/-! ### Formats -/

/-- The floating formats of Table 7.1. -/
inductive Fmt where
  | fp32 | bf16 | fp16 | f8e5 | f8e4 | f4
  deriving DecidableEq, Repr

def Fmt.width : Fmt → Nat
  | .fp32 => 32 | .bf16 => 16 | .fp16 => 16 | .f8e5 => 8 | .f8e4 => 8 | .f4 => 4
/-- Width of the exponent field. -/
def Fmt.ebits : Fmt → Nat
  | .fp32 => 8 | .bf16 => 8 | .fp16 => 5 | .f8e5 => 5 | .f8e4 => 4 | .f4 => 2
/-- Width of the fraction field. -/
def Fmt.mbits : Fmt → Nat
  | .fp32 => 23 | .bf16 => 7 | .fp16 => 10 | .f8e5 => 2 | .f8e4 => 3 | .f4 => 1
def Fmt.bias : Fmt → Nat
  | .fp32 => 127 | .bf16 => 127 | .fp16 => 15 | .f8e5 => 15 | .f8e4 => 7 | .f4 => 1
/-- Has the format an infinity (Table 7.1)? -/
def Fmt.hasInf : Fmt → Bool
  | .f8e4 => false | .f4 => false | _ => true
/-- Encoding of the largest finite value. -/
def Fmt.largest : Fmt → Nat
  | .fp32 => 0x7F7FFFFF | .bf16 => 0x7F7F | .fp16 => 0x7BFF | .f8e5 => 0x7B | .f8e4 => 0x7E | .f4 => 0x7
/-- Encoding of +∞ (formats that have one). -/
def Fmt.infinity : Fmt → Nat
  | .fp32 => 0x7F800000 | .bf16 => 0x7F80 | .fp16 => 0x7C00 | .f8e5 => 0x7C | .f8e4 => 0x7E | .f4 => 0x7
/-- The canonical NaN (Table 7.2); f4 has none and takes +0 (R163). -/
def Fmt.nan : Fmt → Nat
  | .fp32 => 0x7FC00000 | .bf16 => 0x7FC0 | .fp16 => 0x7E00 | .f8e5 => 0x7E | .f8e4 => 0x7F | .f4 => 0

/-! ### Values -/

/-- The value of a floating element: a NaN, an infinity, or (−1)^neg · m · 2^e exactly. -/
inductive FVal where
  | nan (signalling : Bool)
  | inf (neg : Bool)
  | fin (neg : Bool) (m : Nat) (e : Int)
  deriving DecidableEq, Repr

/-- The value of an encoding (R159, R160). -/
def decodeF (f : Fmt) (x : Nat) : FVal :=
  let s := fieldOf x (f.width - 1) 1 = 1
  let e := fieldOf x f.mbits f.ebits
  let m := fieldOf x 0 f.mbits
  let top := 2 ^ f.ebits - 1
  if f.hasInf ∧ e = top then (if m = 0 then .inf s else .nan (m < 2 ^ (f.mbits - 1)))
  else if f = .f8e4 ∧ e = top ∧ m = 7 then .nan false
  else if e = 0 then .fin s m (1 - (f.bias : Int) - f.mbits)
  else .fin s (2 ^ f.mbits + m) ((e : Int) - f.bias - f.mbits)

/-- The value of an integer. -/
def intVal (x : Int) : FVal := .fin (decide (x < 0)) x.natAbs 0

def FVal.isNan : FVal → Bool
  | .nan _ => true | _ => false
def FVal.isSnan : FVal → Bool
  | .nan s => s | _ => false
def FVal.neg : FVal → FVal
  | .nan s => .nan s | .inf n => .inf (!n) | .fin n m e => .fin (!n) m e
def FVal.isZero : FVal → Bool
  | .fin _ m _ => m == 0 | _ => false

/-! ### Rounding (R163 to R165) -/

/-- The modes of Table 7.4. -/
inductive RM where
  | rne | rtz | rdn | rup | rmm
  deriving DecidableEq, Repr

/-- `fstat.RM`; 5 to 7 are reserved and never held. -/
def rmOf (x : Nat) : RM :=
  match x % 8 with
  | 1 => .rtz | 2 => .rdn | 3 => .rup | 4 => .rmm | _ => .rne

/-- Round the magnitude (m + sticky) · 2^e to a multiple of 2^q: the multiple, and whether it is inexact.  `sticky` stands for a
nonzero part below the last bit of m. -/
def roundMag (rm : RM) (neg : Bool) (m : Nat) (e : Int) (sticky : Bool) (q : Int) : Nat × Bool :=
  if q ≤ e then
    let up := match rm with | .rdn => neg && sticky | .rup => !neg && sticky | _ => false
    (m * 2 ^ (e - q).toNat + (if up then 1 else 0), sticky)
  else
    let sh := (q - e).toNat
    let lo := m / 2 ^ sh
    let rem := m % 2 ^ sh
    let half := 2 ^ (sh - 1)
    let inexact := rem != 0 || sticky
    let up := match rm with
      | .rne => decide (half < rem) || (rem == half && (sticky || lo % 2 == 1))
      | .rmm => decide (half ≤ rem)
      | .rtz => false
      | .rdn => neg && inexact
      | .rup => !neg && inexact
    (lo + (if up then 1 else 0), inexact)

def signBit (f : Fmt) (neg : Bool) : Nat := if neg then 2 ^ (f.width - 1) else 0

/-- Overflow (Table 7.3): sets OF and NX. -/
def overflowF (f : Fmt) (rm : RM) (neg : Bool) : Nat × FFlags :=
  let toInf := match rm with | .rne => true | .rmm => true | .rtz => false | .rdn => neg | .rup => !neg
  (signBit f neg + (if f.hasInf && toInf then f.infinity else f.largest), { of := true, nx := true })

/-- Deliver an infinity: ±448 or ±6 with OF and NX where the format has none (R163). -/
def deliverInf (f : Fmt) (neg : Bool) : Nat × FFlags :=
  (signBit f neg + f.infinity, if f.hasInf then {} else { of := true, nx := true })

/-- Deliver a NaN: canonical; +0 with NV in f4 (R163). -/
def deliverNan (f : Fmt) : Nat × FFlags := (f.nan, if f = .f4 then { nv := true } else {})

/-- Round (−1)^neg · (m + sticky) · 2^e once into the format; tininess is detected after rounding (R164). -/
def roundF (f : Fmt) (rm : RM) (neg : Bool) (m : Nat) (e : Int) (sticky : Bool) : Nat × FFlags :=
  if m = 0 ∧ !sticky then (signBit f neg, {})
  else
    let lead : Int := (Nat.log2 m : Int) + e
    let emin : Int := 1 - (f.bias : Int)
    let qmin : Int := emin - f.mbits
    let q : Int := max (lead - f.mbits) qmin
    let (k, inexact) := roundMag rm neg m e sticky q
    let scaled := k * 2 ^ (q - qmin).toNat
    let maxScaled := (match decodeF f f.largest with | .fin _ mm ee => mm * 2 ^ (ee - qmin).toNat | _ => 0)
    if maxScaled < scaled then overflowF f rm neg
    else
      let tiny := decide (lead < emin) &&
        (let u := roundMag rm neg m e sticky (lead - f.mbits)
         decide (lead + 1 < emin) || decide (u.1 < 2 ^ (f.mbits + 1)))
      let enc := if k < 2 ^ f.mbits then k else ((q - qmin).toNat + 1) * 2 ^ f.mbits + (k - 2 ^ f.mbits)
      (signBit f neg + enc, { nx := inexact, uf := tiny && inexact })

/-- Round a value into the format. -/
def encodeF (f : Fmt) (rm : RM) : FVal → Nat × FFlags
  | .nan _ => deliverNan f
  | .inf n => deliverInf f n
  | .fin n m e => roundF f rm n m e false

/-! ### Exact operations on values -/

/-- The exact sum of two finite values as a signed integer at the lesser exponent. -/
def addFin (n1 : Bool) (m1 : Nat) (e1 : Int) (n2 : Bool) (m2 : Nat) (e2 : Int) : Int × Int :=
  let e := min e1 e2
  let a : Int := (m1 * 2 ^ (e1 - e).toNat : Nat)
  let b : Int := (m2 * 2 ^ (e2 - e).toNat : Nat)
  ((if n1 then -a else a) + (if n2 then -b else b), e)

/-- Sum with the sign IEEE 754 gives a zero (R164); NV for ∞ − ∞ and a signalling NaN. -/
def addV (rm : RM) (x y : FVal) : FVal × FFlags :=
  let sn : FFlags := { nv := x.isSnan || y.isSnan }
  match x, y with
  | .nan _, _ => (.nan false, sn)
  | _, .nan _ => (.nan false, sn)
  | .inf a, .inf b => if a = b then (.inf a, {}) else (.nan false, { nv := true })
  | .inf a, _ => (.inf a, {})
  | _, .inf b => (.inf b, {})
  | .fin n1 m1 e1, .fin n2 m2 e2 =>
    let (v, e) := addFin n1 m1 e1 n2 m2 e2
    if v = 0 then (.fin (if n1 = n2 ∧ m1 = 0 ∧ m2 = 0 then n1 else rm = .rdn) 0 e, {})
    else (.fin (decide (v < 0)) v.natAbs e, {})

/-- Product; NV for 0 × ∞ and a signalling NaN. -/
def mulV (x y : FVal) : FVal × FFlags :=
  let sn : FFlags := { nv := x.isSnan || y.isSnan }
  match x, y with
  | .nan _, _ => (.nan false, sn)
  | _, .nan _ => (.nan false, sn)
  | .inf a, .inf b => (.inf (a != b), {})
  | .inf a, .fin n m _ => if m = 0 then (.nan false, { nv := true }) else (.inf (a != n), {})
  | .fin n m _, .inf b => if m = 0 then (.nan false, { nv := true }) else (.inf (n != b), {})
  | .fin n1 m1 e1, .fin n2 m2 e2 => (.fin (n1 != n2) (m1 * m2) (e1 + e2), {})

/-- ±x·y ± z, exact, before its one rounding. -/
def fmaV (rm : RM) (x y z : FVal) : FVal × FFlags :=
  let (p, f1) := mulV x y
  let (r, f2) := addV rm p z
  (r, f1.merge f2 |>.merge { nv := z.isSnan })

/-- Quotient m1 / m2 with `bits` fraction bits and its sticky bit. -/
def quotient (bits m1 m2 : Nat) : Nat × Bool := (m1 * 2 ^ bits / m2, m1 * 2 ^ bits % m2 != 0)

/-- Bits a quotient is carried to: enough for one rounding of any format. -/
def quotientBits (m2 : Nat) : Nat := Nat.log2 m2 + 80

/-- Division, rounded once (R102). -/
def divF (f : Fmt) (rm : RM) (x y : FVal) : Nat × FFlags :=
  let sn : FFlags := { nv := x.isSnan || y.isSnan }
  let put := fun (r : Nat × FFlags) (g : FFlags) => (r.1, r.2.merge g)
  match x, y with
  | .nan _, _ => put (deliverNan f) sn
  | _, .nan _ => put (deliverNan f) sn
  | .inf _, .inf _ => put (deliverNan f) { nv := true }
  | .inf a, .fin n _ _ => deliverInf f (a != n)
  | .fin n _ _, .inf b => (signBit f (n != b), {})
  | .fin n1 m1 e1, .fin n2 m2 e2 =>
    if m2 = 0 then (if m1 = 0 then put (deliverNan f) { nv := true } else put (deliverInf f (n1 != n2)) { dz := true })
    else
      let b := quotientBits m2
      let (q, st) := quotient b m1 m2
      roundF f rm (n1 != n2) q (e1 - e2 - b) st

/-- Order of two values that are not NaN. -/
def ltV : FVal → FVal → Bool
  | .inf a, .inf b => a && !b
  | .inf a, _ => a
  | _, .inf b => !b
  | .fin n1 m1 e1, .fin n2 m2 e2 => decide ((addFin n1 m1 e1 (!n2) m2 e2).1 < 0)
  | _, _ => false

def eqV : FVal → FVal → Bool
  | .inf a, .inf b => a == b
  | .fin n1 m1 e1, .fin n2 m2 e2 => decide ((addFin n1 m1 e1 (!n2) m2 e2).1 = 0)
  | _, _ => false

/-- Order for `vmin` and `vmax`: −0 lies below +0 (R103). -/
def ltZero (x y : FVal) : Bool :=
  if x.isZero && y.isZero then
    match x, y with | .fin a _ _, .fin b _ _ => a && !b | _, _ => false
  else ltV x y

/-- The lesser or greater value (R103). -/
def minmaxV (wantMax : Bool) (x y : FVal) : FVal × FFlags :=
  let sn : FFlags := { nv := x.isSnan || y.isSnan }
  match x.isNan, y.isNan with
  | true, true => (.nan false, sn)
  | true, false => (y, sn)
  | false, true => (x, sn)
  | false, false => ((if wantMax then (if ltZero x y then y else x) else (if ltZero y x then y else x)), sn)

/-! ### Tags (Table 1.2) -/

def tagFmt (t : Nat) : Option Fmt :=
  match t with
  | 0x10 => some .f4 | 0x11 => some .f8e4 | 0x12 => some .f8e5 | 0x13 => some .fp16 | 0x14 => some .bf16 | 0x15 => some .fp32
  | _ => none
def tagIsInt (t : Nat) : Bool := (1 ≤ t && t ≤ 5) || (9 ≤ t && t ≤ 0xD)
def tagSigned (t : Nat) : Bool := 1 ≤ t && t ≤ 5
def tagWidth (t : Nat) : Nat :=
  match t with
  | 0x01 => 4 | 0x02 => 8 | 0x03 => 16 | 0x04 => 32 | 0x05 => 64
  | 0x09 => 4 | 0x0A => 8 | 0x0B => 16 | 0x0C => 32 | 0x0D => 64
  | 0x10 => 4 | 0x11 => 8 | 0x12 => 8 | 0x13 => 16 | 0x14 => 16 | 0x15 => 32
  | 0x18 => 8 | 0x19 => 32 | _ => 8
def tagIsFloat (t : Nat) : Bool := (tagFmt t).isSome

/-- The integer an element of an integer tag holds (R162). -/
def intOf (t x : Nat) : Int := if tagSigned t then signed (tagWidth t) x else ((x % 2 ^ tagWidth t : Nat) : Int)

/-- Limits of an integer tag. -/
def tagMin (t : Nat) : Int := if tagSigned t then -(2 ^ (tagWidth t - 1) : Int) else 0
def tagMax (t : Nat) : Int := if tagSigned t then 2 ^ (tagWidth t - 1) - 1 else 2 ^ tagWidth t - 1

/-- The promoted tag of two operand tags (Table 4.4); none where the table marks the pair reserved. -/
def promote (a b : Nat) : Option Nat :=
  let intTag := fun (sgn : Bool) (w : Nat) => (if sgn then 1 else 9) + (match w with | 4 => 0 | 8 => 1 | 16 => 2 | 32 => 3 | _ => 4)
  if a = b then some a
  else if tagIsInt a && tagIsInt b then
    (if tagSigned a = tagSigned b then some (if tagWidth a < tagWidth b then b else a)
     else
      let ws := if tagSigned a then tagWidth a else tagWidth b
      let wu := if tagSigned a then tagWidth b else tagWidth a
      some (intTag true (min 64 (max ws (2 * wu)))))
  else if tagIsInt a && tagIsFloat b || tagIsFloat a && tagIsInt b then some 0x15
  else match tagFmt a, tagFmt b with
    | some f, some g =>
      if f = .fp32 ∨ g = .fp32 then some 0x15
      else if f = .fp16 ∧ g = .bf16 ∨ f = .bf16 ∧ g = .fp16 then some 0x15
      else if f = .bf16 ∨ g = .bf16 then some 0x14
      else if f = .fp16 ∨ g = .fp16 then some 0x13
      else if f = .f4 then some b
      else if g = .f4 then some a
      else some 0x13
    | _, _ => none

/-! ### Conversions between tags -/

/-- The value an element represents, for a conversion into a floating format (R100, R109). -/
def valueOf (t x : Nat) : FVal :=
  match tagFmt t with
  | some f => decodeF f x
  | none =>
    if t = 0x18 then (if x % 256 = 255 then .nan false else .fin false 1 ((x % 256 : Nat) - 127))
    else intVal (intOf t x)

/-- Round a value to an integer: the integer and whether it is inexact. -/
def roundInt (rm : RM) (neg : Bool) (m : Nat) (e : Int) (sticky : Bool) : Int × Bool :=
  let (k, i) := roundMag rm neg m e sticky 0
  (if neg then -(k : Int) else k, i)

/-- Clamp an integer into the tag's range: the encoding and whether the clamp changed it. -/
def clampTag (t : Nat) (v : Int) : Nat × Bool :=
  let c := clampI v (tagMin t) (tagMax t)
  (wrap (tagWidth t) c, c != v)

/-- Floating value to an integer tag (R109). -/
def toIntTag (t : Nat) (rm : RM) : FVal → Nat × FFlags
  | .nan _ => (0, { nv := true })
  | .inf n => ((clampTag t (if n then tagMin t else tagMax t)).1, { nv := true })
  | .fin n m e =>
    let (v, i) := roundInt rm n m e false
    let (x, c) := clampTag t v
    (x, if c then { nv := true } else { nx := i })

/-- `vcvt` of one element under a rounding mode (R109). -/
def convertElem (src dst : Nat) (rm : RM) (x : Nat) : Nat × FFlags :=
  let v := valueOf src x
  match tagFmt dst with
  | some f =>
    let (y, fl) := encodeF f rm v
    (y, fl.merge { nv := v.isSnan || (src = 0x18 && v.isNan) })
  | none =>
    if tagIsInt src then ((clampTag dst (intOf src x)).1, {})
    else toIntTag dst rm v

/-- `vcvt.sr` of one element with its draw (R110): flags, NaN and overflow as the RNE conversion gives them. -/
def convertStochastic (src dst : Nat) (draw x : Nat) : Nat × FFlags :=
  let (r, fl) := convertElem src dst .rne x
  match valueOf src x with
  | .fin n m e =>
    match tagFmt dst with
    | some f =>
      if m = 0 then (r, fl)
      else
        let qmin : Int := 1 - (f.bias : Int) - f.mbits
        let q : Int := max ((Nat.log2 m : Int) + e - f.mbits) qmin
        if q ≤ e then (r, fl)
        else
          let sh := (q - e).toNat
          let lo := m / 2 ^ sh
          let rem := m % 2 ^ sh
          if rem = 0 then (r, fl)
          else
            let k := if draw < rem * 2 ^ 32 / 2 ^ sh then lo + 1 else lo
            let maxScaled := (match decodeF f f.largest with | .fin _ mm ee => mm * 2 ^ (ee - qmin).toNat | _ => 0)
            if maxScaled * 2 ^ sh < m * 2 ^ (q - qmin).toNat then (r, fl)
            else ((roundF f .rtz n k q false).1, fl)
    | none =>
      if tagIsInt src ∨ 0 ≤ e then (r, fl)
      else
        let sh := (-e).toNat
        let lo := m / 2 ^ sh
        let rem := m % 2 ^ sh
        let k : Int := if rem ≠ 0 ∧ draw < rem * 2 ^ 32 / 2 ^ sh then lo + 1 else lo
        ((clampTag dst (if n then -k else k)).1, fl)
  | _ => (r, fl)

/-! ### The stochastic-rounding generator (R167, R168) -/

def gStep (g : Nat) : Nat := if g % 2 = 1 then (g / 2) ^^^ 0x80200003 else g / 2
def iterate {α : Type} (f : α → α) : Nat → α → α
  | 0, x => x
  | n + 1, x => iterate f n (f x)
/-- A draw: 32 steps. -/
def gDraw (g : Nat) : Nat := iterate gStep 32 g
/-- The seed of a team. -/
def gSeed (tile arg : Nat) : Nat :=
  let t := (tile * 0x9E3779B9 + arg % 2 ^ 32 + arg / 2 ^ 32) % 2 ^ 32
  if t = 0 then 1 else t

/-! ### Element operations (Table 4.5) -/

/-- Truncating integer quotient in tag P (Table 4.5). -/
def intDiv (t : Nat) (x y : Int) : Int :=
  if y = 0 then (if tagSigned t then -1 else 2 ^ tagWidth t - 1) else x.tdiv y

/-- Integer element operation in tag P; `x`, `y`, `z` are encodings of P. -/
def intArith (op : ArithOp) (t x y z : Nat) : Nat :=
  let w := tagWidth t
  let a := intOf t x
  let b := intOf t y
  let c := intOf t z
  match op with
  | .add => wrap w (a + b)
  | .sub => wrap w (a - b)
  | .mul => wrap w (a * b)
  | .mulh => wrap w (a * b / 2 ^ w)
  | .fma => wrap w (a * b + c)
  | .fms => wrap w (a * b - c)
  | .fnma => wrap w (-(a * b) + c)
  | .div => wrap w (intDiv t a b)
  | .min => wrap w (if a < b then a else b)
  | .max => wrap w (if a < b then b else a)
  | .sadd => (clampTag t (a + b)).1
  | .ssub => (clampTag t (a - b)).1
  | .and => x &&& y
  | .or => x ||| y
  | .xor => x ^^^ y
  | .andn => x &&& (2 ^ w - 1 - y % 2 ^ w)
  | .sll => x * 2 ^ (y % w) % 2 ^ w
  | .srl => x / 2 ^ (y % w)
  | .sra => wrap w (signed w x / 2 ^ (y % w))

/-- Floating element operation in format `f`, rounded once (R102, R103). -/
def floatArith (op : ArithOp) (f : Fmt) (rm : RM) (x y z : FVal) : Nat × FFlags :=
  let fin := fun (r : FVal × FFlags) => let (e, g) := encodeF f rm r.1; (e, r.2.merge g)
  match op with
  | .add => fin (addV rm x y)
  | .sub => fin (addV rm x y.neg)
  | .mul => fin (mulV x y)
  | .fma => fin (fmaV rm x y z)
  | .fms => fin (fmaV rm x y z.neg)
  | .fnma => fin (fmaV rm x.neg y z)
  | .div => divF f rm x y
  | .min => fin (minmaxV false x y)
  | .max => fin (minmaxV true x y)
  | _ => (0, {})

/-- Is the operation a logic form, which ignores Table 4.4? -/
def ArithOp.isLogic : ArithOp → Bool
  | .and => true | .or => true | .xor => true | .andn => true | _ => false
def ArithOp.isShift : ArithOp → Bool
  | .sll => true | .srl => true | .sra => true | _ => false
def ArithOp.isFused : ArithOp → Bool
  | .fma => true | .fms => true | .fnma => true | _ => false
/-- Operations with no floating form (Table 4.5). -/
def ArithOp.intOnly : ArithOp → Bool
  | .mulh => true | .sadd => true | .ssub => true | .sll => true | .srl => true | .sra => true | _ => false

/-- Convert the integer operand to the integer tag P: exact, an n64 read as i64 in two's complement (R100). -/
def promoteInt (t p x : Nat) : Nat := wrap (tagWidth p) (intOf t x)

/-- Convert an operand's encoding to P before the operation (R100): exact for the pairs of Table 4.4 but an integer converted to
fp32, which is rounded.  A fused form whose P is `va`'s tag converts `vd` the same way (R101): an integer `vd` wider than P wraps to P's width, and a wider
floating one is rounded, with the overflow of P's format; R101 says no more than that it is converted. -/
def operandP (t p : Nat) (rm : RM) (x : Nat) : Nat × FFlags :=
  if t = p then (x, {})
  else if tagIsInt t && tagIsInt p then (promoteInt t p x, {})
  else convertElem t p rm x

/-- One element of an arithmetic form: operand encodings under their own tags, result in P (R101). -/
def arithElem (op : ArithOp) (rm : RM) (p ta tb tz x y z : Nat) : Nat × FFlags :=
  if op.isLogic then (intArith op ta x y z, {})
  else if op.isShift then (intArith op ta x (wrap 64 (intOf tb y)) z, {})
  else
    let (a, f1) := operandP ta p rm x
    let (b, f2) := operandP tb p rm y
    let (c, f3) := if op.isFused then operandP tz p rm z else (0, {})
    let f := (f1.merge f2).merge f3
    match tagFmt p with
    | none => (intArith op p a b c, {})
    | some g =>
      let (r, h) := floatArith op g rm (decodeF g a) (decodeF g b) (decodeF g c)
      (r, f.merge h)

/-- One element of a compare (R105). -/
def cmpElem (op : CmpOp) (rm : RM) (p ta tb x y : Nat) : Bool × FFlags :=
  let (x', f1) := operandP ta p rm x
  let (y', f2) := operandP tb p rm y
  match tagFmt p with
  | none =>
    let a := intOf p x'
    let b := intOf p y'
    ((match op with | .eq => a == b | .ne => a != b | .lt => decide (a < b) | .le => decide (a ≤ b)), f1.merge f2)
  | some g =>
    let a := decodeF g x'
    let b := decodeF g y'
    let nan := a.isNan || b.isNan
    let nv := match op with | .eq => a.isSnan || b.isSnan | .ne => a.isSnan || b.isSnan | _ => nan
    ((match op with
      | .eq => !nan && eqV a b
      | .ne => nan || !eqV a b
      | .lt => !nan && ltV a b
      | .le => !nan && (ltV a b || eqV a b)), (f1.merge f2).merge { nv := nv })

/-! ### Quantisation (R111) -/

/-- FP16 scale and zero point of an sz32 element (R162). -/
def szScale (x : Nat) : FVal := decodeF .fp16 (fieldOf x 16 16)
def szZero (x : Nat) : Int := signed 16 x

/-- `vquant` of one floating element of tag `src` into tag `dst` with scale element `sc` of tag `st`.  An e8m0 scale has no zero point: under
0xFF the model takes z = 0.  A NaN element under sz32, for which R111 gives no result, gives z clamped with NV. -/
def quantElem (src dst st : Nat) (rm : RM) (x sc : Nat) : Nat × FFlags :=
  let v := valueOf src x
  if st = 0x18 then
    if sc % 256 = 255 then (0, { nv := true })
    else
      let u := match v with | .fin n m e => FVal.fin n m (e - ((sc % 256 : Nat) - 127)) | w => w
      match tagFmt dst with
      | some f => let (e, g) := encodeF f rm u; (e, g.merge { nv := v.isSnan })
      | none => toIntTag dst rm u
  else
    let z := szZero sc
    let bad := ((clampTag dst z).1, ({ nv := true } : FFlags))
    match szScale sc, v with
    | .fin hn hm he, .fin n m e =>
      if hm = 0 then bad
      else
        let b := quotientBits hm
        let (q, st') := quotient b m hm
        let (k, i) := roundInt rm (n != hn) q (e - he - b) st'
        let (y, c) := clampTag dst (k + z)
        (y, { nx := i, nv := c })
    | .fin hn hm _, .inf n => if hm = 0 then bad else ((clampTag dst (if n != hn then tagMin dst else tagMax dst)).1, { nv := true })
    | _, _ => bad

/-- `vdequant` of one quantised element of tag `src` into floating tag `dst`. -/
def dequantElem (src dst st : Nat) (rm : RM) (x sc : Nat) : Nat × FFlags :=
  match tagFmt dst with
  | none => (0, {})
  | some f =>
    let bad := let (e, g) := deliverNan f; (e, g.merge { nv := true })
    if st = 0x18 then
      if sc % 256 = 255 then bad
      else
        let v := valueOf src x
        let u := match v with | .fin n m e => FVal.fin n m (e + ((sc % 256 : Nat) - 127)) | w => w
        let (e, g) := encodeF f rm u
        (e, g.merge { nv := v.isSnan })
    else
      match szScale sc with
      | .fin hn hm he =>
        if hm = 0 then bad
        else
          let d := intOf src x - szZero sc
          encodeF f rm (.fin (decide (d < 0) != hn) (d.natAbs * hm) he)
      | _ => bad

end Sys2Proof.Machine
end

