-- ==== Sys2Proof/Machine/Special.lean ====
section
/-! DEFINITION. The special functions (R108): exact values of 2^x, log2 x, 1/x and 1/√x rounded once under RNE.  An irrational
result is carried as a truncated fixed-point number with a sticky bit, far below any rounding boundary of the formats. -/

namespace Sys2Proof.Machine

/-- Integer square root by Newton's iteration from above. -/
def newtonSqrt (n : Nat) : Nat → Nat → Nat
  | 0, x => x
  | f + 1, x => let y := (x + n / x) / 2; if x ≤ y then x else newtonSqrt n f y

def isqrt (n : Nat) : Nat := if n = 0 then 0 else newtonSqrt n 64 (2 ^ (Nat.log2 n / 2 + 1))

/-- Fraction bits of the fixed-point numbers. -/
def fixBits : Nat := 400

/-- Fraction bits of log2 of y / 2^w, y / 2^w in [1, 2), by repeated squaring: `n` bits, most significant first. -/
def log2Bits : Nat → Nat → Nat → Nat
  | 0, _, acc => acc
  | n + 1, y, acc =>
    let z := y * y / 2 ^ fixBits
    if 2 ^ (fixBits + 1) ≤ z then log2Bits n (z / 2) (2 * acc + 1) else log2Bits n z (2 * acc)

/-- log2 of m · 2^e, m > 0, rounded into the format. -/
def log2F (f : Fmt) (m : Nat) (e : Int) : Nat × FFlags :=
  let l := Nat.log2 m
  let ie : Int := l + e
  if m = 2 ^ l then roundF f .rne (decide (ie < 0)) ie.natAbs 0 false
  else
    let frac := log2Bits 200 (m * 2 ^ (fixBits - l)) 0        -- log2 of the fraction, 200 bits, truncated
    let v : Int := ie * 2 ^ 200 + frac                        -- the value lies strictly between v and v + 1
    if 0 ≤ v then roundF f .rne false v.natAbs (-200) true
    else roundF f .rne true (v + 1).natAbs (-200) true

/-- Product of the constants 2^(2^-i) for the set bits of a fraction, fixed-point; `c` is the present constant. -/
def exp2Bits : Nat → Nat → Nat → Nat → Nat
  | 0, _, _, acc => acc
  | n + 1, x, c, acc =>
    -- x: remaining fraction bits, n + 1 of them
    let c' := isqrt (c * 2 ^ fixBits)
    exp2Bits n (x % 2 ^ n) c' (if x / 2 ^ n = 1 then acc * c' / 2 ^ fixBits else acc)

/-- 2^x of a finite x, rounded into the format. -/
def exp2F (f : Fmt) (neg : Bool) (m : Nat) (e : Int) : Nat × FFlags :=
  if m = 0 then roundF f .rne false 1 0 false
  else if 12 ≤ (Nat.log2 m : Int) + e then roundF f .rne false 1 (if neg then -8192 else 8192) true
  else
    let fb := (-e).toNat                                      -- fraction bits of |x|
    let mag : Int := if 0 ≤ e then ((m * 2 ^ e.toNat : Nat) : Int) else (m : Int)
    let v : Int := if neg then -mag else mag                  -- x = v / 2^fb
    let n := v / (2 ^ fb : Int)
    let fr := (v % (2 ^ fb : Int)).toNat
    if fr = 0 then roundF f .rne false 1 n false
    else roundF f .rne false (exp2Bits fb fr (2 ^ (fixBits + 1)) (2 ^ fixBits)) (n - fixBits) true

/-- 1/√(m · 2^e), m > 0. -/
def rsqF (f : Fmt) (m : Nat) (e : Int) : Nat × FFlags :=
  let (m', e') := if e % 2 = 0 then (m, e) else (2 * m, e - 1)
  let k : Nat := 128
  let r := isqrt (2 ^ (2 * k) / m')
  roundF f .rne false r (-(e' / 2) - (k : Int)) (m' * r * r != 2 ^ (2 * k))

/-- One element of a special function under a floating format (Table 4.6). -/
def specialElem (op : UnaryOp) (f : Fmt) (x : Nat) : Nat × FFlags :=
  let put := fun (r : Nat × FFlags) (g : FFlags) => (r.1, r.2.merge g)
  match op, decodeF f x with
  | _, .nan s => put (deliverNan f) { nv := s }
  | .exp2, .inf n => if n then (0, {}) else deliverInf f false
  | .exp2, .fin n m e => exp2F f n m e
  | .log2, .inf n => if n then put (deliverNan f) { nv := true } else deliverInf f false
  | .log2, .fin n m e =>
    if m = 0 then put (deliverInf f true) { dz := true }
    else if n then put (deliverNan f) { nv := true }
    else log2F f m e
  | .rcp, .inf n => (signBit f n, {})
  | .rcp, .fin n m e =>
    if m = 0 then put (deliverInf f n) { dz := true } else divF f .rne (.fin false 1 0) (.fin n m e)
  | .rsq, .inf n => if n then put (deliverNan f) { nv := true } else (0, {})
  | .rsq, .fin n m e =>
    if m = 0 then put (deliverInf f n) { dz := true }
    else if n then put (deliverNan f) { nv := true }
    else rsqF f m e
  | _, _ => (x, {})

/-- One element of a unary form (R107, R108). -/
def unaryElem (op : UnaryOp) (t x : Nat) : Nat × FFlags :=
  let w := tagWidth t
  match op with
  | .abs => ((if tagIsInt t then (if tagSigned t then wrap w (intOf t x).natAbs else x) else x % 2 ^ (w - 1)), {})
  | .neg => ((if tagIsInt t then wrap w (-(intOf t x)) else x ^^^ 2 ^ (w - 1)), {})
  | .clz => (leadZeros w x, {})
  | .ctz => (trailZeros w x, {})
  | .ffs => ((if x % 2 ^ w = 0 then 0 else trailZeros w x + 1), {})
  | .popc => (popBits w x, {})
  | op => match tagFmt t with
    | some f => specialElem op f x
    | none => (x, {})

end Sys2Proof.Machine
end

