-- ==== Sys2Proof/Machine/Vec.lean ====
section
/-! DEFINITION. The vector instructions that touch registers only (R91 to R113, R441): their checks at issue, their effect on the
tags, and what they do to the register file when they are performed. -/

namespace Sys2Proof.Machine

/-! ### Operands (R12 to R14, R93) -/

/-- What the `vtagtab` entry of a register says of the operand that the register names. -/
structure Operand where
  reg   : Nat
  tag   : Nat
  group : Nat
  ratio : Nat
  deriving DecidableEq, Repr

/-- Group multiplier of a group code, and the code of a multiplier (R14). -/
def groupOf (code : Nat) : Nat := 2 ^ (code % 4)
def groupCode (g : Nat) : Nat := if g = 8 then 3 else if g = 4 then 2 else if g = 2 then 1 else 0
/-- The `vtagtab` entry of a tag, group multiplier and ratio code. -/
def tagEntry (tag g ratio : Nat) : BitVec 16 := BitVec.ofNat 16 (tag % 32 + 32 * groupCode g + 128 * (ratio % 8))

def entryTag (e : BitVec 16) : Nat := fld e 0 5
def entryGroup (e : BitVec 16) : Nat := groupOf (fld e 5 2)
def entryRatio (e : BitVec 16) : Nat := fld e 7 3

def View.operand (v : View) (r : BitVec 5) : Operand :=
  let e := v.tag r.toNat
  { reg := r.toNat, tag := entryTag e, group := entryGroup e, ratio := entryRatio e }

def Operand.width (o : Operand) : Nat := tagWidth o.tag

/-- Elements an operand holds (R93). -/
def vlmax (w g : Nat) : Nat := min (8192 * g / w) 8192
def Operand.vlmax (o : Operand) : Nat := Machine.vlmax o.width o.group

/-- Aligned to its group (R14). -/
def Operand.aligned (o : Operand) : Bool := decide (o.reg % o.group = 0)

/-- Aligned to its group, and long enough for the view's length (R98). -/
def Operand.fits (o : Operand) (v : View) : Bool := decide (o.reg % o.group = 0) && decide (v.vl ≤ o.vlmax)

/-- Do two operands share a register? -/
def Operand.meets (a b : Operand) : Bool := overlaps a.reg a.group b.reg b.group

/-- Element `i` of width `w` of the group at register `n` (R12, R93). -/
def vget (v : SMap (BitVec 8192)) (n w i : Nat) : Nat := fld (sget 0 v (n + i * w / 8192)) (i * w % 8192) w

def vput (v : SMap (BitVec 8192)) (n w i x : Nat) : SMap (BitVec 8192) :=
  sput v (n + i * w / 8192) (setField (sget 0 v (n + i * w / 8192)) (i * w % 8192) w x)

/-- Write a list of elements. -/
def vputs (v : SMap (BitVec 8192)) (n w : Nat) : List (Nat × Nat) → SMap (BitVec 8192)
  | [] => v
  | (i, x) :: r => vputs (vput v n w i x) n w r

/-- Bit `i` of the mask mk, or 1 when no mask is named. -/
def maskBit (m : SMap (BitVec 8192)) (k : BitVec 3) (i : Nat) : Bool := k == 0 || (sget 0 m k.toNat).getLsbD i

/-- The active elements (R97) from `lo`. -/
def activeFrom (c : Ctx) (k : BitVec 3) (lo : Nat) : List Nat :=
  (List.range c.av.vl).filter fun i => decide (lo ≤ i) && maskBit c.m k i

def activeElems (c : Ctx) (k : BitVec 3) : List Nat := activeFrom c k c.av.vstart

/-! ### Writing tags (R94, R441) -/

/-- Break up the group in force at register `n`, if it overlaps [d, d + g) without lying inside it. -/
def breakGroup (old : View) (d g : Nat) (t : SMap (BitVec 16)) (n : Nat) : SMap (BitVec 16) :=
  let e := old.tag n
  let g' := entryGroup e
  if n % g' = 0 ∧ overlaps n g' d g ∧ ¬ (d ≤ n ∧ n + g' ≤ d + g) then
    (List.range g').foldl (fun t i =>
      if d ≤ n + i ∧ n + i < d + g then t else sput t (n + i) (tagEntry (entryTag e) 1 (entryRatio e))) t
  else t

/-- Write the entries of registers d to d + g − 1, breaking up what overlaps them. -/
def View.writeTags (v : View) (d g : Nat) (e : BitVec 16) : View :=
  let t := (List.range 32).foldl (breakGroup v d g) v.tags
  { v with tags := (List.range g).foldl (fun t i => sput t (d + i) e) t }

/-! ### Plans: the promoted tag and group of a form -/

/-- Group that an operand takes at the width of P (R100). -/
def Operand.groupAt (o : Operand) (wp : Nat) : Nat := o.group * wp / o.width

/-- Promoted tag and group of an arithmetic, logic or shift form (R100, R101, Table 4.5); none where the form is reserved. -/
def arithPlan (v : View) (op : ArithOp) (d a : BitVec 5) (b : SrcB) : Option (Nat × Nat) :=
  let oa := v.operand a
  let od := v.operand d
  match b with
  | .vec b =>
    let ob := v.operand b
    let p : Option Nat :=
      if op.isLogic then (if oa.width = ob.width then some oa.tag else none)
      else if op.isShift then (if tagIsInt oa.tag && tagIsInt ob.tag then some oa.tag else none)
      else if op.isFused then (promote oa.tag ob.tag).bind fun q => promote q od.tag
      else promote oa.tag ob.tag
    p.bind fun p =>
      if !op.isLogic && !(tagIsInt p || tagIsFloat p) then none
      else if op.intOnly && !tagIsInt p then none
      else
        let w := tagWidth p
        let g := max (max 1 (oa.groupAt w)) (max (ob.groupAt w) (if op.isFused then od.groupAt w else 0))
        if 8 < g then none else some (p, g)
  | _ =>
    if op.isLogic then some (oa.tag, oa.group)
    else if !(tagIsInt oa.tag || tagIsFloat oa.tag) then none
    else if op.intOnly && !tagIsInt oa.tag then none
    else if op.isFused && !(tagIsInt od.tag || tagIsFloat od.tag) then none
    else some (oa.tag, oa.group)

/-- The vector operands that a form reads. -/
def arithSources (v : View) (op : ArithOp) (d a : BitVec 5) (b : SrcB) : List Operand :=
  v.operand a :: ((match b with | .vec b => [v.operand b] | _ => []) ++ (if op.isFused then [v.operand d] else []))

/-- Promoted tag of a compare (R105). -/
def cmpPlan (v : View) (a : BitVec 5) (b : SrcB) : Option Nat :=
  let oa := v.operand a
  match b with
  | .vec b => (promote oa.tag (v.operand b).tag).bind fun p => if tagIsInt p || tagIsFloat p then some p else none
  | _ => if tagIsInt oa.tag || tagIsFloat oa.tag then some oa.tag else none

/-- Does the unary form accept the tag (R107, R108)? -/
def unaryAllowed (op : UnaryOp) (t : Nat) : Bool :=
  match op with
  | .abs => tagIsInt t || tagIsFloat t
  | .neg => tagIsInt t || tagIsFloat t
  | .clz => tagIsInt t
  | .ctz => tagIsInt t
  | .ffs => tagIsInt t
  | .popc => tagIsInt t
  | _ => tagIsFloat t

/-- Does `vcvt` accept the pair (R109)? -/
def cvtAllowed (src dst : Nat) : Bool :=
  (tagIsInt src || tagIsFloat src) && (tagIsInt dst || tagIsFloat dst) || (src == 0x18 && tagIsFloat dst)

/-- Elements that one scale element of operand `o` serves, for quantised elements of width `wq` (R111, R171). -/
def blockLength (o : Operand) (wq : Nat) : Nat := o.width * (if o.ratio = 0 then 1 else 4 * 2 ^ o.ratio) / wq

/-- The combinations of R111. -/
def quantAllowed (q sc : Operand) : Bool :=
  sc.group == 1 && sc.ratio != 0 &&
  (if sc.tag = 0x18 then blockLength sc q.width == 32 && [0x11, 0x12, 0x10, 0x02].contains q.tag
   else sc.tag == 0x19 && [32, 64, 128].contains (blockLength sc q.width) && [0x01, 0x09, 0x02, 0x0A].contains q.tag)

/-! ### Checks at issue (R98): does a register-only form raise no `RSVD`? -/

def registerFormLegal (v : View) : EngOp → Bool
  | .arith op d a b _ =>
    match arithPlan v op d a b with
    | some (p, g) => (arithSources v op d a b).all (·.fits v) && (Operand.fits { reg := d.toNat, tag := p, group := g, ratio := 0 } v)
    | none => false
  | .cmp _ _ a b _ =>
    (cmpPlan v a b).isSome && (v.operand a).fits v && (match b with | .vec b => (v.operand b).fits v | _ => true)
  | .unary op d a _ =>
    unaryAllowed op (v.operand a).tag && (v.operand a).fits v && Operand.fits { v.operand a with reg := d.toNat } v
  | .cvt _ d a _ => cvtAllowed (v.operand a).tag (v.operand d).tag && (v.operand a).fits v && (v.operand d).fits v
  | .quant d a b _ =>
    tagIsFloat (v.operand a).tag && quantAllowed (v.operand d) (v.operand b) && (v.operand a).fits v && (v.operand d).fits v
  | .dequant d a b _ =>
    tagIsFloat (v.operand d).tag && quantAllowed (v.operand a) (v.operand b) && (v.operand a).fits v && (v.operand d).fits v
  | .slideUp d a _ _ => (v.operand a).fits v && Operand.fits { v.operand a with reg := d.toNat } v
  | .slideDown d a _ _ => (v.operand a).fits v && Operand.fits { v.operand a with reg := d.toNat } v
  | .gather d a b _ =>
    tagIsInt (v.operand b).tag && (v.operand b).fits v && (v.operand a).fits v && Operand.fits { v.operand a with reg := d.toNat } v
  | .compress d a _ => (v.operand a).fits v && Operand.fits { v.operand a with reg := d.toNat } v
  | .expand d a _ => (v.operand a).fits v && Operand.fits { v.operand a with reg := d.toNat } v
  | .bcast d _ _ => (v.operand d).fits v
  | .extract _ a _ => (v.operand a).fits v
  | .insert d _ _ => (v.operand d).fits v
  | .reduce _ d a b _ =>
    match promote (v.operand a).tag (v.operand b).tag with
    | some p => (tagIsInt p || tagIsFloat p) && (v.operand a).fits v && (v.operand b).fits v
        && Operand.fits { v.operand d with tag := p, ratio := 0 } v
    | none => false
  | .vsetl _ _ b => decide ((v.operand b).reg % (v.operand b).group = 0)
  | .vtag d t r g => legalTag t && legalRatio t r && decide (d.toNat % groupOf g.toNat = 0)
  | _ => true

/-- The grant of `vsetl` (R95). -/
def setlGrant (v : View) (request : Word) (b : BitVec 5) : Nat := min request.toNat (v.operand b).vlmax

/-- Tags and length after a register-only form (R94, R95, R100, R107, R112, R113). -/
def registerFormView (reg : BitVec 5 → Word) (v : View) : EngOp → View
  | .arith op d a b _ =>
    match arithPlan v op d a b with
    | some (p, g) => v.writeTags d.toNat g (tagEntry p g 0)
    | none => v
  | .unary _ d a _ => let o := v.operand a; v.writeTags d.toNat o.group (tagEntry o.tag o.group o.ratio)
  | .slideUp d a _ _ => let o := v.operand a; v.writeTags d.toNat o.group (tagEntry o.tag o.group o.ratio)
  | .slideDown d a _ _ => let o := v.operand a; v.writeTags d.toNat o.group (tagEntry o.tag o.group o.ratio)
  | .gather d a _ _ => let o := v.operand a; v.writeTags d.toNat o.group (tagEntry o.tag o.group o.ratio)
  | .compress d a _ => let o := v.operand a; v.writeTags d.toNat o.group (tagEntry o.tag o.group o.ratio)
  | .expand d a _ => let o := v.operand a; v.writeTags d.toNat o.group (tagEntry o.tag o.group o.ratio)
  | .reduce _ d a b _ =>
    match promote (v.operand a).tag (v.operand b).tag with
    | some p => let g := (v.operand d).group; v.writeTags d.toNat g (tagEntry p g 0)
    | none => v
  | .vsetl _ a b => { v with vl := setlGrant v (reg a) b }
  | .vtag d t r g => v.writeTags d.toNat (groupOf g.toNat) (tagEntry t.toNat (groupOf g.toNat) r.toNat)
  | _ => v

/-! ### Performing (R96, R97, R101 to R113) -/

/-- What an entry leaves to its retirement. -/
structure Done where
  flags : List (Option Nat) := []
  dests : List (BitVec 5 × Word) := []
  trim  : Option Nat := none

/-- Flags of the elements of a list, merged in its order (R104). -/
def flagsOf : List (Nat × FFlags) → List (Option Nat)
  | l => l.foldl (fun acc (i, f) => mergeFlags acc i f) noFlags

/-- simm5 converted to a tag under RNE, with the flags of the conversion (R101, R109, R163). -/
def immElem (t : Nat) (i : BitVec 5) : Nat × FFlags :=
  match tagFmt t with
  | some f => encodeF f .rne (intVal i.toInt)
  | none => (if tagIsInt t then (clampTag t i.toInt).1 else wrap (tagWidth t) i.toInt, {})

/-- The second operand at element `i`, with the flags of its making; `ob` is the operand that a vector source names. -/
def srcElem (c : Ctx) (reg : BitVec 5 → Word) (ta : Nat) (b : SrcB) (i : Nat) : Nat × FFlags :=
  match b with
  | .vec r => let o := c.av.operand r; (vget c.v o.reg o.width i, {})
  | .scalar r => ((reg r).toNat % 2 ^ tagWidth ta, {})
  | .imm x => immElem ta x

/-- The tag of the second operand. -/
def srcTag (v : View) (ta : Nat) : SrcB → Nat
  | .vec r => (v.operand r).tag
  | _ => ta

def performArith (c : Ctx) (reg : BitVec 5 → Word) (rm : RM) (op : ArithOp) (d a : BitVec 5) (b : SrcB) (k : BitVec 3) : Ctx × Done :=
  match arithPlan c.av op d a b with
  | none => (c, {})
  | some (p, _) =>
    let oa := c.av.operand a
    let od := c.av.operand d
    let tb := srcTag c.av oa.tag b
    let rows := (activeElems c k).map fun i =>
      let y := srcElem c reg oa.tag b i
      let x := arithElem op rm p oa.tag tb od.tag (vget c.v oa.reg oa.width i) y.1 (if op.isFused then vget c.v od.reg od.width i else 0)
      (i, x.1, if op.isLogic then x.2 else y.2.merge x.2)
    ({ c with v := vputs c.v d.toNat (tagWidth p) (rows.map fun (i, x) => (i, x.1)) },
     { flags := flagsOf (rows.map fun (i, x) => (i, x.2)) })

def maskPut (m : BitVec 8192) : List (Nat × Bool) → BitVec 8192
  | [] => m
  | (i, b) :: r => maskPut (setField m i 1 (if b then 1 else 0)) r

def performCmp (c : Ctx) (reg : BitVec 5 → Word) (rm : RM) (op : CmpOp) (d a : BitVec 5) (b : SrcB) (k : BitVec 3) : Ctx × Done :=
  match cmpPlan c.av a b with
  | none => (c, {})
  | some p =>
    let oa := c.av.operand a
    let tb := srcTag c.av oa.tag b
    let rows := (activeElems c k).map fun i =>
      let y := srcElem c reg oa.tag b i
      let x := cmpElem op rm p oa.tag tb (vget c.v oa.reg oa.width i) y.1
      (i, x.1, y.2.merge x.2)
    ({ c with m := sput c.m d.toNat (maskPut (sget 0 c.m d.toNat) (rows.map fun (i, x) => (i, x.1))) },
     { flags := flagsOf (rows.map fun (i, x) => (i, x.2)) })

def performUnary (c : Ctx) (op : UnaryOp) (d a : BitVec 5) (k : BitVec 3) : Ctx × Done :=
  let o := c.av.operand a
  let rows := (activeElems c k).map fun i => (i, unaryElem op o.tag (vget c.v o.reg o.width i))
  ({ c with v := vputs c.v d.toNat o.width (rows.map fun (i, x) => (i, x.1)) }, { flags := flagsOf (rows.map fun (i, x) => (i, x.2)) })

/-- The rounding mode of a conversion form; none draws from the generator (R109, R110). -/
def cvtMode (rm : RM) : CvtMode → Option RM
  | .dyn => some rm | .rne => some .rne | .rtz => some .rtz | .rdn => some .rdn | .rup => some .rup | .rmm => some .rmm | .sr => none

/-- Stochastic conversion of a list of elements, one draw each in order. -/
def stochasticRows (src dst : Nat) (f : Nat → Nat) : List Nat → Nat → List (Nat × Nat × FFlags) × Nat
  | [], g => ([], g)
  | i :: r, g =>
    let g1 := gDraw g
    let x := convertStochastic src dst g1 (f i)
    let (rows, g2) := stochasticRows src dst f r g1
    ((i, x) :: rows, g2)

def performCvt (c : Ctx) (rm : RM) (mode : CvtMode) (d a : BitVec 5) (k : BitVec 3) : Ctx × Done :=
  let oa := c.av.operand a
  let od := c.av.operand d
  let act := activeElems c k
  let src := fun i => vget c.v oa.reg oa.width i
  let (rows, g) := match cvtMode rm mode with
    | some m => (act.map fun i => (i, convertElem oa.tag od.tag m (src i)), c.g.toNat)
    | none => stochasticRows oa.tag od.tag src act c.g.toNat
  ({ c with v := vputs c.v od.reg od.width (rows.map fun (i, x) => (i, x.1)), g := BitVec.ofNat 32 g },
   { flags := flagsOf (rows.map fun (i, x) => (i, x.2)) })

def performQuant (c : Ctx) (rm : RM) (down : Bool) (d a b : BitVec 5) (k : BitVec 3) : Ctx × Done :=
  let oa := c.av.operand a
  let od := c.av.operand d
  let ob := c.av.operand b
  let len := max 1 (blockLength ob (if down then od.width else oa.width))
  let rows := (activeElems c k).map fun i =>
    (i, (if down then quantElem else dequantElem) oa.tag od.tag ob.tag rm (vget c.v oa.reg oa.width i)
        (vget c.v ob.reg ob.width (i / len)))
  ({ c with v := vputs c.v od.reg od.width (rows.map fun (i, x) => (i, x.1)) }, { flags := flagsOf (rows.map fun (i, x) => (i, x.2)) })

/-- Mask algebra on all 8,192 bits (R106). -/
def maskAlg (op : MaskOp) (x y : BitVec 8192) : BitVec 8192 :=
  match op with
  | .and => x &&& y | .or => x ||| y | .xor => x ^^^ y | .andn => x &&& ~~~y | .orn => x ||| ~~~y

/-- The bits of ma that `mpopc` and `mfirst` look at: below `vl`, and where mk is set. -/
def maskHits (c : Ctx) (a : BitVec 5) (k : BitVec 3) : List Nat :=
  (activeFrom c k 0).filter fun i => (sget 0 c.m a.toNat).getLsbD i

/-- Element `j` of an operand as a permute's source: 0 at or above VLMAX (R112). -/
def permSource (c : Ctx) (o : Operand) (j : Nat) : Nat := if j < o.vlmax then vget c.v o.reg o.width j else 0

/-- Elements that a permute writes (Table 4.7): index and value. -/
def slideUpRows (c : Ctx) (o : Operand) (n : Nat) (k : BitVec 3) : List (Nat × Nat) :=
  ((activeFrom c k 0).filter fun i => decide (n ≤ i)).map fun i => (i, permSource c o (i - n))
def slideDownRows (c : Ctx) (o : Operand) (n : Nat) (k : BitVec 3) : List (Nat × Nat) :=
  (activeFrom c k 0).map fun i => (i, permSource c o (i + n))
def gatherRows (c : Ctx) (o ob : Operand) (k : BitVec 3) : List (Nat × Nat) :=
  (activeFrom c k 0).map fun i => (i, permSource c o (vget c.v ob.reg ob.width i))
def compressRows (c : Ctx) (o : Operand) (k : BitVec 3) : List (Nat × Nat) :=
  (activeFrom c k 0).mapIdx fun n j => (n, permSource c o j)
def expandRows (c : Ctx) (o : Operand) (k : BitVec 3) : List (Nat × Nat) :=
  (activeFrom c k 0).mapIdx fun n i => (i, permSource c o n)

/-- Values and merged flags of a reduction. -/
abbrev Acc := Nat × FFlags

def redStep (op : ArithOp) (rm : RM) (p : Nat) (x : Acc) (y : Acc) : Acc :=
  let (r, f) := arithElem op rm p p p p x.1 y.1 0
  (r, (x.2.merge y.2).merge f)

/-- One round of the pairwise tree of `vredsum` (R113). -/
def pairUp (rm : RM) (p : Nat) : List Acc → List Acc
  | x :: y :: r => redStep .add rm p x y :: pairUp rm p r
  | l => l

/-- Rounds until one entry is left: 14 rounds reduce any list a register can hold. -/
def pairwise (rm : RM) (p : Nat) : Nat → List Acc → List Acc
  | 0, l => l
  | n + 1, l => pairwise rm p n (pairUp rm p l)

def reduceElems (op : RedOp) (rm : RM) (p : Nat) (init : Acc) (l : List Acc) : Acc :=
  match op with
  | .sumo => l.foldl (redStep .add rm p) init
  | .sum => match pairwise rm p 14 l with
    | x :: _ => redStep .add rm p init x
    | [] => init
  | .min => l.foldl (redStep .min rm p) init
  | .max => l.foldl (redStep .max rm p) init

/-- A register reduction (R113).  It acts from element 0 whatever `vstart` holds, and with no active element it writes vb[0]: R97 says both that
reductions ignore `vstart` and that with `vstart` ≥ `vl` no element is performed, and the model takes the first. -/
def performReduce (c : Ctx) (rm : RM) (op : RedOp) (d a b : BitVec 5) (k : BitVec 3) : Ctx × Done :=
  let oa := c.av.operand a
  let ob := c.av.operand b
  match promote oa.tag ob.tag with
  | none => (c, {})
  | some p =>
    let l := (activeFrom c k 0).map fun i => operandP oa.tag p rm (vget c.v oa.reg oa.width i)
    let r := reduceElems op rm p (operandP ob.tag p rm (vget c.v ob.reg ob.width 0)) l
    ({ c with v := vput c.v d.toNat (tagWidth p) 0 r.1 }, { flags := flagsOf [(0, r.2)] })

/-- Sign- or zero-extension of an element to a scalar (R112). -/
def elemWord (t x : Nat) : Word := if tagSigned t then BitVec.ofInt 64 (intOf t x) else BitVec.ofNat 64 x

/-- Perform a register-only form over the architectural view of the tile. -/
def performRegister (c : Ctx) (reg : BitVec 5 → Word) (rm : RM) : EngOp → Ctx × Done
  | .arith op d a b k => performArith c reg rm op d a b k
  | .cmp op d a b k => performCmp c reg rm op d a b k
  | .unary op d a k => performUnary c op d a k
  | .cvt mode d a k => performCvt c rm mode d a k
  | .quant d a b k => performQuant c rm true d a b k
  | .dequant d a b k => performQuant c rm false d a b k
  | .maskOp op d a b => ({ c with m := sput c.m d.toNat (maskAlg op (sget 0 c.m a.toNat) (sget 0 c.m b.toNat)) }, {})
  | .maskNot d a => ({ c with m := sput c.m d.toNat (~~~ (sget 0 c.m a.toNat)) }, {})
  | .maskPopc d a k => (c, { dests := [(d, BitVec.ofNat 64 (maskHits c a k).length)] })
  | .maskFirst d a k => (c, { dests := [(d, match maskHits c a k with | i :: _ => BitVec.ofNat 64 i | [] => -1)] })
  | .maskSet d => ({ c with m := sput c.m d.toNat (BitVec.ofNat 8192 (2 ^ c.av.vl - 1)) }, {})
  | .maskClr d => ({ c with m := sput c.m d.toNat 0 }, {})
  | .slideUp d a b k =>
    let o := c.av.operand a
    ({ c with v := vputs c.v d.toNat o.width (slideUpRows c o (reg b).toNat k) }, {})
  | .slideDown d a b k =>
    let o := c.av.operand a
    ({ c with v := vputs c.v d.toNat o.width (slideDownRows c o (reg b).toNat k) }, {})
  | .gather d a b k =>
    let o := c.av.operand a
    ({ c with v := vputs c.v d.toNat o.width (gatherRows c o (c.av.operand b) k) }, {})
  | .compress d a k =>
    let o := c.av.operand a
    ({ c with v := vputs c.v d.toNat o.width (compressRows c o k) }, {})
  | .expand d a k =>
    let o := c.av.operand a
    ({ c with v := vputs c.v d.toNat o.width (expandRows c o k) }, {})
  | .bcast d a k =>
    let o := c.av.operand d
    ({ c with v := vputs c.v d.toNat o.width ((activeFrom c k 0).map fun i => (i, (reg a).toNat % 2 ^ o.width)) }, {})
  | .extract d a b =>
    let o := c.av.operand a
    (c, { dests := [(d, elemWord o.tag (permSource c o (reg b).toNat))] })
  | .insert d a b =>
    let o := c.av.operand d
    (if (reg b).toNat < o.vlmax then { c with v := vput c.v d.toNat o.width (reg b).toNat ((reg a).toNat % 2 ^ o.width) } else c, {})
  | .reduce op d a b k => performReduce c rm op d a b k
  | _ => (c, {})

end Sys2Proof.Machine
end

