-- ==== Sys2Proof/Machine/VecMem.lean ====
section
/-! DEFINITION. The vector memory forms (R114 to R122, R246, R272): what they do element by element when they are performed. -/

namespace Sys2Proof.Machine

/-! ### Performing an entry -/

/-- How the performance of an engine entry ends: done; a trap or a stall at a resume index (Table 21.1). -/
inductive PEnd where
  | done (d : Done)
  | trap (resume : Nat) (t : Trap)
  | stall (resume : Nat) (w : WaitKind)

structure Perf where
  st   : State
  fin  : PEnd
  /-- tag that a `vldt` has read (R119) -/
  rtag : Option (BitVec 5) := none
  /-- flags that the elements before a stall or a trap have raised (R22) -/
  flags : List (Option Nat) := []

def perfDone (s : State) (d : Done := {}) : Perf := { st := s, fin := .done d }
def perfTrap (s : State) (t : Trap) : Perf := { st := s, fin := .trap 0 t }

/-- How a run over elements ends. -/
inductive LoopEnd where
  | done | trap (i : Nat) (t : Trap) | stall (i : Nat) (w : WaitKind)

/-- Run `f` over the indices in order; an index that does not complete leaves the state before it (R117). -/
def elemRun (f : Nat → M Unit) : List Nat → State → State × LoopEnd
  | [], s => (s, .done)
  | i :: r, s => match f i s with
    | .ok _ s' => elemRun f r s'
    | .error (.trap t) _ => (s, .trap i t)
    | .error (.wait w) _ => (s, .stall i w)

/-- The agent of an element access of tile `t` through stream register `k`: the engine queue, no strand slot (R82). -/
def engineAgent (t : Nat) (k : Option Nat) : Agent := { tile := some t, slot := none, stream := k }

/-- The agents of the matrix engines, of the copies and of the fabric of a tile. -/
def matrixAgent (t : Nat) : Agent := { tile := some t, queue := 1 }
def copyAgent (t : Nat) : Agent := { tile := some t, queue := 2 }
def fabricAgent (t : Nat) : Agent := { tile := some t, queue := 3 }

/-! ### Stream registers as operands (R114, R115, R270) -/

/-- Traps of a stream register that a form reads or writes (R115). -/
def streamTrap (st : Stream) (write : Bool) : Option Trap :=
  if !st.isOpen then some { cause := cPROT, sub := 1 }
  else if (if write then st.intent.getLsbD 1 else st.intent.getLsbD 0) then none
  else some { cause := cPROT, sub := 2 }

/-- Does an element of `n` bytes at `ea` lie outside the stream's range (R117, R270)? -/
def Stream.beyond (st : Stream) (ea : Word) (n : Nat) : Bool := decide (st.ext.toNat < (ea - st.addr).toNat + n)

/-- Bytes of an element access of width `w`. -/
def elemBytes (w : Nat) : Nat := max 1 (w / 8)

/-- An `XFER` of an element names the element's address (R117). -/
def atAddress {α : Type} (ea : Word) (m : M α) : M α := fun s =>
  match m s with
  | .error (.trap t) s1 => .error (.trap (if t.cause = cXFER then { t with tva := tvaOf ea } else t)) s1
  | r => r

/-- The checks of an element access through stream register `k`.  Its page, once translated, is registered if the stream is reserved (R443): a
walk that sets D writes the leaf, which would end a registration made before. -/
def elemPlace (t : Nat) (k : Option Nat) (ea : Word) (w : Nat) (acc : Access) : M Place := do
  let p ← atAddress ea (placeFor t 0 (engineAgent t k) ea (elemBytes w) acc)
  match k with
  | some k => ensureRegistered t k ea.toNat
  | none => pure ()
  return p

/-- One element read at a checked place; `nib` selects the nibble of a 4-bit element.  Scratchpad bytes become pinned (R189). -/
def elemGet (t : Nat) (k : Option Nat) (p : Place) (w nib : Nat) : M Nat := do
  let x := leNat (← readPlace (engineAgent t k) p (elemBytes w))
  match p with
  | .spd h off => modify (pinBytes t h off (elemBytes w))
  | .mem _ _ _ => pure ()
  return if w = 4 then fieldOf x (4 * (nib % 2)) 4 else x

/-- One element write at a checked place; a 4-bit element keeps the other nibble of its byte (R114). -/
def elemPut (t : Nat) (k : Option Nat) (p : Place) (w nib v : Nat) : M Unit := do
  let ag := engineAgent t k
  if w = 4 then
    let s ← get
    let old := match p with
      | .spd h off => (cellGet (s.tile h).spd off).toNat
      | .mem pa _ _ => (cellGet s.mem pa).toNat
    let new := if nib % 2 = 0 then old / 16 * 16 + v % 16 else old % 16 + 16 * (v % 16)
    writePlace t ag p (natLe 1 new)
  else writePlace t ag p (natLe (w / 8) v)

def elemRead (t : Nat) (k : Option Nat) (ea : Word) (w nib : Nat) : M Nat := do
  let p ← elemPlace t k ea w .read
  elemGet t k p w nib

def elemWrite (t : Nat) (k : Option Nat) (ea : Word) (w nib v : Nat) : M Unit := do
  let p ← elemPlace t k ea w .write
  elemPut t k p w nib v

/-! ### Windows of the strided forms (R182, R184) -/

/-- Bank of a scratchpad offset (R182). -/
def spdBank (off : Nat) : Nat := (off / 64 % 32) ^^^ (off / 2048 % 32)

def placeBank : Place → Nat
  | .spd _ off => spdBank off
  | .mem _ _ _ => 0

/-- Windows of a rising list of elements: those with the same i div 32. -/
def windowsOf : List Nat → List (List Nat)
  | [] => []
  | i :: r => match windowsOf r with
    | (j :: w) :: ws => if j / 32 = i / 32 then (i :: j :: w) :: ws else [i] :: (j :: w) :: ws
    | ws => [i] :: ws

/-- Check the elements of a window in order, up to the lowest that faults or must wait. -/
def checkWindow {α : Type} (chk : Nat → M α) : List Nat → State → List (Nat × α) × State × LoopEnd
  | [], s => ([], s, .done)
  | i :: r, s => match chk i s with
    | .ok p s1 => let (ps, s2, e) := checkWindow chk r s1; ((i, p) :: ps, s2, e)
    | .error (.trap t) _ => ([], s, .trap i t)
    | .error (.wait w) _ => ([], s, .stall i w)

/-- Perform checked elements in order; one that does not complete leaves the state before it. -/
def placeRun (act : Nat → Place → M Unit) : List (Nat × Place) → State → State × LoopEnd
  | [], s => (s, .done)
  | (i, p) :: r, s => match act i p s with
    | .ok _ s1 => placeRun act r s1
    | .error (.trap t) _ => (s, .trap i t)
    | .error (.wait w) _ => (s, .stall i w)

def insertBank (a : Nat × Place) : List (Nat × Place) → List (Nat × Place)
  | [] => [a]
  | b :: r => if placeBank b.2 < placeBank a.2 then b :: insertBank a r else a :: b :: r

/-- Ascending bank order, and within one bank ascending element order: overlapping bytes lie in one bank. -/
def bankOrder (ps : List (Nat × Place)) : List (Nat × Place) := ps.foldr insertBank []

/-- Perform the checked elements of a window in bank order; when one of them cannot complete, the window stops at the lowest such element. -/
def performWindow (act : Nat → Place → M Unit) (ps : List (Nat × Place)) (s : State) : State × LoopEnd :=
  match placeRun act (bankOrder ps) s with
  | (s1, .done) => (s1, .done)
  | _ => placeRun act ps s

/-- The windows of a strided form, one after another: every check of a window precedes its first access. -/
def windowRun (chk : Nat → M Place) (act : Nat → Place → M Unit) : List (List Nat) → State → State × LoopEnd
  | [], s => (s, .done)
  | w :: r, s =>
    let (ps, s1, stop) := checkWindow chk w s
    match performWindow act ps s1, stop with
    | (s2, .done), .done => windowRun chk act r s2
    | (s2, .done), e => (s2, e)
    | (s2, e), _ => (s2, e)

/-- A trap at element `i`: `telem` is the element (R117). -/
def atElem (i : Nat) (t : Trap) : Trap := { t with telem := BitVec.ofNat 15 i }

/-- Result of a load's run: a trim where R117 and R118 shorten `vl`, else the trap or the stall. -/
def loadEnd (ff : Bool) (vl : Nat) (s : State) (e : LoopEnd) (advance : State → Nat → State) : Perf :=
  match e with
  | .done => perfDone (advance s vl)
  | .trap i t =>
    if 0 < i ∧ (ff ∨ (t.cause = cPROT ∧ t.sub = 7) ∨ t.cause = cSPDRANGE) then { st := advance s i, fin := .done { trim := some i } }
    else { st := s, fin := .trap i (atElem i t) }
  | .stall i w => { st := s, fin := .stall i w }

def storeEnd (s : State) (e : LoopEnd) (d : Done) (advance : State → State) : Perf :=
  match e with
  | .done => perfDone (advance s) d
  | .trap i t => { st := s, fin := .trap i (atElem i t) }
  | .stall i w => { st := s, fin := .stall i w }

/-- Advance the position of stream `k` of tile `t` by `n` elements of stride `stride` (R114); the walk-ahead follows it (R310). -/
def advanceStream (t k w : Nat) (stride : Word) (s : State) (n : Nat) : State :=
  let st := (s.tile t).stream k
  let by' : Word := if w = 4 then BitVec.ofNat 64 ((n + 1) / 2) else BitVec.ofNat 64 n * stride
  walkAhead t k (s.setTile t ((s.tile t).setStream k { st with pos := st.pos + by' }))

/-- Address of element `i` of a form (Table 4.8). -/
def elemAddr (c : Ctx) (st : Stream) (reg : BitVec 5 → Word) (form : MemForm) (w i : Nat) : Word :=
  match form with
  | .strided b => st.current + BitVec.ofNat 64 i * reg b
  | .indexed b =>
    let o := c.av.operand b
    st.current + BitVec.ofInt 64 (intOf o.tag (vget c.v o.reg o.width i))
  | _ => if w = 4 then st.current + BitVec.ofNat 64 (i / 2) else st.current + BitVec.ofNat 64 i * st.es.signExtend 64

/-- Stride by which a form advances, none where it does not (R114). -/
def advanceStride (st : Stream) (reg : BitVec 5 → Word) : MemForm → Option Word
  | .strided b => some (reg b)
  | .indexed _ => none
  | _ => some (st.es.signExtend 64)

/-- Is the page of `ea` one with NS set (R118)? -/
def pageNs (s : State) (t : Nat) (ea : Word) : Bool :=
  match classify ea with
  | some (.virt va) => match probe s ((s.tile t).part.getD 0) va .read with
    | .ok l => l.ns
    | .error _ => false
  | _ => false

/-! ### Ports and channels as streams (R121, R246, R272) -/

def Fabric.outQueue (f : Fabric) (p : Nat) : List Token := sget [] f.outq p
def Fabric.inQueue (f : Fabric) (p : Nat) : List Token := sget [] f.inq p

/-- Element `i` of `vld` from a fabric port (R246): a stall on an empty out-queue. -/
def portLoadElem (t p : Nat) (d : Operand) (i : Nat) : M Unit := do
  let c := ((← get).tile t).ctx
  match c.fabric.outQueue p with
  | [] => throw (.wait .port)
  | x :: r =>
    if x.kind = .eos then throw (.trap { cause := 0, sub := 0xFF })
    modify fun s => updCtx t (fun c => { c with
      v := vput c.v d.reg d.width i (x.val.toNat % 2 ^ d.width), fabric := { c.fabric with outq := sput c.fabric.outq p r } }) s

/-- An EOS head at element `i` is removed, sets E and trims `vl` (R246). -/
def portLoad (t p : Nat) (d : Operand) (act : List Nat) (s : State) : Perf :=
  match elemRun (portLoadElem t p d) act s with
  | (s', .trap i _) =>
    let drop := fun (f : Fabric) => { f with outq := sput f.outq p (f.outQueue p).tail, ebits := setField f.ebits p 1 1 }
    perfDone (updCtx t (fun c => { c with fabric := drop c.fabric }) s') { trim := some i }
  | (s', .done) => perfDone s'
  | (s', .stall i w) => { st := s', fin := .stall i w }

/-- The 64-bit extension of an element (R196). -/
def tokenValue (tag x : Nat) : Word := elemWord tag x

def portStoreElem (t p : Nat) (d : Operand) (i : Nat) : M Unit := do
  let c := ((← get).tile t).ctx
  let q := c.fabric.inQueue p
  if 8 ≤ q.length then throw (.wait .port)
  modify (updCtx t fun c => { c with fabric := { c.fabric with
    inq := sput c.fabric.inq p (q ++ [{ val := tokenValue d.tag (vget c.v d.reg d.width i) }]) } })

/-- Remove the oldest word of channel `ch` of tile `t`. -/
def takeWord (t ch : Nat) : M (BitVec 512) := do
  let x := (← get).tile t
  match (x.chan ch).take with
  | none => throw (.wait .port)
  | some (e, c') =>
    modify fun s => s.setTile t ((s.tile t).setChan ch { c' with expected := e.seq + 1 })
    return e.pay

/-- Words of the elements from `lo` to `hi` − 1: lists of at most `per` indices (R121). -/
def wordRuns (per : Nat) : Nat → Nat → Nat → List (List Nat)
  | 0, _, _ => []
  | n + 1, lo, hi => if lo < hi then ((List.range (min per (hi - lo))).map (· + lo)) :: wordRuns per n (lo + per) hi else []

def headIndex (run : List Nat) : Nat := run.headD 0

/-- Element `i` of a word whose first element is `lo`. -/
def wordElem (w lo i : Nat) (pay : BitVec 512) : Nat := fld pay ((i - lo) * w) w

/-- Elements of one word, masked-off ones left out: index and value. -/
def wordRows (c : Ctx) (w : Nat) (k : BitVec 3) (run : List Nat) (pay : BitVec 512) : List (Nat × Nat) :=
  (run.filter (maskBit c.m k)).map fun i => (i, wordElem w (headIndex run) i pay)

/-- Take one word and write its elements. -/
def chanLoadWord (t ch : Nat) (d : Operand) (k : BitVec 3) (run : List Nat) : M Unit := do
  let pay ← takeWord t ch
  modify (updCtx t fun c => { c with v := vputs c.v d.reg d.width (wordRows c d.width k run pay) })

/-- `vld` from a receive channel (R121): one word at a time. -/
def chanLoad (t ch : Nat) (d : Operand) (k : BitVec 3) (s : State) : Perf :=
  let c := (s.tile t).ctx
  if (((s.tile t).chan ch).tag ≠ d.tag) then { st := s, fin := .trap c.av.vstart { cause := cRSVD } }
  else
    let per := 512 / d.width
    let runs := wordRuns per (c.av.vl + 1) c.av.vstart c.av.vl
    match elemRun (fun n => chanLoadWord t ch d k (runs.getD n [])) (List.range runs.length) s with
    | (s', .done) => perfDone s'
    | (s', .stall n w) => { st := s', fin := .stall (headIndex (runs.getD n [])) w }
    | (s', .trap n t) => { st := s', fin := .trap (headIndex (runs.getD n [])) t }

/-- Split a list into runs of `per`. -/
def chunks {α : Type} (per : Nat) : Nat → List α → List (List α)
  | 0, _ => []
  | n + 1, l => if l.isEmpty then [] else l.take per :: chunks per n (l.drop per)

/-- Bytes of one payload: elements packed from bit 0, completed with zeros (R272). -/
def packElems (w : Nat) : List Nat → Nat
  | [] => 0
  | x :: r => x % 2 ^ w + 2 ^ w * packElems w r

/-- `vst` to a send channel (R272). -/
def sendElems (t st : Nat) (d : Operand) (act : List Nat) (s : State) : State :=
  let c := (s.tile t).ctx
  let ch := ((s.tile t).stream st).ch.toNat
  (chunks (512 / d.width) (act.length + 1) act).foldl
    (fun s run => inject s t st ch (natLe 64 (packElems d.width (run.map fun i => vget c.v d.reg d.width i)))) s

/-! ### The loads and stores over memory and scratchpad (R114 to R118) -/

/-- The checks of element `i`: its extent, before its address class and its alignment, then the access's own (R117). -/
def elemCheck (t k : Nat) (reg : BitVec 5 → Word) (form : MemForm) (w : Nat) (acc : Access) (i : Nat) : M Place := do
  let s ← get
  let ea := elemAddr (s.tile t).ctx ((s.tile t).stream k) reg form w i
  if ((s.tile t).stream k).beyond ea (elemBytes w) then throw (.trap { cause := cPROT, sub := 7, tva := tvaOf ea })
  if form = .firstFault ∧ 0 < i ∧ pageNs s t ea then throw (.trap { cause := cPROT, sub := 7, tva := tvaOf ea })
  elemPlace t (some k) ea w acc

def loadAt (t k : Nat) (d : Operand) (i : Nat) (p : Place) : M Unit := do
  let x ← elemGet t (some k) p d.width i
  modify (updCtx t fun c => { c with v := vput c.v d.reg d.width i x })

def storeAt (t k : Nat) (d : Operand) (i : Nat) (p : Place) : M Unit := do
  elemPut t (some k) p d.width i (vget ((← get).tile t).ctx.v d.reg d.width i)

/-- The active elements of a load or a store: the strided forms by windows (R184), the others one by one. -/
def formRun (form : MemForm) (chk : Nat → M Place) (act : Nat → Place → M Unit) (l : List Nat) (s : State) : State × LoopEnd :=
  match form with
  | .strided _ => windowRun chk act (windowsOf l) s
  | _ => elemRun (fun i => do act i (← chk i)) l s

/-- A load through a stream register.  POS of a KIND 3 register is left alone; R272 names only `vld` for a receive channel, and the other forms
raise `RSVD` there as they do for a port (R246). -/
def performLoad (t : Nat) (reg : BitVec 5 → Word) (form : MemForm) (d a : BitVec 5) (k : BitVec 3) (s : State) : Perf :=
  let c := (s.tile t).ctx
  let st := (s.tile t).stream a.toNat
  let o := c.av.operand d
  let act := activeElems c k
  match streamTrap st false with
  | some tr => { st := s, fin := .trap c.av.vstart tr }
  | none =>
    if st.kind = 2 ∧ form = .unit then portLoad t st.port.toNat o act s
    else if st.kind = 3 ∧ form = .unit then chanLoad t st.ch.toNat o k s
    else if 2 ≤ st.kind.toNat then { st := s, fin := .trap c.av.vstart { cause := cRSVD } }
    else
      let (s', e) := formRun form (elemCheck t a.toNat reg form o.width .read) (loadAt t a.toNat o) act s
      loadEnd (form = .firstFault) c.av.vl s' e fun s n => match advanceStride st reg form with
        | some stride => advanceStream t a.toNat (if form = .unit ∨ form = .firstFault then o.width else 8) stride s n
        | none => s

/-- A store through a stream register.  POS of a KIND 4 register is left alone, and so it is for a port (R246). -/
def performStore (t : Nat) (reg : BitVec 5 → Word) (form : MemForm) (d a : BitVec 5) (k : BitVec 3) (s : State) : Perf :=
  let c := (s.tile t).ctx
  let st := (s.tile t).stream a.toNat
  let o := c.av.operand d
  let act := activeElems c k
  match streamTrap st true with
  | some tr => { st := s, fin := .trap c.av.vstart tr }
  | none =>
    if st.kind = 2 ∧ form = .unit then
      let (s', e) := elemRun (portStoreElem t st.port.toNat o) act s
      storeEnd s' e {} id
    else if st.kind = 4 ∧ form = .unit then perfDone (sendElems t a.toNat o act s)
    else if 2 ≤ st.kind.toNat then { st := s, fin := .trap c.av.vstart { cause := cRSVD } }
    else
      let (s', e) := formRun form (elemCheck t a.toNat reg form o.width .write) (storeAt t a.toNat o) act s
      storeEnd s' e {} fun s => match advanceStride st reg form with
        | some stride => advanceStream t a.toNat (if form = .unit then o.width else 8) stride s c.av.vl
        | none => s

/-! ### Shape-record forms (R119) -/

/-- Element `i` of the shape record in `va`. -/
def shapeElem (c : Ctx) (a : BitVec 5) (i : Nat) : Nat := vget c.v a.toNat 64 i

/-- The record's own traps: reserved values, then the stride. -/
def shapeTrap (c : Ctx) (a : BitVec 5) : Option Trap :=
  let e1 := shapeElem c a 1
  let tag := e1 % 32
  let n := fieldOf e1 8 4
  let d0 := signed 64 (shapeElem c a 14)
  if !legalTag (BitVec.ofNat 5 tag) || n = 0 || 12 < n || fieldOf e1 5 3 != 0 || fieldOf e1 12 52 != 0 then some { cause := cRSVD }
  else if (if tagWidth tag = 4 then d0 != 0 else d0 % (tagWidth tag / 8 : Nat) != 0) then some { cause := cMISALIGN }
  else none

/-- Address of element `i` of the innermost run. -/
def shapeAddr (c : Ctx) (a : BitVec 5) (w i : Nat) : Word :=
  let b := BitVec.ofNat 64 (shapeElem c a 0)
  if w = 4 then b + BitVec.ofNat 64 (i / 2) else b + BitVec.ofNat 64 i * BitVec.ofNat 64 (shapeElem c a 14)

/-- Element `i` of a `vldt`, into the group at register `d`. -/
def shapeLoadElem (t : Nat) (a : BitVec 5) (d w i : Nat) : M Unit := do
  let x ← elemRead t none (shapeAddr ((← get).tile t).ctx a w i) w i
  modify (updCtx t fun c => { c with v := vput c.v d w i x })

def shapeStoreElem (t : Nat) (a : BitVec 5) (d : Operand) (i : Nat) : M Unit := do
  let c := ((← get).tile t).ctx
  elemWrite t none (shapeAddr c a d.width i) d.width i (vget c.v d.reg d.width i)

/-- The length after the trim to e0, and the active elements below it. -/
def shapeLength (c : Ctx) (a : BitVec 5) : Nat := min c.av.vl (shapeElem c a 2)

def performVldt (t : Nat) (d a : BitVec 5) (k : BitVec 3) (s : State) : Perf :=
  let c := (s.tile t).ctx
  match shapeTrap c a with
  | some tr => { st := s, fin := .trap c.av.vstart tr }
  | none =>
    let tag := shapeElem c a 1 % 32
    let o : Operand := { c.av.operand d with tag := tag, ratio := 0 }
    let n := shapeLength c a
    let rt := some (BitVec.ofNat 5 tag)
    if o.reg % o.group ≠ 0 ∨ o.vlmax < n then { st := s, fin := .trap c.av.vstart { cause := cRSVD }, rtag := rt }
    else
      let trim : Option Nat := if n < c.av.vl then some n else none
      match elemRun (shapeLoadElem t a o.reg o.width) ((activeElems c k).filter fun i => decide (i < n)) s with
      | (s', .done) => { st := s', fin := .done { trim := trim }, rtag := rt }
      | (s', .trap i tr) =>
        if 0 < i ∧ tr.cause = cSPDRANGE then { st := s', fin := .done { trim := some i }, rtag := rt }
        else { st := s', fin := .trap i (atElem i tr), rtag := rt }
      | (s', .stall i w) => { st := s', fin := .stall i w, rtag := rt }

/-- `vstt`: a vs whose tag is not the record's raises `RSVD`, after the record's own traps. -/
def performVstt (t : Nat) (d a : BitVec 5) (k : BitVec 3) (s : State) : Perf :=
  let c := (s.tile t).ctx
  match shapeTrap c a with
  | some tr => { st := s, fin := .trap c.av.vstart tr }
  | none =>
    let o := c.av.operand d
    let n := shapeLength c a
    if o.tag ≠ shapeElem c a 1 % 32 then { st := s, fin := .trap c.av.vstart { cause := cRSVD } }
    else
      let (s', e) := elemRun (shapeStoreElem t a o) ((activeElems c k).filter fun i => decide (i < n)) s
      storeEnd s' e { trim := if n < c.av.vl then some n else none } id

/-! ### Memory-to-memory element operations (R120, R121) -/

/-- One result element; the element operations of Table 4.5 in tag `t`, unpromoted. -/
def vmmElem (op : VmmOp) (rm : RM) (t x y : Nat) : Nat × FFlags :=
  let f := fun o => arithElem o rm t t t t x y 0
  match op with
  | .add => f .add | .sub => f .sub | .mul => f .mul | .min => f .min | .max => f .max
  | .and => f .and | .or => f .or | .xor => f .xor
  | .cpy => (x, {})

/-- Does the operation read stream B? -/
def VmmOp.reads2 : VmmOp → Bool
  | .cpy => false | _ => true

/-- Read element `i` of a source stream: from its channel word, or from its memory. -/
def vmmSource (t k w i : Nat) (word : Option (Nat × BitVec 512)) : M Nat := do
  match word with
  | some (lo, pay) => return wordElem w lo i pay
  | none =>
    let st := ((← get).tile t).stream k
    let ea := elemAddr {} st (fun _ => 0) .unit w i
    if st.beyond ea (elemBytes w) then throw (.trap { cause := cPROT, sub := 7, tva := tvaOf ea })
    elemRead t (some k) ea w i

/-- One result element of a `vmm`, read, computed and written; its flags. -/
def vmmOne (t : Nat) (rm : RM) (op : VmmOp) (d a b : Nat) (tag i : Nat) (wa wb : Option (Nat × BitVec 512)) : M FFlags := do
  let w := tagWidth tag
  let x ← vmmSource t a w i wa
  let y ← if op.reads2 then vmmSource t b w i wb else pure 0
  let (r, f) := vmmElem op rm tag x y
  let st := ((← get).tile t).stream d
  let ea := elemAddr {} st (fun _ => 0) .unit w i
  if st.beyond ea (elemBytes w) then throw (.trap { cause := cPROT, sub := 7, tva := tvaOf ea })
  elemWrite t (some d) ea w i r
  return f

/-- Run the elements of one word (or a single element); returns the flags, or the element that stopped it. -/
def vmmRun (g : Nat → M FFlags) : List Nat → List (Option Nat) → State → State × LoopEnd × List (Option Nat)
  | [], fl, s => (s, .done, fl)
  | i :: r, fl, s => match g i s with
    | .ok f s' => vmmRun g r (mergeFlags fl i f) s'
    | .error (.trap t) _ => (s, .trap i t, fl)
    | .error (.wait w) _ => (s, .stall i w, fl)

/-- Take the words that a run of elements needs: both sources or neither (R121). -/
def vmmWords (t lo : Nat) (chA chB : Option Nat) : M (Option (Nat × BitVec 512) × Option (Nat × BitVec 512)) := do
  let wa ← match chA with
    | some c => (do let p ← takeWord t c; return some (lo, p))
    | none => pure none
  let wb ← match chB with
    | some c => (do let p ← takeWord t c; return some (lo, p))
    | none => pure none
  return (wa, wb)

/-- The scratchpad accesses of element `i` of a `vmm`, checked (R184): D's, A's and B's, the destination's marked. -/
def vmmPlaces (t : Nat) (op : VmmOp) (d a b w i : Nat) : M (List (Bool × Place)) := do
  let side := fun (k : Nat) (acc : Access) => (do
    let st := ((← get).tile t).stream k
    let ea := elemAddr {} st (fun _ => 0) .unit w i
    match classify ea with
    | some (.spd ..) =>
      if st.beyond ea (elemBytes w) then throw (.trap { cause := cPROT, sub := 7, tva := tvaOf ea })
      return [(decide (acc = .write), ← elemPlace t (some k) ea w acc)]
    | _ => return [] : M (List (Bool × Place)))
  let pa ← side a .read
  let pb ← if op.reads2 then side b .read else pure []
  let pd ← side d .write
  return pd ++ pa ++ pb

/-- Do two scratchpad accesses of `n` bytes meet, one of them a write? -/
def placesMeet (n : Nat) (x y : Bool × Place) : Bool :=
  match x, y with
  | (f, .spd h a), (g, .spd k b) => (f || g) && h == k && overlaps a n b n
  | _, _ => false

/-- Does an element of the window write bytes that another one accesses? -/
def windowMeets (n : Nat) : List (Nat × List (Bool × Place)) → Bool
  | [] => false
  | (_, ps) :: r => (r.any fun (_, qs) => ps.any fun p => qs.any (placesMeet n p)) || windowMeets n r

/-- The order of a window's elements: by bank, or by element where their bytes overlap (R120, R184). -/
def vmmOrder (n : Nat) (ps : List (Nat × List (Bool × Place))) : List Nat :=
  if windowMeets n ps then ps.map (·.1)
  else (bankOrder (ps.map fun (i, qs) => (i, match qs with | (_, p) :: _ => p | [] => .mem 0 0 false))).map (·.1)

/-- One window of a `vmm` whose sources are memory and scratchpad: every scratchpad check precedes the first access (R184). -/
def vmmWindow (w : Nat) (g : Nat → M FFlags) (chk : Nat → M (List (Bool × Place))) (l : List Nat) (fl : List (Option Nat)) (s : State) :
    State × LoopEnd × List (Option Nat) :=
  let (ps, s1, stop) := checkWindow chk l s
  match vmmRun g (vmmOrder (elemBytes w) ps) fl s1 with
  | (s2, .done, fl2) => (s2, stop, fl2)
  | _ => match vmmRun g (ps.map (·.1)) fl s1 with
    | (s2, .done, fl2) => (s2, stop, fl2)
    | r => r

/-- The windows of a `vmm`, one after another. -/
def vmmWindows (w : Nat) (g : Nat → M FFlags) (chk : Nat → M (List (Bool × Place))) :
    List (List Nat) → List (Option Nat) → State → State × LoopEnd × List (Option Nat)
  | [], fl, s => (s, .done, fl)
  | l :: r, fl, s => match vmmWindow w g chk l fl s with
    | (s1, .done, fl1) => vmmWindows w g chk r fl1 s1
    | e => e

/-- The runs of a `vmm` that a channel feeds, one after another; a run is done whole or not at all (R121). -/
def vmmRuns (t : Nat) (rm : RM) (op : VmmOp) (d a b tag : Nat) (k : BitVec 3) (chA chB : Option Nat) :
    List (List Nat) → List (Option Nat) → State → State × LoopEnd × List (Option Nat)
  | [], fl, s => (s, .done, fl)
  | run :: rest, fl, s =>
    let lo := headIndex run
    match vmmWords t lo chA chB s with
    | .error (.wait w) _ => (s, .stall lo w, fl)
    | .error (.trap tr) _ => (s, .trap lo tr, fl)
    | .ok (wa, wb) s1 =>
      match vmmRun (fun i => vmmOne t rm op d a b tag i wa wb) (run.filter fun i => maskBit (s.tile t).ctx.m k i) fl s1 with
      | (s2, .done, fl2) => vmmRuns t rm op d a b tag k chA chB rest fl2 s2
      | (_, .trap i tr, _) => (s, .trap lo (atElem i tr), fl)
      | (_, .stall _ w, _) => (s, .stall lo w, fl)

/-- The elements of a `vmm`: by words where a channel feeds it, else by windows. -/
def vmmElems (t : Nat) (rm : RM) (op : VmmOp) (d a b tag : Nat) (k : BitVec 3) (chA chB : Option Nat) (s : State) :
    State × LoopEnd × List (Option Nat) :=
  let c := (s.tile t).ctx
  let w := tagWidth tag
  if chA.isSome ∨ chB.isSome then vmmRuns t rm op d a b tag k chA chB (wordRuns (512 / w) (c.av.vl + 1) c.av.vstart c.av.vl) noFlags s
  else match vmmWindows w (fun i => vmmOne t rm op d a b tag i none none) (vmmPlaces t op d a b w) (windowsOf (activeElems c k)) noFlags s with
    | (s1, .trap i tr, fl) => (s1, .trap i (atElem i tr), fl)
    | r => r

def performVmm (t : Nat) (rm : RM) (op : VmmOp) (d a b : BitVec 5) (k : BitVec 3) (s : State) : Perf :=
  let x := s.tile t
  let c := x.ctx
  let tag := entryTag (c.av.tag 0)
  let w := tagWidth tag
  let sd := x.stream d.toNat
  let sa := x.stream a.toNat
  let sb := x.stream b.toNat
  let bad := match streamTrap sa false, (if op.reads2 then streamTrap sb false else none), streamTrap sd true with
    | some t, _, _ => some t
    | _, some t, _ => some t
    | _, _, some t => some t
    | _, _, _ => none
  let kindOk := fun (st : Stream) => st.kind.toNat ≤ 1 || st.kind = 3
  let tagOk := fun (st : Stream) => st.kind ≠ 3 || (x.chan st.ch.toNat).tag = tag
  let chOf := fun (st : Stream) => if st.kind = 3 then some st.ch.toNat else none
  match bad with
  | some tr => { st := s, fin := .trap c.av.vstart tr }
  | none =>
    if 1 < sd.kind.toNat ∨ !kindOk sa ∨ (op.reads2 ∧ !kindOk sb) ∨ !tagOk sa ∨ (op.reads2 ∧ !tagOk sb) then
      { st := s, fin := .trap c.av.vstart { cause := cRSVD } }
    else
      let chA := chOf sa
      let chB := if op.reads2 then chOf sb else none
      let adv := fun (s : State) (st : Nat) =>
        if ((s.tile t).stream st).kind.toNat ≤ 1 then
          advanceStream t st w (((s.tile t).stream st).es.signExtend 64) s c.av.vl else s
      match vmmElems t rm op d.toNat a.toNat b.toNat tag k chA chB s with
      | (s', .done, fl) =>
        let ks := ([d.toNat, a.toNat] ++ (if op.reads2 then [b.toNat] else [])).eraseDups
        perfDone (ks.foldl adv s') { flags := fl }
      | (s', .trap i tr, fl) => { st := s', fin := .trap i tr, flags := fl }
      | (s', .stall i w, fl) => { st := s', fin := .stall i w, flags := fl }

/-! ### The barrier (R122) -/

/-- First tile and number of tiles of the instance of scope `sc` that holds tile `t` (R19). -/
def scopeTiles (t sc : Nat) : Nat × Nat :=
  match sc with
  | 0 => (t, 1)
  | 1 => (t / 4 * 4, 4)
  | 2 => (t / 256 * 256, 256)
  | _ => (0, 1024)

def launchOf (s : State) (p : Nat) (cid : BitVec 20) : Option Launch := (s.partition p).launches.find? fun l => l.cid = cid

/-- Has every participant made its `n`-th arrival, or exited? -/
def barrierComplete (s : State) (t sc n : Nat) : Bool :=
  match (s.tile t).team with
  | none => true
  | some m =>
    let p := (s.tile t).part.getD 0
    let (lo, cnt) := scopeTiles t sc
    let l := launchOf s p m.cid
    let tiles := (match l with | some l => recordTiles l.words | none => [t]).filter fun u => decide (lo ≤ u) && decide (u < lo + cnt)
    tiles.all fun u =>
      let pending := match l with | some l => l.pending.contains u | none => false
      let here := match (s.tile u).team with | some m' => decide (m'.cid = m.cid) && decide ((s.tile u).part = some p) | none => false
      !pending && (!here || decide (n ≤ sget 0 (s.tile u).ctx.arrivals sc))

def performVfba (t : Nat) (sc : BitVec 3) (s : State) : Perf :=
  let c := (s.tile t).ctx
  let k := sc.toNat
  let s1 := if c.av.vstart = 0 then updCtx t (fun c => { c with arrivals := sput c.arrivals k (sget 0 c.arrivals k + 1) }) s else s
  if barrierComplete s1 t k (sget 0 (s1.tile t).ctx.arrivals k) then perfDone s1 else { st := s1, fin := .stall 1 .barrier }

/-! ### Checks at issue (R98, R119, R120) -/

def memoryFormLegal (v : View) : EngOp → Bool
  | .load .shaped d a _ =>
    let oa := v.operand a
    oa.tag == 0x05 && oa.fits v && !(v.operand d).meets oa
  | .store .shaped d a _ =>
    let oa := v.operand a
    oa.tag == 0x05 && oa.fits v && (v.operand d).fits v
  | .load (.strided _) d _ _ => (v.operand d).fits v && (v.operand d).width != 4
  | .store (.strided _) d _ _ => (v.operand d).fits v && (v.operand d).width != 4
  | .load (.indexed b) d _ _ =>
    (v.operand d).fits v && (v.operand d).width != 4 && tagIsInt (v.operand b).tag && (v.operand b).fits v
      && !(v.operand d).meets (v.operand b)
  | .store (.indexed b) d _ _ =>
    (v.operand d).fits v && (v.operand d).width != 4 && tagIsInt (v.operand b).tag && (v.operand b).fits v
  | .load _ d _ _ => (v.operand d).fits v
  | .store _ d _ _ => (v.operand d).fits v
  | .vmm _ _ _ _ _ => let t := entryTag (v.tag 0); tagIsInt t || tagIsFloat t
  | _ => true

end Sys2Proof.Machine
end

