-- ==== Sys2Proof/Machine/Matrix.lean ====
section
/-! DEFINITION. The matrix instructions (R123 to R142, R174 to R177): operands, exact sums, accumulation and the accumulator moves. -/

namespace Sys2Proof.Machine

/-! ### Configuration (Table 5.1) -/

def viewFmt (v : View) : Nat := v.mcfg.toNat % 32

/-- Element width of a matrix format. -/
def fmtWidth (fmt : Nat) : Nat :=
  if fmt = 1 ∨ fmt = 6 then 4 else if fmt = 7 ∨ fmt = 8 then 16 else if fmt = 9 then 32 else 8
def fmtIsInt (fmt : Nat) : Bool := decide (fmt ≤ 1)
/-- Element formats of A and of B under a floating matrix format. -/
def fmtA (fmt : Nat) : Fmt :=
  match fmt with
  | 2 => .f8e4 | 3 => .f8e4 | 4 => .f8e5 | 5 => .f8e5 | 6 => .f4 | 7 => .bf16 | 8 => .fp16 | _ => .fp32
def fmtB (fmt : Nat) : Fmt :=
  match fmt with
  | 2 => .f8e4 | 3 => .f8e5 | 4 => .f8e4 | 5 => .f8e5 | 6 => .f4 | 7 => .bf16 | 8 => .fp16 | _ => .fp32

/-- Kv (R124). -/
def validDepth (v : View) : Nat := if v.kval = 0 then formatDepth (viewFmt v) else v.kval.toNat

/-! ### Operands (R125 to R128) -/

/-- An operand as it was named: a register span, or a scratchpad descriptor (Table 5.3). -/
inductive MOperand where
  | regs (n : Nat)
  | spd (r0 r1 : Word)
  deriving DecidableEq, Repr

def mOperand (reg : BitVec 5 → Word) (sel : Bool) (f : BitVec 5) : MOperand :=
  if sel then .spd (reg f) (reg (f + 1)) else .regs f.toNat

/-- Scratchpad address bits of element `k` of line `l` (R127): 25 bits, or more where the sum leaves them. -/
def spdElemAddr (r0 r1 : Word) (w l k : Nat) : Nat :=
  let base := fld r0 0 25
  let rp := fld r0 32 16
  let tp := fld r1 0 16
  let g := l / 8
  let a := if r0.getLsbD 25 then base + k * rp + g * tp + l % 8 * (w / 8) else base + g * tp + l % 8 * rp + k * w / 8
  let c := fld r1 16 2
  a / 2048 * 2048 + (a / 64 % 32 + 8 * c * g) % 32 * 64 + a % 64

/-- The scratchpad effective address of bits [24:0] (R68). -/
def spdEa (a : Nat) : Word := BitVec.ofNat 64 (0xFE * 2 ^ 56 + a % 2 ^ 25)

/-- Reserved bits of a descriptor, and O where the form takes none (R128, step 1). -/
def descReserved (o : MOperand) (noO : Bool) : Bool :=
  match o with
  | .regs _ => false
  | .spd r0 r1 => fld r0 48 16 != 0 || fld r0 26 6 != 0 || fld r1 18 46 != 0 || (noO && r0.getLsbD 25)

/-- Alignment of a descriptor (R128, step 2). -/
def descMisaligned (o : MOperand) (w : Nat) : Bool :=
  match o with
  | .regs _ => false
  | .spd r0 r1 =>
    let wb := max 1 (w / 8)
    fld r0 0 25 % wb != 0 || fld r0 32 16 % wb != 0 || fld r1 0 16 % wb != 0 || (w = 4 && r0.getLsbD 25)

/-- Does the strand in slot 0 of tile `t` pass R69 for the bytes of one element? -/
def spdElemOk (s : State) (t a n : Nat) : Bool :=
  decide (a < 2 ^ 25) && spdInRange s t 0 (fieldOf a 24 1 = 1) (fieldOf a 22 2) (fieldOf a 0 22) n

/-- The first address in line order that fails R69 (R128, step 3); line `l` has `len l` elements. -/
def spdRangeFault (s : State) (t : Nat) (o : MOperand) (w : Nat) (len : Nat → Nat) : Option Nat :=
  match o with
  | .regs _ => none
  | .spd r0 r1 => (List.range 32).findSome? fun l => (List.range (len l)).findSome? fun k =>
      let a := spdElemAddr r0 r1 w l k
      if spdElemOk s t a (elemBytes w) then none else some a

/-- Operand with the width and the lengths of its lines, and whether O is refused. -/
structure MCheck where
  op  : MOperand
  w   : Nat
  len : Nat → Nat
  noO : Bool

/-- The checks of R128 over an instruction's operands. -/
def operandTrap (s : State) (t : Nat) (l : List MCheck) : Option Trap :=
  if l.any fun c => descReserved c.op c.noO then some { cause := cRSVD }
  else if l.any fun c => descMisaligned c.op c.w then some { cause := cMISALIGN }
  else (l.findSome? fun c => spdRangeFault s t c.op c.w c.len).map fun a =>
    { cause := cSPDRANGE, tva := tvaOf (spdEa a) }

/-- Element `k` of line `l` of a register span with lines of `L` bytes (R125). -/
def regLineElem (v : SMap (BitVec 8192)) (n L w l k : Nat) : Nat :=
  let bit := 8 * L * l + k * w
  fld (sget 0 v (n + bit / 8192)) (bit % 8192) w

/-- Read element `k` of line `l`, with the watermark stall and the `XFER` trap of its bytes, which become
pinned (R131, R148, R189). -/
def readLineElem (t : Nat) (o : MOperand) (L w l k : Nat) : M Nat := do
  match o with
  | .regs n => return regLineElem ((← get).tile t).ctx.v n L w l k
  | .spd r0 r1 =>
    let a := spdElemAddr r0 r1 w l k
    let h := spdTile t (fieldOf a 24 1 = 1) (fieldOf a 22 2)
    wmCheck (spdEa a) h (fieldOf a 0 22) (elemBytes w)
    let x := leNat (← spdRead (matrixAgent t) h (fieldOf a 0 22) (elemBytes w))
    modify (pinBytes t h (fieldOf a 0 22) (elemBytes w))
    return if w = 4 then fieldOf x (4 * (k % 2)) 4 else x

def readLine (t : Nat) (o : MOperand) (L w l n : Nat) : M (List Nat) := (List.range n).mapM fun k => readLineElem t o L w l k

/-- Write the bytes of line `l` (element width `w`), after the watermark check of all of them, behind their pins (R190). -/
def writeLine (t : Nat) (o : MOperand) (L w l : Nat) (xs : List Nat) : M Unit := do
  match o with
  | .regs n =>
    modify (updCtx t fun c => { c with v := xs.zipIdx.foldl (fun v (x, k) =>
      let bit := 8 * L * l + k * w
      let r := n + bit / 8192
      sput v r (setField (sget 0 v r) (bit % 8192) w x)) c.v })
  | .spd r0 r1 =>
    let per := if w = 4 then 2 else 1
    let groups := chunks per (xs.length + 1) xs
    let places := groups.zipIdx.map fun (g, i) => (spdElemAddr r0 r1 w l (i * per), g)
    for (a, _) in places do
      wmCheck (spdEa a) (spdTile t (fieldOf a 24 1 = 1) (fieldOf a 22 2)) (fieldOf a 0 22) (elemBytes w)
    for (a, g) in places do
      spdWrite t (spdTile t (fieldOf a 24 1 = 1) (fieldOf a 22 2)) (fieldOf a 0 22) (natLe (elemBytes w) (packElems w g))

/-! ### Accumulator elements (R16, R133) -/

def qGet (q : BitVec 32768) (i j : Nat) : Nat := fld q (32 * (32 * i + j)) 32
def qPut (q : BitVec 32768) (i j x : Nat) : BitVec 32768 := setField q (32 * (32 * i + j)) 32 x

/-- The exact sum of a list of products (R174). -/
def sumV (l : List FVal) : FVal :=
  if l.any FVal.isNan then .nan false
  else
    let pinf := l.any fun x => match x with | .inf false => true | _ => false
    let ninf := l.any fun x => match x with | .inf true => true | _ => false
    if pinf && ninf then .nan false
    else if pinf then .inf false
    else if ninf then .inf true
    else
      let r := l.foldl (fun (acc : Int × Int) x => match x with
        | .fin n m e => addFin (decide (acc.1 < 0)) acc.1.natAbs acc.2 n m e
        | _ => acc) (0, 0)
      if r.1 = 0 then .fin false 0 0 else .fin (decide (r.1 < 0)) r.1.natAbs r.2

/-- A zero value as +0. -/
def plusZero (x : FVal) : FVal := if x.isZero then .fin false 0 0 else x

/-- q := RNE(q + S). -/
def accFloat (q : Nat) (s : FVal) : Nat := (encodeF .fp32 .rne (addV .rne (decodeF .fp32 q) s).1).1

/-- The integer step of R133: the element and whether the clamp changed it. -/
def accInt (sat : Bool) (q : Nat) (s : Int) : Nat × Bool :=
  let x := signed 32 q + s
  if sat then let c := clampI x (-(2 ^ 31)) (2 ^ 31 - 1); (wrap 32 c, c != x) else (wrap 32 x, false)

/-- Write row `i` of q register `qd`: values, and saturation bits to set. -/
def writeRow (t : Nat) (qd : Nat) (i : Nat) (row : List (Nat × Bool)) (s : State) : State :=
  updCtx t (fun c => { c with
    q := sput c.q qd (row.zipIdx.foldl (fun q (x, j) => qPut q i j x.1) (sget 0 c.q qd))
    sat := sput c.sat qd (row.zipIdx.foldl (fun m (x, j) => if x.2 then setField m (32 * i + j) 1 1 else m) (sget 0 c.sat qd)) }) s

/-! ### Multiply forms -/

/-- Values of a line of A or B, for an integer and for a floating format. -/
def intVals (w : Nat) (sgn : Bool) (l : List Nat) : List Int := l.map fun x => if sgn then signed w x else ((x % 2 ^ w : Nat) : Int)
def floatVals (f : Fmt) (l : List Nat) : List FVal := l.map (decodeF f)

/-- Multiply a value by 2^(s − 127); a scale of 0xFF makes it NaN (R135, R170). -/
def scaleVal (sc : Nat) (x : FVal) : FVal :=
  if sc = 255 then .nan false else match x with | .fin n m e => .fin n m (e + (sc : Int) - 127) | y => y

/-- Stored values of a line of A, each with its logical position (R134, R137, R138). -/
def logicalPositions (kind : MmaKind) (v : SMap (BitVec 8192)) (kv i : Nat) : List Nat :=
  match kind with
  | .s24 m => (List.range kv).map fun t =>
      let f := fld (sget 0 v m.toNat) (8 * 24 * i + 4 * (t / 2)) 4
      4 * (t / 2) + fieldOf f (2 * (t % 2)) 2
  | .bitmap m => (List.range 256).filter fun k => (sget 0 v m.toNat).getLsbD (256 * i + k)
  | _ => List.range kv

/-- Elements of B per line, line length in bytes and registers in the span (R134, R137, R138, Table 5.2). -/
def bShape (kind : MmaKind) (w kv : Nat) : Nat × Nat × Nat :=
  match kind with
  | .s24 _ => (2 * kv, 96, 4)
  | .bitmap _ => (256, 32 * w, w)
  | _ => (kv, 48, 2)

/-- Number of summation units (Table 7.7). -/
def unitCount (kind : MmaKind) (w kv : Nat) : Nat := ((bShape kind w kv).1 * w + 63) / 64

/-- Pairs of a unit: those whose logical position lies in unit `u` of `per` positions, with the B value at it. -/
def unitPairs {α β : Type} (per u : Nat) (a : List (Nat × α)) (b : List β) : List (α × β) :=
  let chunk := (b.drop (u * per)).take per
  (a.filter fun (k, _) => k / per = u).filterMap fun (k, x) => (chunk[k % per]?).map fun y => (x, y)

/-- One accumulator element of a floating form. -/
def mmaFloat (units per : Nat) (a : List (Nat × FVal)) (b : List FVal) (q : Nat) : Nat :=
  (List.range units).foldl (fun q u => accFloat q (sumV ((unitPairs per u a b).map fun (x, y) => (mulV x y).1))) q

/-- One accumulator element of an integer form. -/
def mmaInt (sat : Bool) (units per : Nat) (a : List (Nat × Int)) (b : List Int) (q : Nat) : Nat × Bool :=
  (List.range units).foldl (fun (acc : Nat × Bool) u =>
    let r := accInt sat acc.1 ((unitPairs per u a b).map fun (x, y) => x * y).sum
    (r.1, acc.2 || r.2)) (q, false)

/-- One accumulator element of `mma.g` (R136): per segment the scale h and zero point z of the B line. -/
def mmaGroup (segs g : Nat) (a : List (Nat × Int)) (b : List Int) (sc : Nat → Nat) (q : Nat) : Nat :=
  (List.range segs).foldl (fun q u =>
    let tsum := ((unitPairs g u a b).map fun (x, y) => x * (y - szZero (sc u))).sum
    accFloat q (plusZero (mulV (szScale (sc u)) (intVal tsum)).1)) q

/-- Everything a multiply form needs of its configuration. -/
structure MmaPlan where
  fmt : Nat
  w   : Nat
  kv  : Nat
  sa  : Bool
  sb  : Bool
  sat : Bool

def mmaPlan (v : View) : MmaPlan :=
  { fmt := viewFmt v, w := fmtWidth (viewFmt v), kv := validDepth v, sa := v.mcfg.getLsbD 5, sb := v.mcfg.getLsbD 6, sat := v.mcfg.getLsbD 7 }

/-- Columns of B as read: one list of encodings per line. -/
def readB (t : Nat) (b : MOperand) (L w n : Nat) : M (List (List Nat)) := (List.range 32).mapM fun j => readLine t b L w j n

/-- New values and saturation events of row `i`. -/
def mmaRow (c : Ctx) (p : MmaPlan) (kind : MmaKind) (qd i : Nat) (arow : List Nat) (bcols : List (List Nat)) : List (Nat × Bool) :=
  let pos := logicalPositions kind c.v p.kv i
  let q := fun j => qGet (sget 0 c.q qd) i j
  match kind with
  | .grouped v =>
    let o := c.av.operand v
    let g := blockLength o p.w
    let a := pos.zip (intVals p.w p.sa arow)
    bcols.zipIdx.map fun (b, j) =>
      (mmaGroup ((p.kv + g - 1) / g) g a (intVals p.w p.sb b) (fun sgm => vget c.v v.toNat 32 (32 * sgm + j)) (q j), false)
  | .rowSum =>
    if fmtIsInt p.fmt then
      let ra := (intVals p.w p.sa arow).sum
      bcols.zipIdx.map fun (b, j) => accInt p.sat (q j) (ra * (intVals p.w p.sb b).sum)
    else
      let ra := sumV (floatVals (fmtA p.fmt) arow)
      bcols.zipIdx.map fun (b, j) => (accFloat (q j) (plusZero (mulV ra (sumV (floatVals (fmtB p.fmt) b))).1), false)
  | _ =>
    let units := unitCount kind p.w p.kv
    let per := 64 / p.w
    if fmtIsInt p.fmt then
      let a := pos.zip (intVals p.w p.sa arow)
      bcols.zipIdx.map fun (b, j) => mmaInt p.sat units per a (intVals p.w p.sb b) (q j)
    else
      let sc := fun (n : Nat) => match kind with | .scaled v => fld (sget 0 c.v v.toNat) (8 * n) 8 | _ => 127
      let a := pos.zip (floatVals (fmtA p.fmt) arow) |>.map fun (k, x) => (k, scaleVal (sc (64 * (k / 32) + i)) x)
      bcols.zipIdx.map fun (b, j) =>
        let b' := (floatVals (fmtB p.fmt) b).zipIdx.map fun (x, k) => scaleVal (sc (64 * (k / 32) + 32 + j)) x
        (mmaFloat units per a b' (q j), false)

/-- Stored values that line `i` of A supplies. -/
def aLength (c : Ctx) (p : MmaPlan) (kind : MmaKind) (i : Nat) : Nat :=
  match kind with
  | .bitmap _ => min (logicalPositions kind c.v p.kv i).length (formatDepth p.fmt)
  | _ => p.kv

/-- The value checks that precede the first row: `SCALE` and `BITMAP` (R135, R136, R138). -/
def mmaValueTrap (c : Ctx) (p : MmaPlan) (kind : MmaKind) (issueVl : Nat) : Option Trap :=
  match kind with
  | .scaled _ => if issueVl / 64 < (p.kv + 31) / 32 then some { cause := cSCALE } else none
  | .grouped v =>
    let g := blockLength (c.av.operand v) p.w
    if issueVl / 32 < (p.kv + g - 1) / g then some { cause := cSCALE } else none
  | .bitmap _ =>
    ((List.range 32).find? fun i => formatDepth p.fmt < (logicalPositions kind c.v p.kv i).length).map fun i =>
      { cause := cBITMAP, telem := BitVec.ofNat 15 i }
  | _ => none

/-- Does the running or stopped fabric hold an `acc` on the q register (R213)? -/
def fabricHoldsQ (f : Fabric) (qd : Nat) : Bool :=
  (f.code == 2 || f.code == 3) && f.pos.any fun (_, p) => fld p.word 0 6 == 35 && fld p.word 18 3 == qd

/-- Rows from `vstart` on. -/
def rowsFrom (v : View) : List Nat := (List.range 32).filter fun i => decide (v.vstart ≤ i)

/-- Result of a run over rows: `telem` is the row (R131). -/
def rowEnd (r : State × LoopEnd) : Perf := storeEnd r.1 r.2 {} id

def performMma (t : Nat) (reg : BitVec 5 → Word) (issueVl : Nat) (kind : MmaKind) (qd : BitVec 3) (sel : BitVec 2) (a b : BitVec 5)
    (s : State) : Perf :=
  let c := (s.tile t).ctx
  let p := mmaPlan c.av
  let oa := mOperand reg (sel.getLsbD 0) a
  let ob := mOperand reg (sel.getLsbD 1) b
  let (bn, bl, _) := bShape kind p.w p.kv
  if fabricHoldsQ c.fabric qd.toNat then { st := s, fin := .stall c.av.vstart .fabric }
  else match operandTrap s t [{ op := oa, w := p.w, len := aLength c p kind, noO := false }, { op := ob, w := p.w, len := fun _ => bn, noO := false }] with
    | some tr => perfTrap s tr
    | none => match mmaValueTrap c p kind issueVl with
      | some tr => perfTrap s tr
      | none =>
        if 32 ≤ c.av.vstart then perfDone s
        else match readB t ob bl p.w bn s with
          | .error (.trap tr) _ => { st := s, fin := .trap c.av.vstart (atElem c.av.vstart tr) }
          | .error (.wait w) _ => { st := s, fin := .stall c.av.vstart w }
          | .ok bcols s1 => rowEnd (elemRun (fun i => do
              let arow ← readLine t oa 48 p.w i (aLength c p kind i)
              modify fun s => writeRow t qd.toNat i (mmaRow (s.tile t).ctx p kind qd.toNat i arow bcols) s) (rowsFrom c.av) s1)

/-! ### Accumulator moves (R140 to R142) -/

def performMzero (t : Nat) (qd : BitVec 3) (s : State) : Perf :=
  let c := (s.tile t).ctx
  if fabricHoldsQ c.fabric qd.toNat then { st := s, fin := .stall c.av.vstart .fabric }
  else perfDone (updCtx t (fun c => { c with q := sput c.q qd.toNat 0, sat := sput c.sat qd.toNat 0 }) s)

/-- A move: stall on a running `acc`, check the operand, then the rows. -/
def performMove (t : Nat) (qd : Nat) (o : MOperand) (w : Nat) (len : Nat) (row : Nat → M Unit) (s : State) : Perf :=
  let c := (s.tile t).ctx
  if fabricHoldsQ c.fabric qd then { st := s, fin := .stall c.av.vstart .fabric }
  else match operandTrap s t [{ op := o, w := w, len := fun _ => len, noO := true }] with
    | some tr => perfTrap s tr
    | none => rowEnd (elemRun row (rowsFrom c.av) s)

def clearSatRow (t qd i : Nat) (s : State) : State :=
  updCtx t (fun c => { c with sat := sput c.sat qd (setField (sget 0 c.sat qd) (32 * i) 32 0) }) s

def performMld (t : Nat) (reg : BitVec 5 → Word) (qd : BitVec 3) (sel : BitVec 1) (a : BitVec 5) (s : State) : Perf :=
  let o := mOperand reg (sel = 1) a
  performMove t qd.toNat o 32 32 (fun i => do
    let xs ← readLine t o 128 32 i 32
    modify fun s => clearSatRow t qd.toNat i (writeRow t qd.toNat i (xs.map fun x => (x, false)) s)) s

def performMst (t : Nat) (reg : BitVec 5 → Word) (qd : BitVec 3) (sel : BitVec 1) (a : BitVec 5) (s : State) : Perf :=
  let o := mOperand reg (sel = 1) a
  performMove t qd.toNat o 32 32 (fun i => do
    let q := sget 0 ((← get).tile t).ctx.q qd.toNat
    writeLine t o 128 32 i ((List.range 32).map fun j => qGet q i j)) s

def performMstSm (t : Nat) (reg : BitVec 5 → Word) (qd : BitVec 3) (sel : BitVec 1) (a : BitVec 5) (s : State) : Perf :=
  let o := mOperand reg (sel = 1) a
  performMove t qd.toNat o 32 1 (fun i => do
    let m := sget 0 ((← get).tile t).ctx.sat qd.toNat
    writeLine t o 4 32 i [fld m (32 * i) 32]) s

/-- One element of `mdrain` (Table 5.6): `path` is the tag of vb. -/
def drainElem (path tag q m h z : Nat) : Nat :=
  let zi := signed 16 z
  if path = 0x04 then
    let (k, _) := roundInt .rne (decide (signed 32 q * signed 32 m < 0)) (signed 32 q * signed 32 m).natAbs (-(h % 64 : Nat)) false
    (clampTag tag (k + zi)).1
  else
    let pr := (mulV (decodeF .fp32 q) (decodeF .fp32 m)).1
    match tagFmt tag with
    | some f => (encodeF f .rne pr).1
    | none => match pr with
      | .nan _ => (clampTag tag zi).1
      | .inf n => (clampTag tag (if n then tagMin tag else tagMax tag)).1
      | .fin n x e => (clampTag tag ((roundInt .rne n x e false).1 + zi)).1

/-- `mdrain` (R142).  vb is read again for each row, so a destination span that contains vb supplies later rows with what earlier ones wrote. -/
def performMdrain (t : Nat) (reg : BitVec 5 → Word) (qd : BitVec 3) (sel : BitVec 1) (a b tg : BitVec 5) (s : State) : Perf :=
  let o := mOperand reg (sel = 1) a
  let tag := tg.toNat
  let w := tagWidth tag
  performMove t qd.toNat o w 32 (fun i => do
    let c := ((← get).tile t).ctx
    let q := sget 0 c.q qd.toNat
    let par := sget 0 c.v b.toNat
    let path := (c.av.operand b).tag
    writeLine t o (4 * w) w i ((List.range 32).map fun j =>
      drainElem path tag (qGet q i j) (fld par (32 * j) 32) (fld par (8 * (128 + j)) 8) (fld par (8 * (160 + 2 * j)) 16))) s

/-! ### Checks at issue and view effects -/

/-- Registers in the span of an `mdrain` destination (Table 5.2). -/
def drainSpan (w : Nat) : Nat := if w = 32 then 4 else if w = 16 then 2 else 1

def mmaLegal (v : View) (kind : MmaKind) : Bool :=
  let p := mmaPlan v
  match kind with
  | .dense => true
  | .rowSum => true
  | .scaled s => (v.operand s).aligned && decide (2 ≤ p.fmt) && decide (p.fmt ≤ 6) && (v.operand s).tag == 0x18
  | .grouped s => let o := v.operand s; o.aligned && fmtIsInt p.fmt && o.tag == 0x19 && o.ratio != 0 && [32, 64, 128].contains (blockLength o p.w)
  | .s24 m => (v.operand m).aligned && decide (p.fmt ≤ 6) && p.kv % 2 == 0
  | .bitmap m => (v.operand m).aligned && decide (p.fmt ≤ 6)

def drainLegal (path tag : Nat) : Bool :=
  let ints := [0x01, 0x02, 0x03, 0x04, 0x09, 0x0A, 0x0B, 0x0C].contains tag
  if path = 0x04 then ints else path == 0x15 && (ints || tagIsFloat tag)

/-- Does a matrix form raise no `RSVD` at issue (R14, R124, R125, R135 to R138, R142)? -/
def matrixFormLegal (reg : BitVec 5 → Word) (v : View) : EngOp → Bool
  | .mcfg a f sat sb sa =>
    decide (f.toNat ≤ 9) && (fmtIsInt f.toNat || (sat == 0 && sb == 0 && sa == 0)) && decide ((reg a).toNat ≤ formatDepth f.toNat)
  | .mma kind _ sel a b =>
    let p := mmaPlan v
    mmaLegal v kind && (sel.getLsbD 0 || a.toNat % 2 == 0) && (sel.getLsbD 1 || b.toNat % (bShape kind p.w p.kv).2.2 == 0)
  | .mld _ sel a => sel == 1 || a.toNat % 4 == 0
  | .mst _ sel a => sel == 1 || a.toNat % 4 == 0
  | .mdrain _ sel a b t => (v.operand b).aligned && drainLegal (v.operand b).tag t.toNat && (sel == 1 || a.toNat % drainSpan (tagWidth t.toNat) == 0)
  | _ => true

/-- The view after a matrix form (R124, R142, R441). -/
def matrixFormView (reg : BitVec 5 → Word) (v : View) : EngOp → View
  | .mcfg a f sat sb sa =>
    { v with mcfg := BitVec.ofNat 8 (f.toNat + 32 * sa.toNat + 64 * sb.toNat + 128 * sat.toNat), kval := (reg a).truncate 7 }
  | .mdrain _ sel a _ t =>
    if sel = 1 then v
    else let g := drainSpan (tagWidth t.toNat); v.writeTags a.toNat g (tagEntry t.toNat g 0)
  | _ => v

end Sys2Proof.Machine
end

