-- ==== Sys2Proof/Machine/Transfer.lean ====
section
/-! DEFINITION. Transfers (R143 to R155, R387): the record of a copy, its checks and acceptance, its progress unit by unit, and how
it ends. -/

namespace Sys2Proof.Machine

/-! ### The record of a copy (R144, R151) -/

structure CopyRec where
  base : Nat
  tag  : Nat
  exts : List Nat
  strides : List Int
  spa  : Nat
  out  : Bool
  rot  : Nat
  lp   : Nat
  chan : Nat
  mreg : Nat
  ev   : Bool
  lim  : Nat
  deriving DecidableEq, Repr

/-- The record in the shape group of `va` (Table 5.8), none where step 1 of R146 raises `RSVD` for a reserved bit, WCH or va's tag. -/
def shapeCopyRec (c : Ctx) (a : BitVec 5) (ch : Nat) : Option CopyRec :=
  let e := shapeElem c a
  let n := fieldOf (e 1) 8 4
  if (c.av.operand a).tag ≠ 0x05 ∨ fieldOf (e 1) 5 3 ≠ 0 ∨ fieldOf (e 1) 12 52 ≠ 0 ∨ fieldOf (e 26) 28 4 ≠ 0 ∨ fieldOf (e 26) 48 16 ≠ 0
      ∨ fieldOf (e 27) 8 8 ≠ 0 ∨ fieldOf (e 27) 48 16 ≠ 0 ∨ fieldOf (e 27) 0 4 ≠ ch ∨ n = 0 ∨ 12 < n then none
  else some
    { base := e 0, tag := e 1 % 32, exts := (List.range n).map fun i => e (2 + i)
      strides := (List.range n).map fun i => signed 64 (e (14 + i))
      spa := fieldOf (e 26) 0 25, out := fieldOf (e 26) 25 1 = 1, rot := fieldOf (e 26) 26 2, lp := fieldOf (e 26) 32 16
      chan := ch, mreg := fieldOf (e 27) 4 3, ev := fieldOf (e 27) 7 1 = 1, lim := fieldOf (e 27) 16 32 }

/-- The record of a request packet (Table 5.9), none for a nonzero reserved bit. -/
def packetCopyRec (w0 w1 : Word) : Option CopyRec :=
  if fld w0 59 5 ≠ 0 ∨ fld w1 25 7 ≠ 0 ∨ fld w1 48 16 ≠ 0 then none
  else
    let tag := fld w0 48 5
    some { base := fld w0 0 48, tag := tag, exts := [fld w1 32 16], strides := [((tagWidth tag / 8 : Nat) : Int)]
           spa := fld w1 0 25, out := fld w0 57 1 = 1, rot := 0, lp := 0, chan := fld w0 53 4, mreg := 0, ev := fld w0 58 1 = 1, lim := 0 }

/-! ### Geometry (R145) -/

def CopyRec.width (r : CopyRec) : Nat := tagWidth r.tag
def CopyRec.e0 (r : CopyRec) : Nat := r.exts.headD 0
/-- Lines: the product of the extents above dimension 0. -/
def CopyRec.lines (r : CopyRec) : Nat := r.exts.tail.foldl (· * ·) 1
def CopyRec.lineBytes (r : CopyRec) : Nat := r.e0 * r.width / 8
/-- LPe. -/
def CopyRec.pitch (r : CopyRec) : Nat := if r.lp = 0 then r.lineBytes else r.lp
def CopyRec.empty (r : CopyRec) : Bool := r.e0 == 0 || r.lines == 0
/-- Bytes from spd(0) to the end of the last line, as laid out before the bank rotation (R146, R148). -/
def CopyRec.span (r : CopyRec) : Nat := if r.empty then 0 else (r.lines - 1) * r.pitch + r.lineBytes
/-- LIM, 0 meaning e0. -/
def CopyRec.limit (r : CopyRec) : Nat := if r.lim = 0 then r.e0 else r.lim

def CopyRec.window (r : CopyRec) : Bool := fieldOf r.spa 24 1 = 1
def CopyRec.position (r : CopyRec) : Nat := fieldOf r.spa 22 2
def CopyRec.offset (r : CopyRec) : Nat := fieldOf r.spa 0 22

/-- Sum over the dimensions above 0 of index times stride, for line `l`. -/
def lineShift : List Nat → List Int → Nat → Int
  | e :: es, d :: ds, l => ((l % max 1 e : Nat) : Int) * d + lineShift es ds (l / max 1 e)
  | _, _, _ => 0

/-- mem(j) for column `i` of line `l`, modulo 2^64. -/
def CopyRec.memAt (r : CopyRec) (l i : Nat) : Nat :=
  wrap 64 ((r.base : Int) + lineShift r.exts.tail r.strides.tail l
    + (if r.width = 4 then ((i / 2 : Nat) : Int) else (i : Int) * r.strides.headD 0))

/-- Bits [10:6] of a scratchpad offset in line `l`, rotated (R127, R145). -/
def rotateOffset (rot l a : Nat) : Nat := a / 2048 * 2048 + (a / 64 % 32 + 8 * rot * (l / 8)) % 32 * 64 + a % 64

/-- Scratchpad offset of column `i` of line `l`. -/
def CopyRec.spdAt (r : CopyRec) (l i : Nat) : Nat := rotateOffset r.rot l (r.offset + l * r.pitch + i * r.width / 8)

/-! ### Checks and acceptance (R146 to R148) -/

/-- Steps 1 to 4 of R146 for a record whose reserved bits are clear. -/
def copyTrap (s : State) (t : Nat) (r : CopyRec) : Option Trap :=
  let wb := max 1 (r.width / 8)
  let off := fun x : Int => x % (wb : Int) != 0
  if !(tagIsInt r.tag || tagIsFloat r.tag) || (r.lp != 0 && decide (8 * r.lp < r.e0 * r.width)) then some { cause := cRSVD }
  else if 2 ^ 48 ≤ r.base then some { cause := cADDR, tva := BitVec.ofNat 56 r.base }
  else if off r.base || off r.spa || off r.lp || r.strides.tail.any off || (r.width = 4 && (r.strides.headD 0 != 0 || r.e0 % 2 != 0)) then
    some { cause := cMISALIGN }
  else if !r.empty && !spdInRange s t 0 r.window r.position r.offset r.span then some { cause := cSPDRANGE, tva := tvaOf (spdEa r.spa) }
  else none

/-- The record of an accepted copy. -/
def Copy.record (c : Copy) : CopyRec :=
  { base := c.base, tag := c.tag, exts := c.exts, strides := c.strides, spa := c.spa, out := c.out, rot := c.rot, lp := c.lp
    chan := c.chan, mreg := c.mreg, ev := c.ev, lim := c.lim }

/-- Does the copy belong to its channel's range? -/
def Copy.ranged (c : Copy) : Bool := !c.out && !c.record.empty

def Ctx.xchan (c : Ctx) (k : Nat) : XChan := sget {} c.xchans k
def Ctx.setXchan (c : Ctx) (k : Nat) (v : XChan) : Ctx := { c with xchans := sput c.xchans k v }

/-- The free slot that follows the one taken last (R154); before any was taken, slot 0. -/
def nextCopySlot (c : Ctx) : Option Nat :=
  ((List.range 512).map fun i => (c.slotLast + 1 + i) % 512).find? fun k => (sfind c.copies k).isNone

/-- The channel's range after accepting span bytes at the record's address; none: wait (R148). -/
def claimRange (x : XChan) (t : Nat) (r : CopyRec) : Option XChan :=
  let h := spdTile t r.window r.position
  if x.state ≠ .busy then some { state := .busy, tile := h, top := r.spa / 2 ^ 22, rb := r.offset, re := r.offset + r.span, wm := r.offset }
  else if x.tile = h ∧ x.re = r.offset then some { x with re := x.re + r.span }
  else none

/-- Put a copy into its slot; its identifier is [8:0] slot, [15:9] reuse count, [19:16] channel (R147).  `prior` is the channel before a new
range. -/
def placeCopy (c : Ctx) (slot : Nat) (cid : BitVec 20) (r : CopyRec) (prior : Option XChan) : Ctx × Nat :=
  let ident := slot + 2 ^ 9 * (sget 0 c.slotUse slot % 128) + 2 ^ 16 * r.chan
  ({ c with
      slotLast := slot
      copies := sput c.copies slot
        { ident := ident, cid := cid, chan := r.chan, out := r.out, tag := r.tag, base := r.base, exts := r.exts, strides := r.strides
          spa := r.spa, rot := r.rot, lp := r.lp, lim := r.lim, mreg := r.mreg, ev := r.ev
          span := r.span, prior := prior, lastSlot := c.slotLast } }, ident)

/-! ### The end of a copy (R145, R147 to R149, R152, R387) -/

def releaseSlot (c : Ctx) (slot : Nat) : Ctx :=
  { c with copies := sdel c.copies slot, slotUse := sput c.slotUse slot ((sget 0 c.slotUse slot + 1) % 128) }

/-- Status of the event record (Table 5.10). -/
def CopyState.status : CopyState → Nat
  | .aborted => 1 | .failed => 2 | _ => 0

/-- The event record of a copy that has ended (Table 5.10). -/
def eventRecord (c : Copy) : Word × Word :=
  (BitVec.ofNat 64 (c.ident % 2 ^ 20 + 2 ^ 20 * c.state.status + 2 ^ 24 * c.cause.toNat + 2 ^ 32 * (c.moved % 2 ^ 31) + 2 ^ 63),
   if c.state.status = 2 then BitVec.ofNat 64 c.fault else 0)

def eventCapacity : Nat := 64

/-- Post the records of ended copies, in the order in which they ended, while the queue has room, and release their slots (R187). -/
def postDeferred : Nat → Ctx → Ctx
  | 0, c => c
  | n + 1, c =>
    match c.deferred with
    | [] => c
    | slot :: r =>
      if eventCapacity ≤ c.events.length then c
      else match sfind c.copies slot with
        | some k => postDeferred n (releaseSlot { c with events := c.events ++ [eventRecord k], deferred := r } slot)
        | none => postDeferred n { c with deferred := r }

/-- The copy in `slot` has ended: its slot is released, once any event record that it names has been posted. -/
def settleSlot (c : Ctx) (slot : Nat) : Ctx :=
  match sfind c.copies slot with
  | none => c
  | some k => if k.ev then postDeferred 512 { c with deferred := c.deferred ++ [slot] } else releaseSlot c slot

/-- The channel after copy `slot` has ended as `st`. -/
def channelAfter (c : Ctx) (slot : Nat) (k : Copy) (st : CopyState) : XChan :=
  let x := c.xchan k.chan
  let others := c.copies.any fun (j, o) => j != slot && decide (o.chan = k.chan) && o.ranged && o.active
  if st = .failed then { x with state := .failed }
  else if k.ranged && !others && x.state = .busy then
    { x with state := .idle, wm := if st = .complete then x.re else x.wm, filled := [] }
  else x

/-- Mask bits of the positions at or above LIM (R145). -/
def clearBeyond (m : BitVec 8192) (r : CopyRec) : BitVec 8192 :=
  if r.empty then m
  else (List.range (min 8192 (r.e0 * r.lines))).foldl (fun m j => if r.limit ≤ j % r.e0 then setField m j 1 0 else m) m

/-- The copy in `slot` ends, in the tile's own state; with a notice held its slot stays. -/
def endCopyCtx (c : Ctx) (slot : Nat) (k : Copy) (st : CopyState) (cause sub : BitVec 8) (fault : Nat) (held : Bool) : Ctx :=
  let c1 := c.setXchan k.chan (channelAfter c slot k st)
  let c2 := if st = .complete ∧ k.mreg ≠ 0 then { c1 with m := sput c1.m k.mreg (clearBeyond (sget 0 c1.m k.mreg) k.record) } else c1
  let c3 := { c2 with copies := sput c2.copies slot { k with state := st, cause := cause, sub := sub, fault := fault, posting := held } }
  if held then c3 else settleSlot c3 slot

/-- A copy's notice to its partition's supervisor, if it has one to give; has the copy to wait for it (R372)? -/
def copyNotice (s : State) (t : Nat) (k : Copy) (cause sub : BitVec 8) (fault : Nat) (due : Bool) : State × Bool :=
  match (s.tile t).part with
  | some p => postAll s p (if due then [noticeWords cause sub t 0 none (BitVec.ofNat 56 fault) 0 0 k.cid.toNat] else [])
  | none => (s, false)

/-- Does tile `u` run a team of launch `c`, or hold a copy that such a team accepted? -/
def heldBy (s : State) (c : BitVec 20) (u : Nat) : Bool :=
  let x := s.tile u
  (match x.team with | some m => decide (m.cid = c) | none => false) || x.held.copies.any fun (_, k) => decide (k.cid = c)

/-- Release the scratchpad of launches whose teams have exited and whose copies have released their slots: on the tile, or on all four of
its cluster (R180). -/
def reclaim (t : Nat) (s : State) : State :=
  let x := s.tile t
  s.setTile t (x.keepRegions fun r => match r.owner with
    | .supervisor => true
    | .launch c => if r.cluster then (List.range 4).any fun i => heldBy s c (clusterBase t + i) else heldBy s c t)

/-- The same on the tiles of the cluster. -/
def reclaimAll (t : Nat) (s : State) : State := (List.range 4).foldl (fun s i => reclaim (clusterBase t + i) s) s

/-- A copy that has outlived its team may be the last to hold its launch's scratchpad. -/
def reclaimAfter (t : Nat) (k : Copy) (s : State) : State :=
  match (s.tile t).team with
  | some m => if m.cid = k.cid then s else reclaimAll t s
  | none => reclaimAll t s

/-- The copy in `slot` of tile `t` ends. -/
def endCopy (s : State) (t slot : Nat) (st : CopyState) (cause sub : BitVec 8) (fault : Nat) : State :=
  match sfind (s.tile t).ctx.copies slot with
  | none => s
  | some k =>
    let (s1, held) := copyNotice s t k cause sub fault (decide (st = .failed) && (!k.ev || decide (cause = cWALK)))
    reclaimAfter t k (updCtx t (fun c => endCopyCtx c slot k st cause sub fault held) s1)

/-- The notices of a context's failed copies have been written: their slots are released (R372). -/
def settlePosted (c : Ctx) : Ctx :=
  c.copies.foldl (fun c (slot, k) => if k.posting then settleSlot { c with copies := sput c.copies slot { k with posting := false } } slot else c) c

/-- A channel that a copy without a range is accepted on: FAILED ends with the acceptance (R149). -/
def XChan.accepting (x : XChan) : XChan := if x.state = .failed then { x with state := .idle } else x

/-- What acceptance does with a checked record: none while it waits (R147, R148); an empty copy completes at once, and its channel stays as it is
(R146). -/
def acceptCopy (s : State) (t : Nat) (r : CopyRec) : Except WaitKind (State × Nat) :=
  let c := (s.tile t).ctx
  let cid := match (s.tile t).team with | some m => m.cid | none => 0
  let x := c.xchan r.chan
  match nextCopySlot c with
  | none => .error .copySlot
  | some slot =>
    if r.empty then
      let (c1, ident) := placeCopy c slot cid r none
      .ok (endCopy (updCtx t (fun _ => c1) s) t slot .complete 0 0 0, ident)
    else if r.out then
      let (c1, ident) := placeCopy (c.setXchan r.chan x.accepting) slot cid r (if x.state = .failed then some x else none)
      .ok (updCtx t (fun _ => c1) s, ident)
    else match claimRange x t r with
      | none => .error .copySlot
      | some y =>
        let (c1, ident) := placeCopy (c.setXchan r.chan y) slot cid r (if x.state = .busy then none else some x)
        .ok (updCtx t (fun _ => c1) s, ident)

def Ctx.putCopy (c : Ctx) (slot : Nat) (k : Copy) : Ctx := { c with copies := sput c.copies slot k }

/-! ### Progress (R145, R148, R149, R155) -/

/-- Move WM over the runs that begin at or below it. -/
def raiseMark (x : XChan) : XChan :=
  match x.filled with
  | [] => x
  | (a, b) :: r => if a ≤ x.wm then { x with wm := max x.wm (min b x.re), filled := r } else x

/-- Bytes written at offset `a`, and the layout gap below them. -/
def XChan.fill (x : XChan) (runs : List (Nat × Nat)) : XChan :=
  let fs := runs.foldl (fun f (a, b) => addRun a b f) x.filled
  raiseMark { x with filled := fs.filter fun (_, b) => decide (x.wm < b) }

/-- Elements that one unit of a copy moves: two for a 4-bit tag, whose unit is a byte. -/
def CopyRec.perUnit (r : CopyRec) : Nat := if r.width = 4 then 2 else 1
def CopyRec.unitBytes (r : CopyRec) : Nat := max 1 (r.width / 8)

/-- The gap that lies below the first byte of line `l`, as runs of single bytes. -/
def gapRuns (r : CopyRec) (l : Nat) : List (Nat × Nat) :=
  if l = 0 then []
  else (List.range (r.pitch - r.lineBytes)).map fun i =>
    let a := rotateOffset r.rot (l - 1) (r.offset + (l - 1) * r.pitch + r.lineBytes + i)
    (a, a + 1)

/-- The bytes [ea, ea + n) of a copy's memory side, cut where a line ends: a unit need not be aligned (R145). -/
def lineParts (ea n : Nat) : List (Nat × Nat) :=
  let k := 128 - ea % 128
  if n ≤ k then [(ea, n)] else [(ea, k), (ea + k, n - k)]

/-- A copy's access to one part, at the line's home or uncached (Table 8.3, R309). -/
def copyPlace (t ea : Nat) (acc : Access) : M (Nat × Path) := do
  match classify (BitVec.ofNat 64 ea) with
  | some (.virt va) =>
    let (pa, ns) ← translate (copyAgent t) (((← get).tile t).part.getD 0) va acc
    return (pa, if ns then .uncached else .home)
  | _ => throw (.trap { cause := cADDR, tva := BitVec.ofNat 56 ea })

/-- Read a copy's memory side, which consumes no error (R396): the bytes, and whether a granule of them is poisoned. -/
def copyRead (t ea n : Nat) : M (Nat × Bool) := do
  let parts ← (lineParts ea n).mapM fun (a, k) => do
    let (pa, path) ← copyPlace t a .read
    let bs ← physReadQuiet (copyAgent t) path (BitVec.ofNat 56 a) pa k
    return (bs, (granules pa k).any (← get).poisoned)
  return (leNat (parts.flatMap (·.1)), parts.any (·.2))

/-- A list of poisoned granules after a copy has written [a, a + n): a poisoned source poisons them; a write that begins a granule that
the copy writes whole clears it. -/
def poisonAfter (l : List Nat) (a n : Nat) (bad whole : Bool) : List Nat :=
  let gs := granules a n
  if bad then l ++ gs.filter (!l.contains ·)
  else if whole && a % 64 = 0 then l.filter (!gs.contains ·) else l

/-- Write a copy's memory side: `half` keeps the upper four bits of the byte. -/
def copyWrite (t ea n v : Nat) (half bad whole : Bool) : M Unit := do
  let places ← (lineParts ea n).mapM fun (a, k) => do
    let (pa, path) ← copyPlace t a .write
    return (a, k, pa, path)
  for (a, k, pa, path) in places do
    let old := (cellGet (← get).mem pa).toNat
    let x := v / 2 ^ (8 * (a - ea))
    physWrite (copyAgent t) path (BitVec.ofNat 56 a) pa (natLe k (if half then old / 16 * 16 + x % 16 else x))
    modify fun s => { s with poison := poisonAfter s.poison pa k bad whole }

/-- Move the unit at column `i` of line `l` of copy `k`; returns the bytes written at the destination.  How many
elements of the unit lie below LIM decides what is read and written. -/
def copyUnit (t : Nat) (k : Copy) (l i : Nat) : M Nat := do
  let r := k.record
  let n := r.unitBytes
  let h := spdTile t r.window r.position
  let off := r.spdAt l i
  let inside := min r.perUnit (r.limit - i)
  if r.out then
    wmCheck (spdEa (r.spa / 2 ^ 22 * 2 ^ 22 + off)) h off n
    if inside = 0 then return 0
    let s ← get
    copyWrite t (r.memAt l i) n (leNat (spdGet s h off n)) (inside < r.perUnit)
      ((granules off n).any (s.tile h).spdBad) (64 ≤ (r.limit - i) * n && r.memAt l (i + r.perUnit) = r.memAt l i + n)
    return n
  else
    refillCheck h off n
    let (x, bad) ← if inside = 0 then pure (0, false) else copyRead t (r.memAt l i) n
    spdWrite t h off (natLe n (if inside < r.perUnit then x % 16 else x))
    let whole := decide (64 ≤ (r.e0 - i) * n)
    modify fun s =>
      let x := s.tile h
      s.setTile h { x with spdPoison := poisonAfter x.spdPoison off n bad whole, spdLatent := poisonAfter x.spdLatent off n false whole }
    let runs := (off, off + n) :: (if i = 0 then gapRuns r l else [])
    modify (updCtx t fun c => c.setXchan k.chan ((c.xchan k.chan).fill runs))
    return n

/-- The copy's next unit, with its progress: from now on its acceptance stands (R147), also if the write has an entry that pins the bytes, and the
copy's own entry behind it, abandoned (R191). -/
def copyStep (t slot : Nat) : M Unit := do
  match sfind ((← get).tile t).ctx.copies slot with
  | none => pure ()
  | some k =>
    let r := k.record
    let k1 := { k with begun := true }
    modify (updCtx t fun c => c.putCopy slot k1)
    let n ← copyUnit t k1 (k.next / r.e0) (k.next % r.e0)
    modify (updCtx t fun c => c.putCopy slot { k1 with next := k.next + r.perUnit, moved := k.moved + n })

/-- All of a copy's units have been moved. -/
def Copy.finished (k : Copy) : Bool := decide (k.record.e0 * k.record.lines ≤ k.next)

/-- The 128-byte destination line of the next unit. -/
def Copy.line (k : Copy) : Nat :=
  let r := k.record
  (if r.out then r.memAt (k.next / r.e0) (k.next % r.e0) else r.spdAt (k.next / r.e0) (k.next % r.e0)) / 128

/-- Units while the destination stays in one line; ends before a unit that waits or faults.  An access that a slice holds provokes a split
there (R285). -/
def copyLine (t slot line : Nat) : Nat → State → State
  | 0, s => s
  | n + 1, s =>
    match sfind (s.tile t).ctx.copies slot with
    | none => s
    | some k =>
      if k.state = .running ∧ !k.finished ∧ k.line = line then
        match copyStep t slot s with
        | .ok _ s' => copyLine t slot line n s'
        | .error (.wait w) _ => s.noteWait w
        | .error (.trap _) _ => s
      else s

/-- COPY_LINE_WRITE (R148): the copy in a slot writes the bytes of its next destination line. -/
def copyLineWrite (s : State) (t slot : Nat) : State :=
  match sfind (s.tile t).ctx.copies slot with
  | some k => if k.state = .running ∧ !k.finished then copyLine t slot k.line 256 s else s
  | none => s

/-- COPY_COMPLETE (R147, R148). -/
def copyComplete (s : State) (t slot : Nat) : State :=
  match sfind (s.tile t).ctx.copies slot with
  | some k => if k.state = .running ∧ k.finished then endCopy s t slot .complete 0 0 0 else s
  | none => s

/-- The table entry at which a walk for a virtual address stops (R386). -/
def faultEntry (s : State) (p va : Nat) (acc : Access) : Nat :=
  match probe s p va acc with | .error f => f.entry | .ok l => l.addr

/-- COPY_PAGE_FAULT (R149, R387): the access of the copy's next unit faults; the copy suspends on `PAGE`, else it fails. -/
def copyPageFault (s : State) (t slot : Nat) : State :=
  match sfind (s.tile t).ctx.copies slot with
  | none => s
  | some k =>
    if k.state = .running ∧ !k.finished then
      match copyStep t slot s with
      | .error (.trap tr) _ =>
        if tr.cause = cPAGE then
          let line := faultEntry s ((s.tile t).part.getD 0) tr.tva.toNat (if k.out then .write else .read) / 128
          let k1 := { k with begun := true, state := .suspended line, cause := tr.cause, sub := tr.sub, fault := tr.tva.toNat }
          let s1 := updCtx t (fun c => c.putCopy slot k1) s
          (copyNotice { s1 with resWatches := s1.resWatches ++ [line] } t k tr.cause tr.sub tr.tva.toNat true).1
        else endCopy s t slot .failed tr.cause tr.sub tr.tva.toNat
      | _ => s
    else s

/-- EVENT_POST_DEFERRED (R152, R187): the record that has waited longest is posted once space has freed. -/
def eventPostDeferred (s : State) (t slot : Nat) : State :=
  updCtx t (fun c => if c.deferred.head? = some slot then postDeferred 1 c else c) s

/-- A copy ends suspended on a page fault: by `xabort`, or at its team's exit (R387). -/
def failSuspended (s : State) (t slot : Nat) : State :=
  match sfind (s.tile t).ctx.copies slot with
  | some k => match k.state with
    | .suspended _ => endCopy s t slot .failed k.cause k.sub k.fault
    | _ => s
  | none => s

/-! ### Performing the transfer-queue operations -/

/-- `xcopy`, `xcopy.q` (R144, R146, R147, R151). -/
def performCopy (t : Nat) (d : BitVec 5) (rec? : Option CopyRec) (s : State) : Perf :=
  match rec? with
  | none => perfTrap s { cause := cRSVD }
  | some r => match copyTrap s t r with
    | some tr => perfTrap s tr
    | none => match acceptCopy s t r with
      | .error w => { st := s, fin := .stall (s.tile t).ctx.av.vstart w }
      | .ok (s1, ident) => perfDone s1 { dests := [(d, BitVec.ofNat 64 ident)] }

/-- `xabort` (R154, R387). -/
def performXabort (t : Nat) (ident : Word) (s : State) : Perf :=
  match findCopy (s.tile t).ctx ident with
  | none => perfDone s
  | some (slot, k) => match k.state with
    | .running => perfDone (endCopy s t slot .aborted 0 0 0)
    | .suspended _ => perfDone (failSuspended s t slot)
    | _ => perfDone s

/-- Status of `xqry` (R154). -/
def Copy.queryStatus (k : Copy) : Nat := match k.state with | .running => 1 | .suspended _ => 1 | .complete => 2 | _ => 3

def performXqry (t : Nat) (d : BitVec 5) (ident : Word) (s : State) : Perf :=
  perfDone s { dests := [(d, match findCopy (s.tile t).ctx ident with
    | some (_, k) => BitVec.ofNat 64 (k.queryStatus + 2 ^ 32 * (k.moved % 2 ^ 32))
    | none => 0)] }

/-- `xev` (R152). -/
def performXev (t : Nat) (d : BitVec 5) (s : State) : Perf :=
  match (s.tile t).ctx.events with
  | [] => perfDone s { dests := [(d, 0), (d + 1, 0)] }
  | (a, b) :: r => perfDone (updCtx t (fun c => { c with events := r }) s) { dests := [(d, a), (d + 1, b)] }

/-! ### `xwait` (R153) -/

/-- WM as a scratchpad address of the channel. -/
def XChan.mark (x : XChan) : Nat := x.top * 2 ^ 22 + x.wm

def xwaitW (c : BitVec 4) (b : BitVec 5) : M Unit := do
  let s ← get
  if !s.isLead then throw (.trap (decodeTrap cILL))
  let x := s.curTile.ctx.xchan c.toNat
  if x.state = .busy ∧ x.mark < fld (s.reg b) 0 25 then throw (.wait .copyWait)
  set s.advance

def execXwaitW (c : BitVec 4) (b : BitVec 5) (s : State) : Host.Outcome State Fault Refusal := runScalar (xwaitW c b) s

def xwaitE : M Unit := do
  let s ← get
  if !s.isLead then throw (.trap (decodeTrap cILL))
  if s.curTile.ctx.events.isEmpty then throw (.wait .copyWait)
  set s.advance

def execXwaitE (s : State) : Host.Outcome State Fault Refusal := runScalar xwaitE s

/-! ### Events -/

def execCopyLineWrite (tile : BitVec 10) (cslot : BitVec 9) (s : State) : Host.Outcome State Fault Refusal :=
  .next (if (s.tile tile.toNat).still then s else copyLineWrite s tile.toNat cslot.toNat)
def execCopyComplete (tile : BitVec 10) (cslot : BitVec 9) (s : State) : Host.Outcome State Fault Refusal :=
  .next (if (s.tile tile.toNat).still then s else copyComplete s tile.toNat cslot.toNat)
def execCopyPageFault (tile : BitVec 10) (cslot : BitVec 9) (s : State) : Host.Outcome State Fault Refusal :=
  .next (if (s.tile tile.toNat).still then s else copyPageFault s tile.toNat cslot.toNat)
def execEventPostDeferred (tile : BitVec 10) (cslot : BitVec 9) (s : State) : Host.Outcome State Fault Refusal :=
  .next (if (s.tile tile.toNat).still then s else eventPostDeferred s tile.toNat cslot.toNat)

end Sys2Proof.Machine
end

