-- ==== Sys2Proof/Machine/Range.lean ====
section
/-! DEFINITION. The range server (R325, R326, R400): the entries of a partition's pool table and the tokens handed out. -/

namespace Sys2Proof.Machine

/-- What the device reads at a virtual address of the partition: none where the address does not translate or a reservation holds the word. -/
def partLoad (s : State) (p va : Nat) : Option Nat :=
  match partRead p va 8 .read s with
  | .ok v _ => some v
  | .error .. => none

/-- The state after the device's accesses, whether they went through or were held (R285). -/
def partEnd {α : Type} (m : M α) (s : State) : State :=
  match m s with
  | .ok _ s1 => s1
  | .error (.wait w) _ => s.noteWait w
  | .error (.trap _) _ => s

/-- An entry of the pool table (R325). -/
structure PoolEntry where
  ring   : Nat
  size   : Nat
  period : Nat
  tail   : Nat
  closed : Bool
  head   : Nat

/-- Virtual address of a pool's entry. -/
def poolAddr (s : State) (p pool : Nat) : Nat := (s.partition p).word 11 % 2 ^ 48 + 32 * pool

/-- The server reads a pool's entry. -/
def readPool (p pool : Nat) : M PoolEntry := do
  let a := poolAddr (← get) p pool
  let w0 ← partRead p a 8 .read
  let w1 ← partRead p (a + 8) 8 .read
  let w2 ← partRead p (a + 16) 8 .read
  let w3 ← partRead p (a + 24) 8 .read
  return { ring := fieldOf w0 4 44 * 16, size := fieldOf w1 0 32, period := fieldOf w1 32 16, tail := fieldOf w2 0 32,
           closed := fieldOf w2 32 1 = 1, head := fieldOf w3 0 32 }

def Partition.account (x : Partition) (pool tile : Nat) : Nat := sget 0 (sget [] x.accounts pool) tile

/-- The memory-side die whose range server holds a pool's accounts and serves it (R325). -/
def rangeServer (pool : Nat) : Nat := pool % 4

/-- The server observes word 2 of a pool (R326): a pool that was re-opened since has its accounts cleared.  From then on it sees every write
of the word. -/
def observePool (s : State) (p pool : Nat) : State :=
  let x := s.partition p
  let x1 := if x.reopened.contains pool then { x with accounts := sdel x.accounts pool, reopened := x.reopened.filter (· != pool) } else x
  s.setPartition p (match probe s p (poolAddr s p pool + 16) .read with
    | .ok l => { x1 with poolAt := sput x1.poolAt pool (leafAddress s p l (poolAddr s p pool + 16)) }
    | .error _ => x1)

/-- What the server answers a request with. -/
inductive Served where
  | empty | exhausted
  /-- the two words of the token, and the wave that it starts (R400) -/
  | token (w0 w1 : Nat) (wave : Option Nat)
  /-- the pool's words, or the token's, are held: the request is served when they are free (R285, R297) -/
  | held (w : WaitKind)
  deriving DecidableEq, Repr

/-- The server reads the token at `va` for agent `ag`, which consumes it (R396). -/
def readToken (p va : Nat) (ag : Agent) : M Nat := do
  let (pa, _) ← translate {} p va .read
  let bs ← physReadQuiet {} .home (BitVec.ofNat 56 va) pa 16
  modify fun s => ((granules pa 16).filter s.poisoned).foldl (fun s g => consume ag g s) s
  return leNat bs

/-- A token of weight `weight` has been served to tile `t`, as the first of a wave if `wave` says so (R326, R400). -/
def countToken (p pool t weight : Nat) (wave : Bool) (s : State) : State :=
  let x := s.partition p
  let acc := min (x.account pool t + weight) (2 ^ 64 - 1)
  s.setPartition p { x with
    served := sput x.served pool (sget 0 x.served pool + 1)
    marked := if wave then sput x.marked pool (sget 0 x.marked pool + 1) else x.marked
    accounts := sput x.accounts pool (sput (sget [] x.accounts pool) t acc) }

/-- Serve one request of agent `ag` (R325, R326): ring order, the token's WEIGHT added to the tile's account. -/
def servePool (p pool : Nat) (ag : Agent) : M Served := do
  let e ← readPool p pool
  if e.head = e.tail ∨ e.size = 0 then return (if e.closed then .exhausted else .empty)
  let v ← readToken p (e.ring + 16 * (e.head % e.size)) ag
  let x := (← get).partition p
  let wave := decide (e.period ≠ 0) && decide ((sget 0 x.served pool + 1) % e.period = 0)
  modify (countToken p pool (ag.tile.getD 0) (fieldOf v 96 16) wave)
  partWrite p (poolAddr (← get) p pool + 24) (natLe 8 ((e.head + 1) % 2 ^ 32))
  return .token (fieldOf v 0 48) (fieldOf v 64 64) (if wave then some ((sget 0 x.marked pool + 1) % 2 ^ 16) else none)

/-- The service of one request, which happens whole or not at all: a pool whose words do not translate reads as empty. -/
def rangeServe (s : State) (p pool : Nat) (ag : Agent) : State × Served :=
  let s := observePool s p pool
  match servePool p pool ag s with
  | .ok r s1 => (s1, r)
  | .error (.wait w) _ => (s.noteWait w, .held w)
  | .error (.trap _) _ => (s, .empty)

end Sys2Proof.Machine
end

