-- ==== Sys2Proof/Machine/Fabric.lean ====
section
/-! DEFINITION. The spatial fabric: element and link words, the checks of an image (R195 to R200), divertible operators (R239), and how
tokens move, meet and are held between firings (R199, R203, R217, R220, R223, R231 to R236). -/

namespace Sys2Proof.Machine

/-! ### Words (Tables 9.2 and 9.3) -/

def eOp (w : Word) : Nat := fld w 0 6
def ePol (w : Word) : Nat := fld w 6 2
def eBi (w : Word) : Bool := w.getLsbD 8
def eSub (w : Word) : Nat := fld w 10 3
def eTag (w : Word) : Nat := fld w 13 5
def eAux (w : Word) : Nat := fld w 18 14
def eImm (w : Word) : Nat := fld w 32 32

def lFrom (w : Word) : Nat := fld w 0 6
def lOut (w : Word) : Nat := fld w 6 2
def lTo (w : Word) : Nat := fld w 8 6
def lIn (w : Word) : Nat := fld w 14 2
def lStrict (w : Word) : Bool := w.getLsbD 16

/-- Tokens in flight that a link holds (R203, R374). -/
def linkCap (w : Word) : Nat :=
  min (1 + absDiff (lFrom w % 8) (lTo w % 8) + absDiff (lFrom w / 8) (lTo w / 8)) 6

/-- An input's class in Table 9.12. -/
inductive InReq where
  | required | immediate | linked | optional
  deriving DecidableEq, Repr

/-- Inputs and number of outputs of an operator (Tables 9.4, 9.5, 9.12); none for a reserved code. -/
def opShape (op : Nat) : Option (List InReq × Nat) :=
  match op with
  | 4 | 13 | 29 => some ([.required, .required, .required], 1)
  | 14 | 15 | 16 | 27 | 36 => some ([.required], 1)
  | 17 | 21 | 26 => some ([.required, .required], 1)
  | 18 => some ([.required, .optional], 2)
  | 19 => some ([.required, .immediate, .optional], 1)
  | 20 => some ([.required, .immediate, .optional], 2)
  | 22 => some ([.required, .required], 2)
  | 23 => some ([.required, .linked, .linked], 1)
  | 24 => some ([.required, .required], 3)
  | 25 => some ([.required, .linked, .required], 1)
  | 28 => some ([], 3)
  | 30 => some ([], 1)
  | 31 | 33 => some ([.required], 0)
  | 32 => some ([.optional], 1)
  | 34 => some ([.required], 2)
  | 35 => some ([.required, .required], 0)
  | n => if 1 ≤ n ∧ n ≤ 12 then some ([.required, .immediate], 1) else none

def fabInt (t : Nat) : Bool := tagIsInt t && tagWidth t != 4
def fabFloat (t : Nat) : Bool := t = 0x13 || t = 0x14 || t = 0x15
def fabArith (t : Nat) : Bool := fabInt t || fabFloat t

/-- Does every value of tag `a` convert exactly to tag `b` (R205)? -/
def exactInto (a b : Nat) : Bool :=
  if a = b then true
  else if tagIsInt a && tagIsInt b then
    (if tagSigned a = tagSigned b then decide (tagWidth a ≤ tagWidth b) else tagSigned b && decide (tagWidth a < tagWidth b))
  else match tagFmt a, tagFmt b with
    | none, some g => tagIsInt a && decide ((if tagSigned a then tagWidth a - 1 else tagWidth a) ≤ g.mbits + 1)
    | some f, some g => decide (f.mbits ≤ g.mbits) && decide (f.ebits ≤ g.ebits)
    | _, _ => false

/-- Tags that `unpk` and `pack` take (R205). -/
def packTag (t : Nat) : Bool := [0x01, 0x09, 0x10, 0x02, 0x0A, 0x11, 0x12, 0x03, 0x0B, 0x13, 0x14].contains t

/-- TAG values of an operator (Table 9.4, R205 to R214). -/
def opTagOk (op t : Nat) : Bool :=
  match op with
  | 7 | 8 | 9 | 10 | 11 => fabInt t
  | 15 | 16 => packTag t
  | 17 => t = 0x05 || t = 0x0D
  | 18 | 19 => fabArith t || t = 0x11 || t = 0x12
  | 20 => t = 0x04 || t = 0x0C || t = 0x05 || t = 0x0D || t = 0x15
  | 24 => t = 0x0C || t = 0x0D
  | 29 | 32 => legalTag (BitVec.ofNat 5 t)
  | 35 => t = 0x04 || t = 0x15
  | 21 | 22 | 23 | 25 | 26 | 27 | 28 | 30 | 31 | 33 | 34 | 36 => t = 0
  | _ => fabArith t

/-- SUB values of an operator. -/
def opSubOk (op t sub : Nat) : Bool :=
  match op with
  | 11 | 21 | 27 | 36 => decide (sub ≤ 1)
  | 12 => decide (sub ≤ 5)
  | 14 => decide (sub ≤ 4)
  | 20 => decide (sub ≤ 6)
  | 35 => decide (sub ≤ 1) && (t = 0x04 || sub = 0)
  | _ => sub = 0

/-- AUX values of an operator; the bits it does not use are 0. -/
def opAuxOk (op t aux : Nat) : Bool :=
  match op with
  | 14 => fabArith aux
  | 15 => decide (aux < 32) && legalTag (BitVec.ofNat 5 aux) && exactInto t aux
  | 18 | 19 | 20 => decide (aux ≤ 4)
  | 28 => decide (aux < 256)
  | 29 => decide (aux < 64)
  | 30 | 31 => decide (aux < 16)
  | 35 => decide (aux < 8)
  | _ => aux = 0

/-- Operators to which R212 applies a policy. -/
def opHasPolicy (op : Nat) : Bool := (1 ≤ op && op ≤ 13) || [17, 19, 20, 21, 22, 23, 26, 29, 35, 36].contains op

def onRing (e : Nat) : Bool := e % 8 = 0 || e % 8 = 7 || e / 8 = 0 || e / 8 = 7

/-- Step 3 of R200 on the element word of position `e`. -/
def elemLegal (e : Nat) (w : Word) : Bool :=
  if eOp w = 0 then w = 0
  else match opShape (eOp w) with
    | none => false
    | some (ins, _) =>
      opTagOk (eOp w) (eTag w) && opSubOk (eOp w) (eTag w) (eSub w) && opAuxOk (eOp w) (eTag w) (eAux w) &&
      decide (ePol w ≤ 2) && (ePol w = 0 || opHasPolicy (eOp w)) && (!eBi w || ins.contains .immediate) &&
      (!(28 ≤ eOp w && eOp w ≤ 31) || onRing e)

/-! ### Images (R197, R200) -/

def Image.elem (m : Image) (e : Nat) : Word := sget 0 m.elems e
def Image.inLink (m : Image) (e i : Nat) : Option Word := m.links.find? fun w => decide (lTo w = e) && decide (lIn w = i)
def Image.outLink (m : Image) (e o : Nat) : Option Word := m.links.find? fun w => decide (lFrom w = e) && decide (lOut w = o)
def Image.linkedIns (m : Image) (e : Nat) : List Nat := (List.range 3).filter fun i => (m.inLink e i).isSome
def Image.linkedOuts (m : Image) (e : Nat) : List Nat := (List.range 3).filter fun o => (m.outLink e o).isSome

/-- Step 4 of R200 for link number `n`. -/
def linkLegal (m : Image) (n : Nat) (w : Word) : Bool :=
  match opShape (eOp (m.elem (lFrom w))), opShape (eOp (m.elem (lTo w))) with
  | some (_, outs), some (ins, _) =>
    decide (lOut w < outs) && decide (lIn w < ins.length) && !(lIn w = 1 && eBi (m.elem (lTo w))) &&
    (m.links.take n).all fun x => !(lFrom x = lFrom w && lOut x = lOut w) && !(lTo x = lTo w && lIn x = lIn w)
  | _, _ => false

/-- Step 4 of R200 for the element at `e`: its required inputs, and one `vin` and one `vout` per port. -/
def elemLinked (m : Image) (e : Nat) : Bool :=
  let w := m.elem e
  match opShape (eOp w) with
  | none => true
  | some (ins, _) =>
    (ins.zipIdx.all fun (r, i) => match r with
      | .optional => true
      | .immediate => eBi w || (m.inLink e i).isSome
      | _ => (m.inLink e i).isSome) &&
    (!(eOp w = 30 || eOp w = 31) || (List.range e).all fun k => !(eOp (m.elem k) = eOp w && eAux (m.elem k) = eAux w))

/-- Reserved bits of the loop record at Table 13.5. -/
def loopWordsClear (r : Word × Word) : Bool := fld r.1 9 4 = 0 && fld r.1 45 19 = 0 && fld r.2 40 24 = 0

/-- The first word that breaks step 2, 3 or 4 of R200: its index (Table of R200). -/
def imageFault (m : Image) : Option Nat :=
  let nl := m.links.length
  let step2 := ((List.range 64).find? fun e => (m.elem e).getLsbD 9).map (1 + ·)
    |>.or ((m.links.findIdx? fun w => fld w 17 47 != 0).map (65 + ·))
    |>.or ((m.loops.findIdx? fun r => !loopWordsClear r).map (65 + nl + ·))
  let step3 := ((List.range 64).find? fun e => !elemLegal e (m.elem e)).map (1 + ·)
  let step4 := ((List.range nl).find? fun n => !linkLegal m n (m.links.getD n 0)).map (65 + ·)
    |>.or (((List.range 64).find? fun e => !elemLinked m e).map (1 + ·))
  step2.or (step3.or step4)

/-- Step 5 of R200, and the values of the loop records as `drgt.set` checks them (R219, R280, R350): the trap and the record. -/
def loopsFault (s : State) (t : Nat) (m : Image) : Option (Trap × Nat) :=
  let recs := m.loops.map fun r => loopRec r.1.toNat r.2.toNat
  match (List.range m.loops.length).find? fun i =>
      let r := m.loops.getD i (0, 0)
      !loopRecLegal s t (s.tile t).teamTop r.1.toNat r.2.toNat with
  | some i => some ({ cause := cRSVD }, i)
  | none =>
    let others := otherLoops s t (recs.map (·.num))
    let seen := fun i => others ++ ((recs.take i).filter fun r => !r.inert).map fun r => (t, r.num, r)
    ((List.range recs.length).find? fun i => match recs[i]? with
      | some r => !stable (seen i) t r
      | none => false).map fun i => ({ cause := cCOUPLING }, i)

/-- Read 8 bytes for the fabric-port queue of tile `t`, as word number `i` of an image. -/
def imageWord (t : Nat) (ea : Word) (i off : Nat) : M Nat := fun s =>
  let ag := fabricAgent t
  match (do let p ← placeFor t 0 ag (ea + BitVec.ofNat 64 off) 8 .read; readPlace ag p 8 : M (List (BitVec 8))) s with
  | .ok bs s' => .ok (leNat bs) s'
  | .error (.trap tr) s' => .error (.trap { tr with telem := BitVec.ofNat 15 i }) s'
  | .error e s' => .error e s'

/-- Read an image and check it, steps 1 to 4 of R200. -/
def readImageWords (t : Nat) (ea : Word) : M Image := do
  if (classify ea).isNone then throw (.trap { cause := cADDR, tva := tvaOf ea })
  if ea.toNat % 64 ≠ 0 then throw (.trap { cause := cMISALIGN, tva := tvaOf ea })
  let h ← imageWord t ea 0 0
  let nl := fieldOf h 16 8
  let nlp := fieldOf h 24 5
  if h / 2 ^ 29 ≠ 0 ∨ 192 < nl ∨ 16 < nlp ∨ fieldOf h 8 8 ≠ 1 ∨ fieldOf h 0 8 ≠ 0xCF then throw (.trap { cause := cRSVD })
  let es ← (List.range 64).mapM fun e => imageWord t ea (1 + e) (8 + 8 * e)
  let ls ← (List.range nl).mapM fun n => imageWord t ea (65 + n) (520 + 8 * n)
  let base := (520 + 8 * nl + 63) / 64 * 64
  let rs ← (List.range nlp).mapM fun k => do
    let a ← imageWord t ea (65 + nl + k) (base + 16 * k)
    let b ← imageWord t ea (65 + nl + k) (base + 16 * k + 8)
    return (BitVec.ofNat 64 a, BitVec.ofNat 64 b)
  let m : Image := { elems := (es.zipIdx.filter fun (w, _) => w != 0).map fun (w, e) => (e, BitVec.ofNat 64 w)
                     links := ls.map (BitVec.ofNat 64), loops := rs }
  match imageFault m with
  | some i => throw (.trap { cause := cRSVD, telem := BitVec.ofNat 15 i })
  | none => return m

/-- Read an image and check it, steps 1 to 5 of R200. -/
def readImage (t : Nat) (ea : Word) : M Image := do
  let m ← readImageWords t ea
  match loopsFault (← get) t m with
  | some (tr, i) => throw (.trap { tr with telem := BitVec.ofNat 15 (65 + m.links.length + i) })
  | none => return m

/-! ### Divertible operators (R215, R239) -/

/-- A commutative operator (R215). -/
def commutative (w : Word) : Bool := eOp w = 35 || (eOp w = 20 && decide (eSub w ≤ 2)) || (eOp w = 27 && eSub w = 0)

def isMemOp (w : Word) : Bool := eOp w = 18 || eOp w = 19 || eOp w = 20

/-- Data inputs of a commutative operator. -/
def dataIns (w : Word) : List Nat := if eOp w = 27 then [0] else [0, 1]

/-- The consumer and the input of it that a memory operator with exactly one linked output drives, where the consumer is commutative. -/
def divertTo (m : Image) (e : Nat) : Option (Nat × Nat) :=
  match m.linkedOuts e with
  | [o] => (m.outLink e o).bind fun l =>
      if isMemOp (m.elem e) && commutative (m.elem (lTo l)) then some (lTo l, lIn l) else none
  | _ => none

/-- One round: keep the operators whose consumer's linked data inputs all come from the set. -/
def divertRound (m : Image) (set : List Nat) : List Nat :=
  set.filter fun e => match divertTo m e with
    | some (d, _) => (dataIns (m.elem d)).all fun i => match m.inLink d i with
        | some l => set.contains (lFrom l)
        | none => true
    | none => false

/-- The divertible positions of an image: the greatest set that R239 allows. -/
def divertible (m : Image) : List Nat := iterate (divertRound m) 64 ((List.range 64).filter fun e => (divertTo m e).isSome)

/-! ### Loading (R219) -/

/-- A position as an image gives it. -/
def freshPos (m : Image) (g : BitVec 8) (e : Nat) : Pos :=
  let w := m.elem e
  { word := w, gen := g, dv := (divertible m).contains e, s0 := if eOp w = 36 then BitVec.ofNat 64 (eImm w % 32) else 0 }

def freshLink (g : BitVec 8) (w : Word) : FLink := { word := w, gen := g }

/-- Positions and links of a loaded image at generation 0. -/
def loadImage (m : Image) : Fabric :=
  { code := 1, image := m, pos := m.elems.map fun (e, _) => (e, freshPos m 0 e), links := m.links.map (freshLink 0) }

/-! ### Access to positions -/

def Fabric.at (f : Fabric) (e : Nat) : Pos := sget {} f.pos e
def Fabric.setAt (f : Fabric) (e : Nat) (p : Pos) : Fabric := { f with pos := sput f.pos e p }
def Fabric.bump (f : Fabric) (k n : Nat) : Fabric := { f with counts := sput f.counts k (min (sget 0 f.counts k + n) (2 ^ 32 - 1)) }
/-- Count a firing, modulo 2^32 (selector 9). -/
def Fabric.fired (f : Fabric) : Fabric := { f with counts := sput f.counts 9 ((sget 0 f.counts 9 + 1) % 2 ^ 32) }

/-- The image of a generation. -/
def Fabric.imageAt (f : Fabric) (g : BitVec 8) : Image :=
  match f.next with
  | some (_, m) => if g = f.gen then f.image else m
  | none => f.image

/-- The image of a position's generation. -/
def Fabric.imageOf (f : Fabric) (p : Pos) : Image := f.imageAt p.gen

def Fabric.insOf (f : Fabric) (e : Nat) (p : Pos) : List Nat := (f.imageOf p).linkedIns e
def Fabric.outsOf (f : Fabric) (e : Nat) (p : Pos) : List Nat := (f.imageOf p).linkedOuts e

def Pos.inTok (p : Pos) (i : Nat) : Option Token := sfind p.ins i
def Pos.dropIn (p : Pos) (i : Nat) : Pos := { p with ins := sdel p.ins i }
def Pos.dropIns (p : Pos) (l : List Nat) : Pos := l.foldl Pos.dropIn p
def Pos.hasEnded (p : Pos) (i : Nat) : Bool := p.ended / 2 ^ i % 2 = 1
def Pos.mark4 (p : Pos) (bit : Nat) (v : Bool) : Pos :=
  { p with ended := if v = p.hasEnded bit then p.ended else if v then p.ended + 2 ^ bit else p.ended - 2 ^ bit }
def Pos.end (p : Pos) (i : Nat) : Pos := p.mark4 i true

/-- Is every linked output slot of the position empty? -/
def Fabric.outsFree (f : Fabric) (e : Nat) (p : Pos) : Bool := (f.outsOf e p).all fun o => (sfind p.outs o).isNone

/-- Place tokens in the linked output slots; an unlinked output discards (R199). -/
def Fabric.emit (f : Fabric) (e : Nat) (p : Pos) (l : List (Nat × Token)) : Pos :=
  let outs := f.outsOf e p
  { p with outs := l.foldl (fun m (o, x) => if outs.contains o then sput m o { x with gen := p.gen } else m) p.outs }

def Fabric.emitAll (f : Fabric) (e : Nat) (p : Pos) (x : Token) : Pos := f.emit e p ((List.range 3).map fun o => (o, x))

/-- A position with a pending source switch (R220): no linked input, still of the old generation. -/
def Fabric.sourcePending (f : Fabric) (e : Nat) (p : Pos) : Bool :=
  f.next.isSome && decide (p.gen = f.gen) && (f.insOf e p).isEmpty

/-- Has the position, which has no linked input, still to emit one of the held markers, ahead of any other token (R223)?  Up to its switch it emits
those that were held when the switch was asked for, and behind it the later ones (R235). -/
def Fabric.marksWait (f : Fabric) (e : Nat) (p : Pos) : Bool :=
  (f.insOf e p).isEmpty && p.word != 0 &&
    decide (p.marked < (if f.next.isSome && p.gen = f.gen then min f.swAt f.marks.length else f.marks.length))

/-- The stall of a position is over: its access is performed again (R240). -/
def Pos.unstall (p : Pos) : Pos := if p.stl then { p with stl := false, s1 := 0 } else p

/-- Is the position in the middle of a firing that emits several tokens (R231)? -/
def Pos.midFiring (p : Pos) : Bool :=
  match eOp p.word with
  | 15 => p.s1 != 0
  | 17 => p.s2.getLsbD 0
  | 28 => p.owed.isSome
  | _ => false

/-- Positions that the links of an image reach from those of `l`. -/
def closure (m : Image) : Nat → List Nat → List Nat
  | 0, l => l
  | n + 1, l => closure m n (l ++ ((m.links.filter fun w => l.contains (lFrom w) && !l.contains (lTo w)).map lTo).eraseDups)

/-- Inputs on which a loop's own tokens return (R220): `carry` B, and `merge` B or C where the operator's own output reaches it. -/
def loopBack (m : Image) (e i : Nat) : Bool :=
  match eOp (m.elem e) with
  | 25 => i = 1
  | 23 => (i = 1 || i = 2) && (match m.inLink e i with
      | some l => (closure m 64 [e]).contains (lFrom l)
      | none => false)
  | _ => false

/-- Linked inputs other than the loop-back ones. -/
def Fabric.forwardIns (f : Fabric) (e : Nat) (p : Pos) : List Nat := (f.insOf e p).filter fun i => !loopBack (f.imageOf p) e i

/-! ### Faults (R227) -/

/-- A fault stops the operator; the first one sets FAULTED and is taken by the lead strand. -/
def fabricFault (c : Ctx) (e : Nat) (tr : Trap) : Ctx :=
  let f := c.fabric
  let f1 := f.setAt e { f.at e with flt := true }
  if f.code = 5 then { c with fabric := f1 }
  else
    let y := sget {} c.strands 0
    let y1 := { y with traps := y.traps ++ [{ tr with telem := BitVec.ofNat 15 e }] }
    { c with fabric := { f1 with code := 5, faultPos := e, faultCause := tr.cause }, strands := sput c.strands 0 y1 }

/-! ### Tokens between firings -/

/-- Order input of a memory operator (R201, R206). -/
def orderIn (w : Word) : Option Nat := match eOp w with | 18 => some 1 | 19 => some 2 | 20 => some 2 | _ => none

/-- Inputs that a firing of the general pattern consumes together (Table 9.12), the order input apart. -/
def dataNeed (w : Word) : List Nat :=
  match eOp w with
  | 4 | 13 | 29 => [0, 1, 2]
  | 17 | 21 | 22 | 24 | 26 | 35 => [0, 1]
  | 18 => [0]
  | 23 | 25 => [0, 1, 2]
  | n => if (1 ≤ n ∧ n ≤ 12) ∨ n = 19 ∨ n = 20 then (if eBi w then [0] else [0, 1]) else [0]

/-- Joins whose state words hold which inputs have ended (Table 11.4). -/
def keepsEnded (w : Word) : Bool := (1 ≤ eOp w && eOp w ≤ 13) || [21, 22, 23, 24, 26].contains (eOp w)

/-- Does the slot's EOS leave its slot without a firing: at an order input, at `carry` B or C, at a join that keeps which inputs have
ended and waits for another, and where it would hold up a marker that another input holds (R235)? -/
def absorbsEos (p : Pos) (i : Nat) : Bool :=
  if orderIn p.word = some i then true
  else match eOp p.word with
    | 25 => i != 0
    | _ => (dataNeed p.word).any fun j => j != i && ((keepsEnded p.word && !p.hasEnded j) ||
        (match p.inTok j with | some x => decide (x.kind = .marker) | none => false))

/-- Move the heads of the links into free input slots of positions of their generation. -/
def linkIn (f : Fabric) : List FLink → Fabric × List FLink × Bool
  | [] => (f, [], false)
  | l :: r =>
    let e := lTo l.word
    let p := f.at e
    match l.toks with
    | [] => let (f', r', b) := linkIn f r; (f', l :: r', b)
    | x :: xs =>
      if l.gen = p.gen ∧ (p.inTok (lIn l.word)).isNone then
        let (f', r', _) := linkIn (f.setAt e { p with ins := sput p.ins (lIn l.word) x }) r
        (f', { l with toks := xs } :: r', true)
      else let (f', r', b) := linkIn f r; (f', l :: r', b)

/-- Tokens of the old generation that reach a loop-back input after its position has switched (R220, R234): old data is an orphan, the
switch token is absorbed and ends the link.  An orphan on a STRICT link comes to stand in the slot. -/
def drainOld (c : Ctx) : List FLink → Ctx × List FLink
  | [] => (c, [])
  | l :: r =>
    let e := lTo l.word
    let p := c.fabric.at e
    if p.gen ≠ l.gen + 1 ∨ p.flt then let (c', r') := drainOld c r; (c', l :: r')
    else match l.toks with
      | [] => let (c', r') := drainOld c r; (c', l :: r')
      | x :: xs =>
        match x.kind with
        | .switch => drainOld c r
        | .data =>
          if lStrict l.word then
            if (p.inTok (lIn l.word)).isSome then let (c', r') := drainOld c r; (c', l :: r')
            else
              let c1 := { c with fabric := c.fabric.setAt e { p with ins := sput p.ins (lIn l.word) x } }
              let (c', r') := drainOld (fabricFault c1 e { cause := cFORPHAN }) r
              (c', { l with toks := xs } :: r')
          else let (c', r') := drainOld { c with fabric := c.fabric.bump 1 1 } r; (c', { l with toks := xs } :: r')
        | _ => let (c', r') := drainOld c r; (c', { l with toks := xs } :: r')

/-- Inputs of position `e` whose data are orphans now (R234). -/
def orphanIns (f : Fabric) (e : Nat) (p : Pos) : List Nat :=
  let ins := f.insOf e p
  let kindAt := fun i => (p.inTok i).map (·.kind)
  let sw := fun i => kindAt i = some .switch
  if ins.length < 2 then []
  else match eOp p.word with
    | 23 =>
      if sw 0 then [1, 2]
      else match p.inTok 0 with
        | some x => if x.kind = .data ∧ sw (if x.val ≠ 0 then 1 else 2) then [0] else []
        | none => []
    | 25 =>
      let loop := p.s0.getLsbD 0
      if sw 0 && sw 2 then [1]
      else if sw 0 && !loop then [2]
      else if sw 2 && loop then [0, 1]
      else []
    | _ => if ins.any sw then ins.filter fun i => !sw i else []

/-- Remove one orphan, or consume an EOS that meets a switch (R235). -/
def orphanStep (c : Ctx) (e : Nat) : Option Ctx :=
  let f := c.fabric
  let p := f.at e
  if p.flt then none
  else
    (orphanIns f e p).findSome? fun i => match p.inTok i with
      | some x => match x.kind with
        | .data =>
          if ((f.imageOf p).inLink e i).any lStrict then some (fabricFault c e { cause := cFORPHAN })
          else some { c with fabric := (f.setAt e (p.dropIn i)).bump 1 1 }
        | .eos => some { c with fabric := f.setAt e ((p.dropIn i).end i) }
        | _ => none
      | none => none

/-- A marker passes a position when every forward input holds it (R235); on a loop-back input it is absorbed. -/
def markerStep (c : Ctx) (e : Nat) : Option Ctx :=
  let f := c.fabric
  let p := f.at e
  let ins := f.forwardIns e p
  let markAt := fun i => match p.inTok i with | some x => if x.kind = .marker then some x.mark else none | none => none
  if p.flt then none
  else match (f.insOf e p).find? fun i => !ins.contains i && (markAt i).isSome with
    | some i => some { c with fabric := f.setAt e (p.dropIn i) }
    | none =>
      match ins with
      | [] => none
      | i :: r => match markAt i with
        | none => none
        | some m =>
          if r.all (fun j => markAt j = some m) ∧ f.outsFree e p ∧ !p.midFiring then
            some { c with fabric := f.setAt e { f.emitAll e (p.dropIns ins) { kind := .marker, mark := m } with mark := some m } }
          else none

/-- An EOS that leaves its slot without a firing. -/
def eosStep (c : Ctx) (e : Nat) : Option Ctx :=
  let f := c.fabric
  let p := f.at e
  if p.flt then none
  else match (f.insOf e p).find? fun i => (match p.inTok i with | some x => decide (x.kind = .eos) | none => false) && absorbsEos p i with
    | some i => some { c with fabric := f.setAt e ((p.dropIn i).end i) }
    | none =>
      -- the value that `inv` keeps is discarded once B has ended (Table 9.5)
      if eOp p.word = 26 ∧ p.hasEnded 1 ∧ p.hasEnded 4 then some { c with fabric := f.setAt e ((p.dropIn 0).mark4 4 false) } else none

/-- The slot work of every position, once. -/
def slotPass (c : Ctx) : Ctx × Bool :=
  c.fabric.pos.foldl (fun (c, b) (e, _) =>
    match (orphanStep c e).or ((markerStep c e).or (eosStep c e)) with
    | some c' => (c', true)
    | none => (c, b)) (c, false)

/-- Tokens in flight on the link of a word, of both generations while a switch spreads (R374). -/
def inFlight (ls : List FLink) (w : Word) : Nat := ((ls.filter (·.word = w)).map (·.toks.length)).sum

/-- Move output slots onto their links (R203). -/
def linkOut (f : Fabric) : List FLink → Fabric × List FLink × Bool
  | [] => (f, [], false)
  | l :: r =>
    let e := lFrom l.word
    let p := f.at e
    match sfind p.outs (lOut l.word) with
    | some x =>
      if x.gen = l.gen ∧ inFlight f.links l.word < linkCap l.word then
        let (f', r', _) := linkOut (f.setAt e { p with outs := sdel p.outs (lOut l.word) }) r
        (f', { l with toks := l.toks ++ [x] } :: r', true)
      else let (f', r', b) := linkOut f r; (f', l :: r', b)
    | none => let (f', r', b) := linkOut f r; (f', l :: r', b)

/-- Every position without a linked input emits the next held marker that it has still to emit, behind the tokens that it has emitted (R223). -/
def emitMarks (f : Fabric) : Fabric × Bool :=
  f.pos.foldl (fun (g, b) (e, _) =>
    let p := g.at e
    match g.marks[p.marked]? with
    | some m =>
      if g.marksWait e p && g.outsFree e p && !p.midFiring then
        (g.setAt e { g.emitAll e p { kind := .marker, mark := m } with marked := p.marked + 1 }, true)
      else (g, b)
    | none => (g, b)) (f, false)

/-- The oldest held marker is dropped when every source has emitted it; one that stands behind a switch waits for the sources that the switch
still brings (R220, R223). -/
def dropMark (f : Fabric) : Fabric × Bool :=
  match f.marks with
  | [] => (f, false)
  | _ :: r =>
    if (f.next.isNone || f.swAt != 0) && f.pos.all (fun (e, p) => p.word == 0 || !(f.insOf e p).isEmpty || p.marked != 0) then
      ({ f with marks := r, swAt := f.swAt - 1, pos := f.pos.map fun (e, p) => (e, { p with marked := p.marked - 1 }) }, true)
    else (f, false)

def injectMark (f : Fabric) : Fabric × Bool :=
  let (f1, b1) := emitMarks f
  let (f2, b2) := dropMark f1
  (f2, b1 || b2)

/-- One pass over links and slots; the flag says that something moved. -/
def settlePass (c : Ctx) : Ctx × Bool :=
  let (c1, ls1) := drainOld c c.fabric.links
  let (f1, ls2, b1) := linkIn c1.fabric ls1
  let (c2, b2) := slotPass { c1 with fabric := { f1 with links := ls2 } }
  let (f2, b3) := if c2.fabric.code = 2 ∨ c2.fabric.code = 5 then injectMark c2.fabric else (c2.fabric, false)
  let (f3, ls3, b4) := linkOut f2 f2.links
  ({ c2 with fabric := { f3 with links := ls3 } }, b1 || b2 || b3 || b4)

def settleN : Nat → Ctx → Ctx
  | 0, c => c
  | n + 1, c => let (c', b) := settlePass c; if b then settleN n c' else c'

def noData (m : SMap Token) : Bool := m.all fun (_, x) => x.kind != .data && x.kind != .marker

/-- The conditions of R217 and R229. -/
def fabricEnded (f : Fabric) : Bool :=
  f.next.isNone && f.spill.isEmpty && f.marks.isEmpty &&
  (f.links.all fun l => (f.at (lTo l.word)).hasEnded (lIn l.word) && l.toks.all fun x => x.kind != .data && x.kind != .marker) &&
  f.pos.all fun (_, p) => noData p.ins && noData p.outs && !p.midFiring && !p.stl

/-- Let tokens move, then enter DONE where R217 and R229 hold. -/
def settle (c : Ctx) : Ctx :=
  if c.fabric.code = 2 ∨ c.fabric.code = 5 then
    let c1 := settleN 64 c
    if c1.fabric.code = 2 ∧ fabricEnded c1.fabric then { c1 with fabric := { c1.fabric with code := 4 } } else c1
  else c

/-! ### Switching a position (R220, R234, R236) -/

/-- May position `e` take the new generation now? -/
def mayTurn (f : Fabric) (e : Nat) (p : Pos) : Bool :=
  let held := fun i => match p.inTok i with | some x => decide (x.kind = .switch) | none => false
  f.next.isSome && decide (p.gen = f.gen) && !p.flt && !p.midFiring && f.outsFree e p &&
  (f.forwardIns e p).all held && !f.marksWait e p &&
  (f.insOf e p).all (fun i => held i || (p.inTok i).isNone) &&
  !f.spill.any (fun x => decide (x.gen = p.gen) && (decide (x.src = e) || decide (x.dst = e)))

/-- Every position has taken the new generation: the switch has spread. -/
def finishSpread (f : Fabric) : Fabric :=
  match f.next with
  | none => f
  | some (_, m) =>
    if f.pos.all fun (_, p) => decide (p.gen ≠ f.gen) then
      { f with image := m, gen := f.gen + 1, next := none, swAt := 0, pos := f.pos.filter fun (_, p) => p.word != 0
               links := f.links.filter fun l => m.elem (lTo l.word) != 0 }
    else f

/-- Links of the new image that position `e` needs and that do not stand yet: into it, and out of it to positions that have still to switch, where
its tokens wait (R220, R374). -/
def newLinks (f : Fabric) (m : Image) (e : Nat) : List FLink :=
  (m.links.filter fun w => (decide (lTo w = e) || decide (lFrom w = e)) && !f.links.any fun l => decide (l.word = w) && decide (l.gen = f.gen + 1)).map
    (freshLink (f.gen + 1))

/-- Position `e` switches: a switch token on each linked output, then the element word and the links of the new image. -/
def turnPos (f : Fabric) (e : Nat) : Fabric :=
  match f.next with
  | none => f
  | some (_, m) =>
    let p := f.at e
    let outs := (f.emitAll e p { kind := .switch }).outs
    let keep := fun (l : FLink) => decide (l.gen ≠ f.gen) || !(decide (lTo l.word = e)) ||
      (loopBack f.image e (lIn l.word) && (p.inTok (lIn l.word)).isNone)
    let q : Pos := { freshPos m (f.gen + 1) e with outs := outs, marked := max p.marked f.swAt }
    finishSpread { f.setAt e q with links := f.links.filter keep ++ newLinks f m e }

def fabricPositionSwitch (c : Ctx) (e : Nat) : Ctx :=
  let f := c.fabric
  if (f.code = 2 ∨ f.code = 5) ∧ mayTurn f e (f.at e) ∧ (sfind f.pos e).isSome then settle { c with fabric := turnPos f e } else c

/-- FABRIC_POSITION_SWITCH. -/
def execFabricPositionSwitch (tile : BitVec 10) (pos : BitVec 6) (s : State) : Host.Outcome State Fault Refusal :=
  .next (if (s.tile tile.toNat).still then s else updCtx tile.toNat (fun c => fabricPositionSwitch c pos.toNat) s)

/-- Begin a switch to an image (R220): positions that the old image leaves empty take the new one at once. -/
def beginSwitch (f : Fabric) (ea : Word) (m : Image) : Fabric :=
  let f1 := { f with next := some (ea, m), swAt := f.marks.length }
  let added := (m.elems.map (·.1)).filter fun e => (sfind f.pos e).isNone
  finishSpread (added.foldl (fun f e =>
    { f.setAt e { freshPos m (f.gen + 1) e with marked := f.swAt } with links := f.links ++ newLinks f m e }) f1)

end Sys2Proof.Machine
end

