-- ==== Sys2Proof/Machine/FabricOps.lean ====
section
/-! DEFINITION. The operators of the fabric (R204 to R215, R240 to R245): one firing of each, the late firings of the spill queue, and
the resolution of page faults. -/

namespace Sys2Proof.Machine

/-! ### Values (R196, R198, R204) -/

/-- IMM as a TAG encoding; an operator without a tag takes all 32 bits (R198). -/
def immBits (w : Word) : Nat :=
  let t := eTag w
  if t = 0 then eImm w
  else if tagWidth t = 64 then (if tagSigned t then wrap 64 (signed 32 (eImm w)) else eImm w)
  else eImm w % 2 ^ tagWidth t

/-- The token value of IMM. -/
def immToken (w : Word) : Word := if eTag w = 0 then BitVec.ofNat 64 (immBits w) else tokenValue (eTag w) (immBits w)

def dataTok (v : Word) : Token := { val := v }
def eosTok : Token := { kind := .eos }

/-- The arithmetic and logic operators on TAG elements (Table 9.4), `shl` and `shr` apart. -/
def fabricArith (op : Nat) : Option ArithOp :=
  match op with
  | 1 => some .add | 2 => some .sub | 3 => some .mul | 4 => some .fma | 5 => some .min | 6 => some .max
  | 7 => some .and | 8 => some .or | 9 => some .xor
  | _ => none

/-- `cmp` (Table 9.4): any NaN makes all false but ne. -/
def fabricCmp (sub t x y : Nat) : Bool :=
  let c := fun (o : CmpOp) (a b : Nat) => (cmpElem o .rne t t t a b).1
  match sub with
  | 0 => c .eq x y | 1 => c .ne x y | 2 => c .lt x y | 3 => c .le x y | 4 => c .lt y x | _ => c .le y x

/-- O0 of the operators of Table 9.4, from the 64-bit values on A, B and C. -/
def pureResult (w : Word) (a b c : Word) : Word :=
  let t := eTag w
  let wd := tagWidth t
  let el := fun (x : Word) => x.toNat % 2 ^ wd
  match eOp w with
  | 10 => tokenValue t (el a * 2 ^ (el b % wd) % 2 ^ wd)
  | 11 => tokenValue t (if eSub w = 1 then wrap wd (signed wd (el a) / 2 ^ (el b % wd)) else el a / 2 ^ (el b % wd))
  | 12 => if fabricCmp (eSub w) t (el a) (el b) then 1 else 0
  | 13 => tokenValue t (el (if a ≠ 0 then b else c))
  | 14 => tokenValue (eAux w) (convertElem t (eAux w) (rmOf (eSub w)) (el a)).1
  | n => match fabricArith n with
    | some o => tokenValue t (arithElem o .rne t t t t (el a) (el b) (el c)).1
    | none => 0

/-! ### The common pattern of a firing (R201, R212, R345) -/

/-- Does a bound loop actuate the position (R345)? -/
def actuated (x : Tile) (e : Nat) : Bool :=
  (x.ctx.loops.any fun (_, l) => l.live && decide (l.record.ctgt = 64 + e)) || x.weights.any fun w => decide (w.target.toNat = 64 + e)

/-- The position may spend a firing (R345). -/
def gateOk (x : Tile) (e : Nat) : Bool := !actuated x e || decide (256 ≤ (x.ctx.fabric.at e).bucket)

/-- A firing is counted, and subtracted from the bucket of a gated position. -/
def spend (t e : Nat) (s : State) : State :=
  let g := actuated (s.tile t) e
  updCtx t (fun c =>
    let f := c.fabric.fired
    let p := f.at e
    { c with fabric := if g then f.setAt e { p with bucket := max (p.bucket - 256) (-512) } else f }) s

/-- A fault of position `e`; a `WALK` is also posted to the supervisor, and while its notice cannot be written the position stays as it is
(R227, R228, R306, R372). -/
def fabFault (t e : Nat) (tr : Trap) (s : State) : State :=
  let notice := noticeWords tr.cause tr.sub t 0 (some e) tr.tva (BitVec.ofNat 15 e) 0 (s.cidOf t 0)
  let (s1, held) := match (s.tile t).part with
    | some p => postAll s p (if tr.cause = cWALK then [notice] else [])
    | none => (s, false)
  let tr1 := { tr with posted := true }
  updCtx t (fun c => if held then { c with fabric := c.fabric.setAt e { c.fabric.at e with posting := some tr1 } } else fabricFault c e tr1) s1

/-- What a firing computes: the tokens it emits, or that it cannot fire now, or how its access faults. -/
inductive Fired where
  | emit (s : State) (outs : List (Nat × Word))
  | hold (s : State)
  | trap (t : Trap)

/-- Put an entry's notice to the supervisor, and the resolution watch on the table entry (R228, R372, R386). -/
def fabricNotice (t e : Nat) (tr : Trap) (line : Nat) (s : State) : State :=
  let s1 := { s with resWatches := s.resWatches ++ [line] }
  match (s.tile t).part with
  | some p => postNotice s1 p (noticeWords tr.cause tr.sub t 0 (some e) tr.tva (BitVec.ofNat 15 e) 0 (s.cidOf t 0))
  | none => s1

def memAccess (w : Word) : Access := if eOp w = 18 then .read else if eOp w = 19 then .write else .atomic

def faultLine (s : State) (t : Nat) (w : Word) (tr : Trap) : Nat :=
  faultEntry s ((s.tile t).part.getD 0) tr.tva.toNat (memAccess w) / 128

/-- Stall at the element with its inputs held (R240). -/
def stallPos (t e : Nat) (ea : Word) (tr : Trap) (s : State) : State :=
  let line := faultLine s t ((s.tile t).ctx.fabric.at e).word tr
  fabricNotice t e tr line (updCtx t (fun c =>
    let p := c.fabric.at e
    { c with fabric := c.fabric.setAt e { p with stl := true, s1 := ea, watch := line } }) s)

/-! ### Memory operators (R206, R237, R238) -/

/-- A read-modify-write of the fabric at a checked place. -/
def fabricAtomic (t : Nat) (p : Place) (n : Nat) (wide : Bool) (f : Nat → Nat) : M Nat := do
  let ag := fabricAgent t
  match p with
  | .spd h off =>
    let old := leNat (← spdRead ag h off n)
    spdWrite t h off (natLe n (f old))
    return old
  | .mem pa va ns =>
    memAtomic ag (atomicPath ns wide) va pa n fun m => some (f m)

/-- The function of `amon` (R206). -/
def amonValue (sub t m y : Nat) : Nat :=
  match sub with
  | 0 => if tagIsFloat t then (arithElem .add .rne t t t t m y 0).1 else (m + y) % 2 ^ tagWidth t
  | 1 => (arithElem .min .rne t t t t m y 0).1
  | 2 => (arithElem .max .rne t t t t m y 0).1
  | 3 => m &&& y
  | 4 => m ||| y
  | 5 => m ^^^ y
  | _ => y

/-- The access of a memory operator: the values of O0 and O1. -/
def fabricAccess (t : Nat) (w : Word) (ea : Word) (opr : Word) : M (Word × Word) := do
  let tag := eTag w
  let n := tagWidth tag / 8
  let ag := fabricAgent t
  let p ← placeFor t 0 ag ea n (memAccess w)
  match eOp w with
  | 18 =>
    let bs ← readPlace ag p n
    return (tokenValue tag (leNat bs), 0)
  | 19 =>
    writePlace t ag p (natLe n (opr.toNat % 2 ^ tagWidth tag))
    return (0, 0)
  | _ =>
    let old ← fabricAtomic t p n (2 ≤ eAux w) (fun m => amonValue (eSub w) tag m (opr.toNat % 2 ^ tagWidth tag))
    return (tokenValue tag old, 0)

/-- Outputs of a memory operator. -/
def accessOuts (w : Word) (r : Word × Word) : List (Nat × Word) := if eOp w = 19 then [(0, 0)] else [(0, r.1), (1, r.2)]

def runAccess (t : Nat) (w : Word) (ea opr : Word) (s : State) : Fired :=
  match fabricAccess t w ea opr s with
  | .ok r s' => .emit s' (accessOuts w r)
  | .error (.trap tr) _ => .trap tr
  | .error (.wait k) _ => .hold (s.noteWait k)

/-! ### The other operators with an effect outside the fabric -/

/-- `acc` (R213): add to one element of a q register. -/
def accStep (c : Ctx) (w : Word) (x y : Nat) : Ctx :=
  if 1024 ≤ x then { c with fabric := c.fabric.bump 6 1 }
  else
    let qd := eAux w
    let q := sget 0 c.q qd
    let old := qGet q (x / 32) (x % 32)
    if eTag w = 0x15 then { c with q := sput c.q qd (qPut q (x / 32) (x % 32) (accFloat old (plusZero (decodeF .fp32 y)))) }
    else
      let (v, sat) := accInt (eSub w = 1) old (signed 32 y)
      { c with
        q := sput c.q qd (qPut q (x / 32) (x % 32) v)
        sat := if sat then sput c.sat qd (setField (sget 0 c.sat qd) x 1 1) else c.sat }

/-- The copy record of an `xreq` (R210). -/
def xreqRecord (w a b c : Word) : CopyRec :=
  let t := eTag w
  { base := fld a 0 48, tag := t, exts := [fld c 0 16], strides := [((tagWidth t / 8 : Nat) : Int)], spa := fld b 0 25
    out := (eAux w) / 16 % 2 = 1, rot := 0, lp := 0, chan := eAux w % 16, mreg := 0, ev := (eAux w) / 32 % 2 = 1, lim := 0 }

/-- `xreq` (R210): none of its inputs leaves while acceptance waits. -/
def runXreq (t : Nat) (w a b c : Word) (s : State) : Fired :=
  let r := xreqRecord w a b c
  match copyTrap s t r with
  | some tr => .trap { tr with tva := BitVec.ofNat 56 (fld a 0 48) }
  | none => match acceptCopy s t r with
    | .error k => .hold (s.noteWait k)
    | .ok (s', ident) => .emit s' [(0, BitVec.ofNat 64 ident)]

/-- `tagchk` (R214): the token it emits and the next expected tag; none on a mismatch. -/
def tagCheck (p : Pos) (a : Word) : Option (Word × Word) :=
  if fld a 59 5 = fld p.s0 0 5 then
    some (if eSub p.word = 1 then setField a 59 5 0 else a, BitVec.ofNat 64 ((fld p.s0 0 5 + 1) % (eImm p.word / 32 % 32 + 1)))
  else none

def updPos (t e : Nat) (g : Pos → Pos) (s : State) : State :=
  updCtx t (fun c => { c with fabric := c.fabric.setAt e (g (c.fabric.at e)) }) s

/-- What a firing of the general pattern computes from its data values. -/
def compute (t e : Nat) (p : Pos) (a b c : Word) (s : State) : Fired :=
  let w := p.word
  let f := (s.tile t).ctx.fabric
  match eOp w with
  | 16 =>
    let wd := tagWidth (eTag w)
    let n := p.s1.toNat
    let v := p.s0 ||| BitVec.ofNat 64 (a.toNat % 2 ^ wd * 2 ^ (n * wd))
    if n + 1 = 64 / wd then .emit (updPos t e (fun p => { p with s0 := 0, s1 := 0 }) s) [(0, v)]
    else .emit (updPos t e (fun p => { p with s0 := v, s1 := BitVec.ofNat 64 (n + 1) }) s) []
  | 18 => runAccess t w a 0 s
  | 19 => runAccess t w a b s
  | 20 => runAccess t w a b s
  | 21 => .emit s (if (a ≠ 0) ≠ (eSub w = 1) then [(0, b)] else [])
  | 22 => .emit s [(if a ≠ 0 then 0 else 1, b)]
  | 27 => .emit (updPos t e (fun p => { p with s0 := p.s0 + 1 }) s) (if eSub w = 1 then [(0, p.s0)] else [])
  | 29 => runXreq t w a b c s
  | 31 =>
    let q := f.outQueue (eAux w)
    if 8 ≤ q.length then .hold s
    else .emit (updCtx t (fun c => { c with fabric := { c.fabric with outq := sput c.fabric.outq (eAux w) (q ++ [{ dataTok a with gen := p.gen }]) } }) s) []
  | 32 => .emit s [(0, immToken w)]
  | 33 => .emit s []
  | 34 => .emit s [(0, a), (1, a)]
  | 35 => .emit (updCtx t (fun c => accStep c w (fld a 0 32) (fld b 0 32)) s) []
  | 36 => match tagCheck p a with
    | some (v, nx) => .emit (updPos t e (fun p => { p with s0 := nx }) s) [(0, v)]
    | none => .trap { cause := cFTAG }
  | _ => .emit s [(0, pureResult w a b c)]

/-! ### The spill queue (R239, R241 to R244) -/

/-- Is the operator that drives input `i` of position `e` divertible, as the position's own generation classes it?  A token that carries an
ordinal comes from such an operator. -/
def fedBy (f : Fabric) (e : Nat) (p : Pos) (i : Nat) : Bool :=
  match (f.imageOf p).inLink e i with
  | none => false
  | some w =>
    (let q := f.at (lFrom w)
     if q.gen = p.gen then q.dv else (divertible (f.imageOf p)).contains (lFrom w)) || ((p.inTok i).bind (·.ord)).isSome

/-- Inputs of a commutative operator that divertible operators feed, and that have not ended (R201, R242). -/
def fedIns (f : Fabric) (e : Nat) (p : Pos) : List Nat :=
  if commutative p.word then (f.insOf e p).filter fun i => fedBy f e p i && !p.hasEnded i else []

/-- Does the entry belong to operator `e` as it stands at `p`? -/
def Spill.isFor (n : Spill) (e : Nat) (p : Pos) : Bool := decide (n.dst = e) && decide (n.gen = p.gen)

/-- Park one head whose ordinal an entry for this operator carries (R242). -/
def parkHead (f : Fabric) (e : Nat) (p : Pos) : Option Fabric :=
  (fedIns f e p).findSome? fun i => match p.inTok i with
    | some x => match x.kind, x.ord with
      | .data, some o =>
        match f.spill.findIdx? fun n => n.isFor e p && decide (n.ord = o) && n.parked.isNone with
        | some k =>
          some { f.setAt e (p.dropIn i) with
            spill := f.spill.modify k fun n => { n with parked := some (BitVec.ofNat 2 i, x.val) } }
        | none => none
      | _, _ => none
    | none => none

/-- Are the heads on the fed inputs of one ordinal, so that the operator may fire in order (R242)? -/
def sameOrdinal (p : Pos) (fed : List Nat) : Bool :=
  match fed.map fun i => (p.inTok i).bind (·.ord) with
  | some a :: r => r.all fun b => b = some a
  | _ => true

/-- The input of the consumer that an entry's source drives. -/
def spillInput (f : Fabric) (n : Spill) : Nat :=
  match (f.imageAt n.gen).links.find? fun w => decide (lFrom w = n.src) && decide (lTo w = n.dst) with
  | some w => lIn w
  | none => 3

/-- The data head of ordinal `o` on input `i`. -/
def headOfOrd (p : Pos) (o : BitVec 16) (i : Nat) : Option Word :=
  match p.inTok i with
  | some x => if x.kind = .data ∧ x.ord = some o then some x.val else none
  | none => none

/-- The values of ordinal `o` that are present for operator `e`, in its entries and at its heads: input and value. -/
def lateValues (f : Fabric) (e : Nat) (p : Pos) (o : BitVec 16) : List (Nat × Word) :=
  ((f.spill.filter fun n => n.isFor e p && decide (n.ord = o)).flatMap fun n =>
    (if n.replayed then [(spillInput f n, n.opr)] else []) ++ (match n.parked with | some (i, v) => [(i.toNat, v)] | none => [])) ++
  ((fedIns f e p).filterMap fun i => (headOfOrd p o i).map fun v => (i, v))

/-- A linked order input that no divertible operator feeds: a late firing consumes its token as every firing does (R201). -/
def lateOrder (f : Fabric) (e : Nat) (p : Pos) : List Nat :=
  (orderIn p.word).toList.filter fun i => (f.insOf e p).contains i && !(fedIns f e p).contains i && !p.hasEnded i

/-- The ordinal of a late firing that is ready: an entry has been replayed and all that the firing needs is present (R243). -/
def lateReady (f : Fabric) (e : Nat) (p : Pos) : Option (BitVec 16) :=
  let fed := fedIns f e p
  if (lateOrder f e p).any (fun i => (p.inTok i).all fun x => x.kind != .data) then none
  else (f.spill.find? fun n => n.isFor e p && n.replayed &&
    fed.all fun i => (lateValues f e p n.ord).any fun v => decide (v.1 = i)).map (·.ord)

/-- The input slots that a late firing of ordinal `o` empties. -/
def lateUsed (f : Fabric) (e : Nat) (p : Pos) (o : BitVec 16) : List Nat :=
  ((fedIns f e p).filter fun i => (headOfOrd p o i).isSome) ++ lateOrder f e p

/-- The value of input `i` in a late firing; under `pad` an ended input is supplied with IMM (R212). -/
def lateValue (p : Pos) (vs : List (Nat × Word)) (i : Nat) : Word :=
  match vs.find? fun v => v.1 = i with
  | some v => v.2
  | none => if (i = 1 ∧ eBi p.word) ∨ p.hasEnded i then immToken p.word else 0

/-- Do the accesses of one operator at two addresses overlap (R237)? -/
def accessesMeet (w a b : Word) : Bool :=
  let n := tagWidth (eTag w) / 8
  decide (a.toNat < b.toNat + n) && decide (b.toNat < a.toNat + n)

/-- Has an earlier firing of the operator still to perform its access to bytes that the one at `ea` overlaps (R237)? -/
def accessHeld (f : Fabric) (e : Nat) (p : Pos) (ea : Word) : Bool :=
  isMemOp p.word && f.spill.any fun n => decide (n.src = e) && decide (n.gen = p.gen) && !n.replayed && accessesMeet p.word n.ea ea

/-- Divert the element to the spill queue (R241); none when all 16 entries are in use (R244). -/
def divert (t e : Nat) (p : Pos) (ea opr : Word) (tr : Trap) (used : List Nat) (s : State) : Option State :=
  let f := (s.tile t).ctx.fabric
  match divertTo (f.imageOf p) e with
  | none => none
  | some (d, _) =>
    if 16 ≤ f.spill.length then none
    else
      let line := faultLine s t p.word tr
      let n : Spill := { ea := ea, opr := opr, src := e, dst := d, ord := p.s0.truncate 16, gen := p.gen, watch := line }
      let sp := f.spill ++ [n]
      let q := { p.dropIns used with s0 := (p.s0 + 1) &&& 0xFFFF, s1 := 0 }
      some (fabricNotice t e tr line (spend t e (updCtx t (fun c =>
        { c with fabric := { c.fabric.setAt e q with spill := sp, spillHigh := max c.fabric.spillHigh sp.length } }) s)))

/-- Free the entries of a late firing; a divertible operator that stalled for want of an entry goes on (R243, R244). -/
def freeEntries (f : Fabric) (e : Nat) (p : Pos) (o : BitVec 16) : Fabric :=
  let g : Fabric := { f with
    spill := f.spill.filter fun n => !(n.isFor e p && decide (n.ord = o))
    pos := f.pos.map fun (k, q) => (k, if q.dv then q.unstall else q) }
  g.bump 7 1

/-! ### A firing -/

/-- A position's own state after its firing has been accepted: a memory operator's next ordinal, and no stalled element or packet awaiting
acceptance any more (Table 11.4). -/
def Pos.afterFiring (p : Pos) : Pos :=
  if isMemOp p.word then { p with s0 := (p.s0 + 1) &&& 0xFFFF, s1 := 0 }
  else if eOp p.word = 29 then { p with s0 := 0 }
  else p

/-- Place a firing's results: consume `used`, emit, count.  A divertible operator's tokens carry its ordinal (R241). -/
def completeFiring (t e : Nat) (used : List Nat) (outs : List (Nat × Word)) (s : State) : State :=
  spend t e (updCtx t (fun c =>
    let f := c.fabric
    let p := f.at e
    let ord := if p.dv then some (p.s0.truncate 16) else none
    { c with fabric := f.setAt e (f.emit e (p.dropIns used) (outs.map fun (o, v) => (o, { val := v, ord := ord }))).afterFiring }) s)

/-- What a `PAGE` fault of a memory operator does: a divertible one diverts the element, any other stalls (R207, R228, R239, R244). -/
def pageStop (t e : Nat) (p : Pos) (a b : Word) (tr : Trap) (used : List Nat) (s : State) : State :=
  if p.dv then (divert t e p a b tr used s).getD (stallPos t e a tr s) else stallPos t e a tr s

/-- Fire on values; `used` are the input slots it empties.  An access waits behind an earlier one of the operator to the same bytes that has
still to be performed, unless it too is diverted (R237). -/
def fireOn (t e : Nat) (a b c : Word) (used : List Nat) (s : State) : State :=
  let x := s.tile t
  let p := x.ctx.fabric.at e
  if !x.ctx.fabric.outsFree e p || !gateOk x e then s
  else match compute t e p a b c s with
    | .emit s' outs => if accessHeld x.ctx.fabric e p a then s else completeFiring t e used outs s'
    | .hold s' => if eOp p.word = 29 then updPos t e (fun p => { p with s0 := 1 }) s' else s'
    | .trap tr => if tr.cause = cPAGE ∧ isMemOp p.word then pageStop t e p a b tr used s else fabFault t e tr s

/-- The EOS of an operator of the general pattern (R205, R208, R211, R212). -/
def fireEos (t e : Nat) (need : List Nat) (s : State) : State :=
  let f := (s.tile t).ctx.fabric
  let p := f.at e
  let w := p.word
  let take := fun (p : Pos) => need.foldl Pos.end (p.dropIns need)
  if !f.outsFree e p then s
  else match eOp w with
    | 16 =>
      if p.s1 ≠ 0 then updCtx t (fun c => { c with fabric := f.setAt e (f.emit e { p with s0 := 0, s1 := 0 } [(0, dataTok p.s0)]) }) s
      else updCtx t (fun c => { c with fabric := f.setAt e (f.emitAll e (take p) eosTok) }) s
    | 27 =>
      if eSub w = 0 ∧ !p.hasEnded 3 then updCtx t (fun c => { c with fabric := f.setAt e (f.emit e (p.end 3) [(0, dataTok p.s0)]) }) s
      else updCtx t (fun c => { c with fabric := f.setAt e (f.emitAll e (take p) eosTok) }) s
    | 31 =>
      let q := f.outQueue (eAux w)
      if 8 ≤ q.length then s
      else updCtx t (fun c => { c with fabric := { f.setAt e (take p) with outq := sput f.outq (eAux w) (q ++ [{ eosTok with gen := p.gen }]) } }) s
    | 33 => updCtx t (fun c => { c with fabric := f.setAt e (take p) }) s
    | _ => updCtx t (fun c => { c with fabric := f.setAt e (f.emitAll e (take p) eosTok) }) s

/-- An input that the general pattern consumes: a data token, an EOS in the slot, an EOS that has left it, or nothing usable. -/
inductive Head where
  | data (v : Word) | eos | ended | empty
  deriving DecidableEq, Repr

def headOf (p : Pos) (i : Nat) : Head :=
  match p.inTok i with
  | some x => match x.kind with
    | .data => .data x.val
    | .eos => .eos
    | _ => .empty
  | none => if p.hasEnded i then .ended else .empty

def Head.over : Head → Bool
  | .eos => true | .ended => true | _ => false
def Head.val : Head → Option Word
  | .data v => some v | _ => none

/-- Discard the data tokens that `trunc` drops (R212). -/
def dropTrunc (t e : Nat) (l : List Nat) (s : State) : State :=
  updCtx t (fun c => { c with fabric := (c.fabric.setAt e ((c.fabric.at e).dropIns l)).bump 2 l.length }) s

/-- A firing of the general pattern at position `e` (R201, R212, R242). -/
def fireGeneral (t e : Nat) (s : State) : State :=
  let f := (s.tile t).ctx.fabric
  let p := f.at e
  let w := p.word
  let need := (dataNeed w).filter fun i => ((f.imageOf p).inLink e i).isSome
  let order := (orderIn w).toList.filter fun i => ((f.imageOf p).inLink e i).isSome && !p.hasEnded i
  let heads := need.map fun i => (i, headOf p i)
  let used := (heads.filter fun h => h.2.val.isSome).map (·.1)
  let val := fun i => match heads.find? fun h => h.1 = i with
    | some (_, .data v) => v
    | some _ => immToken w
    | none => if i = 1 ∧ eBi w then immToken w else 0
  if p.stl then s
  else match parkHead f e p with
    | some f' => updCtx t (fun c => { c with fabric := f' }) s
    | none =>
      let waits := heads.any (fun h => h.2 = .empty) || order.any (fun i => (headOf p i).val.isNone)
      if heads.all fun h => h.2.over then
        (if heads.any (fun h => h.2 = .eos) && !(f.spill.any fun n => n.isFor e p) then fireEos t e need s else s)
      else if heads.any (fun h => h.2.over) && !used.isEmpty then
        match ePol w with
        | 0 => fabFault t e { cause := cFLEN } s
        | 1 => dropTrunc t e used s
        | _ =>
          if waits then s
          else
            let s1 := fireOn t e (val 0) (val 1) (val 2) (used ++ order) s
            if sget 0 (s1.tile t).ctx.fabric.counts 9 = sget 0 f.counts 9 then s1
            else updCtx t (fun c => { c with fabric := c.fabric.bump 8 (need.length - used.length) }) s1
      else if waits || !sameOrdinal p (fedIns f e p) then s
      else fireOn t e (val 0) (val 1) (val 2) (used ++ order) s

/-! ### Operators with firing rules of their own (Table 9.5, R205, R209, R211, R212) -/

/-- Set a position's state and emit. -/
def putEmit (t e : Nat) (p : Pos) (outs : List (Nat × Word)) (s : State) : State :=
  spend t e (updCtx t (fun c => { c with fabric := c.fabric.setAt e (c.fabric.emit e p (outs.map fun (o, v) => (o, dataTok v))) }) s)

def putEos (t e : Nat) (p : Pos) (s : State) : State :=
  updCtx t (fun c => { c with fabric := c.fabric.setAt e (c.fabric.emitAll e p eosTok) }) s

def putQuiet (t e : Nat) (p : Pos) (s : State) : State := updCtx t (fun c => { c with fabric := c.fabric.setAt e p }) s

/-- FLEN, or the drop of the token on input `i` and its count (R208, R209). -/
def byPolicy (t e i : Nat) (s : State) : State :=
  if ePol ((s.tile t).ctx.fabric.at e).word = 0 then fabFault t e { cause := cFLEN } s else dropTrunc t e [i] s

/-- `unpk` (R205). -/
def fireUnpk (t e : Nat) (s : State) : State :=
  let x := s.tile t
  let f := x.ctx.fabric
  let p := f.at e
  let wd := tagWidth (eTag p.word)
  let put := fun (p : Pos) (v : Word) (i : Nat) (s : State) =>
    let el := fld v (i * wd) wd
    let out := tokenValue (eAux p.word) (convertElem (eTag p.word) (eAux p.word) .rne el).1
    let last := decide (i + 1 = 64 / wd)
    (if last then { p with s0 := 0, s1 := 0 } else { p with s0 := v, s1 := BitVec.ofNat 64 (i + 1) }, out, s)
  if !f.outsFree e p then s
  else if p.s1 ≠ 0 then
    let (q, out, s) := put p p.s0 p.s1.toNat s
    updCtx t (fun c => { c with fabric := c.fabric.setAt e (c.fabric.emit e q [(0, dataTok out)]) }) s
  else match headOf p 0 with
    | .data v =>
      if !gateOk x e then s
      else let (q, out, s) := put (p.dropIn 0) v 0 s; putEmit t e q [(0, out)] s
    | .eos => putEos t e ((p.dropIn 0).end 0) s
    | _ => s

/-- `agen` (R209). -/
def fireAgen (t e : Nat) (s : State) : State :=
  let x := s.tile t
  let f := x.ctx.fabric
  let p := f.at e
  let step : Word := BitVec.ofNat 64 (wrap 64 (signed 32 (eImm p.word)))
  if p.s2.getLsbD 0 then
    if !f.outsFree e p then s
    else
      let left := p.s1 - 1
      updCtx t (fun c => { c with fabric := c.fabric.setAt e (c.fabric.emit e
        { p with s0 := p.s0 + step, s1 := left, s2 := if left = 0 then 0 else 1 } [(0, dataTok p.s0)]) }) s
  else match headOf p 0, headOf p 1 with
    | .data l, .data n =>
      if !f.outsFree e p || !gateOk x e then s
      else spend t e (putQuiet t e { p.dropIns [0, 1] with s0 := l, s1 := n, s2 := if n = 0 then 0 else 1 } s)
    | .data _, h => if h.over then byPolicy t e 0 s else s
    | h, .data _ => if h.over then byPolicy t e 1 s else s
    | h, k => if h.over && k.over && (h = .eos || k = .eos) && f.outsFree e p then putEos t e (((p.dropIns [0, 1]).end 0).end 1) s else s

/-- `merge` (Table 9.5). -/
def fireMerge (t e : Nat) (s : State) : State :=
  let x := s.tile t
  let f := x.ctx.fabric
  let p := f.at e
  match headOf p 0 with
  | .data v =>
    let i := if v ≠ 0 then 1 else 2
    match headOf p i with
    | .data y => if f.outsFree e p && gateOk x e then putEmit t e (p.dropIns [0, i]) [(0, y)] s else s
    | h => if h.over then byPolicy t e 0 s else s
  | .empty => s
  | _ =>
    match headOf p 1, headOf p 2 with
    | .data _, _ => byPolicy t e 1 s
    | _, .data _ => byPolicy t e 2 s
    | h, k =>
      if h.over && k.over && (headOf p 0 = .eos || h = .eos || k = .eos) && f.outsFree e p then
        putEos t e ((((p.dropIns [0, 1, 2]).end 0).end 1).end 2) s
      else s

/-- Ordinals and last keys of `isect` (Table 11.4): consumed counts on A and on B. -/
def isectOrd (p : Pos) (i : Nat) : Nat := fld p.s0 (32 * i) 31
def isectSeen (p : Pos) (i key : Nat) (keep : Bool) : Pos :=
  let p1 := { p.dropIn i with s0 := setField p.s0 (32 * i) 31 (isectOrd p i + 1) }
  if keep then (if i = 0 then { p1 with s1 := BitVec.ofNat 64 key } else { p1 with s2 := BitVec.ofNat 64 key }) else p1

/-- Is a key not greater than the previous one on its input? -/
def isectLate (p : Pos) (i key : Nat) : Bool :=
  decide (isectOrd p i ≠ 0) && decide (key ≤ (if i = 0 then p.s1 else p.s2).toNat)

/-- `isect` (Table 9.5, R208). -/
def fireIsect (t e : Nat) (s : State) : State :=
  let x := s.tile t
  let f := x.ctx.fabric
  let p := f.at e
  let key := fun (v : Word) => v.toNat % 2 ^ tagWidth (eTag p.word)
  let drop := fun (i k : Nat) =>
    if isectLate p i k then spend t e (updCtx t (fun c => { c with fabric := (c.fabric.setAt e (isectSeen p i k false)).bump 5 1 }) s)
    else spend t e (putQuiet t e (isectSeen p i k true) s)
  if !f.outsFree e p then s
  else match headOf p 0, headOf p 1 with
    | .data a, .data b =>
      if !gateOk x e then s
      else if isectLate p 0 (key a) then drop 0 (key a)
      else if isectLate p 1 (key b) then drop 1 (key b)
      else if key a < key b then drop 0 (key a)
      else if key b < key a then drop 1 (key b)
      else putEmit t e (isectSeen (isectSeen p 0 (key a) true) 1 (key b) true)
        [(0, BitVec.ofNat 64 (key a)), (1, BitVec.ofNat 64 (isectOrd p 0)), (2, BitVec.ofNat 64 (isectOrd p 1))] s
    | .data a, h => if h.over && gateOk x e then drop 0 (key a) else s
    | h, .data b => if h.over && gateOk x e then drop 1 (key b) else s
    | h, k => if h.over && k.over && (h = .eos || k = .eos) then putEos t e (((p.dropIns [0, 1]).end 0).end 1) s else s

/-- `carry` (Table 9.5): S0 [0] LOOP, [1] waiting on B. -/
def fireCarry (t e : Nat) (s : State) : State :=
  let x := s.tile t
  let f := x.ctx.fabric
  let p := f.at e
  if !f.outsFree e p || !gateOk x e then s
  else if !p.s0.getLsbD 0 then
    match headOf p 0 with
    | .data v => putEmit t e { p.dropIn 0 with s0 := 1 } [(0, v)] s
    | .eos => putEos t e ((p.dropIn 0).end 0) s
    | _ => s
  else if p.s0.getLsbD 1 then
    match headOf p 1 with
    | .data v => putEmit t e { p.dropIn 1 with s0 := 1 } [(0, v)] s
    | _ => s
  else match headOf p 2 with
    | .data v =>
      if v = 0 then putEmit t e { p.dropIn 2 with s0 := 0 } [] s
      else match headOf p 1 with
        | .data y => putEmit t e { p.dropIns [1, 2] with s0 := 1 } [(0, y)] s
        | _ => putQuiet t e { p.dropIn 2 with s0 := 3 } s
    | _ => s

/-- `inv` (Table 9.5): the kept value stays in slot A, marked. -/
def fireInv (t e : Nat) (s : State) : State :=
  let x := s.tile t
  let f := x.ctx.fabric
  let p := f.at e
  match headOf p 0, headOf p 1 with
  | .data a, .data b =>
    if !f.outsFree e p || !gateOk x e then s
    else if b ≠ 0 then putEmit t e ((p.dropIn 1).mark4 4 true) [(0, a)] s
    else putEmit t e ((p.dropIns [0, 1]).mark4 4 false) [] s
  | .data _, h => if h.over ∧ !p.hasEnded 4 then byPolicy t e 0 s else s
  | h, .data _ => if h.over then byPolicy t e 1 s else s
  | h, k => if h.over && k.over && (h = .eos || k = .eos) && f.outsFree e p then putEos t e (((p.dropIns [0, 1]).end 0).end 1) s else s

/-- Does a fabric `rtake` of a tile wait at its pool (R326, R364)? -/
def rtakeWaiting (x : Tile) (e : Nat) (pool : Nat) : Bool :=
  let f := x.ctx.fabric
  let p := f.at e
  (f.code = 2 || f.code = 5) && eOp p.word = 28 && eAux p.word = pool && !p.s0.getLsbD 0 && p.owed.isNone && !p.flt && f.outsFree e p && !f.sourcePending e p &&
    !f.marksWait e p && !x.still && gateOk x e

/-- The cycle at which the request of position `q.2` of tile `q.1` arrived: now, if it has not stood before. -/
def requestSince (s : State) (q : Nat × Nat) : Nat := ((s.tile q.1).ctx.fabric.at q.2).since.getD s.cyc

def arrivedBefore (s : State) (a b : Nat × Nat) : Bool := decide (requestSince s a < requestSince s b)

/-- Does another request wait at the pool that is served before that of position `e` of tile `t`: one of a smaller account, or of an equal one
that arrived earlier (R326)? -/
def lighterWaits (s : State) (part pool t e : Nat) : Bool :=
  let mine := (s.partition part).account pool t
  s.tiles.any fun (u, x) => decide (x.part = some part) &&
    x.ctx.fabric.pos.any fun (e', _) => decide ((u, e') ≠ (t, e)) && rtakeWaiting x e' pool &&
      (let a := (s.partition part).account pool u
       decide (a < mine) || (decide (a = mine) && arrivedBefore s (u, e') (t, e)))

/-- What `rtake` emits of a token's two words. -/
def tokenOuts (w : Nat × Nat) : List (Nat × Word) :=
  [(0, BitVec.ofNat 64 w.1), (1, BitVec.ofNat 64 (w.2 % 2 ^ 32)), (2, BitVec.ofNat 64 (fieldOf w.2 48 16))]

/-- The request of a position stands at its pool. -/
def standAtPool (t e : Nat) (s : State) : State :=
  updCtx t (fun c => { c with fabric := c.fabric.setAt e { c.fabric.at e with since := (c.fabric.at e).since.or (some s.cyc) } }) s

/-- Serve the request of position `e` of tile `t` (R209, R326, R400): the first token of a wave follows marker W on every output. -/
def takeToken (t e : Nat) (s : State) : State :=
  let x := s.tile t
  let p := x.ctx.fabric.at e
  match rangeServe s (x.part.getD 0) (eAux p.word) (fabricAgent t) with
  | (s1, .exhausted) => putEos t e { p with s0 := 1, since := none } s1
  | (s1, .token w0 w1 none) => putEmit t e { p with since := none } (tokenOuts (w0, w1)) s1
  | (s1, .token w0 w1 (some k)) =>
    let p1 := { p with since := none, owed := some (BitVec.ofNat 64 w0, BitVec.ofNat 64 w1) }
    updCtx t (fun c => { c with fabric := c.fabric.setAt e (c.fabric.emitAll e p1 { kind := .marker, mark := BitVec.ofNat 16 k }) }) s1
  | (s1, _) => standAtPool t e s1

/-- `rtake` (R209). -/
def fireRtake (t e : Nat) (s : State) : State :=
  let x := s.tile t
  let f := x.ctx.fabric
  let p := f.at e
  match p.owed with
  | some (w0, w1) => if f.outsFree e p then putEmit t e { p with owed := none } (tokenOuts (w0.toNat, w1.toNat)) s else s
  | none =>
    if !rtakeWaiting x e (eAux p.word) then s
    else if lighterWaits s (x.part.getD 0) (eAux p.word) t e then standAtPool t e s
    else takeToken t e s

/-- `vin` (R211). -/
def fireVin (t e : Nat) (s : State) : State :=
  let x := s.tile t
  let f := x.ctx.fabric
  let p := f.at e
  match f.inQueue (eAux p.word) with
  | [] => s
  | y :: r =>
    if !f.outsFree e p || !gateOk x e then s
    else
      let s1 := updCtx t (fun c => { c with fabric := { c.fabric with inq := sput c.fabric.inq (eAux p.word) r } }) s
      if y.kind = .eos then putEos t e p s1 else putEmit t e p [(0, y.val)] s1

/-- `const` with A unlinked (R212): IMM once, then EOS. -/
def fireConst (t e : Nat) (s : State) : State :=
  let x := s.tile t
  let f := x.ctx.fabric
  let p := f.at e
  if !(f.insOf e p).isEmpty then fireGeneral t e s
  else if !f.outsFree e p || p.hasEnded 3 then s
  else if p.s0.getLsbD 0 then putEos t e (p.end 3) s
  else if gateOk x e then putEmit t e { p with s0 := 1 } [(0, immToken p.word)] s
  else s

/-! ### Events -/

/-- One firing of the operator at a position, without the movement of tokens. -/
def fireRaw (t e : Nat) (s : State) : State :=
  match eOp ((s.tile t).ctx.fabric.at e).word with
  | 0 => s
  | 15 => fireUnpk t e s
  | 17 => fireAgen t e s
  | 23 => fireMerge t e s
  | 24 => fireIsect t e s
  | 25 => fireCarry t e s
  | 26 => fireInv t e s
  | 28 => fireRtake t e s
  | 30 => fireVin t e s
  | 32 => fireConst t e s
  | _ => fireGeneral t e s

/-- Every position of a running or faulted fabric but a stopped one, and but a source at which a switch or a marker waits, may fire. -/
def mayFire (f : Fabric) (e : Nat) : Bool :=
  let p := f.at e
  (f.code = 2 || f.code = 5) && !p.flt && !p.stl && p.posting.isNone && (p.owed.isSome || (!f.sourcePending e p && !f.marksWait e p))

/-- The firing of position `e` of tile `t`, and the movement of tokens it allows. -/
def fireAt (t e : Nat) (s : State) : State :=
  let f := (s.tile t).ctx.fabric
  if (s.tile t).still then s
  else if mayFire f e then updCtx t settle (fireRaw t e s) else updCtx t settle s

/-- The event of operator code `op` at a position: nothing where another operator stands there. -/
def fabricEvent (op : Nat) (tile : BitVec 10) (pos : BitVec 6) (s : State) : Host.Outcome State Fault Refusal :=
  .next (if eOp ((s.tile tile.toNat).ctx.fabric.at pos.toNat).word = op then fireAt tile.toNat pos.toNat s else s)

/-! ### Late firings and resolution (R240, R243, R244, R386) -/

/-- Is an earlier entry of the same operator, for bytes that entry `k` overlaps, still to be performed (R237)? -/
def replayHeld (f : Fabric) (k : Nat) (n : Spill) : Bool :=
  (f.spill.take k).any fun m => decide (m.src = n.src) && decide (m.gen = n.gen) && !m.replayed && accessesMeet (f.at n.src).word m.ea n.ea

/-- Perform the access of one waiting entry again (R243): one that has to wait is performed later. -/
def replayEntry (t : Nat) (s : State) (k : Nat) : State :=
  let f := (s.tile t).ctx.fabric
  match f.spill[k]? with
  | none => s
  | some n =>
    let put := fun (s : State) (g : Spill → Spill) => updCtx t (fun c => { c with fabric := { c.fabric with spill := c.fabric.spill.modify k g } }) s
    if n.replayed || !n.again || replayHeld f k n then s
    else
      let w := (f.at n.src).word
      match fabricAccess t w n.ea n.opr s with
      | .ok r s' =>
        let v := match (f.imageAt n.gen).linkedOuts n.src with | [1] => r.2 | _ => r.1
        put s' fun n => { n with replayed := true, again := false, opr := v }
      | .error (.trap tr) _ =>
        if tr.cause = cPAGE then
          let line := faultLine s t w tr
          fabricNotice t n.src tr line (put s fun n => { n with again := false, watch := line })
        else fabFault t n.src tr (put s fun n => { n with again := false })
      | .error (.wait k) _ => s.noteWait k

/-- Entries that are due perform their accesses again, in the order they were written. -/
def replayAll (t : Nat) (s : State) : State := (List.range (s.tile t).ctx.fabric.spill.length).foldl (replayEntry t) s

/-- The same while the fabric is not stopped. -/
def replaySpill (t : Nat) (s : State) : State :=
  let f := (s.tile t).ctx.fabric
  if !(s.tile t).still && (f.code = 2 || f.code = 5) then replayAll t s else s

/-- The late firing of ordinal `o` at position `e` (R243). -/
def lateFire (t e : Nat) (o : BitVec 16) (s : State) : State :=
  let x := s.tile t
  let f := x.ctx.fabric
  let p := f.at e
  let vs := lateValues f e p o
  let used := lateUsed f e p o
  let free := updCtx t (fun c => { c with fabric := freeEntries c.fabric e p o })
  if !f.outsFree e p || !gateOk x e then s
  else match compute t e p (lateValue p vs 0) (lateValue p vs 1) 0 s with
    | .emit s' outs => if accessHeld f e p (lateValue p vs 0) then s else updCtx t settle (free (completeFiring t e used outs s'))
    | .hold s' => s'
    | .trap tr =>
      if tr.cause = cPAGE ∧ isMemOp p.word then
        (if p.dv then pageStop t e ((free s).tile t |>.ctx.fabric.at e) (lateValue p vs 0) (lateValue p vs 1) tr used (free s)
         else stallPos t e (lateValue p vs 0) tr s)
      else fabFault t e tr s

/-- LATE_FIRING (R243): a commutative operator fires on the elements that the spill queue delivers. -/
def lateFiring (t e : Nat) (s : State) : State :=
  let s := replaySpill t s
  let x := s.tile t
  let f := x.ctx.fabric
  if x.still || !mayFire f e then s
  else match lateReady f e (f.at e) with
    | none => s
    | some o => lateFire t e o s

def execLateFiring (tile : BitVec 10) (pos : BitVec 6) (s : State) : Host.Outcome State Fault Refusal :=
  .next (lateFiring tile.toNat pos.toNat s)

/-- A suspended copy resumes at the faulting position (R387). -/
def Copy.resume (line : Nat) (y : Copy) : Copy :=
  if y.state = CopyState.suspended line then { y with state := .running, cause := 0, sub := 0, fault := 0 } else y
def Pos.resume (line : Nat) (p : Pos) : Pos := if p.watch = line then p.unstall else p
def Spill.resume (line : Nat) (n : Spill) : Spill := if n.watch = line ∧ !n.replayed then { n with again := true } else n
def Fabric.resume (line : Nat) (f : Fabric) : Fabric :=
  { f with pos := f.pos.map fun (e, p) => (e, p.resume line), spill := f.spill.map (Spill.resume line) }

/-- The page behind `line` is reported resolved to a tile's waiters (R386). -/
def resolveTile (line : Nat) (s : State) (t : Nat) : State :=
  replaySpill t (updCtx t (fun c => { c with copies := c.copies.map fun (k, y) => (k, y.resume line), fabric := c.fabric.resume line }) s)

/-- `FABRIC_ADD` … `FABRIC_TAGCHK`: the firing of one operator. -/
def execFabricAdd := fabricEvent 1
def execFabricSub := fabricEvent 2
def execFabricMul := fabricEvent 3
def execFabricFma := fabricEvent 4
def execFabricMin := fabricEvent 5
def execFabricMax := fabricEvent 6
def execFabricAnd := fabricEvent 7
def execFabricOr := fabricEvent 8
def execFabricXor := fabricEvent 9
def execFabricShl := fabricEvent 10
def execFabricShr := fabricEvent 11
def execFabricCmp := fabricEvent 12
def execFabricSel := fabricEvent 13
def execFabricCvt := fabricEvent 14
def execFabricUnpk := fabricEvent 15
def execFabricPack := fabricEvent 16
def execFabricAgen := fabricEvent 17
def execFabricLdn := fabricEvent 18
def execFabricStn := fabricEvent 19
def execFabricAmon := fabricEvent 20
def execFabricGate := fabricEvent 21
def execFabricSteer := fabricEvent 22
def execFabricMerge := fabricEvent 23
def execFabricIsect := fabricEvent 24
def execFabricCarry := fabricEvent 25
def execFabricInv := fabricEvent 26
def execFabricCtr := fabricEvent 27
def execFabricRtake := fabricEvent 28
def execFabricXreq := fabricEvent 29
def execFabricVin := fabricEvent 30
def execFabricVout := fabricEvent 31
def execFabricConst := fabricEvent 32
def execFabricDrop := fabricEvent 33
def execFabricDup := fabricEvent 34
def execFabricAcc := fabricEvent 35
def execFabricTagchk := fabricEvent 36

end Sys2Proof.Machine
end

