-- ==== Sys2Proof/Machine/FabricInst.lean ====
section
/-! DEFINITION. The fabric instructions (R217 to R226): what each does when it is performed, and the save area (R222, R248 to R251). -/

namespace Sys2Proof.Machine

def Fabric.running (f : Fabric) : Bool := f.code = 2

/-- Run a reading or writing performance: its trap leaves the state as it was. -/
def perfOf (t : Nat) (m : M Done) (s : State) : Perf :=
  match m s with
  | .ok d s' => perfDone s' d
  | .error (.trap tr) _ => perfTrap s tr
  | .error (.wait w) _ => { st := s, fin := .stall (s.tile t).ctx.av.vstart w }

/-- Bind the loop records of an image (R219). -/
def bindImage (t : Nat) (m : Image) (s : State) : State := m.loops.foldl (fun s r => bindLoop s t r.1.toNat r.2.toNat) s

/-- Load an image: everything the fabric held is discarded (R219). -/
def installImage (t : Nat) (m : Image) (s : State) : State :=
  bindImage t m (updCtx t (fun c => { c with fabric := loadImage m }) s)

/-- `fcfg.ld` (R219). -/
def performFcfgLd (t : Nat) (d : BitVec 5) (ea : Word) (s : State) : Perf :=
  if (s.tile t).ctx.fabric.running then perfDone s { dests := [(d, 1)] }
  else perfOf t (do let m ← readImage t ea; modify (installImage t m); return { dests := [(d, 0)] }) s

/-- `fcfg.sw` (R220). -/
def performFcfgSw (t : Nat) (d : BitVec 5) (ea : Word) (s : State) : Perf :=
  let f := (s.tile t).ctx.fabric
  if !f.running then perfOf t (do let m ← readImage t ea; modify (installImage t m); return { dests := [(d, 1)] }) s
  else if f.next.isSome then perfDone s { dests := [(d, 2)] }
  else perfOf t (do
    let m ← readImage t ea
    modify fun s => updCtx t (fun c => settle { c with fabric := beginSwitch c.fabric ea m }) (bindImage t m s)
    return { dests := [(d, 0)] }) s

/-- A DONE fabric as `fstart` re-arms it (R221): the port queues and E bits stay. -/
def rearm (f : Fabric) : Fabric := { loadImage f.image with code := 2, inq := f.inq, outq := f.outq, ebits := f.ebits }

/-- `fstart` (Table 9.6, R221): an element that stood stalled when the fabric stopped has its access performed again (R247). -/
def startFabric (f : Fabric) : Fabric :=
  match f.code with
  | 1 => { f with code := 2 }
  | 3 => { f with code := 2, pos := f.pos.map fun (e, p) => (e, p.unstall) }
  | 4 => rearm f
  | _ => f

def performFstart (t : Nat) (s : State) : Perf :=
  if (s.tile t).ctx.fabric.code = 2 then perfDone s
  else perfDone (replaySpill t (updCtx t (fun c => settle { c with fabric := startFabric c.fabric }) s))

/-- `fstop` (R221, R247). -/
def stopFabric (f : Fabric) : Fabric := if f.code = 2 then { f with code := 3 } else f

def performFstop (t : Nat) (s : State) : Perf := perfDone (updCtx t (fun c => { c with fabric := stopFabric c.fabric }) s)

/-- `fmark` (R223): at most four markers are held. -/
def performFmark (t : Nat) (v : Word) (s : State) : Perf :=
  let c := (s.tile t).ctx
  let f := c.fabric
  if v.toNat / 2 ^ 16 ≠ 0 then perfTrap s { cause := cRSVD }
  else if f.code = 1 ∨ f.code = 2 ∨ f.code = 3 then
    if 4 ≤ f.marks.length then { st := s, fin := .stall c.av.vstart .fabric }
    else perfDone (updCtx t (fun c => settle { c with fabric := { c.fabric with marks := c.fabric.marks ++ [v.truncate 16] } }) s)
  else perfDone s

/-- Table 9.10. -/
def fabricSelector (f : Fabric) (sel : Nat) : Nat :=
  match sel with
  | 0 => f.code + (if f.next.isSome then 8 else 0) + 2 ^ 8 * (match sfind f.pos 0 with | some p => p.gen | none => f.gen).toNat
      + 2 ^ 16 * (f.faultPos % 64) + 2 ^ 24 * f.faultCause.toNat
  | 4 => f.spill.length + 2 ^ 8 * f.spillHigh
  | 10 => f.marks.length
  | n => if n ≤ 9 then sget 0 f.counts n else 0

def performFstat (t : Nat) (d sel : BitVec 5) (s : State) : Perf :=
  perfDone s { dests := [(d, BitVec.ofNat 64 (fabricSelector (s.tile t).ctx.fabric sel.toNat))] }

/-- `fport.w` (R224). -/
def performFportW (t : Nat) (v : Word) (p : Nat) (eos : Bool) (s : State) : Perf :=
  let c := (s.tile t).ctx
  let q := c.fabric.inQueue p
  if 8 ≤ q.length then { st := s, fin := .stall c.av.vstart .port }
  else perfDone (updCtx t (fun c => { c with fabric := { c.fabric with inq := sput c.fabric.inq p (q ++ [if eos then eosTok else dataTok v]) } }) s)

/-- `fport.r` (R224). -/
def performFportR (t : Nat) (d : BitVec 5) (p : Nat) (status : Bool) (s : State) : Perf :=
  let c := (s.tile t).ctx
  let f := c.fabric
  let q := f.outQueue p
  if status then
    let eos : Bool := match q with | x :: _ => decide (x.kind = .eos) | [] => false
    let v := q.length + (if f.ebits.getLsbD p then 2 ^ 8 else 0) + (if eos then 2 ^ 9 else 0)
    perfDone (updCtx t (fun c => { c with fabric := { f with ebits := setField f.ebits p 1 0 } }) s) { dests := [(d, BitVec.ofNat 64 v)] }
  else match q with
    | [] => { st := s, fin := .stall c.av.vstart .port }
    | x :: r =>
      let f1 := { f with outq := sput f.outq p r }
      if x.kind = .eos then
        perfDone (updCtx t (fun c => { c with fabric := { f1 with ebits := setField f.ebits p 1 1 } }) s) { dests := [(d, 0)] }
      else perfDone (updCtx t (fun c => { c with fabric := f1 }) s) { dests := [(d, x.val)] }

/-! ### The save area (Table 9.8) -/

def kindCode : TokKind → Nat
  | .data => 0 | .eos => 1 | .switch => 2 | .marker => 3

/-- A token slot (Table 11.2). -/
def tokenWords (lnk : Nat) : Option Token → List Nat
  | none => [0, 0]
  | some x => [x.val.toNat,
      1 + 2 * kindCode x.kind + 2 ^ 8 * x.gen.toNat + (if x.kind = .marker then 2 ^ 16 * x.mark.toNat else 0)
        + (match x.ord with | some o => 2 ^ 32 * o.toNat + 2 ^ 48 | none => 0) + 2 ^ 49 * lnk]

/-- State word S0 with the ended inputs where Table 11.4 keeps them there.  A `rtake` whose token follows its marker, and how many held markers it
has emitted, have no place in the table: they stand in the words that it leaves unused (a choice of the model). -/
def savedS0 (p : Pos) : Nat :=
  if eOp p.word = 24 then fld p.s0 0 31 + (if p.hasEnded 0 then 2 ^ 31 else 0) + 2 ^ 32 * fld p.s0 32 31 + (if p.hasEnded 1 then 2 ^ 63 else 0)
  else if eOp p.word = 28 then fld p.s0 0 1 + (if p.owed.isSome then 2 else 0) + 4 * p.marked
  else if keepsEnded p.word then p.ended % 8
  else p.s0.toNat

def savedS1 (p : Pos) : Nat := match p.owed with | some (w, _) => w.toNat | none => p.s1.toNat

/-- State word S2: in bits [12:8] the ended inputs and the marks of a two-token end that Table 11.4 gives no place, and in [15:13] the held markers
that the position has emitted (a choice of the model). -/
def savedS2 (p : Pos) : Nat :=
  if eOp p.word = 24 then p.s2.toNat
  else if eOp p.word = 28 then (match p.owed with | some (_, w) => w.toNat | none => 0)
  else p.s2.toNat + 2 ^ 8 * (if keepsEnded p.word then p.ended / 8 * 8 else p.ended) + 2 ^ 13 * p.marked

/-- A position record (Table 11.3). -/
def posWords (p : Pos) : List Nat :=
  let sw := p.ins.any fun (_, x) => x.kind = .switch
  [p.gen.toNat + (if sw then 2 ^ 8 else 0) + (if p.stl then 2 ^ 9 else 0) + (if p.flt then 2 ^ 10 else 0) + (if p.dv then 2 ^ 11 else 0),
   savedS0 p, savedS1 p, savedS2 p] ++
  ((List.range 3).flatMap fun i => tokenWords 0 (sfind p.ins i)) ++ ((List.range 3).flatMap fun o => tokenWords 0 (sfind p.outs o))

/-- A spill entry (Table 11.5). -/
def spillWords (n : Spill) : List Nat :=
  [n.ea.toNat, n.opr.toNat, (match n.parked with | some (_, v) => v.toNat | none => 0),
   n.src + 2 ^ 6 * n.dst + (match n.parked with | some (i, _) => 2 ^ 12 * i.toNat + 2 ^ 14 | none => 0)
     + 2 ^ 15 * (if n.replayed then 2 else 1) + 2 ^ 32 * n.ord.toNat + 2 ^ 48 * n.gen.toNat]

def padTo (n : Nat) (l : List Nat) : List Nat := l ++ List.replicate (n - l.length) 0

/-- The links that an area keeps: those of every position's current generation, and then, while a switch spreads or has just spread, those of the
other generation that hold a token or still get one (a choice of the model: Table 9.8 names the image of the current generation). -/
def savedLinks (f : Fabric) : List FLink :=
  (f.links.filter fun l => decide (l.gen = (f.at (lTo l.word)).gen)) ++
  f.links.filter fun l => decide (l.gen ≠ (f.at (lTo l.word)).gen) && (!l.toks.isEmpty || decide (l.gen = (f.at (lFrom l.word)).gen))

def imageWords (f : Fabric) : List Nat :=
  let ls := savedLinks f
  let head := 0xCF + 2 ^ 8 + 2 ^ 16 * ls.length + 2 ^ 24 * f.image.loops.length
  let body := [head] ++ ((List.range 64).map fun e => (f.at e).word.toNat) ++ ls.map (·.word.toNat)
  padTo 512 (padTo ((body.length + 7) / 8 * 8) body ++ f.image.loops.flatMap fun r => [r.1.toNat, r.2.toNat])

/-- The 4,608 words of the area. -/
def fabricWords (f : Fabric) : List Nat :=
  imageWords f ++
  ((List.range 64).flatMap fun e => posWords (match sfind f.pos e with | some p => p | none => { gen := f.gen })) ++
  ((List.range 16).flatMap fun p =>
    ((List.range 8).flatMap fun i => tokenWords 0 (f.inQueue p)[i]?) ++ ((List.range 8).flatMap fun i => tokenWords 0 (f.outQueue p)[i]?)) ++
  padTo 64 (f.spill.flatMap spillWords) ++
  ((List.range 16).map (fabricSelector f)) ++
  padTo 4 (f.marks.map fun m => m.toNat + 2 ^ 16) ++
  padTo 12 [match f.next with | some (a, _) => fld a 0 48 + 2 ^ 63 | none => 0] ++
  List.replicate 96 0 ++
  padTo 2368 ((savedLinks f).zipIdx.flatMap fun (l, n) => l.toks.flatMap fun x => tokenWords n (some x))

/-- Check the area's address (R222). -/
def areaCheck (ea : Word) : M Unit := do
  if (classify ea).isNone then throw (.trap { cause := cADDR, tva := tvaOf ea })
  if ea.toNat % 64 ≠ 0 then throw (.trap { cause := cMISALIGN, tva := tvaOf ea })

def areaPlaces (t : Nat) (ea : Word) (acc : Access) : M (List Place) := do
  areaCheck ea
  (List.range 4608).mapM fun i => placeFor t 0 (fabricAgent t) (ea + BitVec.ofNat 64 (8 * i)) 8 acc

/-- `fsave` (R222). -/
def performFsave (t : Nat) (ea : Word) (s : State) : Perf :=
  perfOf t (do
    let ps ← areaPlaces t ea .write
    modify (updCtx t fun c => { c with fabric := stopFabric c.fabric })
    let ws := fabricWords ((← get).tile t).ctx.fabric
    for (p, w) in ps.zip ws do writePlace t (fabricAgent t) p (natLe 8 w)
    return {}) s

/-! ### Restoring (R222, R251) -/

/-- A token slot read back: `none` for a reserved value, `some none` for an empty slot. -/
def tokenOf (inLinks : Bool) (w0 w1 : Nat) : Option (Option Token) :=
  if w1 % 2 = 0 then (if w0 = 0 ∧ w1 = 0 then some none else none)
  else if fieldOf w1 3 5 ≠ 0 ∨ fieldOf w1 57 7 ≠ 0 ∨ (fieldOf w1 48 1 = 0 ∧ fieldOf w1 32 16 ≠ 0) ∨ (!inLinks ∧ fieldOf w1 49 8 ≠ 0)
      ∨ (fieldOf w1 1 2 ≠ 3 ∧ fieldOf w1 16 16 ≠ 0) then none
  else some (some
    { val := BitVec.ofNat 64 w0
      kind := (match fieldOf w1 1 2 with | 0 => .data | 1 => .eos | 2 => .switch | _ => .marker)
      gen := BitVec.ofNat 8 (fieldOf w1 8 8), mark := BitVec.ofNat 16 (fieldOf w1 16 16)
      ord := if fieldOf w1 48 1 = 1 then some (BitVec.ofNat 16 (fieldOf w1 32 16)) else none })

/-- Slots `k` of an area from word `base`: a map, none for a reserved value. -/
def slotsAt (ws : List Nat) (base n : Nat) : Option (SMap Token) :=
  (List.range n).foldl (fun acc i => acc.bind fun m =>
    (tokenOf false (rword ws (base + 2 * i)) (rword ws (base + 2 * i + 1))).map fun x => match x with
      | some x => sput m i x
      | none => m) (some [])

def posOf (m : Image) (ws : List Nat) (e : Nat) : Option Pos :=
  let b := 512 + 16 * e
  let h := rword ws b
  let w := m.elem e
  match slotsAt ws (b + 4) 3, slotsAt ws (b + 10) 3 with
  | some ins, some outs =>
    if h / 2 ^ 12 ≠ 0 then none
    else
      let s0 := rword ws (b + 1)
      let s2 := rword ws (b + 3)
      let more := fieldOf s2 8 5
      let marked := if (m.linkedIns e).isEmpty then fieldOf s2 13 3 else 0
      let p : Pos :=
        { word := w, gen := BitVec.ofNat 8 h, stl := fieldOf h 9 1 = 1, flt := fieldOf h 10 1 = 1, dv := fieldOf h 11 1 = 1
          s0 := BitVec.ofNat 64 s0, s1 := BitVec.ofNat 64 (rword ws (b + 2)), s2 := BitVec.ofNat 64 s2, ins := ins, outs := outs }
      some (if eOp w = 24 then
          { p with s0 := setField (setField p.s0 31 1 0) 63 1 0, ended := fieldOf s0 31 1 + 2 * fieldOf s0 63 1 }
        else if eOp w = 28 then
          { p with s0 := BitVec.ofNat 64 (s0 % 2), s1 := 0, s2 := 0, marked := fieldOf s0 2 3
                   owed := if fieldOf s0 1 1 = 1 then some (p.s1, p.s2) else none }
        else
          let q := { p with s2 := setField p.s2 8 8 0, marked := marked }
          if keepsEnded w then { q with s0 := 0, ended := s0 % 8 + more / 8 * 8 } else { q with ended := more })
  | _, _ => none

def spillOf (ws : List Nat) (k : Nat) : Option (Option Spill) :=
  let b := 2048 + 4 * k
  let w3 := rword ws (b + 3)
  match fieldOf w3 15 2 with
  | 0 => if rword ws b = 0 ∧ rword ws (b + 1) = 0 ∧ rword ws (b + 2) = 0 ∧ w3 = 0 then some none else none
  | 3 => none
  | st =>
    if fieldOf w3 17 15 ≠ 0 ∨ fieldOf w3 56 8 ≠ 0 ∨ fieldOf w3 12 2 = 3 then none
    else some (some
      { ea := BitVec.ofNat 64 (rword ws b), opr := BitVec.ofNat 64 (rword ws (b + 1))
        parked := if fieldOf w3 14 1 = 1 then some (BitVec.ofNat 2 (fieldOf w3 12 2), BitVec.ofNat 64 (rword ws (b + 2))) else none
        src := fieldOf w3 0 6, dst := fieldOf w3 6 6, replayed := st = 2, ord := BitVec.ofNat 16 (fieldOf w3 32 16)
        gen := BitVec.ofNat 8 (fieldOf w3 48 8), again := st = 1 })

/-- Put the link tokens back, from slot `n` of the region on: a reserved value or link number refuses the area. -/
def linkTokens (ws : List Nat) : Nat → Nat → List FLink → Option (List FLink)
  | 0, _, ls => some ls
  | n + 1, i, ls =>
    let w1 := rword ws (2240 + 2 * i + 1)
    match tokenOf true (rword ws (2240 + 2 * i)) w1 with
    | none => none
    | some none => some ls
    | some (some x) =>
      if ls.length ≤ fieldOf w1 49 8 then none
      else linkTokens ws n (i + 1) (ls.modify (fieldOf w1 49 8) fun l => { l with toks := l.toks ++ [x] })

/-- The image at the start of the area: none for a reserved header. -/
def areaImage (ws : List Nat) : Option Image :=
  let h := rword ws 0
  let nl := fieldOf h 16 8
  let nlp := fieldOf h 24 5
  if h / 2 ^ 29 ≠ 0 ∨ 192 < nl ∨ 16 < nlp ∨ fieldOf h 8 8 ≠ 1 ∨ fieldOf h 0 8 ≠ 0xCF then none
  else
    let base := (65 + nl + 7) / 8 * 8
    some { elems := (List.range 64).filterMap fun e => if rword ws (1 + e) = 0 then none else some (e, BitVec.ofNat 64 (rword ws (1 + e)))
           links := (List.range nl).map fun n => BitVec.ofNat 64 (rword ws (65 + n))
           loops := (List.range nlp).map fun k => (BitVec.ofNat 64 (rword ws (base + 2 * k)), BitVec.ofNat 64 (rword ws (base + 2 * k + 1))) }

/-- Link number and generation of each token of the link-token region. -/
def linkSlots (ws : List Nat) : Nat → Nat → List (Nat × Nat)
  | 0, _ => []
  | n + 1, i =>
    let w1 := rword ws (2240 + 2 * i + 1)
    if w1 % 2 = 0 then [] else (fieldOf w1 49 8, fieldOf w1 8 8) :: linkSlots ws n (i + 1)

/-- The image of an area without a pending switch: a link whose tokens are of another generation than its target is one that the last switch has
left behind. -/
def currentImage (ws : List Nat) (m : Image) : Image :=
  let slots := linkSlots ws 1184 0
  { m with links := (m.links.zipIdx.filter fun (w, n) => match slots.find? (·.1 = n) with
      | some (_, g) => decide (g = rword ws (512 + 16 * lTo w) % 256)
      | none => true).map (·.1) }

/-- Gather the parts of a list, none when one of them is none. -/
def gather {α β : Type} (g : α → Option β) : List α → Option (List β)
  | [] => some []
  | x :: r => match g x, gather g r with
    | some y, some l => some (y :: l)
    | _, _ => none

/-- Do the selector words of the area hold bits that Table 9.10 does not give them? -/
def selectorsReserved (ws : List Nat) : Bool :=
  let w0 := rword ws 2112
  let w4 := rword ws 2116
  decide (5 < fieldOf w0 0 3) || fieldOf w0 4 4 != 0 || fieldOf w0 22 2 != 0 || fieldOf w4 5 3 != 0 || w4 / 2 ^ 13 != 0 ||
  (List.range 11).any (fun i => rword ws (2112 + i) / 2 ^ 32 != 0)

/-- Do the selector, marker and reserved words of the area hold reserved values? -/
def areaReserved (ws : List Nat) : Bool :=
  selectorsReserved ws || (List.range 5).any (fun i => rword ws (2123 + i) != 0) ||
  (List.range 4).any (fun i => rword ws (2128 + i) != 0 && rword ws (2128 + i) / 2 ^ 16 != 1) ||
  fieldOf (rword ws 2132) 48 15 != 0 || (List.range 11).any (fun i => rword ws (2133 + i) != 0) ||
  (List.range 96).any (fun i => rword ws (2144 + i) != 0)

/-- Everything of the area but the image checks and a pending switch; `old` keeps what the area does not hold (E bits). -/
def areaFabric (old : Fabric) (ws : List Nat) (m : Image) (gen : BitVec 8) : Option Fabric :=
  let ports := fun (base : Nat) => gather (fun p => (slotsAt ws (base + 32 * p) 8).map fun t => (p, t.map (·.2))) (List.range 16)
  match gather (fun e => (posOf m ws e).map fun p => (e, p)) (List.range 64), gather (spillOf ws) (List.range 16), ports 1536, ports 1552 with
  | some pos, some spill, some inq, some outq =>
    let kept := pos.filter fun (_, p) => p.word != 0
    let links0 := m.links.map fun w => freshLink (match kept.find? fun (e, _) => e = lTo w with | some (_, p) => p.gen | none => gen) w
    match linkTokens ws 1184 0 links0 with
    | none => none
    | some links1 =>
      let links := links1.map fun l => { l with gen := (l.toks.head?.map (·.gen)).getD l.gen }
      let s0 := rword ws 2112
      let f : Fabric :=
        { code := fieldOf s0 0 3, image := m, gen := gen, pos := kept, links := links, next := none, inq := inq, outq := outq
          ebits := old.ebits, spill := spill.filterMap id, spillHigh := fieldOf (rword ws 2116) 8 5
          counts := [1, 2, 3, 5, 6, 7, 8, 9].map fun k => (k, rword ws (2112 + k) % 2 ^ 32)
          faultPos := fieldOf s0 16 6, faultCause := BitVec.ofNat 8 (fieldOf s0 24 8)
          marks := ((List.range 4).filter fun i => rword ws (2128 + i) != 0).map fun i => BitVec.ofNat 16 (rword ws (2128 + i)) }
      if areaReserved ws then none else some f
  | _, _, _, _ => none

/-- The older of the generations that the position records hold. -/
def areaGen (ws : List Nat) : BitVec 8 :=
  let gs := (List.range 64).map fun e => BitVec.ofNat 8 (rword ws (512 + 16 * e))
  let g := gs.headD 0
  if gs.contains (g - 1) then g - 1 else g

/-- A failing check of a restore leaves the fabric IDLE (R222). -/
def idleFabric (f : Fabric) : Fabric := { ebits := f.ebits }

def restTrap (t : Nat) (s : State) (tr : Trap) : Perf := perfTrap (updCtx t (fun c => { c with fabric := idleFabric c.fabric }) s) tr

/-- The generation of a restored link: that of the token which stands first on it, else its target's; an empty link from a position that has still
to switch to one that has is a loop-back link of the old generation, unless the new image has it. -/
def restoredGen (f : Fabric) (m : Image) (ls : List FLink) (l : FLink) : BitVec 8 :=
  let target := (f.at (lTo l.word)).gen
  match l.toks with
  | x :: _ => x.gen
  | [] =>
    if target ≠ f.gen ∧ (f.at (lFrom l.word)).gen = f.gen ∧ !(m.links.contains l.word && !ls.any fun k => decide (k.word = l.word) && k.toks.isEmpty) then f.gen
    else target

/-- The links of an area with their generations, in order. -/
def restoredLinks (f : Fabric) (m : Image) : List FLink → List FLink → List FLink
  | _, [] => []
  | ls, l :: r => { l with gen := restoredGen f m ls l } :: restoredLinks f m (ls ++ [l]) r

/-- Spread the switch of a restored area again: positions of the old generation keep the old image's part, and those of the new one have their
links.  Held markers are taken to go ahead of a switch that has still to leave a source (a choice of the model). -/
def withPending (f : Fabric) (ea : Word) (m : Image) : Fabric :=
  let old := f.pos.filter fun (_, p) => decide (p.gen = f.gen)
  let ls := restoredLinks f m [] f.links
  let f1 : Fabric := { f with
    next := some (ea, m), links := ls
    image := { f.image with elems := old.map fun (e, p) => (e, p.word), links := (ls.filter fun l => decide (l.gen = f.gen)).map (·.word) } }
  let f2 := (f1.pos.filter fun (_, p) => decide (p.gen ≠ f.gen)).foldl (fun g (e, _) => { g with links := g.links ++ newLinks g m e }) f1
  { f2 with swAt := if f2.pos.any fun (e, p) => f2.sourcePending e p then f2.marks.length else 0 }

/-- Does a loop record of the area hold no reserved bit and no reserved value (Table 13.5)? -/
def loopWordsLegal (r : Word × Word) : Bool :=
  let x := loopRec r.1.toNat r.2.toNat
  loopWordsClear r && decide (16 ≤ x.period) && decide (x.period ≤ 4096) && x.wmin != 0 && decide (x.wmin ≤ x.wmax)

/-- The checks of the area's own image; with a switch pending, its two generations are checked word by word. -/
def areaImageFault (m : Image) (pending : Bool) : Option Nat :=
  (if pending then
    (((List.range 64).find? fun e => (m.elem e).getLsbD 9 || !elemLegal e (m.elem e)).map (1 + ·)).or
      ((m.links.findIdx? fun w => fld w 17 47 != 0).map (65 + ·))
  else imageFault m).or ((m.loops.findIdx? fun r => !loopWordsLegal r).map (65 + m.links.length + ·))

/-- A restored position that stood stalled performs its access once more, whatever the fabric's state and its bucket: it had passed both when it
stalled (R251).  A late firing that stood stalled is due again (R243). -/
def retryStall (t : Nat) (s : State) (e : Nat) : State :=
  let p := (s.tile t).ctx.fabric.at e
  if !p.stl then s
  else
    let s1 := updPos t e (fun p => { p.unstall with bucket := max p.bucket 256 }) s
    let f := (s1.tile t).ctx.fabric
    let s2 := match lateReady f e (f.at e) with
      | some o => lateFire t e o s1
      | none => fireRaw t e s1
    updPos t e (fun q => { q with bucket := if q.stl || !actuated (s2.tile t) e then p.bucket else q.bucket }) s2

/-- The accesses that a restore performs once more: those of waiting entries and of stalled positions (R251). -/
def retryAccesses (t : Nat) (s : State) : State :=
  let s1 := replayAll t (updCtx t (fun c => { c with fabric := { c.fabric with
    spill := c.fabric.spill.map fun n => { n with again := !n.replayed } } }) s)
  ((s1.tile t).ctx.fabric.pos.map (·.1)).foldl (retryStall t) s1

/-- The fabric that an area holds, with the new image of a pending switch read again: the checks of R200 but step 5, which R347 keeps for the
instructions that bind loops. -/
def areaRead (t : Nat) (old : Fabric) (ws : List Nat) : M Fabric := do
  let rsvd := fun (i : Nat) => Exit.trap { cause := cRSVD, telem := BitVec.ofNat 15 i }
  let pending := fieldOf (rword ws 2132) 63 1 = 1
  match areaImage ws with
  | none => throw (rsvd 0)
  | some m => match areaImageFault (if pending then m else currentImage ws m) pending with
    | some i => throw (rsvd i)
    | none => match areaFabric old ws m (areaGen ws) with
      | none => throw (rsvd 0)
      | some f =>
        if !pending then return { f with image := currentImage ws m }
        else
          let na := BitVec.ofNat 64 (fieldOf (rword ws 2132) 0 48)
          return withPending f na (← readImageWords t na)

/-- The new image of a pending switch is read again (R251); a failing check leaves the fabric IDLE, and the lead strand takes the trap. -/
def recheckPending (t : Nat) (s : State) : State :=
  match (s.tile t).ctx.fabric.next with
  | none => s
  | some (ea, _) => match readImageWords t ea s with
    | .ok m s1 => updCtx t (fun c => { c with fabric := { c.fabric with next := some (ea, m) } }) s1
    | .error (.wait w) _ => s.noteWait w
    | .error (.trap tr) _ => updCtx t (fun c =>
        let y := sget {} c.strands 0
        { c with fabric := idleFabric c.fabric, strands := sput c.strands 0 { y with traps := y.traps ++ [tr] } }) s

/-- A fabric whose saved state is in place again goes on as a `frest` leaves it (R251, R375). -/
def resumeFabric (t : Nat) (s : State) : State := updCtx t settle (retryAccesses t (recheckPending t s))

/-- `frest` (R222, R251). -/
def performFrest (t : Nat) (ea : Word) (s : State) : Perf :=
  let stall := fun w => ({ st := s, fin := .stall (s.tile t).ctx.av.vstart w } : Perf)
  match (do let ps ← areaPlaces t ea .read; ps.mapM fun p => do return leNat (← readPlace (fabricAgent t) p 8) : M (List Nat)) s with
  | .error (.trap tr) _ => perfTrap s tr
  | .error (.wait w) _ => stall w
  | .ok ws s1 => match areaRead t (s1.tile t).ctx.fabric ws s1 with
    | .error (.trap tr) _ => restTrap t s1 tr
    | .error (.wait w) _ => stall w
    | .ok f s2 => perfDone (updCtx t settle (retryAccesses t (updCtx t (fun c => { c with fabric := f }) s2)))

end Sys2Proof.Machine
end

