-- ==== Sys2Proof/Machine/Engine.lean ====
section
/-! DEFINITION. The engine queue (R45, R80, R85, R91, R96, R123, R129 to R131, R356, R376 to R381): issue of a lead-only instruction,
performance of an entry, retirement, traps and abandonment.

The entries of a queue are performed in issue order.  Behind entries that can no longer trap any entry may be performed; behind others, an entry
of another queue that does nothing but change registers, which are put back if the older entry is abandoned, and a copy's acceptance (R129 to
R131, R191, R356). -/

namespace Sys2Proof.Machine

/-! ### Views (R91, R123) -/

/-- The view after an operation that issued with registers `reg`; `rtag` is the tag that a `vldt` has read (R119), which it
writes with ratio 1. -/
def opView (reg : BitVec 5 → Word) (rtag : Option (BitVec 5)) (v : View) (op : EngOp) : View :=
  match op, rtag with
  | .load .shaped d _ _, some t =>
    let g := (v.operand d).group
    v.writeTags d.toNat g (tagEntry t.toNat g 0)
  | _, _ => matrixFormView reg (registerFormView reg v op) op

/-- The issue view: the architectural view as every unretired entry will leave it. -/
def issueView (x : Tile) : View := x.queue.foldl (fun v e => opView e.reg e.rtag v e.op) x.ctx.av

/-! ### Checks at issue (R98) -/

/-- Does the operation raise no `RSVD` at issue (R14, R98)? -/
def engineLegal (reg : BitVec 5 → Word) (v : View) (op : EngOp) : Bool :=
  registerFormLegal v op && memoryFormLegal v op && matrixFormLegal reg v op &&
  (match op with
   | .fstat _ sel => decide (sel.toNat ≤ 10)
   | .fenceQ m => m != 0
   | .vfba s => decide (s.toNat ≤ 4)
   | .xcopy _ a _ => (v.operand a).aligned
   | _ => true)

/-! ### Performing an entry -/

/-- Mask registers that a vector or mask instruction reads or writes, m0 apart (R150). -/
def opMasks (op : EngOp) : List Nat :=
  let l : List Nat := match op with
    | .arith _ _ _ _ k => [k.toNat]
    | .cmp _ d _ _ k => [d.toNat, k.toNat]
    | .unary _ _ _ k => [k.toNat]
    | .cvt _ _ _ k => [k.toNat]
    | .quant _ _ _ k => [k.toNat]
    | .dequant _ _ _ k => [k.toNat]
    | .maskOp _ d a b => [d.toNat, a.toNat, b.toNat]
    | .maskNot d a => [d.toNat, a.toNat]
    | .maskPopc _ a k => [a.toNat, k.toNat]
    | .maskFirst _ a k => [a.toNat, k.toNat]
    | .maskSet d => [d.toNat]
    | .maskClr d => [d.toNat]
    | .slideUp _ _ _ k => [k.toNat]
    | .slideDown _ _ _ k => [k.toNat]
    | .gather _ _ _ k => [k.toNat]
    | .compress _ _ k => [k.toNat]
    | .expand _ _ k => [k.toNat]
    | .bcast _ _ k => [k.toNat]
    | .reduce _ _ _ _ k => [k.toNat]
    | .load _ _ _ k => [k.toNat]
    | .store _ _ _ k => [k.toNat]
    | .vmm _ _ _ _ k => [k.toNat]
    | _ => []
  l.filter (· != 0)

/-- Does a copy in progress hold one of the mask registers (R150)? -/
def maskHeld (c : Ctx) (op : EngOp) : Bool := c.copies.any fun (_, k) => k.active && (opMasks op).contains k.mreg

/-- Is a copy of the tile in progress? -/
def copiesActive (c : Ctx) : Bool := c.copies.any fun (_, k) => k.active

/-- What the operation does when it is performed in tile `t`, over the tile's architectural view. -/
def performEntry (t : Nat) (e : Entry) (s : State) : Perf :=
  let c := (s.tile t).ctx
  let rm := rmOf (fld (s.strandOf t 0).fstat 0 3)
  let reg := e.reg
  if maskHeld c e.op then { st := s, fin := .stall c.av.vstart .copyWait }
  else match e.op with
    | .vsetl _ _ _ => perfDone s
    | .vtag _ _ _ _ => perfDone s
    | .mcfg _ _ _ _ _ => perfDone s
    | .load form d a k => if form = .shaped then performVldt t d a k s else performLoad t reg form d a k s
    | .store form d a k => if form = .shaped then performVstt t d a k s else performStore t reg form d a k s
    | .vmm op d a b k => performVmm t rm op d a b k s
    | .vfba sc => performVfba t sc s
    | .mma kind q sel a b => performMma t reg e.view.vl kind q sel a b s
    | .mzero q => performMzero t q s
    | .mld q sel a => performMld t reg q sel a s
    | .mst q sel a => performMst t reg q sel a s
    | .mstSm q sel a => performMstSm t reg q sel a s
    | .mdrain q sel a b g => performMdrain t reg q sel a b g s
    | .xcopy d a ch => performCopy t d (shapeCopyRec c a ch.toNat) s
    | .xcopyQ d a => performCopy t d (packetCopyRec (reg a) (reg (a + 1))) s
    | .xabort a => performXabort t (reg a) s
    | .xqry d a => performXqry t d (reg a) s
    | .xwaitW _ _ => perfDone s
    | .xwaitE => perfDone s
    | .xev d => performXev t d s
    | .fcfgLd d a => performFcfgLd t d (reg a) s
    | .fcfgSw d a => performFcfgSw t d (reg a) s
    | .fstart => performFstart t s
    | .fstop => performFstop t s
    | .fsave a => performFsave t (reg a) s
    | .frest a => performFrest t (reg a) s
    | .fmark a => performFmark t (reg a) s
    | .fstat d sel => performFstat t d sel s
    | .fportW a p eos => performFportW t (reg a) p.toNat eos s
    | .fportR d p status => performFportR t d p.toNat status s
    | .fenceQ m => if m.getLsbD 2 && copiesActive c then { st := s, fin := .stall 0 .copyWait } else perfDone s
    | op =>
      let r := performRegister c reg rm op
      perfDone (updCtx t (fun _ => r.1) s) r.2

/-! ### Scalar registers of an entry (R96) -/

/-- Scalar registers that the entry's retirement writes (R96, R147, R154, R219, R220, R224, R225). -/
def EngOp.dests : EngOp → List (BitVec 5)
  | .maskPopc d _ _ => [d]
  | .maskFirst d _ _ => [d]
  | .extract d _ _ => [d]
  | .xcopy d _ _ => [d]
  | .xcopyQ d _ => [d]
  | .xqry d _ => [d]
  | .xev d => [d, d + 1]
  | .fcfgLd d _ => [d]
  | .fcfgSw d _ => [d]
  | .fstat d _ => [d]
  | .fportR d _ _ => [d]
  | _ => []

/-- Scalar registers that the operation reads at issue, or writes there or at retirement (R96). -/
def EngOp.sources (op : EngOp) : List (BitVec 5) :=
  let pair := fun (sel : Bool) (f : BitVec 5) => if sel then [f, f + 1] else []
  let src := fun (b : SrcB) => match b with | .scalar r => [r] | _ => []
  op.dests ++ (match op with
    | .arith _ _ _ b _ => src b
    | .cmp _ _ _ b _ => src b
    | .slideUp _ _ b _ => [b]
    | .slideDown _ _ b _ => [b]
    | .bcast _ a _ => [a]
    | .extract _ _ b => [b]
    | .insert _ a b => [a, b]
    | .vsetl d a _ => [d, a]
    | .load (.strided b) _ _ _ => [b]
    | .store (.strided b) _ _ _ => [b]
    | .mcfg a _ _ _ _ => [a]
    | .mma _ _ sel a b => pair (sel.getLsbD 0) a ++ pair (sel.getLsbD 1) b
    | .mld _ sel a => pair (sel = 1) a
    | .mst _ sel a => pair (sel = 1) a
    | .mstSm _ sel a => pair (sel = 1) a
    | .mdrain _ sel a _ _ => pair (sel = 1) a
    | .xcopyQ _ a => [a, a + 1]
    | .xabort a => [a]
    | .xqry _ a => [a]
    | .fcfgLd _ a => [a]
    | .fcfgSw _ a => [a]
    | .fsave a => [a]
    | .frest a => [a]
    | .fmark a => [a]
    | .fportW a _ _ => [a]
    | _ => [])

/-- Does a scalar instruction that names register `r` wait for an engine entry of the tile (R96)? -/
def registerPending (x : Tile) (r : BitVec 5) : Bool := r != 0 && x.queue.any fun e => e.op.dests.contains r

/-! ### The head of the queue -/

/-- The entry at the head traps (R379). -/
def headTrap (t : Nat) (e : Entry) (resume : Nat) (tr : Trap) (s : State) : State := takeTrap (abandonHead t e resume s) t 0 tr

/-- The length after a trim (R92). -/
def trimView (v : View) (n : Option Nat) : View := match n with | some n => { v with vl := n } | none => v

/-- Scalar results, written to the strand and to the values kept for younger entries. -/
def putDests (l : List (BitVec 5 × Word)) (m : SMap Word) : SMap Word :=
  l.foldl (fun m (r, v) => if r = 0 then m else sput m r.toNat v) m

/-- Reservations whose writes a retiring join counts for the strand's releases (R75, R80, R258, R263): those of the engine queues that it names
together with the strand-memory queue. -/
def joinedUnder (op : EngOp) (c : Ctx) : List Nat :=
  match op with
  | .fenceQ m => if m.getLsbD 4 then ((List.range 4).filter m.getLsbD).flatMap (sget [] c.under) else []
  | _ => []

/-- They count from now on. -/
def joinQueues (op : EngOp) (c : Ctx) (y : Strand) : Strand := { y with carried := (y.carried ++ joinedUnder op c).eraseDups }

/-- Retire the performed entry at the head (R22, R92, R96, R97, R169, R356); a helper's or the supervisor's is a join alone (R80). -/
def retireHead (t : Nat) (e : Entry) (rest : List Entry) (s : State) : State :=
  let y := joinQueues e.op (s.tile t).ctx (s.strandOf t e.slot)
  if e.slot ≠ 0 then setQueue t rest (s.setStrandOf t e.slot y)
  else
    let y1 := retireFlags y e.pc e.flags
    let s1 := s.setStrandOf t 0 { y1 with regs := putDests e.dests y1.regs }
    let s2 := updCtx t (fun c =>
      { c with g := e.g.getD c.g, av := { trimView (opView e.reg e.rtag c.av e.op) e.trim with vstart := 0 } }) s1
    setQueue t (rest.map fun x => if x.slot = 0 then { x with regs := putDests e.dests x.regs } else x) s2

/-- The architectural view that retirement of the entries leaves. -/
def viewBehind (older : List Entry) (v : View) : View :=
  older.foldl (fun v o => if o.slot = 0 then { trimView (opView o.reg o.rtag v o.op) o.trim with vstart := 0 } else v) v

/-- The tile as entry `e` finds it behind entries that have not retired: its own pins hold back none of its writes (R190). -/
def entryTile (older : List Entry) (e : Entry) (x : Tile) : Tile :=
  { x with
    ctx := { x.ctx with av := viewBehind older x.ctx.av, g := older.foldl (fun g o => o.g.getD g) x.ctx.g }
    queue := x.queue.map fun o => if o = e then { o with pins := [] } else o
    reads := e.pins }

/-- The performance of an entry of tile `t` behind the entries `older`. -/
def entryPerf (t : Nat) (older : List Entry) (e : Entry) (s : State) : Perf := performEntry t e (s.setTile t (entryTile older e (s.tile t)))

/-- The view and G stay as they are until the entry retires (R97, R169). -/
def keepView (t : Nat) (c : Ctx) (s : State) : State :=
  let x := s.tile t
  s.setTile t { x with ctx := { x.ctx with av := c.av, g := c.g }, reads := [] }

/-- The entry once it has been performed: what its retirement will write, the bytes that it pins (R189), and the value of G. -/
def Entry.finished (e : Entry) (r : Perf) (d : Done) (t : Nat) (g : BitVec 32) (run : Option (BitVec 1)) : Entry :=
  let x := r.st.tile t
  { e with
    state := (match run with | some k => .running k | none => .performed)
    flags := joinFlags e.flags d.flags, dests := d.dests, trim := d.trim, rtag := r.rtag.or e.rtag, pins := x.reads
    g := if x.ctx.g = g then none else some x.ctx.g }

/-- Is it a `fport.w` or an `fport.r`? -/
def EngOp.isPort : EngOp → Bool
  | .fportW _ _ _ => true
  | .fportR _ _ _ => true
  | _ => false

/-- A waiting `fport.w` or `fport.r` holds its strand (R224, Table 19.1), which leaves RUNNABLE: its age ends (R357). -/
def standAtPort (t : Nat) (op : EngOp) (s : State) : State :=
  let y := s.strandOf t 0
  if op.isPort && y.state == .runnable then s.setStrandOf t 0 { y with state := .waiting .portEntry, age := 0 } else s

/-- Where the lead's stalled entry goes on (R97, R131). -/
def keepResume (t : Nat) (e : Entry) (n : Nat) (s : State) : State := if e.slot = 0 then setVstart t n s else s

/-- What the performance of the entry at the head does to the tile: it stands performed, it stalls, or it traps. -/
def afterPerform (t : Nat) (e : Entry) (rest : List Entry) (s : State) (r : Perf) (run : Option (BitVec 1)) : State :=
  let c := (s.tile t).ctx
  match r.fin with
  | .done d => setQueue t (e.finished r d t c.g run :: rest) (keepView t c r.st)
  | .stall n w =>
    let e1 := { e with state := .stalled w, flags := joinFlags e.flags r.flags, rtag := r.rtag.or e.rtag, pins := (r.st.tile t).reads }
    standAtPort t e.op (keepResume t e n (setQueue t (e1 :: rest) (keepView t c (r.st.noteWait w))))
  | .trap n tr => headTrap t { e with flags := joinFlags e.flags r.flags } n tr (keepView t c r.st)

/-- Begin or go on with the entry at the head if it has not been performed. -/
def performHead (t : Nat) (run : Option (BitVec 1)) (s : State) : State :=
  match (s.tile t).queue with
  | [] => s
  | e :: rest => if e.committed then s else afterPerform t e rest s (entryPerf t [] e s) run

/-- Retire the head if it has been performed. -/
def retirePerformed (t : Nat) (s : State) : State :=
  match (s.tile t).queue with
  | e :: rest => if e.state = .performed then retireHead t e rest s else s
  | [] => s

/-- Perform the entry at the head and retire it, where it neither traps nor stalls. -/
def finishHead (t : Nat) (s : State) : State := retirePerformed t (performHead t none s)

/-! ### Performance ahead of retirement (R129, R356) -/

/-- The first entry of queue `q` that is not performed, between the older and the younger ones. -/
def nextEntry (q : Queue) : List Entry → List Entry → Option (List Entry × Entry × List Entry)
  | _, [] => none
  | older, e :: r => if !e.committed && e.op.queue = q then some (older, e, r) else nextEntry q (older ++ [e]) r

/-- Does a `fence.q` with this mask name the queue (R80)? -/
def namesQueue (m : BitVec 5) : Queue → Bool
  | .vector => m.getLsbD 0
  | .matrix => m.getLsbD 1
  | .transfer => m.getLsbD 2
  | .fabric => m.getLsbD 3
  | .join => true

/-- Does the operation name no vector register, and no mask register? -/
def EngOp.noVectors : EngOp → Bool
  | .mma .dense _ sel _ _ => decide (sel = 3)
  | .mma .rowSum _ sel _ _ => decide (sel = 3)
  | .mcfg _ _ _ _ _ => true
  | .mzero _ => true
  | .mld _ sel _ => decide (sel = 1)
  | .mst _ sel _ => decide (sel = 1)
  | .mstSm _ sel _ => decide (sel = 1)
  | .vfba _ => true
  | .fenceQ _ => true
  | .xcopy _ _ _ => false
  | op => decide (op.queue = .transfer) || decide (op.queue = .fabric)

/-- Does the operation change nothing but registers: no memory, no scratchpad byte, no channel, no token, no slot, no arrival? -/
def EngOp.confined : EngOp → Bool
  | .load _ _ _ _ => false
  | .store _ _ _ _ => false
  | .vmm _ _ _ _ _ => false
  | .vfba _ => false
  | .mst _ _ _ => false
  | .mstSm _ _ _ => false
  | .mdrain _ _ _ _ _ => false
  | .xqry _ _ => true
  | .fstat _ _ => true
  | op => decide (op.queue = .vector) || decide (op.queue = .matrix)

/-- May an operation be performed before the older entry `o`, which is of another queue (R80, R130, R356)? -/
def mayPass (op : EngOp) (o : Entry) : Bool :=
  o.committed ||
  ((match o.op with
    | .fenceQ m => !namesQueue m op.queue
    | _ => true) && (op.noVectors || o.op.noVectors))

/-- Copies of the tile that move. -/
def copiesRunning (c : Ctx) : Nat := (c.copies.filter fun (_, y) => y.state == .running).length

/-- Can what a performance ahead of its turn has done be undone: has it consumed no error, and, for a copy, begun a copy that has still bytes to
move? -/
def undoable (t : Nat) (op : EngOp) (s s1 : State) : Bool :=
  decide (s1.consumed = s.consumed) && (!op.isCopy || decide (copiesRunning (s.tile t).ctx < copiesRunning (s1.tile t).ctx))

/-- Perform the next entry of queue `q`: at the head with whatever end it has, and behind others only where it neither traps nor stalls, because
a trap or a stall shows at the head alone. -/
def performNext (t : Nat) (q : Queue) (run : List Entry → Entry → Option (Option (BitVec 1))) (s : State) : State :=
  match nextEntry q [] (s.tile t).queue with
  | none => s
  | some (older, e, rest) =>
    match run older e with
    | none => s
    | some k =>
      if older.isEmpty then performHead t k s
      else
        let sure := older.all (·.committed)
        if !sure && !(older.all (mayPass e.op) && (e.op.confined || e.op.isCopy)) then s
        else
          let r := entryPerf t older e s
          let c := (s.tile t).ctx
          match r.fin with
          | .done d =>
            if !sure && !undoable t e.op s r.st then s
            else
              let g := older.foldl (fun g o => o.g.getD g) c.g
              let e1 := { e.finished r d t g k with saved := if sure || e.op.isCopy then none else some (savedRegs c (r.st.tile t).ctx) }
              setQueue t (older ++ e1 :: rest) (keepView t c r.st)
          | _ => s

/-- Accumulator registers that a matrix operation reads or writes. -/
def EngOp.accs : EngOp → List Nat
  | .mma _ q _ _ _ => [q.toNat]
  | .mzero q => [q.toNat]
  | .mld q _ _ => [q.toNat]
  | .mst q _ _ => [q.toNat]
  | .mstSm q _ _ => [q.toNat]
  | .mdrain q _ _ _ _ => [q.toNat]
  | _ => []

/-- Does a matrix operation write scratchpad bytes or vector registers? -/
def EngOp.storesMatrix : EngOp → Bool
  | .mst _ _ _ => true
  | .mstSm _ _ _ => true
  | .mdrain _ _ _ _ _ => true
  | _ => false

/-- May two matrix entries run at once (R129)?  An entry that stores shares the engines with none that names scratchpad or vector registers. -/
def runsBeside (a b : EngOp) : Bool :=
  !(a.accs.any b.accs.contains) && !((a.storesMatrix && !b.accs.isEmpty && b ≠ .mzero (BitVec.ofNat 3 (b.accs.headD 0))) ||
    (b.storesMatrix && !a.accs.isEmpty && a ≠ .mzero (BitVec.ofNat 3 (a.accs.headD 0))))

/-- The engines that run older entries. -/
def enginesTaken (older : List Entry) : List (BitVec 1) :=
  older.filterMap fun o => match o.state with | .running k => some k | _ => none

/-- The engine that a matrix entry starts on: ME0 when both are free; none when it has to wait.  `mcfg` occupies no engine (R442). -/
def engineFor (older : List Entry) (e : Entry) : Option (Option (BitVec 1)) :=
  match e.op with
  | .mcfg _ _ _ _ _ => some none
  | op =>
    let taken := enginesTaken older
    if !(older.all fun o => match o.state with | .running _ => runsBeside o.op op | _ => true) then none
    else if !taken.contains 0 then some (some 0)
    else if !taken.contains 1 then some (some 1)
    else none

/-- The engines of a tile have completed the entries that they run. -/
def freeEngines (t : Nat) (s : State) : State :=
  setQueue t ((s.tile t).queue.map fun e => match e.state with | .running _ => { e with state := .performed } | _ => e) s

/-- The next entry of each queue is performed. -/
def performQueues (t : Nat) (s : State) : State :=
  let any := fun (_ : List Entry) (_ : Entry) => some (none : Option (BitVec 1))
  performNext t .fabric any (performNext t .transfer any (performNext t .matrix engineFor (performNext t .vector any s)))

/-- A copy that may be accepted now is. -/
def acceptNext (t : Nat) (s : State) : State := performNext t .transfer (fun _ e => if e.op.isCopy then some none else none) s

/-! ### Issue -/

/-- Has the `vldt` at hand not yet read its record (R119)? -/
def recordUnread (e : Entry) : Bool := e.rtag.isNone && (match e.op with | .load .shaped _ _ _ => true | _ => false)

/-- The scalar register that `vsetl` writes at issue (R95). -/
def issueDest (reg : BitVec 5 → Word) (v : View) (op : EngOp) (y : Strand) : Strand :=
  match op with
  | .vsetl d a b => y.setReg d (BitVec.ofNat 64 (setlGrant v (reg a) b))
  | _ => y

/-- Add an entry for the current instruction to the queue and go on to the next word. -/
def enqueue (op : EngOp) (v : View) (s : State) : State :=
  let y := s.cur
  let e : Entry := { op := op, slot := s.cs, pc := y.pc, regs := y.regs, view := v }
  (setQueue s.ct (s.curTile.queue ++ [e]) (s.setCur (issueDest y.reg v op y))).advance

/-- Put an operation into the queue, if there is room (R356).  With an empty queue the entry is performed and retired at once, unless this turn
leaves the engines behind (`lag`). -/
def takeEntry (op : EngOp) (s : State) : State :=
  let x := s.curTile
  if 64 ≤ x.queue.length then s.waitAt .queueFull
  else if x.queue.isEmpty && !s.lag then finishHead s.ct (enqueue op (issueView x) s)
  else enqueue op (issueView x) s

/-- Issue an engine instruction of the current strand (R44, R91, R96, R98, R356). -/
def issueEntry (op : EngOp) (s : State) : State :=
  let x := s.curTile
  if !s.isLead then raise s (decodeTrap cILL)
  else if op.sources.any (registerPending x) then s.waitAt .register
  else if x.queue.any recordUnread then s.waitAt .drain
  else if !engineLegal s.cur.reg (issueView x) op then raise s (decodeTrap cRSVD)
  else takeEntry op s

def issueEngine (op : EngOp) (s : State) : Host.Outcome State Fault Refusal := .next (issueEntry op s)

/-- `fence.q` (R80): a mask of bit 20 alone is `fence.t`; one that names an engine queue takes an entry of the tile's queue, whatever strand
issues it. -/
def execFenceQ (m : BitVec 5) (s : State) : Host.Outcome State Fault Refusal :=
  if m = 0 then .next (raise s (decodeTrap cRSVD))
  else if m = 0x10 then .next s.advance
  else if s.isLead then issueEngine (.fenceQ m) s
  else .next (takeEntry (.fenceQ m) s)

/-! ### Events -/

/-- The oldest entry of a tile that does not stand. -/
def oldestEntry (s : State) (t : Nat) : Option Entry := if (s.tile t).still then none else (s.tile t).queue.head?

/-- VECTOR_ENTRY_PERFORM (R96): the oldest vector entry that is not performed is performed, or goes on from where it stalled. -/
def execVectorEntryPerform (tile : BitVec 10) (s : State) : Host.Outcome State Fault Refusal :=
  .next (if (s.tile tile.toNat).still then s else performNext tile.toNat .vector (fun _ _ => some none) s)

/-- MATRIX_ENTRY_START (R129, R442). -/
def execMatrixEntryStart (tile : BitVec 10) (s : State) : Host.Outcome State Fault Refusal :=
  .next (if (s.tile tile.toNat).still then s else performNext tile.toNat .matrix engineFor s)

/-- MATRIX_ENTRY_COMPLETE (R442): the engine that holds an entry becomes free. -/
def execMatrixEntryComplete (tile : BitVec 10) (me : BitVec 1) (s : State) : Host.Outcome State Fault Refusal :=
  .next (setQueue tile.toNat ((s.tile tile.toNat).queue.map fun e => if e.state = .running me then { e with state := .performed } else e) s)

/-- ENGINE_ENTRY_RETIRE (R356): the oldest entry retires once it has been performed.  An entry of the transfer or fabric-port queue, or
a join, is performed first if it does not trap. -/
def execEngineEntryRetire (tile : BitVec 10) (s : State) : Host.Outcome State Fault Refusal :=
  match oldestEntry s tile.toNat with
  | none => .next s
  | some e =>
    if e.state = .performed then .next (retirePerformed tile.toNat s)
    else if e.op.queue = .vector ∨ e.op.queue = .matrix then .next s
    else match (entryPerf tile.toNat [] e s).fin with
      | .trap _ _ => .next s
      | _ => .next (finishHead tile.toNat s)

/-- ENGINE_TRAP (R96, R379): the entry at `vcp` traps. -/
def execEngineTrap (tile : BitVec 10) (s : State) : Host.Outcome State Fault Refusal :=
  match oldestEntry s tile.toNat with
  | none => .next s
  | some e =>
    if e.committed then .next s
    else match (entryPerf tile.toNat [] e s).fin with
      | .trap _ _ => .next (performHead tile.toNat none s)
      | _ => .next s

/-- COPY_ACCEPT (R147, R191): the copy entry at the head is accepted and retires; one behind entries of other queues is accepted and retires in
its turn (R356). -/
def execCopyAccept (tile : BitVec 10) (s : State) : Host.Outcome State Fault Refusal :=
  match oldestEntry s tile.toNat with
  | some e => .next (if e.op.isCopy then finishHead tile.toNat s else acceptNext tile.toNat s)
  | none => .next s

end Sys2Proof.Machine
end

