-- ==== Sys2Proof/Machine/Lead.lean ====
section
/-! DEFINITION. The vector, matrix, transfer and fabric instructions, majors 0x10 to 0x20: each takes an entry of the engine queue
(R356).  What an entry does when it is performed stands in `performEntry` and the family files. -/

namespace Sys2Proof.Machine

/-- `vadd` (R101). -/
def execVadd (d a b : BitVec 5) (k : BitVec 3) (s : State) : Host.Outcome State Fault Refusal :=
  issueEngine (.arith .add d a (.vec b) k) s

/-- `vsub` (R101). -/
def execVsub (d a b : BitVec 5) (k : BitVec 3) (s : State) : Host.Outcome State Fault Refusal :=
  issueEngine (.arith .sub d a (.vec b) k) s

/-- `vmul` (R101). -/
def execVmul (d a b : BitVec 5) (k : BitVec 3) (s : State) : Host.Outcome State Fault Refusal :=
  issueEngine (.arith .mul d a (.vec b) k) s

/-- `vmulh` (R101). -/
def execVmulh (d a b : BitVec 5) (k : BitVec 3) (s : State) : Host.Outcome State Fault Refusal :=
  issueEngine (.arith .mulh d a (.vec b) k) s

/-- `vfma` (R101). -/
def execVfma (d a b : BitVec 5) (k : BitVec 3) (s : State) : Host.Outcome State Fault Refusal :=
  issueEngine (.arith .fma d a (.vec b) k) s

/-- `vfms` (R101). -/
def execVfms (d a b : BitVec 5) (k : BitVec 3) (s : State) : Host.Outcome State Fault Refusal :=
  issueEngine (.arith .fms d a (.vec b) k) s

/-- `vfnma` (R101). -/
def execVfnma (d a b : BitVec 5) (k : BitVec 3) (s : State) : Host.Outcome State Fault Refusal :=
  issueEngine (.arith .fnma d a (.vec b) k) s

/-- `vdiv` (R101). -/
def execVdiv (d a b : BitVec 5) (k : BitVec 3) (s : State) : Host.Outcome State Fault Refusal :=
  issueEngine (.arith .div d a (.vec b) k) s

/-- `vmin` (R101). -/
def execVmin (d a b : BitVec 5) (k : BitVec 3) (s : State) : Host.Outcome State Fault Refusal :=
  issueEngine (.arith .min d a (.vec b) k) s

/-- `vmax` (R101). -/
def execVmax (d a b : BitVec 5) (k : BitVec 3) (s : State) : Host.Outcome State Fault Refusal :=
  issueEngine (.arith .max d a (.vec b) k) s

/-- `vsadd` (R101). -/
def execVsadd (d a b : BitVec 5) (k : BitVec 3) (s : State) : Host.Outcome State Fault Refusal :=
  issueEngine (.arith .sadd d a (.vec b) k) s

/-- `vssub` (R101). -/
def execVssub (d a b : BitVec 5) (k : BitVec 3) (s : State) : Host.Outcome State Fault Refusal :=
  issueEngine (.arith .ssub d a (.vec b) k) s

/-- `vand` (R101). -/
def execVand (d a b : BitVec 5) (k : BitVec 3) (s : State) : Host.Outcome State Fault Refusal :=
  issueEngine (.arith .and d a (.vec b) k) s

/-- `vor` (R101). -/
def execVor (d a b : BitVec 5) (k : BitVec 3) (s : State) : Host.Outcome State Fault Refusal :=
  issueEngine (.arith .or d a (.vec b) k) s

/-- `vxor` (R101). -/
def execVxor (d a b : BitVec 5) (k : BitVec 3) (s : State) : Host.Outcome State Fault Refusal :=
  issueEngine (.arith .xor d a (.vec b) k) s

/-- `vandn` (R101). -/
def execVandn (d a b : BitVec 5) (k : BitVec 3) (s : State) : Host.Outcome State Fault Refusal :=
  issueEngine (.arith .andn d a (.vec b) k) s

/-- `vsll` (R101). -/
def execVsll (d a b : BitVec 5) (k : BitVec 3) (s : State) : Host.Outcome State Fault Refusal :=
  issueEngine (.arith .sll d a (.vec b) k) s

/-- `vsrl` (R101). -/
def execVsrl (d a b : BitVec 5) (k : BitVec 3) (s : State) : Host.Outcome State Fault Refusal :=
  issueEngine (.arith .srl d a (.vec b) k) s

/-- `vsra` (R101). -/
def execVsra (d a b : BitVec 5) (k : BitVec 3) (s : State) : Host.Outcome State Fault Refusal :=
  issueEngine (.arith .sra d a (.vec b) k) s

/-- `vceq` (R105). -/
def execVceq (d a b : BitVec 5) (k : BitVec 3) (s : State) : Host.Outcome State Fault Refusal :=
  issueEngine (.cmp .eq d a (.vec b) k) s

/-- `vcne` (R105). -/
def execVcne (d a b : BitVec 5) (k : BitVec 3) (s : State) : Host.Outcome State Fault Refusal :=
  issueEngine (.cmp .ne d a (.vec b) k) s

/-- `vclt` (R105). -/
def execVclt (d a b : BitVec 5) (k : BitVec 3) (s : State) : Host.Outcome State Fault Refusal :=
  issueEngine (.cmp .lt d a (.vec b) k) s

/-- `vcle` (R105). -/
def execVcle (d a b : BitVec 5) (k : BitVec 3) (s : State) : Host.Outcome State Fault Refusal :=
  issueEngine (.cmp .le d a (.vec b) k) s

/-- `vabs` (R107). -/
def execVabs (d a : BitVec 5) (k : BitVec 3) (s : State) : Host.Outcome State Fault Refusal :=
  issueEngine (.unary .abs d a k) s

/-- `vneg` (R107). -/
def execVneg (d a : BitVec 5) (k : BitVec 3) (s : State) : Host.Outcome State Fault Refusal :=
  issueEngine (.unary .neg d a k) s

/-- `vclz` (R107). -/
def execVclz (d a : BitVec 5) (k : BitVec 3) (s : State) : Host.Outcome State Fault Refusal :=
  issueEngine (.unary .clz d a k) s

/-- `vctz` (R107). -/
def execVctz (d a : BitVec 5) (k : BitVec 3) (s : State) : Host.Outcome State Fault Refusal :=
  issueEngine (.unary .ctz d a k) s

/-- `vffs` (R107). -/
def execVffs (d a : BitVec 5) (k : BitVec 3) (s : State) : Host.Outcome State Fault Refusal :=
  issueEngine (.unary .ffs d a k) s

/-- `vpopc` (R107). -/
def execVpopc (d a : BitVec 5) (k : BitVec 3) (s : State) : Host.Outcome State Fault Refusal :=
  issueEngine (.unary .popc d a k) s

/-- `vexp2` (R108). -/
def execVexp2 (d a : BitVec 5) (k : BitVec 3) (s : State) : Host.Outcome State Fault Refusal :=
  issueEngine (.unary .exp2 d a k) s

/-- `vlog2` (R108). -/
def execVlog2 (d a : BitVec 5) (k : BitVec 3) (s : State) : Host.Outcome State Fault Refusal :=
  issueEngine (.unary .log2 d a k) s

/-- `vrcp` (R108). -/
def execVrcp (d a : BitVec 5) (k : BitVec 3) (s : State) : Host.Outcome State Fault Refusal :=
  issueEngine (.unary .rcp d a k) s

/-- `vrsq` (R108). -/
def execVrsq (d a : BitVec 5) (k : BitVec 3) (s : State) : Host.Outcome State Fault Refusal :=
  issueEngine (.unary .rsq d a k) s

/-- `vcvt` (R109). -/
def execVcvt (d a : BitVec 5) (k : BitVec 3) (s : State) : Host.Outcome State Fault Refusal :=
  issueEngine (.cvt .dyn d a k) s

/-- `vcvt.rne` (R109). -/
def execVcvtRne (d a : BitVec 5) (k : BitVec 3) (s : State) : Host.Outcome State Fault Refusal :=
  issueEngine (.cvt .rne d a k) s

/-- `vcvt.rtz` (R109). -/
def execVcvtRtz (d a : BitVec 5) (k : BitVec 3) (s : State) : Host.Outcome State Fault Refusal :=
  issueEngine (.cvt .rtz d a k) s

/-- `vcvt.rdn` (R109). -/
def execVcvtRdn (d a : BitVec 5) (k : BitVec 3) (s : State) : Host.Outcome State Fault Refusal :=
  issueEngine (.cvt .rdn d a k) s

/-- `vcvt.rup` (R109). -/
def execVcvtRup (d a : BitVec 5) (k : BitVec 3) (s : State) : Host.Outcome State Fault Refusal :=
  issueEngine (.cvt .rup d a k) s

/-- `vcvt.rmm` (R109). -/
def execVcvtRmm (d a : BitVec 5) (k : BitVec 3) (s : State) : Host.Outcome State Fault Refusal :=
  issueEngine (.cvt .rmm d a k) s

/-- `vcvt.sr` (R110). -/
def execVcvtSr (d a : BitVec 5) (k : BitVec 3) (s : State) : Host.Outcome State Fault Refusal :=
  issueEngine (.cvt .sr d a k) s

/-- `vquant` (R111). -/
def execVquant (d a b : BitVec 5) (k : BitVec 3) (s : State) : Host.Outcome State Fault Refusal :=
  issueEngine (.quant d a b k) s

/-- `vdequant` (R111). -/
def execVdequant (d a b : BitVec 5) (k : BitVec 3) (s : State) : Host.Outcome State Fault Refusal :=
  issueEngine (.dequant d a b k) s

/-- `vadd.s` (R101). -/
def execVaddS (d a b : BitVec 5) (k : BitVec 3) (s : State) : Host.Outcome State Fault Refusal :=
  issueEngine (.arith .add d a (.scalar b) k) s

/-- `vsub.s` (R101). -/
def execVsubS (d a b : BitVec 5) (k : BitVec 3) (s : State) : Host.Outcome State Fault Refusal :=
  issueEngine (.arith .sub d a (.scalar b) k) s

/-- `vmul.s` (R101). -/
def execVmulS (d a b : BitVec 5) (k : BitVec 3) (s : State) : Host.Outcome State Fault Refusal :=
  issueEngine (.arith .mul d a (.scalar b) k) s

/-- `vmulh.s` (R101). -/
def execVmulhS (d a b : BitVec 5) (k : BitVec 3) (s : State) : Host.Outcome State Fault Refusal :=
  issueEngine (.arith .mulh d a (.scalar b) k) s

/-- `vfma.s` (R101). -/
def execVfmaS (d a b : BitVec 5) (k : BitVec 3) (s : State) : Host.Outcome State Fault Refusal :=
  issueEngine (.arith .fma d a (.scalar b) k) s

/-- `vfms.s` (R101). -/
def execVfmsS (d a b : BitVec 5) (k : BitVec 3) (s : State) : Host.Outcome State Fault Refusal :=
  issueEngine (.arith .fms d a (.scalar b) k) s

/-- `vfnma.s` (R101). -/
def execVfnmaS (d a b : BitVec 5) (k : BitVec 3) (s : State) : Host.Outcome State Fault Refusal :=
  issueEngine (.arith .fnma d a (.scalar b) k) s

/-- `vdiv.s` (R101). -/
def execVdivS (d a b : BitVec 5) (k : BitVec 3) (s : State) : Host.Outcome State Fault Refusal :=
  issueEngine (.arith .div d a (.scalar b) k) s

/-- `vmin.s` (R101). -/
def execVminS (d a b : BitVec 5) (k : BitVec 3) (s : State) : Host.Outcome State Fault Refusal :=
  issueEngine (.arith .min d a (.scalar b) k) s

/-- `vmax.s` (R101). -/
def execVmaxS (d a b : BitVec 5) (k : BitVec 3) (s : State) : Host.Outcome State Fault Refusal :=
  issueEngine (.arith .max d a (.scalar b) k) s

/-- `vsadd.s` (R101). -/
def execVsaddS (d a b : BitVec 5) (k : BitVec 3) (s : State) : Host.Outcome State Fault Refusal :=
  issueEngine (.arith .sadd d a (.scalar b) k) s

/-- `vssub.s` (R101). -/
def execVssubS (d a b : BitVec 5) (k : BitVec 3) (s : State) : Host.Outcome State Fault Refusal :=
  issueEngine (.arith .ssub d a (.scalar b) k) s

/-- `vand.s` (R101). -/
def execVandS (d a b : BitVec 5) (k : BitVec 3) (s : State) : Host.Outcome State Fault Refusal :=
  issueEngine (.arith .and d a (.scalar b) k) s

/-- `vor.s` (R101). -/
def execVorS (d a b : BitVec 5) (k : BitVec 3) (s : State) : Host.Outcome State Fault Refusal :=
  issueEngine (.arith .or d a (.scalar b) k) s

/-- `vxor.s` (R101). -/
def execVxorS (d a b : BitVec 5) (k : BitVec 3) (s : State) : Host.Outcome State Fault Refusal :=
  issueEngine (.arith .xor d a (.scalar b) k) s

/-- `vandn.s` (R101). -/
def execVandnS (d a b : BitVec 5) (k : BitVec 3) (s : State) : Host.Outcome State Fault Refusal :=
  issueEngine (.arith .andn d a (.scalar b) k) s

/-- `vsll.s` (R101). -/
def execVsllS (d a b : BitVec 5) (k : BitVec 3) (s : State) : Host.Outcome State Fault Refusal :=
  issueEngine (.arith .sll d a (.scalar b) k) s

/-- `vsrl.s` (R101). -/
def execVsrlS (d a b : BitVec 5) (k : BitVec 3) (s : State) : Host.Outcome State Fault Refusal :=
  issueEngine (.arith .srl d a (.scalar b) k) s

/-- `vsra.s` (R101). -/
def execVsraS (d a b : BitVec 5) (k : BitVec 3) (s : State) : Host.Outcome State Fault Refusal :=
  issueEngine (.arith .sra d a (.scalar b) k) s

/-- `vceq.s` (R105). -/
def execVceqS (d a b : BitVec 5) (k : BitVec 3) (s : State) : Host.Outcome State Fault Refusal :=
  issueEngine (.cmp .eq d a (.scalar b) k) s

/-- `vcne.s` (R105). -/
def execVcneS (d a b : BitVec 5) (k : BitVec 3) (s : State) : Host.Outcome State Fault Refusal :=
  issueEngine (.cmp .ne d a (.scalar b) k) s

/-- `vclt.s` (R105). -/
def execVcltS (d a b : BitVec 5) (k : BitVec 3) (s : State) : Host.Outcome State Fault Refusal :=
  issueEngine (.cmp .lt d a (.scalar b) k) s

/-- `vcle.s` (R105). -/
def execVcleS (d a b : BitVec 5) (k : BitVec 3) (s : State) : Host.Outcome State Fault Refusal :=
  issueEngine (.cmp .le d a (.scalar b) k) s

/-- `vadd.i` (R101). -/
def execVaddI (d a i : BitVec 5) (k : BitVec 3) (s : State) : Host.Outcome State Fault Refusal :=
  issueEngine (.arith .add d a (.imm i) k) s

/-- `vsub.i` (R101). -/
def execVsubI (d a i : BitVec 5) (k : BitVec 3) (s : State) : Host.Outcome State Fault Refusal :=
  issueEngine (.arith .sub d a (.imm i) k) s

/-- `vmul.i` (R101). -/
def execVmulI (d a i : BitVec 5) (k : BitVec 3) (s : State) : Host.Outcome State Fault Refusal :=
  issueEngine (.arith .mul d a (.imm i) k) s

/-- `vmulh.i` (R101). -/
def execVmulhI (d a i : BitVec 5) (k : BitVec 3) (s : State) : Host.Outcome State Fault Refusal :=
  issueEngine (.arith .mulh d a (.imm i) k) s

/-- `vmin.i` (R101). -/
def execVminI (d a i : BitVec 5) (k : BitVec 3) (s : State) : Host.Outcome State Fault Refusal :=
  issueEngine (.arith .min d a (.imm i) k) s

/-- `vmax.i` (R101). -/
def execVmaxI (d a i : BitVec 5) (k : BitVec 3) (s : State) : Host.Outcome State Fault Refusal :=
  issueEngine (.arith .max d a (.imm i) k) s

/-- `vsadd.i` (R101). -/
def execVsaddI (d a i : BitVec 5) (k : BitVec 3) (s : State) : Host.Outcome State Fault Refusal :=
  issueEngine (.arith .sadd d a (.imm i) k) s

/-- `vssub.i` (R101). -/
def execVssubI (d a i : BitVec 5) (k : BitVec 3) (s : State) : Host.Outcome State Fault Refusal :=
  issueEngine (.arith .ssub d a (.imm i) k) s

/-- `vand.i` (R101). -/
def execVandI (d a i : BitVec 5) (k : BitVec 3) (s : State) : Host.Outcome State Fault Refusal :=
  issueEngine (.arith .and d a (.imm i) k) s

/-- `vor.i` (R101). -/
def execVorI (d a i : BitVec 5) (k : BitVec 3) (s : State) : Host.Outcome State Fault Refusal :=
  issueEngine (.arith .or d a (.imm i) k) s

/-- `vxor.i` (R101). -/
def execVxorI (d a i : BitVec 5) (k : BitVec 3) (s : State) : Host.Outcome State Fault Refusal :=
  issueEngine (.arith .xor d a (.imm i) k) s

/-- `vandn.i` (R101). -/
def execVandnI (d a i : BitVec 5) (k : BitVec 3) (s : State) : Host.Outcome State Fault Refusal :=
  issueEngine (.arith .andn d a (.imm i) k) s

/-- `vsll.i` (R101). -/
def execVsllI (d a i : BitVec 5) (k : BitVec 3) (s : State) : Host.Outcome State Fault Refusal :=
  issueEngine (.arith .sll d a (.imm i) k) s

/-- `vsrl.i` (R101). -/
def execVsrlI (d a i : BitVec 5) (k : BitVec 3) (s : State) : Host.Outcome State Fault Refusal :=
  issueEngine (.arith .srl d a (.imm i) k) s

/-- `vsra.i` (R101). -/
def execVsraI (d a i : BitVec 5) (k : BitVec 3) (s : State) : Host.Outcome State Fault Refusal :=
  issueEngine (.arith .sra d a (.imm i) k) s

/-- `vceq.i` (R105). -/
def execVceqI (d a i : BitVec 5) (k : BitVec 3) (s : State) : Host.Outcome State Fault Refusal :=
  issueEngine (.cmp .eq d a (.imm i) k) s

/-- `vcne.i` (R105). -/
def execVcneI (d a i : BitVec 5) (k : BitVec 3) (s : State) : Host.Outcome State Fault Refusal :=
  issueEngine (.cmp .ne d a (.imm i) k) s

/-- `vclt.i` (R105). -/
def execVcltI (d a i : BitVec 5) (k : BitVec 3) (s : State) : Host.Outcome State Fault Refusal :=
  issueEngine (.cmp .lt d a (.imm i) k) s

/-- `vcle.i` (R105). -/
def execVcleI (d a i : BitVec 5) (k : BitVec 3) (s : State) : Host.Outcome State Fault Refusal :=
  issueEngine (.cmp .le d a (.imm i) k) s

/-- `mand` (R106). -/
def execMand (d a b : BitVec 5) (s : State) : Host.Outcome State Fault Refusal :=
  issueEngine (.maskOp .and d a b) s

/-- `mor` (R106). -/
def execMor (d a b : BitVec 5) (s : State) : Host.Outcome State Fault Refusal :=
  issueEngine (.maskOp .or d a b) s

/-- `mxor` (R106). -/
def execMxor (d a b : BitVec 5) (s : State) : Host.Outcome State Fault Refusal :=
  issueEngine (.maskOp .xor d a b) s

/-- `mandn` (R106). -/
def execMandn (d a b : BitVec 5) (s : State) : Host.Outcome State Fault Refusal :=
  issueEngine (.maskOp .andn d a b) s

/-- `morn` (R106). -/
def execMorn (d a b : BitVec 5) (s : State) : Host.Outcome State Fault Refusal :=
  issueEngine (.maskOp .orn d a b) s

/-- `mnot` (R106). -/
def execMnot (d a : BitVec 5) (s : State) : Host.Outcome State Fault Refusal :=
  issueEngine (.maskNot d a) s

/-- `mpopc` (R106). -/
def execMpopc (d a : BitVec 5) (k : BitVec 3) (s : State) : Host.Outcome State Fault Refusal :=
  issueEngine (.maskPopc d a k) s

/-- `mfirst` (R106). -/
def execMfirst (d a : BitVec 5) (k : BitVec 3) (s : State) : Host.Outcome State Fault Refusal :=
  issueEngine (.maskFirst d a k) s

/-- `mset` (R106). -/
def execMset (d : BitVec 5) (s : State) : Host.Outcome State Fault Refusal :=
  issueEngine (.maskSet d) s

/-- `mclr` (R106). -/
def execMclr (d : BitVec 5) (s : State) : Host.Outcome State Fault Refusal :=
  issueEngine (.maskClr d) s

/-- `vslideup` (R112). -/
def execVslideup (d a b : BitVec 5) (k : BitVec 3) (s : State) : Host.Outcome State Fault Refusal :=
  issueEngine (.slideUp d a b k) s

/-- `vslidedn` (R112). -/
def execVslidedn (d a b : BitVec 5) (k : BitVec 3) (s : State) : Host.Outcome State Fault Refusal :=
  issueEngine (.slideDown d a b k) s

/-- `vgather` (R112). -/
def execVgather (d a b : BitVec 5) (k : BitVec 3) (s : State) : Host.Outcome State Fault Refusal :=
  issueEngine (.gather d a b k) s

/-- `vcompress` (R112). -/
def execVcompress (d a : BitVec 5) (k : BitVec 3) (s : State) : Host.Outcome State Fault Refusal :=
  issueEngine (.compress d a k) s

/-- `vexpand` (R112). -/
def execVexpand (d a : BitVec 5) (k : BitVec 3) (s : State) : Host.Outcome State Fault Refusal :=
  issueEngine (.expand d a k) s

/-- `vbcast` (R112). -/
def execVbcast (d a : BitVec 5) (k : BitVec 3) (s : State) : Host.Outcome State Fault Refusal :=
  issueEngine (.bcast d a k) s

/-- `vext` (R112). -/
def execVext (d a b : BitVec 5) (s : State) : Host.Outcome State Fault Refusal :=
  issueEngine (.extract d a b) s

/-- `vins` (R112). -/
def execVins (d a b : BitVec 5) (s : State) : Host.Outcome State Fault Refusal :=
  issueEngine (.insert d a b) s

/-- `vredsum` (R113). -/
def execVredsum (d a b : BitVec 5) (k : BitVec 3) (s : State) : Host.Outcome State Fault Refusal :=
  issueEngine (.reduce .sum d a b k) s

/-- `vredsumo` (R113). -/
def execVredsumo (d a b : BitVec 5) (k : BitVec 3) (s : State) : Host.Outcome State Fault Refusal :=
  issueEngine (.reduce .sumo d a b k) s

/-- `vredmin` (R113). -/
def execVredmin (d a b : BitVec 5) (k : BitVec 3) (s : State) : Host.Outcome State Fault Refusal :=
  issueEngine (.reduce .min d a b k) s

/-- `vredmax` (R113). -/
def execVredmax (d a b : BitVec 5) (k : BitVec 3) (s : State) : Host.Outcome State Fault Refusal :=
  issueEngine (.reduce .max d a b k) s

/-- `vsetl` (R95). -/
def execVsetl (d a b : BitVec 5) (s : State) : Host.Outcome State Fault Refusal :=
  issueEngine (.vsetl d a b) s

/-- `vtag` (R94). -/
def execVtag (d t : BitVec 5) (r : BitVec 3) (g : BitVec 2) (s : State) : Host.Outcome State Fault Refusal :=
  issueEngine (.vtag d t r g) s

/-- `vld` (R114). -/
def execVld (d a : BitVec 5) (k : BitVec 3) (s : State) : Host.Outcome State Fault Refusal :=
  issueEngine (.load .unit d a k) s

/-- `vlds` (R114). -/
def execVlds (d a b : BitVec 5) (k : BitVec 3) (s : State) : Host.Outcome State Fault Refusal :=
  issueEngine (.load (.strided b) d a k) s

/-- `vldx` (R114). -/
def execVldx (d a b : BitVec 5) (k : BitVec 3) (s : State) : Host.Outcome State Fault Refusal :=
  issueEngine (.load (.indexed b) d a k) s

/-- `vld.ff` (R118). -/
def execVldFf (d a : BitVec 5) (k : BitVec 3) (s : State) : Host.Outcome State Fault Refusal :=
  issueEngine (.load .firstFault d a k) s

/-- `vldt` (R119). -/
def execVldt (d a : BitVec 5) (k : BitVec 3) (s : State) : Host.Outcome State Fault Refusal :=
  issueEngine (.load .shaped d a k) s

/-- `vst` (R114). -/
def execVst (d a : BitVec 5) (k : BitVec 3) (s : State) : Host.Outcome State Fault Refusal :=
  issueEngine (.store .unit d a k) s

/-- `vsts` (R114). -/
def execVsts (d a b : BitVec 5) (k : BitVec 3) (s : State) : Host.Outcome State Fault Refusal :=
  issueEngine (.store (.strided b) d a k) s

/-- `vstx` (R114). -/
def execVstx (d a b : BitVec 5) (k : BitVec 3) (s : State) : Host.Outcome State Fault Refusal :=
  issueEngine (.store (.indexed b) d a k) s

/-- `vstt` (R119). -/
def execVstt (d a : BitVec 5) (k : BitVec 3) (s : State) : Host.Outcome State Fault Refusal :=
  issueEngine (.store .shaped d a k) s

/-- `vmm.add` (R120). -/
def execVmmAdd (d a b : BitVec 5) (k : BitVec 3) (s : State) : Host.Outcome State Fault Refusal :=
  issueEngine (.vmm .add d a b k) s

/-- `vmm.sub` (R120). -/
def execVmmSub (d a b : BitVec 5) (k : BitVec 3) (s : State) : Host.Outcome State Fault Refusal :=
  issueEngine (.vmm .sub d a b k) s

/-- `vmm.mul` (R120). -/
def execVmmMul (d a b : BitVec 5) (k : BitVec 3) (s : State) : Host.Outcome State Fault Refusal :=
  issueEngine (.vmm .mul d a b k) s

/-- `vmm.min` (R120). -/
def execVmmMin (d a b : BitVec 5) (k : BitVec 3) (s : State) : Host.Outcome State Fault Refusal :=
  issueEngine (.vmm .min d a b k) s

/-- `vmm.max` (R120). -/
def execVmmMax (d a b : BitVec 5) (k : BitVec 3) (s : State) : Host.Outcome State Fault Refusal :=
  issueEngine (.vmm .max d a b k) s

/-- `vmm.and` (R120). -/
def execVmmAnd (d a b : BitVec 5) (k : BitVec 3) (s : State) : Host.Outcome State Fault Refusal :=
  issueEngine (.vmm .and d a b k) s

/-- `vmm.or` (R120). -/
def execVmmOr (d a b : BitVec 5) (k : BitVec 3) (s : State) : Host.Outcome State Fault Refusal :=
  issueEngine (.vmm .or d a b k) s

/-- `vmm.xor` (R120). -/
def execVmmXor (d a b : BitVec 5) (k : BitVec 3) (s : State) : Host.Outcome State Fault Refusal :=
  issueEngine (.vmm .xor d a b k) s

/-- `vmm.cpy` (R120). -/
def execVmmCpy (d a : BitVec 5) (k : BitVec 3) (s : State) : Host.Outcome State Fault Refusal :=
  issueEngine (.vmm .cpy d a 0 k) s

/-- `vfba` (R122). -/
def execVfba (s : BitVec 3) (z : State) : Host.Outcome State Fault Refusal :=
  issueEngine (.vfba s) z

/-- `mcfg` (R124). -/
def execMcfg (a f : BitVec 5) (t u v : BitVec 1) (s : State) : Host.Outcome State Fault Refusal :=
  issueEngine (.mcfg a f t u v) s

/-- `mma` (R134). -/
def execMma (q : BitVec 3) (e : BitVec 2) (a b : BitVec 5) (s : State) : Host.Outcome State Fault Refusal :=
  issueEngine (.mma .dense q e a b) s

/-- `mma.x` (R135). -/
def execMmaX (q : BitVec 3) (e : BitVec 2) (a b v : BitVec 5) (s : State) : Host.Outcome State Fault Refusal :=
  issueEngine (.mma (.scaled v) q e a b) s

/-- `mma.g` (R136). -/
def execMmaG (q : BitVec 3) (e : BitVec 2) (a b v : BitVec 5) (s : State) : Host.Outcome State Fault Refusal :=
  issueEngine (.mma (.grouped v) q e a b) s

/-- `mma.s24` (R137). -/
def execMmaS24 (q : BitVec 3) (e : BitVec 2) (a b v : BitVec 5) (s : State) : Host.Outcome State Fault Refusal :=
  issueEngine (.mma (.s24 v) q e a b) s

/-- `mma.bm` (R138). -/
def execMmaBm (q : BitVec 3) (e : BitVec 2) (a b v : BitVec 5) (s : State) : Host.Outcome State Fault Refusal :=
  issueEngine (.mma (.bitmap v) q e a b) s

/-- `mzero` (R140). -/
def execMzero (q : BitVec 3) (s : State) : Host.Outcome State Fault Refusal :=
  issueEngine (.mzero q) s

/-- `mrsum` (R140). -/
def execMrsum (q : BitVec 3) (e : BitVec 2) (a b : BitVec 5) (s : State) : Host.Outcome State Fault Refusal :=
  issueEngine (.mma .rowSum q e a b) s

/-- `mld` (R141). -/
def execMld (q : BitVec 3) (e : BitVec 1) (a : BitVec 5) (s : State) : Host.Outcome State Fault Refusal :=
  issueEngine (.mld q e a) s

/-- `mst` (R141). -/
def execMst (q : BitVec 3) (e : BitVec 1) (a : BitVec 5) (s : State) : Host.Outcome State Fault Refusal :=
  issueEngine (.mst q e a) s

/-- `mst.sm` (R141). -/
def execMstSm (q : BitVec 3) (e : BitVec 1) (a : BitVec 5) (s : State) : Host.Outcome State Fault Refusal :=
  issueEngine (.mstSm q e a) s

/-- `mdrain` (R142). -/
def execMdrain (q : BitVec 3) (e : BitVec 1) (a b t : BitVec 5) (s : State) : Host.Outcome State Fault Refusal :=
  issueEngine (.mdrain q e a b t) s

/-- `xcopy` (R144). -/
def execXcopy (d a : BitVec 5) (c : BitVec 4) (s : State) : Host.Outcome State Fault Refusal :=
  issueEngine (.xcopy d a c) s

/-- `xcopy.q` (R151). -/
def execXcopyQ (d a : BitVec 5) (s : State) : Host.Outcome State Fault Refusal :=
  issueEngine (.xcopyQ d a) s

/-- `xabort` (R154). -/
def execXabort (a : BitVec 5) (s : State) : Host.Outcome State Fault Refusal :=
  issueEngine (.xabort a) s

/-- `xqry` (R154). -/
def execXqry (d a : BitVec 5) (s : State) : Host.Outcome State Fault Refusal :=
  issueEngine (.xqry d a) s

/-- `xev` (R152). -/
def execXev (d : BitVec 5) (s : State) : Host.Outcome State Fault Refusal :=
  issueEngine (.xev d) s

/-- `fcfg.ld` (R219). -/
def execFcfgLd (d a : BitVec 5) (s : State) : Host.Outcome State Fault Refusal :=
  issueEngine (.fcfgLd d a) s

/-- `fcfg.sw` (R220). -/
def execFcfgSw (d a : BitVec 5) (s : State) : Host.Outcome State Fault Refusal :=
  issueEngine (.fcfgSw d a) s

/-- `fstart` (R221). -/
def execFstart (s : State) : Host.Outcome State Fault Refusal :=
  issueEngine (.fstart) s

/-- `fstop` (R221). -/
def execFstop (s : State) : Host.Outcome State Fault Refusal :=
  issueEngine (.fstop) s

/-- `fsave` (R222). -/
def execFsave (a : BitVec 5) (s : State) : Host.Outcome State Fault Refusal :=
  issueEngine (.fsave a) s

/-- `frest` (R222). -/
def execFrest (a : BitVec 5) (s : State) : Host.Outcome State Fault Refusal :=
  issueEngine (.frest a) s

/-- `fmark` (R223). -/
def execFmark (a : BitVec 5) (s : State) : Host.Outcome State Fault Refusal :=
  issueEngine (.fmark a) s

/-- `fstat` (R225). -/
def execFstat (d s : BitVec 5) (z : State) : Host.Outcome State Fault Refusal :=
  issueEngine (.fstat d s) z

/-- `fport.w` (R224). -/
def execFportW (a : BitVec 5) (p : BitVec 4) (s : State) : Host.Outcome State Fault Refusal :=
  issueEngine (.fportW a p false) s

/-- `fport.w.eos` (R224). -/
def execFportWEos (a : BitVec 5) (p : BitVec 4) (s : State) : Host.Outcome State Fault Refusal :=
  issueEngine (.fportW a p true) s

/-- `fport.r` (R224). -/
def execFportR (d : BitVec 5) (p : BitVec 4) (s : State) : Host.Outcome State Fault Refusal :=
  issueEngine (.fportR d p false) s

/-- `fport.r.status` (R224). -/
def execFportRStatus (d : BitVec 5) (p : BitVec 4) (s : State) : Host.Outcome State Fault Refusal :=
  issueEngine (.fportR d p true) s

end Sys2Proof.Machine
end

