-- ==== Sys2Proof/Machine/Fetch.lean ====
section
/-! DEFINITION. Fetching a strand's instruction (R8, R43, R78, R192). -/

namespace Sys2Proof.Machine

/-- The 128 bytes of a line of memory. -/
def lineBytes (s : State) (line : Nat) : BitVec 1024 := BitVec.ofNat 1024 (leNat (cellsGet s.mem (128 * line) 128))

/-- The word at physical address `pa` of a line as L1I holds it. -/
def lineWord (d : BitVec 1024) (pa : Nat) : BitVec 32 := BitVec.ofNat 32 (fld d (8 * (pa % 128)) 32)

/-- Tile `t` fetches the word at `pa` through L1I, which no store snoops; a miss goes to the tile cache (Table 8.3). -/
def fetchCached (t k : Nat) (va : BitVec 56) (pa : Nat) : M (BitVec 32) := do
  let s ← get
  match cacheFind (s.tile t).l1i (l1Set (pa / 128)) (pa / 128) with
  | some c => return lineWord c.data pa
  | none =>
    let _ ← physReadQuiet { tile := some t, slot := some k, fetch := true } .cached va pa 4
    let s ← get
    let x := s.tile t
    let d := lineBytes s (pa / 128)
    if (s.resv.any (·.covers (pa / 128))) then return lineWord d pa
    set (s.setTile t { x with l1i := cacheFill x.l1i (l1Set (pa / 128)) l1iWays (pa / 128) s.cyc d })
    return lineWord d pa

/-- The word at the program counter of slot `k` of tile `t`, or the fault of its fetch (R78): `tpc` and `tva` are the target. -/
def fetchWord (t k : Nat) : M (BitVec 32) := do
  let pc := ((← get).strandOf t k).pc
  match classify pc with
  | some (.virt va) =>
    let ag : Agent := { tile := some t, slot := some k, fetch := true }
    let (pa, ns) ← translate ag (((← get).tile t).part.getD 0) va .fetch
    if ns then
      let bs ← physReadQuiet ag .uncached (tvaOf pc) pa 4
      return BitVec.ofNat 32 (leNat bs)
    else fetchCached t k (tvaOf pc) pa
  | _ => throw (.trap { cause := cADDR, tva := tvaOf pc })

end Sys2Proof.Machine
end

