-- ==== Sys2Proof/Machine/Sched.lean ====
section
/-! DEFINITION. Counters, launches, contribution and exit, graphs, range pools and waits: major 0x24 (R315 to R327), and how
teams start, end, complete and are cancelled (R62, R90, R180, R185, R352 to R366, R444). -/

namespace Sys2Proof.Machine

/-! ### Counters (R316 to R319, Table 16.2) -/

def cidIndex (c : BitVec 20) : Nat := fld c 0 12
def cidGen (c : BitVec 20) : BitVec 8 := BitVec.ofNat 8 (fld c 12 8)
/-- Level of a counter: 0 launch, 1 graph, 2 phase, 3 job. -/
def cidLevel (c : BitVec 20) : Nat := fld c 10 2
/-- A nonzero GEN in a phase or job identifier is a reserved value. -/
def cidReserved (c : BitVec 20) : Bool := 2 ≤ cidLevel c && cidGen c != 0

def Partition.counter (x : Partition) (c : BitVec 20) : Counter := sget {} x.counters (cidIndex c)
def Partition.setCounter (x : Partition) (c : BitVec 20) (v : Counter) : Partition := { x with counters := sput x.counters (cidIndex c) v }
/-- Does the identifier name completed work whose index has been reused? -/
def Partition.stale (x : Partition) (c : BitVec 20) : Bool := cidLevel c < 2 && (x.counter c).gen != cidGen c

/-- The completion field of a counter. -/
def Partition.completion (x : Partition) (c : BitVec 20) : Nat :=
  let v := x.counter c
  match cidLevel c with
  | 0 => v.exited
  | 1 => v.done
  | _ => v.val.toNat

/-- What `ctr.rd` returns. -/
def Partition.counterWord (x : Partition) (c : BitVec 20) : Nat :=
  let v := x.counter c
  if x.stale c then 2 ^ 62
  else
    (match cidLevel c with
     | 0 => v.contrib % 2 ^ 16 + 2 ^ 16 * (v.exited % 2 ^ 16) + 2 ^ 32 * (v.teams % 2 ^ 16) + 2 ^ 48 * v.xst.toNat
     | 1 => v.done % 2 ^ 16 + 2 ^ 16 * (v.n % 2 ^ 16)
     | _ => v.val.toNat) + (if v.can then 2 ^ 63 else 0)

/-- The identifier in a register: `RSVD` for a reserved bit or value (R316, R317). -/
def counterOf (w : Word) : M (BitVec 20) := do
  let c : BitVec 20 := w.truncate 20
  if w.toNat / 2 ^ 20 ≠ 0 ∨ cidReserved c then throw (.trap { cause := cRSVD })
  return c

/-- The next free index of a level after the one taken last (R316): the identifier and the counter in its new use. -/
def freeCounter (x : Partition) (level last : Nat) : Option (BitVec 20 × Counter) :=
  (((List.range 1024).map fun i => 1024 * level + (last + 1 + i) % 1024).find? fun k => !(sget {} x.counters k).live).map fun k =>
    let g : BitVec 8 := match sfind x.counters k with | some v => v.gen + 1 | none => 0
    (BitVec.ofNat 20 (k + 2 ^ 12 * g.toNat), { gen := g, live := true })

/-- Add to a phase or job counter (R317, R361). -/
def addVal (x : Partition) (c : BitVec 20) (n : Nat) : Partition :=
  let v := x.counter c
  x.setCounter c { v with val := v.val + BitVec.ofNat 48 n }

def ctrRd (d a : BitVec 5) : M Unit := do
  let s ← get
  let c ← counterOf (s.reg a)
  set (s.retire d (BitVec.ofNat 64 ((s.partition s.curPart).counterWord c)))

/-- `ctr.rd` (R317). -/
def execCtrRd (d a : BitVec 5) (s : State) : Host.Outcome State Fault Refusal := runScalar (ctrRd d a) s

def ctrAdd (a b : BitVec 5) : M Unit := do
  awaitCommit
  let s ← get
  let c ← counterOf (s.reg a)
  let x := s.partition s.curPart
  if x.stale c then set s.advance
  else if cidLevel c < 2 then throw (.trap { cause := cPROT, sub := 6 })
  else set (s.setPartition s.curPart (addVal x c (s.reg b).toNat)).advance

/-- `ctr.add` (R317): a stale identifier has no effect. -/
def execCtrAdd (a b : BitVec 5) (s : State) : Host.Outcome State Fault Refusal := runScalar (ctrAdd a b) s

def waitCtr (d a b : BitVec 5) : M Unit := do
  let s ← get
  let c ← counterOf (s.reg a)
  let x := s.partition s.curPart
  if !x.stale c && (x.counter c).can then set (s.retire d 1)
  else if x.stale c || decide ((s.reg b).toNat ≤ x.completion c) then set (s.retire d 0)
  else throw (.wait .waitCtr)

/-- `wait.ctr` (R318). -/
def execWaitCtr (d a b : BitVec 5) (s : State) : Host.Outcome State Fault Refusal := runScalar (waitCtr d a b) s

/-! ### Launch records (Table 16.3) -/

/-- The fields of a launch record. -/
structure LaunchRec where
  entry : Nat
  helper : Nat
  first : Nat
  count : Nat
  cs : Bool
  ns : Nat
  prio : Nat
  stripes : Nat
  arg : Nat
  stack : Nat
  sbytes : Nat
  chmask : Nat
  after : Option (BitVec 20)
  parent : Option (BitVec 20)
  fcfg : Nat

def launchRec (w : List Nat) : LaunchRec :=
  { entry := fieldOf (rword w 0) 0 48, helper := fieldOf (rword w 1) 0 48, first := fieldOf (rword w 2) 0 10, count := fieldOf (rword w 2) 10 11
    cs := fieldOf (rword w 2) 21 1 = 1, ns := fieldOf (rword w 2) 22 3, prio := fieldOf (rword w 2) 25 3, stripes := fieldOf (rword w 3) 0 11
    arg := rword w 4, stack := fieldOf (rword w 5) 0 48, sbytes := fieldOf (rword w 6) 0 32, chmask := fieldOf (rword w 6) 32 32
    after := if fieldOf (rword w 7) 20 1 = 1 then some (BitVec.ofNat 20 (rword w 7)) else none
    parent := if fieldOf (rword w 7) 52 1 = 1 then some (BitVec.ofNat 20 (rword w 7 / 2 ^ 32)) else none
    fcfg := fieldOf (rword w 8) 0 48 }

def LaunchRec.tiles (r : LaunchRec) : List Nat := (List.range r.count).map (· + r.first)

/-- Step 2 of R321, and R353: no reserved value in the record. -/
def launchRecLegal (s : State) (part : Nat) (w : List Nat) : Bool :=
  let r := launchRec w
  let top := fun i n => decide (rword w i / 2 ^ n = 0)
  top 0 48 && top 1 48 && top 2 28 && top 3 11 && top 5 48 && top 8 48 && fieldOf (rword w 7) 21 11 == 0 && top 7 53 &&
  (List.range 7).all (fun i => rword w (9 + i) == 0) &&
  r.count != 0 && decide (r.count ≤ 1024) && decide (r.first + r.count ≤ 1024) &&
  (!r.cs || (r.first % 4 == 0 && r.count % 4 == 0)) &&
  r.entry % 4 == 0 && r.helper % 4 == 0 && r.stack % 16 == 0 && r.sbytes % 16 == 0 && r.fcfg % 64 == 0 &&
  (List.range 32).all (fun k => fieldOf r.chmask k 1 == 0 || entryLegal (rword w (16 + k)) (some r.ns)) &&
  !(r.ns == 7 && (match (s.partition part).sup with | some t => r.tiles.contains t | none => false))

/-- Step 3 of R321; inside a graph the AFTER field is ignored (R327). -/
def launchRecPlaced (s : State) (part : Nat) (r : LaunchRec) (graph : Bool) : Bool :=
  r.tiles.all (fun t => decide ((s.tile t).part = some part)) &&
  (match r.after with | some c => graph || cidLevel c < 2 | none => true) &&
  (match r.parent with | some c => cidLevel c != 0 && !cidReserved c | none => true)

/-- Step 4 of R321: the lowest tile whose capacity the footprint exceeds. -/
def launchTooBig (s : State) (r : LaunchRec) : Option Nat := r.tiles.find? fun t => decide ((s.tile t).capAt s.opcur.toNat < r.stripes)

/-- Queue a launch to its tiles under a fresh counter. -/
def queueLaunch (s : State) (part : Nat) (w : List Nat) (arg : Nat) (parent : Option (BitVec 20)) (node : Option (BitVec 20 × Nat × Nat)) :
    Option (State × BitVec 20) :=
  let x := s.partition part
  (freeCounter x 0 x.lastLaunch).map fun (c, v) =>
    let r := launchRec w
    let l : Launch := { cid := c, words := w.map (BitVec.ofNat 64), arg := BitVec.ofNat 64 arg, pending := r.tiles, node := node }
    let x1 := x.setCounter c { v with teams := r.count, parent := parent }
    (s.setPartition part { x1 with launches := x.launches ++ [l], lastLaunch := cidIndex c }, c)

def launchInstr (d a : BitVec 5) : M Unit := do
  awaitCommit
  let w ← readRecord ((← get).reg a) 384 64 .either
  let s ← get
  let part := s.curPart
  let r := launchRec w
  if !launchRecLegal s part w then throw (.trap { cause := cRSVD })
  if !launchRecPlaced s part r false then throw (.trap { cause := cPROT, sub := 5 })
  match launchTooBig s r with
  | some t => throw (.trap { cause := cCAPACITY, tva := BitVec.ofNat 56 t })
  | none => match queueLaunch s part w r.arg r.parent none with
    | none => throw (.wait .launchCounter)
    | some (s1, c) => set (s1.retire d (c.zeroExtend 64))

/-- `launch` (R320, R321). -/
def execLaunch (d a : BitVec 5) (s : State) : Host.Outcome State Fault Refusal := runScalar (launchInstr d a) s

def Launch.record (l : Launch) : LaunchRec := launchRec (l.words.map (·.toNat))

/-! ### Completion (R322, R323, R361) -/

/-- Tiles that run a team of the launch. -/
def teamTiles (s : State) (part : Nat) (c : BitVec 20) : List Nat :=
  (s.tiles.filter fun (_, x) => decide (x.part = some part) && (match x.team with | some m => m.cid = c | none => false)).map (·.1)

/-- The child's completion adds 1 to a phase or job counter, unless the child is cancelled (R361). -/
def addParent (x : Partition) (c : BitVec 20) : Partition :=
  let v := x.counter c
  match v.parent with
  | some q => if v.can ∨ cidLevel q < 2 then x else addVal x q 1
  | none => x

/-- Predecessors of a node. -/
def preds (g : Graph) (v : Nat) : List Nat := (List.range g.nodes.length).filter fun u => ((g.nodes[u]?).getD { words := [], npred := 0, succs := [] }).succs.contains v

/-- May instance `started` of node `v` start now (R327)? -/
def nodeReady (g : Graph) (v : Nat) (n : GNode) : Bool :=
  decide (n.started < g.n) && n.contributed == n.started &&
  (preds g v).all fun u => match g.nodes[u]? with | some m => decide (n.started < m.contributed) | none => false

/-- Replace the graph with the same counter. -/
def Partition.putGraph (x : Partition) (g : Graph) : Partition := { x with graphs := x.graphs.map fun h => if h.cid = g.cid then g else h }

/-- Start node `v` of graph `g` if it is ready and a launch counter is free. -/
def startNode (part : Nat) (gc : BitVec 20) (s : State) (v : Nat) : State :=
  let x := s.partition part
  match x.graphs.find? (fun g => g.cid = gc) with
  | none => s
  | some g =>
    match g.nodes[v]? with
    | none => s
    | some n =>
      if !nodeReady g v n || (x.counter gc).can then s
      else
        let w := n.words.map (·.toNat)
        match queueLaunch s part w ((rword w 4 + n.started) % 2 ^ 64) (some gc) (some (gc, v, n.started)) with
        | none => s
        | some (s1, _) =>
          s1.setPartition part ((s1.partition part).putGraph { g with nodes := g.nodes.set v { n with started := n.started + 1 } })

/-- The sequencers of a partition start every node that is ready (R327). -/
def advanceGraphs (part : Nat) (s : State) : State :=
  (s.partition part).graphs.foldl (fun s g => (List.range g.nodes.length).foldl (startNode part g.cid) s) s

/-- Change the node of a launch in its graph. -/
def onNode (part : Nat) (node : Option (BitVec 20 × Nat × Nat)) (f : GNode → Nat → GNode) (s : State) : State :=
  match node with
  | none => s
  | some (gc, v, k) =>
    let x := s.partition part
    match x.graphs.find? (fun g => g.cid = gc) with
    | none => s
    | some g => s.setPartition part (x.putGraph { g with nodes := g.nodes.modify v fun n => f n k })

/-- Count a graph's completed instances; a graph that has completed them all leaves its sequencer (R327, R361). -/
def countInstances (part : Nat) (s : State) (gc : BitVec 20) : State :=
  let x := s.partition part
  match x.graphs.find? (fun g => g.cid = gc) with
  | none => s
  | some g =>
    let done := ((List.range g.n).filter fun k => g.nodes.all fun n => n.exited.contains k).length
    let x1 := x.setCounter gc { x.counter gc with done := done, live := decide (done < g.n) }
    if done < g.n then s.setPartition part x1
    else s.setPartition part { addParent x1 gc with graphs := x1.graphs.filter fun h => h.cid ≠ gc }

/-- A cancelled graph whose launches have all ended leaves its sequencer. -/
def reapGraphs (part : Nat) (s : State) : State :=
  let x := s.partition part
  let gone := x.graphs.filter fun g => (x.counter g.cid).can && !x.launches.any fun l => match l.node with | some (c, _, _) => c = g.cid | none => false
  s.setPartition part (gone.foldl (fun x g => { x.setCounter g.cid { x.counter g.cid with live := false } with
    graphs := x.graphs.filter fun h => h.cid ≠ g.cid }) x)

/-- A launch that has nothing left to start or to run leaves the device. -/
def reapLaunch (part : Nat) (s : State) (c : BitVec 20) : State :=
  let x := s.partition part
  match x.launches.find? (fun l => l.cid = c) with
  | none => s
  | some l =>
    if !l.pending.isEmpty || !(teamTiles s part c).isEmpty then s
    else
      let v := x.counter c
      let full := v.exited = v.teams
      let x1 := { x.setCounter c { v with live := false } with launches := x.launches.filter fun h => h.cid ≠ c }
      let s1 := s.setPartition part (if full then addParent x1 c else x1)
      let s2 := if full then onNode part l.node (fun n k => { n with exited := n.exited ++ [k] }) s1 else s1
      let s3 := match l.node with | some (gc, _, _) => countInstances part s2 gc | none => s2
      advanceGraphs part (reapGraphs part s3)

/-- A team contributes to its launch (R322). -/
def contribute (t : Nat) (s : State) : State :=
  let x := s.tile t
  match x.team, x.part with
  | some m, some part =>
    if m.contributed then s
    else
      let p := s.partition part
      let v := p.counter m.cid
      let s1 := (s.setTile t { x with team := some { m with contributed := true } }).setPartition part
        (p.setCounter m.cid { v with contrib := v.contrib + 1 })
      if v.contrib + 1 = v.teams then
        advanceGraphs part (onNode part m.node (fun n _ => { n with contributed := n.contributed + 1 }) s1)
      else s1
  | _, _ => s

/-! ### `trig`, `exit` and the end of a team (R90, R322, R323) -/

/-- Has every operation that a contribution or an exit of the current strand covers been performed?  `suspended`: a copy suspended
on a page fault is waited for too. -/
def operationsDone (s : State) (suspended : Bool) : Bool :=
  s.cs != 0 ||
  (!s.enginesBusy && !s.curTile.ctx.copies.any fun (_, k) => match k.state with
    | .running => true
    | .suspended _ => suspended
    | _ => false)

def trig : M Unit := do
  let s ← get
  if s.isSupervisor s.ct s.cs then set s.advance
  else if (match s.curTile.team with | some m => m.contributed | none => true) then set s.advance
  else if !operationsDone s true then throw (.wait .operations)
  else set (contribute s.ct s).advance

/-- `trig` (R322, R363): later ones of the same team have no effect. -/
def execTrig (s : State) : Host.Outcome State Fault Refusal := runScalar trig s

/-- End the strand in slot `k`; the lead's end gives the team's exit status. -/
def endStrand (t k : Nat) (status : BitVec 8) (s : State) : State :=
  let x := s.tile t
  let x1 := x.setStrand k { x.strand k with state := .ended, cancels := [], traps := [], watch := none }
  s.setTile t (if k = 0 then { x1 with team := x1.team.map fun m => { m with status := status } } else x1)

def exitInstr (a : BitVec 5) : M Unit := do
  let s ← get
  if s.isSupervisor s.ct s.cs then throw (.trap (decodeTrap cPRIV))
  if !operationsDone s false then throw (.wait .operations)
  set (endStrand s.ct s.cs ((s.reg a).truncate 8) s)

/-- `exit` (R90, R323, R353). -/
def execExit (a : BitVec 5) (s : State) : Host.Outcome State Fault Refusal := runScalar (exitInstr a) s

/-- Has every strand of the tile's team ended? -/
def Tile.teamEnded (x : Tile) : Bool :=
  match x.team with
  | some m => (List.range (m.ns + 1)).all fun k => decide ((x.strand k).state = .ended)
  | none => false

/-- Close a stream register as by `sclose`. -/
def closeStream (t k : Nat) (s : State) : State :=
  let st := (s.tile t).stream k
  if !st.isOpen then s
  else
    let s1 := match st.rid with | some r => releaseRid s r | none => s
    s1.setTile t ((s1.tile t).setStream k { st with isOpen := false, rid := none })

/-- The copies of an ended team: suspended ones fail, those that have ended release their slots, and no event record remains.  A copy in
progress goes on to move its bytes and to hold its mask register, and posts nothing (R90, R145, R150, R152, R180, R387). -/
def dropCopies (t : Nat) (s : State) : State :=
  let s1 := (s.tile t).ctx.copies.foldl (fun s (slot, _) => failSuspended s t slot) s
  updCtx t (fun c =>
    let c1 := c.copies.foldl (fun c (slot, k) => if k.active || k.posting then c else releaseSlot c slot) c
    { c1 with events := [], deferred := [], copies := c1.copies.map fun (slot, k) => (slot, { k with ev := false }) }) s1

/-- Fabric of a tile after its team's exit (R366). -/
def fabricAfterExit (m : Team) (hasImage : Bool) (f : Fabric) : Fabric :=
  if m.node.isSome && hasImage then
    if f.code = 4 then f else if f.code = 0 then {} else { loadImage f.image with ebits := f.ebits }
  else {}

/-- A channel-table entry after the team's exit (R331): EN = 0 and no element; the counts stay (Table 17.7). -/
def Channel.disable (c : Channel) : Channel := { c with entry := setField c.entry 24 1 0, queue := [], withheld := none }

/-- The tile after its team has gone. -/
def freedTile (x : Tile) (m : Team) (hasImage : Bool) : Tile :=
  { x with
    team := none, queue := x.queue.filter fun e => decide (m.ns < e.slot), undo := [], undoLost := none, wave := none, snaps := [], marked := [], rollback := none
    lastNode := if hasImage then m.node else none
    ctx := { x.ctx with
      strands := x.ctx.strands.map fun (k, y) => if k ≤ m.ns then (k, { drsel := y.drsel }) else (k, y)
      chans := x.ctx.chans.map fun (k, c) => (k, c.disable)
      fabric := fabricAfterExit m hasImage x.ctx.fabric } }

/-- Is a rollback of the tile's region pending: its strands come back from the snapshot (R404)? -/
def rollbackPending (s : State) (t : Nat) : Bool := (regionTeams s t).any fun u => (s.tile u).rollback.isSome

/-- TEAM_EXIT (R90, R323): every strand of the team has ended. -/
def teamExit (t : Nat) (s : State) : State :=
  let x := s.tile t
  match x.team, x.part with
  | some m, some part =>
    if !x.teamEnded || x.still || rollbackPending s t then s
    else
      let s1 := contribute t s
      let s2 := (List.range 16).foldl (fun s k => closeStream t k s) s1
      let s3 := dropCopies t s2
      let s4 := (List.range 16).foldl (fun s k => if ((s.tile t).loop k).bound then unbindLoop s t k else s) s3
      let l := launchOf s4 part m.cid
      let more := match m.node with | some (g, _, i) => decide (i + 1 < ((s4.partition part).counter g).n) | none => false
      let hasImage := more && (match l with | some l => l.record.fcfg != 0 | none => false)
      let s5 := s4.setTile t (freedTile (s4.tile t) m hasImage)
      let s6 := reclaimAll t s5
      let p := s6.partition part
      let v := p.counter m.cid
      let s7 := s6.setPartition part (p.setCounter m.cid { v with exited := v.exited + 1, xst := if v.xst = 0 then m.status else v.xst })
      reapLaunch part s7 m.cid
  | _, _ => s

def execTeamExit (tile : BitVec 10) (s : State) : Host.Outcome State Fault Refusal := .next (teamExit tile.toNat s)

/-- HELPER_END (R90, R323): after the lead's end a helper ends at its next instruction boundary. -/
def helperEnd (t k : Nat) (s : State) : State :=
  let x := s.tile t
  match x.team with
  | some m =>
    let y := x.strand k
    if x.still ∨ k = 0 ∨ m.ns < k ∨ (x.strand 0).state ≠ .ended ∨ y.state = .ended ∨ y.state = .halted then s else endStrand t k 0 s
  | none => s

def execHelperEnd (tile : BitVec 10) (slot : BitVec 3) (s : State) : Host.Outcome State Fault Refusal := .next (helperEnd tile.toNat slot.toNat s)

/-! ### Team start (R62, R168, R180, R185, R320, R366, R444) -/

/-- Is the AFTER condition of a launch met (R320)? -/
def afterMet (x : Partition) (l : Launch) : Bool :=
  match l.node, l.record.after with
  | none, some c => x.stale c || (if cidLevel c = 0 then (x.counter c).contrib == (x.counter c).teams else (x.counter c).done == (x.counter c).n)
  | _, _ => true

/-- Stripes below which a placement must fit: while a downward step is BUSY, the target's capacity too (R416). -/
def placeLimit (s : State) (t : Nat) : Nat :=
  let x := s.tile t
  let c := x.capAt s.opcur.toNat
  match s.opStep with
  | some o => if s.opcur.toNat < o.target ∧ o.acked.contains t then min c (x.capAt o.target) else c
  | none => c

/-- The regions of a tile at base `b` for `n` stripes are free. -/
def runFree (x : Tile) (b n : Nat) : Bool := x.regions.all fun r => !overlaps b n r.base r.stripes

/-- The lowest base at which a run of `n` stripes is free on every listed tile (R180). -/
def lowestRun (s : State) (ts : List Nat) (n : Nat) : Option Nat :=
  (List.range 1537).find? fun b => ts.all fun t => decide (b + n ≤ placeLimit s t) && runFree (s.tile t) b n

/-- Allocate zeroed stripes on tile `t` (R180). -/
def allocate (b n : Nat) (o : Owner) (foot cluster : Bool) (s : State) (t : Nat) : State :=
  let x := s.tile t
  if n = 0 then s
  else s.setTile t { x with
    regions := x.regions ++ [{ base := b, stripes := n, owner := o, footprint := foot, cluster := cluster }]
    spd := x.spd.filter fun (a, _) => !(decide (2048 * b ≤ a) && decide (a < 2048 * (b + n)))
    spdPoison := survivors x.spdPoison (2048 * b) (2048 * n), spdLatent := survivors x.spdLatent (2048 * b) (2048 * n) }

/-- Can a team of `ns` + 1 strands start on the tile: no team, its slots free, not halted? -/
def slotsFree (s : State) (part t ns : Nat) : Bool :=
  let x := s.tile t
  x.part = some part && x.team.isNone && !x.halted && !x.fenced && x.saved.isNone && (s.partition part).pre == .running &&
  (List.range (ns + 1)).all fun k => decide ((x.strand k).state = .free)

/-- The generator's seed (R168). -/
def seedG (t arg : Nat) : BitVec 32 :=
  let g : BitVec 32 := BitVec.ofNat 32 (t * 0x9E3779B9 + arg % 2 ^ 32 + arg / 2 ^ 32)
  if g = 0 then 1 else g

/-- A strand as a team starts it (R62): `k` is its index in the launch. -/
def freshStrand (r : LaunchRec) (arg base k slot : Nat) (old : Strand) : Strand :=
  let put := fun (m : SMap Word) (i v : Nat) => sput m i (BitVec.ofNat 64 v)
  { regs := put (put (put (put [] 1 arg) 2 (2048 * base)) 3 k) 30 (if r.stack = 0 then 0 else r.stack + (k + 1) * r.sbytes)
    pc := BitVec.ofNat 64 (if slot = 0 then r.entry else r.helper), state := .runnable, drsel := old.drsel }

/-- Bind the launch's channel-table entries; those of other channels are disabled (R273). -/
def bindChans (w : List Nat) (mask : Nat) (m : SMap Channel) : SMap Channel :=
  (List.range 32).foldl (fun m k =>
    if fieldOf mask k 1 = 1 then sput m k ((sget {} m k).bind (BitVec.ofNat 64 (rword w (16 + k))))
    else match sfind m k with
      | some c => sput m k c.disable
      | none => m) m

/-- The tile with the launch's team on it. -/
def startedTile (l : Launch) (base t : Nat) (keep : Bool) (x : Tile) : Tile :=
  let w := l.words.map (·.toNat)
  let r := l.record
  let arg := l.arg.toNat
  let strands := (List.range (r.ns + 1)).foldl (fun m k =>
    sput m k (freshStrand r arg base ((t - r.first) * 8 + k) k (sget {} x.ctx.strands k))) x.ctx.strands
  { x with
    team := some { cid := l.cid, ns := r.ns, prio := r.prio, index := t - r.first, cs := r.cs, node := l.node }
    queue := x.queue.filter fun e => decide (r.ns < e.slot), undo := [], undoLost := none, wave := none, snaps := [], rollback := none
    ctx := { x.ctx with
      strands := strands, v := [], q := [], sat := [], av := {}, g := seedG t r.arg, arrivals := [], streams := [], events := [], under := []
      chans := bindChans w r.chmask x.ctx.chans
      fabric := if keep then x.ctx.fabric else {} } }

/-- May the fabric keep the configuration of the same node's last instance (R366)? -/
def keepsFabric (x : Tile) (l : Launch) : Bool :=
  match x.lastNode, l.node with
  | some (g, v, k), some (g', v', k') => decide (g = g') && decide (v = v') && decide (k + 1 = k') && (x.ctx.fabric.code = 1 || x.ctx.fabric.code = 4)
  | _, _ => false

/-- Load the launch's image on a tile whose team is in place. -/
def loadFor (l : Launch) (t : Nat) : M Unit := do
  if l.record.fcfg ≠ 0 then
    let m ← readImage t (BitVec.ofNat 64 l.record.fcfg)
    modify (installImage t m)

/-- The tile with the marker notices that came from tiles of a region, sent before its own team there has started (R400). -/
def keepNotices (s : State) (r : BitVec 20 × Nat) (x : Tile) : Tile :=
  { x with marked := x.marked.filter fun (u, _) => decide ((s.tile u).part = x.part) && (match (s.tile u).team with | some m => decide (m.region = r) | none => false) }

/-- Start the launch's teams on tiles `ts` at footprint base `base`: what an image that does not load ends with, and its tile. -/
def startTeams (l : Launch) (base : Nat) (s : State) : List Nat → Except (Nat × Exit) State
  | [] => .ok s
  | t :: r =>
    let keep := keepsFabric (s.tile t) l
    let s1 := allocate base l.record.stripes (.launch l.cid) true l.record.cs s t
    let s2 := s1.setTile t (startedTile l base t keep (keepNotices s1 l.region (s1.tile t)))
    if keep then startTeams l base s2 r
    else match loadFor l t s2 with
      | .ok _ s3 => startTeams l base s3 r
      | .error x _ => .error (t, x)

/-! ### Cancel (R319, R362) -/

/-- Identifiers of launches and graphs whose counters name one of the listed as PARENT, completed ones included (R319). -/
def childCounters (x : Partition) (cs : List (BitVec 20)) : List (BitVec 20) :=
  (x.counters.filter fun (k, v) => decide (k < 2048) && (match v.parent with | some p => cs.contains p | none => false)).map
    fun (k, v) => BitVec.ofNat 20 (k + 2 ^ 12 * v.gen.toNat)

/-- Graphs and launches below a counter, itself included where it is one. -/
def cancelScope (x : Partition) (c : BitVec 20) : List (BitVec 20) :=
  let below := childCounters x [c]
  ((if cidLevel c < 2 then [c] else []) ++ below ++ childCounters x (c :: below)).eraseDups

/-- Launches that wait for one of the listed, which has teams or nodes still to start. -/
def dependants (x : Partition) (cs : List (BitVec 20)) : List (BitVec 20) :=
  let unmet := cs.filter fun c => x.graphs.any (fun g => g.cid = c && g.nodes.any fun n => decide (n.started < g.n)) ||
    x.launches.any fun l => l.cid = c && !l.pending.isEmpty
  (x.launches.filter fun l => l.node.isNone && !cs.contains l.cid && (match l.record.after with | some c => unmet.contains c | none => false)).map (·.cid)

def cancelClosure (x : Partition) : Nat → List (BitVec 20) → List (BitVec 20)
  | 0, cs => cs
  | n + 1, cs =>
    match dependants x cs with
    | [] => cs
    | ds => cancelClosure x n (cs ++ ds)

/-- A cancel reaches a strand of its launch. -/
def addCancel (id : Word) (y : Strand) : Strand :=
  match y.state with
  | .free => y
  | .ended => y
  | _ => { y with cancels := y.cancels ++ [id] }

/-- The cancel of counter `c`, passed as identifier `id`; it reaches saved contexts too (R394). -/
def cancelCounter (part : Nat) (c : BitVec 20) (id : Word) (s : State) : State :=
  let x := s.partition part
  if x.stale c then s
  else
    let scope := cancelClosure x (x.launches.length + 1) (cancelScope x c)
    let x1 := (c :: scope).foldl (fun x k => x.setCounter k { x.counter k with can := true }) x
    let x2 := { x1 with launches := x1.launches.map fun l => if scope.contains l.cid then { l with pending := [] } else l }
    let s1 := s.setPartition part x2
    let s2 := { s1 with tiles := s1.tiles.map fun (t, y) =>
      (t, match y.team with
        | some m => if y.part = some part ∧ scope.contains m.cid then
            onHeldCtx (fun y => { y with ctx := { y.ctx with strands := y.ctx.strands.map fun (k, z) => (k, if k ≤ m.ns then addCancel id z else z) } }) y
            else y
        | none => y) }
    reapGraphs part (scope.foldl (reapLaunch part) s2)

def cancelInstr (a : BitVec 5) : M Unit := do
  awaitCommit
  let s ← get
  let c ← counterOf (s.reg a)
  set (cancelCounter s.curPart c (s.reg a) s.advance)

/-- `cancel` (R319). -/
def execCancel (a : BitVec 5) (s : State) : Host.Outcome State Fault Refusal := runScalar (cancelInstr a) s

/-- Abandon the lead's engine entries (R362, R377, R388). -/
def abandonQueue (t : Nat) (s : State) : State :=
  match (s.tile t).entriesOf 0 with
  | [] => s
  | e :: _ => abandonHead t e (e.op.resumeAt (s.tile t).ctx.av.vstart) s

/-- Retire what has been performed; then the entry at `vcp` stands at its boundary. -/
def drainPerformed (t : Nat) : Nat → State → State
  | 0, s => s
  | n + 1, s =>
    match (s.tile t).queue with
    | e :: rest => if e.committed then drainPerformed t n (retireHead t e rest s) else s
    | [] => s

/-- Bring the lead strand of a tile to `vcp`: nothing of its own is left in the queue. -/
def standAtVcp (t : Nat) (s : State) : State := abandonQueue t (drainPerformed t 65 s)

/-- Bring a strand to its oldest entry that has not retired (R355, R377). -/
def standStrand (t k : Nat) (s : State) : State := if k = 0 then standAtVcp t s else abandonFence t k (drainPerformed t 65 s)

/-- CANCEL_DELIVERY (R362): the strand takes the trap `CANCEL`, or ends with status 0xFF. -/
def cancelDelivery (t k : Nat) (s : State) : State :=
  if (s.tile t).still || postingHeld s t k then s
  else match (s.strandOf t k).cancels with
  | [] => s
  | id :: r =>
    let s1 := standStrand t k (endMwait t k s)
    let y := { s1.strandOf t k with cancels := r }
    let s2 := s1.setStrandOf t k y
    if !y.doubles && y.state != .halted then takeTrap s2 t k { cause := cCANCEL, tva := id.truncate 56 }
    else endStrand t k 0xFF s2

def execCancelDelivery (tile : BitVec 10) (slot : BitVec 3) (s : State) : Host.Outcome State Fault Refusal :=
  .next (cancelDelivery tile.toNat slot.toNat s)

/-! ### TEAM_START -/

/-- The launch's image does not load on tile `t` (R444): the launch is cancelled and a notice is posted. -/
def imageFails (part : Nat) (l : Launch) (t : Nat) (tr : Trap) (s : State) : State :=
  let addr : BitVec 56 := if tr.tva = 0 then BitVec.ofNat 56 l.record.fcfg else tr.tva
  postNotice (cancelCounter part l.cid (l.cid.zeroExtend 64) s) part
    (noticeWords tr.cause tr.sub t 0 none addr tr.telem 0 l.cid.toNat)

/-- The tiles that start together with tile `t`: its cluster for a launch of cluster scope. -/
def startGroup (l : Launch) (t : Nat) : List Nat := if l.record.cs then (List.range 4).map (· + clusterBase t) else [t]

/-- Where the footprint of a launch goes when its teams can start on the tile's group now (R180, R185). -/
def startBase (s : State) (part : Nat) (l : Launch) (t : Nat) : Option Nat :=
  let r := l.record
  let ts := startGroup l t
  if !ts.all (fun u => l.pending.contains u && slotsFree s part u r.ns) || !afterMet (s.partition part) l then none
  else if r.stripes = 0 then some 0 else lowestRun s ts r.stripes

/-- Can the launch's teams start on the tile's group now: is its image not held by a reservation (R185)? -/
def canStart (s : State) (part : Nat) (l : Launch) (t : Nat) : Bool :=
  match startBase s part l t with
  | none => false
  | some base => match startTeams l base s (startGroup l t) with
    | .error (_, .wait _) => false
    | _ => true

/-- Does an earlier launch of the list come before one of priority `prio` on tile `t` (R445)? -/
def anotherFirst (s : State) (part t : Nat) (c : BitVec 20) (prio : Nat) (ls : List Launch) (same : Bool) : Bool :=
  ls.any fun m => m.cid != c && (decide (prio < m.record.prio) || (same && m.record.prio == prio)) && canStart s part m t

/-- Is the launch the first, by PRIO and then by acceptance, of those that can start on tile `t` (R445)? -/
def startsFirst (s : State) (part : Nat) (l : Launch) (t : Nat) : Bool :=
  let ls := (s.partition part).launches
  !anotherFirst s part t l.cid l.record.prio (ls.takeWhile fun m => m.cid != l.cid) true &&
  !anotherFirst s part t l.cid l.record.prio ls false

/-- TEAM_START (R185, R445): a launch starts its team on the tile, or its four teams on the tile's cluster. -/
def teamStart (part : Nat) (c : BitVec 20) (t : Nat) (s : State) : State :=
  match launchOf s part c with
  | none => s
  | some l =>
    match startBase s part l t with
    | none => s
    | some base =>
      let ts := startGroup l t
      if !ts.all (startsFirst s part l) then s
      else match startTeams l base s ts with
        | .error (_, .wait w) => s.noteWait w
        | .error (u, .trap tr) => imageFails part l u tr s
        | .ok s1 =>
          let x1 := s1.partition part
          s1.setPartition part { x1 with launches := x1.launches.map fun h => if h.cid = c then { h with pending := h.pending.filter (!ts.contains ·) } else h }

def execTeamStart (part : BitVec 4) (cid : BitVec 20) (tile : BitVec 10) (s : State) : Host.Outcome State Fault Refusal :=
  .next (teamStart part.toNat cid tile.toNat s)

/-! ### `wait.ch`, `yield` and `rtake` (R324, R326) -/

/-- The channel of the mask whose oldest element arrived first, the lower number on a tie. -/
def oldestChannel (x : Tile) (k mask : Nat) : Option Nat :=
  ((List.range 32).filter fun c => fieldOf mask c 1 == 1 && (x.chan c).ready k).foldl (fun best c =>
    let at' := fun c => match (x.chan c).queue with | e :: _ => e.time | [] => 0
    match best with
    | none => some c
    | some b => if at' c < at' b then some c else some b) none

def waitCh (d a : BitVec 5) : M Unit := do
  let s ← get
  let m := s.reg a
  if m = 0 ∨ m.toNat / 2 ^ 32 ≠ 0 then throw (.trap { cause := cRSVD })
  match oldestChannel s.curTile s.cs m.toNat with
  | some c => set (s.retire d (BitVec.ofNat 64 c))
  | none => throw (.wait (.waitCh (m.truncate 32)))

/-- `wait.ch` (R324, R360). -/
def execWaitCh (d a : BitVec 5) (s : State) : Host.Outcome State Fault Refusal := runScalar (waitCh d a) s

/-- `yield` (R324). -/
def execYield (s : State) : Host.Outcome State Fault Refusal := .next ((s.setCur { s.cur with yielded := true }).advance)

/-- Of the fabric requests that wait at a pool and are served before one of tile `t` that arrives now, and are not in `done`: that of the smallest
account, the earliest among equals (R326). -/
def lighterRequest (s : State) (part pool t : Nat) (done : List (Nat × Nat)) : Option (Nat × Nat) :=
  let acc := fun u => (s.partition part).account pool u
  let reqs := s.tiles.flatMap fun (u, x) =>
    if x.part = some part then (x.ctx.fabric.pos.filter fun (e, _) => rtakeWaiting x e pool && !done.contains (u, e)).map fun (e, _) => (u, e) else []
  reqs.foldl (fun best q =>
    if acc t < acc q.1 then best
    else match best with
      | none => some q
      | some b => if acc q.1 < acc b.1 || (acc q.1 = acc b.1 && arrivedBefore s q b) then some q else some b) none

/-- Serve the lighter requests that wait, each once: what a position asks for after that arrives behind the instruction's request (R326). -/
def serveLighter (part pool t : Nat) : Nat → List (Nat × Nat) → State → State
  | 0, _, s => s
  | n + 1, done, s =>
    match lighterRequest s part pool t done with
    | none => s
    | some q => serveLighter part pool t n (q :: done) (updCtx q.1 settle (takeToken q.1 q.2 s))

def rtake (d a : BitVec 5) : M Unit := do
  awaitCommit
  let s ← get
  let v := s.reg a
  if v.toNat / 256 ≠ 0 then throw (.trap { cause := cRSVD })
  let part := s.curPart
  let pool := v.toNat
  let n := (s.tiles.map fun (_, x) => x.ctx.fabric.pos.length).sum
  match rangeServe (serveLighter part pool s.ct n [] s) part pool s.agent with
  | (s1, .token w0 w1 _) => set ((s1.setReg d (BitVec.ofNat 64 (w0 + 2 ^ 63))).retire (d + 1) (BitVec.ofNat 64 w1))
  | (s1, .exhausted) => set ((s1.setReg d (BitVec.ofNat 64 (2 ^ 62))).retire (d + 1) 0)
  | (s1, .empty) => set ((s1.setReg d 0).retire (d + 1) 0)
  | (_, .held w) => throw (.wait w)

/-- `rtake` (R326). -/
def execRtake (d a : BitVec 5) (s : State) : Host.Outcome State Fault Refusal := runScalar (rtake d a) s

/-! ### Graphs (R327, Table 16.5) -/

/-- Bytes at a checked place, without an access. -/
def peekPlace (s : State) (p : Place) : Nat :=
  match p with
  | .spd h off => leNat (spdGet s h off 8)
  | .mem pa _ _ => leNat (cellsGet s.mem pa 8)

/-- The checks of 8-byte accesses at the listed offsets of the graph. -/
def graphPlaces (base : Word) (offs : List Nat) : M (List Place) := offs.mapM fun o => scalarPlace (base + BitVec.ofNat 64 o) 8 .read

/-- Read words at places that have been checked, as accesses of the issuing strand. -/
def graphWords (ps : List Place) : M (List Nat) := ps.mapM fun p => do return leNat (← readPlace (← get).agent p 8)

/-- Offsets of the naturally aligned words that hold `n` bytes at offset `o`. -/
def wordsAround (o n : Nat) : List Nat := if n = 0 then [] else (List.range ((o + n - 1) / 8 - o / 8 + 1)).map fun i => 8 * (o / 8 + i)

/-- Offsets in rising order, each once. -/
def risingOffsets (l : List Nat) : List Nat := (l.foldl (fun (m : SMap Unit) o => sput m o ()) []).map (·.1)

/-- Byte `o` of a graph whose words stand in `ws` under their offsets. -/
def graphByte (ws : SMap Nat) (o : Nat) : Nat := fieldOf (sget 0 ws (o / 8 * 8)) (8 * (o % 8)) 8

/-- Does some node have a path back to itself? -/
def graphCyclic (succs : List (List Nat)) : Bool :=
  let n := succs.length
  let step := fun (l : List Nat) => (l ++ l.flatMap fun u => succs.getD u []).eraseDups
  (List.range n).any fun v => (iterate step n (succs.getD v [])).contains v

/-- Number of successor lists, counted with repetition, in which node `v` stands. -/
def inDegree (succs : List (List Nat)) (v : Nat) : Nat := (succs.map fun l => l.count v).sum

/-- Check node `v` of words `w0` and `w1`, whose successor list stands in `ws`, and read its launch record; a fault of reading that, or of its
own checks, is `RSVD` at the node. -/
def readNode (part v w0 w1 : Nat) (ws : SMap Nat) : M GNode := do
  let bad : Trap := { cause := cRSVD, telem := BitVec.ofNat 15 v }
  if w0 / 2 ^ 56 ≠ 0 ∨ w1 / 2 ^ 40 ≠ 0 then throw (.trap bad)
  let s ← get
  match readRecord (BitVec.ofNat 64 (fieldOf w0 0 48)) 384 64 .either s with
  | .ok w s1 =>
    let r := launchRec w
    if !launchRecLegal s1 part w || !launchRecPlaced s1 part r true || (launchTooBig s1 r).isSome then throw (.trap bad)
    set s1
    return { words := w.map (BitVec.ofNat 64), npred := fieldOf w0 48 8
             succs := (List.range (fieldOf w1 32 8)).map fun i => graphByte ws (fieldOf w1 0 32 + i) }
  | .error (.trap _) _ => throw (.trap bad)
  | .error e _ => throw e

/-- The words of a graph, all accesses checked before the first is made, in ascending address order (R440): header, node words, successor lists by
offset; the place at which the identifier is written stands among the checks. -/
def readGraph (base : Word) : M (List Nat × List Nat × SMap Nat × Place) := do
  let p0 ← graphPlaces base [0, 8]
  let pid ← scalarPlace (base + 0x10) 8 .write
  let p1 ← graphPlaces base [0x18]
  let nn := peekPlace (← get) (p0.headD pid) % 256
  let pn ← graphPlaces base ((List.range (2 * nn)).map fun i => 0x20 + 8 * i)
  let s ← get
  let offs := risingOffsets ((List.range nn).flatMap fun v =>
    let w1 := peekPlace s (pn.getD (2 * v + 1) pid)
    wordsAround (fieldOf w1 0 32) (fieldOf w1 32 8))
  let pl ← graphPlaces base offs
  let h0 ← graphWords p0
  judgePlace (← get).agent pid 8 true
  let h1 ← graphWords p1
  let ns ← graphWords pn
  let ls ← graphWords pl
  return (h0 ++ h1, ns, offs.zip ls, pid)

/-- The identifier is written with a release at `.k`. -/
def noteGraphId (p : Place) (s : State) : State :=
  match p with
  | .mem pa _ _ => afterWrite { rel := true, scope := 3 } pa 8 s
  | .spd _ _ => s

def gsqArm (a b : BitVec 5) : M Unit := do
  awaitCommit
  let s ← get
  let base := s.reg a
  let n := (s.reg b).toNat
  let part := s.curPart
  if (classify base).isNone then throw (.trap { cause := cADDR, tva := tvaOf base })
  if base.toNat % 64 ≠ 0 then throw (.trap { cause := cMISALIGN, tva := tvaOf base })
  let (hw, nw, lists, pid) ← readGraph base
  let h := rword hw 0
  let h1 := rword hw 1
  let h3 := rword hw 2
  let parent : BitVec 20 := BitVec.ofNat 20 h1
  let nn := h % 256
  if h / 2 ^ 16 ≠ 0 ∨ fieldOf h 8 8 ≠ 1 ∨ nn = 0 ∨ h1 / 2 ^ 21 ≠ 0 ∨ h3 ≠ 0 ∨ n = 0 ∨ 65535 < n ∨
      (fieldOf h1 20 1 = 1 ∧ (cidLevel parent < 2 ∨ cidReserved parent)) then throw (.trap { cause := cRSVD })
  let nodes ← (List.range nn).mapM fun v => readNode part v (rword nw (2 * v)) (rword nw (2 * v + 1)) lists
  let succs := nodes.map (·.succs)
  match (List.range nn).find? fun v => (succs.getD v []).any (nn ≤ ·) || inDegree succs v != ((nodes.map (·.npred)).getD v 0) with
  | some v => throw (.trap { cause := cRSVD, telem := BitVec.ofNat 15 v })
  | none => pure ()
  if graphCyclic succs then
    let v := ((List.range nn).find? fun v => (iterate (fun l => (l ++ l.flatMap fun u => succs.getD u []).eraseDups) nn (succs.getD v [])).contains v).getD 0
    throw (.trap { cause := cRSVD, telem := BitVec.ofNat 15 v })
  let s ← get
  let x := s.partition part
  let cluster := clusterBase s.ct
  if 4 ≤ (s.parts.map fun (_, p) => (p.graphs.filter fun g => g.cluster = cluster).length).sum then throw (.wait .graphSlot)
  match freeCounter x 1 x.lastGraph with
  | none => throw (.wait .graphSlot)
  | some (c, v) =>
    writePlace s.ct s.agent pid (natLe 8 c.toNat)
    modify fun s =>
      let x := s.partition part
      let x1 := x.setCounter c { v with n := n, parent := if fieldOf h1 20 1 = 1 then some parent else none }
      advanceGraphs part (noteGraphId pid (s.setPartition part { x1 with
        lastGraph := cidIndex c - 1024
        graphs := x1.graphs ++ [{ cluster := cluster, cid := c, n := n, nodes := nodes }] })).advance

/-- `gsq.arm` (R327). -/
def execGsqArm (a b : BitVec 5) (s : State) : Host.Outcome State Fault Refusal := runScalar (gsqArm a b) s

end Sys2Proof.Machine
end

