-- ==== Sys2Proof/Machine/Points.lean ====
section
/-! DEFINITION. Scratchpad allocation and operating points: major 0x25 (R328 to R330) and the step protocol (R415 to R429). -/

namespace Sys2Proof.Machine

/-! ### `spalloc` and `spfree` (R328) -/

/-- Who the regions of the current strand belong to. -/
def State.owner (s : State) : Option Owner :=
  if s.isSupervisor s.ct s.cs then some .supervisor else s.curTile.team.map fun m => .launch m.cid

def stripesFor (bytes : Nat) : Nat := (bytes + 2047) / 2048

def spalloc (d a : BitVec 5) : M Unit := do
  awaitCommit
  let s ← get
  if s.reg a = 0 then throw (.trap { cause := cRSVD })
  let n := stripesFor (s.reg a).toNat
  match s.owner, (if n ≤ 1536 then lowestRun s [s.ct] n else none) with
  | some o, some b => set ((allocate b n o false (match s.curTile.team with | some m => m.cs && o != .supervisor | none => false) s s.ct).retire d (BitVec.ofNat 64 (2048 * b)))
  | _, _ => set (s.retire d (-1))

def execSpalloc (d a : BitVec 5) (s : State) : Host.Outcome State Fault Refusal := runScalar (spalloc d a) s

/-- Does a copy that has not released its slot touch bytes [lo, hi) of tile `t`'s scratchpad? -/
def copyTouches (s : State) (t lo n : Nat) : Bool :=
  (List.range 4).any fun i =>
    let u := clusterBase t + i
    let c := (s.tile u).held
    c.copies.any fun (_, k) =>
      let r := k.record
      let h := spdTile u r.window r.position
      let x := c.xchan k.chan
      (h == t && overlaps r.offset r.span lo n) || (k.ranged && x.tile == t && overlaps x.rb (x.re - x.rb) lo n)

def spfree (a b : BitVec 5) : M Unit := do
  awaitCommit
  let s ← get
  let x := s.curTile
  let off := (s.reg a).toNat
  let n := stripesFor (s.reg b).toNat
  match x.regions.find? fun r => 2048 * r.base = off && r.stripes = n && !r.footprint && some r.owner = s.owner with
  | none => throw (.trap { cause := cSPDRANGE, tva := tvaOf (s.reg a) })
  | some r =>
    if copyTouches s s.ct off (2048 * n) || !(pinners s s.ct off (2048 * n)).isEmpty then throw (.wait .regionHeld)
    set (s.setCurTile (x.keepRegions (· != r))).advance

def execSpfree (a b : BitVec 5) (s : State) : Host.Outcome State Fault Refusal := runScalar (spfree a b) s

/-! ### `opcap` and `opreq` (R329, R330, R424) -/

/-- `opcap` (R330). -/
def execOpcap (d a : BitVec 5) (s : State) : Host.Outcome State Fault Refusal :=
  .next (if 3 < (s.reg a).toNat then raise s { cause := cRSVD } else s.retire d (BitVec.ofNat 64 (s.curTile.capAt (s.reg a).toNat)))

/-- The deepest point that every partition allows. -/
def floorAllows (s : State) (p : Nat) : Bool :=
  (List.range 16).all fun k => (s.partition k).sup.isNone || decide (p ≤ fieldOf ((s.partition k).word 0) 24 2)

/-- Accept a step toward point `p`. -/
def acceptStep (p : Nat) (s : State) : State := { s with opBusy := true, opStep := some { target := p } }

/-- `opreq` (R329, R424). -/
def execOpreq (d a : BitVec 5) (s : State) : Host.Outcome State Fault Refusal :=
  let v := s.reg a
  let p := v.toNat
  if !s.isSupervisor s.ct s.cs then .next (raise s (decodeTrap cPRIV))
  else if 3 < p then .next (raise s { cause := cRSVD })
  else match s.cur.state with
    | .waiting (.opreq q (some r)) => if q = p then .next (s.retire d r) else .next (s.waitAt (.opreq q (some r)))
    | _ =>
      if p = s.opcur.toNat then .next (s.retire d 4)
      else match s.opStep with
        | some o => if o.target = p then .next (s.waitAt (.opreq p none)) else .next (s.retire d 2)
        | none => if !floorAllows s p then .next (s.retire d 3) else .next ((acceptStep p s).waitAt (.opreq p none))

/-- The step toward `p` ends: every strand that waits for it gets its result. -/
def announce (p : Nat) (r : Word) (s : State) : State :=
  { s with
    opBusy := false, opStep := none
    tiles := s.tiles.map fun (t, x) => (t, { x with ctx := { x.ctx with strands := x.ctx.strands.map fun (k, y) =>
      (k, match y.state with
        | .waiting (.opreq q none) => if q = p then { y with state := .waiting (.opreq q (some r)) } else y
        | _ => y) } }) }

/-! ### The step protocol -/

/-- Allocation extent E (R423): a stripe that an eviction has released does not count (R392). -/
def Tile.extent (x : Tile) : Nat :=
  let top := (x.regions.map fun r => r.base + r.stripes).foldl max 0
  ((List.range top).filter fun i => x.stripeTaken i && !x.awayStripes.contains i).foldl (fun m i => max m (i + 1)) 0

def allTiles : List Nat := List.range 1024

/-- The check of a downward step once every allocator has acknowledged. -/
def checkStep (o : OpStep) (s : State) : State :=
  match s.tiles.find? fun (_, x) => decide (x.capAt o.target < x.extent) with
  | some (t, _) => announce o.target (BitVec.ofNat 64 (1 + 2 ^ 16 * t)) s
  | none => { s with opStep := some { o with checked := true } }

/-- ALLOCATOR_ACK (R424). -/
def allocatorAck (t : Nat) (s : State) : State :=
  match s.opStep with
  | none => s
  | some o =>
    if o.target ≤ s.opcur.toNat ∨ o.checked ∨ o.acked.contains t then s
    else
      let o1 := { o with acked := o.acked ++ [t] }
      let s1 := { s with opStep := some o1 }
      if allTiles.all o1.acked.contains then checkStep o1 s1 else s1

def execAllocatorAck (tile : BitVec 10) (s : State) : Host.Outcome State Fault Refusal := .next (allocatorAck tile.toNat s)

/-- Does a physical stripe work at a point? -/
def Tile.stripeWorks (x : Tile) (p ph : Nat) : Bool := !(sget 0 x.fails p).getLsbD ph

/-- The physical stripes that work at a point, in ascending order. -/
def Tile.working (x : Tile) (p : Nat) : List Nat := (List.range 1600).filter (x.stripeWorks p)

/-- The physical stripe of a logical one (R422). -/
def Tile.physical (x : Tile) (l : Nat) : Nat := (sfind x.remap l).getD ((x.working 0).getD l 0)

/-- The lowest logical stripe below `n` whose physical stripe fails at `p`. -/
def Tile.nextMove (x : Tile) (p n : Nat) : Option Nat := (List.range n).find? fun l => !x.stripeWorks p (x.physical l)

/-- Give logical stripe `l` the lowest physical stripe that works at `p` and that no logical stripe below `n`, but `l`, holds (R425). -/
def Tile.remapStripe (x : Tile) (p n l : Nat) : Tile :=
  let held := ((List.range n).filter (· != l)).map x.physical
  match (x.working p).find? fun ph => !held.contains ph with
  | some ph => { x with remap := sput x.remap l ph }
  | none => x

/-- The errors that the copy of an allocated stripe to its new row finds: the granules are poisoned, each with its record (R395, R425). -/
def stripeErrors (t l : Nat) (s : State) : State :=
  let x := s.tile t
  let bad := if x.stripeTaken l && !x.awayStripes.contains l then x.spdLatent.filter fun g => decide (g / 32 = l) else []
  bad.foldl (fun s _ => s.log x.part 1 0 t 0 0) (s.setTile t { x with
    spdPoison := x.spdPoison ++ bad.filter (!x.spdPoison.contains ·), spdLatent := x.spdLatent.filter fun g => decide (g / 32 ≠ l) })

/-- STRIPE_MOVE (R425): the next stripe of the evacuation moves; its bytes keep their logical offsets. -/
def stripeMove (t : Nat) (s : State) : State :=
  match s.opStep with
  | none => s
  | some o =>
    let x := s.tile t
    if !o.checked then s
    else match x.nextMove o.target (x.capAt o.target) with
      | some l => stripeErrors t l (s.setTile t (x.remapStripe o.target (x.capAt o.target) l))
      | none => s

def execStripeMove (tile : BitVec 10) (s : State) : Host.Outcome State Fault Refusal := .next (stripeMove tile.toNat s)

def tcAt (x : Tile) (p : Nat) : BitVec 128 := sget 0 x.tcw p
def l1At (x : Tile) (p : Nat) : BitVec 8 := sget 0 x.l1w p

/-- Tile `t` evicts a line: dirty data is written back, behind the flush of a release that stands in it (R259, R292). -/
def evictFlushed (t line : Nat) (s : State) : State :=
  evictLine t line (if isDirty (sfind (sget [] s.lines line) t) then flushLine t line s else s)

/-- Lines that the tile cache holds in ways that `off` marks, by group of 64 sets (Table 24.2). -/
def linesInWays (x : Tile) (off : BitVec 128) : List Nat :=
  x.tc.flatMap fun (set, ls) => (ls.filter fun l => off.getLsbD (16 * (set / 64) + l.way)).map (·.line)

/-- L1D without the lines in ways that `off` marks. -/
def l1dWithout (x : Tile) (off : BitVec 8) : SMap (List CacheLine) :=
  (x.l1d.map fun (set, ls) => (set, ls.filter fun l => !off.getLsbD l.way)).filter fun (_, ls) => !ls.isEmpty

/-- CACHE_WAY_DISABLE (R194, R426): the ways that fail at the target and not at the current point are emptied, dirty lines written back, and
disabled. -/
def cacheWayDisable (t : Nat) (s : State) : State :=
  match s.opStep with
  | none => s
  | some o =>
    if !o.checked then s
    else
      let s1 := (linesInWays (s.tile t) (tcAt (s.tile t) o.target)).foldl (fun s l => evictFlushed t l s) s
      let x := s1.tile t
      let l1 := l1At x o.target
      { s1.setTile t { x with tcOff := x.tcOff ||| tcAt x o.target, l1Off := x.l1Off ||| l1, l1d := l1dWithout x l1 } with
        opStep := some { o with ways := if o.ways.contains t then o.ways else o.ways ++ [t] } }

def execCacheWayDisable (tile : BitVec 10) (s : State) : Host.Outcome State Fault Refusal := .next (cacheWayDisable tile.toNat s)

/-- Has every tile been evacuated, and its caches prepared? -/
def tilesReady (o : OpStep) (s : State) : Bool :=
  s.tiles.all fun (_, x) => (x.nextMove o.target (x.capAt o.target)).isNone &&
    (tcAt x o.target &&& ~~~ x.tcOff) == 0 && (l1At x o.target &&& ~~~ x.l1Off) == 0

/-- Arithmetic clock of a point in MHz (Table 0.3). -/
def clockOf (p : Nat) : Nat := if p ≤ 1 then 1000 else if p = 2 then 850 else 700

/-- Downward, the clock falls before the voltage; upward, it rises after it (R424). -/
def clockDue (o : OpStep) (s : State) : Bool :=
  !o.clock &&
  (if s.opcur.toNat < o.target then o.checked && tilesReady o s && decide (clockOf o.target < clockOf s.opcur.toNat)
   else o.ramp && decide (clockOf s.opcur.toNat < clockOf o.target))

def rampDue (o : OpStep) (s : State) : Bool :=
  !o.ramp && (if s.opcur.toNat < o.target then o.checked && tilesReady o s && (o.clock || clockOf o.target == clockOf s.opcur.toNat) else true)

/-- CLOCK_CHANGE (R424). -/
def clockChange (s : State) : State :=
  match s.opStep with
  | some o => if clockDue o s then { s with opStep := some { o with clock := true } } else s
  | none => s

def execClockChange (s : State) : Host.Outcome State Fault Refusal := .next (clockChange s)

/-- VOLTAGE_RAMP (R424). -/
def voltageRamp (s : State) : State :=
  match s.opStep with
  | some o => if rampDue o s then { s with opStep := some { o with ramp := true } } else s
  | none => s

def execVoltageRamp (s : State) : Host.Outcome State Fault Refusal := .next (voltageRamp s)

/-- Map the logical stripes that the new point adds (R429). -/
def extendRemap (old new : Nat) (x : Tile) : Tile :=
  ((List.range (x.capAt new)).filter fun l => decide (x.capAt old ≤ l)).foldl (fun x l => x.remapStripe new l l) x

/-- A queued launch that no longer fits is cancelled with a notice (R427). -/
def cancelTooBig (part : Nat) (s : State) : State :=
  ((s.partition part).launches.filter fun l => !l.pending.isEmpty).foldl (fun s l =>
    match launchTooBig s l.record with
    | some t => postNotice (cancelCounter part l.cid (l.cid.zeroExtend 64) s) part
        (noticeWords cCAPACITY 0 t 0 none (BitVec.ofNat 56 t) 0 0 l.cid.toNat)
    | none => s) s

/-- OP_STEP_COMPLETE (R424, R427, R429). -/
def opStepComplete (s : State) : State :=
  match s.opStep with
  | none => s
  | some o =>
    let old := s.opcur.toNat
    let down := decide (old < o.target)
    if !o.ramp || clockDue o s || (down && !tilesReady o s) then s
    else
      let s1 := { s with
        opcur := BitVec.ofNat 2 o.target
        tiles := s.tiles.map fun (t, x) =>
          (t, { (if down then x else extendRemap old o.target x) with tcOff := tcAt x o.target, l1Off := l1At x o.target }) }
      (List.range 16).foldl (fun s k => cancelTooBig k s) (announce o.target 0 s1)

def execOpStepComplete (s : State) : Host.Outcome State Fault Refusal := .next (opStepComplete s)

/-! ### Char map refresh (R421) -/

/-- Guaranteed minimum of logical stripes at a point (Table 0.3). -/
def minStripes (p : Nat) : Nat := if p ≤ 1 then 1536 else if p = 2 then 1472 else 1344

/-- Do the char map slots keep the guaranteed minima and the way bounds (R194, R420, R421)? -/
def charMapSound (x : Tile) : Bool :=
  (List.range 4).all fun p =>
    decide (minStripes p ≤ x.capAt p) && decide (popBits 8 (l1At x p).toNat ≤ 2) &&
    (List.range 8).all fun g => decide (popBits 16 (fld (tcAt x p) (16 * g) 16) ≤ 4)

/-- The remap table after a refresh of the maps (R422): it stays as it was, but entries whose stripe now fails at the current point are given
another by the rule of R425 (a choice of the model: the tile holds no allocated stripe). -/
def retable (old : Tile) (p : Nat) (x : Tile) : Tile :=
  let x1 : Tile := { x with remap := (List.range 1536).map fun l => (l, old.physical l) }
  (List.range (x1.capAt p)).foldl (fun x l => if x.stripeWorks p (x.physical l) then x else x.remapStripe p (x.capAt p) l) x1

/-- A tile with bits set in its char map, at point `p` and at every deeper one; ways that fail now are disabled (R194, R421). -/
def markedTile (p cur : Nat) (fails : BitVec 1600) (tcw : BitVec 128) (l1w : BitVec 8) (x : Tile) : Tile :=
  let deeper := (List.range 4).filter (p ≤ ·)
  let x1 := { x with
    fails := deeper.foldl (fun m q => sput m q (sget 0 m q ||| fails)) x.fails
    tcw := deeper.foldl (fun m q => sput m q (sget 0 m q ||| tcw)) x.tcw
    l1w := deeper.foldl (fun m q => sput m q (sget 0 m q ||| l1w)) x.l1w }
  let x2 := if fails = 0 then x1 else retable x cur x1
  if p ≤ cur then { x2 with tcOff := x2.tcOff ||| tcw, l1Off := x2.l1Off ||| l1w, l1d := l1dWithout x2 l1w } else x2

end Sys2Proof.Machine
end

