-- ==== Sys2Proof/Machine/Events.lean ====
section
/-! DEFINITION. Events of strands, of notices, of streams and of Draught loops that no instruction makes by itself. -/

namespace Sys2Proof.Machine

/-! ### Strands -/

/-- Does slot `k` hold a strand that can take a trap or a cancel? -/
def Strand.lives (y : Strand) : Bool := match y.state with | .runnable => true | .waiting _ => true | _ => false

/-- The trap that stands first among those pending for a strand is taken (R45, R86, R380).  A sleeping `mwait` completes first (R83); the strand
waits for its older engine entries, but an entry stalled at its boundary is abandoned there (R224, R355), and `MCHK` brings the strand to `vcp`
whatever it is at. -/
def takePending (t k : Nat) (s : State) : State :=
  let y := s.strandOf t k
  match y.traps with
  | [] => s
  | tr :: r =>
    if (s.tile t).still || !y.lives || postingHeld s t k then s
    else
      let s0 := endMwait t k s
      let stalled := match (s0.tile t).entriesOf k with | e :: _ => e.isStalled | [] => false
      let s1 := if tr.cause = cMCHK || stalled then standStrand t k s0 else s0
      if !((s1.tile t).entriesOf k).isEmpty then s.setStrandOf t k { y with state := .waiting .drain, age := 0 }
      else takeTrap (s1.setStrandOf t k { s1.strandOf t k with traps := r, posting := false }) t k tr

/-- TAKE_TRAP (R86). -/
def execTakeTrap (tile : BitVec 10) (slot : BitVec 3) (s : State) : Host.Outcome State Fault Refusal :=
  .next (takePending tile.toNat slot.toNat s)

/-- Make a tile and slot the current ones. -/
def State.at (s : State) (t k : Nat) : State := { s with ct := t, cs := k }

/-- FETCH_FAULT (R78): the strand's next fetch faults and the trap is taken. -/
def fetchFault (t k : Nat) (s : State) : State :=
  if (s.tile t).still || (s.strandOf t k).state != .runnable then s
  else match fetchWord t k s with
    | .error (.trap tr) _ => raise (s.at t k) tr
    | _ => s

def execFetchFault (tile : BitVec 10) (slot : BitVec 3) (s : State) : Host.Outcome State Fault Refusal :=
  .next (fetchFault tile.toNat slot.toNat s)

/-- MWAIT_TIMEOUT (R83): the cycle limit of a sleeping `mwait` has passed. -/
def mwaitTimeout (t k : Nat) (s : State) : State :=
  let y := s.strandOf t k
  match y.state with
  | .waiting (.mwait _ (some l)) =>
    if (s.tile t).still || s.cyc < l then s else endMwait t k s
  | _ => s

def execMwaitTimeout (tile : BitVec 10) (slot : BitVec 3) (s : State) : Host.Outcome State Fault Refusal :=
  .next (mwaitTimeout tile.toNat slot.toNat s)

/-- STRAND_AGE_PROMOTION (R357): a runnable strand has not issued for 64 cycles and compares as PRIO 8. -/
def execStrandAgePromotion (tile : BitVec 10) (slot : BitVec 3) (s : State) : Host.Outcome State Fault Refusal :=
  let y := s.strandOf tile.toNat slot.toNat
  .next (if y.state = .runnable ∧ 64 ≤ y.age then s.setStrandOf tile.toNat slot.toNat { y with promoted := true } else s)

/-! ### The supervisor strand (R353, R354, R413, R436) -/

/-- The supervisor strand as it starts (R436): every register but s1 is zero. -/
def supervisorStrand (x : Partition) : Strand :=
  { regs := sput [] 1 (BitVec.ofNat 64 (x.word 7)), pc := BitVec.ofNat 64 (fieldOf (x.word 6) 0 48), state := .runnable }

/-- Start the partition's supervisor strand in slot 7 of tile `t`. -/
def startSupervisor (part t : Nat) (s : State) : State :=
  let s1 := s.setPartition part { s.partition part with sup := some t }
  s1.setStrandOf t 7 (supervisorStrand (s.partition part))

/-- Cycles in a second at a point. -/
def cyclesPerSecond (p : Nat) : Nat := clockOf p * 1000000

/-- SUPERVISOR_RESTART (R354): at most 16 times in a second, and after the sixteenth no more until PART_RESET; on the alternate tile when its
own is fenced (R413). -/
def supervisorRestart (part : Nat) (s : State) : State :=
  let x := s.partition part
  match x.sup with
  | none => s
  | some t =>
    let fenced := (s.tile t).fenced
    let recent := x.restarts.filter fun c => decide (s.cyc < c + cyclesPerSecond s.opcur.toNat)
    if x.pre != .running || x.abandoned || !(fenced || (s.strandOf t 7).state == .halted) then s
    else if 16 ≤ recent.length then s.setPartition part { x with abandoned := true }
    else
      let u := if fenced then fieldOf (x.word 0) 14 10 else t
      let s1 := s.setPartition part { x with restarts := s.cyc :: recent }
      startSupervisor part u (s1.log (some part) 5 9 u 0 0)

def execSupervisorRestart (part : BitVec 4) (s : State) : Host.Outcome State Fault Refusal := .next (supervisorRestart part.toNat s)

/-! ### Notices (R372) -/

/-- The tile's agents have had their notices written: strands go on, failed copies release their slots, and positions stop with their faults
(R228, R372). -/
def endPostingCtx (c : Ctx) : Ctx :=
  let c1 := settlePosted c
  let c2 : Ctx := { c1 with strands := c1.strands.map fun (q : Nat × Strand) => (q.1, { q.2 with posting := false }) }
  let faults := c2.fabric.pos.filterMap fun (q : Nat × Pos) => q.2.posting.map fun tr => (q.1, tr)
  faults.foldl (fun (c : Ctx) q => fabricFault { c with fabric := c.fabric.setAt q.1 { c.fabric.at q.1 with posting := none } } q.1 q.2) c2

/-- Does an agent of the tile wait for its notice? -/
def postingDue (c : Ctx) : Bool :=
  c.strands.any (fun (_, y) => y.posting) || c.copies.any (fun (_, k) => k.posting) || c.fabric.pos.any fun (_, p) => p.posting.isSome

/-- Every notice of a partition has been written: no agent waits for its own any more. -/
def endPosting (p : Nat) (s : State) : State :=
  ((s.tiles.filter fun (_, x) => x.part = some p && postingDue x.held).map (·.1)).foldl
    (fun s t => reclaimAll t (s.setTile t (onHeldCtx (fun x => { x with ctx := endPostingCtx x.ctx }) (s.tile t)))) s

/-- May the notice that could not be written be tried again: has the line of the entry that stopped it been written since (R372)? -/
def noticeDue (s : State) (p : Nat) : Bool :=
  match (s.partition p).noteWatch with
  | some l => !s.resWatches.contains l
  | none => true

/-- Post what the partition's agents hold, oldest first, while the ring takes it. -/
def retryNotices (part : Nat) : Nat → State → State
  | 0, s => s
  | n + 1, s =>
    match (s.partition part).notices with
    | [] => endPosting part s
    | w :: r =>
      if !noticeDue s part then s
      else match tryPost s part w with
        | .posted s1 => retryNotices part n (s1.setPartition part { s1.partition part with notices := r, noteWatch := none })
        | .held s1 => s1.setPartition part { s1.partition part with noteWatch := none }
        | .unwritable s1 va entry => watchNotice part va entry s1

/-- NOTICE_POST_RETRY (R372). -/
def noticePostRetry (part : Nat) (s : State) : State := retryNotices part ((s.partition part).notices.length + 1) s

def execNoticePostRetry (part : BitVec 4) (s : State) : Host.Outcome State Fault Refusal := .next (noticePostRetry part.toNat s)

/-! ### Resolution of page faults (R386) -/

/-- RESOLUTION_WATCH_WRITE (R386): a watched line of table entries has been written; its waiters walk again. -/
def resolutionWatchWrite (line : Nat) (s : State) : State :=
  if !s.resWritten.contains line then s
  else
    let s1 := { s with resWatches := s.resWatches.filter (· != line), resWritten := s.resWritten.filter (· != line) }
    let s2 := (s1.tiles.map (·.1)).foldl (resolveTile line) s1
    (s2.parts.map (·.1)).foldl (fun s p => noticePostRetry p s) s2

def execResolutionWatchWrite (line : BitVec 49) (s : State) : Host.Outcome State Fault Refusal :=
  .next (resolutionWatchWrite line.toNat s)

/-! ### Streams (R336) and markers' order (R400) -/

/-- Take the first message of a list that satisfies `p`. -/
def takeFirst {α : Type} (p : α → Bool) : List α → Option (α × List α)
  | [] => none
  | a :: r => if p a then some (a, r) else (takeFirst p r).map fun (x, l) => (x, a :: l)

/-- STREAM_ELEMENT_ARRIVAL (R276, R336): the first element in flight from a tile to a tile arrives, unless a marker notice was sent
before it. -/
def streamElementArrival (t src : Nat) (s : State) : State :=
  let mine := fun (m : Marker) => decide (m.src = src) && decide (m.dst = t)
  if s.markers.any fun m => mine m && m.ahead == 0 then s
  else match takeFirst (fun f : Flight => decide (f.src = src) && decide (f.dst = t)) s.flight with
    | none => s
    | some (f, r) => deliver { s with flight := r, markers := s.markers.map fun m => if mine m then { m with ahead := m.ahead - 1 } else m } t f.elem

def execStreamElementArrival (tile : BitVec 10) (stile : BitVec 10) (s : State) : Host.Outcome State Fault Refusal :=
  .next (streamElementArrival tile.toNat stile.toNat s)

/-! ### Draught loops (R281, R341, R342, R346) -/

/-- DRAUGHT_SAMPLE (R341). -/
def execDraughtSample (tile : BitVec 10) (loop : BitVec 4) (s : State) : Host.Outcome State Fault Refusal :=
  .next (if (s.tile tile.toNat).still then s else draughtSample s tile.toNat loop.toNat)

/-- RATE_MESSAGE_ARRIVAL (R342): the first message of a loop arrives; a halted producer tile discards it (R388). -/
def rateMessageArrival (p c k : Nat) (s : State) : State :=
  match takeFirst (fun m : RateMsg => decide (m.ptile = p) && decide (m.ctile = c) && decide (m.loop = k)) s.rates with
  | none => s
  | some (m, r) => if (s.tile p).halted then { s with rates := r } else applyRate { s with rates := r } m

def execRateMessageArrival (ptile ctile : BitVec 10) (loop : BitVec 4) (s : State) : Host.Outcome State Fault Refusal :=
  .next (rateMessageArrival ptile.toNat ctile.toNat loop.toNat s)

end Sys2Proof.Machine
end

