-- ==== Sys2Proof/Machine/Coherence.lean ====
section
/-! DEFINITION. Events of the directory slices, the tile caches, reservations, external agents and migration. -/

namespace Sys2Proof.Machine

/-! ### Tile caches (R290 to R294, R302) -/

/-- A tile asks for a line; a request for ownership ends the translations walked through the line (R308). -/
def lineRequest (t line : Nat) (write : Bool) : M Unit := do
  lineAccess (engineAgent t none) .cached 0 (line * 128) 128 write
  if write then modify (endXlats [line])

/-- LINE_REQUEST (R292, R295): a tile's request is served by Table 15.2, or is held by a reservation, where it provokes a split (R285). -/
def execLineRequest (tile : BitVec 10) (line : BitVec 49) (write : BitVec 1) (s : State) : Host.Outcome State Fault Refusal :=
  .next (if (s.tile tile.toNat).still then s
    else partEnd (lineRequest tile.toNat line.toNat (write == 1)) s)

/-- PROBE_SHARED (R292). -/
def probeShared (t line : Nat) (s : State) : State :=
  match sfind (sget [] s.lines line) t with
  | none => s
  | some x => noteRegion true line { wakeDirty t line s with lines := sput s.lines line (sput (sget [] s.lines line) t x.shared) }

def execProbeShared (tile : BitVec 10) (line : BitVec 49) (s : State) : Host.Outcome State Fault Refusal :=
  .next (probeShared tile.toNat line.toNat s)

/-- Tile `t` drops the translations walked through the line, and its registrations of the pages that they translate end (R308, R443). -/
def shootDown (t line : Nat) (s : State) : State :=
  let x := s.tile t
  let s1 := s.setTile t { x with xlat := x.xlat.filter fun y => !y.walked.contains line }
  releaseEntries (fun e => decide (e.owner = t) && e.walked.contains line) s1

/-- PROBE_INVALIDATE (R292, R308, R443). -/
def probeInvalidate (t line : Nat) (s : State) : State := noteRegion true line (shootDown t line (dropLine t line s))

def execProbeInvalidate (tile : BitVec 10) (line : BitVec 49) (s : State) : Host.Outcome State Fault Refusal :=
  .next (probeInvalidate tile.toNat line.toNat s)

/-- LINE_EVICTION (R292): dirty data is written back, behind the flush of a release that stands in it (R259). -/
def execLineEviction (tile : BitVec 10) (line : BitVec 49) (s : State) : Host.Outcome State Fault Refusal :=
  .next (evictFlushed tile.toNat line.toNat s)

/-- TILE_CACHE_RETENTION (R294): the tile has held no team for 8,192 cycles. -/
def execTileCacheRetention (tile : BitVec 10) (s : State) : Host.Outcome State Fault Refusal :=
  .next (if (s.tile tile.toNat).team.isSome || s.retained.contains tile.toNat then s else { s with retained := s.retained ++ [tile.toNat] })

/-- Every copy of a line, reserved ones too, and every translation walked through it leaves the package (R302, R308, R443); the agent outside
acquires at `.g` (R266). -/
def recallAll (line : Nat) (s : State) : State :=
  noteRegion true line (endXlats [line] (recallReserved line (recallLine line (acquireFlush {} 4 (128 * line) 128 s))))

/-- BACK_INVALIDATE_SNOOP (R302): the remote home of peer or pool memory asks for the line back. -/
def execBackInvalidateSnoop (line : BitVec 49) (s : State) : Host.Outcome State Fault Refusal :=
  .next (if line.toNat * 128 < 2 ^ 39 then s else recallAll line.toNat s)

/-! ### Reservations (R282 to R287, R296, R443) -/

/-- RESERVATION_REGISTRATION (R282, R443): the pages of an open stream's range that translate are registered. -/
def reservationRegistration (t k : Nat) (s : State) : State :=
  let st := (s.tile t).stream k
  match st.rid with
  | none => s
  | some r =>
    if !st.isOpen then s
    else (registerRange t k st r s).getD s

def execReservationRegistration (tile : BitVec 10) (st : BitVec 4) (s : State) : Host.Outcome State Fault Refusal :=
  .next (reservationRegistration tile.toNat st.toNat s)

/-- RESERVATION_PAGE_REGISTER (R443): the 4 KiB page `vpage` of the range is registered. -/
def reservationPageRegister (t k page : Nat) (s : State) : State :=
  let st := (s.tile t).stream k
  match st.rid with
  | none => s
  | some r =>
    let va := max (4096 * page) st.addr.toNat
    if !st.isOpen || 4096 * page + 4096 ≤ va || st.addr.toNat + st.ext.toNat ≤ va then s
    else (registerPage s t k st r va).getD s

def execReservationPageRegister (tile : BitVec 10) (st : BitVec 4) (vpage : BitVec 36) (s : State) : Host.Outcome State Fault Refusal :=
  .next (reservationPageRegister tile.toNat st.toNat vpage.toNat s)

/-- Replace entry `e`. -/
def putEntry (s : State) (e e1 : ResEntry) : State := { s with resv := s.resv.map fun x => if x = e then e1 else x }

/-- May the slice split the entry now: under the split policy, held in full, or in part with accesses that wait at it (R285, Table 15.3)? -/
def ResEntry.splits (e : ResEntry) : Bool :=
  e.pol = 2 && (e.state == .granted || e.state == .splitting || (e.state == .pending && !e.held.isEmpty))

/-- SPLIT_PROBE (R284, R285): the owner answers with the cut at its present position. -/
def splitProbe (i : Nat) (s : State) : State :=
  match s.resv[i]? with
  | none => s
  | some e =>
    if e.splits then putEntry s e { e with state := if e.state = .pending then .pending else .splitting, answer := some (s.edgeNow e) } else s

def execSplitProbe (rix : BitVec 14) (s : State) : Host.Outcome State Fault Refusal := .next (splitProbe rix.toNat s)

/-- SPLIT_ANSWER (R296, R298): the slice applies the cut; the accesses that it holds are judged against it when they are retried. -/
def splitAnswer (i : Nat) (s : State) : State :=
  match s.resv[i]? with
  | none => s
  | some e => match e.answer with
    | some c => applySplit s e c (if e.state = .splitting then .granted else e.state) none
    | none => s

def execSplitAnswer (rix : BitVec 14) (s : State) : Host.Outcome State Fault Refusal := .next (splitAnswer rix.toNat s)

/-- POSITION_REPORT (R285): the slice splits again at the owner's position. -/
def positionReport (i : Nat) (s : State) : State :=
  match s.resv[i]? with
  | none => s
  | some e => if e.splits then reportEntry s e else s

def execPositionReport (rix : BitVec 14) (s : State) : Host.Outcome State Fault Refusal := .next (positionReport rix.toNat s)

/-- RESERVATION_RELEASE (R296): the entry of a stream register that is closed, or open anew, is freed. -/
def reservationRelease (i : Nat) (s : State) : State :=
  match s.resv[i]? with
  | none => s
  | some e =>
    if e.state ≠ .releasing ∧ ((s.tile e.owner).stream e.st).rid = some e.rid then s
    else
      releaseEntries (· == e) s

def execReservationRelease (rix : BitVec 14) (s : State) : Host.Outcome State Fault Refusal := .next (reservationRelease rix.toNat s)

/-- FORWARDED_ACQUIRE (R259, R287): an acquire that reads a word of the line that tile `t` released has it perform the writes ordered before
the release. -/
def forwardedAcquire (t line : Nat) (s : State) : State := flushLine t line s

def execForwardedAcquire (tile : BitVec 10) (line : BitVec 49) (s : State) : Host.Outcome State Fault Refusal :=
  .next (forwardedAcquire tile.toNat line.toNat s)

/-! ### Agents outside the package (R266, R303, R433) -/

/-- Do the bytes lie in a range that is lent, and which no borrower has still to give back (R432)?  Of HBM nothing else is exposed (Table 25.1). -/
def outsideReach (s : State) (a n : Nat) : Bool :=
  s.lent.any fun l => l.awaited.isNone && decide (l.base * 2 ^ 30 ≤ a) && decide (a + n ≤ (l.base + l.count) * 2 ^ 30)

/-- Do they lie in a range that is being revoked: new requests are completed with poison (R433)? -/
def beingRevoked (s : State) (a n : Nat) : Bool :=
  s.lent.any fun l => l.awaited.isSome && overlaps a n (l.base * 2 ^ 30) (l.count * 2 ^ 30)

/-- Bytes of a window that stand in another device's memory: they are read and changed there, after the snoop has recalled every copy (R302). -/
def inWindow (s : State) (a n : Nat) : Bool := s.windows.any fun w => decide (w.base ≤ a) && decide (a + n ≤ w.base + w.size)

/-- The slice records that devices outside hold lines of the region; the events name no device, so OVF stands for all of the range's borrowers
(R303). -/
def notePeers (line : Nat) (s : State) : State := { s with dir := sput s.dir (line / 4) { sget {} s.dir (line / 4) with ovf := true } }

/-- The data of an external read. -/
def externalData (a n : Nat) : M Unit := do
  let bs ← physReadQuiet {} .home 0 a n
  modify fun s => { s with extData := BitVec.ofNat 64 (leNat bs), extPoison := (granules a n).any s.poisoned }

/-- EXTERNAL_READ (R266): a naturally aligned read, treated as an acquire at `.g`; every tile that holds the line answers a probe for a
shared copy, or, for a line of peer or pool memory, for its return. -/
def externalRead (a n : Nat) (s : State) : State :=
  if a % n ≠ 0 || !s.linkUp then s
  else if outsideReach s a n then partEnd (externalData a n) (notePeers (a / 128) (roomFor (a / 128) (acquireFlush {} 4 a n s)))
  else if beingRevoked s a n then { s with extPoison := true }
  else if 2 ^ 39 ≤ a && inWindow s a n && !isRevoked s a n then partEnd (externalData a n) (recallAll (a / 128) s)
  else s

def execExternalRead (addr : BitVec 56) (size : BitVec 2) (s : State) : Host.Outcome State Fault Refusal :=
  .next (externalRead addr.toNat (2 ^ size.toNat) s)

/-- EXTERNAL_WRITE (R266): an agent outside the package writes memory of the device, or peer or pool memory that a window shows. -/
def externalWrite (a n v : Nat) (s : State) : State :=
  if a % n ≠ 0 || !s.linkUp then s
  else if outsideReach s a n then partEnd (physWrite {} .home 0 a (natLe n v)) s
  else if 2 ^ 39 ≤ a && inWindow s a n && !isRevoked s a n then partEnd (physWrite {} .home 0 a (natLe n v)) (recallAll (a / 128) s)
  else s

def execExternalWrite (addr : BitVec 56) (size : BitVec 2) (data : BitVec 64) (s : State) : Host.Outcome State Fault Refusal :=
  .next (externalWrite addr.toNat (2 ^ size.toNat) data.toNat s)

/-! ### Migration (R312 to R314) -/

/-- Virtual address of the partition's migration mailbox. -/
def migBox (x : Partition) : Nat := fieldOf (x.word 10) 0 48

/-- Page size exponent of SZ. -/
def migSize (w0 : Nat) : Nat := match fieldOf w0 0 2 with | 0 => 12 | 1 => 16 | 2 => 21 | _ => 30

/-- Do the mailbox words keep the rules of Table 15.9: reserved bits, alignment, quota? -/
def migLegal (x : Partition) (w0 w1 w2 w3 : Nat) : Bool :=
  let n := migSize w0
  let old := fieldOf w0 12 44 * 4096
  let new := fieldOf w1 12 44 * 4096
  fieldOf w0 2 10 == 0 && fieldOf w0 56 8 == 0 && fieldOf w1 0 12 == 0 && fieldOf w1 56 8 == 0 && fieldOf w2 32 32 == 0 &&
  fieldOf w3 2 6 == 0 && fieldOf w3 11 5 == 0 && fieldOf w3 24 40 == 0 &&
  old % 2 ^ n == 0 && new % 2 ^ n == 0 && pageInQuota x old (2 ^ n) && pageInQuota x new (2 ^ n)

/-- Word 3 with the device's fields: STATE, FAIL and CAUSE. -/
def migAnswer (w3 st fail cause : Nat) : Nat := fieldOf w3 0 2 + 2 ^ 8 * st + 2 ^ 10 * fail + 2 ^ 16 * cause

/-- The device's answer in word 3 of the mailbox. -/
def migReply (part w3 st fail cause : Nat) : M Unit := do
  partWrite part (migBox ((← get).partition part) + 24) (natLe 8 (migAnswer w3 st fail cause))

/-- Replace the partition's migration record. -/
def putMig (part : Nat) (g : Migration) (s : State) : State := s.setPartition part { s.partition part with mig := some g }

/-- The setting of ARM has been answered, or none stands. -/
def seeArm (part : Nat) (seen : Bool) (s : State) : State := s.setPartition part { s.partition part with armSeen := seen }

/-- A legal request is recorded with PTR 0 and answered with STATE 1. -/
def armMigration (part w0 w1 w3 : Nat) : M Unit := do
  modify (putMig part { old := fieldOf w0 12 44 * 4096, new := fieldOf w1 12 44 * 4096, size := migSize w0 })
  partWrite part (migBox ((← get).partition part) + 16) (natLe 8 0)
  migReply part w3 1 0 0

/-- The request of the mailbox, if it is one: a setting of ARM.  What stays set after it has been answered asks for nothing. -/
def readArm (part : Nat) : M Unit := do
  let x := (← get).partition part
  let b := migBox x
  let busy := match x.mig with | some g => g.phase != 3 && !g.failed | none => false
  let w0 ← partRead part b 8 .read
  let w1 ← partRead part (b + 8) 8 .read
  let w2 ← partRead part (b + 16) 8 .read
  let w3 ← partRead part (b + 24) 8 .read
  if w3 % 2 = 0 then modify (seeArm part false)
  else if x.armSeen || busy then pure ()
  else
    modify (seeArm part true)
    if migLegal x w0 w1 w2 w3 then armMigration part w0 w1 w3 else migReply part w3 0 1 1

/-- MIGRATION_ARM (R313): one migration of a partition at a time.  An answer that a reservation holds is made when the reservation lets it
pass. -/
def migrationArm (part : Nat) (s : State) : State := partEnd (readArm part) s

def execMigrationArm (part : BitVec 4) (s : State) : Host.Outcome State Fault Refusal := .next (migrationArm part.toNat s)

/-- The copy starts when START stands in the mailbox. -/
def readStart (part : Nat) (g : Migration) : M Unit := do
  let w3 ← partRead part (migBox ((← get).partition part) + 24) 8 .read
  if fieldOf w3 1 1 = 1 then
    modify (putMig part { g with phase := 2 })
    migReply part w3 2 0 0

/-- MIGRATION_START (R313). -/
def migrationStart (part : Nat) (s : State) : State :=
  match (s.partition part).mig with
  | some g => if g.phase = 1 then partEnd (readStart part g) s else s
  | none => s

def execMigrationStart (part : BitVec 4) (s : State) : Host.Outcome State Fault Refusal := .next (migrationStart part.toNat s)

/-- The line at PTR is copied: its copies are recalled, its bytes and its poison go to the new frame.  A reservation at either home holds
the copy back.  What was walked through the line at either frame ends (R308, R443). -/
def copyMigLine (g : Migration) : M Unit := do
  let a := g.old + g.ptr
  let b := g.new + g.ptr
  lineAccess {} .home 0 a 128 true
  lineAccess {} .home 0 b 128 true
  modify fun s =>
    let bad := (granules a 128).filter s.poisoned
    let s1 := endXlats [a / 128] (physPut s {} b (cellsGet s.mem a 128))
    { s1 with poison := s1.poison ++ bad.map fun k => k - a / 64 + b / 64 }

/-- The fault that the copy of the line at PTR meets: a frame that was revoked, or that stands in no window (R431). -/
def migFault (s : State) (g : Migration) : Option (BitVec 8) :=
  if isRevoked s (g.old + g.ptr) 128 || isRevoked s (g.new + g.ptr) 128 then some cPAGE
  else if (addressClass s (g.old + g.ptr)).isNone || (addressClass s (g.new + g.ptr)).isNone then some cADDR
  else none

/-- One line of the copy, or its end with FAIL. -/
def lineStep (part : Nat) (g : Migration) : M Unit := do
  let b := migBox ((← get).partition part)
  let w3 ← partRead part (b + 24) 8 .read
  match migFault (← get) g with
  | some c =>
    modify (putMig part { g with failed := true })
    migReply part w3 2 1 c.toNat
  | none =>
    let p := g.ptr + 128
    let done := p = 2 ^ g.size
    copyMigLine g
    modify (putMig part { g with ptr := p, phase := if done then 3 else 2 })
    partWrite part (b + 16) (natLe 8 p)
    if done then migReply part w3 3 0 0

/-- MIGRATION_LINE_COPY (R313). -/
def migrationLineCopy (part : Nat) (s : State) : State :=
  match (s.partition part).mig with
  | some g => if g.phase ≠ 2 || g.failed || 2 ^ g.size ≤ g.ptr then s else partEnd (lineStep part g) s
  | none => s

def execMigrationLineCopy (part : BitVec 4) (s : State) : Host.Outcome State Fault Refusal := .next (migrationLineCopy part.toNat s)

/-- POOL_WORD_OBSERVED (R326). -/
def execPoolWordObserved (part : BitVec 4) (pool : BitVec 8) (s : State) : Host.Outcome State Fault Refusal :=
  .next (observePool s part.toNat pool.toNat)

end Sys2Proof.Machine
end

