-- ==== Sys2Proof/Machine/Preempt.lean ====
section
/-! DEFINITION. Pre-emption, saved contexts and their backing area (R388 to R394), snapshots and rollbacks (R399 to R406), and what an
uncorrectable error does (R395, R396, R405). -/

namespace Sys2Proof.Machine

/-! ### Halting a tile (R380, R388) -/

/-- Strand `k` at the boundary where it halts: the traps that are pending first, then the cancels (R380). -/
def haltStrand (t : Nat) (s : State) (k : Nat) : State :=
  let s1 := standStrand t k (endMwait t k s)
  let s2 := (List.range (s1.strandOf t k).traps.length).foldl (fun s _ => takePending t k s) s1
  (List.range (s2.strandOf t k).cancels.length).foldl (fun s _ => cancelDelivery t k s) s2

/-- Stages 1 and 2 of R388: the lead strand stands at `vcp` and every strand at an instruction boundary. -/
def haltTile (t : Nat) (s : State) : State := (List.range 8).foldl (haltStrand t) (standAtVcp t s)

def partTiles (s : State) (part : Nat) : List Nat := (s.tiles.filter fun (_, x) => decide (x.part = some part)).map (·.1)

/-- A context as it is saved: the written bits are 1 (R82, Table 21.6). -/
def savedCtx (c : Ctx) : Ctx := { c with strands := c.strands.map fun (k, y) => (k, { y with written := true }) }

/-- Has a management command still to complete (R434)? -/
def mcBusy (s : State) : Bool :=
  s.parts.any (fun (_, x) => x.pre == .halting || x.pre == .resuming) || s.lent.any fun l => l.awaited.isSome

/-- The status word of a management command's output (R434). -/
def State.answer (s : State) (status : Nat) : State := { s with mbox := [BitVec.ofNat 64 status] }

/-- PART_PREEMPT (R388, R434). -/
def partPreempt (part : Nat) (s : State) : State :=
  let x := s.partition part
  if x.sup.isNone || x.pre != .running then s.answer 4
  else s.setPartition part { x with pre := .halting }

/-- CONTEXT_SWAP_OUT (R390): the pre-emption has completed when every tile of the partition holds its context in shadow storage. -/
def contextSwapOut (t : Nat) (s : State) : State :=
  let x := s.tile t
  match x.part with
  | none => s
  | some p =>
    if !x.halted || x.saved.isSome || x.backing.isSome then s
    else
      let s1 := s.setTile t { x with saved := some (savedCtx x.ctx), ctx := {} }
      if (partTiles s1 p).all fun u => (s1.tile u).saved.isSome || (s1.tile u).backing.isSome || (s1.tile u).fenced then
        (s1.setPartition p { s1.partition p with pre := .saved }).answer 0
      else s1

def execContextSwapOut (tile : BitVec 10) (s : State) : Host.Outcome State Fault Refusal := .next (contextSwapOut tile.toNat s)

/-! ### The layout of a saved context (Table 21.6)

Each item stands in 64-bit words of its own, in the order in which the table names the items of a record; the table gives no other places. -/

/-- `n` words from a list. -/
def takeWords (n : Nat) (l : List Nat) : List Nat := (List.range n).map fun i => l.getD i 0

/-- The 64-bit words of a number. -/
def numWords (n v : Nat) : List Nat := (List.range n).map fun i => fieldOf v (64 * i) 64

def stateCode : StrandState → Nat
  | .free => 0 | .runnable => 1 | .waiting _ => 2 | .halted => 3 | .ended => 4

def strandWords (y : Strand) : List Nat :=
  ((List.range 31).map fun i => (sget 0 y.regs (i + 1)).toNat) ++
  [y.pc.toNat, stateCode y.state, y.h.toNat, y.tcause.toNat, y.tpc.toNat, y.tva.toNat, y.telem.toNat, y.tvec.toNat, y.tscr.toNat, y.fstat.toNat] ++
  ((List.range 5).map fun i => (sget 0 y.fidx i).toNat) ++
  [(match y.watch with | some l => 128 * l.toNat | none => 0), 1, wrap 64 y.bucket, y.age]

def streamWords (st : Stream) : List Nat :=
  [st.addr.toNat, st.ext.toNat + 2 ^ 32 * st.es.toNat,
   st.kind.toNat + 2 ^ 3 * st.intent.toNat + 2 ^ 5 * st.pol.toNat + 2 ^ 7 * st.ch.toNat + 2 ^ 12 * st.port.toNat + 2 ^ 16 * st.dtile.toNat,
   st.isOpen.toNat, st.pos.toNat, st.seq.toNat, st.rid.getD 0, (match st.hw with | some h => h.toNat + 2 ^ 16 | none => 0)]

def channelWords (c : Channel) : List Nat :=
  [c.entry.toNat, c.expected.toNat + 2 ^ 16 * c.loss + 2 ^ 32 * c.masked, c.withheld.isSome.toNat, 0]

def loopWords (l : Loop) : List Nat :=
  [l.w0.toNat, l.w1.toNat, l.gen + (if l.bound then 2 ^ 63 else 0), wrap 64 l.integ, l.wp, l.wc, l.next, (l.frozen || l.lossFrozen).toNat]

def XState.code : XState → Nat
  | .idle => 0 | .busy => 1 | .failed => 2

def xchanWords (x : XChan) : List Nat := [x.state.code, x.top * 2 ^ 22 + x.rb, x.top * 2 ^ 22 + x.re, x.top * 2 ^ 22 + x.wm]

/-- A copy slot: reuse count, state, position reached; then the memory address of the record. -/
def copyWords (c : Ctx) (slot : Nat) : List Nat :=
  let use := sget 0 c.slotUse slot % 128
  match sfind c.copies slot with
  | none => [use, 0]
  | some k => [use + 2 ^ 8 * (match k.state with | .running => 1 | .suspended _ => 2 | .complete => 3 | .aborted => 4 | .failed => 5) + 2 ^ 32 * (k.next % 2 ^ 32), k.base]

/-- The 16,384 words of a saved context. -/
def ctxWords (c : Ctx) : List Nat :=
  ((List.range 8).flatMap fun k => takeWords 64 (strandWords (sget {} c.strands k))) ++
  ((List.range 32).flatMap fun k => numWords 128 (sget 0 c.v k).toNat) ++
  ((List.range 8).flatMap fun k => numWords 128 (sget 0 c.m k).toNat) ++
  ((List.range 8).flatMap fun k => numWords 512 (sget 0 c.q k).toNat) ++
  ((List.range 8).flatMap fun k => numWords 16 (sget 0 c.sat k).toNat) ++
  takeWords 128 ((List.range 8).map (tagWord c.av) ++
    [c.av.vl, c.av.vstart, c.av.mcfg.toNat, c.av.kval.toNat, c.g.toNat] ++ (List.range 5).map fun k => sget 0 c.arrivals k) ++
  ((List.range 16).flatMap fun k => streamWords (sget {} c.streams k)) ++
  ((List.range 32).flatMap fun k => channelWords (sget {} c.chans k)) ++
  ((List.range 16).flatMap fun k => loopWords (sget {} c.loops k)) ++
  takeWords 128 (c.events.flatMap fun (a, b) => [a.toNat, b.toNat]) ++
  ((List.range 16).flatMap fun k => xchanWords (sget {} c.xchans k)) ++
  List.replicate 192 0 ++
  ((List.range 512).flatMap (copyWords c)) ++
  fabricWords c.fabric

/-! ### The backing area (Table 21.7) -/

/-- Virtual address of the backing area of tile `t` of a partition (Table 25.3). -/
def backingBase (s : State) (part t : Nat) : Nat :=
  fieldOf ((s.partition part).word 12) 0 48 + 2 ^ 22 * ((partTiles s part).filter (· < t)).length

/-- Write 64-bit words from a virtual address on. -/
def storeWords (part : Nat) : Nat → List Nat → M Unit
  | _, [] => pure ()
  | va, w :: r => do
    partWrite part va (natLe 8 w)
    storeWords part (va + 8) r

def loadWords (part va n : Nat) : M (List Nat) := (List.range n).mapM fun i => partRead part (va + 8 * i) 8 .read

/-- Write words at an offset of the backing area of tile `t`. -/
def areaStore (part t off : Nat) (ws : List Nat) (s : State) : State := partEnd (storeWords part (backingBase s part t + off) ws) s

/-- CONTEXT_MOVE (R391): the context is written to the tile's backing area. -/
def contextMove (t : Nat) (s : State) : State :=
  let x := s.tile t
  match x.part, x.saved, x.backing with
  | some p, some c, none =>
    let s1 := areaStore p t 0 (ctxWords c) s
    s1.setTile t { s1.tile t with saved := none, backing := some c }
  | _, _, _ => s

def execContextMove (tile : BitVec 10) (s : State) : Host.Outcome State Fault Refusal := .next (contextMove tile.toNat s)

def groupWords (bs : List (BitVec 8)) : List Nat := (List.range (bs.length / 8)).map fun i => leNat ((bs.drop (8 * i)).take 8)

/-- A channel-buffer slot (Table 21.7). -/
def slotWords (e : Element) : List Nat :=
  ((List.range 8).map fun i => fld e.pay (64 * i) 64) ++ [e.seq.toNat + 2 ^ 16 * e.cc.toNat + 2 ^ 32 * e.stile.toNat] ++ List.replicate 7 0

/-- An element read back from its slot. -/
def slotElement (e : Element) (ws : List Nat) : Element :=
  let w := ws.getD 8 0
  { e with pay := BitVec.ofNat 512 (leNat ((ws.take 8).flatMap (natLe 8))), seq := BitVec.ofNat 16 w, cc := BitVec.ofNat 16 (w / 2 ^ 16), stile := BitVec.ofNat 10 (w / 2 ^ 32) }

/-- Store the queue of channel `k`: element `i` in slot 64·k + i of the channel buffer. -/
def storeQueue (part base k : Nat) (q : List Element) : M Unit :=
  for (i, e) in (List.range q.length).zip q do storeWords part (base + 0x20000 + 128 * (64 * k + i)) (slotWords e)

/-- Every element of the queue of channel `k` stands in its slot. -/
def placeQueue (k : Nat) (h : Channel) : Channel :=
  { h with queue := ((List.range h.queue.length).zip h.queue).map fun (i, e) => { e with place := some (64 * k + i) } }

/-- Bring the elements of a queue back that stand in slots; those that have arrived since stay. -/
def loadQueue (part base : Nat) (q : List Element) : M (List Element) :=
  q.mapM fun e => match e.place with
    | none => return e
    | some n => return { slotElement e (← loadWords part (base + 0x20000 + 128 * n) 16) with place := none }

/-- The granules of a stripe, and the physical granule of each in the backing area at `base`. -/
def stripeGranules (s : State) (p base n : Nat) : List (Nat × Nat) :=
  (List.range 32).filterMap fun i => match walk s p (base + 64 * i) with
    | .ok l => some (32 * n + i, leafAddress s p l (base + 64 * i) / 64)
    | .error _ => none

/-- Copy one stripe of a saved context to the backing area and release it: poisoned granules are poisoned there (R396). -/
def evictStripe (p t n : Nat) (s : State) : State :=
  let x := s.tile t
  let base := backingBase s p t + 0x100000 + 2048 * n
  if !x.stripeTaken n || x.evicted.contains n then s
  else partEnd (do
    storeWords p base (groupWords (cellsGet x.spd (2048 * n) 2048))
    modify fun s =>
      let bad := ((stripeGranules s p base n).filter fun (g, _) => x.spdBad g).map (·.2)
      let out := fun (g : Nat) => decide (g / 32 ≠ n)
      { s.setTile t { s.tile t with
          evicted := (s.tile t).evicted ++ [n], spd := (s.tile t).spd.filter fun (a, _) => a / 2048 != n
          spdPoison := x.spdPoison.filter out, spdLatent := x.spdLatent.filter out } with
        poison := s.poison ++ bad.filter (!s.poison.contains ·) }) s

/-- Copy the channel buffer of a saved context to the backing area. -/
def evictChannels (p t : Nat) (s : State) : State :=
  let x := s.tile t
  match x.saved.or x.backing with
  | none => s
  | some c =>
    if x.chEvicted then s
    else partEnd (do
      for (k, h) in c.chans do storeQueue p (backingBase s p t) k h.queue
      modify fun s => s.setTile t (onHeldCtx (fun x => { x with chEvicted := true, ctx := { x.ctx with
        chans := x.ctx.chans.map fun (k, h) => (k, placeQueue k h) } }) (s.tile t))) s

/-- STRIPE_EVICTION (R392): once the partition has been saved. -/
def execStripeEviction (tile : BitVec 10) (stripe : BitVec 11) (chbuf : BitVec 1) (s : State) : Host.Outcome State Fault Refusal :=
  let x := s.tile tile.toNat
  .next (match x.part with
    | none => s
    | some p =>
      if (s.partition p).pre != .saved || !x.halted then s
      else if chbuf = 1 then evictChannels p tile.toNat s else evictStripe p tile.toNat stripe.toNat s)

/-- Bring one stripe back (R393). -/
def refillStripe (p t n : Nat) (s : State) : State :=
  let base := backingBase s p t + 0x100000 + 2048 * n
  if !(s.tile t).evicted.contains n then s
  else partEnd (do
    let ws ← loadWords p base 256
    modify fun s =>
      let bad := ((stripeGranules s p base n).filter fun (_, g) => s.poisoned g).map (·.1)
      s.setTile t { s.tile t with
        evicted := (s.tile t).evicted.filter (· != n), spd := cellsPut (s.tile t).spd (2048 * n) (ws.flatMap (natLe 8))
        spdPoison := (s.tile t).spdPoison ++ bad }) s

/-- Bring the channel buffer back. -/
def refillChannels (p t : Nat) (s : State) : State :=
  let x := s.tile t
  if !x.chEvicted then s
  else partEnd (do
    let m ← x.ctx.chans.mapM fun (k, h) => do return (k, { h with queue := ← loadQueue p (backingBase s p t) h.queue })
    modify fun s => s.setTile t { s.tile t with chEvicted := false, ctx := { (s.tile t).ctx with chans := m } }) s

/-- STRIPE_REFILL (R393): once the context is back. -/
def execStripeRefill (tile : BitVec 10) (stripe : BitVec 11) (chbuf : BitVec 1) (s : State) : Host.Outcome State Fault Refusal :=
  let x := s.tile tile.toNat
  .next (match x.part with
    | none => s
    | some p =>
      if x.still then s
      else if chbuf = 1 then refillChannels p tile.toNat s else refillStripe p tile.toNat stripe.toNat s)

/-! ### Regions and snapshots (R399 to R402) -/

/-- The tiles of tile `t`'s region, those included on which no team has started or whose team has exited (R399). -/
def regionTiles (s : State) (t : Nat) : List Nat :=
  match (s.tile t).team, (s.tile t).part with
  | some m, some p => (regionTeams s t ++ regionSet (s.partition p) m.region.1).eraseDups
  | _, _ => []

/-- Tiles of the region that hold an open send stream to tile `t`. -/
def feeders (s : State) (t : Nat) : List Nat :=
  (regionTeams s t).filter fun u => (s.tile u).held.streams.any fun (_, st) => st.isOpen && st.kind == 4 && decide (st.dtile.toNat = t)

/-- Has wave `w` passed every position of a running fabric that has a linked input? -/
def fabricPassed (f : Fabric) (w : BitVec 16) : Bool :=
  f.pos.all fun (e, p) => (f.insOf e p).isEmpty || (match p.mark with | some m => waveGe m w | none => false)

/-- May tile `t` take snapshot `w` (R401)? -/
def snapshotReady (s : State) (t : Nat) (w : BitVec 16) : Bool :=
  let x := s.tile t
  let running := x.ctx.fabric.code = 2
  let fs := feeders s t
  (match x.wave with | some v => !waveGe v w | none => true) &&
  (!running || fabricPassed x.ctx.fabric w) &&
  fs.all (fun u => match sfind x.marked u with | some m => waveGe m w | none => false) &&
  (running || !fs.isEmpty || (regionTeams s t).any fun u => u != t && (match (s.tile u).wave with | some v => waveGe v w | none => false))

/-- The waves that may be due at tile `t`. -/
def waveCandidates (s : State) (t : Nat) : List (BitVec 16) :=
  let x := s.tile t
  (x.ctx.fabric.pos.filterMap fun (_, p) => p.mark) ++ x.marked.map (·.2) ++ (regionTeams s t).filterMap fun u => (s.tile u).wave

/-- The earliest wave that is due. -/
def dueWave (s : State) (t : Nat) : Option (BitVec 16) :=
  ((waveCandidates s t).filter (snapshotReady s t)).foldl
    (fun b w => match b with | none => some w | some v => if waveGe w v then some v else some w) none

/-- The notices that tile `t` sends along its open send streams into the region (R400). -/
def markerNotices (s : State) (t : Nat) (w : BitVec 16) : List Marker :=
  ((s.tile t).ctx.streams.filter fun (_, st) => st.isOpen && st.kind == 4 && sameRegion s t st.dtile.toNat).map fun (_, st) =>
    { src := t, dst := st.dtile.toNat, wave := w, ahead := (s.flight.filter fun f => decide (f.src = t) && decide (f.dst = st.dtile.toNat)).length }

/-- Does tile `u` hold snapshot `v` of the region of tile `t`? -/
def holdsWave (s : State) (t u : Nat) (v : BitVec 16) : Bool := sameRegion s t u && (s.tile u).snaps.any fun (w, _) => w = v

/-- Record a region's wave when every tile of it holds the snapshot (R401). -/
def recordWave (t : Nat) (w : BitVec 16) (s : State) : State :=
  match (s.tile t).team, (s.tile t).part with
  | some m, some p =>
    if (regionTiles s t).all fun u => holdsWave s t u w then
      let x := s.partition p
      let (c, i) := m.region
      s.setPartition p { x with waves := (c, i, w) :: x.waves.filter fun (d, j, _) => !(d = c && j = i) }
    else s
  | _, _ => s

/-- An undo-log entry (Table 22.3), in the log of tile `t`. -/
def undoWords (e : Undo) : List Nat :=
  let flags := fun (k : Nat) => k + 2 ^ 16 * e.wave.toNat + (if e.exposed then 2 ^ 32 else 0) + 2 ^ 33
  match e.kind with
  | .memory g old => numWords 8 old.toNat ++ [64 * g, flags 0] ++ List.replicate 6 0
  | .spd _ g old => numWords 8 old.toNat ++ [64 * g, flags 1] ++ List.replicate 6 0
  | .arrival a => numWords 8 a.pay.toNat ++ [a.ch.toNat + 2 ^ 5 * a.seq.toNat + 2 ^ 21 * a.stile.toNat + 2 ^ 31 * a.cc.toNat, flags 2] ++ List.replicate 6 0

/-- The snapshot area of tile `t` (Table 22.2): the latest snapshot in slot A, the one before it in slot B, and the undo log, oldest entry
first. -/
def storeArea (p t : Nat) (s : State) : State :=
  let x := s.tile t
  let snap := fun (i off : Nat) (s : State) => match x.snaps[i]? with | some (_, c) => areaStore p t off (ctxWords c) s | none => s
  areaStore p t 0xA0000 (x.undo.reverse.flatMap undoWords) (snap 1 0x80000 (snap 0 0x60000 s))

/-- SNAPSHOT (R401, R402): while no rollback of the region is pending. -/
def snapshot (t : Nat) (s : State) : State :=
  match (s.tile t).team, (s.tile t).part, dueWave s t with
  | some _, some p, some w =>
    if (s.tile t).still || rollbackPending s t then s
    else
      let s1 := haltTile t s
      let x := s1.tile t
      let c := savedCtx x.ctx
      let floor := match x.snaps.head? with | some (v, _) => v | none => w
      let s2 := s1.setTile t { x with ctx := c, snaps := (w, c) :: x.snaps.take 1, wave := some w, undo := x.undo.filter fun u => waveGe u.wave floor }
      storeArea p t (recordWave t w { s2 with markers := s2.markers ++ markerNotices s2 t w })
  | _, _, _ => s

def execSnapshot (tile : BitVec 10) (s : State) : Host.Outcome State Fault Refusal := .next (snapshot tile.toNat s)

/-- MARKER_NOTICE_ARRIVAL (R400): behind the elements that were sent before it. -/
def markerNoticeArrival (t src : Nat) (s : State) : State :=
  match takeFirst (fun m : Marker => decide (m.src = src) && decide (m.dst = t)) s.markers with
  | none => s
  | some (m, r) =>
    if m.ahead ≠ 0 then s
    else
      let s1 := { s with markers := r }
      let x := s1.tile t
      s1.setTile t { x with marked := sput x.marked src m.wave }

def execMarkerNoticeArrival (tile : BitVec 10) (stile : BitVec 10) (s : State) : Host.Outcome State Fault Refusal :=
  .next (markerNoticeArrival tile.toNat stile.toNat s)

/-! ### Uncontained errors (R405) -/

/-- Change a strand where the tile's context stands: in place or saved. -/
def onStrand (t k : Nat) (f : Strand → Strand) (s : State) : State :=
  s.setTile t (onHeldCtx (fun x => x.setStrand k (f (x.strand k))) (s.tile t))

/-- `MCHK` becomes pending for a strand. -/
def addMchk (a : BitVec 56) (y : Strand) : Strand := if y.lives then { y with traps := y.traps ++ [{ cause := cMCHK, tva := a }] } else y

/-- A rollback that was asked for on tile `u` is given up: its error is uncontained (R406). -/
def dropRollback (u : Nat) (s : State) : State :=
  let x := s.tile u
  match x.rollback with
  | none => s
  | some (k, b) => (s.setTile u { x with rollback := none }).log x.part 3 k.toNat u 0 b.toNat

/-- `MCHK` for every strand of the team on tile `u`, in whatever place its context stands. -/
def mchkTile (a : BitVec 56) (s : State) (u : Nat) : State :=
  let s1 := dropRollback u s
  let x := s1.tile u
  let top := match x.team with | some m => m.ns | none => 0
  s1.setTile u (onHeldCtx (fun x => { x with ctx := { x.ctx with strands := x.ctx.strands.map fun (k, y) => (k, if k ≤ top then addMchk a y else y) } }) x)

/-- An uncontained error of tile `t`'s region. -/
def uncontained (t src : Nat) (a : BitVec 56) (s : State) : State :=
  (regionTeams s t).foldl (mchkTile a) (s.log (s.tile t).part 3 src t 0 a.toNat)

/-! ### Rollback (R403, R404, R340) -/

/-- The region's highest complete wave. -/
def regionWave (s : State) (t : Nat) : Option (BitVec 16) :=
  match (s.tile t).team, (s.tile t).part with
  | some m, some p => ((s.partition p).waves.find? fun (c, i, _) => c = m.region.1 && i = m.region.2).map fun (_, _, w) => w
  | _, _ => none

/-- Has tile `x` lost an undo-log entry since `v`? -/
def Tile.undoOverflowed (x : Tile) (v : BitVec 16) : Bool := match x.undoLost with | some w => waveGe w v | none => false

/-- May the region roll back to wave `v` (R403)?  A tile whose team has exited holds no snapshot any more. -/
def rollbackOk (s : State) (t : Nat) (v : BitVec 16) : Bool :=
  (regionTiles s t).all fun u =>
    let x := s.tile u
    holdsWave s t u v && !x.fenced && !x.undoOverflowed v && x.undo.all fun e => !(e.exposed && waveGe e.wave v)

/-- Put an entry into a list of entries, the newest first. -/
def insertNewest (e : Undo) : List Undo → List Undo
  | [] => [e]
  | f :: r => if f.time ≤ e.time then e :: f :: r else f :: insertNewest e r

/-- Entries of a region's logs since `v`, newest first. -/
def undoSince (s : State) (ts : List Nat) (v : BitVec 16) : List Undo :=
  (ts.flatMap fun u => (s.tile u).undo.filter fun e => waveGe e.wave v).foldr insertNewest []

/-- A list of poisoned granules with `g` in it or not. -/
def markGranule (l : List Nat) (g : Nat) (bad : Bool) : List Nat := let r := l.filter (· != g); if bad then r ++ [g] else r

/-- The old contents of a scratchpad granule: in place, or where an eviction has put its stripe (R392). -/
def undoSpd (h g : Nat) (bs : List (BitVec 8)) (bad : Bool) (s : State) : State :=
  let x := s.tile h
  match x.part, x.evicted.contains (g / 32) with
  | some p, true => areaStore p h (0x100000 + 64 * g) (groupWords bs) s
  | _, _ => s.setTile h { x with spd := cellsPut x.spd (64 * g) bs, spdPoison := markGranule x.spdPoison g bad, spdLatent := markGranule x.spdLatent g false }

/-- Give one granule its old contents. -/
def undoOne (s : State) (e : Undo) : State :=
  match e.kind with
  | .memory g old =>
    let s1 := physPut s {} (64 * g) (natLe 64 old.toNat)
    { s1 with poison := markGranule s1.poison g e.bad }
  | .spd h g old => undoSpd h g (natLe 64 old.toNat) e.bad s
  | .arrival _ => s

/-- Gains halved after a stream-loss rollback (R340). -/
def halveGains (l : Loop) : Loop :=
  let r := l.record
  let w := if r.sh < 15 then setField l.w0 41 4 (r.sh + 1) else setField (setField l.w0 33 4 (r.kp / 2)) 37 4 (r.ki / 2)
  { l with w0 := w }

/-- A loop after a rollback: what the snapshot holds of it, with its present binding and gains (Table 18.3, R340). -/
def restoredLoop (now old : Loop) : Loop :=
  let l := { now with integ := old.integ, wp := old.wp, wc := old.wc, next := old.next, frozen := old.frozen, lossFrozen := false }
  if now.bound && now.lossFrozen then { halveGains l with next := l.record.period } else l

/-- A channel after a rollback (Table 18.3). -/
def restoredChan (now old : Channel) : Channel := { old with entry := now.entry, withheld := none }

/-- A stream register after a rollback: HW keeps the numbers that it has sent (R404). -/
def restoredStream (now old : Stream) : Stream :=
  { old with hw := match now.hw with | some h => (if waveGe h now.seq then some h else some now.seq) | none => some now.seq }

/-- A strand after a rollback: the cancels that have reached it stay (R406). -/
def restoredStrand (now old : Strand) : Strand := { old with cancels := now.cancels }

/-- A copy that a restore lets go on: a suspended one walks again (R386, R393). -/
def Copy.goOn (k : Copy) : Copy :=
  match k.state with
  | .suspended _ => { k with state := .running, cause := 0, sub := 0, fault := 0 }
  | _ => k

/-- The context that a rollback restores, for a team with slots up to `top`; other strands of the tile belong to no region (R399). -/
def rolledCtx (top : Nat) (now old : Ctx) : Ctx :=
  { old with
    strands := (now.strands.filter fun (k, _) => decide (top < k)).foldl (fun m (k, y) => sput m k y)
      ((old.strands.filter fun (k, _) => decide (k ≤ top)).map fun (k, y) => (k, restoredStrand (sget {} now.strands k) y))
    streams := old.streams.map fun (k, st) => (k, restoredStream (sget {} now.streams k) st)
    chans := now.chans.map fun (k, h) => (k, restoredChan h (sget {} old.chans k))
    loops := now.loops.map fun (k, l) => (k, restoredLoop l (sget {} old.loops k))
    copies := old.copies.map fun (k, y) => (k, y.goOn) }

/-- The arrivals of a tile's undo log since `v`, oldest first. -/
def arrivalsSince (x : Tile) (v : BitVec 16) : List Element :=
  (x.undo.filter fun e => waveGe e.wave v).reverse.filterMap fun e => match e.kind with | .arrival a => some a | _ => none

/-- A tile with snapshot `c` of wave `v` restored, wherever its context stands, and its arrivals since then received again. -/
def restoredTile (v : BitVec 16) (c : Ctx) (x : Tile) : Tile :=
  let top := match x.team with | some m => m.ns | none => 0
  let x1 := onHeldCtx (fun y => { y with ctx := rolledCtx top y.ctx c }) x
  let x2 := { x1 with
    queue := x.queue.filter fun e => decide (top < e.slot), rollback := none, wave := some v
    snaps := x.snaps.filter fun (w, _) => !waveGe w (v + 1)
    marked := x.marked.map fun (k, w) => (k, if waveGe w v then v else w)
    undo := x.undo.filter fun e => !waveGe e.wave v || (match e.kind with | .arrival _ => true | _ => false) }
  (arrivalsSince x v).foldl (fun x e => onHeldCtx (arrive · e) x) x2

/-- The rate message that loop `k` of tile `t` sends (R342). -/
def loopMessage (t k : Nat) (l : Loop) : RateMsg := { ptile := l.record.ptile, ctile := t, loop := k, gen := l.gen, weight := l.wp }

/-- Tile `u` restores snapshot `v` (R404).  A loop whose halved gains leave it inert actuates no weight any more (R340, R343).  The accesses of a
fabric that stands in place are performed again (R375); those of a saved one wait for its restoration. -/
def rollTile (v : BitVec 16) (s : State) (u : Nat) : State :=
  let x := s.tile u
  match x.snaps.find? fun (w, _) => w = v with
  | none => s
  | some (_, c) =>
    let now := x.held
    let gone := (now.streams.filterMap fun (_, st) => st.rid).filter fun r => !(c.streams.any fun (_, st) => st.rid = some r)
    let x1 := restoredTile v c x
    let was := fun k => sget ({} : Loop) now.loops k
    let msgs := (x1.held.loops.filter fun (k, l) => l.live && (was k).lossFrozen).map fun (k, l) => loopMessage u k l
    let quiet := (x1.held.loops.filter fun (k, l) => l.bound && l.record.inert && (was k).live).map (·.1)
    let s1 := quiet.foldl (fun s k => dropProducer s u k) (gone.foldl releaseRid (s.setTile u x1))
    let s2 := { s1 with rates := s1.rates ++ msgs }
    if x.still then s2 else resumeFabric u s2

/-- ROLLBACK (R404): of the region of a tile that has asked for one.  The error of a tile whose team has gone is uncontained. -/
def rollbackRegion (t : Nat) (s : State) : State :=
  let x := s.tile t
  match x.rollback, x.part with
  | some (k, a), some p =>
    if x.team.isNone then dropRollback t s
    else
      let s0 := s.setTile t { x with rollback := none }
      match regionWave s0 t with
      | none => uncontained t k.toNat a s0
      | some v =>
        if !rollbackOk s0 t v then uncontained t k.toNat a s0
        else
          let ts := regionTeams s0 t
          let s1 := (undoSince s0 ts v).foldl undoOne s0
          let s2 := { s1 with
            flight := s1.flight.filter fun f => !(ts.contains f.src && ts.contains f.dst)
            markers := s1.markers.filter fun m => !(ts.contains m.src && waveGe m.wave (v + 1)) }
          ts.foldl (fun s u => storeArea p u s) ((ts.foldl (rollTile v) s2).log x.part 2 k.toNat t v.toNat a.toNat)
  | _, _ => s

def execRollback (tile : BitVec 10) (s : State) : Host.Outcome State Fault Refusal := .next (rollbackRegion tile.toNat s)

/-- Complete a rollback that is pending in tile `t`'s region: a pre-emption saves the snapshot that it restores, and a resumption follows
it (R406). -/
def completeRollback (t : Nat) (s : State) : State := (regionTeams s t).foldl (fun s u => rollbackRegion u s) s

/-! ### Consumption of an error (R396) -/

/-- The error that slot `k` of tile `t` consumes is classed (Table 22.1). -/
def classError (t k src : Nat) (a : BitVec 56) (s : State) : State :=
  let x := s.tile t
  let member := match x.team with | some m => decide (k ≤ m.ns) | none => false
  if !member then onStrand t k (addMchk a) (s.log x.part 3 src t 0 a.toNat)
  else if rollbackPending s t then uncontained t src a s
  else match regionWave s t with
    | none => uncontained t src a s
    | some v => if rollbackOk s t v then s.setTile t { x with rollback := some (BitVec.ofNat 8 src, a) } else uncontained t src a s

/-- ERROR_CONSUMED (R396): slot 0 stands for the tile's engines.  The second mismatch of a watch lane withholds the instruction's unchecked
results: the lead strand stands at it (R398). -/
def errorConsumed (t k g src : Nat) (s : State) : State :=
  let s1 := match takeFirst (fun c : Nat × Nat × Nat => c = (t, k, g)) s.consumed with
    | some (_, r) => { s with consumed := r }
    | none => s
  classError t k src (BitVec.ofNat 56 (64 * g)) (if src = 6 && !(s1.tile t).still then standAtVcp t s1 else s1)

def execErrorConsumed (tile : BitVec 10) (slot : BitVec 3) (granule : BitVec 50) (src : BitVec 8) (s : State) : Host.Outcome State Fault Refusal :=
  .next (errorConsumed tile.toNat slot.toNat granule.toNat src.toNat s)

/-- An error that a check has corrected: a single bit of an SRAM array, or a watch lane's mismatch whose replay agrees (R395, R398, R408). -/
def errorCorrected (t src a : Nat) (s : State) : State := s.log (s.tile t).part 0 src t 0 a

/-- An uncorrectable error that an eviction or a write-back finds: the granule is poisoned (R395). -/
def errorPoisoned (t g : Nat) (s : State) : State :=
  let s1 := s.log (s.tile t).part 1 0 t 0 (64 * g)
  { s1 with poison := markGranule s1.poison g true }

/-- An uncorrectable error arises in a granule of the tile's scratchpad (R408). -/
def spdError (t g : Nat) (s : State) : State :=
  let x := s.tile t
  s.setTile t { x with spdLatent := markGranule x.spdLatent g true }

/-! ### Halting and resumption (R388, R393, R406, R428) -/

/-- TILE_HALT (R388, R375): the fabric, the copies and the loops stand as they are. -/
def tileHalt (t : Nat) (s0 : State) : State :=
  let s := completeRollback t s0
  let x := s.tile t
  match x.part with
  | none => s
  | some p =>
    if (s.partition p).pre != .halting || x.still then s
    else
      let s1 := haltTile t s
      s1.setTile t { s1.tile t with halted := true }

def execTileHalt (tile : BitVec 10) (s : State) : Host.Outcome State Fault Refusal := .next (tileHalt tile.toNat s)

/-- Do the saved stripes of a tile lie below its capacity at the current point? -/
def stripesFit (s : State) (t : Nat) : Bool :=
  let x := s.tile t
  x.regions.all fun r => decide (r.base + r.stripes ≤ x.capAt s.opcur.toNat)

/-- PART_RESUME (R393, R428, R434): it waits for a downward step in progress. -/
def partResume (part : Nat) (s : State) : State :=
  let x := s.partition part
  if x.sup.isNone || x.pre != .saved then s.answer 4
  else if !(partTiles s part).all (stripesFit s) then s.answer 3
  else s.setPartition part { x with pre := .resuming }

/-- A restored context: copies go on, loops sample T cycles later (R393). -/
def resumedCtx (c : Ctx) : Ctx :=
  { c with
    copies := c.copies.map fun (k, y) => (k, y.goOn)
    loops := c.loops.map fun (k, l) => (k, if l.bound then { l with next := l.record.period } else l) }

/-- The loops of tile `t` that are bound, with the messages they send. -/
def boundMessages (t : Nat) (c : Ctx) : List RateMsg := (c.loops.filter fun (_, l) => l.live).map fun (k, l) => loopMessage t k l

/-- CONTEXT_RESTORE (R393): behind a rollback of the region that is still to complete (R406). -/
def contextRestore (t : Nat) (s00 : State) : State :=
  match (s00.tile t).part with
  | none => s00
  | some p =>
    if (s00.partition p).pre != .resuming || !(s00.tile t).halted then s00
    else
      let s := completeRollback t s00
      let x := s.tile t
      match x.saved.or x.backing with
      | none => s
      | some c =>
        let s1 := s.setTile t { x with ctx := resumedCtx c, saved := none, backing := none, halted := false }
        let s2 := resumeFabric t { s1 with rates := s1.rates ++ boundMessages t c }
        if (partTiles s2 p).all fun u => !(s2.tile u).halted || (s2.tile u).fenced then (s2.setPartition p { s2.partition p with pre := .running }).answer 0
        else s2

def execContextRestore (tile : BitVec 10) (s : State) : Host.Outcome State Fault Refusal := .next (contextRestore tile.toNat s)

end Sys2Proof.Machine
end

