-- ==== Sys2Proof/Machine/Sha.lean ====
section
/-! DEFINITION. SHA-256 (FIPS 180-4), which R436 to R439 name: over bytes, with a 256-bit result whose first byte is the highest.
The constants are computed from their definition: fractional bits of the square and cube roots of the first primes. -/

namespace Sys2Proof.Machine.Sha

/-- The largest x below 2^n with x^k ≤ m. -/
def root (k m : Nat) : Nat → Nat → Nat
  | 0, x => x
  | n + 1, x => root k m n (if (x + 2 ^ n) ^ k ≤ m then x + 2 ^ n else x)

def isPrime (n : Nat) : Bool := decide (2 ≤ n) && (List.range n).all fun d => d < 2 || n % d != 0

/-- The first 64 primes. -/
def primes : List Nat := (List.range 312).filter isPrime

def roundConst (p : Nat) : BitVec 32 := BitVec.ofNat 32 (root 3 (p * 2 ^ 96) 40 0)
def startConst (p : Nat) : BitVec 32 := BitVec.ofNat 32 (root 2 (p * 2 ^ 64) 40 0)

/-- The round constants and the initial hash value. -/
def kTable : List (BitVec 32) := primes.map roundConst
def h0 : List (BitVec 32) := (primes.take 8).map startConst

def bigSigma0 (x : BitVec 32) : BitVec 32 := x.rotateRight 2 ^^^ x.rotateRight 13 ^^^ x.rotateRight 22
def bigSigma1 (x : BitVec 32) : BitVec 32 := x.rotateRight 6 ^^^ x.rotateRight 11 ^^^ x.rotateRight 25
def smallSigma0 (x : BitVec 32) : BitVec 32 := x.rotateRight 7 ^^^ x.rotateRight 18 ^^^ (x >>> 3)
def smallSigma1 (x : BitVec 32) : BitVec 32 := x.rotateRight 17 ^^^ x.rotateRight 19 ^^^ (x >>> 10)

/-- Extend the message schedule by one word; `w` holds the words so far, newest first. -/
def nextWord (w : List (BitVec 32)) : List (BitVec 32) :=
  (smallSigma1 (w.getD 1 0) + w.getD 6 0 + smallSigma0 (w.getD 14 0) + w.getD 15 0) :: w

/-- The 64 words of a block's schedule. -/
def schedule (b : List (BitVec 32)) : List (BitVec 32) := ((List.range 48).foldl (fun w _ => nextWord w) b.reverse).reverse

/-- One round on the working variables a to h. -/
def round (v : List (BitVec 32)) (k w : BitVec 32) : List (BitVec 32) :=
  let a := v.getD 0 0
  let b := v.getD 1 0
  let c := v.getD 2 0
  let e := v.getD 4 0
  let f := v.getD 5 0
  let g := v.getD 6 0
  let t1 := v.getD 7 0 + bigSigma1 e + ((e &&& f) ^^^ (~~~e &&& g)) + k + w
  let t2 := bigSigma0 a + ((a &&& b) ^^^ (a &&& c) ^^^ (b &&& c))
  [t1 + t2, a, b, c, v.getD 3 0 + t1, e, f, g]

def compress (h b : List (BitVec 32)) : List (BitVec 32) :=
  let v := (kTable.zip (schedule b)).foldl (fun v (k, w) => round v k w) h
  List.zipWith (· + ·) h v

/-- Big-endian number of a byte list, and the `n` bytes of a number, highest first. -/
def beNat (bs : List (BitVec 8)) : Nat := bs.foldl (fun x b => 256 * x + b.toNat) 0
def beBytes (n x : Nat) : List (BitVec 8) := (natLe n x).reverse

/-- The message with its padding. -/
def pad (m : List (BitVec 8)) : List (BitVec 8) :=
  m ++ [0x80] ++ List.replicate ((119 - m.length % 64) % 64) 0 ++ beBytes 8 (8 * m.length)

def blocks : Nat → List (BitVec 8) → List (List (BitVec 32))
  | 0, _ => []
  | n + 1, bs => ((List.range 16).map fun i => BitVec.ofNat 32 (beNat ((bs.drop (4 * i)).take 4))) :: blocks n (bs.drop 64)

def sha256 (m : List (BitVec 8)) : BitVec 256 :=
  let p := pad m
  BitVec.ofNat 256 (((blocks (p.length / 64) p).foldl compress h0).foldl (fun x w => x * 2 ^ 32 + w.toNat) 0)

end Sys2Proof.Machine.Sha
end

