-- ==== Sys2Proof/Machine/Slh.lean ====
section
/-! DEFINITION. SLH-DSA-SHA2-128s (PRESUMED: FIPS 205, pure signatures with an empty context; log 116), which R437 and R439 name: hash
values of 16 bytes, seven layers of trees of height 9, Winternitz chains of length 16, and 14 trees of height 12 for the message. -/

namespace Sys2Proof.Machine.Slh

abbrev Bytes : Type := List (BitVec 8)

/-- A hash address: layer, tree, type, and the three words that depend on the type. -/
structure Address where
  layer : Nat := 0
  tree  : Nat := 0
  kind  : Nat := 0
  a     : Nat := 0
  b     : Nat := 0
  c     : Nat := 0
  deriving DecidableEq, Repr

/-- The compressed address, 22 bytes. -/
def Address.bytes (x : Address) : Bytes :=
  Sha.beBytes 1 x.layer ++ Sha.beBytes 8 x.tree ++ Sha.beBytes 1 x.kind ++ Sha.beBytes 4 x.a ++ Sha.beBytes 4 x.b ++ Sha.beBytes 4 x.c

def hashBytes (m : Bytes) : Bytes := Sha.beBytes 32 (Sha.sha256 m).toNat

/-- The tweakable hash functions F, H and T, and PRF with the secret seed as its message. -/
def tweak (seed : Bytes) (x : Address) (m : Bytes) : Bytes := (hashBytes (seed ++ List.replicate 48 0 ++ x.bytes ++ m)).take 16

/-- The first `n` digits of `b` bits of a byte string, the highest first. -/
def digits (b n : Nat) (m : Bytes) : List Nat := (List.range n).map fun i => Sha.beNat m / 2 ^ (8 * m.length - b * (i + 1)) % 2 ^ b

/-- A byte string as values of 16 bytes. -/
def values : Nat → Bytes → List Bytes
  | 0, _ => []
  | n + 1, m => m.take 16 :: values n (m.drop 16)

/-! ### One-time signatures: 35 chains -/

/-- The 32 digits of a value and the 3 of its checksum. -/
def chainDigits (m : Bytes) : List Nat :=
  let d := digits 4 32 m
  d ++ digits 4 3 (Sha.beBytes 2 (16 * (d.map fun x => 15 - x).sum))

/-- A chain from place `i` on by `n` places. -/
def chain (seed : Bytes) (x : Address) (i n : Nat) (v : Bytes) : Bytes := (List.range n).foldl (fun v j => tweak seed { x with c := i + j } v) v

/-- The values of the chains, each moved on from place `from k` to place `to k`, `k` its digit. -/
def chains (seed : Bytes) (x : Address) (start stop : Nat → Nat) (ds : List Nat) (vs : List Bytes) : List Bytes :=
  (ds.zip vs).mapIdx fun j (k, v) => chain seed { x with b := j } (start k) (stop k - start k) v

def chainRoot (seed : Bytes) (x : Address) (vs : List Bytes) : Bytes := tweak seed { x with kind := 1, b := 0, c := 0 } vs.flatten

def chainSecrets (secret seed : Bytes) (x : Address) : List Bytes :=
  (List.range 35).map fun j => tweak seed { x with kind := 5, b := j, c := 0 } secret

def oneTimeKey (secret seed : Bytes) (x : Address) : Bytes :=
  chainRoot seed x (chains seed x (fun _ => 0) (fun _ => 15) (List.replicate 35 0) (chainSecrets secret seed x))

def oneTimeSign (secret seed : Bytes) (x : Address) (m : Bytes) : List Bytes :=
  chains seed x (fun _ => 0) (fun k => k) (chainDigits m) (chainSecrets secret seed x)

def oneTimeFromSig (seed : Bytes) (x : Address) (sig : List Bytes) (m : Bytes) : Bytes :=
  chainRoot seed x (chains seed x (fun k => k) (fun _ => 15) (chainDigits m) sig)

/-! ### Hash trees -/

/-- Node `i` at height `z`. -/
def node (seed : Bytes) (x : Address) (leaf : Nat → Bytes) : Nat → Nat → Bytes
  | 0, i => leaf i
  | z + 1, i => tweak seed { x with b := z + 1, c := i } (node seed x leaf z (2 * i) ++ node seed x leaf z (2 * i + 1))

/-- The siblings on the way up from leaf `i` of a tree of height `n`. -/
def path (seed : Bytes) (x : Address) (leaf : Nat → Bytes) (n i : Nat) : List Bytes :=
  (List.range n).map fun z => node seed x leaf z (i / 2 ^ z ^^^ 1)

/-- The root from the node `v` with index `i` at height `z` and its siblings. -/
def climb (seed : Bytes) (x : Address) : Nat → Nat → Bytes → List Bytes → Bytes
  | _, _, v, [] => v
  | z, i, v, w :: r => climb seed x (z + 1) (i / 2) (tweak seed { x with b := z + 1, c := i / 2 } (if i % 2 = 0 then v ++ w else w ++ v)) r

/-! ### The hypertree -/

def keyLeaf (secret seed : Bytes) (layer tree i : Nat) : Bytes := oneTimeKey secret seed { layer := layer, tree := tree, a := i }

def layerRoot (secret seed : Bytes) (layer tree : Nat) : Bytes :=
  node seed { layer := layer, tree := tree, kind := 2 } (keyLeaf secret seed layer tree) 9 0

def layerFromSig (seed : Bytes) (layer tree i : Nat) (sig : List Bytes) (m : Bytes) : Bytes :=
  climb seed { layer := layer, tree := tree, kind := 2 } 0 i (oneTimeFromSig seed { layer := layer, tree := tree, a := i } (sig.take 35) m) (sig.drop 35)

/-- The root over `n` layers from `layer` up. -/
def hyperFromSig (seed : Bytes) : Nat → Nat → Nat → Nat → List Bytes → Bytes → Bytes
  | 0, _, _, _, _, m => m
  | n + 1, layer, tree, i, sig, m =>
    hyperFromSig seed n (layer + 1) (tree / 512) (tree % 512) (sig.drop 44) (layerFromSig seed layer tree i (sig.take 44) m)

def hyperSign (secret seed : Bytes) : Nat → Nat → Nat → Nat → Bytes → List Bytes
  | 0, _, _, _, _ => []
  | n + 1, layer, tree, i, m =>
    oneTimeSign secret seed { layer := layer, tree := tree, a := i } m ++
    path seed { layer := layer, tree := tree, kind := 2 } (keyLeaf secret seed layer tree) 9 i ++
    hyperSign secret seed n (layer + 1) (tree / 512) (tree % 512) (layerRoot secret seed layer tree)

/-! ### The message -/

/-- What the digest of a message selects: the leaves of the 14 trees, the bottom tree of the hypertree, and its leaf. -/
def selection (r seed root m : Bytes) : List Nat × Nat × Nat :=
  let d := hashBytes (r ++ seed ++ hashBytes (r ++ seed ++ root ++ m) ++ [0, 0, 0, 0])
  (digits 12 14 (d.take 21), Sha.beNat ((d.drop 21).take 7) % 2 ^ 54, Sha.beNat ((d.drop 28).take 2) % 2 ^ 9)

def forestLeafSecret (secret seed : Bytes) (x : Address) (i : Nat) : Bytes := tweak seed { x with kind := 6, b := 0, c := i } secret

def forestLeaf (secret seed : Bytes) (x : Address) (i : Nat) : Bytes := tweak seed { x with b := 0, c := i } (forestLeafSecret secret seed x i)

def forestSign (secret seed : Bytes) (x : Address) (ds : List Nat) : List Bytes :=
  (ds.mapIdx fun j k => forestLeafSecret secret seed x (j * 2 ^ 12 + k) :: path seed x (forestLeaf secret seed x) 12 (j * 2 ^ 12 + k)).flatten

/-- The 14 roots, 13 values of the signature each. -/
def forestRoots (seed : Bytes) (x : Address) (ds : List Nat) (sig : List Bytes) : List Bytes :=
  ds.mapIdx fun j k =>
    let v := sig.drop (13 * j)
    climb seed x 0 (j * 2 ^ 12 + k) (tweak seed { x with b := 0, c := j * 2 ^ 12 + k } (v.headD [])) ((v.drop 1).take 12)

def forestFromSig (seed : Bytes) (x : Address) (ds : List Nat) (sig : List Bytes) : Bytes :=
  tweak seed { x with kind := 4, b := 0, c := 0 } (forestRoots seed x ds sig).flatten

def forestAddress (tree i : Nat) : Address := { tree := tree, kind := 3, a := i }

/-- A pure signature's message with an empty context. -/
def framed (m : Bytes) : Bytes := 0 :: 0 :: m

/-- Does the 7,856-byte signature of the message verify under the 32-byte key? -/
def verifies (key m sig : Bytes) : Bool :=
  let seed := key.take 16
  let vs := values 491 sig
  let (ds, tree, i) := selection (sig.take 16) seed (key.drop 16) (framed m)
  decide (sig.length = 7856) &&
  hyperFromSig seed 7 0 tree i (vs.drop 183) (forestFromSig seed (forestAddress tree i) ds ((vs.drop 1).take 182)) == key.drop 16

def hmac (key m : Bytes) : Bytes :=
  let k := key ++ List.replicate (64 - key.length) 0
  hashBytes (k.map (· ^^^ 0x5C) ++ hashBytes (k.map (· ^^^ 0x36) ++ m))

/-- The public key of a secret seed and a public seed. -/
def publicKey (secret seed : Bytes) : Bytes := seed ++ layerRoot secret seed 6 0

/-- The signature of a message by the key with that secret seed, secret prefix and public seed, with 16 bytes of randomness. -/
def sign (secret pre seed random m : Bytes) : Bytes :=
  let r := (hmac pre (random ++ framed m)).take 16
  let (ds, tree, i) := selection r seed (layerRoot secret seed 6 0) (framed m)
  let f := forestSign secret seed (forestAddress tree i) ds
  r ++ f.flatten ++ (hyperSign secret seed 7 0 tree i (forestFromSig seed (forestAddress tree i) ds f)).flatten

end Sys2Proof.Machine.Slh
end

