-- ==== Sys2Proof/Machine/Manage.lean ====
section
/-! DEFINITION. Reliability events of links, memories and tiles (R407, R408, R413, R430), the management controller's commands
(R431 to R439) and their order (R434), char maps' refreshes (R421) and device reset (R437). -/

namespace Sys2Proof.Machine

/-! ### Reliability events (R407, R408, R413, R430) -/

/-- A record of the device's log with the count of merged identical records (Table 22.8). -/
def logDevice (cls src count : Nat) (s : State) : State :=
  let r := logRecord s cls src 0x3FF 0 0 0
  { s with errlog := keepNewest logCapacity (s.errlog ++ [(r.1, r.2.1, r.2.2.1, BitVec.ofNat 64 (count % 2 ^ 32))]) }

/-- PERMIT_AUDIT (R407): repairs `lost` permits and changes nothing else. -/
def execPermitAudit (lost : BitVec 16) (s : State) : Host.Outcome State Fault Refusal :=
  .next (if lost = 0 then s else logDevice 4 7 lost.toNat s)

/-- FLIT_CRC_RETRY (R408): up to eight retries correct the error; past them it is uncorrectable and the tile consumes it. -/
def execFlitCrcRetry (tile : BitVec 10) (tries : BitVec 4) (s : State) : Host.Outcome State Fault Refusal :=
  .next (if tries.toNat ≤ 8 then s.log (s.tile tile.toNat).part 0 2 tile.toNat 0 0 else classError tile.toNat 0 2 0 s)

/-- UCIE_LANE_REPAIR (R408): a link beyond repair carries no traffic. -/
def execUcieLaneRepair (link : BitVec 4) (ok : BitVec 1) (s : State) : Host.Outcome State Fault Refusal :=
  let s1 := logDevice 0 3 1 s
  .next (if ok = 1 ∨ s1.ucieDown.contains link.toNat then s1 else { s1 with ucieDown := s1.ucieDown ++ [link.toNat] })

/-- The partition whose quota holds a physical address. -/
def ownerOf (s : State) (pa : Nat) : Option Nat := (s.parts.find? fun (_, x) => x.sup.isSome && pageInQuota x pa 1).map (·.1)

/-- PATROL_SCRUB (R395, R408): `bad` is 0 for a sound granule, 1 for a corrected error, else the granule becomes poisoned. -/
def patrolScrub (g : Nat) (bad : BitVec 2) (s : State) : State :=
  let p := ownerOf s (64 * g)
  if bad = 0 then s
  else if bad = 1 then s.log p 0 1 0x3FF 0 (64 * g)
  else { s.log p 1 1 0x3FF 0 (64 * g) with poison := if s.poison.contains g then s.poison else s.poison ++ [g] }

def execPatrolScrub (granule : BitVec 50) (bad : BitVec 2) (s : State) : Host.Outcome State Fault Refusal := .next (patrolScrub granule.toNat bad s)

/-- The launches that a failed tile stops: those of its team's region, or, where no team runs, of the regions whose tile set has it; and those that
have still to start a team on it. -/
def fencedLaunches (x : Partition) (m : Option Team) (t : Nat) : List Launch :=
  x.launches.filter fun l => l.pending.contains t || match m with
    | some m => decide (l.region = m.region)
    | none => (regionSet x l.region.1).contains t

/-- TILE_FENCE (R413): the launches of the tile's region are cancelled. -/
def tileFence (t : Nat) (s : State) : State :=
  let x := s.tile t
  let s1 := s.setTile t { x with fenced := true }
  match x.part with
  | some p => (fencedLaunches (s.partition p) x.team t).foldl (fun s l => cancelCounter p l.cid (l.cid.zeroExtend 64) s) s1
  | none => s1

def execTileFence (tile : BitVec 10) (s : State) : Host.Outcome State Fault Refusal := .next (tileFence tile.toNat s)

/-- CHAR_MAP_REFRESH (R421): bits are set at the point and at every deeper one, and the lines in ways that fail now are written back (R194); a
tile that falls short is reported as failed and fenced. -/
def charMapRefresh (t p : Nat) (fails : BitVec 1600) (tcw : BitVec 128) (l1w : BitVec 8) (s : State) : State :=
  let x := s.tile t
  let cur := s.opcur.toNat
  if x.team.isSome || !x.regions.isEmpty then s
  else
    let s1 := if p ≤ cur then (linesInWays x tcw).foldl (fun s l => evictFlushed t l s) s else s
    let s2 := s1.setTile t (markedTile p cur fails tcw l1w (s1.tile t))
    if charMapSound (s2.tile t) then s2 else tileFence t (s2.log x.part 3 0 t 0 0)

def execCharMapRefresh (tile : BitVec 10) (point : BitVec 2) (fails : BitVec 1600) (tcw : BitVec 128) (l1w : BitVec 8) (s : State) :
    Host.Outcome State Fault Refusal := .next (charMapRefresh tile.toNat point.toNat fails tcw l1w s)

/-- HBM_CHANNEL_FAILURE (R413): every granule that the channel holds is poisoned. -/
def execHbmChannelFailure (channel : BitVec 8) (s : State) : Host.Outcome State Fault Refusal :=
  .next (if s.hbmDown.contains channel.toNat then s else logDevice 1 1 1 { s with hbmDown := s.hbmDown ++ [channel.toNat] })

/-- CXL_COMPLETION_TIMEOUT (R430, Table 22.5): an access that ends without its completion is an uncorrectable error of its agent. -/
def execCxlCompletionTimeout (tile : BitVec 10) (slot : BitVec 3) (s : State) : Host.Outcome State Fault Refusal :=
  .next (classError tile.toNat slot.toNat 4 0 s)

/-- Does the device have the port, and does the port support the width: port 0 is the host port, 1 to 8 the peer ports (R1, R6, Table 25.1)? -/
def portWidth (port width : Nat) : Bool :=
  (port = 0 && (width = 4 || width = 8 || width = 16)) || (1 ≤ port && port ≤ 8 && width = 16)

/-- LINK_TRAINING (R430): the width that a port trained to. -/
def execLinkTraining (port : BitVec 4) (width : BitVec 5) (ok : BitVec 1) (s : State) : Host.Outcome State Fault Refusal :=
  .next (if 8 < port.toNat then s
    else { s with ports := if ok = 1 && portWidth port.toNat width.toNat then sput s.ports port.toNat width.toNat else sdel s.ports port.toNat })

/-! ### Measurement (R439) -/

/-- Mn := SHA-256(Mn ‖ SHA-256(data)). -/
def extend (n : Nat) (data : List (BitVec 8)) (s : State) : State :=
  let old := Sha.beBytes 32 (sget 0 s.meas n).toNat
  { s with meas := sput s.meas n (Sha.sha256 (old ++ Sha.beBytes 32 (Sha.sha256 data).toNat)) }

/-- A char map slot (Table 24.2), 256 bytes. -/
def charSlot (x : Tile) (p : Nat) : List (BitVec 8) :=
  natLe 200 (sget 0 x.fails p).toNat ++ natLe 16 (tcAt x p).toNat ++ natLe 1 (l1At x p).toNat ++ List.replicate 7 0 ++
  natLe 2 (x.capAt p) ++ List.replicate 30 0

/-- A tile's char map record. -/
def charRecord (x : Tile) : List (BitVec 8) := (List.range 4).flatMap (charSlot x)

/-- A digest as 64-bit words, its bytes in order. -/
def digestWords (d : BitVec 256) : List Word := (groupWords (Sha.beBytes 32 d.toNat)).map (BitVec.ofNat 64)

def measureWords (s : State) : List Word := (List.range 8).flatMap fun n => digestWords (sget 0 s.meas n)

/-- MEASURE (R439). -/
def measureAnswer (s : State) : State := { s with mbox := 0 :: measureWords s }

/-- The DEV_CONFIG state as words. -/
def configWords (s : State) : List Word :=
  (s.windows.flatMap fun w => [BitVec.ofNat 64 w.base, BitVec.ofNat 64 w.size, BitVec.ofNat 64 (w.cls.toNat + 2 ^ 16 * w.dev.toNat)]) ++
  [s.timeout.zeroExtend 64, s.audit.zeroExtend 64]

/-- The signature of the identity key over a report (R439), as words. -/
def identitySign (report : List Word) : List Word :=
  let m := report.flatMap fun w => natLe 8 w.toNat
  let b := fun x : BitVec 128 => Sha.beBytes 16 x.toNat
  (groupWords (Slh.sign (b Config.identitySecret) (b Config.identityPrefix) (b Config.identitySeed) (b (Config.signRandom m)) m)).map (BitVec.ofNat 64)

/-- ATTEST (R439). -/
def attest (nonce : BitVec 256) (s : State) : State :=
  let report := measureWords s ++ digestWords nonce ++ configWords s ++ Config.identityChain
  { s with mbox := 0 :: (report ++ identitySign report) }

/-- ERRLOG (R411): log 0 to 15 of a partition, 16 of the device. -/
def errlogAnswer (log first count : Nat) (s : State) : State :=
  let l := if log < 16 then (s.partition log).errlog else s.errlog
  { s with mbox := 0 :: ((l.drop first).take count).flatMap fun (a, b, c, d) => [a, b, c, d] }

/-- CHARMAP (R420). -/
def charmapAnswer (t : Nat) (s : State) : State := { s with mbox := 0 :: (groupWords (charRecord (s.tile t))).map (BitVec.ofNat 64) }

/-! ### Partitions (R434 to R436) -/

/-- The clusters of a record (CMASK): 64·d + c, four tiles each. -/
def recordCluster (r : BitVec 2048) (c : Nat) : Bool := r.getLsbD (64 + c)

def recordWord (r : BitVec 2048) (k : Nat) : Nat := fld r (64 * k) 64
def maskTiles (r : BitVec 2048) : List Nat := (List.range 1024).filter fun t => recordCluster r (t / 4)
def recordShare (r : BitVec 2048) : Nat := fieldOf (recordWord r 0) 32 7

/-- Reserved bits, alignments, SUPT and ALTT of a partition record (R436). -/
def recordLegal (r : BitVec 2048) : Bool :=
  let w := recordWord r
  let sup := fieldOf (w 0) 4 10
  let alt := fieldOf (w 0) 14 10
  let addr := fun k n : Nat => fieldOf (w k) 48 16 == 0 && w k % n == 0
  fieldOf (w 0) 26 6 == 0 && fieldOf (w 0) 39 25 == 0 && decide (1 ≤ recordShare r) && decide (recordShare r ≤ 64) &&
  fieldOf (w 5) 0 12 == 0 && fieldOf (w 5) 56 8 == 0 &&
  addr 6 4 && addr 8 64 && addr 9 32 && addr 10 32 && addr 11 32 && addr 12 4096 &&
  w 13 == 0 && w 14 == 0 && w 15 == 0 &&
  ((List.range 8).all fun k => fieldOf (w (16 + 2 * k)) 0 12 == 0 && fieldOf (w (16 + 2 * k)) 56 8 == 0 && fieldOf (w (17 + 2 * k)) 32 32 == 0) &&
  recordCluster r (sup / 4) && recordCluster r (alt / 4) && sup / 4 != alt / 4

/-- Quota ranges of a record: base and bytes. -/
def recordQuota (r : BitVec 2048) : List (Nat × Nat) :=
  ((List.range 8).map fun k => (fieldOf (recordWord r (16 + 2 * k)) 12 44 * 4096, 4096 * fieldOf (recordWord r (17 + 2 * k)) 0 32)).filter fun (_, n) => n != 0

/-- Is a resource of the record in use: its number, a cluster, a frame, or a fenced tile (R413, R421, R436)? -/
def recordInUse (s : State) (r : BitVec 2048) : Bool :=
  let others := (s.parts.filter fun (_, x) => x.sup.isSome).map (·.2)
  (s.partition (fieldOf (recordWord r 0) 0 4)).sup.isSome ||
  (maskTiles r).any (fun t => (s.tile t).part.isSome || (s.tile t).fenced) ||
  (recordQuota r).any fun (a, n) =>
    others.any (fun x => (recordQuota x.record).any fun (b, m) => overlaps a n b m) ||
    s.lent.any fun l => overlaps a n (l.base * 2 ^ 30) (l.count * 2 ^ 30)

/-- A tile with everything cleared but what belongs to the silicon. -/
def clearedTile (x : Tile) (p : Option Nat) : Tile :=
  { part := p, fails := x.fails, tcw := x.tcw, l1w := x.l1w, remap := x.remap, tcOff := x.tcOff, l1Off := x.l1Off, fenced := x.fenced }

/-- Clear tiles, their caches, and the messages and reservations that belong to them. -/
def clearTiles (ts : List Nat) (p : Option Nat) (s : State) : State :=
  let s0 := s.lines.foldl (fun s (l, h) => (h.filter fun (t, _) => ts.contains t).foldl (fun s (t, _) => evictLine t l s) s) s
  let s1 := releaseEntries (fun e => ts.contains e.owner) (ts.foldl (fun s t => s.setTile t (clearedTile (s.tile t) p)) s0)
  { s1 with
    flight := s1.flight.filter fun f => !(ts.contains f.src || ts.contains f.dst)
    rates := s1.rates.filter fun m => !(ts.contains m.ptile || ts.contains m.ctile)
    markers := s1.markers.filter fun m => !(ts.contains m.src || ts.contains m.dst)
    consumed := s1.consumed.filter fun (t, _) => !ts.contains t }

/-- PART_SETUP (R435, R436).  The partition's error log stays (R411). -/
def partSetup (r : BitVec 2048) (s : State) : State :=
  let p := fieldOf (recordWord r 0) 0 4
  let shares := (s.parts.filterMap fun (_, x) => if x.sup.isSome then some (recordShare x.record) else none).sum
  if !recordLegal r then s.answer 1
  else if recordInUse s r then s.answer 2
  else if 64 < shares + recordShare r then s.answer 3
  else if fieldOf (recordWord r 0) 24 2 < s.opcur.toNat then s.answer 4
  else
    let s1 := clearTiles (maskTiles r) (some p) s
    let s2 := extend 3 (natLe 256 r.toNat) (s1.setPartition p { record := r, errlog := (s1.partition p).errlog })
    (startSupervisor p (fieldOf (recordWord r 0) 4 10) s2).answer 0

/-- A counter after PART_RESET: a launch or graph ends, a phase or job counter starts at 0, and a job counter is cancelled (R316, R434). -/
def resetCounter (k : Nat) (v : Counter) : Counter :=
  if k < 2048 then { v with live := false, can := v.can || v.live } else { can := decide (3072 ≤ k) }

/-- Every job counter is cancelled, those included that nothing has named yet, and every launch and graph ends. -/
def cancelJobs (x : Partition) : Partition :=
  { x with
    counters := (x.counters.filter fun (k, _) => decide (k < 3072)).map (fun (k, v) => (k, resetCounter k v)) ++
      (List.range 1024).map fun j => (3072 + j, resetCounter (3072 + j) {})
    launches := [], graphs := [], pre := .running, abandoned := false }

/-- PART_RESET (R434): the supervisor starts as at set-up, on the alternate tile when its own is fenced. -/
def partReset (p : Nat) (s : State) : State :=
  let x := s.partition p
  if x.sup.isNone then s.answer 4
  else
    let s1 := clearTiles (partTiles s p) (some p) (s.setPartition p (cancelJobs x))
    let sup := fieldOf (x.word 0) 4 10
    (startSupervisor p (if (s.tile sup).fenced then fieldOf (x.word 0) 14 10 else sup) s1).answer 0

/-- PART_FREE (R434).  The partition's error log stays (R411). -/
def partFree (p : Nat) (s : State) : State :=
  if (s.partition p).sup.isNone then s.answer 4
  else
    let s1 := clearTiles (partTiles s p) none s
    State.answer (s1.setPartition p { errlog := (s1.partition p).errlog }) 0

/-! ### Lending (R432, R433): ranges in units of 1 GiB -/

def gib (n : Nat) : Nat := n * 2 ^ 30

/-- LEND (R432). -/
def lendRange (base count : Nat) (borrowers : List (BitVec 16)) (s : State) : State :=
  let quotas := (s.parts.filter fun (_, x) => x.sup.isSome).flatMap fun (_, x) => recordQuota x.record
  if count = 0 || 16 < borrowers.length || 512 < base + count then s.answer 1
  else if quotas.any (fun (a, n) => overlaps a n (gib base) (gib count)) || s.lent.any (fun l => overlaps base count l.base l.count) then s.answer 2
  else State.answer { s with lent := s.lent ++ [{ base := base, count := count, borrowers := borrowers }] } 0

/-- Every copy that a peer holds of the range [lo, hi) is recalled (R303, R433). -/
def recallPeers (lo hi : Nat) (s : State) : State :=
  { s with dir := s.dir.filterMap fun (r, e) =>
      if lo ≤ 512 * r ∧ 512 * r < hi then (if e.cv = 0 then none else some (r, { e with pv := 0, ovf := false })) else some (r, e) }

/-- REVOKE (R433), steps 1 to 3: the command completes when every borrower has answered. -/
def revokeRange (base count : Nat) (s : State) : State :=
  match s.lent.find? fun l => l.base = base ∧ l.count = count with
  | none => s.answer 4
  | some l =>
    let s1 := recallPeers (gib base) (gib (base + count)) s
    if l.borrowers.isEmpty then State.answer { s1 with lent := s1.lent.filter (· != l) } 0
    else { s1 with lent := s1.lent.map fun x => if x = l then { l with awaited := some l.borrowers } else x }

/-- REVOCATION_NOTICE (R433): this device is the borrower; the pages of the range are marked as revoked. -/
def execRevocationNotice (base count : BitVec 26) (s : State) : Host.Outcome State Fault Refusal :=
  let r := (gib base.toNat, gib count.toNat)
  .next (if s.revoked.contains r then s else { s with revoked := s.revoked ++ [r] })

/-- REVOCATION_ACK (R433). -/
def revocationAck (dev : BitVec 16) (s : State) : State :=
  let take := fun (l : Lent) => ({ l with awaited := l.awaited.map fun a => a.filter (· != dev) } : Lent)
  let s1 := { s with lent := s.lent.map take }
  if s1.lent.any fun l => l.awaited = some [] then State.answer { s1 with lent := s1.lent.filter fun l => l.awaited != some [] } 0 else s1

def execRevocationAck (dev : BitVec 16) (s : State) : Host.Outcome State Fault Refusal := .next (revocationAck dev s)

/-- REVOKE_TIMEOUT (R433): a silent borrower is fenced from the range, which is lent no more. -/
def revokeTimeout (dev : BitVec 16) (s : State) : State :=
  let silent := fun (l : Lent) => match l.awaited with | some a => a.contains dev | none => false
  if s.lent.any silent then State.answer { s with lent := s.lent.filter fun l => !silent l } 5 else s

def execRevokeTimeout (dev : BitVec 16) (s : State) : Host.Outcome State Fault Refusal := .next (revokeTimeout dev s)

/-! ### DEV_CONFIG (R407, R430, R431) -/

/-- A window operand: [25:0] base and [57:32] size in GiB, [65:64] class, [95:80] device. -/
def windowOf (w : BitVec 128) : Window :=
  { base := gib (fld w 0 26), size := gib (fld w 32 26), cls := BitVec.ofNat 2 (fld w 64 2), dev := BitVec.ofNat 16 (fld w 80 16) }

/-- Windows lie above HBM and are of class 1 or 2; the timeout is 4 µs to 50 µs in ns; the audit period 2^k · 0.25 ms, k ≤ 6. -/
def configLegal (ws : List (BitVec 128)) (timeout : BitVec 32) (audit : BitVec 3) : Bool :=
  decide (ws.length ≤ 16) && (ws.all fun w => (windowOf w).cls == 1 || (windowOf w).cls == 2) &&
  decide (4000 ≤ timeout.toNat) && decide (timeout.toNat ≤ 50000) && decide (audit.toNat ≤ 6)

def devConfig (windows : List (BitVec 128)) (timeout : BitVec 32) (audit : BitVec 3) (s : State) : State :=
  if s.parts.any fun (_, x) => x.sup.isSome then s.answer 2
  else if !configLegal windows timeout audit then s.answer 1
  else State.answer { s with windows := windows.map windowOf, timeout := timeout, audit := audit } 0

/-! ### Firmware and device reset (R437, R438) -/

def imageHeader (i : List (BitVec 8)) : List (BitVec 8) := i.take 128
def imageBody (i : List (BitVec 8)) : List (BitVec 8) := i.drop (128 + 7856)

/-- The checks of R437. -/
def imageAccepted (s : State) (i : List (BitVec 8)) : Bool :=
  let h := imageHeader i
  decide (128 + 7856 ≤ i.length) && Config.headerMagic h == 0x4E444657 &&
  Sha.sha256 (Sha.beBytes 32 (Config.headerKey h).toNat) == s.fkey &&
  Slh.verifies (Sha.beBytes 32 (Config.headerKey h).toNat) h ((i.drop 128).take 7856) &&
  decide (Config.headerLength h = (imageBody i).length) && Sha.sha256 (imageBody i) == Config.headerHash h &&
  decide (s.fver.toNat ≤ (Config.headerVersion h).toNat)

/-- FW_STAGE (R438): an image that fails a check leaves the store as it is. -/
def fwStage (image : List (BitVec 8)) (s : State) : State :=
  if imageAccepted s image then State.answer { s with store := sput s.store (if Config.isDeviceImage image then 1 else 0) image } 0
  else s.answer 1

/-- The image in a slot of the store. -/
def slotImage (s : State) (k : Nat) : List (BitVec 8) := (sfind s.store k).getD (Config.factoryImage k)

/-- The version of an image that has booted advances FVER (R438). -/
def bootVersion (s : State) (k : Nat) (v : BitVec 16) : BitVec 16 :=
  let w := Config.headerVersion (imageHeader (slotImage s k))
  if v.toNat < w.toNat then w else v

/-- A tile at reset: the char maps are loaded, and one that falls short of them stays fenced until it is repaired (R421). -/
def bareTile (x : Tile) : Tile :=
  let y : Tile := { fails := x.fails, tcw := x.tcw, l1w := x.l1w }
  { y with fenced := !charMapSound y }

/-- The device at reset (R12, R437): what the fuses and the non-volatile store hold stays. -/
def bareReset (s : State) : State :=
  { State.reset with
    fkey := s.fkey, fver := s.fver, store := s.store
    tiles := s.tiles.filterMap fun (t, x) => if x.fails.isEmpty && x.tcw.isEmpty && x.l1w.isEmpty then none else some (t, bareTile x) }

/-- DEVICE_RESET (R437): the boot ROM verifies the MC firmware, the MC the device firmware; the char maps are loaded; a failing check
leaves the device in recovery. -/
def deviceReset (s : State) : State :=
  let s0 := bareReset s
  if !imageAccepted s0 (slotImage s0 0) then { s0 with recovery := true }
  else
    let s1 := extend 0 (imageHeader (slotImage s0 0)) s0
    if !imageAccepted s1 (slotImage s1 1) then { s1 with recovery := true }
    else
      let s2 := extend 2 ((List.range 1024).flatMap fun t => charRecord (s1.tile t)) (extend 1 (imageHeader (slotImage s1 1)) s1)
      { s2 with fver := bootVersion s2 1 (bootVersion s2 0 s2.fver) }

def execDeviceReset (s : State) : Host.Outcome State Fault Refusal := .next (deviceReset s)

/-! ### Management commands, one at a time in arrival order (R434) -/

/-- What a management command does when its turn has come (Table 25.2). -/
def mcExec (i : Command) (s : State) : State :=
  match i with
  | .partSetup r => partSetup r s
  | .partReset p => partReset p.toNat s
  | .partPreempt p => partPreempt p.toNat s
  | .partResume p => partResume p.toNat s
  | .partFree p => partFree p.toNat s
  | .lend b n ds => lendRange b.toNat n.toNat ds s
  | .revoke b n => revokeRange b.toNat n.toNat s
  | .errlog l a n => errlogAnswer l.toNat a.toNat n.toNat s
  | .charmap t => charmapAnswer t.toNat s
  | .measure => measureAnswer s
  | .attest n => attest n s
  | .fwStage i => fwStage i s
  | .devConfig ws n a => devConfig ws n a s

/-- Is a downward operating-point step in progress? -/
def steppingDown (s : State) : Bool := match s.opStep with | some o => decide (s.opcur.toNat < o.target) | none => false

/-- Does a command wait for an operating-point step (R428, R436)? -/
def mcWaits (i : Command) (s : State) : Bool :=
  match i with
  | .partSetup _ => s.opBusy
  | .partResume _ => steppingDown s
  | _ => false

/-- Does recovery execute a command (R437)? -/
def recoveryTakes : Command → Bool
  | .measure => true
  | .fwStage _ => true
  | _ => false

/-- Execute the commands that wait, oldest first, while none is in progress. -/
def runCommands : Nat → State → State
  | 0, s => s
  | n + 1, s => match s.commands with
    | [] => s
    | i :: r => if mcBusy s || mcWaits i s then s else runCommands n (mcExec i { s with commands := r })

/-- A command arrives: it executes at once, or stands behind those that are still to execute. -/
def mcCommand (i : Command) (s : State) : State :=
  if s.recovery && !recoveryTakes i then s
  else if s.commands.isEmpty && !mcBusy s && !mcWaits i s then mcExec i s
  else { s with commands := s.commands ++ [i] }

def execPartSetup (record : BitVec 2048) (s : State) : Host.Outcome State Fault Refusal := .next (mcCommand (.partSetup record) s)

def execPartReset (part : BitVec 4) (s : State) : Host.Outcome State Fault Refusal := .next (mcCommand (.partReset part) s)

def execPartPreempt (part : BitVec 4) (s : State) : Host.Outcome State Fault Refusal := .next (mcCommand (.partPreempt part) s)

def execPartResume (part : BitVec 4) (s : State) : Host.Outcome State Fault Refusal := .next (mcCommand (.partResume part) s)

def execPartFree (part : BitVec 4) (s : State) : Host.Outcome State Fault Refusal := .next (mcCommand (.partFree part) s)

def execLend (base count : BitVec 26) (borrowers : List (BitVec 16)) (s : State) : Host.Outcome State Fault Refusal :=
  .next (mcCommand (.lend base count borrowers) s)

def execRevoke (base count : BitVec 26) (s : State) : Host.Outcome State Fault Refusal := .next (mcCommand (.revoke base count) s)

def execErrlog (log : BitVec 5) (first : BitVec 12) (count : BitVec 13) (s : State) : Host.Outcome State Fault Refusal :=
  .next (mcCommand (.errlog log first count) s)

def execCharmap (tile : BitVec 10) (s : State) : Host.Outcome State Fault Refusal := .next (mcCommand (.charmap tile) s)

def execMeasure (s : State) : Host.Outcome State Fault Refusal := .next (mcCommand .measure s)

def execAttest (nonce : BitVec 256) (s : State) : Host.Outcome State Fault Refusal := .next (mcCommand (.attest nonce) s)

def execFwStage (image : List (BitVec 8)) (s : State) : Host.Outcome State Fault Refusal := .next (mcCommand (.fwStage image) s)

def execDevConfig (windows : List (BitVec 128)) (timeout : BitVec 32) (audit : BitVec 3) (s : State) : Host.Outcome State Fault Refusal :=
  .next (mcCommand (.devConfig windows timeout audit) s)

end Sys2Proof.Machine
end

