-- ==== Sys2Proof/Machine/MemAccess.lean ====
section
/-! DEFINITION. Scalar loads, stores and atomics: majors 0x09 to 0x0B (R26, R27, R68 to R75).  Every access of the model is
performed at once at every scope, so the orderings of R75 hold whatever ordering and scope a form names; an acquire still has the releasing
tile split its reservations (R259, R287). -/

namespace Sys2Proof.Machine

/-- Load `n` bytes and write sd, sign- or zero-extended (R71). -/
def loadReg (d : BitVec 5) (ea : Word) (n : Nat) (sgn : Bool) (o : Order) : M Unit := do
  let v ← scalarLoad ea n o
  modify fun s => s.retire d (if sgn then BitVec.ofInt 64 (signed (8 * n) v) else BitVec.ofNat 64 v)

/-- Store the low `n` bytes of a register (R71). -/
def storeReg (ea : Word) (n : Nat) (v : Word) (o : Order) : M Unit := do
  scalarStore ea n v.toNat o
  modify fun s => s.advance

/-- The old value as written to sd (R73). -/
def amoOld (w old : Nat) (zext : Bool) : Word := if zext then BitVec.ofNat 64 old else BitVec.ofInt 64 (signed w old)

/-- A read-modify-write atomic (R73, R74): `f m y w` is the value written at width `w`. -/
def amo (d : BitVec 5) (ea y : Word) (o : Order) (z : BitVec 2) (zext : Bool) (f : Nat → Nat → Nat → Nat) : M Unit := do
  let n := 2 ^ z.toNat
  let old ← scalarAtomic ea n o fun m => some (f m (y.toNat % 2 ^ (8 * n)) (8 * n))
  modify fun s => s.retire d (amoOld (8 * n) old zext)

def amoCas (d : BitVec 5) (ea e y : Word) (o : Order) (z : BitVec 2) : M Unit := do
  let n := 2 ^ z.toNat
  let old ← scalarAtomic ea n o fun m => if m = e.toNat % 2 ^ (8 * n) then some (y.toNat % 2 ^ (8 * n)) else none
  modify fun s => s.retire d (amoOld (8 * n) old false)

/-- `ld.b` (R71, Table 1.6). -/
def execLdB (d a : BitVec 5) (i : BitVec 13) (s : State) : Host.Outcome State Fault Refusal :=
  runScalar (loadReg d (effAddr (s.reg a) i) 1 true {}) s

/-- `ld.h` (R71, Table 1.6). -/
def execLdH (d a : BitVec 5) (i : BitVec 13) (s : State) : Host.Outcome State Fault Refusal :=
  runScalar (loadReg d (effAddr (s.reg a) i) 2 true {}) s

/-- `ld.w` (R71, Table 1.6). -/
def execLdW (d a : BitVec 5) (i : BitVec 13) (s : State) : Host.Outcome State Fault Refusal :=
  runScalar (loadReg d (effAddr (s.reg a) i) 4 true {}) s

/-- `ld.d` (R71, Table 1.6). -/
def execLdD (d a : BitVec 5) (i : BitVec 13) (s : State) : Host.Outcome State Fault Refusal :=
  runScalar (loadReg d (effAddr (s.reg a) i) 8 false {}) s

/-- `ld.bu` (R71, Table 1.6). -/
def execLdBu (d a : BitVec 5) (i : BitVec 13) (s : State) : Host.Outcome State Fault Refusal :=
  runScalar (loadReg d (effAddr (s.reg a) i) 1 false {}) s

/-- `ld.hu` (R71, Table 1.6). -/
def execLdHu (d a : BitVec 5) (i : BitVec 13) (s : State) : Host.Outcome State Fault Refusal :=
  runScalar (loadReg d (effAddr (s.reg a) i) 2 false {}) s

/-- `ld.wu` (R71, Table 1.6). -/
def execLdWu (d a : BitVec 5) (i : BitVec 13) (s : State) : Host.Outcome State Fault Refusal :=
  runScalar (loadReg d (effAddr (s.reg a) i) 4 false {}) s

/-- `st.b` (R71, Table 1.6): stores from the register named in its d field. -/
def execStB (d a : BitVec 5) (i : BitVec 13) (s : State) : Host.Outcome State Fault Refusal :=
  runScalar (storeReg (effAddr (s.reg a) i) 1 (s.reg d) {}) s

/-- `st.h` (R71, Table 1.6): stores from the register named in its d field. -/
def execStH (d a : BitVec 5) (i : BitVec 13) (s : State) : Host.Outcome State Fault Refusal :=
  runScalar (storeReg (effAddr (s.reg a) i) 2 (s.reg d) {}) s

/-- `st.w` (R71, Table 1.6): stores from the register named in its d field. -/
def execStW (d a : BitVec 5) (i : BitVec 13) (s : State) : Host.Outcome State Fault Refusal :=
  runScalar (storeReg (effAddr (s.reg a) i) 4 (s.reg d) {}) s

/-- `st.d` (R71, Table 1.6): stores from the register named in its d field. -/
def execStD (d a : BitVec 5) (i : BitVec 13) (s : State) : Host.Outcome State Fault Refusal :=
  runScalar (storeReg (effAddr (s.reg a) i) 8 (s.reg d) {}) s

/-- `amo.swap` (R73, Table 3.4). -/
def execAmoSwap (d a b : BitVec 5) (o : BitVec 2) (sc : BitVec 3) (z : BitVec 2) (s : State) : Host.Outcome State Fault Refusal :=
  runScalar (amo d (s.reg a) (s.reg b) (orderOf o sc) z false (fun _ y _ => y)) s

/-- `amo.add` (R73, Table 3.4). -/
def execAmoAdd (d a b : BitVec 5) (o : BitVec 2) (sc : BitVec 3) (z : BitVec 2) (s : State) : Host.Outcome State Fault Refusal :=
  runScalar (amo d (s.reg a) (s.reg b) (orderOf o sc) z false (fun m y w => (m + y) % 2 ^ w)) s

/-- `amo.and` (R73, Table 3.4). -/
def execAmoAnd (d a b : BitVec 5) (o : BitVec 2) (sc : BitVec 3) (z : BitVec 2) (s : State) : Host.Outcome State Fault Refusal :=
  runScalar (amo d (s.reg a) (s.reg b) (orderOf o sc) z false (fun m y _ => m &&& y)) s

/-- `amo.or` (R73, Table 3.4). -/
def execAmoOr (d a b : BitVec 5) (o : BitVec 2) (sc : BitVec 3) (z : BitVec 2) (s : State) : Host.Outcome State Fault Refusal :=
  runScalar (amo d (s.reg a) (s.reg b) (orderOf o sc) z false (fun m y _ => m ||| y)) s

/-- `amo.xor` (R73, Table 3.4). -/
def execAmoXor (d a b : BitVec 5) (o : BitVec 2) (sc : BitVec 3) (z : BitVec 2) (s : State) : Host.Outcome State Fault Refusal :=
  runScalar (amo d (s.reg a) (s.reg b) (orderOf o sc) z false (fun m y _ => m ^^^ y)) s

/-- `amo.min` (R73, Table 3.4). -/
def execAmoMin (d a b : BitVec 5) (o : BitVec 2) (sc : BitVec 3) (z : BitVec 2) (s : State) : Host.Outcome State Fault Refusal :=
  runScalar (amo d (s.reg a) (s.reg b) (orderOf o sc) z false (fun m y w => if signed w m < signed w y then m else y)) s

/-- `amo.max` (R73, Table 3.4). -/
def execAmoMax (d a b : BitVec 5) (o : BitVec 2) (sc : BitVec 3) (z : BitVec 2) (s : State) : Host.Outcome State Fault Refusal :=
  runScalar (amo d (s.reg a) (s.reg b) (orderOf o sc) z false (fun m y w => if signed w m < signed w y then y else m)) s

/-- `amo.minu` (R73, Table 3.4). -/
def execAmoMinu (d a b : BitVec 5) (o : BitVec 2) (sc : BitVec 3) (z : BitVec 2) (s : State) : Host.Outcome State Fault Refusal :=
  runScalar (amo d (s.reg a) (s.reg b) (orderOf o sc) z true (fun m y _ => if m < y then m else y)) s

/-- `amo.maxu` (R73, Table 3.4). -/
def execAmoMaxu (d a b : BitVec 5) (o : BitVec 2) (sc : BitVec 3) (z : BitVec 2) (s : State) : Host.Outcome State Fault Refusal :=
  runScalar (amo d (s.reg a) (s.reg b) (orderOf o sc) z true (fun m y _ => if m < y then y else m)) s

/-- `amo.cas` (R73): the expected value is that of sd before the instruction, at the access size. -/
def execAmoCas (d a b : BitVec 5) (o : BitVec 2) (sc : BitVec 3) (z : BitVec 2) (s : State) : Host.Outcome State Fault Refusal :=
  runScalar (amoCas d (s.reg a) (s.reg d) (s.reg b) (orderOf o sc) z) s

/-- The zero-extending ordered load, aop 10 (R72). -/
def execOrderedLoadZext (d a : BitVec 5) (o : BitVec 2) (sc : BitVec 3) (z : BitVec 2) (s : State) : Host.Outcome State Fault Refusal :=
  runScalar (loadReg d (s.reg a) (2 ^ z.toNat) false (orderOf o sc)) s

/-- The sign-extending ordered load, aop 11 (R72). -/
def execOrderedLoadSext (d a : BitVec 5) (o : BitVec 2) (sc : BitVec 3) (z : BitVec 2) (s : State) : Host.Outcome State Fault Refusal :=
  runScalar (loadReg d (s.reg a) (2 ^ z.toNat) true (orderOf o sc)) s

/-- The ordered store, aop 12 (R72). -/
def execOrderedStore (a b : BitVec 5) (o : BitVec 2) (sc : BitVec 3) (z : BitVec 2) (s : State) : Host.Outcome State Fault Refusal :=
  runScalar (storeReg (s.reg a) (2 ^ z.toNat) (s.reg b) (orderOf o sc)) s

end Sys2Proof.Machine
end

