-- ==== Sys2Proof/Machine/Scalar.lean ====
section
/-! DEFINITION. The scalar arithmetic instructions: majors 0x01 to 0x08 (R24, R25, R65 to R67).  No one of them traps, writes a
flag or touches `fstat`; a write whose destination is s0 is discarded (R11). -/

namespace Sys2Proof.Machine

/-- `add` (R65, Table 3.2). -/
def execAdd (d a b : BitVec 5) (s : State) : Host.Outcome State Fault Refusal :=
  .next (s.retire d ((s.reg a) + (s.reg b)))

/-- `sub` (R65, Table 3.2). -/
def execSub (d a b : BitVec 5) (s : State) : Host.Outcome State Fault Refusal :=
  .next (s.retire d ((s.reg a) - (s.reg b)))

/-- `and` (R65, Table 3.2). -/
def execAnd (d a b : BitVec 5) (s : State) : Host.Outcome State Fault Refusal :=
  .next (s.retire d ((s.reg a) &&& (s.reg b)))

/-- `or` (R65, Table 3.2). -/
def execOr (d a b : BitVec 5) (s : State) : Host.Outcome State Fault Refusal :=
  .next (s.retire d ((s.reg a) ||| (s.reg b)))

/-- `xor` (R65, Table 3.2). -/
def execXor (d a b : BitVec 5) (s : State) : Host.Outcome State Fault Refusal :=
  .next (s.retire d ((s.reg a) ^^^ (s.reg b)))

/-- `andn` (R65, Table 3.2). -/
def execAndn (d a b : BitVec 5) (s : State) : Host.Outcome State Fault Refusal :=
  .next (s.retire d ((s.reg a) &&& ~~~(s.reg b)))

/-- `sll` (R65, Table 3.2). -/
def execSll (d a b : BitVec 5) (s : State) : Host.Outcome State Fault Refusal :=
  .next (s.retire d ((s.reg a) <<< shamt (s.reg b)))

/-- `srl` (R65, Table 3.2). -/
def execSrl (d a b : BitVec 5) (s : State) : Host.Outcome State Fault Refusal :=
  .next (s.retire d ((s.reg a) >>> shamt (s.reg b)))

/-- `sra` (R65, Table 3.2). -/
def execSra (d a b : BitVec 5) (s : State) : Host.Outcome State Fault Refusal :=
  .next (s.retire d (BitVec.sshiftRight (s.reg a) (shamt (s.reg b))))

/-- `rol` (R65, Table 3.2). -/
def execRol (d a b : BitVec 5) (s : State) : Host.Outcome State Fault Refusal :=
  .next (s.retire d (BitVec.rotateLeft (s.reg a) (shamt (s.reg b))))

/-- `ror` (R65, Table 3.2). -/
def execRor (d a b : BitVec 5) (s : State) : Host.Outcome State Fault Refusal :=
  .next (s.retire d (BitVec.rotateRight (s.reg a) (shamt (s.reg b))))

/-- `slt` (R65, Table 3.2). -/
def execSlt (d a b : BitVec 5) (s : State) : Host.Outcome State Fault Refusal :=
  .next (s.retire d (boolWord (BitVec.slt (s.reg a) (s.reg b))))

/-- `sltu` (R65, Table 3.2). -/
def execSltu (d a b : BitVec 5) (s : State) : Host.Outcome State Fault Refusal :=
  .next (s.retire d (boolWord (BitVec.ult (s.reg a) (s.reg b))))

/-- `min` (R65, Table 3.2). -/
def execMin (d a b : BitVec 5) (s : State) : Host.Outcome State Fault Refusal :=
  .next (s.retire d (if BitVec.slt (s.reg a) (s.reg b) then (s.reg a) else (s.reg b)))

/-- `max` (R65, Table 3.2). -/
def execMax (d a b : BitVec 5) (s : State) : Host.Outcome State Fault Refusal :=
  .next (s.retire d (if BitVec.slt (s.reg a) (s.reg b) then (s.reg b) else (s.reg a)))

/-- `minu` (R65, Table 3.2). -/
def execMinu (d a b : BitVec 5) (s : State) : Host.Outcome State Fault Refusal :=
  .next (s.retire d (if BitVec.ult (s.reg a) (s.reg b) then (s.reg a) else (s.reg b)))

/-- `maxu` (R65, Table 3.2). -/
def execMaxu (d a b : BitVec 5) (s : State) : Host.Outcome State Fault Refusal :=
  .next (s.retire d (if BitVec.ult (s.reg a) (s.reg b) then (s.reg b) else (s.reg a)))

/-- `mul` (R65, Table 3.2). -/
def execMul (d a b : BitVec 5) (s : State) : Host.Outcome State Fault Refusal :=
  .next (s.retire d ((s.reg a) * (s.reg b)))

/-- `mulh` (R65, Table 3.2). -/
def execMulh (d a b : BitVec 5) (s : State) : Host.Outcome State Fault Refusal :=
  .next (s.retire d (highProduct (BitVec.toInt (s.reg a)) (BitVec.toInt (s.reg b))))

/-- `mulhu` (R65, Table 3.2). -/
def execMulhu (d a b : BitVec 5) (s : State) : Host.Outcome State Fault Refusal :=
  .next (s.retire d (highProduct (BitVec.toNat (s.reg a)) (BitVec.toNat (s.reg b))))

/-- `mulhsu` (R65, Table 3.2). -/
def execMulhsu (d a b : BitVec 5) (s : State) : Host.Outcome State Fault Refusal :=
  .next (s.retire d (highProduct (BitVec.toInt (s.reg a)) (BitVec.toNat (s.reg b))))

/-- `div` (R66, Table 3.3 for the borderline cases). -/
def execDiv (d a b : BitVec 5) (s : State) : Host.Outcome State Fault Refusal :=
  .next (s.retire d (divSigned (s.reg a) (s.reg b)))

/-- `divu` (R66, Table 3.3 for the borderline cases). -/
def execDivu (d a b : BitVec 5) (s : State) : Host.Outcome State Fault Refusal :=
  .next (s.retire d (divUnsigned (s.reg a) (s.reg b)))

/-- `rem` (R66, Table 3.3 for the borderline cases). -/
def execRem (d a b : BitVec 5) (s : State) : Host.Outcome State Fault Refusal :=
  .next (s.retire d (remSigned (s.reg a) (s.reg b)))

/-- `remu` (R66, Table 3.3 for the borderline cases). -/
def execRemu (d a b : BitVec 5) (s : State) : Host.Outcome State Fault Refusal :=
  .next (s.retire d (remUnsigned (s.reg a) (s.reg b)))

/-- `clz` (R67). -/
def execClz (d a : BitVec 5) (s : State) : Host.Outcome State Fault Refusal :=
  .next (s.retire d (BitVec.ofNat 64 (leadZeros 64 (s.reg a).toNat)))

/-- `ctz` (R67). -/
def execCtz (d a : BitVec 5) (s : State) : Host.Outcome State Fault Refusal :=
  .next (s.retire d (BitVec.ofNat 64 (trailZeros 64 (s.reg a).toNat)))

/-- `ffs` (R67). -/
def execFfs (d a : BitVec 5) (s : State) : Host.Outcome State Fault Refusal :=
  .next (s.retire d (BitVec.ofNat 64 (findFirst 64 (s.reg a).toNat)))

/-- `popc` (R67). -/
def execPopc (d a : BitVec 5) (s : State) : Host.Outcome State Fault Refusal :=
  .next (s.retire d (BitVec.ofNat 64 (popBits 64 (s.reg a).toNat)))

/-- `bswap` (R67). -/
def execBswap (d a : BitVec 5) (s : State) : Host.Outcome State Fault Refusal :=
  .next (s.retire d (BitVec.ofNat 64 (leNat (natLe 8 (s.reg a).toNat).reverse)))

/-- `addi` (R65, R10, R25). -/
def execAddi (d a : BitVec 5) (i : BitVec 16) (s : State) : Host.Outcome State Fault Refusal :=
  .next (s.retire d (s.reg a + i.signExtend 64))

/-- `andi` (R65, R10, R25). -/
def execAndi (d a : BitVec 5) (i : BitVec 16) (s : State) : Host.Outcome State Fault Refusal :=
  .next (s.retire d (s.reg a &&& i.zeroExtend 64))

/-- `ori` (R65, R10, R25). -/
def execOri (d a : BitVec 5) (i : BitVec 16) (s : State) : Host.Outcome State Fault Refusal :=
  .next (s.retire d (s.reg a ||| i.zeroExtend 64))

/-- `xori` (R65, R10, R25). -/
def execXori (d a : BitVec 5) (i : BitVec 16) (s : State) : Host.Outcome State Fault Refusal :=
  .next (s.retire d (s.reg a ^^^ i.zeroExtend 64))

/-- `slti` (R65, R10, R25). -/
def execSlti (d a : BitVec 5) (i : BitVec 15) (s : State) : Host.Outcome State Fault Refusal :=
  .next (s.retire d (boolWord (BitVec.slt (s.reg a) (i.signExtend 64))))

/-- `sltiu`: the comparand is sign-extended, the comparison unsigned (R25, R65). -/
def execSltiu (d a : BitVec 5) (i : BitVec 15) (s : State) : Host.Outcome State Fault Refusal :=
  .next (s.retire d (boolWord (BitVec.ult (s.reg a) (i.signExtend 64))))

/-- `slli` (R65, R10, R25). -/
def execSlli (d a : BitVec 5) (h : BitVec 6) (s : State) : Host.Outcome State Fault Refusal :=
  .next (s.retire d (s.reg a <<< h.toNat))

/-- `srli` (R65, R10, R25). -/
def execSrli (d a : BitVec 5) (h : BitVec 6) (s : State) : Host.Outcome State Fault Refusal :=
  .next (s.retire d (s.reg a >>> h.toNat))

/-- `srai` (R65, R10, R25). -/
def execSrai (d a : BitVec 5) (h : BitVec 6) (s : State) : Host.Outcome State Fault Refusal :=
  .next (s.retire d (BitVec.sshiftRight (s.reg a) h.toNat))

/-- `rori` (R65, R10, R25). -/
def execRori (d a : BitVec 5) (h : BitVec 6) (s : State) : Host.Outcome State Fault Refusal :=
  .next (s.retire d (BitVec.rotateRight (s.reg a) h.toNat))

/-- `lih`: sd := sext64(imm21) << 16 (R25). -/
def execLih (d : BitVec 5) (i : BitVec 21) (s : State) : Host.Outcome State Fault Refusal :=
  .next (s.retire d (i.signExtend 64 <<< 16))

end Sys2Proof.Machine
end

