-- ==== Sys2Proof/Decode.lean ====
section
/-! DEFINITION. The decoder (R23 to R42), total on 32-bit words, refusing by name; then the encoder, written from
the same tables.  A refusal is what R43 calls a word that is not an instruction: by its major, by its function, or by a
nonzero field that the row marks 0.  Operand values that are reserved (a scope, a tag, a register beyond its file) are
decoded and refused by `Instr.wellFormed`. -/

namespace Sys2Proof

/-- Why a word is refused (R43, R44): each name is one line of Table 1.18. -/
inductive Reject where
  /-- Major 0x26 to 0x3F: `ILL`. -/
  | majorReserved
  /-- A reserved function value in an allocated major: `ILL`. -/
  | functionReserved
  /-- A field that the row marks 0 holds something else, or a reserved `w3` or mode value: `RSVD`. -/
  | fieldReserved
  deriving DecidableEq, Repr

/-- A row whose reserved bits `z` must be zero (R9, R43). -/
def orReserved {α : Type} {n : Nat} (z : BitVec n) (i : α) : Except Reject α :=
  if z = 0 then .ok i else .error .fieldReserved

/-- Major 0x00 (R30). -/
def decodeSys (w : BitVec 32) : Except Reject Instr :=
  match (w.extractLsb' 0 11).toNat with
  | 0 => .ok (.ill (w.extractLsb' 21 5) (w.extractLsb' 16 5) (w.extractLsb' 11 5))
  | 1 => orReserved (w.extractLsb' 21 5) (.trap (w.extractLsb' 11 10))
  | 2 => orReserved (w.extractLsb' 11 15) (.tret)
  | 3 => orReserved (w.extractLsb' 21 5) (.brk (w.extractLsb' 11 10))
  | 4 => orReserved (w.extractLsb' 14 12) (.fence (w.extractLsb' 11 3))
  | 5 => orReserved ((w.extractLsb' 21 5) ++ (w.extractLsb' 11 5)) (.fenceQ (w.extractLsb' 16 5))
  | 6 => orReserved (w.extractLsb' 11 15) (.fenceI)
  | 7 => .ok (.mwait (w.extractLsb' 21 5) (w.extractLsb' 16 5) (w.extractLsb' 11 5))
  | _ => .error .functionReserved

/-- Major 0x01 (R24). -/
def decodeIalu (w : BitVec 32) : Except Reject Instr :=
  match (w.extractLsb' 0 11).toNat with
  | 0 => .ok (.add (w.extractLsb' 21 5) (w.extractLsb' 16 5) (w.extractLsb' 11 5))
  | 1 => .ok (.sub (w.extractLsb' 21 5) (w.extractLsb' 16 5) (w.extractLsb' 11 5))
  | 2 => .ok (.and (w.extractLsb' 21 5) (w.extractLsb' 16 5) (w.extractLsb' 11 5))
  | 3 => .ok (.or (w.extractLsb' 21 5) (w.extractLsb' 16 5) (w.extractLsb' 11 5))
  | 4 => .ok (.xor (w.extractLsb' 21 5) (w.extractLsb' 16 5) (w.extractLsb' 11 5))
  | 5 => .ok (.andn (w.extractLsb' 21 5) (w.extractLsb' 16 5) (w.extractLsb' 11 5))
  | 6 => .ok (.sll (w.extractLsb' 21 5) (w.extractLsb' 16 5) (w.extractLsb' 11 5))
  | 7 => .ok (.srl (w.extractLsb' 21 5) (w.extractLsb' 16 5) (w.extractLsb' 11 5))
  | 8 => .ok (.sra (w.extractLsb' 21 5) (w.extractLsb' 16 5) (w.extractLsb' 11 5))
  | 9 => .ok (.rol (w.extractLsb' 21 5) (w.extractLsb' 16 5) (w.extractLsb' 11 5))
  | 10 => .ok (.ror (w.extractLsb' 21 5) (w.extractLsb' 16 5) (w.extractLsb' 11 5))
  | 11 => .ok (.slt (w.extractLsb' 21 5) (w.extractLsb' 16 5) (w.extractLsb' 11 5))
  | 12 => .ok (.sltu (w.extractLsb' 21 5) (w.extractLsb' 16 5) (w.extractLsb' 11 5))
  | 13 => .ok (.min (w.extractLsb' 21 5) (w.extractLsb' 16 5) (w.extractLsb' 11 5))
  | 14 => .ok (.max (w.extractLsb' 21 5) (w.extractLsb' 16 5) (w.extractLsb' 11 5))
  | 15 => .ok (.minu (w.extractLsb' 21 5) (w.extractLsb' 16 5) (w.extractLsb' 11 5))
  | 16 => .ok (.maxu (w.extractLsb' 21 5) (w.extractLsb' 16 5) (w.extractLsb' 11 5))
  | 17 => .ok (.mul (w.extractLsb' 21 5) (w.extractLsb' 16 5) (w.extractLsb' 11 5))
  | 18 => .ok (.mulh (w.extractLsb' 21 5) (w.extractLsb' 16 5) (w.extractLsb' 11 5))
  | 19 => .ok (.mulhu (w.extractLsb' 21 5) (w.extractLsb' 16 5) (w.extractLsb' 11 5))
  | 20 => .ok (.mulhsu (w.extractLsb' 21 5) (w.extractLsb' 16 5) (w.extractLsb' 11 5))
  | 21 => .ok (.div (w.extractLsb' 21 5) (w.extractLsb' 16 5) (w.extractLsb' 11 5))
  | 22 => .ok (.divu (w.extractLsb' 21 5) (w.extractLsb' 16 5) (w.extractLsb' 11 5))
  | 23 => .ok (.rem (w.extractLsb' 21 5) (w.extractLsb' 16 5) (w.extractLsb' 11 5))
  | 24 => .ok (.remu (w.extractLsb' 21 5) (w.extractLsb' 16 5) (w.extractLsb' 11 5))
  | 25 => orReserved (w.extractLsb' 11 5) (.clz (w.extractLsb' 21 5) (w.extractLsb' 16 5))
  | 26 => orReserved (w.extractLsb' 11 5) (.ctz (w.extractLsb' 21 5) (w.extractLsb' 16 5))
  | 27 => orReserved (w.extractLsb' 11 5) (.ffs (w.extractLsb' 21 5) (w.extractLsb' 16 5))
  | 28 => orReserved (w.extractLsb' 11 5) (.popc (w.extractLsb' 21 5) (w.extractLsb' 16 5))
  | 29 => orReserved (w.extractLsb' 11 5) (.bswap (w.extractLsb' 21 5) (w.extractLsb' 16 5))
  | _ => .error .functionReserved

/-- Major 0x06 (R25). -/
def decodeSlti (w : BitVec 32) : Except Reject Instr :=
  match (w.extractLsb' 15 1).toNat with
  | 0 => .ok (.slti (w.extractLsb' 21 5) (w.extractLsb' 16 5) (w.extractLsb' 0 15))
  | 1 => .ok (.sltiu (w.extractLsb' 21 5) (w.extractLsb' 16 5) (w.extractLsb' 0 15))
  | _ => .error .functionReserved

/-- Major 0x07 (R25). -/
def decodeShift (w : BitVec 32) : Except Reject Instr :=
  match (w.extractLsb' 12 4).toNat with
  | 0 => orReserved (w.extractLsb' 6 6) (.slli (w.extractLsb' 21 5) (w.extractLsb' 16 5) (w.extractLsb' 0 6))
  | 1 => orReserved (w.extractLsb' 6 6) (.srli (w.extractLsb' 21 5) (w.extractLsb' 16 5) (w.extractLsb' 0 6))
  | 2 => orReserved (w.extractLsb' 6 6) (.srai (w.extractLsb' 21 5) (w.extractLsb' 16 5) (w.extractLsb' 0 6))
  | 3 => orReserved (w.extractLsb' 6 6) (.rori (w.extractLsb' 21 5) (w.extractLsb' 16 5) (w.extractLsb' 0 6))
  | _ => .error .functionReserved

/-- Major 0x09 (R26). -/
def decodeLd (w : BitVec 32) : Except Reject Instr :=
  match (w.extractLsb' 13 3).toNat with
  | 0 => .ok (.ldB (w.extractLsb' 21 5) (w.extractLsb' 16 5) (w.extractLsb' 0 13))
  | 1 => .ok (.ldH (w.extractLsb' 21 5) (w.extractLsb' 16 5) (w.extractLsb' 0 13))
  | 2 => .ok (.ldW (w.extractLsb' 21 5) (w.extractLsb' 16 5) (w.extractLsb' 0 13))
  | 3 => .ok (.ldD (w.extractLsb' 21 5) (w.extractLsb' 16 5) (w.extractLsb' 0 13))
  | 4 => .ok (.ldBu (w.extractLsb' 21 5) (w.extractLsb' 16 5) (w.extractLsb' 0 13))
  | 5 => .ok (.ldHu (w.extractLsb' 21 5) (w.extractLsb' 16 5) (w.extractLsb' 0 13))
  | 6 => .ok (.ldWu (w.extractLsb' 21 5) (w.extractLsb' 16 5) (w.extractLsb' 0 13))
  | _ => .error .fieldReserved

/-- Major 0x0A (R26). -/
def decodeSt (w : BitVec 32) : Except Reject Instr :=
  match (w.extractLsb' 13 3).toNat with
  | 0 => .ok (.stB (w.extractLsb' 21 5) (w.extractLsb' 16 5) (w.extractLsb' 0 13))
  | 1 => .ok (.stH (w.extractLsb' 21 5) (w.extractLsb' 16 5) (w.extractLsb' 0 13))
  | 2 => .ok (.stW (w.extractLsb' 21 5) (w.extractLsb' 16 5) (w.extractLsb' 0 13))
  | 3 => .ok (.stD (w.extractLsb' 21 5) (w.extractLsb' 16 5) (w.extractLsb' 0 13))
  | _ => .error .fieldReserved

/-- Major 0x0B (R27). -/
def decodeAmo (w : BitVec 32) : Except Reject Instr :=
  match (w.extractLsb' 7 4).toNat with
  | 0 => .ok (.amoSwap (w.extractLsb' 21 5) (w.extractLsb' 16 5) (w.extractLsb' 11 5) (w.extractLsb' 5 2) (w.extractLsb' 2 3) (w.extractLsb' 0 2))
  | 1 => .ok (.amoAdd (w.extractLsb' 21 5) (w.extractLsb' 16 5) (w.extractLsb' 11 5) (w.extractLsb' 5 2) (w.extractLsb' 2 3) (w.extractLsb' 0 2))
  | 2 => .ok (.amoAnd (w.extractLsb' 21 5) (w.extractLsb' 16 5) (w.extractLsb' 11 5) (w.extractLsb' 5 2) (w.extractLsb' 2 3) (w.extractLsb' 0 2))
  | 3 => .ok (.amoOr (w.extractLsb' 21 5) (w.extractLsb' 16 5) (w.extractLsb' 11 5) (w.extractLsb' 5 2) (w.extractLsb' 2 3) (w.extractLsb' 0 2))
  | 4 => .ok (.amoXor (w.extractLsb' 21 5) (w.extractLsb' 16 5) (w.extractLsb' 11 5) (w.extractLsb' 5 2) (w.extractLsb' 2 3) (w.extractLsb' 0 2))
  | 5 => .ok (.amoMin (w.extractLsb' 21 5) (w.extractLsb' 16 5) (w.extractLsb' 11 5) (w.extractLsb' 5 2) (w.extractLsb' 2 3) (w.extractLsb' 0 2))
  | 6 => .ok (.amoMax (w.extractLsb' 21 5) (w.extractLsb' 16 5) (w.extractLsb' 11 5) (w.extractLsb' 5 2) (w.extractLsb' 2 3) (w.extractLsb' 0 2))
  | 7 => .ok (.amoMinu (w.extractLsb' 21 5) (w.extractLsb' 16 5) (w.extractLsb' 11 5) (w.extractLsb' 5 2) (w.extractLsb' 2 3) (w.extractLsb' 0 2))
  | 8 => .ok (.amoMaxu (w.extractLsb' 21 5) (w.extractLsb' 16 5) (w.extractLsb' 11 5) (w.extractLsb' 5 2) (w.extractLsb' 2 3) (w.extractLsb' 0 2))
  | 9 => .ok (.amoCas (w.extractLsb' 21 5) (w.extractLsb' 16 5) (w.extractLsb' 11 5) (w.extractLsb' 5 2) (w.extractLsb' 2 3) (w.extractLsb' 0 2))
  | 10 => orReserved (w.extractLsb' 11 5) (.orderedLoadZext (w.extractLsb' 21 5) (w.extractLsb' 16 5) (w.extractLsb' 5 2) (w.extractLsb' 2 3) (w.extractLsb' 0 2))
  | 11 => orReserved (w.extractLsb' 11 5) (.orderedLoadSext (w.extractLsb' 21 5) (w.extractLsb' 16 5) (w.extractLsb' 5 2) (w.extractLsb' 2 3) (w.extractLsb' 0 2))
  | 12 => orReserved (w.extractLsb' 21 5) (.orderedStore (w.extractLsb' 16 5) (w.extractLsb' 11 5) (w.extractLsb' 5 2) (w.extractLsb' 2 3) (w.extractLsb' 0 2))
  | _ => .error .functionReserved

/-- Major 0x0C (R28). -/
def decodeBr (w : BitVec 32) : Except Reject Instr :=
  match (w.extractLsb' 13 3).toNat with
  | 0 => .ok (.beq (w.extractLsb' 21 5) (w.extractLsb' 16 5) (w.extractLsb' 0 13))
  | 1 => .ok (.bne (w.extractLsb' 21 5) (w.extractLsb' 16 5) (w.extractLsb' 0 13))
  | 2 => .ok (.blt (w.extractLsb' 21 5) (w.extractLsb' 16 5) (w.extractLsb' 0 13))
  | 3 => .ok (.bge (w.extractLsb' 21 5) (w.extractLsb' 16 5) (w.extractLsb' 0 13))
  | 4 => .ok (.bltu (w.extractLsb' 21 5) (w.extractLsb' 16 5) (w.extractLsb' 0 13))
  | 5 => .ok (.bgeu (w.extractLsb' 21 5) (w.extractLsb' 16 5) (w.extractLsb' 0 13))
  | _ => .error .functionReserved

/-- Major 0x0F (R29). -/
def decodeCsr (w : BitVec 32) : Except Reject Instr :=
  match (w.extractLsb' 0 4).toNat with
  | 0 => .ok (.csrrw (w.extractLsb' 21 5) (w.extractLsb' 16 5) (w.extractLsb' 4 12))
  | 1 => .ok (.csrrs (w.extractLsb' 21 5) (w.extractLsb' 16 5) (w.extractLsb' 4 12))
  | 2 => .ok (.csrrc (w.extractLsb' 21 5) (w.extractLsb' 16 5) (w.extractLsb' 4 12))
  | 3 => .ok (.csrrwi (w.extractLsb' 21 5) (w.extractLsb' 16 5) (w.extractLsb' 4 12))
  | 4 => .ok (.csrrsi (w.extractLsb' 21 5) (w.extractLsb' 16 5) (w.extractLsb' 4 12))
  | 5 => .ok (.csrrci (w.extractLsb' 21 5) (w.extractLsb' 16 5) (w.extractLsb' 4 12))
  | _ => .error .functionReserved

/-- Major 0x10 (R31). -/
def decodeVop (w : BitVec 32) : Except Reject Instr :=
  match (w.extractLsb' 0 8).toNat with
  | 0 => .ok (.vadd (w.extractLsb' 21 5) (w.extractLsb' 16 5) (w.extractLsb' 11 5) (w.extractLsb' 8 3))
  | 1 => .ok (.vsub (w.extractLsb' 21 5) (w.extractLsb' 16 5) (w.extractLsb' 11 5) (w.extractLsb' 8 3))
  | 2 => .ok (.vmul (w.extractLsb' 21 5) (w.extractLsb' 16 5) (w.extractLsb' 11 5) (w.extractLsb' 8 3))
  | 3 => .ok (.vmulh (w.extractLsb' 21 5) (w.extractLsb' 16 5) (w.extractLsb' 11 5) (w.extractLsb' 8 3))
  | 4 => .ok (.vfma (w.extractLsb' 21 5) (w.extractLsb' 16 5) (w.extractLsb' 11 5) (w.extractLsb' 8 3))
  | 5 => .ok (.vfms (w.extractLsb' 21 5) (w.extractLsb' 16 5) (w.extractLsb' 11 5) (w.extractLsb' 8 3))
  | 6 => .ok (.vfnma (w.extractLsb' 21 5) (w.extractLsb' 16 5) (w.extractLsb' 11 5) (w.extractLsb' 8 3))
  | 7 => .ok (.vdiv (w.extractLsb' 21 5) (w.extractLsb' 16 5) (w.extractLsb' 11 5) (w.extractLsb' 8 3))
  | 8 => .ok (.vmin (w.extractLsb' 21 5) (w.extractLsb' 16 5) (w.extractLsb' 11 5) (w.extractLsb' 8 3))
  | 9 => .ok (.vmax (w.extractLsb' 21 5) (w.extractLsb' 16 5) (w.extractLsb' 11 5) (w.extractLsb' 8 3))
  | 10 => .ok (.vsadd (w.extractLsb' 21 5) (w.extractLsb' 16 5) (w.extractLsb' 11 5) (w.extractLsb' 8 3))
  | 11 => .ok (.vssub (w.extractLsb' 21 5) (w.extractLsb' 16 5) (w.extractLsb' 11 5) (w.extractLsb' 8 3))
  | 12 => .ok (.vand (w.extractLsb' 21 5) (w.extractLsb' 16 5) (w.extractLsb' 11 5) (w.extractLsb' 8 3))
  | 13 => .ok (.vor (w.extractLsb' 21 5) (w.extractLsb' 16 5) (w.extractLsb' 11 5) (w.extractLsb' 8 3))
  | 14 => .ok (.vxor (w.extractLsb' 21 5) (w.extractLsb' 16 5) (w.extractLsb' 11 5) (w.extractLsb' 8 3))
  | 15 => .ok (.vandn (w.extractLsb' 21 5) (w.extractLsb' 16 5) (w.extractLsb' 11 5) (w.extractLsb' 8 3))
  | 16 => .ok (.vsll (w.extractLsb' 21 5) (w.extractLsb' 16 5) (w.extractLsb' 11 5) (w.extractLsb' 8 3))
  | 17 => .ok (.vsrl (w.extractLsb' 21 5) (w.extractLsb' 16 5) (w.extractLsb' 11 5) (w.extractLsb' 8 3))
  | 18 => .ok (.vsra (w.extractLsb' 21 5) (w.extractLsb' 16 5) (w.extractLsb' 11 5) (w.extractLsb' 8 3))
  | 24 => .ok (.vceq (w.extractLsb' 21 5) (w.extractLsb' 16 5) (w.extractLsb' 11 5) (w.extractLsb' 8 3))
  | 25 => .ok (.vcne (w.extractLsb' 21 5) (w.extractLsb' 16 5) (w.extractLsb' 11 5) (w.extractLsb' 8 3))
  | 26 => .ok (.vclt (w.extractLsb' 21 5) (w.extractLsb' 16 5) (w.extractLsb' 11 5) (w.extractLsb' 8 3))
  | 27 => .ok (.vcle (w.extractLsb' 21 5) (w.extractLsb' 16 5) (w.extractLsb' 11 5) (w.extractLsb' 8 3))
  | 32 => orReserved (w.extractLsb' 11 5) (.vabs (w.extractLsb' 21 5) (w.extractLsb' 16 5) (w.extractLsb' 8 3))
  | 33 => orReserved (w.extractLsb' 11 5) (.vneg (w.extractLsb' 21 5) (w.extractLsb' 16 5) (w.extractLsb' 8 3))
  | 34 => orReserved (w.extractLsb' 11 5) (.vclz (w.extractLsb' 21 5) (w.extractLsb' 16 5) (w.extractLsb' 8 3))
  | 35 => orReserved (w.extractLsb' 11 5) (.vctz (w.extractLsb' 21 5) (w.extractLsb' 16 5) (w.extractLsb' 8 3))
  | 36 => orReserved (w.extractLsb' 11 5) (.vffs (w.extractLsb' 21 5) (w.extractLsb' 16 5) (w.extractLsb' 8 3))
  | 37 => orReserved (w.extractLsb' 11 5) (.vpopc (w.extractLsb' 21 5) (w.extractLsb' 16 5) (w.extractLsb' 8 3))
  | 38 => orReserved (w.extractLsb' 11 5) (.vexp2 (w.extractLsb' 21 5) (w.extractLsb' 16 5) (w.extractLsb' 8 3))
  | 39 => orReserved (w.extractLsb' 11 5) (.vlog2 (w.extractLsb' 21 5) (w.extractLsb' 16 5) (w.extractLsb' 8 3))
  | 40 => orReserved (w.extractLsb' 11 5) (.vrcp (w.extractLsb' 21 5) (w.extractLsb' 16 5) (w.extractLsb' 8 3))
  | 41 => orReserved (w.extractLsb' 11 5) (.vrsq (w.extractLsb' 21 5) (w.extractLsb' 16 5) (w.extractLsb' 8 3))
  | 48 => orReserved (w.extractLsb' 11 5) (.vcvt (w.extractLsb' 21 5) (w.extractLsb' 16 5) (w.extractLsb' 8 3))
  | 49 => orReserved (w.extractLsb' 11 5) (.vcvtRne (w.extractLsb' 21 5) (w.extractLsb' 16 5) (w.extractLsb' 8 3))
  | 50 => orReserved (w.extractLsb' 11 5) (.vcvtRtz (w.extractLsb' 21 5) (w.extractLsb' 16 5) (w.extractLsb' 8 3))
  | 51 => orReserved (w.extractLsb' 11 5) (.vcvtRdn (w.extractLsb' 21 5) (w.extractLsb' 16 5) (w.extractLsb' 8 3))
  | 52 => orReserved (w.extractLsb' 11 5) (.vcvtRup (w.extractLsb' 21 5) (w.extractLsb' 16 5) (w.extractLsb' 8 3))
  | 53 => orReserved (w.extractLsb' 11 5) (.vcvtRmm (w.extractLsb' 21 5) (w.extractLsb' 16 5) (w.extractLsb' 8 3))
  | 54 => orReserved (w.extractLsb' 11 5) (.vcvtSr (w.extractLsb' 21 5) (w.extractLsb' 16 5) (w.extractLsb' 8 3))
  | 56 => .ok (.vquant (w.extractLsb' 21 5) (w.extractLsb' 16 5) (w.extractLsb' 11 5) (w.extractLsb' 8 3))
  | 57 => .ok (.vdequant (w.extractLsb' 21 5) (w.extractLsb' 16 5) (w.extractLsb' 11 5) (w.extractLsb' 8 3))
  | _ => .error .functionReserved

/-- Major 0x11 (R32). -/
def decodeVops (w : BitVec 32) : Except Reject Instr :=
  match (w.extractLsb' 0 8).toNat with
  | 0 => .ok (.vaddS (w.extractLsb' 21 5) (w.extractLsb' 16 5) (w.extractLsb' 11 5) (w.extractLsb' 8 3))
  | 1 => .ok (.vsubS (w.extractLsb' 21 5) (w.extractLsb' 16 5) (w.extractLsb' 11 5) (w.extractLsb' 8 3))
  | 2 => .ok (.vmulS (w.extractLsb' 21 5) (w.extractLsb' 16 5) (w.extractLsb' 11 5) (w.extractLsb' 8 3))
  | 3 => .ok (.vmulhS (w.extractLsb' 21 5) (w.extractLsb' 16 5) (w.extractLsb' 11 5) (w.extractLsb' 8 3))
  | 4 => .ok (.vfmaS (w.extractLsb' 21 5) (w.extractLsb' 16 5) (w.extractLsb' 11 5) (w.extractLsb' 8 3))
  | 5 => .ok (.vfmsS (w.extractLsb' 21 5) (w.extractLsb' 16 5) (w.extractLsb' 11 5) (w.extractLsb' 8 3))
  | 6 => .ok (.vfnmaS (w.extractLsb' 21 5) (w.extractLsb' 16 5) (w.extractLsb' 11 5) (w.extractLsb' 8 3))
  | 7 => .ok (.vdivS (w.extractLsb' 21 5) (w.extractLsb' 16 5) (w.extractLsb' 11 5) (w.extractLsb' 8 3))
  | 8 => .ok (.vminS (w.extractLsb' 21 5) (w.extractLsb' 16 5) (w.extractLsb' 11 5) (w.extractLsb' 8 3))
  | 9 => .ok (.vmaxS (w.extractLsb' 21 5) (w.extractLsb' 16 5) (w.extractLsb' 11 5) (w.extractLsb' 8 3))
  | 10 => .ok (.vsaddS (w.extractLsb' 21 5) (w.extractLsb' 16 5) (w.extractLsb' 11 5) (w.extractLsb' 8 3))
  | 11 => .ok (.vssubS (w.extractLsb' 21 5) (w.extractLsb' 16 5) (w.extractLsb' 11 5) (w.extractLsb' 8 3))
  | 12 => .ok (.vandS (w.extractLsb' 21 5) (w.extractLsb' 16 5) (w.extractLsb' 11 5) (w.extractLsb' 8 3))
  | 13 => .ok (.vorS (w.extractLsb' 21 5) (w.extractLsb' 16 5) (w.extractLsb' 11 5) (w.extractLsb' 8 3))
  | 14 => .ok (.vxorS (w.extractLsb' 21 5) (w.extractLsb' 16 5) (w.extractLsb' 11 5) (w.extractLsb' 8 3))
  | 15 => .ok (.vandnS (w.extractLsb' 21 5) (w.extractLsb' 16 5) (w.extractLsb' 11 5) (w.extractLsb' 8 3))
  | 16 => .ok (.vsllS (w.extractLsb' 21 5) (w.extractLsb' 16 5) (w.extractLsb' 11 5) (w.extractLsb' 8 3))
  | 17 => .ok (.vsrlS (w.extractLsb' 21 5) (w.extractLsb' 16 5) (w.extractLsb' 11 5) (w.extractLsb' 8 3))
  | 18 => .ok (.vsraS (w.extractLsb' 21 5) (w.extractLsb' 16 5) (w.extractLsb' 11 5) (w.extractLsb' 8 3))
  | 24 => .ok (.vceqS (w.extractLsb' 21 5) (w.extractLsb' 16 5) (w.extractLsb' 11 5) (w.extractLsb' 8 3))
  | 25 => .ok (.vcneS (w.extractLsb' 21 5) (w.extractLsb' 16 5) (w.extractLsb' 11 5) (w.extractLsb' 8 3))
  | 26 => .ok (.vcltS (w.extractLsb' 21 5) (w.extractLsb' 16 5) (w.extractLsb' 11 5) (w.extractLsb' 8 3))
  | 27 => .ok (.vcleS (w.extractLsb' 21 5) (w.extractLsb' 16 5) (w.extractLsb' 11 5) (w.extractLsb' 8 3))
  | _ => .error .functionReserved

/-- Major 0x12 (R32). -/
def decodeVopi (w : BitVec 32) : Except Reject Instr :=
  match (w.extractLsb' 0 8).toNat with
  | 0 => .ok (.vaddI (w.extractLsb' 21 5) (w.extractLsb' 16 5) (w.extractLsb' 11 5) (w.extractLsb' 8 3))
  | 1 => .ok (.vsubI (w.extractLsb' 21 5) (w.extractLsb' 16 5) (w.extractLsb' 11 5) (w.extractLsb' 8 3))
  | 2 => .ok (.vmulI (w.extractLsb' 21 5) (w.extractLsb' 16 5) (w.extractLsb' 11 5) (w.extractLsb' 8 3))
  | 3 => .ok (.vmulhI (w.extractLsb' 21 5) (w.extractLsb' 16 5) (w.extractLsb' 11 5) (w.extractLsb' 8 3))
  | 8 => .ok (.vminI (w.extractLsb' 21 5) (w.extractLsb' 16 5) (w.extractLsb' 11 5) (w.extractLsb' 8 3))
  | 9 => .ok (.vmaxI (w.extractLsb' 21 5) (w.extractLsb' 16 5) (w.extractLsb' 11 5) (w.extractLsb' 8 3))
  | 10 => .ok (.vsaddI (w.extractLsb' 21 5) (w.extractLsb' 16 5) (w.extractLsb' 11 5) (w.extractLsb' 8 3))
  | 11 => .ok (.vssubI (w.extractLsb' 21 5) (w.extractLsb' 16 5) (w.extractLsb' 11 5) (w.extractLsb' 8 3))
  | 12 => .ok (.vandI (w.extractLsb' 21 5) (w.extractLsb' 16 5) (w.extractLsb' 11 5) (w.extractLsb' 8 3))
  | 13 => .ok (.vorI (w.extractLsb' 21 5) (w.extractLsb' 16 5) (w.extractLsb' 11 5) (w.extractLsb' 8 3))
  | 14 => .ok (.vxorI (w.extractLsb' 21 5) (w.extractLsb' 16 5) (w.extractLsb' 11 5) (w.extractLsb' 8 3))
  | 15 => .ok (.vandnI (w.extractLsb' 21 5) (w.extractLsb' 16 5) (w.extractLsb' 11 5) (w.extractLsb' 8 3))
  | 16 => .ok (.vsllI (w.extractLsb' 21 5) (w.extractLsb' 16 5) (w.extractLsb' 11 5) (w.extractLsb' 8 3))
  | 17 => .ok (.vsrlI (w.extractLsb' 21 5) (w.extractLsb' 16 5) (w.extractLsb' 11 5) (w.extractLsb' 8 3))
  | 18 => .ok (.vsraI (w.extractLsb' 21 5) (w.extractLsb' 16 5) (w.extractLsb' 11 5) (w.extractLsb' 8 3))
  | 24 => .ok (.vceqI (w.extractLsb' 21 5) (w.extractLsb' 16 5) (w.extractLsb' 11 5) (w.extractLsb' 8 3))
  | 25 => .ok (.vcneI (w.extractLsb' 21 5) (w.extractLsb' 16 5) (w.extractLsb' 11 5) (w.extractLsb' 8 3))
  | 26 => .ok (.vcltI (w.extractLsb' 21 5) (w.extractLsb' 16 5) (w.extractLsb' 11 5) (w.extractLsb' 8 3))
  | 27 => .ok (.vcleI (w.extractLsb' 21 5) (w.extractLsb' 16 5) (w.extractLsb' 11 5) (w.extractLsb' 8 3))
  | _ => .error .functionReserved

/-- Major 0x13 (R33). -/
def decodeVmsk (w : BitVec 32) : Except Reject Instr :=
  match (w.extractLsb' 0 8).toNat with
  | 0 => orReserved (w.extractLsb' 8 3) (.mand (w.extractLsb' 21 5) (w.extractLsb' 16 5) (w.extractLsb' 11 5))
  | 1 => orReserved (w.extractLsb' 8 3) (.mor (w.extractLsb' 21 5) (w.extractLsb' 16 5) (w.extractLsb' 11 5))
  | 2 => orReserved (w.extractLsb' 8 3) (.mxor (w.extractLsb' 21 5) (w.extractLsb' 16 5) (w.extractLsb' 11 5))
  | 3 => orReserved (w.extractLsb' 8 3) (.mandn (w.extractLsb' 21 5) (w.extractLsb' 16 5) (w.extractLsb' 11 5))
  | 4 => orReserved (w.extractLsb' 8 3) (.morn (w.extractLsb' 21 5) (w.extractLsb' 16 5) (w.extractLsb' 11 5))
  | 5 => orReserved (w.extractLsb' 8 8) (.mnot (w.extractLsb' 21 5) (w.extractLsb' 16 5))
  | 6 => orReserved (w.extractLsb' 11 5) (.mpopc (w.extractLsb' 21 5) (w.extractLsb' 16 5) (w.extractLsb' 8 3))
  | 7 => orReserved (w.extractLsb' 11 5) (.mfirst (w.extractLsb' 21 5) (w.extractLsb' 16 5) (w.extractLsb' 8 3))
  | 8 => orReserved (w.extractLsb' 8 13) (.mset (w.extractLsb' 21 5))
  | 9 => orReserved (w.extractLsb' 8 13) (.mclr (w.extractLsb' 21 5))
  | _ => .error .functionReserved

/-- Major 0x14 (R34). -/
def decodeVprm (w : BitVec 32) : Except Reject Instr :=
  match (w.extractLsb' 0 8).toNat with
  | 0 => .ok (.vslideup (w.extractLsb' 21 5) (w.extractLsb' 16 5) (w.extractLsb' 11 5) (w.extractLsb' 8 3))
  | 1 => .ok (.vslidedn (w.extractLsb' 21 5) (w.extractLsb' 16 5) (w.extractLsb' 11 5) (w.extractLsb' 8 3))
  | 2 => .ok (.vgather (w.extractLsb' 21 5) (w.extractLsb' 16 5) (w.extractLsb' 11 5) (w.extractLsb' 8 3))
  | 3 => orReserved (w.extractLsb' 11 5) (.vcompress (w.extractLsb' 21 5) (w.extractLsb' 16 5) (w.extractLsb' 8 3))
  | 4 => orReserved (w.extractLsb' 11 5) (.vexpand (w.extractLsb' 21 5) (w.extractLsb' 16 5) (w.extractLsb' 8 3))
  | 5 => orReserved (w.extractLsb' 11 5) (.vbcast (w.extractLsb' 21 5) (w.extractLsb' 16 5) (w.extractLsb' 8 3))
  | 6 => orReserved (w.extractLsb' 8 3) (.vext (w.extractLsb' 21 5) (w.extractLsb' 16 5) (w.extractLsb' 11 5))
  | 7 => orReserved (w.extractLsb' 8 3) (.vins (w.extractLsb' 21 5) (w.extractLsb' 16 5) (w.extractLsb' 11 5))
  | 16 => .ok (.vredsum (w.extractLsb' 21 5) (w.extractLsb' 16 5) (w.extractLsb' 11 5) (w.extractLsb' 8 3))
  | 17 => .ok (.vredsumo (w.extractLsb' 21 5) (w.extractLsb' 16 5) (w.extractLsb' 11 5) (w.extractLsb' 8 3))
  | 18 => .ok (.vredmin (w.extractLsb' 21 5) (w.extractLsb' 16 5) (w.extractLsb' 11 5) (w.extractLsb' 8 3))
  | 19 => .ok (.vredmax (w.extractLsb' 21 5) (w.extractLsb' 16 5) (w.extractLsb' 11 5) (w.extractLsb' 8 3))
  | _ => .error .functionReserved

/-- Major 0x15 (R35). -/
def decodeVcfg (w : BitVec 32) : Except Reject Instr :=
  match (w.extractLsb' 0 8).toNat with
  | 0 => orReserved (w.extractLsb' 8 3) (.vsetl (w.extractLsb' 21 5) (w.extractLsb' 16 5) (w.extractLsb' 11 5))
  | 1 => orReserved (w.extractLsb' 8 3) (.vtag (w.extractLsb' 21 5) (w.extractLsb' 16 5) (w.extractLsb' 13 3) (w.extractLsb' 11 2))
  | _ => .error .functionReserved

/-- Major 0x16 (R36). -/
def decodeVld (w : BitVec 32) : Except Reject Instr :=
  match (w.extractLsb' 0 8).toNat with
  | 0 => orReserved (w.extractLsb' 11 5) (.vld (w.extractLsb' 21 5) (w.extractLsb' 16 5) (w.extractLsb' 8 3))
  | 1 => .ok (.vlds (w.extractLsb' 21 5) (w.extractLsb' 16 5) (w.extractLsb' 11 5) (w.extractLsb' 8 3))
  | 2 => .ok (.vldx (w.extractLsb' 21 5) (w.extractLsb' 16 5) (w.extractLsb' 11 5) (w.extractLsb' 8 3))
  | 3 => orReserved (w.extractLsb' 11 5) (.vldFf (w.extractLsb' 21 5) (w.extractLsb' 16 5) (w.extractLsb' 8 3))
  | 4 => orReserved (w.extractLsb' 11 5) (.vldt (w.extractLsb' 21 5) (w.extractLsb' 16 5) (w.extractLsb' 8 3))
  | _ => .error .functionReserved

/-- Major 0x17 (R36). -/
def decodeVst (w : BitVec 32) : Except Reject Instr :=
  match (w.extractLsb' 0 8).toNat with
  | 0 => orReserved (w.extractLsb' 11 5) (.vst (w.extractLsb' 21 5) (w.extractLsb' 16 5) (w.extractLsb' 8 3))
  | 1 => .ok (.vsts (w.extractLsb' 21 5) (w.extractLsb' 16 5) (w.extractLsb' 11 5) (w.extractLsb' 8 3))
  | 2 => .ok (.vstx (w.extractLsb' 21 5) (w.extractLsb' 16 5) (w.extractLsb' 11 5) (w.extractLsb' 8 3))
  | 4 => orReserved (w.extractLsb' 11 5) (.vstt (w.extractLsb' 21 5) (w.extractLsb' 16 5) (w.extractLsb' 8 3))
  | 16 => .ok (.vmmAdd (w.extractLsb' 21 5) (w.extractLsb' 16 5) (w.extractLsb' 11 5) (w.extractLsb' 8 3))
  | 17 => .ok (.vmmSub (w.extractLsb' 21 5) (w.extractLsb' 16 5) (w.extractLsb' 11 5) (w.extractLsb' 8 3))
  | 18 => .ok (.vmmMul (w.extractLsb' 21 5) (w.extractLsb' 16 5) (w.extractLsb' 11 5) (w.extractLsb' 8 3))
  | 19 => .ok (.vmmMin (w.extractLsb' 21 5) (w.extractLsb' 16 5) (w.extractLsb' 11 5) (w.extractLsb' 8 3))
  | 20 => .ok (.vmmMax (w.extractLsb' 21 5) (w.extractLsb' 16 5) (w.extractLsb' 11 5) (w.extractLsb' 8 3))
  | 21 => .ok (.vmmAnd (w.extractLsb' 21 5) (w.extractLsb' 16 5) (w.extractLsb' 11 5) (w.extractLsb' 8 3))
  | 22 => .ok (.vmmOr (w.extractLsb' 21 5) (w.extractLsb' 16 5) (w.extractLsb' 11 5) (w.extractLsb' 8 3))
  | 23 => .ok (.vmmXor (w.extractLsb' 21 5) (w.extractLsb' 16 5) (w.extractLsb' 11 5) (w.extractLsb' 8 3))
  | 24 => orReserved (w.extractLsb' 11 5) (.vmmCpy (w.extractLsb' 21 5) (w.extractLsb' 16 5) (w.extractLsb' 8 3))
  | 32 => orReserved ((w.extractLsb' 19 7) ++ (w.extractLsb' 8 8)) (.vfba (w.extractLsb' 16 3))
  | _ => .error .functionReserved

/-- Major 0x18 (R37). -/
def decodeMcfg (w : BitVec 32) : Except Reject Instr :=
  match (w.extractLsb' 3 3).toNat with
  | 0 => orReserved ((w.extractLsb' 21 5) ++ (w.extractLsb' 11 5)) (.mcfg (w.extractLsb' 16 5) (w.extractLsb' 6 5) (w.extractLsb' 2 1) (w.extractLsb' 1 1) (w.extractLsb' 0 1))
  | _ => .error .functionReserved

/-- Major 0x19 (R37). -/
def decodeMma (w : BitVec 32) : Except Reject Instr :=
  match (w.extractLsb' 0 6).toNat with
  | 0 => orReserved (w.extractLsb' 6 5) (.mma (w.extractLsb' 23 3) (w.extractLsb' 21 2) (w.extractLsb' 16 5) (w.extractLsb' 11 5))
  | 1 => .ok (.mmaX (w.extractLsb' 23 3) (w.extractLsb' 21 2) (w.extractLsb' 16 5) (w.extractLsb' 11 5) (w.extractLsb' 6 5))
  | 2 => .ok (.mmaG (w.extractLsb' 23 3) (w.extractLsb' 21 2) (w.extractLsb' 16 5) (w.extractLsb' 11 5) (w.extractLsb' 6 5))
  | _ => .error .functionReserved

/-- Major 0x1A (R37). -/
def decodeMspa (w : BitVec 32) : Except Reject Instr :=
  match (w.extractLsb' 0 6).toNat with
  | 0 => .ok (.mmaS24 (w.extractLsb' 23 3) (w.extractLsb' 21 2) (w.extractLsb' 16 5) (w.extractLsb' 11 5) (w.extractLsb' 6 5))
  | 1 => .ok (.mmaBm (w.extractLsb' 23 3) (w.extractLsb' 21 2) (w.extractLsb' 16 5) (w.extractLsb' 11 5) (w.extractLsb' 6 5))
  | _ => .error .functionReserved

/-- Major 0x1B (R37). -/
def decodeMacc (w : BitVec 32) : Except Reject Instr :=
  match (w.extractLsb' 0 6).toNat with
  | 0 => orReserved (w.extractLsb' 6 17) (.mzero (w.extractLsb' 23 3))
  | 1 => orReserved (w.extractLsb' 6 5) (.mrsum (w.extractLsb' 23 3) (w.extractLsb' 21 2) (w.extractLsb' 16 5) (w.extractLsb' 11 5))
  | 2 => orReserved ((w.extractLsb' 22 1) ++ (w.extractLsb' 6 10)) (.mld (w.extractLsb' 23 3) (w.extractLsb' 21 1) (w.extractLsb' 16 5))
  | 3 =>
    orReserved ((w.extractLsb' 22 1) ++ (w.extractLsb' 11 5)) (.mst (w.extractLsb' 23 3) (w.extractLsb' 21 1) (w.extractLsb' 16 5)) |>.bind fun i =>
      match (w.extractLsb' 6 5).toNat with
      | 0 => .ok i
      | 1 => .ok (.mstSm (w.extractLsb' 23 3) (w.extractLsb' 21 1) (w.extractLsb' 16 5))
      | _ => .error .fieldReserved
  | 4 => orReserved (w.extractLsb' 22 1) (.mdrain (w.extractLsb' 23 3) (w.extractLsb' 21 1) (w.extractLsb' 16 5) (w.extractLsb' 11 5) (w.extractLsb' 6 5))
  | _ => .error .functionReserved

/-- Major 0x1C (R39). -/
def decodeXfer (w : BitVec 32) : Except Reject Instr :=
  match (w.extractLsb' 0 11).toNat with
  | 0 => orReserved (w.extractLsb' 15 1) (.xcopy (w.extractLsb' 21 5) (w.extractLsb' 16 5) (w.extractLsb' 11 4))
  | 1 => orReserved (w.extractLsb' 11 5) (.xcopyQ (w.extractLsb' 21 5) (w.extractLsb' 16 5))
  | 2 => orReserved ((w.extractLsb' 21 5) ++ (w.extractLsb' 11 5)) (.xabort (w.extractLsb' 16 5))
  | 3 => orReserved (w.extractLsb' 11 5) (.xqry (w.extractLsb' 21 5) (w.extractLsb' 16 5))
  | _ => .error .functionReserved

/-- Major 0x1D (R39). -/
def decodeXsyn (w : BitVec 32) : Except Reject Instr :=
  match (w.extractLsb' 0 11).toNat with
  | 0 => orReserved (w.extractLsb' 20 6) (.xwaitW (w.extractLsb' 16 4) (w.extractLsb' 11 5))
  | 1 => orReserved (w.extractLsb' 11 15) (.xwaitE)
  | 2 => orReserved (w.extractLsb' 11 10) (.xev (w.extractLsb' 21 5))
  | _ => .error .functionReserved

/-- Major 0x1E (R40). -/
def decodeFcfg (w : BitVec 32) : Except Reject Instr :=
  match (w.extractLsb' 0 11).toNat with
  | 0 => orReserved (w.extractLsb' 11 5) (.fcfgLd (w.extractLsb' 21 5) (w.extractLsb' 16 5))
  | 1 => orReserved (w.extractLsb' 11 5) (.fcfgSw (w.extractLsb' 21 5) (w.extractLsb' 16 5))
  | _ => .error .functionReserved

/-- Major 0x1F (R40). -/
def decodeFctl (w : BitVec 32) : Except Reject Instr :=
  match (w.extractLsb' 0 11).toNat with
  | 0 => orReserved (w.extractLsb' 11 15) (.fstart)
  | 1 => orReserved (w.extractLsb' 11 15) (.fstop)
  | 2 => orReserved ((w.extractLsb' 21 5) ++ (w.extractLsb' 11 5)) (.fsave (w.extractLsb' 16 5))
  | 3 => orReserved ((w.extractLsb' 21 5) ++ (w.extractLsb' 11 5)) (.frest (w.extractLsb' 16 5))
  | 4 => orReserved ((w.extractLsb' 21 5) ++ (w.extractLsb' 11 5)) (.fmark (w.extractLsb' 16 5))
  | 5 => orReserved (w.extractLsb' 16 5) (.fstat (w.extractLsb' 21 5) (w.extractLsb' 11 5))
  | _ => .error .functionReserved

/-- The instructions of majors 0x20 to 0x25: the same constructors as in `Instr`, which has too many of them for Lean to compile the
last ones when they are built. -/
inductive Late where
  | fportW (a : BitVec 5) (p : BitVec 4)
  | fportWEos (a : BitVec 5) (p : BitVec 4)
  | fportR (d : BitVec 5) (p : BitVec 4)
  | fportRStatus (d : BitVec 5) (p : BitVec 4)
  | sopen (d : BitVec 5) (a : BitVec 5)
  | sclose (d : BitVec 5)
  | sadv (d : BitVec 5) (a : BitVec 5)
  | spos (d : BitVec 5) (a : BitVec 5)
  | chbind (c : BitVec 5) (a : BitVec 5)
  | chsend (d : BitVec 5) (a : BitVec 5) (c : BitVec 5)
  | chrecv (d : BitVec 5) (a : BitVec 5) (c : BitVec 5)
  | chpoll (d : BitVec 5) (c : BitVec 5)
  | chseq (d : BitVec 5) (c : BitVec 5)
  | drgtSet (l : BitVec 4) (a : BitVec 5)
  | drgtRd (d : BitVec 5) (l : BitVec 4) (s : BitVec 5)
  | drgtFreeze (l : BitVec 4)
  | drgtThaw (l : BitVec 4)
  | launch (d : BitVec 5) (a : BitVec 5)
  | trig
  | exit (a : BitVec 5)
  | waitCh (d : BitVec 5) (a : BitVec 5)
  | waitCtr (d : BitVec 5) (a : BitVec 5) (b : BitVec 5)
  | yield
  | rtake (d : BitVec 5) (a : BitVec 5)
  | ctrRd (d : BitVec 5) (a : BitVec 5)
  | ctrAdd (a : BitVec 5) (b : BitVec 5)
  | cancel (a : BitVec 5)
  | gsqArm (a : BitVec 5) (b : BitVec 5)
  | spalloc (d : BitVec 5) (a : BitVec 5)
  | spfree (a : BitVec 5) (b : BitVec 5)
  | opreq (d : BitVec 5) (a : BitVec 5)
  | opcap (d : BitVec 5) (a : BitVec 5)
  deriving DecidableEq, Repr

/-- The instruction. -/
noncomputable def Late.toInstr : Late → Instr
  | .fportW a p => .fportW a p
  | .fportWEos a p => .fportWEos a p
  | .fportR d p => .fportR d p
  | .fportRStatus d p => .fportRStatus d p
  | .sopen d a => .sopen d a
  | .sclose d => .sclose d
  | .sadv d a => .sadv d a
  | .spos d a => .spos d a
  | .chbind c a => .chbind c a
  | .chsend d a c => .chsend d a c
  | .chrecv d a c => .chrecv d a c
  | .chpoll d c => .chpoll d c
  | .chseq d c => .chseq d c
  | .drgtSet l a => .drgtSet l a
  | .drgtRd d l s => .drgtRd d l s
  | .drgtFreeze l => .drgtFreeze l
  | .drgtThaw l => .drgtThaw l
  | .launch d a => .launch d a
  | .trig => .trig
  | .exit a => .exit a
  | .waitCh d a => .waitCh d a
  | .waitCtr d a b => .waitCtr d a b
  | .yield => .yield
  | .rtake d a => .rtake d a
  | .ctrRd d a => .ctrRd d a
  | .ctrAdd a b => .ctrAdd a b
  | .cancel a => .cancel a
  | .gsqArm a b => .gsqArm a b
  | .spalloc d a => .spalloc d a
  | .spfree a b => .spfree a b
  | .opreq d a => .opreq d a
  | .opcap d a => .opcap d a

/-- No field of it holds a reserved value, as `Instr.wellFormed` says. -/
def Late.wellFormed : Late → Bool
  | .sopen d _ => streamReg d
  | .sclose d => streamReg d
  | .sadv d _ => streamReg d
  | .spos _ a => streamReg a
  | .chsend d _ _ => streamReg d
  | .rtake d _ => registerPair d
  | _ => true

/-- Major 0x20 (R40). -/
def decodeFprt (w : BitVec 32) : Except Reject Late :=
  match (w.extractLsb' 0 11).toNat with
  | 0 =>
    orReserved (w.extractLsb' 21 5) (if (w.extractLsb' 15 1) = 0 then .fportW (w.extractLsb' 16 5) (w.extractLsb' 11 4) else .fportWEos (w.extractLsb' 16 5) (w.extractLsb' 11 4))
  | 1 =>
    orReserved (w.extractLsb' 16 5) (if (w.extractLsb' 15 1) = 0 then .fportR (w.extractLsb' 21 5) (w.extractLsb' 11 4) else .fportRStatus (w.extractLsb' 21 5) (w.extractLsb' 11 4))
  | _ => .error .functionReserved

/-- Major 0x21 (R41). -/
def decodeStrm (w : BitVec 32) : Except Reject Late :=
  match (w.extractLsb' 0 11).toNat with
  | 0 => orReserved (w.extractLsb' 11 5) (.sopen (w.extractLsb' 21 5) (w.extractLsb' 16 5))
  | 1 => orReserved (w.extractLsb' 11 10) (.sclose (w.extractLsb' 21 5))
  | 2 => orReserved (w.extractLsb' 11 5) (.sadv (w.extractLsb' 21 5) (w.extractLsb' 16 5))
  | 3 => orReserved (w.extractLsb' 11 5) (.spos (w.extractLsb' 21 5) (w.extractLsb' 16 5))
  | _ => .error .functionReserved

/-- Major 0x22 (R41). -/
def decodeChan (w : BitVec 32) : Except Reject Late :=
  match (w.extractLsb' 0 11).toNat with
  | 0 => orReserved (w.extractLsb' 11 5) (.chbind (w.extractLsb' 21 5) (w.extractLsb' 16 5))
  | 1 => .ok (.chsend (w.extractLsb' 21 5) (w.extractLsb' 16 5) (w.extractLsb' 11 5))
  | 2 => .ok (.chrecv (w.extractLsb' 21 5) (w.extractLsb' 16 5) (w.extractLsb' 11 5))
  | 3 => orReserved (w.extractLsb' 16 5) (.chpoll (w.extractLsb' 21 5) (w.extractLsb' 11 5))
  | 4 => orReserved (w.extractLsb' 16 5) (.chseq (w.extractLsb' 21 5) (w.extractLsb' 11 5))
  | _ => .error .functionReserved

/-- Major 0x23 (R41). -/
def decodeDrgt (w : BitVec 32) : Except Reject Late :=
  match (w.extractLsb' 0 11).toNat with
  | 0 => orReserved ((w.extractLsb' 25 1) ++ (w.extractLsb' 11 5)) (.drgtSet (w.extractLsb' 21 4) (w.extractLsb' 16 5))
  | 1 => orReserved (w.extractLsb' 20 1) (.drgtRd (w.extractLsb' 21 5) (w.extractLsb' 16 4) (w.extractLsb' 11 5))
  | 2 =>
    orReserved ((w.extractLsb' 25 1) ++ (w.extractLsb' 16 5)) (.drgtThaw (w.extractLsb' 21 4)) |>.bind fun i =>
      match (w.extractLsb' 11 5).toNat with
      | 0 => .ok i
      | 1 => .ok (.drgtFreeze (w.extractLsb' 21 4))
      | _ => .error .fieldReserved
  | _ => .error .functionReserved

/-- Major 0x24 (R42). -/
def decodeSchd (w : BitVec 32) : Except Reject Late :=
  match (w.extractLsb' 0 11).toNat with
  | 0 => orReserved (w.extractLsb' 11 5) (.launch (w.extractLsb' 21 5) (w.extractLsb' 16 5))
  | 1 => orReserved (w.extractLsb' 11 15) (.trig)
  | 2 => orReserved ((w.extractLsb' 21 5) ++ (w.extractLsb' 11 5)) (.exit (w.extractLsb' 16 5))
  | 3 => orReserved (w.extractLsb' 11 5) (.waitCh (w.extractLsb' 21 5) (w.extractLsb' 16 5))
  | 4 => .ok (.waitCtr (w.extractLsb' 21 5) (w.extractLsb' 16 5) (w.extractLsb' 11 5))
  | 5 => orReserved (w.extractLsb' 11 15) (.yield)
  | 6 => orReserved (w.extractLsb' 11 5) (.rtake (w.extractLsb' 21 5) (w.extractLsb' 16 5))
  | 7 => orReserved (w.extractLsb' 11 5) (.ctrRd (w.extractLsb' 21 5) (w.extractLsb' 16 5))
  | 8 => orReserved (w.extractLsb' 21 5) (.ctrAdd (w.extractLsb' 16 5) (w.extractLsb' 11 5))
  | 9 => orReserved ((w.extractLsb' 21 5) ++ (w.extractLsb' 11 5)) (.cancel (w.extractLsb' 16 5))
  | 10 => orReserved (w.extractLsb' 21 5) (.gsqArm (w.extractLsb' 16 5) (w.extractLsb' 11 5))
  | _ => .error .functionReserved

/-- Major 0x25 (R42). -/
def decodeOppt (w : BitVec 32) : Except Reject Late :=
  match (w.extractLsb' 0 11).toNat with
  | 0 => orReserved (w.extractLsb' 11 5) (.spalloc (w.extractLsb' 21 5) (w.extractLsb' 16 5))
  | 1 => orReserved (w.extractLsb' 21 5) (.spfree (w.extractLsb' 16 5) (w.extractLsb' 11 5))
  | 2 => orReserved (w.extractLsb' 11 5) (.opreq (w.extractLsb' 21 5) (w.extractLsb' 16 5))
  | 3 => orReserved (w.extractLsb' 11 5) (.opcap (w.extractLsb' 21 5) (w.extractLsb' 16 5))
  | _ => .error .functionReserved

/-- A decoded word. -/
inductive Decoded where
  | early (i : Instr) | late (l : Late)
  deriving DecidableEq, Repr

/-- The instruction. -/
noncomputable def Decoded.toInstr : Decoded → Instr
  | .early i => i
  | .late l => l.toInstr

/-- Is the decoded instruction well formed? -/
def Decoded.wellFormed : Decoded → Bool
  | .early i => i.wellFormed
  | .late l => l.wellFormed

/-- What a 32-bit word encodes (R8, R9, R23: the major opcode is bits [31:26]). -/
def decodeWord (w : BitVec 32) : Except Reject Decoded :=
  match (w.extractLsb' 26 6).toNat with
  | 0 => (decodeSys w).map .early
  | 1 => (decodeIalu w).map .early
  | 2 => .ok (.early (.addi (w.extractLsb' 21 5) (w.extractLsb' 16 5) (w.extractLsb' 0 16)))
  | 3 => .ok (.early (.andi (w.extractLsb' 21 5) (w.extractLsb' 16 5) (w.extractLsb' 0 16)))
  | 4 => .ok (.early (.ori (w.extractLsb' 21 5) (w.extractLsb' 16 5) (w.extractLsb' 0 16)))
  | 5 => .ok (.early (.xori (w.extractLsb' 21 5) (w.extractLsb' 16 5) (w.extractLsb' 0 16)))
  | 6 => (decodeSlti w).map .early
  | 7 => (decodeShift w).map .early
  | 8 => .ok (.early (.lih (w.extractLsb' 21 5) (w.extractLsb' 0 21)))
  | 9 => (decodeLd w).map .early
  | 10 => (decodeSt w).map .early
  | 11 => (decodeAmo w).map .early
  | 12 => (decodeBr w).map .early
  | 13 => .ok (.early (.jal (w.extractLsb' 0 26)))
  | 14 => .ok (.early (.jalr (w.extractLsb' 21 5) (w.extractLsb' 16 5) (w.extractLsb' 0 16)))
  | 15 => (decodeCsr w).map .early
  | 16 => (decodeVop w).map .early
  | 17 => (decodeVops w).map .early
  | 18 => (decodeVopi w).map .early
  | 19 => (decodeVmsk w).map .early
  | 20 => (decodeVprm w).map .early
  | 21 => (decodeVcfg w).map .early
  | 22 => (decodeVld w).map .early
  | 23 => (decodeVst w).map .early
  | 24 => (decodeMcfg w).map .early
  | 25 => (decodeMma w).map .early
  | 26 => (decodeMspa w).map .early
  | 27 => (decodeMacc w).map .early
  | 28 => (decodeXfer w).map .early
  | 29 => (decodeXsyn w).map .early
  | 30 => (decodeFcfg w).map .early
  | 31 => (decodeFctl w).map .early
  | 32 => (decodeFprt w).map .late
  | 33 => (decodeStrm w).map .late
  | 34 => (decodeChan w).map .late
  | 35 => (decodeDrgt w).map .late
  | 36 => (decodeSchd w).map .late
  | 37 => (decodeOppt w).map .late
  | _ => .error .majorReserved

/-- The instruction a 32-bit word encodes. -/
noncomputable def decode (w : BitVec 32) : Except Reject Instr := (decodeWord w).map Decoded.toInstr

/-- The word of an instruction (R9, Tables 1.5 to 1.17); an event of the device has none. -/
def encode : Instr → Option (BitVec 32)
  | .add d a b => some (0x1#6 ++ d ++ a ++ b ++ 0x0#11)
  | .sub d a b => some (0x1#6 ++ d ++ a ++ b ++ 0x1#11)
  | .and d a b => some (0x1#6 ++ d ++ a ++ b ++ 0x2#11)
  | .or d a b => some (0x1#6 ++ d ++ a ++ b ++ 0x3#11)
  | .xor d a b => some (0x1#6 ++ d ++ a ++ b ++ 0x4#11)
  | .andn d a b => some (0x1#6 ++ d ++ a ++ b ++ 0x5#11)
  | .sll d a b => some (0x1#6 ++ d ++ a ++ b ++ 0x6#11)
  | .srl d a b => some (0x1#6 ++ d ++ a ++ b ++ 0x7#11)
  | .sra d a b => some (0x1#6 ++ d ++ a ++ b ++ 0x8#11)
  | .rol d a b => some (0x1#6 ++ d ++ a ++ b ++ 0x9#11)
  | .ror d a b => some (0x1#6 ++ d ++ a ++ b ++ 0xA#11)
  | .slt d a b => some (0x1#6 ++ d ++ a ++ b ++ 0xB#11)
  | .sltu d a b => some (0x1#6 ++ d ++ a ++ b ++ 0xC#11)
  | .min d a b => some (0x1#6 ++ d ++ a ++ b ++ 0xD#11)
  | .max d a b => some (0x1#6 ++ d ++ a ++ b ++ 0xE#11)
  | .minu d a b => some (0x1#6 ++ d ++ a ++ b ++ 0xF#11)
  | .maxu d a b => some (0x1#6 ++ d ++ a ++ b ++ 0x10#11)
  | .mul d a b => some (0x1#6 ++ d ++ a ++ b ++ 0x11#11)
  | .mulh d a b => some (0x1#6 ++ d ++ a ++ b ++ 0x12#11)
  | .mulhu d a b => some (0x1#6 ++ d ++ a ++ b ++ 0x13#11)
  | .mulhsu d a b => some (0x1#6 ++ d ++ a ++ b ++ 0x14#11)
  | .div d a b => some (0x1#6 ++ d ++ a ++ b ++ 0x15#11)
  | .divu d a b => some (0x1#6 ++ d ++ a ++ b ++ 0x16#11)
  | .rem d a b => some (0x1#6 ++ d ++ a ++ b ++ 0x17#11)
  | .remu d a b => some (0x1#6 ++ d ++ a ++ b ++ 0x18#11)
  | .clz d a => some (0x1#6 ++ d ++ a ++ 0x19#16)
  | .ctz d a => some (0x1#6 ++ d ++ a ++ 0x1A#16)
  | .ffs d a => some (0x1#6 ++ d ++ a ++ 0x1B#16)
  | .popc d a => some (0x1#6 ++ d ++ a ++ 0x1C#16)
  | .bswap d a => some (0x1#6 ++ d ++ a ++ 0x1D#16)
  | .addi d a i => some (0x2#6 ++ d ++ a ++ i)
  | .andi d a i => some (0x3#6 ++ d ++ a ++ i)
  | .ori d a i => some (0x4#6 ++ d ++ a ++ i)
  | .xori d a i => some (0x5#6 ++ d ++ a ++ i)
  | .slti d a i => some (0x6#6 ++ d ++ a ++ 0x0#1 ++ i)
  | .sltiu d a i => some (0x6#6 ++ d ++ a ++ 0x1#1 ++ i)
  | .slli d a h => some (0x7#6 ++ d ++ a ++ 0x0#10 ++ h)
  | .srli d a h => some (0x7#6 ++ d ++ a ++ 0x40#10 ++ h)
  | .srai d a h => some (0x7#6 ++ d ++ a ++ 0x80#10 ++ h)
  | .rori d a h => some (0x7#6 ++ d ++ a ++ 0xC0#10 ++ h)
  | .lih d i => some (0x8#6 ++ d ++ i)
  | .ldB d a i => some (0x9#6 ++ d ++ a ++ 0x0#3 ++ i)
  | .ldH d a i => some (0x9#6 ++ d ++ a ++ 0x1#3 ++ i)
  | .ldW d a i => some (0x9#6 ++ d ++ a ++ 0x2#3 ++ i)
  | .ldD d a i => some (0x9#6 ++ d ++ a ++ 0x3#3 ++ i)
  | .ldBu d a i => some (0x9#6 ++ d ++ a ++ 0x4#3 ++ i)
  | .ldHu d a i => some (0x9#6 ++ d ++ a ++ 0x5#3 ++ i)
  | .ldWu d a i => some (0x9#6 ++ d ++ a ++ 0x6#3 ++ i)
  | .stB d a i => some (0xA#6 ++ d ++ a ++ 0x0#3 ++ i)
  | .stH d a i => some (0xA#6 ++ d ++ a ++ 0x1#3 ++ i)
  | .stW d a i => some (0xA#6 ++ d ++ a ++ 0x2#3 ++ i)
  | .stD d a i => some (0xA#6 ++ d ++ a ++ 0x3#3 ++ i)
  | .amoSwap d a b o s z => some (0xB#6 ++ d ++ a ++ b ++ 0x0#4 ++ o ++ s ++ z)
  | .amoAdd d a b o s z => some (0xB#6 ++ d ++ a ++ b ++ 0x1#4 ++ o ++ s ++ z)
  | .amoAnd d a b o s z => some (0xB#6 ++ d ++ a ++ b ++ 0x2#4 ++ o ++ s ++ z)
  | .amoOr d a b o s z => some (0xB#6 ++ d ++ a ++ b ++ 0x3#4 ++ o ++ s ++ z)
  | .amoXor d a b o s z => some (0xB#6 ++ d ++ a ++ b ++ 0x4#4 ++ o ++ s ++ z)
  | .amoMin d a b o s z => some (0xB#6 ++ d ++ a ++ b ++ 0x5#4 ++ o ++ s ++ z)
  | .amoMax d a b o s z => some (0xB#6 ++ d ++ a ++ b ++ 0x6#4 ++ o ++ s ++ z)
  | .amoMinu d a b o s z => some (0xB#6 ++ d ++ a ++ b ++ 0x7#4 ++ o ++ s ++ z)
  | .amoMaxu d a b o s z => some (0xB#6 ++ d ++ a ++ b ++ 0x8#4 ++ o ++ s ++ z)
  | .amoCas d a b o s z => some (0xB#6 ++ d ++ a ++ b ++ 0x9#4 ++ o ++ s ++ z)
  | .orderedLoadZext d a o s z => some (0xB#6 ++ d ++ a ++ 0xA#9 ++ o ++ s ++ z)
  | .orderedLoadSext d a o s z => some (0xB#6 ++ d ++ a ++ 0xB#9 ++ o ++ s ++ z)
  | .orderedStore a b o s z => some (0x160#11 ++ a ++ b ++ 0xC#4 ++ o ++ s ++ z)
  | .beq a b i => some (0xC#6 ++ a ++ b ++ 0x0#3 ++ i)
  | .bne a b i => some (0xC#6 ++ a ++ b ++ 0x1#3 ++ i)
  | .blt a b i => some (0xC#6 ++ a ++ b ++ 0x2#3 ++ i)
  | .bge a b i => some (0xC#6 ++ a ++ b ++ 0x3#3 ++ i)
  | .bltu a b i => some (0xC#6 ++ a ++ b ++ 0x4#3 ++ i)
  | .bgeu a b i => some (0xC#6 ++ a ++ b ++ 0x5#3 ++ i)
  | .jal i => some (0xD#6 ++ i)
  | .jalr d a i => some (0xE#6 ++ d ++ a ++ i)
  | .csrrw d a c => some (0xF#6 ++ d ++ a ++ c ++ 0x0#4)
  | .csrrs d a c => some (0xF#6 ++ d ++ a ++ c ++ 0x1#4)
  | .csrrc d a c => some (0xF#6 ++ d ++ a ++ c ++ 0x2#4)
  | .csrrwi d a c => some (0xF#6 ++ d ++ a ++ c ++ 0x3#4)
  | .csrrsi d a c => some (0xF#6 ++ d ++ a ++ c ++ 0x4#4)
  | .csrrci d a c => some (0xF#6 ++ d ++ a ++ c ++ 0x5#4)
  | .ill x y z => some (0x0#6 ++ x ++ y ++ z ++ 0x0#11)
  | .trap c => some (0x0#11 ++ c ++ 0x1#11)
  | .tret => some (0x2#32)
  | .brk c => some (0x0#11 ++ c ++ 0x3#11)
  | .fence s => some (0x0#18 ++ s ++ 0x4#11)
  | .fenceQ m => some (0x0#11 ++ m ++ 0x5#16)
  | .fenceI => some (0x6#32)
  | .mwait d a b => some (0x0#6 ++ d ++ a ++ b ++ 0x7#11)
  | .vadd d a b k => some (0x10#6 ++ d ++ a ++ b ++ k ++ 0x0#8)
  | .vsub d a b k => some (0x10#6 ++ d ++ a ++ b ++ k ++ 0x1#8)
  | .vmul d a b k => some (0x10#6 ++ d ++ a ++ b ++ k ++ 0x2#8)
  | .vmulh d a b k => some (0x10#6 ++ d ++ a ++ b ++ k ++ 0x3#8)
  | .vfma d a b k => some (0x10#6 ++ d ++ a ++ b ++ k ++ 0x4#8)
  | .vfms d a b k => some (0x10#6 ++ d ++ a ++ b ++ k ++ 0x5#8)
  | .vfnma d a b k => some (0x10#6 ++ d ++ a ++ b ++ k ++ 0x6#8)
  | .vdiv d a b k => some (0x10#6 ++ d ++ a ++ b ++ k ++ 0x7#8)
  | .vmin d a b k => some (0x10#6 ++ d ++ a ++ b ++ k ++ 0x8#8)
  | .vmax d a b k => some (0x10#6 ++ d ++ a ++ b ++ k ++ 0x9#8)
  | .vsadd d a b k => some (0x10#6 ++ d ++ a ++ b ++ k ++ 0xA#8)
  | .vssub d a b k => some (0x10#6 ++ d ++ a ++ b ++ k ++ 0xB#8)
  | .vand d a b k => some (0x10#6 ++ d ++ a ++ b ++ k ++ 0xC#8)
  | .vor d a b k => some (0x10#6 ++ d ++ a ++ b ++ k ++ 0xD#8)
  | .vxor d a b k => some (0x10#6 ++ d ++ a ++ b ++ k ++ 0xE#8)
  | .vandn d a b k => some (0x10#6 ++ d ++ a ++ b ++ k ++ 0xF#8)
  | .vsll d a b k => some (0x10#6 ++ d ++ a ++ b ++ k ++ 0x10#8)
  | .vsrl d a b k => some (0x10#6 ++ d ++ a ++ b ++ k ++ 0x11#8)
  | .vsra d a b k => some (0x10#6 ++ d ++ a ++ b ++ k ++ 0x12#8)
  | .vceq d a b k => some (0x10#6 ++ d ++ a ++ b ++ k ++ 0x18#8)
  | .vcne d a b k => some (0x10#6 ++ d ++ a ++ b ++ k ++ 0x19#8)
  | .vclt d a b k => some (0x10#6 ++ d ++ a ++ b ++ k ++ 0x1A#8)
  | .vcle d a b k => some (0x10#6 ++ d ++ a ++ b ++ k ++ 0x1B#8)
  | .vabs d a k => some (0x10#6 ++ d ++ a ++ 0x0#5 ++ k ++ 0x20#8)
  | .vneg d a k => some (0x10#6 ++ d ++ a ++ 0x0#5 ++ k ++ 0x21#8)
  | .vclz d a k => some (0x10#6 ++ d ++ a ++ 0x0#5 ++ k ++ 0x22#8)
  | .vctz d a k => some (0x10#6 ++ d ++ a ++ 0x0#5 ++ k ++ 0x23#8)
  | .vffs d a k => some (0x10#6 ++ d ++ a ++ 0x0#5 ++ k ++ 0x24#8)
  | .vpopc d a k => some (0x10#6 ++ d ++ a ++ 0x0#5 ++ k ++ 0x25#8)
  | .vexp2 d a k => some (0x10#6 ++ d ++ a ++ 0x0#5 ++ k ++ 0x26#8)
  | .vlog2 d a k => some (0x10#6 ++ d ++ a ++ 0x0#5 ++ k ++ 0x27#8)
  | .vrcp d a k => some (0x10#6 ++ d ++ a ++ 0x0#5 ++ k ++ 0x28#8)
  | .vrsq d a k => some (0x10#6 ++ d ++ a ++ 0x0#5 ++ k ++ 0x29#8)
  | .vcvt d a k => some (0x10#6 ++ d ++ a ++ 0x0#5 ++ k ++ 0x30#8)
  | .vcvtRne d a k => some (0x10#6 ++ d ++ a ++ 0x0#5 ++ k ++ 0x31#8)
  | .vcvtRtz d a k => some (0x10#6 ++ d ++ a ++ 0x0#5 ++ k ++ 0x32#8)
  | .vcvtRdn d a k => some (0x10#6 ++ d ++ a ++ 0x0#5 ++ k ++ 0x33#8)
  | .vcvtRup d a k => some (0x10#6 ++ d ++ a ++ 0x0#5 ++ k ++ 0x34#8)
  | .vcvtRmm d a k => some (0x10#6 ++ d ++ a ++ 0x0#5 ++ k ++ 0x35#8)
  | .vcvtSr d a k => some (0x10#6 ++ d ++ a ++ 0x0#5 ++ k ++ 0x36#8)
  | .vquant d a b k => some (0x10#6 ++ d ++ a ++ b ++ k ++ 0x38#8)
  | .vdequant d a b k => some (0x10#6 ++ d ++ a ++ b ++ k ++ 0x39#8)
  | .vaddS d a b k => some (0x11#6 ++ d ++ a ++ b ++ k ++ 0x0#8)
  | .vsubS d a b k => some (0x11#6 ++ d ++ a ++ b ++ k ++ 0x1#8)
  | .vmulS d a b k => some (0x11#6 ++ d ++ a ++ b ++ k ++ 0x2#8)
  | .vmulhS d a b k => some (0x11#6 ++ d ++ a ++ b ++ k ++ 0x3#8)
  | .vfmaS d a b k => some (0x11#6 ++ d ++ a ++ b ++ k ++ 0x4#8)
  | .vfmsS d a b k => some (0x11#6 ++ d ++ a ++ b ++ k ++ 0x5#8)
  | .vfnmaS d a b k => some (0x11#6 ++ d ++ a ++ b ++ k ++ 0x6#8)
  | .vdivS d a b k => some (0x11#6 ++ d ++ a ++ b ++ k ++ 0x7#8)
  | .vminS d a b k => some (0x11#6 ++ d ++ a ++ b ++ k ++ 0x8#8)
  | .vmaxS d a b k => some (0x11#6 ++ d ++ a ++ b ++ k ++ 0x9#8)
  | .vsaddS d a b k => some (0x11#6 ++ d ++ a ++ b ++ k ++ 0xA#8)
  | .vssubS d a b k => some (0x11#6 ++ d ++ a ++ b ++ k ++ 0xB#8)
  | .vandS d a b k => some (0x11#6 ++ d ++ a ++ b ++ k ++ 0xC#8)
  | .vorS d a b k => some (0x11#6 ++ d ++ a ++ b ++ k ++ 0xD#8)
  | .vxorS d a b k => some (0x11#6 ++ d ++ a ++ b ++ k ++ 0xE#8)
  | .vandnS d a b k => some (0x11#6 ++ d ++ a ++ b ++ k ++ 0xF#8)
  | .vsllS d a b k => some (0x11#6 ++ d ++ a ++ b ++ k ++ 0x10#8)
  | .vsrlS d a b k => some (0x11#6 ++ d ++ a ++ b ++ k ++ 0x11#8)
  | .vsraS d a b k => some (0x11#6 ++ d ++ a ++ b ++ k ++ 0x12#8)
  | .vceqS d a b k => some (0x11#6 ++ d ++ a ++ b ++ k ++ 0x18#8)
  | .vcneS d a b k => some (0x11#6 ++ d ++ a ++ b ++ k ++ 0x19#8)
  | .vcltS d a b k => some (0x11#6 ++ d ++ a ++ b ++ k ++ 0x1A#8)
  | .vcleS d a b k => some (0x11#6 ++ d ++ a ++ b ++ k ++ 0x1B#8)
  | .vaddI d a i k => some (0x12#6 ++ d ++ a ++ i ++ k ++ 0x0#8)
  | .vsubI d a i k => some (0x12#6 ++ d ++ a ++ i ++ k ++ 0x1#8)
  | .vmulI d a i k => some (0x12#6 ++ d ++ a ++ i ++ k ++ 0x2#8)
  | .vmulhI d a i k => some (0x12#6 ++ d ++ a ++ i ++ k ++ 0x3#8)
  | .vminI d a i k => some (0x12#6 ++ d ++ a ++ i ++ k ++ 0x8#8)
  | .vmaxI d a i k => some (0x12#6 ++ d ++ a ++ i ++ k ++ 0x9#8)
  | .vsaddI d a i k => some (0x12#6 ++ d ++ a ++ i ++ k ++ 0xA#8)
  | .vssubI d a i k => some (0x12#6 ++ d ++ a ++ i ++ k ++ 0xB#8)
  | .vandI d a i k => some (0x12#6 ++ d ++ a ++ i ++ k ++ 0xC#8)
  | .vorI d a i k => some (0x12#6 ++ d ++ a ++ i ++ k ++ 0xD#8)
  | .vxorI d a i k => some (0x12#6 ++ d ++ a ++ i ++ k ++ 0xE#8)
  | .vandnI d a i k => some (0x12#6 ++ d ++ a ++ i ++ k ++ 0xF#8)
  | .vsllI d a i k => some (0x12#6 ++ d ++ a ++ i ++ k ++ 0x10#8)
  | .vsrlI d a i k => some (0x12#6 ++ d ++ a ++ i ++ k ++ 0x11#8)
  | .vsraI d a i k => some (0x12#6 ++ d ++ a ++ i ++ k ++ 0x12#8)
  | .vceqI d a i k => some (0x12#6 ++ d ++ a ++ i ++ k ++ 0x18#8)
  | .vcneI d a i k => some (0x12#6 ++ d ++ a ++ i ++ k ++ 0x19#8)
  | .vcltI d a i k => some (0x12#6 ++ d ++ a ++ i ++ k ++ 0x1A#8)
  | .vcleI d a i k => some (0x12#6 ++ d ++ a ++ i ++ k ++ 0x1B#8)
  | .mand d a b => some (0x13#6 ++ d ++ a ++ b ++ 0x0#11)
  | .mor d a b => some (0x13#6 ++ d ++ a ++ b ++ 0x1#11)
  | .mxor d a b => some (0x13#6 ++ d ++ a ++ b ++ 0x2#11)
  | .mandn d a b => some (0x13#6 ++ d ++ a ++ b ++ 0x3#11)
  | .morn d a b => some (0x13#6 ++ d ++ a ++ b ++ 0x4#11)
  | .mnot d a => some (0x13#6 ++ d ++ a ++ 0x5#16)
  | .mpopc d a k => some (0x13#6 ++ d ++ a ++ 0x0#5 ++ k ++ 0x6#8)
  | .mfirst d a k => some (0x13#6 ++ d ++ a ++ 0x0#5 ++ k ++ 0x7#8)
  | .mset d => some (0x13#6 ++ d ++ 0x8#21)
  | .mclr d => some (0x13#6 ++ d ++ 0x9#21)
  | .vslideup d a b k => some (0x14#6 ++ d ++ a ++ b ++ k ++ 0x0#8)
  | .vslidedn d a b k => some (0x14#6 ++ d ++ a ++ b ++ k ++ 0x1#8)
  | .vgather d a b k => some (0x14#6 ++ d ++ a ++ b ++ k ++ 0x2#8)
  | .vcompress d a k => some (0x14#6 ++ d ++ a ++ 0x0#5 ++ k ++ 0x3#8)
  | .vexpand d a k => some (0x14#6 ++ d ++ a ++ 0x0#5 ++ k ++ 0x4#8)
  | .vbcast d a k => some (0x14#6 ++ d ++ a ++ 0x0#5 ++ k ++ 0x5#8)
  | .vext d a b => some (0x14#6 ++ d ++ a ++ b ++ 0x6#11)
  | .vins d a b => some (0x14#6 ++ d ++ a ++ b ++ 0x7#11)
  | .vredsum d a b k => some (0x14#6 ++ d ++ a ++ b ++ k ++ 0x10#8)
  | .vredsumo d a b k => some (0x14#6 ++ d ++ a ++ b ++ k ++ 0x11#8)
  | .vredmin d a b k => some (0x14#6 ++ d ++ a ++ b ++ k ++ 0x12#8)
  | .vredmax d a b k => some (0x14#6 ++ d ++ a ++ b ++ k ++ 0x13#8)
  | .vsetl d a b => some (0x15#6 ++ d ++ a ++ b ++ 0x0#11)
  | .vtag d t r g => some (0x15#6 ++ d ++ t ++ r ++ g ++ 0x1#11)
  | .vld d a k => some (0x16#6 ++ d ++ a ++ 0x0#5 ++ k ++ 0x0#8)
  | .vlds d a b k => some (0x16#6 ++ d ++ a ++ b ++ k ++ 0x1#8)
  | .vldx d a b k => some (0x16#6 ++ d ++ a ++ b ++ k ++ 0x2#8)
  | .vldFf d a k => some (0x16#6 ++ d ++ a ++ 0x0#5 ++ k ++ 0x3#8)
  | .vldt d a k => some (0x16#6 ++ d ++ a ++ 0x0#5 ++ k ++ 0x4#8)
  | .vst d a k => some (0x17#6 ++ d ++ a ++ 0x0#5 ++ k ++ 0x0#8)
  | .vsts d a b k => some (0x17#6 ++ d ++ a ++ b ++ k ++ 0x1#8)
  | .vstx d a b k => some (0x17#6 ++ d ++ a ++ b ++ k ++ 0x2#8)
  | .vstt d a k => some (0x17#6 ++ d ++ a ++ 0x0#5 ++ k ++ 0x4#8)
  | .vmmAdd d a b k => some (0x17#6 ++ d ++ a ++ b ++ k ++ 0x10#8)
  | .vmmSub d a b k => some (0x17#6 ++ d ++ a ++ b ++ k ++ 0x11#8)
  | .vmmMul d a b k => some (0x17#6 ++ d ++ a ++ b ++ k ++ 0x12#8)
  | .vmmMin d a b k => some (0x17#6 ++ d ++ a ++ b ++ k ++ 0x13#8)
  | .vmmMax d a b k => some (0x17#6 ++ d ++ a ++ b ++ k ++ 0x14#8)
  | .vmmAnd d a b k => some (0x17#6 ++ d ++ a ++ b ++ k ++ 0x15#8)
  | .vmmOr d a b k => some (0x17#6 ++ d ++ a ++ b ++ k ++ 0x16#8)
  | .vmmXor d a b k => some (0x17#6 ++ d ++ a ++ b ++ k ++ 0x17#8)
  | .vmmCpy d a k => some (0x17#6 ++ d ++ a ++ 0x0#5 ++ k ++ 0x18#8)
  | .vfba s => some (0xB80#13 ++ s ++ 0x20#16)
  | .mcfg a f t u v => some (0x300#11 ++ a ++ 0x0#5 ++ f ++ 0x0#3 ++ t ++ u ++ v)
  | .mma q e a b => some (0x19#6 ++ q ++ e ++ a ++ b ++ 0x0#11)
  | .mmaX q e a b v => some (0x19#6 ++ q ++ e ++ a ++ b ++ v ++ 0x1#6)
  | .mmaG q e a b v => some (0x19#6 ++ q ++ e ++ a ++ b ++ v ++ 0x2#6)
  | .mmaS24 q e a b v => some (0x1A#6 ++ q ++ e ++ a ++ b ++ v ++ 0x0#6)
  | .mmaBm q e a b v => some (0x1A#6 ++ q ++ e ++ a ++ b ++ v ++ 0x1#6)
  | .mzero q => some (0x1B#6 ++ q ++ 0x0#23)
  | .mrsum q e a b => some (0x1B#6 ++ q ++ e ++ a ++ b ++ 0x1#11)
  | .mld q e a => some (0x1B#6 ++ q ++ 0x0#1 ++ e ++ a ++ 0x2#16)
  | .mst q e a => some (0x1B#6 ++ q ++ 0x0#1 ++ e ++ a ++ 0x3#16)
  | .mstSm q e a => some (0x1B#6 ++ q ++ 0x0#1 ++ e ++ a ++ 0x43#16)
  | .mdrain q e a b t => some (0x1B#6 ++ q ++ 0x0#1 ++ e ++ a ++ b ++ t ++ 0x4#6)
  | .xcopy d a c => some (0x1C#6 ++ d ++ a ++ 0x0#1 ++ c ++ 0x0#11)
  | .xcopyQ d a => some (0x1C#6 ++ d ++ a ++ 0x1#16)
  | .xabort a => some (0x380#11 ++ a ++ 0x2#16)
  | .xqry d a => some (0x1C#6 ++ d ++ a ++ 0x3#16)
  | .xwaitW c b => some (0x740#12 ++ c ++ b ++ 0x0#11)
  | .xwaitE => some (0x74000001#32)
  | .xev d => some (0x1D#6 ++ d ++ 0x2#21)
  | .fcfgLd d a => some (0x1E#6 ++ d ++ a ++ 0x0#16)
  | .fcfgSw d a => some (0x1E#6 ++ d ++ a ++ 0x1#16)
  | .fstart => some (0x7C000000#32)
  | .fstop => some (0x7C000001#32)
  | .fsave a => some (0x3E0#11 ++ a ++ 0x2#16)
  | .frest a => some (0x3E0#11 ++ a ++ 0x3#16)
  | .fmark a => some (0x3E0#11 ++ a ++ 0x4#16)
  | .fstat d s => some (0x1F#6 ++ d ++ 0x0#5 ++ s ++ 0x5#11)
  | .fportW a p => some (0x400#11 ++ a ++ 0x0#1 ++ p ++ 0x0#11)
  | .fportWEos a p => some (0x400#11 ++ a ++ 0x1#1 ++ p ++ 0x0#11)
  | .fportR d p => some (0x20#6 ++ d ++ 0x0#5 ++ 0x0#1 ++ p ++ 0x1#11)
  | .fportRStatus d p => some (0x20#6 ++ d ++ 0x0#5 ++ 0x1#1 ++ p ++ 0x1#11)
  | .sopen d a => some (0x21#6 ++ d ++ a ++ 0x0#16)
  | .sclose d => some (0x21#6 ++ d ++ 0x1#21)
  | .sadv d a => some (0x21#6 ++ d ++ a ++ 0x2#16)
  | .spos d a => some (0x21#6 ++ d ++ a ++ 0x3#16)
  | .chbind c a => some (0x22#6 ++ c ++ a ++ 0x0#16)
  | .chsend d a c => some (0x22#6 ++ d ++ a ++ c ++ 0x1#11)
  | .chrecv d a c => some (0x22#6 ++ d ++ a ++ c ++ 0x2#11)
  | .chpoll d c => some (0x22#6 ++ d ++ 0x0#5 ++ c ++ 0x3#11)
  | .chseq d c => some (0x22#6 ++ d ++ 0x0#5 ++ c ++ 0x4#11)
  | .drgtSet l a => some (0x46#7 ++ l ++ a ++ 0x0#16)
  | .drgtRd d l s => some (0x23#6 ++ d ++ 0x0#1 ++ l ++ s ++ 0x1#11)
  | .drgtFreeze l => some (0x46#7 ++ l ++ 0x802#21)
  | .drgtThaw l => some (0x46#7 ++ l ++ 0x2#21)
  | .launch d a => some (0x24#6 ++ d ++ a ++ 0x0#16)
  | .trig => some (0x90000001#32)
  | .exit a => some (0x480#11 ++ a ++ 0x2#16)
  | .waitCh d a => some (0x24#6 ++ d ++ a ++ 0x3#16)
  | .waitCtr d a b => some (0x24#6 ++ d ++ a ++ b ++ 0x4#11)
  | .yield => some (0x90000005#32)
  | .rtake d a => some (0x24#6 ++ d ++ a ++ 0x6#16)
  | .ctrRd d a => some (0x24#6 ++ d ++ a ++ 0x7#16)
  | .ctrAdd a b => some (0x480#11 ++ a ++ b ++ 0x8#11)
  | .cancel a => some (0x480#11 ++ a ++ 0x9#16)
  | .gsqArm a b => some (0x480#11 ++ a ++ b ++ 0xA#11)
  | .spalloc d a => some (0x25#6 ++ d ++ a ++ 0x0#16)
  | .spfree a b => some (0x4A0#11 ++ a ++ b ++ 0x1#11)
  | .opreq d a => some (0x25#6 ++ d ++ a ++ 0x2#16)
  | .opcap d a => some (0x25#6 ++ d ++ a ++ 0x3#16)
  | .nonInstructionWord _ => none
  | .takeTrap _ _ => none
  | .fetchFault _ _ => none
  | .engineTrap _ => none
  | .vectorEntryPerform _ => none
  | .matrixEntryStart _ => none
  | .matrixEntryComplete _ _ => none
  | .engineEntryRetire _ => none
  | .mwaitTimeout _ _ => none
  | .strandAgePromotion _ _ => none
  | .copyAccept _ => none
  | .copyLineWrite _ _ => none
  | .copyComplete _ _ => none
  | .copyPageFault _ _ => none
  | .eventPostDeferred _ _ => none
  | .teamStart _ _ _ => none
  | .helperEnd _ _ => none
  | .teamExit _ => none
  | .cancelDelivery _ _ => none
  | .supervisorRestart _ => none
  | .noticePostRetry _ => none
  | .fabricAdd _ _ => none
  | .fabricSub _ _ => none
  | .fabricMul _ _ => none
  | .fabricFma _ _ => none
  | .fabricMin _ _ => none
  | .fabricMax _ _ => none
  | .fabricAnd _ _ => none
  | .fabricOr _ _ => none
  | .fabricXor _ _ => none
  | .fabricShl _ _ => none
  | .fabricShr _ _ => none
  | .fabricCmp _ _ => none
  | .fabricSel _ _ => none
  | .fabricCvt _ _ => none
  | .fabricUnpk _ _ => none
  | .fabricPack _ _ => none
  | .fabricAgen _ _ => none
  | .fabricLdn _ _ => none
  | .fabricStn _ _ => none
  | .fabricAmon _ _ => none
  | .fabricGate _ _ => none
  | .fabricSteer _ _ => none
  | .fabricMerge _ _ => none
  | .fabricIsect _ _ => none
  | .fabricCarry _ _ => none
  | .fabricInv _ _ => none
  | .fabricCtr _ _ => none
  | .fabricRtake _ _ => none
  | .fabricXreq _ _ => none
  | .fabricVin _ _ => none
  | .fabricVout _ _ => none
  | .fabricConst _ _ => none
  | .fabricDrop _ _ => none
  | .fabricDup _ _ => none
  | .fabricAcc _ _ => none
  | .fabricTagchk _ _ => none
  | .fabricPositionSwitch _ _ => none
  | .lateFiring _ _ => none
  | .resolutionWatchWrite _ => none
  | .streamElementArrival _ _ => none
  | .draughtSample _ _ => none
  | .rateMessageArrival _ _ _ => none
  | .reservationRegistration _ _ => none
  | .reservationPageRegister _ _ _ => none
  | .lineRequest _ _ _ => none
  | .probeShared _ _ => none
  | .probeInvalidate _ _ => none
  | .lineEviction _ _ => none
  | .tileCacheRetention _ => none
  | .splitProbe _ => none
  | .splitAnswer _ => none
  | .positionReport _ => none
  | .reservationRelease _ => none
  | .forwardedAcquire _ _ => none
  | .backInvalidateSnoop _ => none
  | .externalRead _ _ => none
  | .externalWrite _ _ _ => none
  | .migrationArm _ => none
  | .migrationStart _ => none
  | .migrationLineCopy _ => none
  | .poolWordObserved _ _ => none
  | .partPreempt _ => none
  | .tileHalt _ => none
  | .contextSwapOut _ => none
  | .contextMove _ => none
  | .stripeEviction _ _ _ => none
  | .partResume _ => none
  | .contextRestore _ => none
  | .stripeRefill _ _ _ => none
  | .markerNoticeArrival _ _ => none
  | .snapshot _ => none
  | .errorConsumed _ _ _ _ => none
  | .rollback _ => none
  | .permitAudit _ => none
  | .flitCrcRetry _ _ => none
  | .ucieLaneRepair _ _ => none
  | .patrolScrub _ _ => none
  | .tileFence _ => none
  | .allocatorAck _ => none
  | .stripeMove _ => none
  | .cacheWayDisable _ => none
  | .clockChange => none
  | .voltageRamp => none
  | .opStepComplete => none
  | .charMapRefresh _ _ _ _ _ => none
  | .deviceReset => none
  | .partSetup _ => none
  | .partReset _ => none
  | .partFree _ => none
  | .lend _ _ _ => none
  | .revoke _ _ => none
  | .revocationNotice _ _ => none
  | .revocationAck _ => none
  | .revokeTimeout _ => none
  | .errlog _ _ _ => none
  | .charmap _ => none
  | .measure => none
  | .attest _ => none
  | .fwStage _ => none
  | .devConfig _ _ _ => none
  | .hbmChannelFailure _ => none
  | .cxlCompletionTimeout _ _ => none
  | .linkTraining _ _ _ => none

/-- The host's reading of one table word: the table numbers bit 0 as the least significant bit of the word, and every
instruction is one 32-bit little-endian word (R8). -/
noncomputable def decodeTableWord (nbits w : Nat) : Option Instr :=
  match decode (BitVec.ofNat 32 (w % 2 ^ nbits)) with
  | .ok i => some i
  | .error _ => none

end Sys2Proof
end

