-- ==== Sys2Proof/Machine/Sys.lean ====
section
/-! DEFINITION. System instructions, major 0x00 (R30, R79 to R83, R88), and words that are not instructions (R43 to R45).
`fence.q` naming an engine queue stands with the engine instructions. -/

namespace Sys2Proof.Machine

/-- `ill`, or any SYS word with fn11 = 0 (R88): raises `ILL`. -/
def execIll (_x _y _z : BitVec 5) (s : State) : Host.Outcome State Fault Refusal :=
  .next (raise s (decodeTrap cILL))

/-- `trap code` (R88): `tpc` is the next word and `tva` the code. -/
def execTrap (c : BitVec 10) (s : State) : Host.Outcome State Fault Refusal :=
  .next (raise s { cause := cTRAP, tva := c.zeroExtend 56, tpc := some (s.cur.pc + 4) })

/-- `tret` (R88): with H = 0 it raises `ILL`. -/
def execTret (s : State) : Host.Outcome State Fault Refusal :=
  .next (if s.cur.h then returnFromTrap s else raise s (decodeTrap cILL))

/-- `brk code` (R88): `tpc` is the `brk` word. -/
def execBrk (c : BitVec 10) (s : State) : Host.Outcome State Fault Refusal :=
  .next (raise s { cause := cBRK, tva := c.zeroExtend 56 })

/-- `fence.<scope>` (R79): every earlier access of the strand is already performed at every scope, so only the pc advances. -/
def execFence (_sc : BitVec 3) (s : State) : Host.Outcome State Fault Refusal := .next s.advance

/-- L1I without its stale lines: those whose bytes memory no longer holds (R81, R192). -/
def freshL1i (s : State) (x : Tile) : SMap (List CacheLine) :=
  (x.l1i.map fun (k, ls) => (k, ls.filter fun c => decide (c.data = lineBytes s c.line))).filter fun (_, ls) => !ls.isEmpty

/-- `fence.i` (R81): the stale lines of the tile's L1I go, so that a later fetch observes every write. -/
def execFenceI (s : State) : Host.Outcome State Fault Refusal :=
  .next (s.setCurTile { s.curTile with l1i := freshL1i s s.curTile }).advance

/-- The cycle at which this `mwait` times out (R83): fixed when it is first executed. -/
def mwaitLimit (s : State) (b : BitVec 5) : Option Nat :=
  match s.cur.state with
  | .waiting (.mwait _ l) => l
  | _ => if b = 0 then none else some (s.cyc + (s.reg b).toNat)

/-- `mwait` (R83): the status, or the wait.  Its read stands in the strand-memory queue (R75). -/
def mwait (d a b : BitVec 5) : M Unit := do
  awaitJoin
  let s ← get
  match classify (s.reg a) with
  | some (.virt va) =>
    let (pa, _) ← translate s.agent s.curPart va .read
    let s ← get
    let limit := mwaitLimit s b
    if s.cur.watch ≠ some (BitVec.ofNat 49 (pa / 128)) then set (s.retire d 3)
    else match mwaitStatus s s.ct s.cs limit with
      | some v => set (s.retire d v)
      | none => throw (.wait (.mwait d limit))
  | _ => throw (.trap { cause := cADDR, tva := tvaOf (s.reg a) })

def execMwait (d a b : BitVec 5) (s : State) : Host.Outcome State Fault Refusal := runScalar (mwait d a b) s

/-! ### Words that are not instructions -/

/-- What R43 says of a word: none when it encodes a well-formed instruction. -/
def wordReject (w : BitVec 32) : Option Reject :=
  match decodeWord w with
  | .error r => some r
  | .ok i => if i.wellFormed then none else some .fieldReserved

/-- The lead-only majors of Table 1.4. -/
def leadOnlyMajor (w : BitVec 32) : Bool := 0x10 ≤ fld w 26 6 && fld w 26 6 ≤ 0x20

/-- The cause a word raises, in the order of R44; none when the word is an instruction. -/
def wordCause (w : BitVec 32) (lead : Bool) : Option (BitVec 8) :=
  match wordReject w with
  | some .majorReserved => some cILL
  | some .functionReserved => some cILL
  | some .fieldReserved => if leadOnlyMajor w && !lead then some cILL else some cRSVD
  | none => none

/-- NON_INSTRUCTION_WORD (R43 to R45): a fetched word that encodes no instruction raises its decode trap. -/
def execNonInstructionWord (w : BitVec 32) (s : State) : Host.Outcome State Fault Refusal :=
  match wordCause w s.isLead with
  | some c => .next (raise s (decodeTrap c))
  | none => .next s

end Sys2Proof.Machine
end

