-- ==== Sys2Proof/Machine/Dispatch.lean ====
section
/-! DEFINITION. The dispatch: one arm per constructor of `Instr`, each one direct call of its meaning. -/

namespace Sys2Proof.Machine

/-- The meaning of an instruction or event. -/
def exec (i : Instr) (s : State) : Host.Outcome State Fault Refusal :=
  match i with
  | .add d a b => Sys2Proof.Machine.execAdd d a b s
  | .sub d a b => Sys2Proof.Machine.execSub d a b s
  | .and d a b => Sys2Proof.Machine.execAnd d a b s
  | .or d a b => Sys2Proof.Machine.execOr d a b s
  | .xor d a b => Sys2Proof.Machine.execXor d a b s
  | .andn d a b => Sys2Proof.Machine.execAndn d a b s
  | .sll d a b => Sys2Proof.Machine.execSll d a b s
  | .srl d a b => Sys2Proof.Machine.execSrl d a b s
  | .sra d a b => Sys2Proof.Machine.execSra d a b s
  | .rol d a b => Sys2Proof.Machine.execRol d a b s
  | .ror d a b => Sys2Proof.Machine.execRor d a b s
  | .slt d a b => Sys2Proof.Machine.execSlt d a b s
  | .sltu d a b => Sys2Proof.Machine.execSltu d a b s
  | .min d a b => Sys2Proof.Machine.execMin d a b s
  | .max d a b => Sys2Proof.Machine.execMax d a b s
  | .minu d a b => Sys2Proof.Machine.execMinu d a b s
  | .maxu d a b => Sys2Proof.Machine.execMaxu d a b s
  | .mul d a b => Sys2Proof.Machine.execMul d a b s
  | .mulh d a b => Sys2Proof.Machine.execMulh d a b s
  | .mulhu d a b => Sys2Proof.Machine.execMulhu d a b s
  | .mulhsu d a b => Sys2Proof.Machine.execMulhsu d a b s
  | .div d a b => Sys2Proof.Machine.execDiv d a b s
  | .divu d a b => Sys2Proof.Machine.execDivu d a b s
  | .rem d a b => Sys2Proof.Machine.execRem d a b s
  | .remu d a b => Sys2Proof.Machine.execRemu d a b s
  | .clz d a => Sys2Proof.Machine.execClz d a s
  | .ctz d a => Sys2Proof.Machine.execCtz d a s
  | .ffs d a => Sys2Proof.Machine.execFfs d a s
  | .popc d a => Sys2Proof.Machine.execPopc d a s
  | .bswap d a => Sys2Proof.Machine.execBswap d a s
  | .addi d a i0 => Sys2Proof.Machine.execAddi d a i0 s
  | .andi d a i0 => Sys2Proof.Machine.execAndi d a i0 s
  | .ori d a i0 => Sys2Proof.Machine.execOri d a i0 s
  | .xori d a i0 => Sys2Proof.Machine.execXori d a i0 s
  | .slti d a i0 => Sys2Proof.Machine.execSlti d a i0 s
  | .sltiu d a i0 => Sys2Proof.Machine.execSltiu d a i0 s
  | .slli d a h => Sys2Proof.Machine.execSlli d a h s
  | .srli d a h => Sys2Proof.Machine.execSrli d a h s
  | .srai d a h => Sys2Proof.Machine.execSrai d a h s
  | .rori d a h => Sys2Proof.Machine.execRori d a h s
  | .lih d i0 => Sys2Proof.Machine.execLih d i0 s
  | .ldB d a i0 => Sys2Proof.Machine.execLdB d a i0 s
  | .ldH d a i0 => Sys2Proof.Machine.execLdH d a i0 s
  | .ldW d a i0 => Sys2Proof.Machine.execLdW d a i0 s
  | .ldD d a i0 => Sys2Proof.Machine.execLdD d a i0 s
  | .ldBu d a i0 => Sys2Proof.Machine.execLdBu d a i0 s
  | .ldHu d a i0 => Sys2Proof.Machine.execLdHu d a i0 s
  | .ldWu d a i0 => Sys2Proof.Machine.execLdWu d a i0 s
  | .stB d a i0 => Sys2Proof.Machine.execStB d a i0 s
  | .stH d a i0 => Sys2Proof.Machine.execStH d a i0 s
  | .stW d a i0 => Sys2Proof.Machine.execStW d a i0 s
  | .stD d a i0 => Sys2Proof.Machine.execStD d a i0 s
  | .amoSwap d a b o s0 z => Sys2Proof.Machine.execAmoSwap d a b o s0 z s
  | .amoAdd d a b o s0 z => Sys2Proof.Machine.execAmoAdd d a b o s0 z s
  | .amoAnd d a b o s0 z => Sys2Proof.Machine.execAmoAnd d a b o s0 z s
  | .amoOr d a b o s0 z => Sys2Proof.Machine.execAmoOr d a b o s0 z s
  | .amoXor d a b o s0 z => Sys2Proof.Machine.execAmoXor d a b o s0 z s
  | .amoMin d a b o s0 z => Sys2Proof.Machine.execAmoMin d a b o s0 z s
  | .amoMax d a b o s0 z => Sys2Proof.Machine.execAmoMax d a b o s0 z s
  | .amoMinu d a b o s0 z => Sys2Proof.Machine.execAmoMinu d a b o s0 z s
  | .amoMaxu d a b o s0 z => Sys2Proof.Machine.execAmoMaxu d a b o s0 z s
  | .amoCas d a b o s0 z => Sys2Proof.Machine.execAmoCas d a b o s0 z s
  | .orderedLoadZext d a o s0 z => Sys2Proof.Machine.execOrderedLoadZext d a o s0 z s
  | .orderedLoadSext d a o s0 z => Sys2Proof.Machine.execOrderedLoadSext d a o s0 z s
  | .orderedStore a b o s0 z => Sys2Proof.Machine.execOrderedStore a b o s0 z s
  | .beq a b i0 => Sys2Proof.Machine.execBeq a b i0 s
  | .bne a b i0 => Sys2Proof.Machine.execBne a b i0 s
  | .blt a b i0 => Sys2Proof.Machine.execBlt a b i0 s
  | .bge a b i0 => Sys2Proof.Machine.execBge a b i0 s
  | .bltu a b i0 => Sys2Proof.Machine.execBltu a b i0 s
  | .bgeu a b i0 => Sys2Proof.Machine.execBgeu a b i0 s
  | .jal i0 => Sys2Proof.Machine.execJal i0 s
  | .jalr d a i0 => Sys2Proof.Machine.execJalr d a i0 s
  | .csrrw d a c => Sys2Proof.Machine.execCsrrw d a c s
  | .csrrs d a c => Sys2Proof.Machine.execCsrrs d a c s
  | .csrrc d a c => Sys2Proof.Machine.execCsrrc d a c s
  | .csrrwi d a c => Sys2Proof.Machine.execCsrrwi d a c s
  | .csrrsi d a c => Sys2Proof.Machine.execCsrrsi d a c s
  | .csrrci d a c => Sys2Proof.Machine.execCsrrci d a c s
  | .ill x y z => Sys2Proof.Machine.execIll x y z s
  | .trap c => Sys2Proof.Machine.execTrap c s
  | .tret => Sys2Proof.Machine.execTret s
  | .brk c => Sys2Proof.Machine.execBrk c s
  | .fence s0 => Sys2Proof.Machine.execFence s0 s
  | .fenceQ m => Sys2Proof.Machine.execFenceQ m s
  | .fenceI => Sys2Proof.Machine.execFenceI s
  | .mwait d a b => Sys2Proof.Machine.execMwait d a b s
  | .nonInstructionWord word => Sys2Proof.Machine.execNonInstructionWord word s
  | .vadd d a b k => Sys2Proof.Machine.execVadd d a b k s
  | .vsub d a b k => Sys2Proof.Machine.execVsub d a b k s
  | .vmul d a b k => Sys2Proof.Machine.execVmul d a b k s
  | .vmulh d a b k => Sys2Proof.Machine.execVmulh d a b k s
  | .vfma d a b k => Sys2Proof.Machine.execVfma d a b k s
  | .vfms d a b k => Sys2Proof.Machine.execVfms d a b k s
  | .vfnma d a b k => Sys2Proof.Machine.execVfnma d a b k s
  | .vdiv d a b k => Sys2Proof.Machine.execVdiv d a b k s
  | .vmin d a b k => Sys2Proof.Machine.execVmin d a b k s
  | .vmax d a b k => Sys2Proof.Machine.execVmax d a b k s
  | .vsadd d a b k => Sys2Proof.Machine.execVsadd d a b k s
  | .vssub d a b k => Sys2Proof.Machine.execVssub d a b k s
  | .vand d a b k => Sys2Proof.Machine.execVand d a b k s
  | .vor d a b k => Sys2Proof.Machine.execVor d a b k s
  | .vxor d a b k => Sys2Proof.Machine.execVxor d a b k s
  | .vandn d a b k => Sys2Proof.Machine.execVandn d a b k s
  | .vsll d a b k => Sys2Proof.Machine.execVsll d a b k s
  | .vsrl d a b k => Sys2Proof.Machine.execVsrl d a b k s
  | .vsra d a b k => Sys2Proof.Machine.execVsra d a b k s
  | .vceq d a b k => Sys2Proof.Machine.execVceq d a b k s
  | .vcne d a b k => Sys2Proof.Machine.execVcne d a b k s
  | .vclt d a b k => Sys2Proof.Machine.execVclt d a b k s
  | .vcle d a b k => Sys2Proof.Machine.execVcle d a b k s
  | .vabs d a k => Sys2Proof.Machine.execVabs d a k s
  | .vneg d a k => Sys2Proof.Machine.execVneg d a k s
  | .vclz d a k => Sys2Proof.Machine.execVclz d a k s
  | .vctz d a k => Sys2Proof.Machine.execVctz d a k s
  | .vffs d a k => Sys2Proof.Machine.execVffs d a k s
  | .vpopc d a k => Sys2Proof.Machine.execVpopc d a k s
  | .vexp2 d a k => Sys2Proof.Machine.execVexp2 d a k s
  | .vlog2 d a k => Sys2Proof.Machine.execVlog2 d a k s
  | .vrcp d a k => Sys2Proof.Machine.execVrcp d a k s
  | .vrsq d a k => Sys2Proof.Machine.execVrsq d a k s
  | .vcvt d a k => Sys2Proof.Machine.execVcvt d a k s
  | .vcvtRne d a k => Sys2Proof.Machine.execVcvtRne d a k s
  | .vcvtRtz d a k => Sys2Proof.Machine.execVcvtRtz d a k s
  | .vcvtRdn d a k => Sys2Proof.Machine.execVcvtRdn d a k s
  | .vcvtRup d a k => Sys2Proof.Machine.execVcvtRup d a k s
  | .vcvtRmm d a k => Sys2Proof.Machine.execVcvtRmm d a k s
  | .vcvtSr d a k => Sys2Proof.Machine.execVcvtSr d a k s
  | .vquant d a b k => Sys2Proof.Machine.execVquant d a b k s
  | .vdequant d a b k => Sys2Proof.Machine.execVdequant d a b k s
  | .vaddS d a b k => Sys2Proof.Machine.execVaddS d a b k s
  | .vsubS d a b k => Sys2Proof.Machine.execVsubS d a b k s
  | .vmulS d a b k => Sys2Proof.Machine.execVmulS d a b k s
  | .vmulhS d a b k => Sys2Proof.Machine.execVmulhS d a b k s
  | .vfmaS d a b k => Sys2Proof.Machine.execVfmaS d a b k s
  | .vfmsS d a b k => Sys2Proof.Machine.execVfmsS d a b k s
  | .vfnmaS d a b k => Sys2Proof.Machine.execVfnmaS d a b k s
  | .vdivS d a b k => Sys2Proof.Machine.execVdivS d a b k s
  | .vminS d a b k => Sys2Proof.Machine.execVminS d a b k s
  | .vmaxS d a b k => Sys2Proof.Machine.execVmaxS d a b k s
  | .vsaddS d a b k => Sys2Proof.Machine.execVsaddS d a b k s
  | .vssubS d a b k => Sys2Proof.Machine.execVssubS d a b k s
  | .vandS d a b k => Sys2Proof.Machine.execVandS d a b k s
  | .vorS d a b k => Sys2Proof.Machine.execVorS d a b k s
  | .vxorS d a b k => Sys2Proof.Machine.execVxorS d a b k s
  | .vandnS d a b k => Sys2Proof.Machine.execVandnS d a b k s
  | .vsllS d a b k => Sys2Proof.Machine.execVsllS d a b k s
  | .vsrlS d a b k => Sys2Proof.Machine.execVsrlS d a b k s
  | .vsraS d a b k => Sys2Proof.Machine.execVsraS d a b k s
  | .vceqS d a b k => Sys2Proof.Machine.execVceqS d a b k s
  | .vcneS d a b k => Sys2Proof.Machine.execVcneS d a b k s
  | .vcltS d a b k => Sys2Proof.Machine.execVcltS d a b k s
  | .vcleS d a b k => Sys2Proof.Machine.execVcleS d a b k s
  | .vaddI d a i0 k => Sys2Proof.Machine.execVaddI d a i0 k s
  | .vsubI d a i0 k => Sys2Proof.Machine.execVsubI d a i0 k s
  | .vmulI d a i0 k => Sys2Proof.Machine.execVmulI d a i0 k s
  | .vmulhI d a i0 k => Sys2Proof.Machine.execVmulhI d a i0 k s
  | .vminI d a i0 k => Sys2Proof.Machine.execVminI d a i0 k s
  | .vmaxI d a i0 k => Sys2Proof.Machine.execVmaxI d a i0 k s
  | .vsaddI d a i0 k => Sys2Proof.Machine.execVsaddI d a i0 k s
  | .vssubI d a i0 k => Sys2Proof.Machine.execVssubI d a i0 k s
  | .vandI d a i0 k => Sys2Proof.Machine.execVandI d a i0 k s
  | .vorI d a i0 k => Sys2Proof.Machine.execVorI d a i0 k s
  | .vxorI d a i0 k => Sys2Proof.Machine.execVxorI d a i0 k s
  | .vandnI d a i0 k => Sys2Proof.Machine.execVandnI d a i0 k s
  | .vsllI d a i0 k => Sys2Proof.Machine.execVsllI d a i0 k s
  | .vsrlI d a i0 k => Sys2Proof.Machine.execVsrlI d a i0 k s
  | .vsraI d a i0 k => Sys2Proof.Machine.execVsraI d a i0 k s
  | .vceqI d a i0 k => Sys2Proof.Machine.execVceqI d a i0 k s
  | .vcneI d a i0 k => Sys2Proof.Machine.execVcneI d a i0 k s
  | .vcltI d a i0 k => Sys2Proof.Machine.execVcltI d a i0 k s
  | .vcleI d a i0 k => Sys2Proof.Machine.execVcleI d a i0 k s
  | .mand d a b => Sys2Proof.Machine.execMand d a b s
  | .mor d a b => Sys2Proof.Machine.execMor d a b s
  | .mxor d a b => Sys2Proof.Machine.execMxor d a b s
  | .mandn d a b => Sys2Proof.Machine.execMandn d a b s
  | .morn d a b => Sys2Proof.Machine.execMorn d a b s
  | .mnot d a => Sys2Proof.Machine.execMnot d a s
  | .mpopc d a k => Sys2Proof.Machine.execMpopc d a k s
  | .mfirst d a k => Sys2Proof.Machine.execMfirst d a k s
  | .mset d => Sys2Proof.Machine.execMset d s
  | .mclr d => Sys2Proof.Machine.execMclr d s
  | .vslideup d a b k => Sys2Proof.Machine.execVslideup d a b k s
  | .vslidedn d a b k => Sys2Proof.Machine.execVslidedn d a b k s
  | .vgather d a b k => Sys2Proof.Machine.execVgather d a b k s
  | .vcompress d a k => Sys2Proof.Machine.execVcompress d a k s
  | .vexpand d a k => Sys2Proof.Machine.execVexpand d a k s
  | .vbcast d a k => Sys2Proof.Machine.execVbcast d a k s
  | .vext d a b => Sys2Proof.Machine.execVext d a b s
  | .vins d a b => Sys2Proof.Machine.execVins d a b s
  | .vredsum d a b k => Sys2Proof.Machine.execVredsum d a b k s
  | .vredsumo d a b k => Sys2Proof.Machine.execVredsumo d a b k s
  | .vredmin d a b k => Sys2Proof.Machine.execVredmin d a b k s
  | .vredmax d a b k => Sys2Proof.Machine.execVredmax d a b k s
  | .vsetl d a b => Sys2Proof.Machine.execVsetl d a b s
  | .vtag d t r g => Sys2Proof.Machine.execVtag d t r g s
  | .vld d a k => Sys2Proof.Machine.execVld d a k s
  | .vlds d a b k => Sys2Proof.Machine.execVlds d a b k s
  | .vldx d a b k => Sys2Proof.Machine.execVldx d a b k s
  | .vldFf d a k => Sys2Proof.Machine.execVldFf d a k s
  | .vldt d a k => Sys2Proof.Machine.execVldt d a k s
  | .vst d a k => Sys2Proof.Machine.execVst d a k s
  | .vsts d a b k => Sys2Proof.Machine.execVsts d a b k s
  | .vstx d a b k => Sys2Proof.Machine.execVstx d a b k s
  | .vstt d a k => Sys2Proof.Machine.execVstt d a k s
  | .vmmAdd d a b k => Sys2Proof.Machine.execVmmAdd d a b k s
  | .vmmSub d a b k => Sys2Proof.Machine.execVmmSub d a b k s
  | .vmmMul d a b k => Sys2Proof.Machine.execVmmMul d a b k s
  | .vmmMin d a b k => Sys2Proof.Machine.execVmmMin d a b k s
  | .vmmMax d a b k => Sys2Proof.Machine.execVmmMax d a b k s
  | .vmmAnd d a b k => Sys2Proof.Machine.execVmmAnd d a b k s
  | .vmmOr d a b k => Sys2Proof.Machine.execVmmOr d a b k s
  | .vmmXor d a b k => Sys2Proof.Machine.execVmmXor d a b k s
  | .vmmCpy d a k => Sys2Proof.Machine.execVmmCpy d a k s
  | .vfba s0 => Sys2Proof.Machine.execVfba s0 s
  | .mcfg a f t u v => Sys2Proof.Machine.execMcfg a f t u v s
  | .mma q e a b => Sys2Proof.Machine.execMma q e a b s
  | .mmaX q e a b v => Sys2Proof.Machine.execMmaX q e a b v s
  | .mmaG q e a b v => Sys2Proof.Machine.execMmaG q e a b v s
  | .mmaS24 q e a b v => Sys2Proof.Machine.execMmaS24 q e a b v s
  | .mmaBm q e a b v => Sys2Proof.Machine.execMmaBm q e a b v s
  | .mzero q => Sys2Proof.Machine.execMzero q s
  | .mrsum q e a b => Sys2Proof.Machine.execMrsum q e a b s
  | .mld q e a => Sys2Proof.Machine.execMld q e a s
  | .mst q e a => Sys2Proof.Machine.execMst q e a s
  | .mstSm q e a => Sys2Proof.Machine.execMstSm q e a s
  | .mdrain q e a b t => Sys2Proof.Machine.execMdrain q e a b t s
  | .xcopy d a c => Sys2Proof.Machine.execXcopy d a c s
  | .xcopyQ d a => Sys2Proof.Machine.execXcopyQ d a s
  | .xabort a => Sys2Proof.Machine.execXabort a s
  | .xqry d a => Sys2Proof.Machine.execXqry d a s
  | .xwaitW c b => Sys2Proof.Machine.execXwaitW c b s
  | .xwaitE => Sys2Proof.Machine.execXwaitE s
  | .xev d => Sys2Proof.Machine.execXev d s
  | .fcfgLd d a => Sys2Proof.Machine.execFcfgLd d a s
  | .fcfgSw d a => Sys2Proof.Machine.execFcfgSw d a s
  | .fstart => Sys2Proof.Machine.execFstart s
  | .fstop => Sys2Proof.Machine.execFstop s
  | .fsave a => Sys2Proof.Machine.execFsave a s
  | .frest a => Sys2Proof.Machine.execFrest a s
  | .fmark a => Sys2Proof.Machine.execFmark a s
  | .fstat d s0 => Sys2Proof.Machine.execFstat d s0 s
  | .fportW a p => Sys2Proof.Machine.execFportW a p s
  | .fportWEos a p => Sys2Proof.Machine.execFportWEos a p s
  | .fportR d p => Sys2Proof.Machine.execFportR d p s
  | .fportRStatus d p => Sys2Proof.Machine.execFportRStatus d p s
  | .sopen d a => Sys2Proof.Machine.execSopen d a s
  | .sclose d => Sys2Proof.Machine.execSclose d s
  | .sadv d a => Sys2Proof.Machine.execSadv d a s
  | .spos d a => Sys2Proof.Machine.execSpos d a s
  | .chbind c a => Sys2Proof.Machine.execChbind c a s
  | .chsend d a c => Sys2Proof.Machine.execChsend d a c s
  | .chrecv d a c => Sys2Proof.Machine.execChrecv d a c s
  | .chpoll d c => Sys2Proof.Machine.execChpoll d c s
  | .chseq d c => Sys2Proof.Machine.execChseq d c s
  | .drgtSet l a => Sys2Proof.Machine.execDrgtSet l a s
  | .drgtRd d l s0 => Sys2Proof.Machine.execDrgtRd d l s0 s
  | .drgtFreeze l => Sys2Proof.Machine.execDrgtFreeze l s
  | .drgtThaw l => Sys2Proof.Machine.execDrgtThaw l s
  | .launch d a => Sys2Proof.Machine.execLaunch d a s
  | .trig => Sys2Proof.Machine.execTrig s
  | .exit a => Sys2Proof.Machine.execExit a s
  | .waitCh d a => Sys2Proof.Machine.execWaitCh d a s
  | .waitCtr d a b => Sys2Proof.Machine.execWaitCtr d a b s
  | .yield => Sys2Proof.Machine.execYield s
  | .rtake d a => Sys2Proof.Machine.execRtake d a s
  | .ctrRd d a => Sys2Proof.Machine.execCtrRd d a s
  | .ctrAdd a b => Sys2Proof.Machine.execCtrAdd a b s
  | .cancel a => Sys2Proof.Machine.execCancel a s
  | .gsqArm a b => Sys2Proof.Machine.execGsqArm a b s
  | .spalloc d a => Sys2Proof.Machine.execSpalloc d a s
  | .spfree a b => Sys2Proof.Machine.execSpfree a b s
  | .opreq d a => Sys2Proof.Machine.execOpreq d a s
  | .opcap d a => Sys2Proof.Machine.execOpcap d a s
  | .takeTrap tile slot => Sys2Proof.Machine.execTakeTrap tile slot s
  | .fetchFault tile slot => Sys2Proof.Machine.execFetchFault tile slot s
  | .engineTrap tile => Sys2Proof.Machine.execEngineTrap tile s
  | .vectorEntryPerform tile => Sys2Proof.Machine.execVectorEntryPerform tile s
  | .matrixEntryStart tile => Sys2Proof.Machine.execMatrixEntryStart tile s
  | .matrixEntryComplete tile me => Sys2Proof.Machine.execMatrixEntryComplete tile me s
  | .engineEntryRetire tile => Sys2Proof.Machine.execEngineEntryRetire tile s
  | .mwaitTimeout tile slot => Sys2Proof.Machine.execMwaitTimeout tile slot s
  | .strandAgePromotion tile slot => Sys2Proof.Machine.execStrandAgePromotion tile slot s
  | .copyAccept tile => Sys2Proof.Machine.execCopyAccept tile s
  | .copyLineWrite tile cslot => Sys2Proof.Machine.execCopyLineWrite tile cslot s
  | .copyComplete tile cslot => Sys2Proof.Machine.execCopyComplete tile cslot s
  | .copyPageFault tile cslot => Sys2Proof.Machine.execCopyPageFault tile cslot s
  | .eventPostDeferred tile cslot => Sys2Proof.Machine.execEventPostDeferred tile cslot s
  | .teamStart part cid tile => Sys2Proof.Machine.execTeamStart part cid tile s
  | .helperEnd tile slot => Sys2Proof.Machine.execHelperEnd tile slot s
  | .teamExit tile => Sys2Proof.Machine.execTeamExit tile s
  | .cancelDelivery tile slot => Sys2Proof.Machine.execCancelDelivery tile slot s
  | .supervisorRestart part => Sys2Proof.Machine.execSupervisorRestart part s
  | .noticePostRetry part => Sys2Proof.Machine.execNoticePostRetry part s
  | .fabricAdd tile pos => Sys2Proof.Machine.execFabricAdd tile pos s
  | .fabricSub tile pos => Sys2Proof.Machine.execFabricSub tile pos s
  | .fabricMul tile pos => Sys2Proof.Machine.execFabricMul tile pos s
  | .fabricFma tile pos => Sys2Proof.Machine.execFabricFma tile pos s
  | .fabricMin tile pos => Sys2Proof.Machine.execFabricMin tile pos s
  | .fabricMax tile pos => Sys2Proof.Machine.execFabricMax tile pos s
  | .fabricAnd tile pos => Sys2Proof.Machine.execFabricAnd tile pos s
  | .fabricOr tile pos => Sys2Proof.Machine.execFabricOr tile pos s
  | .fabricXor tile pos => Sys2Proof.Machine.execFabricXor tile pos s
  | .fabricShl tile pos => Sys2Proof.Machine.execFabricShl tile pos s
  | .fabricShr tile pos => Sys2Proof.Machine.execFabricShr tile pos s
  | .fabricCmp tile pos => Sys2Proof.Machine.execFabricCmp tile pos s
  | .fabricSel tile pos => Sys2Proof.Machine.execFabricSel tile pos s
  | .fabricCvt tile pos => Sys2Proof.Machine.execFabricCvt tile pos s
  | .fabricUnpk tile pos => Sys2Proof.Machine.execFabricUnpk tile pos s
  | .fabricPack tile pos => Sys2Proof.Machine.execFabricPack tile pos s
  | .fabricAgen tile pos => Sys2Proof.Machine.execFabricAgen tile pos s
  | .fabricLdn tile pos => Sys2Proof.Machine.execFabricLdn tile pos s
  | .fabricStn tile pos => Sys2Proof.Machine.execFabricStn tile pos s
  | .fabricAmon tile pos => Sys2Proof.Machine.execFabricAmon tile pos s
  | .fabricGate tile pos => Sys2Proof.Machine.execFabricGate tile pos s
  | .fabricSteer tile pos => Sys2Proof.Machine.execFabricSteer tile pos s
  | .fabricMerge tile pos => Sys2Proof.Machine.execFabricMerge tile pos s
  | .fabricIsect tile pos => Sys2Proof.Machine.execFabricIsect tile pos s
  | .fabricCarry tile pos => Sys2Proof.Machine.execFabricCarry tile pos s
  | .fabricInv tile pos => Sys2Proof.Machine.execFabricInv tile pos s
  | .fabricCtr tile pos => Sys2Proof.Machine.execFabricCtr tile pos s
  | .fabricRtake tile pos => Sys2Proof.Machine.execFabricRtake tile pos s
  | .fabricXreq tile pos => Sys2Proof.Machine.execFabricXreq tile pos s
  | .fabricVin tile pos => Sys2Proof.Machine.execFabricVin tile pos s
  | .fabricVout tile pos => Sys2Proof.Machine.execFabricVout tile pos s
  | .fabricConst tile pos => Sys2Proof.Machine.execFabricConst tile pos s
  | .fabricDrop tile pos => Sys2Proof.Machine.execFabricDrop tile pos s
  | .fabricDup tile pos => Sys2Proof.Machine.execFabricDup tile pos s
  | .fabricAcc tile pos => Sys2Proof.Machine.execFabricAcc tile pos s
  | .fabricTagchk tile pos => Sys2Proof.Machine.execFabricTagchk tile pos s
  | .fabricPositionSwitch tile pos => Sys2Proof.Machine.execFabricPositionSwitch tile pos s
  | .lateFiring tile pos => Sys2Proof.Machine.execLateFiring tile pos s
  | .resolutionWatchWrite line => Sys2Proof.Machine.execResolutionWatchWrite line s
  | .streamElementArrival tile stile => Sys2Proof.Machine.execStreamElementArrival tile stile s
  | .draughtSample tile loop => Sys2Proof.Machine.execDraughtSample tile loop s
  | .rateMessageArrival ptile ctile loop => Sys2Proof.Machine.execRateMessageArrival ptile ctile loop s
  | .reservationRegistration tile st => Sys2Proof.Machine.execReservationRegistration tile st s
  | .reservationPageRegister tile st vpage => Sys2Proof.Machine.execReservationPageRegister tile st vpage s
  | .lineRequest tile line write => Sys2Proof.Machine.execLineRequest tile line write s
  | .probeShared tile line => Sys2Proof.Machine.execProbeShared tile line s
  | .probeInvalidate tile line => Sys2Proof.Machine.execProbeInvalidate tile line s
  | .lineEviction tile line => Sys2Proof.Machine.execLineEviction tile line s
  | .tileCacheRetention tile => Sys2Proof.Machine.execTileCacheRetention tile s
  | .splitProbe rix => Sys2Proof.Machine.execSplitProbe rix s
  | .splitAnswer rix => Sys2Proof.Machine.execSplitAnswer rix s
  | .positionReport rix => Sys2Proof.Machine.execPositionReport rix s
  | .reservationRelease rix => Sys2Proof.Machine.execReservationRelease rix s
  | .forwardedAcquire tile line => Sys2Proof.Machine.execForwardedAcquire tile line s
  | .backInvalidateSnoop line => Sys2Proof.Machine.execBackInvalidateSnoop line s
  | .externalRead addr size => Sys2Proof.Machine.execExternalRead addr size s
  | .externalWrite addr size data => Sys2Proof.Machine.execExternalWrite addr size data s
  | .migrationArm part => Sys2Proof.Machine.execMigrationArm part s
  | .migrationStart part => Sys2Proof.Machine.execMigrationStart part s
  | .migrationLineCopy part => Sys2Proof.Machine.execMigrationLineCopy part s
  | .poolWordObserved part pool => Sys2Proof.Machine.execPoolWordObserved part pool s
  | .partPreempt part => Sys2Proof.Machine.execPartPreempt part s
  | .tileHalt tile => Sys2Proof.Machine.execTileHalt tile s
  | .contextSwapOut tile => Sys2Proof.Machine.execContextSwapOut tile s
  | .contextMove tile => Sys2Proof.Machine.execContextMove tile s
  | .stripeEviction tile stripe chbuf => Sys2Proof.Machine.execStripeEviction tile stripe chbuf s
  | .partResume part => Sys2Proof.Machine.execPartResume part s
  | .contextRestore tile => Sys2Proof.Machine.execContextRestore tile s
  | .stripeRefill tile stripe chbuf => Sys2Proof.Machine.execStripeRefill tile stripe chbuf s
  | .markerNoticeArrival tile stile => Sys2Proof.Machine.execMarkerNoticeArrival tile stile s
  | .snapshot tile => Sys2Proof.Machine.execSnapshot tile s
  | .errorConsumed tile slot granule src => Sys2Proof.Machine.execErrorConsumed tile slot granule src s
  | .rollback tile => Sys2Proof.Machine.execRollback tile s
  | .permitAudit lost => Sys2Proof.Machine.execPermitAudit lost s
  | .flitCrcRetry tile tries => Sys2Proof.Machine.execFlitCrcRetry tile tries s
  | .ucieLaneRepair link ok => Sys2Proof.Machine.execUcieLaneRepair link ok s
  | .patrolScrub granule bad => Sys2Proof.Machine.execPatrolScrub granule bad s
  | .tileFence tile => Sys2Proof.Machine.execTileFence tile s
  | .allocatorAck tile => Sys2Proof.Machine.execAllocatorAck tile s
  | .stripeMove tile => Sys2Proof.Machine.execStripeMove tile s
  | .cacheWayDisable tile => Sys2Proof.Machine.execCacheWayDisable tile s
  | .clockChange => Sys2Proof.Machine.execClockChange s
  | .voltageRamp => Sys2Proof.Machine.execVoltageRamp s
  | .opStepComplete => Sys2Proof.Machine.execOpStepComplete s
  | .charMapRefresh tile point fails tcw l1w => Sys2Proof.Machine.execCharMapRefresh tile point fails tcw l1w s
  | .deviceReset => Sys2Proof.Machine.execDeviceReset s
  | .partSetup record => Sys2Proof.Machine.execPartSetup record s
  | .partReset part => Sys2Proof.Machine.execPartReset part s
  | .partFree part => Sys2Proof.Machine.execPartFree part s
  | .lend base count borrowers => Sys2Proof.Machine.execLend base count borrowers s
  | .revoke base count => Sys2Proof.Machine.execRevoke base count s
  | .revocationNotice base count => Sys2Proof.Machine.execRevocationNotice base count s
  | .revocationAck dev => Sys2Proof.Machine.execRevocationAck dev s
  | .revokeTimeout dev => Sys2Proof.Machine.execRevokeTimeout dev s
  | .errlog log first count => Sys2Proof.Machine.execErrlog log first count s
  | .charmap tile => Sys2Proof.Machine.execCharmap tile s
  | .measure => Sys2Proof.Machine.execMeasure s
  | .attest nonce => Sys2Proof.Machine.execAttest nonce s
  | .fwStage image => Sys2Proof.Machine.execFwStage image s
  | .devConfig windows timeout audit => Sys2Proof.Machine.execDevConfig windows timeout audit s
  | .hbmChannelFailure channel => Sys2Proof.Machine.execHbmChannelFailure channel s
  | .cxlCompletionTimeout tile slot => Sys2Proof.Machine.execCxlCompletionTimeout tile slot s
  | .linkTraining port width ok => Sys2Proof.Machine.execLinkTraining port width ok s

end Sys2Proof.Machine
end

