-- ==== Sys2Proof/Machine/Turn.lean ====
section
/-! DEFINITION. One turn of a tile's scalar control core (R344, R355 to R358): which strand issues, and the fetch, the decoding and the
meaning of its instruction. -/

namespace Sys2Proof.Machine

/-! ### The meaning of a decoded word -/

/-- The meaning of an instruction of majors 0x20 to 0x25: that of `exec`. -/
def Late.exec (l : Late) (s : State) : Host.Outcome State Fault Refusal :=
  match l with
  | .fportW a p => Sys2Proof.Machine.execFportW a p s
  | .fportWEos a p => Sys2Proof.Machine.execFportWEos a p s
  | .fportR d p => Sys2Proof.Machine.execFportR d p s
  | .fportRStatus d p => Sys2Proof.Machine.execFportRStatus d p s
  | .sopen d a => Sys2Proof.Machine.execSopen d a s
  | .sclose d => Sys2Proof.Machine.execSclose d s
  | .sadv d a => Sys2Proof.Machine.execSadv d a s
  | .spos d a => Sys2Proof.Machine.execSpos d a s
  | .chbind c a => Sys2Proof.Machine.execChbind c a s
  | .chsend d a c => Sys2Proof.Machine.execChsend d a c s
  | .chrecv d a c => Sys2Proof.Machine.execChrecv d a c s
  | .chpoll d c => Sys2Proof.Machine.execChpoll d c s
  | .chseq d c => Sys2Proof.Machine.execChseq d c s
  | .drgtSet l a => Sys2Proof.Machine.execDrgtSet l a s
  | .drgtRd d l s0 => Sys2Proof.Machine.execDrgtRd d l s0 s
  | .drgtFreeze l => Sys2Proof.Machine.execDrgtFreeze l s
  | .drgtThaw l => Sys2Proof.Machine.execDrgtThaw l s
  | .launch d a => Sys2Proof.Machine.execLaunch d a s
  | .trig => Sys2Proof.Machine.execTrig s
  | .exit a => Sys2Proof.Machine.execExit a s
  | .waitCh d a => Sys2Proof.Machine.execWaitCh d a s
  | .waitCtr d a b => Sys2Proof.Machine.execWaitCtr d a b s
  | .yield => Sys2Proof.Machine.execYield s
  | .rtake d a => Sys2Proof.Machine.execRtake d a s
  | .ctrRd d a => Sys2Proof.Machine.execCtrRd d a s
  | .ctrAdd a b => Sys2Proof.Machine.execCtrAdd a b s
  | .cancel a => Sys2Proof.Machine.execCancel a s
  | .gsqArm a b => Sys2Proof.Machine.execGsqArm a b s
  | .spalloc d a => Sys2Proof.Machine.execSpalloc d a s
  | .spfree a b => Sys2Proof.Machine.execSpfree a b s
  | .opreq d a => Sys2Proof.Machine.execOpreq d a s
  | .opcap d a => Sys2Proof.Machine.execOpcap d a s

/-- The meaning of a decoded word. -/
def Decoded.exec (d : Decoded) (s : State) : Host.Outcome State Fault Refusal :=
  match d with
  | .early i => Sys2Proof.Machine.exec i s
  | .late l => Late.exec l s

/-- Run a fetched word: the instruction that it encodes, or the decode trap of a word that is none (R43 to R45). -/
def runWord (w : BitVec 32) (s : State) : Host.Outcome State Fault Refusal :=
  match decodeWord w with
  | .ok d => if d.wellFormed then Decoded.exec d s else execNonInstructionWord w s
  | .error _ => execNonInstructionWord w s

/-! ### Scalar registers that a scalar instruction names (R96) -/

/-- The registers named by a scalar instruction; an engine instruction checks its own when it issues. -/
def scalarNames (w : BitVec 32) : List (BitVec 5) :=
  let x := w.extractLsb' 21 5
  let y := w.extractLsb' 16 5
  let z := w.extractLsb' 11 5
  match fld w 26 6 with
  | 0x00 => if fld w 0 11 = 7 then [x, y, z] else []
  | 0x01 => [x, y, z]
  | 0x0B => [x, y, z]
  | 0x08 => [x]
  | 0x0D => [31]
  | 0x0F => if fld w 0 4 ≤ 2 then [x, y] else [x]
  | 0x1D => if fld w 0 11 = 0 then [z] else []
  | 0x21 => match fld w 0 11 with | 0 => [y] | 2 => [y] | 3 => [x] | _ => []
  | 0x22 => match fld w 0 11 with | 0 => [y] | 1 => [y] | 2 => [x, y] | _ => [x]
  | 0x23 => match fld w 0 11 with | 0 => [y] | 1 => [x] | _ => []
  | 0x24 => match fld w 0 11 with | 1 => [] | 2 => [y] | 4 => [x, y, z] | 5 => [] | 6 => [x, x + 1, y] | 8 => [y, z] | 9 => [y] | 10 => [y, z] | _ => [x, y]
  | 0x25 => if fld w 0 11 = 1 then [y, z] else [x, y]
  | n => if n < 0x10 then [x, y] else []

/-- Must the strand wait for a register that an engine entry has still to write? -/
def namesPending (s : State) (w : BitVec 32) : Bool := s.cs = 0 && (scalarNames w).any (registerPending s.curTile)

/-! ### One strand's issue -/

/-- What the current strand does at its instruction boundary: a pending trap, then a cancel (R380), then its next instruction. -/
def issueStrand (s : State) : Host.Outcome State Fault Refusal :=
  if !s.cur.traps.isEmpty then .next (takePending s.ct s.cs s)
  else if !s.cur.cancels.isEmpty then .next (cancelDelivery s.ct s.cs s)
  else match fetchWord s.ct s.cs s with
    | .error (.trap tr) _ => .next (raise s tr)
    | .error (.wait w) _ => .next (s.waitAt w)
    | .ok w s1 => if namesPending s1 w then .next (s1.waitAt .register) else runWord w s1

/-! ### Arbitration (R344, R357) -/

/-- PRIO of slot `k`, as R357 gives it. -/
def slotPrio (s : State) (t k : Nat) : Nat :=
  if (s.strandOf t k).promoted then 8
  else if s.isSupervisor t k then 7
  else match (s.tile t).team with | some m => m.prio | none => 0

/-- Does slot `a` issue before slot `b`? -/
def slotBefore (s : State) (t a b : Nat) : Bool :=
  let p := slotPrio s t a
  let q := slotPrio s t b
  let x := (s.strandOf t a).bucket
  let y := (s.strandOf t b).bucket
  decide (q < p) || (p == q && (decide (y < x) || (x == y && decide (a < b))))

def insertSlot (s : State) (t a : Nat) : List Nat → List Nat
  | [] => [a]
  | b :: r => if slotBefore s t a b then a :: b :: r else b :: insertSlot s t a r

/-- The cycle's accrual of slot `k`'s bucket (R344): a strand that stands at its boundary for a notice is not runnable (R372). -/
def accrueStrand (x : Tile) (k : Nat) (y : Strand) : Strand :=
  if y.state = .runnable ∧ !y.posting then { y with bucket := min (y.bucket + effectiveWeight x k) 512 } else y

/-- The cycle's accrual of the position at element `e`, when a loop actuates it (R345). -/
def accruePos (x : Tile) (e : Nat) (p : Pos) : Pos :=
  if actuated x e then { p with bucket := min (p.bucket + effectiveWeight x (64 + e)) 512 } else p

/-- The cycle's accrual of the strands of a tile. -/
def accrue (x : Tile) : Tile :=
  let ss := x.ctx.strands.map fun q => (q.1, accrueStrand x q.1 q.2)
  { x with ctx := { x.ctx with strands := ss } }

/-- The cycle's accrual of the fabric positions of a tile. -/
def accruePositions (x : Tile) : Tile :=
  let f := x.ctx.fabric
  let ps := f.pos.map fun q => (q.1, accruePos x q.1 q.2)
  { x with ctx := { x.ctx with fabric := { f with pos := ps } } }

/-- Is the wait an instruction's own, which completes when the wait ends?  Every other wait stands before the instruction. -/
def WaitKind.own : WaitKind → Bool
  | .mwait _ _ => true
  | .waitCh _ => true
  | .waitCtr => true
  | .opreq _ _ => true
  | .copyWait => true
  | _ => false

/-- The end of slot `k`'s wait, when its condition holds: an instruction that waits itself completes, with no issue, and any other
stands again before its issue (R344, Table 19.1).  A strand that meets another wait in the same place stands at that one. -/
def wakeSlot (t : Nat) (s : State) (k : Nat) : State :=
  let ready := s.setStrandOf t k { s.strandOf t k with state := .runnable }
  match (s.strandOf t k).state with
  | .waiting (.mwait _ l) => if (mwaitStatus s t k l).isSome then endMwait t k s else s
  | .waiting .portEntry =>
    let y := s.strandOf t k
    if y.traps.isEmpty && y.cancels.isEmpty && (s.tile t).queue.any fun e => e.op.isPort && e.isStalled then s else ready
  | .waiting w =>
    match issueStrand (s.at t k) with
    | .next s1 =>
      match (s1.strandOf t k).state with
      | .waiting v =>
        if v = w then s
        else if v.own && !w.own then ready
        else (s.setStrandOf t k { s.strandOf t k with state := .waiting v }).noteWait v
      | .runnable => if w.own then s1.at s.ct s.cs else ready
      | _ => ready
    | _ => s
  | _ => s

/-- The strands of a tile whose wait has ended are runnable again. -/
def wake (t : Nat) (s : State) : State := (List.range 8).foldl (wakeSlot t) s

/-- Slots that may issue, in the order of arbitration; a strand that has yielded stands back for one round when another is there. -/
def issueOrder (s : State) (t : Nat) : List Nat :=
  let live := (List.range 8).filter fun k => (s.strandOf t k).state = .runnable && !postingHeld s t k
  let fresh := live.filter fun k => !(s.strandOf t k).yielded
  (if fresh.isEmpty then live else fresh).foldr (insertSlot s t) []

/-- A cycle in which a strand does not issue: its age counts while it is runnable, and at 64 promotes it until it issues (R357); a `yield` has had
its round. -/
def passStrand (y : Strand) : Strand :=
  let n := if y.state = .runnable ∧ !y.posting then y.age + 1 else 0
  { y with yielded := false, age := n, promoted := y.promoted || decide (64 ≤ n) }

/-- The cycle of the strands of a tile that do not issue. -/
def endRound (x : Tile) : Tile :=
  let ss := x.ctx.strands.map fun q => (q.1, passStrand q.2)
  { x with ctx := { x.ctx with strands := ss } }

/-- Charge the strand that issues, and make it the current one. -/
def charge (t k : Nat) (s : State) : State :=
  let x := endRound (s.tile t)
  let y := x.strand k
  (s.setTile t (x.setStrand k { y with bucket := max (y.bucket - 256) (-512), age := 0, promoted := false })).at t k

/-- The wait at which slot `k` stands without having issued: one that comes before its instruction (R89, R344, R356). -/
def beforeIssue (s : State) (t k : Nat) : Option WaitKind :=
  match (s.strandOf t k).state with
  | .waiting .portEntry => none
  | .waiting v => if v.own then none else some v
  | _ => none

/-- The first slot that issues, in the order of arbitration; one that only begins to wait leaves the cycle to the next. -/
def firstIssue (t : Nat) (s : State) (moved : Bool) : List Nat → Option (Host.Outcome State Fault Refusal)
  | [] => if moved then some (.next s) else none
  | k :: r => match issueStrand (charge t k s) with
    | .next s1 => match beforeIssue s1 t k with
      | some v => firstIssue t ((s.setStrandOf t k { s.strandOf t k with state := .waiting v, age := 0 }).noteWait v) true r
      | none => some (.next s1)
    | o => some o

/-- The tile's turn: none when no strand can issue. -/
def tileTurn (t : Nat) (s : State) : Option (Host.Outcome State Fault Refusal) :=
  if (s.tile t).still then none
  else
    let s0 := wake t s
    let s1 := s0.setTile t (accrue (s0.tile t))
    firstIssue t s1 false (issueOrder s1 t)

end Sys2Proof.Machine
end

