-- ==== Sys2Proof/Machine/Background.lean ====
section
/-! DEFINITION. One of the orders in which the device's own events may happen: what a step does when its agenda orders nothing.  Every
event that is due happens once, and then one tile has its turn. -/

namespace Sys2Proof.Machine

/-- Apply `f` at every tile that holds anything. -/
def eachTile (f : Nat → State → State) (s : State) : State := (s.tiles.map (·.1)).foldl (fun s t => f t s) s

/-- Apply `f` at every partition that was set up. -/
def eachPart (f : Nat → State → State) (s : State) : State := (s.parts.map (·.1)).foldl (fun s p => f p s) s

/-- The state after a meaning that answers one. -/
def settled (s : State) : Host.Outcome State Fault Refusal → State
  | .next s1 => s1
  | _ => s

/-! ### Messages, watches and errors -/

/-- Every message in transit that may arrive arrives, oldest first. -/
def arrivals (s : State) : State :=
  let s1 := s.flight.foldl (fun s f => streamElementArrival f.dst f.src s) s
  let s2 := s1.markers.foldl (fun s m => markerNoticeArrival m.dst m.src s) s1
  s2.rates.foldl (fun s m => rateMessageArrival m.ptile m.ctile m.loop s) s2

/-- Source of an error by the granule that carries it: 0 names a place in SRAM, HBM below 2^39, then the windows (Table 22.8). -/
def granuleSource (g : Nat) : Nat := if g = 0 then 0 else if g < 2 ^ 33 then 1 else 4

/-- Table lines that were written wake their waiters, errors that were consumed are classed, and management commands have their turn. -/
def observations (s : State) : State :=
  let s1 := s.resWritten.foldl (fun s l => resolutionWatchWrite l s) s
  let s2 := (s1.consumed.filter fun (t, _) => t != 1024).foldl (fun s (t, k, g) => errorConsumed t k g (granuleSource g) s) s1
  eachPart (fun p s => noticePostRetry p (supervisorRestart p s)) (runCommands (s2.commands.length) s2)

/-! ### Reservations -/

/-- Indices of the entries that satisfy `p`, the highest first, so that a removal moves no index still to come. -/
def entriesWhere (s : State) (p : ResEntry → Bool) : List Nat :=
  ((List.range s.resv.length).filter fun i => match s.resv[i]? with | some e => p e | none => false).reverse

/-- Does an access wait at the split reservation while its owner has passed another line boundary (R285)? -/
def reportDue (s : State) (e : ResEntry) : Bool :=
  e.pol = 2 && e.state != .releasing && !e.held.isEmpty && s.cutNow e != e.cut

/-- Probes that are due are answered, answers are applied, owners report their positions, and entries of closed registers are freed. -/
def reservations (s : State) : State :=
  let s1 := (entriesWhere s fun e => e.answer.isSome).foldl (fun s i => splitAnswer i s) s
  let s2 := (entriesWhere s1 fun e => e.state == .splitting && e.answer.isNone).foldl (fun s i => splitProbe i s) s1
  let s3 := (entriesWhere s2 (reportDue s2)).foldl (fun s i => positionReport i s) s2
  (entriesWhere s3 fun e => e.state == .releasing).foldl (fun s i => settled s (execReservationRelease (BitVec.ofNat 14 i) s)) s3

/-- The next step of a partition's migration (R313). -/
def migrations (s : State) : State := eachPart (fun p s => migrationLineCopy p (migrationStart p (migrationArm p s))) s

/-! ### Pre-emption, rollback and operating points -/

/-- A tile of a partition that is being pre-empted or resumed, and stripes that stand in the backing area (R388 to R393). -/
def contexts (t : Nat) (s : State) : State :=
  let s1 := contextRestore t (contextSwapOut t (tileHalt t s))
  let x := s1.tile t
  match x.part with
  | some p => if x.still then s1 else refillChannels p t (x.evicted.foldl (fun s n => refillStripe p t n s) s1)
  | none => s1

/-- All the stripes of a tile that an evacuation moves (R425). -/
def evacuate (t : Nat) : Nat → State → State
  | 0, s => s
  | n + 1, s => match s.opStep with
    | some o => if ((s.tile t).nextMove o.target ((s.tile t).capAt o.target)).isSome then evacuate t n (stripeMove t s) else s
    | none => s

/-- The next stage of an operating-point step (R424). -/
def pointStep (s : State) : State :=
  match s.opStep with
  | none => s
  | some o =>
    let s1 := allTiles.foldl (fun s t => allocatorAck t s) s
    let s2 := eachTile (fun t s => cacheWayDisable t (evacuate t 1600 s)) s1
    if clockDue o s2 then clockChange s2
    else if rampDue o s2 then voltageRamp s2
    else opStepComplete s2

/-! ### A tile's own events -/

/-- The copies of a tile: each writes its next line, faults or completes; deferred event records are posted. -/
def copySlots (t : Nat) (s : State) : State :=
  if (s.tile t).still then s
  else ((s.tile t).ctx.copies.map (·.1)).foldl
    (fun s k => eventPostDeferred (copyComplete (copyPageFault (copyLineWrite s t k) t k) t k) t k) s

/-- One position in one cycle (R231): its switch, and then a late firing, which goes ahead of a firing in order (R243). -/
def positionRound (t : Nat) (s : State) (e : Nat) : State :=
  let s1 := updCtx t (fun c => fabricPositionSwitch c e) s
  let f := (s1.tile t).ctx.fabric
  if (lateReady f e (f.at e)).isSome then lateFiring t e s1 else fireAt t e s1

/-- One cycle of a running fabric: gated positions accrue (R345), entries that are due perform their accesses, then every position has its
turn. -/
def fabricRound (t : Nat) (s : State) : State :=
  let f := (s.tile t).ctx.fabric
  if (s.tile t).still || !(f.code = 2 || f.code = 5) then s
  else (f.pos.map (·.1)).foldl (positionRound t) (replaySpill t (s.setTile t (accruePositions (s.tile t))))

/-- One cycle of a loop's period: the sample falls on the last one (R341). -/
def loopTick (t k : Nat) (s : State) : State :=
  let l := (s.tile t).loop k
  if !l.samples then s
  else if l.next ≤ 1 then draughtSample s t k
  else s.setTile t ((s.tile t).setLoop k { l with next := l.next - 1 })

def loopRound (t : Nat) (s : State) : State :=
  if (s.tile t).still then s else ((s.tile t).ctx.loops.map (·.1)).foldl (fun s k => loopTick t k s) s

/-- A cancel reaches a strand that stands HALTED (R362). -/
def cancelHalted (t k : Nat) (s : State) : State :=
  let y := s.strandOf t k
  if y.state == .halted && !y.cancels.isEmpty then cancelDelivery t k s else s

/-- Cancels reach halted strands, helpers of an ended lead end, a team whose strands have all ended exits, and the oldest engine entry goes on. -/
def teamRound (t : Nat) (s : State) : State :=
  if (s.tile t).still then s
  else
    let s0 := (List.range 8).foldl (fun s k => cancelHalted t k s) s
    let s1 := (List.range 7).foldl (fun s k => helperEnd t (k + 1) s) s0
    teamExit t (if (s1.tile t).queue.isEmpty then s1 else performQueues t (finishHead t (freeEngines t s1)))

/-- The events of one tile. -/
def tileRound (t : Nat) (s : State) : State :=
  snapshot t (teamRound t (fabricRound t (copySlots t (rollbackRegion t (contexts t s)))))

/-- Teams that launches have still to start. -/
def teamStarts (p : Nat) (s : State) : State :=
  (s.partition p).launches.foldl (fun s l => l.pending.foldl (fun s t => teamStart p l.cid t s) s) s

/-- One pass over the device's events.  The samples read the channels as the arrivals of the last cycle have left them, ahead of this cycle's
removals (R337). -/
def background (s : State) : State :=
  eachPart teamStarts (eachTile tileRound (pointStep (migrations (reservations (observations (eachTile loopRound (arrivals s)))))))

/-! ### Whose turn it is -/

/-- Tiles in rising order, starting after `t`. -/
def tilesAfter (s : State) (t : Nat) : List Nat :=
  let ks := s.tiles.map (·.1)
  ks.filter (fun k => decide (t < k)) ++ ks.filter fun k => decide (k ≤ t)

/-- The first of these tiles that can issue. -/
def firstTurn (s : State) : List Nat → Option (Host.Outcome State Fault Refusal)
  | [] => none
  | t :: r => match tileTurn t s with
    | some o => some o
    | none => firstTurn s r

/-- A step that the agenda leaves open. -/
def freeStep (s : State) : Host.Outcome State Fault Refusal :=
  let s1 := background s
  (firstTurn s1 (tilesAfter s1 s1.ct)).getD (.next s1)

/-- A turn that the agenda orders. -/
def orderedTurn (u : Turn) (s : State) : Host.Outcome State Fault Refusal :=
  match u with
  | .event i => Sys2Proof.Machine.exec i s
  | .issue t lag => (tileTurn t { s with lag := lag }).getD (.next s)
  | .corrected t src a => .next (errorCorrected t src a s)
  | .poisoned t g => .next (errorPoisoned t g s)
  | .spdError t g => .next (spdError t g s)

/-! ### A word where the next step fetches

A program reaches the device from outside: the host writes memory and a partition record, PART_SETUP starts the supervisor, and its
launches start teams (R320, R435, R436).  Here this has happened: partition 0 maps the first GiB onto itself, and the lead strand of a
team on tile 0 stands at `codeBase`. -/

/-- Where the word is placed. -/
def codeBase : Nat := 0x10000

/-- Word `k` of a partition record set. -/
def recordWith (ws : List (Nat × Nat)) : BitVec 2048 := BitVec.ofNat 2048 ((ws.map fun (k, v) => v * 2 ^ (64 * k)).sum)

/-- The record (Table 25.3): SUPT 4, ALTT 8, SHARE 1, clusters 0 to 2, ROOT 0x1000, a quota range of 1 GiB at 0. -/
def placeRecord : BitVec 2048 :=
  recordWith [(0, 4 * 2 ^ 4 + 8 * 2 ^ 14 + 2 ^ 32), (1, 7), (5, 0x1000), (6, codeBase), (17, 2 ^ 18)]

/-- The table entries (Table 15.7): the root points to the node at 0x2000, whose first leaf maps 1 GiB with A, D, X, W and R. -/
def placeTables (m : List Host.Cell) : List Host.Cell := cellsPut (cellsPut m 0x1000 (natLe 8 0x2001)) 0x2000 (natLe 8 0x26F)

/-- The partition, with the one launch that has started. -/
def placePartition : Partition :=
  { record := placeRecord, sup := some 4, counters := [(0, { live := true, teams := 1 })]
    launches := [{ cid := 0, words := [], arg := 0, pending := [] }] }

/-- Tile 0 with its team's lead strand. -/
def placeTile : Tile :=
  { part := some 0, team := some { cid := 0, ns := 0, prio := 0, index := 0, cs := false }
    ctx := { strands := [(0, { pc := BitVec.ofNat 64 codeBase, state := .runnable })] } }

/-- `s` with the word at `codeBase`, about to be fetched by tile 0's lead strand. -/
def placeWord (s : State) (w : Nat) : State :=
  { s with
    parts := sput s.parts 0 placePartition, tiles := sput s.tiles 0 placeTile
    mem := cellsPut (placeTables s.mem) codeBase (natLe 4 w)
    resv := [], revoked := [], poison := [], hbmDown := []
    agenda := [.issue 0 false] }

end Sys2Proof.Machine
end

