-- ==== Sys2Proof/Machine/Step.lean ====
section
/-! DEFINITION. One step of the device, and the state in which the next step fetches a given word. -/

namespace Sys2Proof.Machine

/-- One step: the turn that the agenda orders next, or, when it orders nothing, a pass of the device's own events and one tile's issue. -/
def step (s : State) : Host.Outcome State Fault Refusal :=
  let s1 := { s with cyc := s.cyc + 1, lag := false }
  match s.agenda with
  | [] => freeStep s1
  | u :: r => orderedTurn u { s1 with agenda := r }

/-- `s` with the instruction word `w` where the next step fetches: see `placeWord`. -/
def State.withFetchWord (s : State) (_nbits w : Nat) : State := placeWord s w

end Sys2Proof.Machine
end

