-- ==== Sys2Proof/Safety.lean ====
section
/-! DEFINITION. The terms in which the statements are written: what a safe state is, what an instruction may touch, what each
family computes (written from the spec's tables over integers, not over the model's own operand functions), and when an access or an
engine instruction goes through. -/

namespace Sys2Proof.Spec

open Sys2Proof.Machine

/-! ### Safe states -/

/-- Memory and every scratchpad keep their canonical form. -/
def Canonical (s : State) : Prop := Memory.wf s.mem = true ∧ ∀ h, Memory.wf (s.tile h).spd = true

/-! ### Frames -/

/-- A strand without its general registers, its program counter, its state, its watch, and what its reads carry on (R258). -/
def specialOf (y : Strand) : Strand := { y with regs := [], pc := 0, state := .free, watch := none, written := false, carried := [] }

/-- A tile without its strands. -/
def tileRest (x : Tile) : Tile := { x with ctx := { x.ctx with strands := [] } }

/-- A device without its tiles. -/
def deviceRest (s : State) : State := { s with tiles := [] }

/-- Every byte of memory and of every scratchpad reads as before. -/
def SameBytes (s t : State) : Prop :=
  (∀ a, cellGet t.mem a = cellGet s.mem a) ∧ ∀ h a, cellGet (t.tile h).spd a = cellGet (s.tile h).spd a

/-- Of the current strand only the registers `ds`, the program counter and the strand state differ. -/
def SameStrand (s t : State) (ds : List (BitVec 5)) : Prop :=
  (∀ r, r ∉ ds → t.reg r = s.reg r) ∧ specialOf t.cur = specialOf s.cur

/-- Nothing but the current strand differs. -/
def OnlyStrand (s t : State) : Prop :=
  t.ct = s.ct ∧ t.cs = s.cs ∧ deviceRest t = deviceRest s ∧ (∀ h, tileRest (t.tile h) = tileRest (s.tile h)) ∧
  ∀ h k, (h, k) ≠ (s.ct, s.cs) → t.strandOf h k = s.strandOf h k

/-- The frame of an instruction that writes the registers `ds` and nothing else. -/
def RegistersOnly (s t : State) (ds : List (BitVec 5)) : Prop :=
  OnlyStrand s t ∧ SameBytes s t ∧ SameStrand s t ds ∧ t.cur.watch = s.cur.watch ∧ t.cur.written = s.cur.written

/-- The strand goes on at address `a`. -/
def GoesOn (t : State) (a : Word) : Prop := t.cur.pc = a ∧ t.cur.state = .runnable

/-- A value as register `d` holds it after it was written: s0 reads 0. -/
def held (d : BitVec 5) (v : Word) : Word := if d = 0 then 0 else v

/-! ### Scalar arithmetic (Tables 3.2 and 3.3, R67), over integers -/

/-- 1 for true. -/
def flag (p : Bool) : Word := if p then 1 else 0

/-- Results of the register forms of Table 3.2. -/
def binaryResult (x y : Word) : Instr → Option (BitVec 5 × BitVec 5 × BitVec 5 × Word)
  | .add d a b => some (d, a, b, BitVec.ofNat 64 (x.toNat + y.toNat))
  | .sub d a b => some (d, a, b, BitVec.ofInt 64 (x.toInt - y.toInt))
  | .and d a b => some (d, a, b, BitVec.ofNat 64 (x.toNat &&& y.toNat))
  | .or d a b => some (d, a, b, BitVec.ofNat 64 (x.toNat ||| y.toNat))
  | .xor d a b => some (d, a, b, BitVec.ofNat 64 (x.toNat ^^^ y.toNat))
  | .andn d a b => some (d, a, b, BitVec.ofNat 64 (x.toNat &&& (2 ^ 64 - 1 - y.toNat)))
  | .sll d a b => some (d, a, b, BitVec.ofNat 64 (x.toNat * 2 ^ (y.toNat % 64)))
  | .srl d a b => some (d, a, b, BitVec.ofNat 64 (x.toNat / 2 ^ (y.toNat % 64)))
  | .sra d a b => some (d, a, b, BitVec.ofInt 64 (x.toInt / 2 ^ (y.toNat % 64)))
  | .rol d a b => some (d, a, b, BitVec.ofNat 64 (x.toNat * 2 ^ (y.toNat % 64) + x.toNat / 2 ^ (64 - y.toNat % 64)))
  | .ror d a b => some (d, a, b, BitVec.ofNat 64 (x.toNat / 2 ^ (y.toNat % 64) + x.toNat * 2 ^ (64 - y.toNat % 64)))
  | .slt d a b => some (d, a, b, flag (decide (x.toInt < y.toInt)))
  | .sltu d a b => some (d, a, b, flag (decide (x.toNat < y.toNat)))
  | .min d a b => some (d, a, b, BitVec.ofInt 64 (Min.min x.toInt y.toInt))
  | .max d a b => some (d, a, b, BitVec.ofInt 64 (Max.max x.toInt y.toInt))
  | .minu d a b => some (d, a, b, BitVec.ofNat 64 (Min.min x.toNat y.toNat))
  | .maxu d a b => some (d, a, b, BitVec.ofNat 64 (Max.max x.toNat y.toNat))
  | .mul d a b => some (d, a, b, BitVec.ofInt 64 (x.toInt * y.toInt))
  | .mulh d a b => some (d, a, b, BitVec.ofInt 64 (x.toInt * y.toInt / 2 ^ 64))
  | .mulhu d a b => some (d, a, b, BitVec.ofNat 64 (x.toNat * y.toNat / 2 ^ 64))
  | .mulhsu d a b => some (d, a, b, BitVec.ofInt 64 (x.toInt * y.toNat / 2 ^ 64))
  | _ => none

/-- Results of the divisions, with the borderline cases of Table 3.3. -/
def divisionResult (x y : Word) : Instr → Option (BitVec 5 × BitVec 5 × BitVec 5 × Word)
  | .div d a b => some (d, a, b, if y = 0 then BitVec.allOnes 64 else if x.toInt = -2 ^ 63 ∧ y.toInt = -1 then x
      else BitVec.ofInt 64 (x.toInt.tdiv y.toInt))
  | .divu d a b => some (d, a, b, if y = 0 then BitVec.allOnes 64 else BitVec.ofNat 64 (x.toNat / y.toNat))
  | .rem d a b => some (d, a, b, if y = 0 then x else if x.toInt = -2 ^ 63 ∧ y.toInt = -1 then 0
      else BitVec.ofInt 64 (x.toInt.tmod y.toInt))
  | .remu d a b => some (d, a, b, if y = 0 then x else BitVec.ofNat 64 (x.toNat % y.toNat))
  | _ => none

/-- Results of the bit counts and `bswap` (R67). -/
def countResult (x : Word) : Instr → Option (BitVec 5 × BitVec 5 × Word)
  | .clz d a => some (d, a, if x = 0 then 64 else BitVec.ofNat 64 (63 - x.toNat.log2))
  | .ctz d a => some (d, a, if x = 0 then 64 else BitVec.ofNat 64 (x &&& -x).toNat.log2)
  | .ffs d a => some (d, a, if x = 0 then 0 else BitVec.ofNat 64 ((x &&& -x).toNat.log2 + 1))
  | .popc d a => some (d, a, BitVec.ofNat 64 ((List.range 64).filter x.getLsbD).length)
  | .bswap d a => some (d, a, BitVec.ofNat 64 (((List.range 8).map fun k => (x.extractLsb' (8 * k) 8).toNat * 2 ^ (56 - 8 * k)).sum))
  | _ => none

/-- Results of the immediate forms (R10, R25, R65). -/
def immediateResult (x : Word) : Instr → Option (BitVec 5 × BitVec 5 × Word)
  | .addi d a i => some (d, a, BitVec.ofInt 64 (x.toInt + i.toInt))
  | .andi d a i => some (d, a, BitVec.ofNat 64 (x.toNat &&& i.toNat))
  | .ori d a i => some (d, a, BitVec.ofNat 64 (x.toNat ||| i.toNat))
  | .xori d a i => some (d, a, BitVec.ofNat 64 (x.toNat ^^^ i.toNat))
  | .slti d a i => some (d, a, flag (decide (x.toInt < i.toInt)))
  | .sltiu d a i => some (d, a, flag (decide (x.toNat < (i.toInt % 2 ^ 64).toNat)))
  | .slli d a h => some (d, a, BitVec.ofNat 64 (x.toNat * 2 ^ h.toNat))
  | .srli d a h => some (d, a, BitVec.ofNat 64 (x.toNat / 2 ^ h.toNat))
  | .srai d a h => some (d, a, BitVec.ofInt 64 (x.toInt / 2 ^ h.toNat))
  | .rori d a h => some (d, a, BitVec.ofNat 64 (x.toNat / 2 ^ h.toNat + x.toNat * 2 ^ (64 - h.toNat)))
  | .lih d i => some (d, 0, BitVec.ofInt 64 (i.toInt * 2 ^ 16))
  | _ => none

/-! ### Branches (Table 1.8, R76, R77) -/

/-- Is the branch taken, and to which displacement in words? -/
def branchTaken (x y : Word) : Instr → Option (BitVec 5 × BitVec 5 × BitVec 13 × Bool)
  | .beq a b i => some (a, b, i, decide (x.toNat = y.toNat))
  | .bne a b i => some (a, b, i, decide (x.toNat ≠ y.toNat))
  | .blt a b i => some (a, b, i, decide (x.toInt < y.toInt))
  | .bge a b i => some (a, b, i, decide (y.toInt ≤ x.toInt))
  | .bltu a b i => some (a, b, i, decide (x.toNat < y.toNat))
  | .bgeu a b i => some (a, b, i, decide (y.toNat ≤ x.toNat))
  | _ => none

/-! ### Scalar accesses (R68 to R74) -/

/-- A load: destination, effective address, bytes, sign extension. -/
def loadForm (s : State) : Instr → Option (BitVec 5 × Word × Nat × Bool)
  | .ldB d a i => some (d, BitVec.ofInt 64 ((s.reg a).toInt + i.toInt), 1, true)
  | .ldH d a i => some (d, BitVec.ofInt 64 ((s.reg a).toInt + i.toInt), 2, true)
  | .ldW d a i => some (d, BitVec.ofInt 64 ((s.reg a).toInt + i.toInt), 4, true)
  | .ldD d a i => some (d, BitVec.ofInt 64 ((s.reg a).toInt + i.toInt), 8, false)
  | .ldBu d a i => some (d, BitVec.ofInt 64 ((s.reg a).toInt + i.toInt), 1, false)
  | .ldHu d a i => some (d, BitVec.ofInt 64 ((s.reg a).toInt + i.toInt), 2, false)
  | .ldWu d a i => some (d, BitVec.ofInt 64 ((s.reg a).toInt + i.toInt), 4, false)
  | .orderedLoadZext d a _ _ z => some (d, s.reg a, 2 ^ z.toNat, false)
  | .orderedLoadSext d a _ _ z => some (d, s.reg a, 2 ^ z.toNat, true)
  | _ => none

/-- A store: effective address, bytes, value. -/
def storeForm (s : State) : Instr → Option (Word × Nat × Word)
  | .stB d a i => some (BitVec.ofInt 64 ((s.reg a).toInt + i.toInt), 1, s.reg d)
  | .stH d a i => some (BitVec.ofInt 64 ((s.reg a).toInt + i.toInt), 2, s.reg d)
  | .stW d a i => some (BitVec.ofInt 64 ((s.reg a).toInt + i.toInt), 4, s.reg d)
  | .stD d a i => some (BitVec.ofInt 64 ((s.reg a).toInt + i.toInt), 8, s.reg d)
  | .orderedStore a b _ _ z => some (s.reg a, 2 ^ z.toNat, s.reg b)
  | _ => none

/-- The integer that `n` bytes hold: unsigned `v`, read as signed when `sgn`. -/
def asInteger (sgn : Bool) (n v : Nat) : Int := if sgn = true ∧ 2 ^ (8 * n - 1) ≤ v then (v : Int) - 2 ^ (8 * n) else v

/-- An atomic: destination, address, bytes, zero extension of the old value, and the value it writes for an old value `m`, none for no
write (Table 3.4). -/
def amoForm (s : State) : Instr → Option (BitVec 5 × Word × Nat × Bool × (Nat → Option Nat))
  | .amoSwap d a b _ _ z => some (d, s.reg a, 2 ^ z.toNat, false, fun _ => some (operand b z))
  | .amoAdd d a b _ _ z => some (d, s.reg a, 2 ^ z.toNat, false, fun m => some ((m + operand b z) % 2 ^ (8 * 2 ^ z.toNat)))
  | .amoAnd d a b _ _ z => some (d, s.reg a, 2 ^ z.toNat, false, fun m => some (m &&& operand b z))
  | .amoOr d a b _ _ z => some (d, s.reg a, 2 ^ z.toNat, false, fun m => some (m ||| operand b z))
  | .amoXor d a b _ _ z => some (d, s.reg a, 2 ^ z.toNat, false, fun m => some (m ^^^ operand b z))
  | .amoMin d a b _ _ z => some (d, s.reg a, 2 ^ z.toNat, false, fun m =>
      some (if asInteger true (2 ^ z.toNat) (operand b z) ≤ asInteger true (2 ^ z.toNat) m then operand b z else m))
  | .amoMax d a b _ _ z => some (d, s.reg a, 2 ^ z.toNat, false, fun m =>
      some (if asInteger true (2 ^ z.toNat) m ≤ asInteger true (2 ^ z.toNat) (operand b z) then operand b z else m))
  | .amoMinu d a b _ _ z => some (d, s.reg a, 2 ^ z.toNat, true, fun m => some (Min.min m (operand b z)))
  | .amoMaxu d a b _ _ z => some (d, s.reg a, 2 ^ z.toNat, true, fun m => some (Max.max m (operand b z)))
  | .amoCas d a b _ _ z => some (d, s.reg a, 2 ^ z.toNat, false, fun m => if m = operand d z then some (operand b z) else none)
  | _ => none
where
  operand (r : BitVec 5) (z : BitVec 2) : Nat := (s.reg r).toNat % 2 ^ (8 * 2 ^ z.toNat)

/-- What a load, a store or an atomic accesses: the effective address, the bytes, and how (R70). -/
def accessForm (s : State) (i : Instr) : Option (Word × Nat × Access) :=
  match loadForm s i, storeForm s i, amoForm s i with
  | some (_, ea, n, _), _, _ => some (ea, n, .read)
  | _, some (ea, n, _), _ => some (ea, n, .write)
  | _, _, some (_, ea, n, _, _) => some (ea, n, .atomic)
  | _, _, _ => none

/-- No `fence.q` of the strand that holds back its accesses is in the queue (R80). -/
def NoJoin (s : State) : Prop := ∀ e ∈ s.curTile.queue, e.slot = s.cs → ∀ m, e.op = .fenceQ m → m.getLsbD 4 = false

/-- An access of `n` bytes to memory that goes through: an aligned virtual address, a leaf `l` that admits it (R304 to R306), an empty
engine queue where the page is uncached (R309), and no reservation of another tile on its lines that excludes it (R295).  `markLeaf` stands
for R307. -/
structure MemoryAccess (s : State) (ea : Word) (n : Nat) (acc : Access) (l : Leaf) : Prop where
  canonical : fld ea 48 16 = 0
  aligned : ea.toNat % n = 0
  leaf : probe s s.curPart ea.toNat acc = .ok l
  unjoined : NoJoin s
  uncached : l.ns = true → acc ≠ .write → s.enginesBusy = false
  free : ∀ e ∈ s.resv, ∀ line, leafAddress s s.curPart l ea.toNat < 128 * line + 128 →
    128 * line < leafAddress s s.curPart l ea.toNat + n →
    e.covers line = true → e.owner = s.ct ∨ (e.write = false ∧ (acc = .read ∨ acc = .fetch))

/-- An access of `n` bytes to the scratchpad that goes through: an aligned scratchpad address of bytes that the strand holds (R69), at
no watermark (R148), all of them refilled (R393).  `h` and `off` say whose scratchpad and where. -/
structure ScratchpadAccess (s : State) (ea : Word) (n h off : Nat) : Prop where
  aligned : ea.toNat % n = 0
  address : ∃ w pos, classify ea = some (.spd w pos off) ∧ h = spdTile s.ct w pos ∧ spdInRange s s.ct s.cs w pos off n = true
  unjoined : NoJoin s
  written : ∀ i < n, wmByte s h (off + i) = .free
  present : ∀ i < n, (off + i) / 2048 ∉ (s.tile h).evicted

/-- The registers and the frame of a completed scalar access: only `ds` and the watch of the strand, and no byte but those that `mem`
and `spd` say. -/
def Accessed (s t : State) (ds : List (BitVec 5)) (mem : Nat → BitVec 8) (spd : Nat → Nat → BitVec 8) : Prop :=
  SameStrand s t ds ∧ (∀ a, cellGet t.mem a = mem a) ∧ ∀ h a, cellGet (t.tile h).spd a = spd h a

/-- Byte `k` of a value. -/
def byteOf (v k : Nat) : BitVec 8 := BitVec.ofNat 8 (v / 2 ^ (8 * k))

/-- Bytes as before, but for the `n` bytes of `v` at `a`. -/
def stored (old : Nat → BitVec 8) (a n v : Nat) : Nat → BitVec 8 := fun x => if a ≤ x ∧ x < a + n then byteOf v (x - a) else old x

/-- The little-endian number of the `n` bytes at `a`. -/
def number (byte : Nat → BitVec 8) (a n : Nat) : Nat := ((List.range n).map fun k => (byte (a + k)).toNat * 2 ^ (8 * k)).sum

/-! ### Control and status registers (Table 1.3) -/

/-- What a CSR form writes for an old value; none when it only reads (R20, R84). -/
def csrForm (s : State) : Instr → Option (BitVec 5 × BitVec 12 × Option (Word → Word))
  | .csrrw d a c => some (d, c, some fun _ => s.reg a)
  | .csrrs d a c => some (d, c, if a = 0 then none else some fun old => old ||| s.reg a)
  | .csrrc d a c => some (d, c, if a = 0 then none else some fun old => old &&& ~~~(s.reg a))
  | .csrrwi d a c => some (d, c, some fun _ => BitVec.ofNat 64 a.toNat)
  | .csrrsi d a c => some (d, c, if a = 0 then none else some fun old => old ||| BitVec.ofNat 64 a.toNat)
  | .csrrci d a c => some (d, c, if a = 0 then none else some fun old => old &&& ~~~(BitVec.ofNat 64 a.toNat))
  | _ => none

/-- The bits of a writable register of Table 1.3 that hold what is written. -/
def csrBits (c : Nat) : Nat :=
  if c = 0x001 then 0x1F7
  else if 0x008 ≤ c ∧ c ≤ 0x00C then 0xBFFFFFFFFFFFFFFC
  else if c = 0x011 then 0x7FFF
  else if 0x018 ≤ c ∧ c ≤ 0x01F then 0x03FF03FF03FF03FF
  else if c = 0x020 then 0xFF
  else if c = 0x021 then 0x7F
  else if c = 0x040 then 0xFFFF
  else if c = 0x041 ∨ c = 0x044 then 0xFFFFFFFFFFFC
  else if c = 0x042 then 0xFFFFFFFFFFFFFF
  else if c = 0x043 then 0x7FFF
  else if c = 0x045 then 0xFFFFFFFFFFFFFFFF
  else if c = 0x100 then 0xF
  else 0

/-- What a read-only register of Table 1.3 holds; `pjobl` to `psvr` and the `dr` registers stand in the partition's record (Table 25.3) and in
the record of the loop that `drsel` names (Table 13.6). -/
def csrHolds (s : State) (c : Nat) : Option Nat :=
  let v := s.curTile.ctx.av
  let field := fun (k lo n : Nat) => (s.partition s.curPart).word k / 2 ^ lo % 2 ^ n
  let l := s.curTile.loop s.cur.drsel.toNat
  let w := fun (x : Word) (lo n : Nat) => x.toNat / 2 ^ lo % 2 ^ n
  if c = 0x010 then some v.vl
  else if c = 0x012 then some ((match s.curTile.queue with | e :: _ => e.pc | [] => s.cur.pc + 4).toNat % 2 ^ 48 / 4 * 4)
  else if 0x030 ≤ c ∧ c ≤ 0x03F then some (((s.curTile.ctx.xchan (c - 0x030)).top * 2 ^ 22 + (s.curTile.ctx.xchan (c - 0x030)).wm) % 2 ^ 24)
  else if c = 0x080 then some (s.opcur.toNat + if s.opBusy then 4 else 0)
  else if c = 0x081 then some (if s.curTile.part.isSome then field 0 24 2 else 3)
  else if c = 0x082 then some (s.curTile.capAt s.opcur.toNat + 2 ^ 16 * (s.curTile.alloc % 2 ^ 11))
  else if c = 0x0C0 then some s.ct
  else if c = 0x0C1 then some (s.cs + if s.isLead then 8 else 0)
  else if c = 0x0C2 then some s.curPart
  else if c = 0x0C3 then some (s.cyc % 2 ^ 64)
  else if 0x0D0 ≤ c ∧ c ≤ 0x0D4 then some (field (8 + (c - 0x0D0)) 0 48)
  else if c = 0x0D5 then some (field 0 4 10 + 2 ^ 16 * field 0 14 10)
  else if l.bound = false then none
  else if c = 0x101 then some (w l.w0 13 13)
  else if c = 0x102 then some (w l.w0 26 7)
  else if c = 0x103 then some (w l.w0 33 4 + 16 * w l.w0 37 4 + 256 * w l.w0 41 4)
  else if c = 0x104 then some (w l.w1 0 16)
  else if c = 0x105 then some l.wp
  else if c = 0x106 then some l.wc
  else if c = 0x107 then some (l.integ % 2 ^ 16).toNat
  else none

/-! ### Traps -/

/-- A strand that can take a trap: it has a handler and is not in it (R86). -/
def HandlerReady (s : State) : Prop := s.cur.h = false ∧ s.cur.tvec ≠ 0

/-- The current strand has entered its handler (R86). -/
def Entered (s t : State) (cause sub : BitVec 8) (tpc : Word) (tva : BitVec 56) (telem : BitVec 15) : Prop :=
  t.cur.h = true ∧ t.cur.pc = s.cur.tvec.zeroExtend 64 ∧ t.cur.state = .runnable ∧
  t.cur.tcause = sub ++ cause ∧ t.cur.tpc = (tpc.truncate 48) &&& ~~~3 ∧ t.cur.tva = tva ∧ t.cur.telem = telem ∧
  (∀ r, t.reg r = s.reg r) ∧ t.cur.tvec = s.cur.tvec ∧ t.cur.tscr = s.cur.tscr ∧ t.cur.fstat = s.cur.fstat

/-! ### A turn -/

/-- The device as tile `tl` takes the turn that the agenda gives it: one cycle on, its strands whose wait has ended runnable again, and
its buckets accrued (R344). -/
def issuing (s : State) (tl : Nat) (lag : Bool) (ag : List Turn) : State :=
  let s1 := wake tl { s with cyc := s.cyc + 1, agenda := ag, lag := lag }
  s1.setTile tl (accrue (s1.tile tl))

/-! ### Engine instructions (majors 0x10 to 0x20): the operation that each leaves in the queue -/

/-- The operation of an engine instruction. -/
def engineOp : Instr → Option EngOp
  | .vadd d a b k => some (.arith .add d a (.vec b) k)
  | .vsub d a b k => some (.arith .sub d a (.vec b) k)
  | .vmul d a b k => some (.arith .mul d a (.vec b) k)
  | .vmulh d a b k => some (.arith .mulh d a (.vec b) k)
  | .vfma d a b k => some (.arith .fma d a (.vec b) k)
  | .vfms d a b k => some (.arith .fms d a (.vec b) k)
  | .vfnma d a b k => some (.arith .fnma d a (.vec b) k)
  | .vdiv d a b k => some (.arith .div d a (.vec b) k)
  | .vmin d a b k => some (.arith .min d a (.vec b) k)
  | .vmax d a b k => some (.arith .max d a (.vec b) k)
  | .vsadd d a b k => some (.arith .sadd d a (.vec b) k)
  | .vssub d a b k => some (.arith .ssub d a (.vec b) k)
  | .vand d a b k => some (.arith .and d a (.vec b) k)
  | .vor d a b k => some (.arith .or d a (.vec b) k)
  | .vxor d a b k => some (.arith .xor d a (.vec b) k)
  | .vandn d a b k => some (.arith .andn d a (.vec b) k)
  | .vsll d a b k => some (.arith .sll d a (.vec b) k)
  | .vsrl d a b k => some (.arith .srl d a (.vec b) k)
  | .vsra d a b k => some (.arith .sra d a (.vec b) k)
  | .vceq d a b k => some (.cmp .eq d a (.vec b) k)
  | .vcne d a b k => some (.cmp .ne d a (.vec b) k)
  | .vclt d a b k => some (.cmp .lt d a (.vec b) k)
  | .vcle d a b k => some (.cmp .le d a (.vec b) k)
  | .vabs d a k => some (.unary .abs d a k)
  | .vneg d a k => some (.unary .neg d a k)
  | .vclz d a k => some (.unary .clz d a k)
  | .vctz d a k => some (.unary .ctz d a k)
  | .vffs d a k => some (.unary .ffs d a k)
  | .vpopc d a k => some (.unary .popc d a k)
  | .vexp2 d a k => some (.unary .exp2 d a k)
  | .vlog2 d a k => some (.unary .log2 d a k)
  | .vrcp d a k => some (.unary .rcp d a k)
  | .vrsq d a k => some (.unary .rsq d a k)
  | .vcvt d a k => some (.cvt .dyn d a k)
  | .vcvtRne d a k => some (.cvt .rne d a k)
  | .vcvtRtz d a k => some (.cvt .rtz d a k)
  | .vcvtRdn d a k => some (.cvt .rdn d a k)
  | .vcvtRup d a k => some (.cvt .rup d a k)
  | .vcvtRmm d a k => some (.cvt .rmm d a k)
  | .vcvtSr d a k => some (.cvt .sr d a k)
  | .vquant d a b k => some (.quant d a b k)
  | .vdequant d a b k => some (.dequant d a b k)
  | .vaddS d a b k => some (.arith .add d a (.scalar b) k)
  | .vsubS d a b k => some (.arith .sub d a (.scalar b) k)
  | .vmulS d a b k => some (.arith .mul d a (.scalar b) k)
  | .vmulhS d a b k => some (.arith .mulh d a (.scalar b) k)
  | .vfmaS d a b k => some (.arith .fma d a (.scalar b) k)
  | .vfmsS d a b k => some (.arith .fms d a (.scalar b) k)
  | .vfnmaS d a b k => some (.arith .fnma d a (.scalar b) k)
  | .vdivS d a b k => some (.arith .div d a (.scalar b) k)
  | .vminS d a b k => some (.arith .min d a (.scalar b) k)
  | .vmaxS d a b k => some (.arith .max d a (.scalar b) k)
  | .vsaddS d a b k => some (.arith .sadd d a (.scalar b) k)
  | .vssubS d a b k => some (.arith .ssub d a (.scalar b) k)
  | .vandS d a b k => some (.arith .and d a (.scalar b) k)
  | .vorS d a b k => some (.arith .or d a (.scalar b) k)
  | .vxorS d a b k => some (.arith .xor d a (.scalar b) k)
  | .vandnS d a b k => some (.arith .andn d a (.scalar b) k)
  | .vsllS d a b k => some (.arith .sll d a (.scalar b) k)
  | .vsrlS d a b k => some (.arith .srl d a (.scalar b) k)
  | .vsraS d a b k => some (.arith .sra d a (.scalar b) k)
  | .vceqS d a b k => some (.cmp .eq d a (.scalar b) k)
  | .vcneS d a b k => some (.cmp .ne d a (.scalar b) k)
  | .vcltS d a b k => some (.cmp .lt d a (.scalar b) k)
  | .vcleS d a b k => some (.cmp .le d a (.scalar b) k)
  | .vaddI d a i k => some (.arith .add d a (.imm i) k)
  | .vsubI d a i k => some (.arith .sub d a (.imm i) k)
  | .vmulI d a i k => some (.arith .mul d a (.imm i) k)
  | .vmulhI d a i k => some (.arith .mulh d a (.imm i) k)
  | .vminI d a i k => some (.arith .min d a (.imm i) k)
  | .vmaxI d a i k => some (.arith .max d a (.imm i) k)
  | .vsaddI d a i k => some (.arith .sadd d a (.imm i) k)
  | .vssubI d a i k => some (.arith .ssub d a (.imm i) k)
  | .vandI d a i k => some (.arith .and d a (.imm i) k)
  | .vorI d a i k => some (.arith .or d a (.imm i) k)
  | .vxorI d a i k => some (.arith .xor d a (.imm i) k)
  | .vandnI d a i k => some (.arith .andn d a (.imm i) k)
  | .vsllI d a i k => some (.arith .sll d a (.imm i) k)
  | .vsrlI d a i k => some (.arith .srl d a (.imm i) k)
  | .vsraI d a i k => some (.arith .sra d a (.imm i) k)
  | .vceqI d a i k => some (.cmp .eq d a (.imm i) k)
  | .vcneI d a i k => some (.cmp .ne d a (.imm i) k)
  | .vcltI d a i k => some (.cmp .lt d a (.imm i) k)
  | .vcleI d a i k => some (.cmp .le d a (.imm i) k)
  | .mand d a b => some (.maskOp .and d a b)
  | .mor d a b => some (.maskOp .or d a b)
  | .mxor d a b => some (.maskOp .xor d a b)
  | .mandn d a b => some (.maskOp .andn d a b)
  | .morn d a b => some (.maskOp .orn d a b)
  | .mnot d a => some (.maskNot d a)
  | .mpopc d a k => some (.maskPopc d a k)
  | .mfirst d a k => some (.maskFirst d a k)
  | .mset d => some (.maskSet d)
  | .mclr d => some (.maskClr d)
  | .vslideup d a b k => some (.slideUp d a b k)
  | .vslidedn d a b k => some (.slideDown d a b k)
  | .vgather d a b k => some (.gather d a b k)
  | .vcompress d a k => some (.compress d a k)
  | .vexpand d a k => some (.expand d a k)
  | .vbcast d a k => some (.bcast d a k)
  | .vext d a b => some (.extract d a b)
  | .vins d a b => some (.insert d a b)
  | .vredsum d a b k => some (.reduce .sum d a b k)
  | .vredsumo d a b k => some (.reduce .sumo d a b k)
  | .vredmin d a b k => some (.reduce .min d a b k)
  | .vredmax d a b k => some (.reduce .max d a b k)
  | .vsetl d a b => some (.vsetl d a b)
  | .vtag d t r g => some (.vtag d t r g)
  | .vld d a k => some (.load .unit d a k)
  | .vlds d a b k => some (.load (.strided b) d a k)
  | .vldx d a b k => some (.load (.indexed b) d a k)
  | .vldFf d a k => some (.load .firstFault d a k)
  | .vldt d a k => some (.load .shaped d a k)
  | .vst d a k => some (.store .unit d a k)
  | .vsts d a b k => some (.store (.strided b) d a k)
  | .vstx d a b k => some (.store (.indexed b) d a k)
  | .vstt d a k => some (.store .shaped d a k)
  | .vmmAdd d a b k => some (.vmm .add d a b k)
  | .vmmSub d a b k => some (.vmm .sub d a b k)
  | .vmmMul d a b k => some (.vmm .mul d a b k)
  | .vmmMin d a b k => some (.vmm .min d a b k)
  | .vmmMax d a b k => some (.vmm .max d a b k)
  | .vmmAnd d a b k => some (.vmm .and d a b k)
  | .vmmOr d a b k => some (.vmm .or d a b k)
  | .vmmXor d a b k => some (.vmm .xor d a b k)
  | .vmmCpy d a k => some (.vmm .cpy d a 0 k)
  | .vfba s => some (.vfba s)
  | .mcfg a f t u v => some (.mcfg a f t u v)
  | .mma q e a b => some (.mma .dense q e a b)
  | .mmaX q e a b v => some (.mma (.scaled v) q e a b)
  | .mmaG q e a b v => some (.mma (.grouped v) q e a b)
  | .mmaS24 q e a b v => some (.mma (.s24 v) q e a b)
  | .mmaBm q e a b v => some (.mma (.bitmap v) q e a b)
  | .mzero q => some (.mzero q)
  | .mrsum q e a b => some (.mma .rowSum q e a b)
  | .mld q e a => some (.mld q e a)
  | .mst q e a => some (.mst q e a)
  | .mstSm q e a => some (.mstSm q e a)
  | .mdrain q e a b t => some (.mdrain q e a b t)
  | .xcopy d a c => some (.xcopy d a c)
  | .xcopyQ d a => some (.xcopyQ d a)
  | .xabort a => some (.xabort a)
  | .xqry d a => some (.xqry d a)
  | .xev d => some (.xev d)
  | .fcfgLd d a => some (.fcfgLd d a)
  | .fcfgSw d a => some (.fcfgSw d a)
  | .fstart => some (.fstart)
  | .fstop => some (.fstop)
  | .fsave a => some (.fsave a)
  | .frest a => some (.frest a)
  | .fmark a => some (.fmark a)
  | .fstat d s => some (.fstat d s)
  | .fportW a p => some (.fportW a p false)
  | .fportWEos a p => some (.fportW a p true)
  | .fportR d p => some (.fportR d p false)
  | .fportRStatus d p => some (.fportR d p true)
  | _ => none

/-- The register-only vector forms, majors 0x10 to 0x15 (R97). -/
def registerOnly : EngOp → Bool
  | .arith _ _ _ _ _ | .cmp _ _ _ _ _ | .unary _ _ _ _ | .cvt _ _ _ _ | .quant _ _ _ _ | .dequant _ _ _ _ | .maskOp _ _ _ _
  | .maskNot _ _ | .maskPopc _ _ _ | .maskFirst _ _ _ | .maskSet _ | .maskClr _ | .slideUp _ _ _ _ | .slideDown _ _ _ _
  | .gather _ _ _ _ | .compress _ _ _ | .expand _ _ _ | .bcast _ _ _ | .extract _ _ _ | .insert _ _ _ | .reduce _ _ _ _ _
  | .vsetl _ _ _ | .vtag _ _ _ _ => true
  | _ => false

/-- The vector memory forms and the barrier, majors 0x16 to 0x18. -/
def vectorMemory : EngOp → Bool
  | .load _ _ _ _ | .store _ _ _ _ | .vmm _ _ _ _ _ | .vfba _ => true
  | _ => false

/-- An engine instruction issues on the lead strand with an empty queue while the engines keep up: it raises nothing at issue (R98), and
no copy in progress holds a mask register that it names (R150). -/
structure EngineReady (s : State) (op : EngOp) : Prop where
  lead : s.isLead = true
  empty : s.curTile.queue = []
  prompt : s.lag = false
  legal : engineLegal s.reg s.curTile.ctx.av op = true
  unheld : maskHeld s.curTile.ctx op = false

/-- What a register-only form does to the register file. -/
def registerEffect (s : State) (op : EngOp) : Ctx × Done :=
  performRegister s.curTile.ctx s.reg (rmOf (fld s.cur.fstat 0 3)) op

/-- The entry that the instruction takes, and the state in which it is performed. -/
def entryOf (s : State) (op : EngOp) : Entry := { op := op, pc := s.cur.pc, regs := s.cur.regs, view := s.curTile.ctx.av }
def performance (s : State) (op : EngOp) : Perf := entryPerf s.ct [] (entryOf s op) (enqueue op s.curTile.ctx.av s)

/-- The queue holds the entry alone, and it stands stalled at `w`. -/
def StallsAt (t : State) (op : EngOp) (w : WaitKind) : Prop := ∃ e, t.curTile.queue = [e] ∧ e.op = op ∧ e.state = .stalled w

/-- The tiles of the launch of the current team in the instance of scope `sc` that holds its tile (R19, R122). -/
def participants (s : State) (sc : Nat) : List Nat :=
  match s.curTile.team with
  | some m => ((launchOf s s.curPart m.cid).map fun l => recordTiles l.words).getD [] |>.filter fun u =>
      (scopeTiles s.ct sc).1 ≤ u && u < (scopeTiles s.ct sc).1 + (scopeTiles s.ct sc).2
  | none => []

/-- Participant `u` has its `n`-th arrival of scope `sc` still before it: its team has not started, or runs and has not come so far (R122). -/
def Awaited (s : State) (sc n u : Nat) : Prop :=
  ∃ m l, s.curTile.team = some m ∧ launchOf s s.curPart m.cid = some l ∧ (u ∈ l.pending ∨
    (u ≠ s.ct ∧ (∃ m', (s.tile u).team = some m' ∧ m'.cid = m.cid) ∧ (s.tile u).part = some s.curPart ∧ sget 0 (s.tile u).ctx.arrivals sc < n))

/-- The scalar registers after the results `l` were written to those of `s`. -/
def scalarResults (s : State) (l : List (BitVec 5 × Word)) (r : BitVec 5) : Word :=
  if r = 0 then 0 else match l.reverse.find? fun q => q.1 = r with
    | some q => q.2
    | none => s.reg r

/-- The configuration registers after a retirement: the view of the operation, its trim, `vstart` zero (R92, R97). -/
def retiredView (s : State) (op : EngOp) (rtag : Option (BitVec 5)) (trim : Option Nat) : View :=
  let v := opView s.reg rtag s.curTile.ctx.av op
  { v with vl := trim.getD v.vl, vstart := 0 }

/-! ### Floating-point values (R159 to R166) -/

/-- The number that a finite value stands for. -/
def valueQ : FVal → ℚ
  | .fin n m e => (if n then -1 else 1) * m * 2 ^ e
  | _ => 0

/-- A value that is a number. -/
def IsNumber : FVal → Prop
  | .fin _ _ _ => True
  | _ => False

/-- The number of a finite encoding (Table 7.1): sign, exponent field and fraction field. -/
def encodedNumber (f : Fmt) (x : Nat) : ℚ :=
  let e := x / 2 ^ f.mbits % 2 ^ f.ebits
  let m : ℚ := (x % 2 ^ f.mbits : Nat) / 2 ^ f.mbits
  (if x / 2 ^ (f.width - 1) % 2 = 1 then -1 else 1) * (if e = 0 then m * 2 ^ (1 - (f.bias : Int)) else (1 + m) * 2 ^ ((e : Int) - f.bias))

/-- A number rounded to an integer (Table 7.4). -/
def roundQ (rm : RM) (x : ℚ) : Int :=
  match rm with
  | .rtz => if 0 ≤ x then ⌊x⌋ else ⌈x⌉
  | .rdn => ⌊x⌋
  | .rup => ⌈x⌉
  | .rmm => if 0 ≤ x then ⌊x + 1 / 2⌋ else ⌈x - 1 / 2⌉
  | .rne => if Int.fract x = 1 / 2 then (if ⌊x⌋ % 2 = 0 then ⌊x⌋ else ⌊x⌋ + 1) else ⌊x + 1 / 2⌋

/-- Encoding `x` is what rounding the number `q` into the format gives where nothing overflows: of all its numbers the nearest, at a tie the
even or the greater one, or the nearest on the side that the mode names (Table 7.4). -/
def RoundsTo (f : Fmt) (rm : RM) (q : ℚ) (x : Nat) : Prop :=
  x < 2 ^ f.width ∧ IsNumber (decodeF f x) ∧ ∀ z, z < 2 ^ f.width → IsNumber (decodeF f z) →
    let y := valueQ (decodeF f x)
    let v := valueQ (decodeF f z)
    match rm with
    | .rdn => y ≤ q ∧ (v ≤ q → v ≤ y)
    | .rup => q ≤ y ∧ (q ≤ v → y ≤ v)
    | .rtz => |y| ≤ |q| ∧ 0 ≤ y * q ∧ (|v| ≤ |q| → |v| ≤ |y|)
    | .rne => |y - q| ≤ |v - q| ∧ (|y - q| = |v - q| → v ≠ y → x % 2 = 0)
    | .rmm => |y - q| ≤ |v - q| ∧ (|y - q| = |v - q| → |v| ≤ |y|)

/-- Order and equality of values (R105): a NaN is neither below nor equal to anything. -/
def Below : FVal → FVal → Prop
  | .nan _, _ => False
  | _, .nan _ => False
  | .inf a, .inf b => a = true ∧ b = false
  | .inf a, .fin _ _ _ => a = true
  | .fin _ _ _, .inf b => b = false
  | x, y => valueQ x < valueQ y
def Same : FVal → FVal → Prop
  | .nan _, _ => False
  | _, .nan _ => False
  | .inf a, .inf b => a = b
  | .inf _, .fin _ _ _ => False
  | .fin _ _ _, .inf _ => False
  | x, y => valueQ x = valueQ y

/-- The relations of R105 over values: any NaN makes all but `ne` false. -/
def relationOfValues (op : CmpOp) (x y : FVal) : Prop :=
  match op with
  | .eq => Same x y
  | .ne => ¬ Same x y
  | .lt => Below x y
  | .le => Below x y ∨ Same x y

/-- A value times 2^k. -/
def scaledBy (k : Int) : FVal → FVal
  | .fin n m e => .fin n m (e + k)
  | v => v

/-! ### Elements (Tables 4.5 and 4.7) -/

/-- The integer of an encoding of width `w`. -/
def intValue (sgn : Bool) (w x : Nat) : Int := if sgn = true ∧ 2 ^ (w - 1) ≤ x then (x : Int) - 2 ^ w else x

/-- An integer modulo 2^w, as an encoding. -/
def encoding (w : Nat) (z : Int) : Nat := (z % 2 ^ w).toNat

/-- Least and greatest integer of a width. -/
def leastInt (sgn : Bool) (w : Nat) : Int := if sgn then -2 ^ (w - 1) else 0
def greatestInt (sgn : Bool) (w : Nat) : Int := if sgn then 2 ^ (w - 1) - 1 else 2 ^ w - 1

/-- The integer column of Table 4.5: the encoding of the result for operand encodings `x`, `y` and, for the fused forms, `z`. -/
def elementResult (op : ArithOp) (sgn : Bool) (w x y z : Nat) : Nat :=
  let X := intValue sgn w x
  let Y := intValue sgn w y
  let Z := intValue sgn w z
  match op with
  | .add => encoding w (X + Y)
  | .sub => encoding w (X - Y)
  | .mul => encoding w (X * Y)
  | .mulh => encoding w (X * Y / 2 ^ w)
  | .fma => encoding w (X * Y + Z)
  | .fms => encoding w (X * Y - Z)
  | .fnma => encoding w (-(X * Y) + Z)
  | .div => if Y = 0 then 2 ^ w - 1 else encoding w (X.tdiv Y)
  | .min => encoding w (Min.min X Y)
  | .max => encoding w (Max.max X Y)
  | .sadd => encoding w (Max.max (leastInt sgn w) (Min.min (greatestInt sgn w) (X + Y)))
  | .ssub => encoding w (Max.max (leastInt sgn w) (Min.min (greatestInt sgn w) (X - Y)))
  | .and => x &&& y
  | .or => x ||| y
  | .xor => x ^^^ y
  | .andn => x &&& (2 ^ w - 1 - y)
  | .sll => encoding w (x * 2 ^ (y % w))
  | .srl => x / 2 ^ (y % w)
  | .sra => encoding w (intValue true w x / 2 ^ (y % w))

/-- The floating column of Table 4.5: one exact operation, rounded once. -/
def floatResult (op : ArithOp) (f : Fmt) (rm : RM) (x y z : FVal) : Nat :=
  match op with
  | .add => (encodeF f rm (addV rm x y).1).1
  | .sub => (encodeF f rm (addV rm x y.neg).1).1
  | .mul => (encodeF f rm (mulV x y).1).1
  | .fma => (encodeF f rm (fmaV rm x y z).1).1
  | .fms => (encodeF f rm (fmaV rm x y z.neg).1).1
  | .fnma => (encodeF f rm (fmaV rm x.neg y z).1).1
  | .div => (divF f rm x y).1
  | .min => (encodeF f rm (minmaxV false x y).1).1
  | .max => (encodeF f rm (minmaxV true x y).1).1
  | _ => 0

/-- An integer clamped into the range of a tag. -/
def clamped (t : Nat) (z : Int) : Nat :=
  encoding (tagWidth t) (Max.max (leastInt (tagSigned t) (tagWidth t)) (Min.min (greatestInt (tagSigned t) (tagWidth t)) z))

/-- The value of an element of a tag (R100, R162). -/
def tagValue (t x : Nat) : FVal :=
  match tagFmt t with
  | some f => decodeF f x
  | none =>
    if t = 0x18 then (if x = 255 then .nan false else .fin false 1 ((x : Int) - 127))
    else .fin (decide (intValue (tagSigned t) (tagWidth t) x < 0)) (intValue (tagSigned t) (tagWidth t) x).natAbs 0

/-- A value rounded once into a tag (R109, R163): a NaN gives the integer 0, an infinity an end of the range. -/
def intoTag (dst : Nat) (rm : RM) (v : FVal) : Nat :=
  match tagFmt dst with
  | some f => (encodeF f rm v).1
  | none => match v with
    | .nan _ => 0
    | .inf n => clamped dst (if n then leastInt (tagSigned dst) (tagWidth dst) else greatestInt (tagSigned dst) (tagWidth dst))
    | w => clamped dst (roundQ rm (valueQ w))

/-- The unary operations on integers (R107). -/
def unaryInteger (op : UnaryOp) (sgn : Bool) (w x : Nat) : Nat :=
  match op with
  | .abs => encoding w (intValue sgn w x).natAbs
  | .neg => encoding w (-(intValue sgn w x))
  | .clz => if x = 0 then w else w - 1 - x.log2
  | .ctz => ((List.range w).find? x.testBit).getD w
  | .ffs => match (List.range w).find? x.testBit with | some j => j + 1 | none => 0
  | .popc => ((List.range w).filter x.testBit).length
  | _ => 0

/-- What a special function gives for the value `v` in a floating tag (R108, Table 4.6): the cases of the table, the exact powers of two and
their logarithms, a quotient rounded once, and of 1/√v the nearest number of the format. -/
def SpecialResult (op : UnaryOp) (f : Fmt) (v : FVal) (y : Nat) : Prop :=
  let sign := fun n : Bool => if n then 2 ^ (f.width - 1) else 0
  match op, v with
  | _, .nan _ => y = f.nan
  | .exp2, .inf n => y = if n then 0 else f.infinity
  | .exp2, .fin n m e => ∀ k : Int, valueQ (.fin n m e) = k → y = (encodeF f .rne (.fin false 1 k)).1
  | .log2, .inf n => y = if n then f.nan else f.infinity
  | .log2, .fin n m e =>
    (m = 0 → y = sign true + f.infinity) ∧ (valueQ (.fin n m e) < 0 → y = f.nan) ∧
    ∀ k : Int, valueQ (.fin n m e) = 2 ^ k → y = (encodeF f .rne (.fin (decide (k < 0)) k.natAbs 0)).1
  | .rcp, .inf n => y = sign n
  | .rcp, .fin n m e => y = if m = 0 then sign n + f.infinity else (divF f .rne (.fin false 1 0) (.fin n m e)).1
  | .rsq, .inf n => y = if n then f.nan else 0
  | .rsq, .fin n m e =>
    (m = 0 → y = sign n + f.infinity) ∧ (valueQ (.fin n m e) < 0 → y = f.nan) ∧
    (0 < valueQ (.fin n m e) → IsNumber (decodeF f y) ∧ 0 < valueQ (decodeF f y) ∧
      ∀ z < 2 ^ f.width, IsNumber (decodeF f z) → 0 ≤ valueQ (decodeF f z) →
        let mid := (valueQ (decodeF f y) + valueQ (decodeF f z)) / 2
        (valueQ (decodeF f z) < valueQ (decodeF f y) → mid ^ 2 * valueQ (.fin n m e) ≤ 1) ∧
        (valueQ (decodeF f y) < valueQ (decodeF f z) → 1 ≤ mid ^ 2 * valueQ (.fin n m e)))
  | _, _ => True

/-- A value converted stochastically into a tag with the draw `r` (R110): of the two neighbours in the target the greater magnitude where the
draw lies below the fraction; NaN, infinity and overflow as the RNE conversion gives them. -/
def StochasticResult (dst r : Nat) (v : FVal) (y : Nat) : Prop :=
  match v with
  | .fin n m e =>
    let q := |valueQ (.fin n m e)|
    match tagFmt dst with
    | none => y = clamped dst ((if n then -1 else 1) * (⌊q⌋ + if (r : Int) < ⌊Int.fract q * 2 ^ 32⌋ then 1 else 0))
    | some f =>
      let lo := (encodeF f .rtz (.fin n m e)).1
      let size := fun x => |valueQ (decodeF f x)|
      y = if size f.largest < q then intoTag dst .rne (.fin n m e)
        else lo + if (r : Int) < ⌊(q - size lo) / (size (lo + 1) - size lo) * 2 ^ 32⌋ then 1 else 0
  | v => y = intoTag dst .rne v

/-- One round of the tree of `vredsum` (R113): neighbours are joined, an odd last entry carried. -/
def pairedUp {α : Type} (f : α → α → α) : List α → List α
  | x :: y :: r => f x y :: pairedUp f r
  | l => l

/-- The integer relations of R105. -/
def relationHolds (op : CmpOp) (sgn : Bool) (w x y : Nat) : Prop :=
  match op with
  | .eq => intValue sgn w x = intValue sgn w y
  | .ne => intValue sgn w x ≠ intValue sgn w y
  | .lt => intValue sgn w x < intValue sgn w y
  | .le => intValue sgn w x ≤ intValue sgn w y

/-- Element `i` of the operand that register `r` names, in the register file `v`. -/
def elementAt (v : SMap (BitVec 8192)) (r : BitVec 5) (w i : Nat) : Nat :=
  ((sget 0 v (r.toNat + i * w / 8192)).toNat / 2 ^ (i * w % 8192)) % 2 ^ w

/-- Active elements (R97). -/
def Active (s : State) (k : BitVec 3) (i : Nat) : Prop :=
  s.curTile.ctx.av.vstart ≤ i ∧ i < s.curTile.ctx.av.vl ∧ (k = 0 ∨ (sget 0 s.curTile.ctx.m k.toNat).getLsbD i = true)

/-- Elements below `vl` whose mask bit is set: those of a permute or a reduction (R97). -/
def Selected (s : State) (k : BitVec 3) (i : Nat) : Prop :=
  i < s.curTile.ctx.av.vl ∧ (k = 0 ∨ (sget 0 s.curTile.ctx.m k.toNat).getLsbD i = true)

/-- The tag that register `r` has. -/
def tagAt (s : State) (r : BitVec 5) : Nat := (s.curTile.ctx.av.operand r).tag

/-- The second operand at element `i` of an operation in integer tag `tag`: an element, the low bits of a scalar, or an immediate that
the tag represents (R101). -/
def SecondOperand (s : State) (tag : Nat) (b : SrcB) (i y : Nat) : Prop :=
  match b with
  | .vec r => tagAt s r = tag ∧ y = elementAt s.curTile.ctx.v r (tagWidth tag) i
  | .scalar r => y = (s.reg r).toNat % 2 ^ tagWidth tag
  | .imm x => leastInt (tagSigned tag) (tagWidth tag) ≤ x.toInt ∧ x.toInt ≤ greatestInt (tagSigned tag) (tagWidth tag) ∧
      y = encoding (tagWidth tag) x.toInt

/-- The second operand at element `i` of an operation in floating format `f`: an element of the same tag, the low bits of a scalar, or an
immediate rounded into the format (R101). -/
def FloatOperand (s : State) (tag : Nat) (f : Fmt) (b : SrcB) (i y : Nat) : Prop :=
  match b with
  | .vec r => tagAt s r = tag ∧ y = elementAt s.curTile.ctx.v r (tagWidth tag) i
  | .scalar r => y = (s.reg r).toNat % 2 ^ tagWidth tag
  | .imm x => y = (encodeF f .rne (.fin (decide (x.toInt < 0)) x.toInt.natAbs 0)).1

/-- Elements that one element of a scale operand serves, for quantised elements of width `w` (R111). -/
def scaleBlock (s : State) (r : BitVec 5) (w : Nat) : Nat :=
  let o := s.curTile.ctx.av.operand r
  o.width * (4 * 2 ^ o.ratio) / w

/-- Element `j` of the source of a permute: 0 at or above VLMAX (R112). -/
def sourceAt (s : State) (r : BitVec 5) (j : Nat) : Nat :=
  let o := s.curTile.ctx.av.operand r
  if j < Min.min (8192 * o.group / o.width) 8192 then elementAt s.curTile.ctx.v r o.width j else 0

/-! ### Scratchpad streams -/

/-- Stream register `k` is open on the scratchpad with an intent (R270). -/
def ScratchpadStream (s : State) (k : BitVec 5) (bit : Nat) : Prop :=
  (s.curTile.stream k.toNat).isOpen = true ∧ (s.curTile.stream k.toNat).kind = 1 ∧
  (s.curTile.stream k.toNat).intent.getLsbD bit = true ∧ (s.curTile.stream k.toNat).rid = none

/-- Address of element `i` of a form (Table 4.8), for elements of `w` bits. -/
def elementAddress (s : State) (k : BitVec 5) (form : MemForm) (w i : Nat) : Word :=
  let st := s.curTile.stream k.toNat
  match form with
  | .strided b => st.current + BitVec.ofNat 64 i * s.reg b
  | .indexed b => st.current +
      BitVec.ofInt 64 (intValue (tagSigned (tagAt s b)) (tagWidth (tagAt s b)) (elementAt s.curTile.ctx.v b (tagWidth (tagAt s b)) i))
  | _ => if w = 4 then st.current + BitVec.ofNat 64 (i / 2) else st.current + BitVec.ofNat 64 i * st.es.signExtend 64

/-- The element access at `ea` goes through: inside the stream's range, aligned, in bytes that slot 0 holds, below no watermark. -/
def ElementOnPad (s : State) (k : BitVec 5) (ea : Word) (n h off : Nat) : Prop :=
  (ea - (s.curTile.stream k.toNat).addr).toNat + n ≤ (s.curTile.stream k.toNat).ext.toNat ∧ ScratchpadPlace s ea n h off
where
  /-- The place of an aligned scratchpad access of slot 0. -/
  ScratchpadPlace (s : State) (ea : Word) (n h off : Nat) : Prop :=
    ea.toNat % n = 0 ∧ (∃ w pos, classify ea = some (.spd w pos off) ∧ h = spdTile s.ct w pos ∧ spdInRange s s.ct 0 w pos off n = true) ∧
    (∀ i < n, wmByte s h (off + i) = .free) ∧ ∀ i < n, (off + i) / 2048 ∉ (s.tile h).evicted

/-- The position of a stream after a form has run over `vl` elements (R114). -/
def positionAfter (s : State) (k : BitVec 5) (form : MemForm) (w : Nat) : Word :=
  let st := s.curTile.stream k.toNat
  let n := s.curTile.ctx.av.vl
  match form with
  | .strided b => st.pos + BitVec.ofNat 64 n * s.reg b
  | .indexed _ => st.pos
  | _ => if w = 4 then st.pos + BitVec.ofNat 64 ((n + 1) / 2) else st.pos + BitVec.ofNat 64 n * st.es.signExtend 64

/-- Bytes of an element access: a 4-bit element stands in one byte (R114). -/
def elementBytes (w : Nat) : Nat := Max.max 1 (w / 8)

/-- Element `e` of width `w` in the value of the bytes at its address: of a 4-bit element the nibble of its place. -/
def inBytes (w e v : Nat) : Nat := if w = 4 then v / 2 ^ (4 * (e % 2)) % 2 ^ 4 else v

/-- Nibble `j` of a scratchpad byte. -/
def nibble (s : State) (h off j : Nat) : Nat := (cellGet (s.tile h).spd off).toNat / 2 ^ (4 * j) % 2 ^ 4

/-- Element `i` of a shape record, and its fields (R119): the tag, the length of the innermost run, and the address of its element `e`. -/
def recordElement (s : State) (a : BitVec 5) (i : Nat) : Nat := elementAt s.curTile.ctx.v a 64 i
def recordTag (s : State) (a : BitVec 5) : Nat := recordElement s a 1 % 2 ^ 5
def recordLength (s : State) (a : BitVec 5) : Nat := Min.min s.curTile.ctx.av.vl (recordElement s a 2)
def recordAddress (s : State) (a : BitVec 5) (w e : Nat) : Word :=
  BitVec.ofNat 64 (recordElement s a 0) + (if w = 4 then BitVec.ofNat 64 (e / 2) else BitVec.ofNat 64 (e * recordElement s a 14))

/-- The record raises nothing: a legal tag, 1 to 12 dimensions, no reserved bit, and an innermost stride that keeps the elements aligned. -/
def RecordSound (s : State) (a : BitVec 5) : Prop :=
  let w := tagWidth (recordTag s a)
  let d := recordElement s a 14
  legalTag (BitVec.ofNat 5 (recordTag s a)) = true ∧ recordElement s a 1 / 2 ^ 5 % 2 ^ 3 = 0 ∧
  1 ≤ recordElement s a 1 / 2 ^ 8 % 2 ^ 4 ∧ recordElement s a 1 / 2 ^ 8 % 2 ^ 4 ≤ 12 ∧ recordElement s a 1 / 2 ^ 12 = 0 ∧
  (if w = 4 then d = 0 else d % (w / 8) = 0)

/-- The element operation of a memory-to-memory form; `vmm.cpy` has none (Table 1.11). -/
def memoryOp : VmmOp → Option ArithOp
  | .add => some .add | .sub => some .sub | .mul => some .mul | .min => some .min | .max => some .max
  | .and => some .and | .or => some .or | .xor => some .xor | .cpy => none

/-- The result of a memory-to-memory form in tag `tag` (R120): the operation of Table 4.5, or the copied element. -/
def memoryResult (op : VmmOp) (tag : Nat) (rm : RM) (x y : Nat) : Nat :=
  match memoryOp op with
  | none => x
  | some o => match tagFmt tag with
    | some f => if o.isLogic then elementResult o false (tagWidth tag) x y 0 else floatResult o f rm (decodeF f x) (decodeF f y) (.nan false)
    | none => elementResult o (tagSigned tag) (tagWidth tag) x y 0

/-- The bytes of an element write: of a 4-bit element the byte with its nibble replaced (R114). -/
def outBytes (w e old v : Nat) : Nat :=
  if w = 4 then (if e % 2 = 0 then old / 2 ^ 4 * 2 ^ 4 + v % 2 ^ 4 else old % 2 ^ 4 + 2 ^ 4 * (v % 2 ^ 4)) else v

/-- The scratchpads after a memory-to-memory form over the elements `l` in order: `d`, `a` and `b` say where each element stands, and every element
is complete before the next begins (R120). -/
def memoryForm (op : VmmOp) (tag : Nat) (rm : RM) (d a b : Nat → Nat × Nat) (l : List Nat) (spd : Nat → Nat → BitVec 8) : Nat → Nat → BitVec 8 :=
  let w := tagWidth tag
  let n := elementBytes w
  l.foldl (fun m e =>
    let read := fun p : Nat × Nat => number (m p.1) p.2 n
    let v := outBytes w e (read (d e)) (memoryResult op tag rm (inBytes w e (read (a e))) (inBytes w e (read (b e))))
    fun h => if h = (d e).1 then stored (m h) (d e).2 n v else m h) spd

/-! ### Matrix operands -/

/-- Element (l, k) of width `w` of a register span at `n` with lines of `L` bytes (R125). -/
def spanElement (s : State) (n : BitVec 5) (L w l k : Nat) : Nat :=
  ((sget 0 s.curTile.ctx.v (n.toNat + (8 * L * l + k * w) / 8192)).toNat / 2 ^ ((8 * L * l + k * w) % 8192)) % 2 ^ w

/-- Scratchpad place of element (l, k) of a descriptor (R127): the tile and the offset. -/
def descriptorPlace (s : State) (r0 r1 : Word) (w l k : Nat) : Nat × Nat :=
  let a := spdElemAddr r0 r1 w l k
  (spdTile s.ct (a / 2 ^ 24 % 2 = 1) (a / 2 ^ 22 % 4), a % 2 ^ 22)

/-- Element (l, k) of width `w` of an operand with lines of `L` bytes. -/
def operandElement (s : State) (o : MOperand) (L w l k : Nat) : Nat :=
  match o with
  | .regs n => spanElement s (BitVec.ofNat 5 n) L w l k
  | .spd r0 r1 =>
    let p := descriptorPlace s r0 r1 w l k
    inBytes w k (number (cellGet (s.tile p.1).spd) p.2 (elementBytes w))

/-- The bytes of element (l, k) lie below no watermark, and have been refilled (R148, R393). -/
def OperandReady (s : State) (o : MOperand) (w l k : Nat) : Prop :=
  match o with
  | .regs _ => True
  | .spd r0 r1 =>
    let p := descriptorPlace s r0 r1 w l k
    ∀ i < elementBytes w, wmByte s p.1 (p.2 + i) = .free ∧ (p.2 + i) / 2048 ∉ (s.tile p.1).evicted

/-- Logical positions of the stored values of line `i` of A, in order (R134, R137, R138). -/
def storedPositions (s : State) (kind : MmaKind) (kv i : Nat) : List Nat :=
  let v := fun (m : BitVec 5) => (sget 0 s.curTile.ctx.v m.toNat).toNat
  match kind with
  | .s24 m => (List.range kv).map fun t => 4 * (t / 2) + v m / 2 ^ (192 * i + 4 * (t / 2) + 2 * (t % 2)) % 4
  | .bitmap m => (List.range 256).filter fun k => (v m).testBit (256 * i + k)
  | _ => List.range kv

/-- Logical depth, and bytes of a line of B (Table 5.2). -/
def logicalDepth (kind : MmaKind) (kv : Nat) : Nat := match kind with | .s24 _ => 2 * kv | .bitmap _ => 256 | _ => kv
def lineBytesB (kind : MmaKind) (w : Nat) : Nat := match kind with | .s24 _ => 96 | .bitmap _ => 32 * w | _ => 48

/-- The stored values of line `i` of A that fall into chunk `u` of `per` positions: their number in the line and their position (R134). -/
def chunkOf (s : State) (kind : MmaKind) (kv per u i : Nat) : List (Nat × Nat) :=
  (storedPositions s kind kv i).zipIdx.filterMap fun (k, n) => if k / per = u then some (n, k) else none

/-- The additions of an integer multiply, one per chunk (R134), or the one of `mrsum` (R140). -/
def integerSteps (s : State) (kind : MmaKind) (w kv : Nat) (a b : Nat → Nat → Int) (i j : Nat) : List Int :=
  match kind with
  | .rowSum => [((List.range kv).map (a i)).sum * ((List.range kv).map (b j)).sum]
  | _ => (List.range ((logicalDepth kind kv * w + 63) / 64)).map fun u =>
      ((chunkOf s kind kv (64 / w) u i).map fun (n, k) => a i n * b j k).sum

/-- The saturating additions of R133: the element, and whether one of them was clamped. -/
def saturated (q : Int) (l : List Int) : Int × Bool :=
  l.foldl (fun x u => let y := Max.max (-2 ^ 31) (Min.min (2 ^ 31 - 1) (x.1 + u)); (y, x.2 || decide (y ≠ x.1 + u))) (q, false)

/-- The additions of a floating multiply or of `mma.g`, one per chunk or segment, each rounded once into fp32 (R134 to R136, R174). -/
def floatSteps (s : State) (kind : MmaKind) (fmt w kv : Nat) (a b : Nat → Nat → Nat) (sa sb : Bool) (i j : Nat) : List FVal :=
  let fa := fun n => decodeF (fmtA fmt) (a i n)
  let fb := fun k => decodeF (fmtB fmt) (b j k)
  let chunks := fun (term : Nat × Nat → FVal) => (List.range ((logicalDepth kind kv * w + 63) / 64)).map fun u =>
    sumV ((chunkOf s kind kv (64 / w) u i).map term)
  match kind with
  | .rowSum => [plusZero (mulV (sumV ((List.range kv).map fa)) (sumV ((List.range kv).map fb))).1]
  | .scaled v =>
    let scale := fun n => ((sget 0 s.curTile.ctx.v v.toNat).toNat / 2 ^ (8 * n)) % 2 ^ 8
    chunks fun (n, k) => (mulV (scaleVal (scale (64 * (k / 32) + i)) (fa n)) (scaleVal (scale (64 * (k / 32) + 32 + j)) (fb k))).1
  | .grouped v =>
    let g := scaleBlock s v w
    (List.range ((kv + g - 1) / g)).map fun u =>
      let sz := elementAt s.curTile.ctx.v v 32 (32 * u + j)
      let sum : Int := ((chunkOf s kind kv g u i).map fun (n, k) =>
        intValue sa w (a i n) * (intValue sb w (b j k) - intValue true 16 (sz % 2 ^ 16))).sum
      plusZero (mulV (decodeF .fp16 (sz / 2 ^ 16)) (.fin (decide (sum < 0)) sum.natAbs 0)).1
  | _ => chunks fun (n, k) => (mulV (fa n) (fb k)).1

/-- Values of line `i` of A that the form reads. -/
def storedLength (s : State) (kind : MmaKind) (kv i : Nat) : Nat :=
  match kind with
  | .bitmap _ => (storedPositions s kind kv i).length
  | _ => kv

/-- A multiply form goes through: no trap of its operands or its values (R128, R135, R136, R138), no accumulator held by the fabric (R213), and
every element that it reads at hand. -/
structure MultiplyReady (s : State) (kind : MmaKind) (q : BitVec 3) (oa ob : MOperand) : Prop where
  ready : fabricHoldsQ s.curTile.ctx.fabric q.toNat = false
  fresh : s.curTile.ctx.av.vstart = 0
  operands : operandTrap s s.ct
    [{ op := oa, w := fmtWidth (viewFmt s.curTile.ctx.av), len := storedLength s kind (validDepth s.curTile.ctx.av), noO := false },
     { op := ob, w := fmtWidth (viewFmt s.curTile.ctx.av), len := fun _ => logicalDepth kind (validDepth s.curTile.ctx.av), noO := false }] = none
  values : mmaValueTrap s.curTile.ctx (mmaPlan s.curTile.ctx.av) kind s.curTile.ctx.av.vl = none
  linesA : ∀ i < 32, ∀ k < storedLength s kind (validDepth s.curTile.ctx.av) i, OperandReady s oa (fmtWidth (viewFmt s.curTile.ctx.av)) i k
  linesB : ∀ j < 32, ∀ k < logicalDepth kind (validDepth s.curTile.ctx.av), OperandReady s ob (fmtWidth (viewFmt s.curTile.ctx.av)) j k

/-- A move of an accumulator goes through (R128, R131, R213): elements of `w` bits, `len` of them in a line. -/
structure MoveReady (s : State) (q : BitVec 3) (o : MOperand) (w len : Nat) : Prop where
  ready : fabricHoldsQ s.curTile.ctx.fabric q.toNat = false
  fresh : s.curTile.ctx.av.vstart = 0
  operand : operandTrap s s.ct [{ op := o, w := w, len := fun _ => len, noO := true }] = none
  lines : ∀ i < 32, ∀ k < len, OperandReady s o w i k

/-- The bytes that a store of `len` elements of `w` bits in each of 32 lines writes in memory: pinned by nothing, and no byte in two elements. -/
def StoreApart (s : State) (o : MOperand) (w len : Nat) : Prop :=
  match o with
  | .regs _ => True
  | .spd r0 r1 =>
    let p := descriptorPlace s r0 r1 w
    (∀ i < 32, ∀ k < len, pinners s (p i k).1 (p i k).2 (elementBytes w) = []) ∧
    ∀ i < 32, ∀ i' < 32, ∀ k < len, ∀ k' < len, (i, if w = 4 then k / 2 else k) ≠ (i', if w = 4 then k' / 2 else k') → (p i k).1 = (p i' k').1 →
      (p i k).2 + elementBytes w ≤ (p i' k').2 ∨ (p i' k').2 + elementBytes w ≤ (p i k).2

/-- What `mdrain` writes of an accumulator element `q` under the parameters of its column (Table 5.6). -/
def drained (path tag q m h z : Nat) : Nat :=
  let zi := intValue true 16 z
  if path = 0x04 then clamped tag (roundQ .rne (((intValue true 32 q * intValue true 32 m : Int) : ℚ) / 2 ^ (h % 64)) + zi)
  else
    let p := (mulV (decodeF .fp32 q) (decodeF .fp32 m)).1
    if (tagFmt tag).isSome then intoTag tag .rne p
    else match p with
      | .nan _ => clamped tag zi
      | .inf n => clamped tag (if n then leastInt (tagSigned tag) (tagWidth tag) else greatestInt (tagSigned tag) (tagWidth tag))
      | v => clamped tag (roundQ .rne (valueQ v) + zi)

/-- Element (i, j) of accumulator `q` (R16). -/
def accumulator (x : Tile) (q : BitVec 3) (i j : Nat) : Nat := ((sget 0 x.ctx.q q.toNat).toNat / 2 ^ (32 * (32 * i + j))) % 2 ^ 32


/-! ### Records, streams and channels -/

/-- Keys in rising order: a family that holds no key twice. -/
def Keyed {α : Type} (m : SMap α) : Prop := (m.map (·.1)).Pairwise (· < ·)

/-- No unretired engine entry holds back the current strand, and none names stream register `k` (R269, R378). -/
def StreamFree (s : State) (k : Nat) : Prop := s.enginesBusy = false ∧ ∀ e ∈ s.curTile.queue, namesStream e.op k = false

/-- The current strand goes on at the next word with its registers, but `ds`, as they were. -/
def Continues (s t : State) (ds : List (BitVec 5)) : Prop := GoesOn t (s.cur.pc + 4) ∧ ∀ r, r ∉ ds → t.reg r = s.reg r

/-- The trap of the current instruction. -/
def trapOf (s : State) (tr : Trap) : Host.Outcome State Fault Refusal := .next (takeTrap s s.ct s.cs tr)

/-- The fields that decide whether a channel keeps its queue (R274). -/
def bindingKey (w : Word) : Nat × Bool × Nat × Bool := (fld w 0 5, w.getLsbD 15, fld w 16 7, w.getLsbD 24)

/-! ### Counters (Table 16.2) -/

/-- The word that `ctr.rd` gives for identifier `c` of partition `p`. -/
def counterValue (s : State) (p : Nat) (c : BitVec 20) : Nat :=
  let v := sget {} (s.partition p).counters (fld c 0 12)
  let can := if v.can then 2 ^ 63 else 0
  if fld c 10 2 < 2 ∧ v.gen ≠ BitVec.ofNat 8 (fld c 12 8) then 2 ^ 62
  else match fld c 10 2 with
    | 0 => v.contrib % 2 ^ 16 + 2 ^ 16 * (v.exited % 2 ^ 16) + 2 ^ 32 * (v.teams % 2 ^ 16) + 2 ^ 48 * v.xst.toNat + can
    | 1 => v.done % 2 ^ 16 + 2 ^ 16 * (v.n % 2 ^ 16) + can
    | _ => v.val.toNat + can

/-- The current strand names counter `c` legally in register `a` (R316). -/
def NamesCounter (s : State) (a : BitVec 5) (c : BitVec 20) : Prop :=
  (s.reg a).toNat = c.toNat ∧ (2 ≤ fld c 10 2 → fld c 12 8 = 0)

/-! ### Firings of the fabric -/

/-- The firing of an operator: its code (Tables 9.4 and 9.5), the tile and the position. -/
def firing : Instr → Option (Nat × Nat × Nat)
  | .fabricAdd t e => some (1, t.toNat, e.toNat)
  | .fabricSub t e => some (2, t.toNat, e.toNat)
  | .fabricMul t e => some (3, t.toNat, e.toNat)
  | .fabricFma t e => some (4, t.toNat, e.toNat)
  | .fabricMin t e => some (5, t.toNat, e.toNat)
  | .fabricMax t e => some (6, t.toNat, e.toNat)
  | .fabricAnd t e => some (7, t.toNat, e.toNat)
  | .fabricOr t e => some (8, t.toNat, e.toNat)
  | .fabricXor t e => some (9, t.toNat, e.toNat)
  | .fabricShl t e => some (10, t.toNat, e.toNat)
  | .fabricShr t e => some (11, t.toNat, e.toNat)
  | .fabricCmp t e => some (12, t.toNat, e.toNat)
  | .fabricSel t e => some (13, t.toNat, e.toNat)
  | .fabricCvt t e => some (14, t.toNat, e.toNat)
  | .fabricUnpk t e => some (15, t.toNat, e.toNat)
  | .fabricPack t e => some (16, t.toNat, e.toNat)
  | .fabricAgen t e => some (17, t.toNat, e.toNat)
  | .fabricLdn t e => some (18, t.toNat, e.toNat)
  | .fabricStn t e => some (19, t.toNat, e.toNat)
  | .fabricAmon t e => some (20, t.toNat, e.toNat)
  | .fabricGate t e => some (21, t.toNat, e.toNat)
  | .fabricSteer t e => some (22, t.toNat, e.toNat)
  | .fabricMerge t e => some (23, t.toNat, e.toNat)
  | .fabricIsect t e => some (24, t.toNat, e.toNat)
  | .fabricCarry t e => some (25, t.toNat, e.toNat)
  | .fabricInv t e => some (26, t.toNat, e.toNat)
  | .fabricCtr t e => some (27, t.toNat, e.toNat)
  | .fabricRtake t e => some (28, t.toNat, e.toNat)
  | .fabricXreq t e => some (29, t.toNat, e.toNat)
  | .fabricVin t e => some (30, t.toNat, e.toNat)
  | .fabricVout t e => some (31, t.toNat, e.toNat)
  | .fabricConst t e => some (32, t.toNat, e.toNat)
  | .fabricDrop t e => some (33, t.toNat, e.toNat)
  | .fabricDup t e => some (34, t.toNat, e.toNat)
  | .fabricAcc t e => some (35, t.toNat, e.toNat)
  | .fabricTagchk t e => some (36, t.toNat, e.toNat)
  | _ => none

/-- The position at element `e` of tile `t`. -/
def posAt (s : State) (t e : Nat) : Pos := sget {} (s.tile t).ctx.fabric.pos e

/-- The linked inputs and outputs of a position. -/
def linkedIn (s : State) (t e : Nat) : List Nat := (s.tile t).ctx.fabric.insOf e (posAt s t e)
def linkedOut (s : State) (t e : Nat) : List Nat := (s.tile t).ctx.fabric.outsOf e (posAt s t e)

/-- The operator of code `op` at the position may fire: the tile moves, the fabric is RUNNING or FAULTED, the position neither stalled
nor stopped, its linked outputs are free, and its bucket allows a firing (R201, R345). -/
structure MayFire (s : State) (op t e : Nat) : Prop where
  awake : (s.tile t).still = false
  code : eOp (posAt s t e).word = op
  runs : mayFire (s.tile t).ctx.fabric e = true
  free : (s.tile t).ctx.fabric.outsFree e (posAt s t e) = true
  gate : gateOk (s.tile t) e = true
  keyed : Keyed (posAt s t e).ins

/-- A data token of value `v` stands in input slot `i`. -/
def DataOn (p : Pos) (i : Nat) (v : Word) : Prop := ∃ x, sfind p.ins i = some x ∧ x.kind = .data ∧ x.val = v

/-- The event empties the slots `used`, puts the data `outs` into the linked output slots and counts `n` firings; bytes are those of `m`; then
tokens move. -/
def StepsTo (n : Nat) (i : Instr) (s : State) (t e : Nat) (used : List Nat) (outs : List (Nat × Word)) (m : State)
    (also : Pos → Ctx → Prop) : Prop :=
  ∃ t1, exec i s = .next (updCtx t settle t1) ∧ SameBytes m t1 ∧
    sget 0 (t1.tile t).ctx.fabric.counts 9 = (if n = 0 then sget 0 (s.tile t).ctx.fabric.counts 9 else
      (sget 0 (s.tile t).ctx.fabric.counts 9 + n) % 2 ^ 32) ∧
    (∀ j, sfind (posAt t1 t e).ins j = if j ∈ used then none else sfind (posAt s t e).ins j) ∧
    (∀ o ∈ linkedOut s t e, match outs.find? fun x => x.1 = o with
      | some (_, v) => ∃ x, sfind (posAt t1 t e).outs o = some x ∧ x.kind = .data ∧ x.val = v
      | none => sfind (posAt t1 t e).outs o = none) ∧
    also (posAt t1 t e) (t1.tile t).ctx

/-- One firing. -/
abbrev FiresTo := StepsTo 1

/-- The event empties the slots `used`, puts EOS into every linked output slot, and fires nothing. -/
def EndsTo (i : Instr) (s : State) (t e : Nat) (used : List Nat) (also : Pos → Ctx → Prop) : Prop :=
  ∃ t1, exec i s = .next (updCtx t settle t1) ∧ SameBytes s t1 ∧
    sget 0 (t1.tile t).ctx.fabric.counts 9 = sget 0 (s.tile t).ctx.fabric.counts 9 ∧
    (∀ j, sfind (posAt t1 t e).ins j = if j ∈ used then none else sfind (posAt s t e).ins j) ∧
    (∀ o ∈ linkedOut s t e, ∃ x, sfind (posAt t1 t e).outs o = some x ∧ x.kind = .eos) ∧
    also (posAt t1 t e) (t1.tile t).ctx

/-- Input `i` has no more data: an EOS stands in its slot, or has left it (R201, R212). -/
def EosOn (p : Pos) (i : Nat) : Prop := ∃ x, sfind p.ins i = some x ∧ x.kind = .eos
def Over (p : Pos) (i : Nat) : Prop := EosOn p i ∨ (sfind p.ins i = none ∧ p.hasEnded i = true)

/-- The position stops with a fault of the fabric (R228). -/
def StopsWith (i : Instr) (s : State) (t e : Nat) (cause : BitVec 8) : Prop :=
  ∃ t1, exec i s = .next (updCtx t settle t1) ∧ SameBytes s t1 ∧ (posAt t1 t e).flt = true ∧ (t1.tile t).ctx.fabric.code = 5 ∧
    ((s.tile t).ctx.fabric.code = 2 → (t1.tile t).ctx.fabric.faultPos = e ∧ (t1.tile t).ctx.fabric.faultCause = cause)

/-- Virtual address `va` of partition `p` can be written without a fault or a change of its table entries: its byte stands at `pa`. -/
def WritableAt (s : State) (p va pa : Nat) : Prop :=
  ∃ l, probe s p va .write = .ok l ∧ l.pte / 2 ^ 5 % 4 = 3 ∧ leafAddress s p l va = pa

/-- The same for a read. -/
def ReadableAt (s : State) (p va pa : Nat) : Prop :=
  ∃ l, probe s p va .read = .ok l ∧ l.pte / 2 ^ 5 % 2 = 1 ∧ leafAddress s p l va = pa

/-- The data inputs among `l` that hold a data token. -/
def dataAmong (p : Pos) (l : List Nat) : List Nat :=
  l.filter fun j => match sfind p.ins j with | some x => decide (x.kind = .data) | none => false

/-- The linked inputs that a firing of the general pattern consumes together, and the order input behind them (R201). -/
def neededIn (s : State) (t e : Nat) : List Nat := (dataNeed (posAt s t e).word).filter fun j => (linkedIn s t e).contains j
def orderAt (s : State) (t e : Nat) : List Nat :=
  (orderIn (posAt s t e).word).toList.filter fun j => (linkedIn s t e).contains j && !(posAt s t e).hasEnded j

/-- A counter of Table 9.10 after `n` more. -/
def counted (s : State) (t k n : Nat) : Nat := Min.min (sget 0 (s.tile t).ctx.fabric.counts k + n) (2 ^ 32 - 1)

/-- The `n` words of 8 bytes at the memory address `ea` are `w`; no read of them faults, waits or changes a table entry. -/
def ReadsWords (s : State) (ea : Word) (n : Nat) (w : Nat → Nat) : Prop :=
  ea.toNat % 64 = 0 ∧ ea.toNat + 8 * n ≤ 2 ^ 48 ∧ s.resv = [] ∧
  ∃ pa : Nat → Nat, ∀ i < n, ReadableAt s (s.curTile.part.getD 0) (ea.toNat + 8 * i) (pa i) ∧ number (cellGet s.mem) (pa i) 8 = w i

/-- The image `m` stands at `ea` as the words `ws` (Table 9.1), and no check of R200 fails. -/
def ImageAt (s : State) (ea : Word) (ws : List Nat) (m : Image) : Prop :=
  areaImage ws = some m ∧ imageFault m = none ∧ loopsFault s s.ct m = none ∧
  ReadsWords s ea (if m.loops = [] then 65 + m.links.length else (65 + m.links.length + 7) / 8 * 8 + 2 * m.loops.length) fun i => ws.getD i 0

/-- The current tile's fabric is LOADED with an image, everything else discarded, and the image's loops are bound (R219). -/
def Loaded (t : State) (m : Image) : Prop :=
  let f := t.curTile.ctx.fabric
  f.code = 1 ∧ f.image = m ∧ f.next = none ∧ f.spill = [] ∧ f.marks = [] ∧ f.inq = [] ∧ f.outq = [] ∧ f.counts = [] ∧ f.ebits = 0 ∧
  f.links.map (·.word) = m.links ∧ (∀ l ∈ f.links, l.toks = []) ∧
  (∀ e, let p := posAt t t.ct e
    p.word = m.elem e ∧ p.ins = [] ∧ p.outs = [] ∧ p.flt = false ∧ p.stl = false ∧ p.s1 = 0 ∧ p.s2 = 0 ∧ (fld (m.elem e) 0 6 ≠ 36 → p.s0 = 0)) ∧
  LoopsBound t m
where
  /-- The loops that an image's records name are bound to them. -/
  LoopsBound (t : State) (m : Image) : Prop :=
    ∀ r ∈ m.loops, (∀ q ∈ m.loops, fld q.1 0 4 = fld r.1 0 4 → q = r) →
      (t.curTile.loop (fld r.1 0 4)).bound = true ∧ (t.curTile.loop (fld r.1 0 4)).w0 = r.1 ∧ (t.curTile.loop (fld r.1 0 4)).w1 = r.2

/-- An encoding of tag `t` as a token's value (R196). -/
def extended (t x : Nat) : Word := if tagSigned t then BitVec.ofInt 64 (intValue true (tagWidth t) x) else BitVec.ofNat 64 x

/-- Operators of Table 9.4 that compute as the vector operations do. -/
def sameAsVector (op sub : Nat) : Option ArithOp :=
  match op with
  | 1 => some .add | 2 => some .sub | 3 => some .mul | 4 => some .fma | 5 => some .min | 6 => some .max
  | 7 => some .and | 8 => some .or | 9 => some .xor | 10 => some .sll
  | 11 => some (if sub = 1 then .sra else .srl)
  | _ => none

/-- O0 of an operator of Table 9.4 (codes 1 to 14), over integers for an integer TAG. -/
def firingResult (w : Word) (a b c : Word) : Word :=
  let t := fld w 13 5
  let n := tagWidth t
  let x := a.toNat % 2 ^ n
  let y := b.toNat % 2 ^ n
  let z := c.toNat % 2 ^ n
  let X := intValue (tagSigned t) n x
  let Y := intValue (tagSigned t) n y
  if fld w 0 6 = 13 then (if a ≠ 0 then extended t y else extended t z)
  else if tagIsInt t = false ∨ fld w 0 6 = 14 then pureResult w a b c
  else if fld w 0 6 = 12 then flag (match fld w 10 3 with
    | 0 => decide (X = Y) | 1 => decide (X ≠ Y) | 2 => decide (X < Y) | 3 => decide (X ≤ Y) | 4 => decide (Y < X) | _ => decide (Y ≤ X))
  else match sameAsVector (fld w 0 6) (fld w 10 3) with
    | some o => extended t (elementResult o (tagSigned t) n x y z)
    | none => 0

/-- The values on inputs A, B and C: a data token on a linked input that the firing consumes, IMM for B where BI says so. -/
def OnInputs (s : State) (t e : Nat) (v : Nat → Word) : Prop :=
  let p := posAt s t e
  ∀ i < 3, (i ∈ dataNeed p.word → i ∈ linkedIn s t e → DataOn p i (v i)) ∧
    (¬ (i ∈ dataNeed p.word ∧ i ∈ linkedIn s t e) → v i = if i = 1 ∧ p.word.getLsbD 8 = true then immToken p.word else 0)

/-- What an operator that only routes tokens emits (Tables 9.4 and 9.5). -/
def routed (w : Word) (a b count : Word) : Option (List (Nat × Word)) :=
  match fld w 0 6 with
  | 21 => some (if (a ≠ 0) = (fld w 10 3 = 1) then [] else [(0, b)])
  | 22 => some [(if a ≠ 0 then 0 else 1, b)]
  | 27 => some (if fld w 10 3 = 1 then [(0, count)] else [])
  | 32 => some [(0, immToken w)]
  | 33 => some []
  | 34 => some [(0, a), (1, a)]
  | _ => none

/-! ### Tiles -/

/-- The entry at the head of tile `t`'s queue has begun nothing or stalled, and the tile moves. -/
def HeadWaits (s : State) (t : Nat) (e : Entry) (rest : List Entry) : Prop :=
  (s.tile t).still = false ∧ (s.tile t).queue = e :: rest ∧ (e.state = .issued ∨ ∃ w, e.state = .stalled w)

/-- The `n` bytes at `pa` lie outside the lines of the table entries that the walk for `va` reads. -/
def TablesApart (s : State) (p va pa n : Nat) : Prop :=
  ∀ x ∈ walkedLines s p va 4 ((s.partition p).word 5 / 2 ^ 12 % 2 ^ 44 * 4096), pa + n ≤ 128 * x ∨ 128 * x + 128 ≤ pa

/-- The `n` words of 8 bytes from the virtual address `va` of partition `p` on can be written one after the other, word `i` at `pa i`: no write
faults, waits, or touches a table entry of another. -/
structure WordsWritable (s : State) (p va n : Nat) (pa : Nat → Nat) : Prop where
  canonical : Canonical s
  free : s.resv = []
  writable : ∀ i < n, WritableAt s p (va + 8 * i) (pa i)
  apart : ∀ i < n, ∀ j < n, TablesApart s p (va + 8 * i) (pa j) 8
  disjoint : ∀ i < n, ∀ j < i, pa i + 8 ≤ pa j ∨ pa j + 8 ≤ pa i

/-- The migration mailbox of partition `p` holds the words `w` at the physical address `pa` (R312, Table 15.9): its page can be read and written
without a change of its table entries, and it is not itself under migration. -/
structure Mailbox (s : State) (p pa : Nat) (w : Nat → Nat) : Prop where
  /-- memory is in its canonical form, and no reservation stands -/
  canonical : Canonical s
  free : s.resv = []
  aligned : migBox (s.partition p) % 32 = 0
  page : ∃ l, probe s p (migBox (s.partition p)) .read = .ok l ∧ probe s p (migBox (s.partition p)) .write = .ok l ∧
    l.pte / 2 ^ 5 % 4 = 3 ∧ l.pte / 2 ^ 8 % 2 = 0 ∧ leafAddress s p l (migBox (s.partition p)) = pa
  apart : TablesApart s p (migBox (s.partition p)) pa 32
  words : ∀ i < 4, number (cellGet s.mem) (pa + 8 * i) 8 = w i

/-- The strand of slot `k` of tile `t` stands at an instruction boundary of its own, and no notice holds it there. -/
def AtBoundary (s : State) (t k : Nat) : Prop :=
  (s.tile t).still = false ∧ (s.strandOf t k).state = .runnable ∧ (s.tile t).entriesOf k = [] ∧
  (∀ e, (s.tile t).queue.head? = some e → e.committed = false) ∧ postingHeld s t k = false

/-- It can take a trap there (R86). -/
def TakesTraps (s : State) (t k : Nat) : Prop := AtBoundary s t k ∧ (s.strandOf t k).h = false ∧ (s.strandOf t k).tvec ≠ 0

/-- The strand of slot `k` of tile `t` stands at its handler, having taken `tr` at `pc` (R86). -/
def EnteredHandler (s z : State) (t k : Nat) (tr : Trap) (pc : Word) : Prop :=
  let y := z.strandOf t k
  y.h = true ∧ y.state = .runnable ∧ y.pc = (s.strandOf t k).tvec.zeroExtend 64 ∧ y.tpc = (pc.truncate 48) &&& ~~~3 ∧ y.tva = tr.tva ∧
  y.telem = tr.telem ∧ y.tcause.toNat = tr.cause.toNat + 2 ^ 8 * tr.sub.toNat

/-- The management controller takes a command (R434). -/
def McFree (s : State) : Prop :=
  s.recovery = false ∧ s.commands = [] ∧ (∀ p ∈ s.parts, p.2.pre ≠ .halting ∧ p.2.pre ≠ .resuming) ∧ ∀ l ∈ s.lent, l.awaited = none

/-- The command answers with a status and no other word. -/
def Answers (i : Instr) (s : State) (status : Nat) (also : State → Prop) : Prop :=
  ∃ t, exec i s = .next t ∧ t.mbox = [BitVec.ofNat 64 status] ∧ also t

end Sys2Proof.Spec
end

