-- ==== Sys2Proof/Certificates/Slice0/Obligations.lean ====
section
/-! DEFINITION. The statements for the provers. -/

open Sys2Proof Sys2Proof.Machine Sys2Proof.Spec

/-! ### Encoding and the step -/

/-- O1 (R9, Table 1.19): the five words of the worked examples decode to their instructions, and so does one word of each of other
families, written field by field from the encoding tables. -/
def Obligations.WorkedWords : Prop :=
  decodeTableWord 32 0x04642800 = some (.add 3 4 5) ∧
  decodeTableWord 32 0x0BDEFFC0 = some (.addi 30 30 0xFFC0) ∧
  decodeTableWord 32 0x30221FFD = some (.beq 1 2 0x1FFD) ∧
  decodeTableWord 32 0x40886200 = some (.vadd 4 8 12 2) ∧
  decodeTableWord 32 0x65088000 = some (.mma 2 0 8 16) ∧
  decodeTableWord 32 0 = some (.ill 0 0 0) ∧
  decodeTableWord 32 0b001001_00111_01000_110_1111111111111 = some (.ldWu 7 8 0x1FFF) ∧
  decodeTableWord 32 0b001011_00001_00010_00011_1001_11_100_11 = some (.amoCas 1 2 3 3 4 3) ∧
  decodeTableWord 32 0b001111_00100_00101_000001000100_0000 = some (.csrrw 4 5 0x044) ∧
  decodeTableWord 32 0b010011_00111_00110_00101_000_00000100 = some (.morn 7 6 5) ∧
  decodeTableWord 32 0b010100_00100_01000_01100_111_00000010 = some (.vgather 4 8 12 7) ∧
  decodeTableWord 32 0b010111_00001_00010_00011_000_00010000 = some (.vmmAdd 1 2 3 0) ∧
  decodeTableWord 32 0b011011_010_00_00110_01000_10000_000100 = some (.mdrain 2 0 6 8 0x10) ∧
  decodeTableWord 32 0b011100_00011_00100_0_1111_00000000000 = some (.xcopy 3 4 15) ∧
  decodeTableWord 32 0b011111_00011_00000_01010_00000000101 = some (.fstat 3 10) ∧
  decodeTableWord 32 0b100010_00011_00100_11111_00000000010 = some (.chrecv 3 4 31) ∧
  decodeTableWord 32 0b100100_00011_00100_00000_00000000000 = some (.launch 3 4) ∧
  decodeTableWord 32 0x94C40003 = some (.opcap 6 4)

/-- O2: an instruction that has an encoding and is well formed is what its word decodes to, with every operand at every value. -/
def Obligations.DecodeEncode : Prop :=
  ∀ i w, i.wellFormed = true → encode i = some w → decode w = .ok i

/-- O3: a turn that the agenda gives to a tile with one strand to issue runs the instruction that is decoded from the word at the
strand's program counter; an instruction that only begins a wait before its issue leaves the strand at that wait, uncharged. The agenda,
the turn and the place of the cursor are the model's choice (logs 7 to 9). -/
def Obligations.StepRunsDecoded : Prop :=
  ∀ s tl k ag x w i s1,
    s.agenda = .issue tl x :: ag →
    issueOrder (issuing s tl x ag) tl = [k] →
    (s.tile tl).still = false →
    ((issuing s tl x ag).strandOf tl k).state = .runnable →
    ((issuing s tl x ag).strandOf tl k).traps = [] → ((issuing s tl x ag).strandOf tl k).cancels = [] →
    fetchWord tl k (charge tl k (issuing s tl x ag)) = .ok w s1 →
    namesPending s1 w = false →
    decode w = .ok i → i.wellFormed = true →
    (∀ t, exec i s1 = .next t → beforeIssue t tl k = none → step s = .next t) ∧
    (∀ t v, exec i s1 = .next t → beforeIssue t tl k = some v → step s = .next
      (((issuing s tl x ag).setStrandOf tl k { (issuing s tl x ag).strandOf tl k with state := .waiting v, age := 0 }).noteWait v)) ∧
    ((∀ t, exec i s1 ≠ .next t) → step s = exec i s1)

/-- O4 (R43 to R45): a word that encodes no instruction raises its decode trap: `ILL` for a reserved major or function, `RSVD` for a
reserved field, but `ILL` where the major is lead-only and the strand is not the lead. -/
def Obligations.DecodeTraps : Prop :=
  ∀ w s, s.enginesBusy = false →
    (decodeWord w = .error .majorReserved ∨ decodeWord w = .error .functionReserved →
      exec (.nonInstructionWord w) s = .next (takeTrap s s.ct s.cs (decodeTrap cILL))) ∧
    (decodeWord w = .error .fieldReserved →
      exec (.nonInstructionWord w) s = .next (takeTrap s s.ct s.cs
        (decodeTrap (if 0x10 ≤ w.toNat / 2 ^ 26 ∧ w.toNat / 2 ^ 26 ≤ 0x20 ∧ s.isLead = false then cILL else cRSVD)))) ∧
    (∀ i, decode w = .ok i → i.wellFormed = false →
      exec (.nonInstructionWord w) s = .next (takeTrap s s.ct s.cs
        (decodeTrap (if 0x10 ≤ w.toNat / 2 ^ 26 ∧ w.toNat / 2 ^ 26 ≤ 0x20 ∧ s.isLead = false then cILL else cRSVD))))

/-! ### Scalar instructions -/

/-- O5 (R25, R65, R67, Tables 3.1 and 3.2): every register, bit-count and immediate form writes its result and nothing else, and goes on
at the next word. -/
def Obligations.ScalarArithmetic : Prop :=
  (∀ i s d a b v, binaryResult (s.reg a) (s.reg b) i = some (d, a, b, v) →
    ∃ t, exec i s = .next t ∧ t.reg d = held d v ∧ GoesOn t (s.cur.pc + 4) ∧ RegistersOnly s t [d]) ∧
  (∀ i s d a v, countResult (s.reg a) i = some (d, a, v) →
    ∃ t, exec i s = .next t ∧ t.reg d = held d v ∧ GoesOn t (s.cur.pc + 4) ∧ RegistersOnly s t [d]) ∧
  (∀ i s d a v, immediateResult (s.reg a) i = some (d, a, v) →
    ∃ t, exec i s = .next t ∧ t.reg d = held d v ∧ GoesOn t (s.cur.pc + 4) ∧ RegistersOnly s t [d])

/-- O6 (R66, Table 3.3): the divisions with their borderline cases. -/
def Obligations.Division : Prop :=
  ∀ i s d a b v, divisionResult (s.reg a) (s.reg b) i = some (d, a, b, v) →
    ∃ t, exec i s = .next t ∧ t.reg d = held d v ∧ GoesOn t (s.cur.pc + 4) ∧ RegistersOnly s t [d]

/-- O7 (R76): a branch goes to its own address plus four times the offset when its relation holds, else to the next word. -/
def Obligations.Branches : Prop :=
  ∀ i s a b off c, branchTaken (s.reg a) (s.reg b) i = some (a, b, off, c) →
    ∃ t, exec i s = .next t ∧
      GoesOn t (if c then s.cur.pc + BitVec.ofInt 64 (4 * off.toInt) else s.cur.pc + 4) ∧ RegistersOnly s t []

/-- O8 (R77): `jal` links s31; `jalr` reads sa before it writes sd, and an unaligned target traps with neither sd nor the pc changed. -/
def Obligations.Jumps : Prop :=
  (∀ off s, ∃ t, exec (.jal off) s = .next t ∧ t.reg 31 = s.cur.pc + 4 ∧
      GoesOn t (s.cur.pc + BitVec.ofInt 64 (4 * off.toInt)) ∧ RegistersOnly s t [31]) ∧
  (∀ d a off s, (s.reg a + BitVec.ofInt 64 off.toInt).toNat % 4 = 0 →
    ∃ t, exec (.jalr d a off) s = .next t ∧ t.reg d = held d (s.cur.pc + 4) ∧
      GoesOn t (s.reg a + BitVec.ofInt 64 off.toInt) ∧ RegistersOnly s t [d]) ∧
  (∀ d a off s, (s.reg a + BitVec.ofInt 64 off.toInt).toNat % 4 ≠ 0 → s.enginesBusy = false → HandlerReady s →
    ∃ t, exec (.jalr d a off) s = .next t ∧
      Entered s t cMISALIGN 0 s.cur.pc ((s.reg a + BitVec.ofInt 64 off.toInt).truncate 56) 0)

/-! ### Scalar accesses -/

/-- O9 (R71, R72): a load from memory. -/
def Obligations.LoadFromMemory : Prop :=
  ∀ i s d ea n sgn l, i.wellFormed = true → loadForm s i = some (d, ea, n, sgn) → MemoryAccess s ea n .read l →
    let m := (markLeaf s s.agent l .read).mem
    let v := asInteger sgn n (number (cellGet m) (leafAddress s s.curPart l ea.toNat) n)
    ∃ t, exec i s = .next t ∧ t.reg d = held d (BitVec.ofInt 64 v) ∧ GoesOn t (s.cur.pc + 4) ∧
      Accessed s t [d] (cellGet m) (fun h a => cellGet (s.tile h).spd a) ∧
      t.cur.watch = some (BitVec.ofNat 49 (leafAddress s s.curPart l ea.toNat / 128)) ∧ t.cur.written = false

/-- O10 (R71, R72): a store to memory writes the low bytes of its register, lowest first, and no other byte. -/
def Obligations.StoreToMemory : Prop :=
  ∀ i s ea n v l, i.wellFormed = true → Canonical s → storeForm s i = some (ea, n, v) → s.enginesBusy = false →
    MemoryAccess s ea n .write l →
    ∃ t, exec i s = .next t ∧ GoesOn t (s.cur.pc + 4) ∧
      Accessed s t [] (stored (cellGet (markLeaf s s.agent l .write).mem) (leafAddress s s.curPart l ea.toNat) n v.toNat)
        (fun h a => cellGet (s.tile h).spd a)

/-- O11 (R73, R74, Table 3.4): an atomic on memory returns the old value and writes the new one. -/
def Obligations.AtomicOnMemory : Prop :=
  ∀ i s d ea n z f l, i.wellFormed = true → Canonical s → amoForm s i = some (d, ea, n, z, f) → s.enginesBusy = false →
    MemoryAccess s ea n .atomic l →
    let m := cellGet (markLeaf s s.agent l .atomic).mem
    let pa := leafAddress s s.curPart l ea.toNat
    let old := number m pa n
    ∃ t, exec i s = .next t ∧ t.reg d = held d (BitVec.ofInt 64 (asInteger (!z) n old)) ∧ GoesOn t (s.cur.pc + 4) ∧
      Accessed s t [d] (match f old with | some v => stored m pa n v | none => m) (fun h a => cellGet (s.tile h).spd a)

/-- O12 (R69, R71, R73, R190, R191): loads, stores and atomics on the scratchpad; a store to bytes that an unretired engine entry pins
waits, but where every such entry stands stalled as R191 names, those entries are abandoned at their boundaries and the store goes on.
That the watch of R82 ends at a scratchpad load is the model's choice (log 11). -/
def Obligations.ScratchpadAccesses : Prop :=
  (∀ i s d ea n sgn h off, i.wellFormed = true → loadForm s i = some (d, ea, n, sgn) → ScratchpadAccess s ea n h off →
    let v := asInteger sgn n (number (cellGet (s.tile h).spd) off n)
    ∃ t, exec i s = .next t ∧ t.reg d = held d (BitVec.ofInt 64 v) ∧ GoesOn t (s.cur.pc + 4) ∧
      Accessed s t [d] (cellGet s.mem) (fun h a => cellGet (s.tile h).spd a) ∧ t.cur.watch = none) ∧
  (∀ i s ea n v h off, i.wellFormed = true → Canonical s → storeForm s i = some (ea, n, v) → s.enginesBusy = false →
    ScratchpadAccess s ea n h off →
    let after := fun t => exec i s = .next t ∧ GoesOn t (s.cur.pc + 4) ∧ Accessed s t [] (cellGet s.mem)
      (fun h' => if h' = h then stored (cellGet (s.tile h).spd) off n v.toNat else cellGet (s.tile h').spd)
    let yields := fun u => ∀ e, (s.tile u).queue.head? = some e → e.yieldsPins s = true ∧ e.pinsAny h off n = true ∧ e.slot = 0
    (pinners s h off n = [] → ∃ t, after t) ∧
    ((∃ u ∈ pinners s h off n, ∀ e, (s.tile u).queue.head? = some e → (e.yieldsPins s && e.pinsAny h off n) = false) →
      exec i s = .next (s.waitAt .pin)) ∧
    ((∀ u ∈ pinners s h off n, yields u) → ∃ t, after t ∧ ∀ u ∈ pinners s h off n, ∀ e, (s.tile u).queue.head? = some e →
      (t.strandOf u 0).pc = e.pc ∧ (∀ x ∈ (t.tile u).queue, x.slot ≠ 0) ∧
      (t.tile u).ctx.av.vstart = e.op.resumeAt (s.tile u).ctx.av.vstart)) ∧
  (∀ i s d ea n z f h off, i.wellFormed = true → Canonical s → amoForm s i = some (d, ea, n, z, f) → s.enginesBusy = false →
    ScratchpadAccess s ea n h off → pinners s h off n = [] →
    let m := cellGet (s.tile h).spd
    let old := number m off n
    ∃ t, exec i s = .next t ∧ t.reg d = held d (BitVec.ofInt 64 (asInteger (!z) n old)) ∧ GoesOn t (s.cur.pc + 4) ∧
      Accessed s t [d] (cellGet s.mem)
        (fun h' => if h' = h then (match f old with | some v => stored m off n v | none => m) else cellGet (s.tile h').spd))

/-- O13 (R68 to R70, R148, R297, R306, Table 15.4): the faults of a load, a store or an atomic, in their order: the address class, the
alignment, then the scratchpad range and a failed copy's bytes, or the translation and a reservation under the trap policy; the strand
takes the trap with the address that it names and the access has no effect. -/
def Obligations.AccessFaults : Prop :=
  ∀ i s ea n acc, i.wellFormed = true → accessForm s i = some (ea, n, acc) → s.enginesBusy = false →
    let faults := fun (tr : Trap) => exec i s = .next (takeTrap s s.ct s.cs tr)
    (classify ea = none → faults { cause := cADDR, tva := ea.truncate 56 }) ∧
    (classify ea ≠ none → ea.toNat % n ≠ 0 → faults { cause := cMISALIGN, tva := ea.truncate 56 }) ∧
    (∀ w pos off, classify ea = some (.spd w pos off) → ea.toNat % n = 0 →
      (spdInRange s s.ct s.cs w pos off n = false → faults { cause := cSPDRANGE, tva := ea.truncate 56 }) ∧
      (∀ k < n, spdInRange s s.ct s.cs w pos off n = true → wmByte s (spdTile s.ct w pos) (off + k) = .failed →
        (∀ j < k, wmByte s (spdTile s.ct w pos) (off + j) ≠ .failed) →
        faults { cause := cXFER, tva := (ea + BitVec.ofNat 64 k).truncate 56 })) ∧
    (∀ va, classify ea = some (.virt va) → ea.toNat % n = 0 →
      (∀ f, probe s s.curPart va acc = .error f → faults { cause := f.cause, sub := f.sub, tva := ea.truncate 56 }) ∧
      (∀ l e, probe s s.curPart va acc = .ok l → markLeaf s s.agent l acc = s → keepXlat s.ct s.curPart va l none s = s →
        let line := leafAddress s s.curPart l va / 128
        s.releasesAt (128 * line) 256 = [] → e ∈ s.resv → e.covers line = true → (∀ o ∈ s.resv, o.covers line = true → o = e) →
        e.pol = 3 → e.owner ≠ s.ct → e.write = true ∨ acc ≠ .read → faults { cause := cRSVTRAP, tva := ea.truncate 56 }))

/-! ### Control and status registers, traps, system instructions -/

/-- O14 (R20, R84, Table 1.3): a CSR form whose access is allowed reads the register into sd and writes what it says; a read-only
register gives what Table 1.3 has it hold; no engine entry is older. -/
def Obligations.CsrAccess : Prop :=
  ∀ i s d c new m, csrForm s i = some (d, c, new) → csrMark c.toNat = some m → s.enginesBusy = false →
    (m.lead = true → s.isLead = true) → (m.sup = true → s.isSupervisor s.ct s.cs = true) →
    (∀ u s', new = some u → m.ro = false → csrWrite s c.toNat (u (BitVec.ofNat 64 (csrRead s c.toNat))).toNat = some s' →
      ∃ t, exec i s = .next t ∧ t = s'.retire d (BitVec.ofNat 64 (csrRead s c.toNat)) ∧
        t.reg d = held d (BitVec.ofNat 64 (csrRead s c.toNat)) ∧ GoesOn t (s.cur.pc + 4) ∧ (∀ r, r ≠ d → t.reg r = s.reg r) ∧
        SameBytes s t) ∧
    (new = none → ∃ t, exec i s = .next t ∧ t.reg d = held d (BitVec.ofNat 64 (csrRead s c.toNat)) ∧
        GoesOn t (s.cur.pc + 4) ∧ RegistersOnly s t [d]) ∧
    (∀ v, new = none → csrHolds s c.toNat = some v → ∃ t, exec i s = .next t ∧ t.reg d = held d (BitVec.ofNat 64 v) ∧ GoesOn t (s.cur.pc + 4) ∧
        RegistersOnly s t [d])

/-- O15 (R20, Table 1.3): the faults of a CSR form, in order: an unassigned number, a write of a read-only register and a lead-only
register of another strand raise `ILL`, a supervisor register of another strand `PRIV`, a reserved value `RSVD`. -/
def Obligations.CsrFaults : Prop :=
  ∀ i s d c new, csrForm s i = some (d, c, new) → s.enginesBusy = false →
    (csrMark c.toNat = none → exec i s = .next (takeTrap s s.ct s.cs (decodeTrap cILL))) ∧
    (∀ m, csrMark c.toNat = some m →
      ((new.isSome = true ∧ m.ro = true) ∨ (m.lead = true ∧ s.isLead = false) →
        exec i s = .next (takeTrap s s.ct s.cs (decodeTrap cILL))) ∧
      ((new.isSome = true → m.ro = false) → m.lead = false → m.sup = true → s.isSupervisor s.ct s.cs = false →
        exec i s = .next (takeTrap s s.ct s.cs (decodeTrap cPRIV))) ∧
      (∀ u, new = some u → m.ro = false → (m.lead = true → s.isLead = true) → m.sup = false →
        csrWrite s c.toNat (u (BitVec.ofNat 64 (csrRead s c.toNat))).toNat = none →
        exec i s = .next (takeTrap s s.ct s.cs { cause := cRSVD })))

/-- O16 (R20, R21, Table 1.3): a register of Table 1.3 that software may write reads back the bits it holds and zeros elsewhere. -/
def Obligations.CsrReadBack : Prop :=
  ∀ s c m n s', csrMark c = some m → m.ro = false → n < 2 ^ 64 → csrWrite s c n = some s' → csrRead s' c = n &&& csrBits c

/-- O17 (R86, R372): a strand with a handler that is not in it enters it: `tcause`, `tpc`, `tva` and `telem` are written, H is set, and
the strand goes on at `tvec`; a cause other than `WALK` changes nothing else, but that a decode trap of the lead leaves `vstart` zero
(R45). A strand that is in its handler, or has none, halts. While a notice of the trap cannot be written, the strand stays at its
boundary with the trap pending. -/
def Obligations.TrapEntry : Prop :=
  ∀ s tr,
    let z := takeTrap s s.ct s.cs tr
    let stays := z.cur.state = .runnable ∧ z.cur.posting = true ∧ z.cur.pc = s.cur.pc ∧ (∀ r, z.reg r = s.reg r) ∧
      ∃ tr', z.cur.traps = tr' :: s.cur.traps ∧ tr'.cause = tr.cause ∧ tr'.sub = tr.sub ∧ tr'.tva = tr.tva
    (HandlerReady s →
      let owed := (postTrap (clearStart s s.ct s.cs tr) s.ct s.cs tr false).2
      (owed = false → Entered s z tr.cause tr.sub (tr.tpc.getD s.cur.pc) tr.tva tr.telem) ∧
      (owed = true → stays) ∧
      (tr.cause ≠ cWALK → owed = false ∧ SameBytes s z ∧ (tr.decode = false → OnlyStrand s z) ∧
        (tr.decode = true → s.cs = 0 → z.curTile.ctx.av = { s.curTile.ctx.av with vstart := 0 }))) ∧
    ((s.cur.h = true ∨ s.cur.tvec = 0) →
      let owed := (postTrap (clearStart s s.ct s.cs tr) s.ct s.cs tr true).2
      (owed = false → z.cur.state = .halted ∧ z.cur.pc = s.cur.pc ∧ ∀ r, z.reg r = s.reg r) ∧ (owed = true → stays))

/-- O18 (R88): `ill`, `trap` (with the next word in `tpc`) and `brk` raise their traps; `tret` in a handler goes on at `tpc` with H
clear and restores nothing else, and outside a handler it raises `ILL`. -/
def Obligations.SoftwareTraps : Prop :=
  (∀ s, HandlerReady s → s.enginesBusy = false →
    (∀ x y z, ∃ t, exec (.ill x y z) s = .next t ∧ Entered s t cILL 0 s.cur.pc 0 0) ∧
    (∀ c, ∃ t, exec (.trap c) s = .next t ∧ Entered s t cTRAP 0 (s.cur.pc + 4) (c.zeroExtend 56) 0) ∧
    (∀ c, ∃ t, exec (.brk c) s = .next t ∧ Entered s t cBRK 0 s.cur.pc (c.zeroExtend 56) 0)) ∧
  (∀ s,
    (s.cur.h = true → ∃ t, exec .tret s = .next t ∧ GoesOn t (s.cur.tpc.zeroExtend 64) ∧ t.cur.h = false ∧ OnlyStrand s t ∧ SameBytes s t ∧
      (∀ r, t.reg r = s.reg r) ∧ specialOf { t.cur with h := true } = specialOf s.cur) ∧
    (s.cur.h = false → s.enginesBusy = false → exec .tret s = .next (takeTrap s s.ct s.cs (decodeTrap cILL))))

/-- O19 (R79 to R81): the fences only let the strand go on, `fence.i` without a stale line in the tile's L1I; `fence.q`, of the lead, a
helper or the supervisor, goes on when nothing that it names is in progress, and else stands in the queue. -/
def Obligations.Fences : Prop :=
  ∀ s,
    (∀ sc, ∃ t, exec (.fence sc) s = .next t ∧ GoesOn t (s.cur.pc + 4) ∧ RegistersOnly s t []) ∧
    (∃ t, exec .fenceI s = .next t ∧ GoesOn t (s.cur.pc + 4) ∧ SameBytes s t ∧ (∀ r, t.reg r = s.reg r) ∧ specialOf t.cur = specialOf s.cur ∧
      ∀ set line c, cacheFind t.curTile.l1i set line = some c → c.data = lineBytes s line) ∧
    (∀ m, m ≠ 0 → s.lag = false → s.curTile.queue = [] → copiesActive s.curTile.ctx = false →
      ∃ t, exec (.fenceQ m) s = .next t ∧ GoesOn t (s.cur.pc + 4) ∧ SameBytes s t ∧ (∀ r, t.reg r = s.reg r) ∧ t.curTile.queue = []) ∧
    (∀ m, m.getLsbD 2 = true → s.lag = false → s.curTile.queue = [] → copiesActive s.curTile.ctx = true →
      ∃ t e, exec (.fenceQ m) s = .next t ∧ t.curTile.queue = [e] ∧ e.op = .fenceQ m ∧ e.state = .stalled .copyWait)

/-- O20 (R83): `mwait` answers 3 without a watch on its line, 0 when the line was written, 1 when its time is over and 2 for a pending
event, and else waits. -/
def Obligations.MwaitStatus : Prop :=
  ∀ s d a b va l, NoJoin s → classify (s.reg a) = some (.virt va) → probe s s.curPart va .read = .ok l →
    markLeaf s s.agent l .read = s → keepXlat s.ct s.curPart va l none s = s →
    let line := some (BitVec.ofNat 49 (leafAddress s s.curPart l va / 128))
    let gives := fun v : Word => ∃ t, exec (.mwait d a b) s = .next t ∧ t.reg d = held d v ∧ GoesOn t (s.cur.pc + 4) ∧ RegistersOnly s t [d]
    (s.cur.watch ≠ line → gives 3) ∧
    (s.cur.watch = line → s.cur.written = true → gives 0) ∧
    (s.cur.watch = line → s.cur.written = false → limitReached s (mwaitLimit s b) = true → gives 1) ∧
    (s.cur.watch = line → s.cur.written = false → limitReached s (mwaitLimit s b) = false → s.eventPending s.ct s.cs = true → gives 2) ∧
    (s.cur.watch = line → s.cur.written = false → limitReached s (mwaitLimit s b) = false → s.eventPending s.ct s.cs = false →
      exec (.mwait d a b) s = .next (s.waitAt (.mwait d (mwaitLimit s b))))

/-! ### Engine instructions -/

/-- O21 (R91, R96, R97, R356, R381): an engine instruction of any of the four queues that neither traps nor stalls when it is performed
leaves the registers, accumulators, streams, copies, fabric and bytes that its performance leaves, writes its scalar results and flags,
trims `vl` where a load ends early, clears `vstart` and goes on at the next word. Which entries are performed ahead of a stalled one is
the model's choice (log 48). -/
def Obligations.EngineForms : Prop :=
  ∀ i op s dn, engineOp i = some op → EngineReady s op → (performance s op).fin = .done dn →
    let p := performance s op
    let c := (p.st.tile s.ct).ctx
    ∃ t, exec i s = .next t ∧ GoesOn t (s.cur.pc + 4) ∧ t.curTile.queue = [] ∧
      t.curTile.ctx.v = c.v ∧ t.curTile.ctx.m = c.m ∧ t.curTile.ctx.q = c.q ∧ t.curTile.ctx.sat = c.sat ∧ t.curTile.ctx.streams = c.streams ∧
      t.curTile.ctx.fabric = c.fabric ∧ t.curTile.ctx.copies = c.copies ∧ t.curTile.ctx.xchans = c.xchans ∧ t.curTile.ctx.events = c.events ∧
      t.curTile.ctx.av = retiredView s op p.rtag dn.trim ∧ t.cur.fstat = (retireFlags s.cur s.cur.pc dn.flags).fstat ∧
      (∀ r, t.reg r = match op with
        | .vsetl d a b => if r = d then held d (BitVec.ofNat 64 (setlGrant s.curTile.ctx.av (s.reg a) b)) else s.reg r
        | _ => scalarResults s dn.dests r) ∧ SameBytes p.st t

/-! ### Vector instructions -/

/-- O22 (R96, R97, R381): a register-only form, its operands in order, does to the vector and mask registers what its operation
computes, writes its scalar results, leaves memory alone and clears `vstart`. -/
def Obligations.VectorRegisterForms : Prop :=
  ∀ i op s, engineOp i = some op → registerOnly op = true → EngineReady s op →
    ∃ t, exec i s = .next t ∧ GoesOn t (s.cur.pc + 4) ∧ t.curTile.queue = [] ∧
      t.curTile.ctx.v = (registerEffect s op).1.v ∧ t.curTile.ctx.m = (registerEffect s op).1.m ∧
      t.curTile.ctx.g = (registerEffect s op).1.g ∧ t.curTile.ctx.av = retiredView s op none none ∧
      (∀ r, t.reg r = match op with
        | .vsetl d a b => if r = d then held d (BitVec.ofNat 64 (setlGrant s.curTile.ctx.av (s.reg a) b)) else s.reg r
        | _ => scalarResults s (registerEffect s op).2.dests r) ∧
      t.cur.fstat = (retireFlags s.cur s.cur.pc (registerEffect s op).2.flags).fstat ∧
      t.cur.fidx = (retireFlags s.cur s.cur.pc (registerEffect s op).2.flags).fidx ∧ SameBytes s t

/-- O23: the frame of the register-only forms: accumulators, streams, channels, the fabric, copies, trap registers and every other
strand and tile are as before. -/
def Obligations.VectorRegisterFrame : Prop :=
  ∀ i op s t, engineOp i = some op → registerOnly op = true → EngineReady s op → exec i s = .next t →
    t.curTile.ctx.q = s.curTile.ctx.q ∧ t.curTile.ctx.sat = s.curTile.ctx.sat ∧ t.curTile.ctx.streams = s.curTile.ctx.streams ∧
    t.curTile.ctx.chans = s.curTile.ctx.chans ∧ t.curTile.ctx.fabric = s.curTile.ctx.fabric ∧
    t.curTile.ctx.copies = s.curTile.ctx.copies ∧ t.curTile.ctx.xchans = s.curTile.ctx.xchans ∧
    specialOf { t.cur with fstat := s.cur.fstat, fidx := s.cur.fidx } = specialOf s.cur ∧
    (∀ h, h ≠ s.ct → t.tile h = s.tile h) ∧ (∀ k, k ≠ 0 → t.strandOf s.ct k = s.strandOf s.ct k) ∧ deviceRest t = deviceRest s

/-- O24 (R97, R101, R104, Table 4.5): the integer and the floating column of Table 4.5: an active element of the destination group holds
the result, in the tag of the operands, a floating one rounded once under `fstat.RM`; every other element of the group keeps its value,
whatever registers overlap. -/
def Obligations.ArithmeticElements : Prop :=
  (∀ i s op d a b k, engineOp i = some (.arith op d a b k) → EngineReady s (.arith op d a b k) →
    tagIsInt (tagAt s a) = true → (op.isFused = true → tagAt s d = tagAt s a) →
    (∀ e, Active s k e → ∃ y, SecondOperand s (tagAt s a) b e y) →
    arithPlan s.curTile.ctx.av op d a b = some (tagAt s a, (s.curTile.ctx.av.operand a).group) →
    ∃ t, exec i s = .next t ∧
      (∀ e y, Active s k e → SecondOperand s (tagAt s a) b e y →
        let w := tagWidth (tagAt s a)
        elementAt t.curTile.ctx.v d w e =
          elementResult op (tagSigned (tagAt s a)) w (elementAt s.curTile.ctx.v a w e) y (elementAt s.curTile.ctx.v d w e)) ∧
      (∀ e, ¬ Active s k e →
        let w := tagWidth (tagAt s a)
        elementAt t.curTile.ctx.v d w e = elementAt s.curTile.ctx.v d w e) ∧
      t.cur.fstat = s.cur.fstat) ∧
  (∀ i s op d a b k f, engineOp i = some (.arith op d a b k) → EngineReady s (.arith op d a b k) →
    tagFmt (tagAt s a) = some f → (op.isFused = true → tagAt s d = tagAt s a) →
    (∀ e, Active s k e → ∃ y, FloatOperand s (tagAt s a) f b e y) →
    arithPlan s.curTile.ctx.av op d a b = some (tagAt s a, (s.curTile.ctx.av.operand a).group) →
    let w := tagWidth (tagAt s a)
    ∃ t, exec i s = .next t ∧
      (∀ e y, Active s k e → FloatOperand s (tagAt s a) f b e y →
        let x := elementAt s.curTile.ctx.v a w e
        elementAt t.curTile.ctx.v d w e = if op.isLogic then elementResult op false w x y 0
          else floatResult op f (rmOf (fld s.cur.fstat 0 3)) (decodeF f x) (decodeF f y) (decodeF f (elementAt s.curTile.ctx.v d w e))) ∧
      ∀ e, ¬ Active s k e → elementAt t.curTile.ctx.v d w e = elementAt s.curTile.ctx.v d w e)

/-- O25 (R105, R107 to R111, Table 4.6): the compares write bit i of md for an active element and keep every other bit; the unary forms,
the special functions, the conversions, stochastic ones with one draw for each active element in ascending order, and the quantisations
write their result into each active element and keep the others. -/
def Obligations.ComparesAndConversions : Prop :=
  (∀ i s op d a b k, engineOp i = some (.cmp op d a b k) → EngineReady s (.cmp op d a b k) →
    cmpPlan s.curTile.ctx.av a b = some (tagAt s a) → s.curTile.ctx.av.vl ≤ 8192 →
    let w := tagWidth (tagAt s a)
    let writes := fun (t : State) (holds : Nat → Nat → Prop) (second : Nat → Nat → Prop) =>
      (∀ e y, Active s k e → second e y → ((sget 0 t.curTile.ctx.m d.toNat).getLsbD e = true ↔ holds (elementAt s.curTile.ctx.v a w e) y)) ∧
      (∀ e, ¬ Active s k e → (sget 0 t.curTile.ctx.m d.toNat).getLsbD e = (sget 0 s.curTile.ctx.m d.toNat).getLsbD e) ∧
      t.curTile.ctx.v = s.curTile.ctx.v
    (tagIsInt (tagAt s a) = true → (∀ e, Active s k e → ∃ y, SecondOperand s (tagAt s a) b e y) → ∃ t, exec i s = .next t ∧
      writes t (relationHolds op (tagSigned (tagAt s a)) w) (SecondOperand s (tagAt s a) b) ∧ t.cur.fstat = s.cur.fstat) ∧
    (∀ f, tagFmt (tagAt s a) = some f → (∀ e, Active s k e → ∃ y, FloatOperand s (tagAt s a) f b e y) → ∃ t, exec i s = .next t ∧
      writes t (fun x y => relationOfValues op (decodeF f x) (decodeF f y)) (FloatOperand s (tagAt s a) f b))) ∧
  (∀ i s op d a k, engineOp i = some (.unary op d a k) → EngineReady s (.unary op d a k) →
    let w := tagWidth (tagAt s a)
    ∃ t, exec i s = .next t ∧ (∀ e, ¬ Active s k e → elementAt t.curTile.ctx.v d w e = elementAt s.curTile.ctx.v d w e) ∧
      ∀ e, Active s k e →
        let x := elementAt s.curTile.ctx.v a w e
        let y := elementAt t.curTile.ctx.v d w e
        (tagIsInt (tagAt s a) = true → y = unaryInteger op (tagSigned (tagAt s a)) w x) ∧
        ∀ f, tagFmt (tagAt s a) = some f →
          if op = .abs then y = x % 2 ^ (w - 1) else if op = .neg then y = x ^^^ 2 ^ (w - 1) else SpecialResult op f (decodeF f x) y) ∧
  (∀ i s md d a k, engineOp i = some (.cvt md d a k) → EngineReady s (.cvt md d a k) →
    let x := fun e => tagValue (tagAt s a) (elementAt s.curTile.ctx.v a (tagWidth (tagAt s a)) e)
    let w := tagWidth (tagAt s d)
    let act := (List.range s.curTile.ctx.av.vl).filter fun e =>
      decide (s.curTile.ctx.av.vstart ≤ e) && (k == 0 || (sget 0 s.curTile.ctx.m k.toNat).getLsbD e)
    ∃ t, exec i s = .next t ∧ (∀ e, ¬ Active s k e → elementAt t.curTile.ctx.v d w e = elementAt s.curTile.ctx.v d w e) ∧
      (∀ rm, cvtMode (rmOf (fld s.cur.fstat 0 3)) md = some rm → t.curTile.ctx.g = s.curTile.ctx.g ∧
        ∀ e, Active s k e → elementAt t.curTile.ctx.v d w e = intoTag (tagAt s d) rm (x e)) ∧
      (md = .sr → t.curTile.ctx.g = BitVec.ofNat 32 (iterate gDraw act.length s.curTile.ctx.g.toNat) ∧
        ∀ n e, act[n]? = some e →
          StochasticResult (tagAt s d) (iterate gDraw (n + 1) s.curTile.ctx.g.toNat) (x e) (elementAt t.curTile.ctx.v d w e))) ∧
  (∀ s d a b k,
    let rm := rmOf (fld s.cur.fstat 0 3)
    let wa := tagWidth (tagAt s a)
    let wd := tagWidth (tagAt s d)
    let scale := fun (w e : Nat) => elementAt s.curTile.ctx.v b (tagWidth (tagAt s b)) (e / scaleBlock s b w)
    let h := fun sc => decodeF .fp16 (sc / 2 ^ 16)
    let z := fun sc => intValue true 16 (sc % 2 ^ 16)
    let kept := fun t => ∀ e, ¬ Active s k e → elementAt t.curTile.ctx.v d wd e = elementAt s.curTile.ctx.v d wd e
    (EngineReady s (.quant d a b k) → ∃ t, exec (.vquant d a b k) s = .next t ∧ kept t ∧ ∀ e, Active s k e →
      let sc := scale wd e
      let x := tagValue (tagAt s a) (elementAt s.curTile.ctx.v a wa e)
      let y := elementAt t.curTile.ctx.v d wd e
      (tagAt s b = 0x18 → sc ≠ 255 → y = intoTag (tagAt s d) rm (scaledBy (127 - sc) x)) ∧
      (tagAt s b = 0x19 → (IsNumber (h sc) → valueQ (h sc) ≠ 0 → IsNumber x →
          y = clamped (tagAt s d) (roundQ rm (valueQ x / valueQ (h sc)) + z sc)) ∧
        (¬ IsNumber (h sc) ∨ valueQ (h sc) = 0 → y = clamped (tagAt s d) (z sc)))) ∧
    (EngineReady s (.dequant d a b k) → ∃ t, exec (.vdequant d a b k) s = .next t ∧ kept t ∧ ∀ e f, Active s k e → tagFmt (tagAt s d) = some f →
      let sc := scale wa e
      let c := elementAt s.curTile.ctx.v a wa e
      let y := elementAt t.curTile.ctx.v d wd e
      (tagAt s b = 0x18 → y = if sc = 255 then f.nan else (encodeF f rm (scaledBy (sc - 127) (tagValue (tagAt s a) c))).1) ∧
      (tagAt s b = 0x19 → (¬ IsNumber (h sc) ∨ valueQ (h sc) = 0 → y = f.nan) ∧
        (IsNumber (h sc) → valueQ (h sc) ≠ 0 → ∃ v, IsNumber v ∧
          valueQ v = (intValue (tagSigned (tagAt s a)) wa c - z sc : Int) * valueQ (h sc) ∧ y = (encodeF f rm v).1))))

/-- O26 (R106): the mask-algebra forms act on all 8,192 bits, whatever `vl` holds; `mpopc` counts and `mfirst` finds set bits below
`vl`. -/
def Obligations.MaskAlgebra : Prop :=
  ∀ s d a b k,
    let m := fun r : BitVec 5 => sget 0 s.curTile.ctx.m r.toNat
    let gives := fun (i : Instr) (x : BitVec 8192) => ∃ t, exec i s = .next t ∧ sget 0 t.curTile.ctx.m d.toNat = x ∧
      (∀ r, r ≠ d.toNat → sget 0 t.curTile.ctx.m r = sget 0 s.curTile.ctx.m r) ∧ t.curTile.ctx.v = s.curTile.ctx.v
    let hits := (List.range s.curTile.ctx.av.vl).filter fun e => (m a).getLsbD e && (k == 0 || (m (k.zeroExtend 5)).getLsbD e)
    (EngineReady s (.maskOp .and d a b) → gives (.mand d a b) (m a &&& m b)) ∧
    (EngineReady s (.maskOp .or d a b) → gives (.mor d a b) (m a ||| m b)) ∧
    (EngineReady s (.maskOp .xor d a b) → gives (.mxor d a b) (m a ^^^ m b)) ∧
    (EngineReady s (.maskOp .andn d a b) → gives (.mandn d a b) (m a &&& ~~~ m b)) ∧
    (EngineReady s (.maskOp .orn d a b) → gives (.morn d a b) (m a ||| ~~~ m b)) ∧
    (EngineReady s (.maskNot d a) → gives (.mnot d a) (~~~ m a)) ∧
    (EngineReady s (.maskSet d) → gives (.mset d) (BitVec.ofNat 8192 (2 ^ s.curTile.ctx.av.vl - 1))) ∧
    (EngineReady s (.maskClr d) → gives (.mclr d) 0) ∧
    (EngineReady s (.maskPopc d a k) → ∃ t, exec (.mpopc d a k) s = .next t ∧ t.reg d = held d (BitVec.ofNat 64 hits.length)) ∧
    (EngineReady s (.maskFirst d a k) → ∃ t, exec (.mfirst d a k) s = .next t ∧
      t.reg d = held d (match hits.head? with | some e => BitVec.ofNat 64 e | none => BitVec.allOnes 64))

/-- O27 (R112, Table 4.7): the permutes, element by element; a source place at or above VLMAX reads 0. That they act from element 0 when
`vstart` is at or above `vl` too is the model's reading (log 126). -/
def Obligations.Permutes : Prop :=
  (∀ s d a b k,
    let w := (s.curTile.ctx.av.operand a).width
    let after := fun (t : State) (e : Nat) => elementAt t.curTile.ctx.v d w e
    let before := elementAt s.curTile.ctx.v d w
    (EngineReady s (.slideUp d a b k) → ∃ t, exec (.vslideup d a b k) s = .next t ∧
      (∀ e, Selected s k e → (s.reg b).toNat ≤ e → after t e = sourceAt s a (e - (s.reg b).toNat)) ∧
      ∀ e, ¬ (Selected s k e ∧ (s.reg b).toNat ≤ e) → after t e = before e) ∧
    (EngineReady s (.slideDown d a b k) → ∃ t, exec (.vslidedn d a b k) s = .next t ∧
      (∀ e, Selected s k e → after t e = sourceAt s a (e + (s.reg b).toNat)) ∧ ∀ e, ¬ Selected s k e → after t e = before e) ∧
    (EngineReady s (.gather d a b k) → ∃ t, exec (.vgather d a b k) s = .next t ∧
      (∀ e, Selected s k e → after t e = sourceAt s a (elementAt s.curTile.ctx.v b (tagWidth (tagAt s b)) e)) ∧
      ∀ e, ¬ Selected s k e → after t e = before e) ∧
    (EngineReady s (.compress d a k) → k ≠ 0 → ∃ t, exec (.vcompress d a k) s = .next t ∧
      let js := (List.range s.curTile.ctx.av.vl).filter (sget 0 s.curTile.ctx.m k.toNat).getLsbD
      ∀ e, after t e = match js[e]? with | some j => sourceAt s a j | none => before e) ∧
    (EngineReady s (.expand d a k) → k ≠ 0 → ∃ t, exec (.vexpand d a k) s = .next t ∧
      let count := fun e => ((List.range e).filter (sget 0 s.curTile.ctx.m k.toNat).getLsbD).length
      (∀ e, Selected s k e → after t e = sourceAt s a (count e)) ∧ ∀ e, ¬ Selected s k e → after t e = before e)) ∧
  (∀ s d a b k,
    let o := s.curTile.ctx.av.operand d
    let oa := s.curTile.ctx.av.operand a
    (EngineReady s (.bcast d a k) → ∃ t, exec (.vbcast d a k) s = .next t ∧
      (∀ e, Selected s k e → elementAt t.curTile.ctx.v d o.width e = (s.reg a).toNat % 2 ^ o.width) ∧
      ∀ e, ¬ Selected s k e → elementAt t.curTile.ctx.v d o.width e = elementAt s.curTile.ctx.v d o.width e) ∧
    (EngineReady s (.extract d a b) → tagIsInt oa.tag = true → ∃ t, exec (.vext d a b) s = .next t ∧
      t.reg d = held d (BitVec.ofInt 64 (intValue (tagSigned oa.tag) oa.width (sourceAt s a (s.reg b).toNat))) ∧
      t.curTile.ctx.v = s.curTile.ctx.v) ∧
    (EngineReady s (.insert d a b) → ∃ t, exec (.vins d a b) s = .next t ∧
      ∀ e, elementAt t.curTile.ctx.v d o.width e =
        if e = (s.reg b).toNat ∧ e < Min.min (8192 * o.group / o.width) 8192 then (s.reg a).toNat % 2 ^ o.width
        else elementAt s.curTile.ctx.v d o.width e))

/-- O28 (R113): reductions: element 0 of vd is vb[0] with every selected element of va added, or the least or the greatest of them; the
pairwise and the ordered sum agree on integers, and on a floating tag each addition is rounded by itself, in the order that the form
names. That a reduction acts from element 0 when `vstart` is at or above `vl` too is the model's reading (log 126). -/
def Obligations.Reductions : Prop :=
  ∀ i s op d a b k, engineOp i = some (.reduce op d a b k) → EngineReady s (.reduce op d a b k) →
    tagAt s b = tagAt s a → s.curTile.ctx.av.vl ≤ 8192 →
    let w := tagWidth (tagAt s a)
    let es := ((List.range s.curTile.ctx.av.vl).filter fun e => k == 0 || (sget 0 s.curTile.ctx.m k.toNat).getLsbD e).map
      (elementAt s.curTile.ctx.v a w)
    let x0 := elementAt s.curTile.ctx.v b w 0
    ∃ t, exec i s = .next t ∧ (∀ e, e ≠ 0 → elementAt t.curTile.ctx.v d w e = elementAt s.curTile.ctx.v d w e) ∧
      (tagIsInt (tagAt s a) = true →
        let z := intValue (tagSigned (tagAt s a)) w
        elementAt t.curTile.ctx.v d w 0 = encoding w (match op with
          | .sum => z x0 + (es.map z).sum | .sumo => z x0 + (es.map z).sum
          | .min => (es.map z).foldl Min.min (z x0) | .max => (es.map z).foldl Max.max (z x0))) ∧
      (∀ f, tagFmt (tagAt s a) = some f →
        let join := fun (o : ArithOp) (x y : Nat) => floatResult o f (rmOf (fld s.cur.fstat 0 3)) (decodeF f x) (decodeF f y) (.nan false)
        elementAt t.curTile.ctx.v d w 0 = match op with
          | .sumo => es.foldl (join .add) x0
          | .sum => match iterate (pairedUp (join .add)) 13 es with | x :: _ => join .add x0 x | [] => x0
          | .min => es.foldl (join .min) x0
          | .max => es.foldl (join .max) x0)

/-- O29 (R94, R95, R122, R124, R140): `vsetl` grants at most VLMAX of vb and writes sd, `vtag` writes the entry of every register of the
group, `mcfg` the format and the depth; `mzero` clears an accumulator and its saturation bits and no other; `vfba` arrives once and
completes when no participant is awaited, and else stalls with `vstart` 1. -/
def Obligations.ConfigurationAndBarrier : Prop :=
  (∀ s,
    (∀ d a b, EngineReady s (.vsetl d a b) →
      let o := s.curTile.ctx.av.operand b
      let grant := Min.min (s.reg a).toNat (Min.min (8192 * o.group / o.width) 8192)
      ∃ t, exec (.vsetl d a b) s = .next t ∧ t.curTile.ctx.av.vl = grant ∧ t.reg d = held d (BitVec.ofNat 64 grant) ∧
        t.curTile.ctx.av.vstart = 0 ∧ t.curTile.ctx.v = s.curTile.ctx.v) ∧
    (∀ d tg r g, EngineReady s (.vtag d tg r g) →
      ∃ t, exec (.vtag d tg r g) s = .next t ∧ t.curTile.ctx.v = s.curTile.ctx.v ∧ t.curTile.ctx.av.vl = s.curTile.ctx.av.vl ∧
        ∀ j < 2 ^ g.toNat, t.curTile.ctx.av.tag (d.toNat + j) = BitVec.ofNat 16 (tg.toNat + 32 * g.toNat + 128 * r.toNat))) ∧
  (∀ s,
    (∀ a f sat sb sa, EngineReady s (.mcfg a f sat sb sa) →
      ∃ t, exec (.mcfg a f sat sb sa) s = .next t ∧ GoesOn t (s.cur.pc + 4) ∧
        t.curTile.ctx.av.mcfg.toNat = f.toNat + 32 * sa.toNat + 64 * sb.toNat + 128 * sat.toNat ∧
        t.curTile.ctx.av.kval.toNat = (s.reg a).toNat ∧ t.curTile.ctx.q = s.curTile.ctx.q ∧ t.curTile.ctx.v = s.curTile.ctx.v) ∧
    (∀ q, EngineReady s (.mzero q) → fabricHoldsQ s.curTile.ctx.fabric q.toNat = false →
      ∃ t, exec (.mzero q) s = .next t ∧ GoesOn t (s.cur.pc + 4) ∧
        (∀ i j, accumulator t.curTile q i j = 0) ∧ sget 0 t.curTile.ctx.sat q.toNat = 0 ∧
        (∀ r, r ≠ q.toNat → sget 0 t.curTile.ctx.q r = sget 0 s.curTile.ctx.q r ∧ sget 0 t.curTile.ctx.sat r = sget 0 s.curTile.ctx.sat r))) ∧
  (∀ s (sc : BitVec 3), EngineReady s (.vfba sc) →
    let n := sget 0 s.curTile.ctx.arrivals sc.toNat + if s.curTile.ctx.av.vstart = 0 then 1 else 0
    ((∀ u ∈ participants s sc.toNat, ¬ Awaited s sc.toNat n u) → ∃ t, exec (.vfba sc) s = .next t ∧ GoesOn t (s.cur.pc + 4) ∧
      sget 0 t.curTile.ctx.arrivals sc.toNat = n ∧ t.curTile.queue = [] ∧ SameBytes s t) ∧
    ((∃ u ∈ participants s sc.toNat, Awaited s sc.toNat n u) → ∃ t, exec (.vfba sc) s = .next t ∧
      sget 0 t.curTile.ctx.arrivals sc.toNat = n ∧ StallsAt t (.vfba sc) .barrier ∧ t.curTile.ctx.av.vstart = 1 ∧ SameBytes s t))

/-- O30 (R159 to R166, R170, R174): the numbers of the floating formats: an encoding stands for the number of its fields, the sums and
products are exact, and the one rounding at the end gives the number of the format that the mode names; rounding a number of the format
gives it back without a flag. -/
def Obligations.FloatFormats : Prop :=
  (∀ (f : Fmt) rm x, x < 2 ^ f.width → IsNumber (decodeF f x) →
    valueQ (decodeF f x) = encodedNumber f x ∧ encodeF f rm (decodeF f x) = (x, {})) ∧
  (∀ rm x y z, IsNumber x → IsNumber y → IsNumber z →
    (IsNumber (addV rm x y).1 ∧ valueQ (addV rm x y).1 = valueQ x + valueQ y) ∧
    (IsNumber (mulV x y).1 ∧ valueQ (mulV x y).1 = valueQ x * valueQ y) ∧
    (IsNumber (fmaV rm x y z).1 ∧ valueQ (fmaV rm x y z).1 = valueQ x * valueQ y + valueQ z)) ∧
  (∀ l, (∀ x ∈ l, IsNumber x) → IsNumber (sumV l) ∧ valueQ (sumV l) = (l.map valueQ).sum) ∧
  (∀ f rm x, IsNumber x → (encodeF f rm x).2.of = false → RoundsTo f rm (valueQ x) (encodeF f rm x).1) ∧
  (∀ f rm x y, IsNumber x → IsNumber y → valueQ y ≠ 0 → (divF f rm x y).2.of = false → RoundsTo f rm (valueQ x / valueQ y) (divF f rm x y).1) ∧
  (∀ rm n m e, (roundInt rm n m e false).1 = roundQ rm (valueQ (.fin n m e))) ∧
  (∀ sc x, IsNumber x → sc < 255 → IsNumber (scaleVal sc x) ∧ valueQ (scaleVal sc x) = valueQ x * 2 ^ ((sc : Int) - 127))

/-- O31 (R114, R119): a load through a stream on the scratchpad puts the bytes at each element's address into the element, of a 4-bit
element its nibble, leaves the inactive elements, and advances the stream; `vldt` loads the innermost run of its shape record, trims
`vl` to it and gives vd the record's tag; nothing is stored. -/
def Obligations.ScratchpadLoads : Prop :=
  (∀ i s form d a k (place : Nat → Nat × Nat), engineOp i = some (.load form d a k) → form ≠ .shaped → EngineReady s (.load form d a k) →
    ScratchpadStream s a 0 →
    let w := tagWidth (tagAt s d)
    let n := elementBytes w
    (∀ e, Active s k e → ElementOnPad s a (elementAddress s a form w e) n (place e).1 (place e).2) →
    ∃ t, exec i s = .next t ∧ GoesOn t (s.cur.pc + 4) ∧
      (∀ e, Active s k e → elementAt t.curTile.ctx.v d w e = inBytes w e (number (cellGet (s.tile (place e).1).spd) (place e).2 n)) ∧
      (∀ e, ¬ Active s k e → elementAt t.curTile.ctx.v d w e = elementAt s.curTile.ctx.v d w e) ∧
      (t.curTile.stream a.toNat).pos = positionAfter s a form w ∧ SameBytes s t ∧ (∀ r, t.reg r = s.reg r)) ∧
  (∀ s d a k (place : Nat → Nat × Nat), EngineReady s (.load .shaped d a k) → RecordSound s a →
    let w := tagWidth (recordTag s a)
    let n := recordLength s a
    let g := (s.curTile.ctx.av.operand d).group
    let hit := fun e => Active s k e ∧ e < n
    d.toNat % g = 0 → n ≤ Min.min (8192 * g / w) 8192 →
    (∀ e, hit e → ElementOnPad.ScratchpadPlace s (recordAddress s a w e) (elementBytes w) (place e).1 (place e).2) →
    ∃ t, exec (.vldt d a k) s = .next t ∧ GoesOn t (s.cur.pc + 4) ∧
      (∀ e, hit e → elementAt t.curTile.ctx.v d w e = inBytes w e (number (cellGet (s.tile (place e).1).spd) (place e).2 (elementBytes w))) ∧
      (∀ e, ¬ hit e → elementAt t.curTile.ctx.v d w e = elementAt s.curTile.ctx.v d w e) ∧
      t.curTile.ctx.av.vl = n ∧ tagAt t d = recordTag s a ∧ (t.curTile.ctx.av.operand d).group = g ∧ SameBytes s t ∧ (∀ r, t.reg r = s.reg r))

/-- O32 (R114, R119, R120): a store through a stream on the scratchpad, and `vstt` of the innermost run of its shape record: an
element's bytes stand at its address unless a later element covers them, a 4-bit element's nibble in its byte, and nothing outside the
elements changes; a memory-to-memory form over scratchpad streams computes element by element, each complete before the next begins, and
advances each stream once. -/
def Obligations.ScratchpadStores : Prop :=
  let written := fun (s t : State) (hit : Nat → Prop) (w : Nat) (place : Nat → Nat × Nat) (x : Nat → Nat) =>
    let n := elementBytes w
    (∀ e j, hit e → 8 ≤ w → j < n →
      (∀ e', e < e' → hit e' → (place e').1 = (place e).1 → (place e).2 + j < (place e').2 ∨ (place e').2 + n ≤ (place e).2 + j) →
      cellGet (t.tile (place e).1).spd ((place e).2 + j) = byteOf (x e) j) ∧
    (∀ e, hit e → w = 4 → (∀ e', e < e' → hit e' → place e' = place e → e' % 2 ≠ e % 2) →
      nibble t (place e).1 (place e).2 (e % 2) = x e) ∧
    (∀ h y j, j < 2 → w = 4 → (∀ e, hit e → place e = (h, y) → e % 2 ≠ j) → nibble t h y j = nibble s h y j) ∧
    (∀ h y, (∀ e, hit e → (place e).1 = h → y < (place e).2 ∨ (place e).2 + n ≤ y) → cellGet (t.tile h).spd y = cellGet (s.tile h).spd y) ∧
    (∀ y, cellGet t.mem y = cellGet s.mem y) ∧ t.curTile.ctx.v = s.curTile.ctx.v
  (∀ i s form d a k (place : Nat → Nat × Nat), engineOp i = some (.store form d a k) → form ≠ .shaped → EngineReady s (.store form d a k) → Canonical s →
    ScratchpadStream s a 1 →
    let w := tagWidth (tagAt s d)
    (∀ e, Active s k e → ElementOnPad s a (elementAddress s a form w e) (elementBytes w) (place e).1 (place e).2) →
    (∀ e, Active s k e → pinners s (place e).1 (place e).2 (elementBytes w) = []) →
    ∃ t, exec i s = .next t ∧ GoesOn t (s.cur.pc + 4) ∧ written s t (Active s k) w place (elementAt s.curTile.ctx.v d w) ∧
      (t.curTile.stream a.toNat).pos = positionAfter s a form w ∧ (∀ r, t.reg r = s.reg r)) ∧
  (∀ s d a k (place : Nat → Nat × Nat), EngineReady s (.store .shaped d a k) → Canonical s → RecordSound s a → recordTag s a = tagAt s d →
    let w := tagWidth (tagAt s d)
    let hit := fun e => Active s k e ∧ e < recordLength s a
    (∀ e, hit e → ElementOnPad.ScratchpadPlace s (recordAddress s a w e) (elementBytes w) (place e).1 (place e).2) →
    (∀ e, hit e → pinners s (place e).1 (place e).2 (elementBytes w) = []) →
    ∃ t, exec (.vstt d a k) s = .next t ∧ GoesOn t (s.cur.pc + 4) ∧ written s t hit w place (elementAt s.curTile.ctx.v d w) ∧
      t.curTile.ctx.av.vl = recordLength s a ∧ (∀ r, t.reg r = s.reg r)) ∧
  (∀ i s op d a b k (pd pa pb : Nat → Nat × Nat), engineOp i = some (.vmm op d a b k) → EngineReady s (.vmm op d a b k) → Canonical s →
    ScratchpadStream s d 1 → ScratchpadStream s a 0 → (op ≠ .cpy → ScratchpadStream s b 0) →
    let w := tagWidth (tagAt s 0)
    let at' := fun (x : BitVec 5) e (p : Nat × Nat) => ElementOnPad s x (elementAddress s x .unit w e) (elementBytes w) p.1 p.2
    let act := (List.range s.curTile.ctx.av.vl).filter fun e =>
      decide (s.curTile.ctx.av.vstart ≤ e) && (k == 0 || (sget 0 s.curTile.ctx.m k.toNat).getLsbD e)
    (∀ e ∈ act, at' d e (pd e) ∧ at' a e (pa e) ∧ (op ≠ .cpy → at' b e (pb e))) →
    (∀ e ∈ act, pinners s (pd e).1 (pd e).2 (elementBytes w) = []) →
    ∃ t, exec i s = .next t ∧ GoesOn t (s.cur.pc + 4) ∧
      (∀ h y, cellGet (t.tile h).spd y =
        memoryForm op (tagAt s 0) (rmOf (fld s.cur.fstat 0 3)) pd pa pb act (fun h => cellGet (s.tile h).spd) h y) ∧
      (∀ x, x = d ∨ x = a ∨ (op ≠ .cpy ∧ x = b) → (t.curTile.stream x.toNat).pos = positionAfter s x .unit w) ∧
      (∀ y, cellGet t.mem y = cellGet s.mem y) ∧ t.curTile.ctx.v = s.curTile.ctx.v ∧ (∀ r, t.reg r = s.reg r))

/-! ### Matrix instructions -/

/-- O33 (R125 to R127, R133 to R140, R174): the multiply forms, dense, scaled, grouped, 2:4, bitmap and row-sum, with operands in
registers or in the scratchpad: every accumulator element gains the exact sums of products of its lines, chunk by chunk, in the
signedness that `mcfg` gives; an integer sum wraps, or with SAT is clamped at each chunk with its saturation bit set; a floating one is
rounded to fp32 at each chunk. -/
def Obligations.Multiplies : Prop :=
  ∀ i s kind q e a b, engineOp i = some (.mma kind q e a b) → EngineReady s (.mma kind q e a b) →
    let oa := mOperand s.reg (e.getLsbD 0) a
    let ob := mOperand s.reg (e.getLsbD 1) b
    MultiplyReady s kind q oa ob →
    let av := s.curTile.ctx.av
    let w := fmtWidth (viewFmt av)
    let kv := validDepth av
    let sa := av.mcfg.getLsbD 5
    let sb := av.mcfg.getLsbD 6
    let va := operandElement s oa 48 w
    let vb := operandElement s ob (lineBytesB kind w) w
    let old := accumulator s.curTile q
    let bit := fun (x : State) (i j : Nat) => (sget 0 x.curTile.ctx.sat q.toNat).getLsbD (32 * i + j)
    ∃ t, exec i s = .next t ∧ GoesOn t (s.cur.pc + 4) ∧
      (∀ i < 32, ∀ j < 32,
        let sums := integerSteps s kind w kv (fun i n => intValue sa w (va i n)) (fun j k => intValue sb w (vb j k)) i j
        let start := intValue true 32 (old i j)
        if fmtIsInt (viewFmt av) = true ∧ ∀ v, kind ≠ .grouped v then
          accumulator t.curTile q i j = encoding 32 (if av.mcfg.getLsbD 7 then (saturated start sums).1 else start + sums.sum) ∧
          bit t i j = (bit s i j || (av.mcfg.getLsbD 7 && (saturated start sums).2))
        else
          accumulator t.curTile q i j = (floatSteps s kind (viewFmt av) w kv va vb sa sb i j).foldl accFloat (old i j) ∧ bit t i j = bit s i j) ∧
      (∀ r, r ≠ q.toNat → sget 0 t.curTile.ctx.q r = sget 0 s.curTile.ctx.q r ∧ sget 0 t.curTile.ctx.sat r = sget 0 s.curTile.ctx.sat r) ∧
      t.curTile.ctx.v = s.curTile.ctx.v ∧ SameBytes s t

/-- O34 (R127, R131, R141, R142, Table 5.6): `mld` copies the 32 rows of its operand into the accumulator and clears the saturation
bits; `mst` stores them, `mst.sm` the saturation bits, and `mdrain` what Table 5.6 makes of each element under the parameters of its
column; the operand is a register span or a scratchpad descriptor, and no byte outside it changes. -/
def Obligations.AccumulatorMoves : Prop :=
  ∀ s (q : BitVec 3) (e : BitVec 1) a b tg,
    let o := mOperand s.reg (e = 1) a
    let stores := fun (t : State) (L w len : Nat) (x : Nat → Nat → Nat) =>
      (∀ i < 32, ∀ j < len, operandElement { s with tiles := t.tiles } o L w i j = x i j) ∧
      t.curTile.ctx.q = s.curTile.ctx.q ∧ t.curTile.ctx.sat = s.curTile.ctx.sat ∧ (∀ y, cellGet t.mem y = cellGet s.mem y) ∧
      match o with
      | .regs _ => SameBytes s t
      | .spd r0 r1 => t.curTile.ctx.v = s.curTile.ctx.v ∧ ∀ h y, (∀ i < 32, ∀ j < len, (descriptorPlace s r0 r1 w i j).1 = h →
          y < (descriptorPlace s r0 r1 w i j).2 ∨ (descriptorPlace s r0 r1 w i j).2 + elementBytes w ≤ y) →
          cellGet (t.tile h).spd y = cellGet (s.tile h).spd y
    (EngineReady s (.mld q e a) → MoveReady s q o 32 32 → ∃ t, exec (.mld q e a) s = .next t ∧ GoesOn t (s.cur.pc + 4) ∧
      (∀ i < 32, ∀ j < 32, accumulator t.curTile q i j = operandElement s o 128 32 i j) ∧ sget 0 t.curTile.ctx.sat q.toNat = 0 ∧
      t.curTile.ctx.v = s.curTile.ctx.v ∧ SameBytes s t) ∧
    (EngineReady s (.mst q e a) → MoveReady s q o 32 32 → StoreApart s o 32 32 → ∃ t, exec (.mst q e a) s = .next t ∧ GoesOn t (s.cur.pc + 4) ∧
      stores t 128 32 32 (accumulator s.curTile q)) ∧
    (EngineReady s (.mstSm q e a) → MoveReady s q o 32 1 → StoreApart s o 32 1 → ∃ t, exec (.mstSm q e a) s = .next t ∧ GoesOn t (s.cur.pc + 4) ∧
      stores t 4 32 1 fun i _ => (sget 0 s.curTile.ctx.sat q.toNat).toNat / 2 ^ (32 * i) % 2 ^ 32) ∧
    (let w := tagWidth tg.toNat
     let par := (sget 0 s.curTile.ctx.v b.toNat).toNat
     EngineReady s (.mdrain q e a b tg) → MoveReady s q o w 32 → StoreApart s o w 32 →
     (∀ n, o = .regs n → b.toNat < n ∨ n + drainSpan w ≤ b.toNat) → ∃ t, exec (.mdrain q e a b tg) s = .next t ∧ GoesOn t (s.cur.pc + 4) ∧
      stores t (4 * w) w 32 fun i j => drained (tagAt s b) tg.toNat (accumulator s.curTile q i j) (par / 2 ^ (32 * j) % 2 ^ 32)
        (par / 2 ^ (8 * (128 + j)) % 2 ^ 8) (par / 2 ^ (8 * (160 + 2 * j)) % 2 ^ 16))

/-- O35 (R128): an operand descriptor with a reserved bit set, one out of alignment, or one that leaves the held scratchpad traps before
any row, with `vstart` and `telem` zero and the accumulators as they were. -/
def Obligations.MatrixOperandFaults : Prop :=
  ∀ s q e a b tr, EngineReady s (.mma .dense q e a b) → fabricHoldsQ s.curTile.ctx.fabric q.toNat = false → HandlerReady s →
    tr.cause ≠ cWALK →
    operandTrap (enqueue (.mma .dense q e a b) s.curTile.ctx.av s) s.ct
      [{ op := mOperand s.reg (e.getLsbD 0) a, w := fmtWidth (viewFmt s.curTile.ctx.av), len := fun _ => validDepth s.curTile.ctx.av, noO := false },
       { op := mOperand s.reg (e.getLsbD 1) b, w := fmtWidth (viewFmt s.curTile.ctx.av), len := fun _ => validDepth s.curTile.ctx.av, noO := false }]
      = some tr →
    ∃ t, exec (.mma q e a b) s = .next t ∧ Entered s t tr.cause tr.sub s.cur.pc tr.tva 0 ∧ t.curTile.ctx.av.vstart = 0 ∧
      t.curTile.queue = [] ∧ t.curTile.ctx.q = s.curTile.ctx.q

/-! ### Transfers -/

/-- O36 (R144 to R147, R151): a copy whose record raises nothing and that finds its slot and its range is accepted: sd holds its
identifier, and the copy stands in the slot with nothing moved yet; an empty copy has completed. -/
def Obligations.CopyAccepted : Prop :=
  ∀ i s op d r slot,
    (engineOp i = some op ∧ ((∃ a ch, op = .xcopy d a ch ∧ shapeCopyRec s.curTile.ctx a ch.toNat = some r) ∨
      ∃ a, op = .xcopyQ d a ∧ packetCopyRec (s.reg a) (s.reg (a + 1)) = some r)) →
    EngineReady s op → copyTrap s s.ct r = none → nextCopySlot s.curTile.ctx = some slot →
    (r.out = true ∨ r.empty = true ∨ (s.curTile.ctx.xchan r.chan).state ≠ .busy) →
    let ident := slot + 2 ^ 9 * (sget 0 s.curTile.ctx.slotUse slot % 128) + 2 ^ 16 * r.chan
    ∃ t, exec i s = .next t ∧ GoesOn t (s.cur.pc + 4) ∧ t.reg d = held d (BitVec.ofNat 64 ident) ∧
      (r.empty = false → ∃ c, sfind t.curTile.ctx.copies slot = some c ∧ c.ident = ident ∧ c.record = r ∧ c.state = .running ∧
        c.next = 0 ∧ c.moved = 0) ∧
      (r.empty = false → r.out = false → (t.curTile.ctx.xchan r.chan).state = .busy ∧ (t.curTile.ctx.xchan r.chan).rb = r.offset ∧
        (t.curTile.ctx.xchan r.chan).wm = r.offset ∧ (t.curTile.ctx.xchan r.chan).re = r.offset + r.span) ∧
      SameBytes s t

/-- O37 (R152 to R154): `xqry` reports the copy that an identifier names, `xev` takes the oldest event, `xabort` ends a running copy,
`xwait.w` and `xwait.e` go on when their condition holds and else wait. -/
def Obligations.TransferControl : Prop :=
  ∀ s,
    (∀ d a, EngineReady s (.xqry d a) → ∃ t, exec (.xqry d a) s = .next t ∧ GoesOn t (s.cur.pc + 4) ∧
      t.reg d = held d (match findCopy s.curTile.ctx (s.reg a) with
        | some (_, k) => BitVec.ofNat 64 (k.queryStatus + 2 ^ 32 * (k.moved % 2 ^ 32)) | none => 0) ∧
      t.curTile.ctx.copies = s.curTile.ctx.copies) ∧
    (∀ d, EngineReady s (.xev d) → d ≠ 0 → d.toNat < 31 → ∃ t, exec (.xev d) s = .next t ∧ GoesOn t (s.cur.pc + 4) ∧
      (match s.curTile.ctx.events with
        | [] => t.reg d = 0 ∧ t.reg (d + 1) = 0
        | (x, y) :: r => t.reg d = x ∧ t.reg (d + 1) = y ∧ t.curTile.ctx.events = r)) ∧
    (∀ a, EngineReady s (.xabort a) → ∃ t, exec (.xabort a) s = .next t ∧ GoesOn t (s.cur.pc + 4) ∧
      (∀ slot k, findCopy s.curTile.ctx (s.reg a) = some (slot, k) → k.state = .running →
        (s.curTile.ctx.copies.map (·.1)).Pairwise (· < ·) → ∀ k', sfind t.curTile.ctx.copies slot = some k' → k'.state = .aborted) ∧
      (findCopy s.curTile.ctx (s.reg a) = none → t.curTile.ctx.copies = s.curTile.ctx.copies)) ∧
    (∀ c b, s.isLead = true →
      ((s.curTile.ctx.xchan c.toNat).state ≠ .busy ∨ (s.reg b).toNat % 2 ^ 25 ≤ (s.curTile.ctx.xchan c.toNat).mark →
        ∃ t, exec (.xwaitW c b) s = .next t ∧ GoesOn t (s.cur.pc + 4) ∧ RegistersOnly s t []) ∧
      ((s.curTile.ctx.xchan c.toNat).state = .busy → (s.curTile.ctx.xchan c.toNat).mark < (s.reg b).toNat % 2 ^ 25 →
        exec (.xwaitW c b) s = .next (s.waitAt .copyWait))) ∧
    (s.isLead = true →
      (s.curTile.ctx.events ≠ [] → ∃ t, exec .xwaitE s = .next t ∧ GoesOn t (s.cur.pc + 4) ∧ RegistersOnly s t []) ∧
      (s.curTile.ctx.events = [] → exec .xwaitE s = .next (s.waitAt .copyWait)))


/-! ### The fabric's instructions -/

/-- O38 (R219 to R225, R251, Tables 9.8 and 9.10): the instructions of the fabric: `fcfg.ld` and `fcfg.sw` load an image that passes the
checks of R200 and bind its loops, or say that they do not; `fstart`, `fstop`, `fstat`, `fmark` and the port instructions; `fsave`
writes the words of the save area at its address and nothing else, and `frest` takes the fabric of a STOPPED area over. That `fstop`
stops the fabric in one step, that `fcfg.ld` clears the E bits, and what an area holds beside the tables' words, are the model's
readings (logs 68, 151, and 53 with 154 and 155). -/
def Obligations.FabricControl : Prop :=
  ∀ s,
    let f := s.curTile.ctx.fabric
    let fab := fun t : State => t.curTile.ctx.fabric
    (EngineReady s .fstop → ∃ t, exec .fstop s = .next t ∧ Continues s t [] ∧ fab t = if f.code = 2 then { f with code := 3 } else f) ∧
    (EngineReady s .fstart → ∃ t, exec .fstart s = .next t ∧ Continues s t [] ∧
      (f.code = 0 ∨ f.code = 2 → fab t = f) ∧
      (f.code = 1 ∨ f.code = 3 ∨ f.code = 4 → (fab t).image = f.image ∧ ((fab t).code = 2 ∨ (fab t).code = 4 ∨ (fab t).code = 5))) ∧
    (∀ d n, EngineReady s (.fstat d n) → ∃ t v, exec (.fstat d n) s = .next t ∧ Continues s t [d] ∧ t.reg d = held d (BitVec.ofNat 64 v) ∧
      fab t = f ∧ (n = 0 → v % 8 = f.code % 8) ∧ (n = 4 → v = f.spill.length + 2 ^ 8 * f.spillHigh) ∧ (n = 10 → v = f.marks.length) ∧
      (n ≠ 0 → n ≠ 4 → n.toNat < 10 → v = sget 0 f.counts n.toNat)) ∧
    (∀ a, EngineReady s (.fmark a) → (s.reg a).toNat < 2 ^ 16 →
      (f.code = 0 ∨ f.code = 4 ∨ f.code = 5 → ∃ t, exec (.fmark a) s = .next t ∧ Continues s t [] ∧ fab t = f) ∧
      (f.code = 1 ∨ f.code = 3 → f.marks.length < 4 → f.next = none → ∃ t, exec (.fmark a) s = .next t ∧ Continues s t [] ∧
        fab t = { f with marks := f.marks ++ [(s.reg a).truncate 16] })) ∧
    (∀ a p, (f.inQueue p.toNat).length < 8 →
      (EngineReady s (.fportW a p false) → ∃ t x, exec (.fportW a p) s = .next t ∧ Continues s t [] ∧
        (fab t).inQueue p.toNat = f.inQueue p.toNat ++ [x] ∧ x.kind = .data ∧ x.val = s.reg a ∧ ∀ q, q ≠ p.toNat → (fab t).inQueue q = f.inQueue q) ∧
      (EngineReady s (.fportW a p true) → ∃ t x, exec (.fportWEos a p) s = .next t ∧ Continues s t [] ∧
        (fab t).inQueue p.toNat = f.inQueue p.toNat ++ [x] ∧ x.kind = .eos ∧ ∀ q, q ≠ p.toNat → (fab t).inQueue q = f.inQueue q)) ∧
    (∀ d p x r, EngineReady s (.fportR d p false) → f.outQueue p.toNat = x :: r → ∃ t, exec (.fportR d p) s = .next t ∧ Continues s t [d] ∧
      t.reg d = held d (if x.kind = .eos then 0 else x.val) ∧ (fab t).outQueue p.toNat = r ∧
      (fab t).ebits = if x.kind = .eos then f.ebits ||| BitVec.ofNat 16 (2 ^ p.toNat) else f.ebits) ∧
    (∀ d p, EngineReady s (.fportR d p true) → ∃ t, exec (.fportRStatus d p) s = .next t ∧ Continues s t [d] ∧
      t.reg d = held d (BitVec.ofNat 64 ((f.outQueue p.toNat).length + (if f.ebits.getLsbD p.toNat then 2 ^ 8 else 0)
        + (if (f.outQueue p.toNat).head?.map (·.kind) = some .eos then 2 ^ 9 else 0))) ∧
      (fab t).ebits = f.ebits &&& ~~~(BitVec.ofNat 16 (2 ^ p.toNat)) ∧ (fab t).outq = f.outq) ∧
    (∀ d a ws m, EngineReady s (.fcfgLd d a) →
      (f.code = 2 → ∃ t, exec (.fcfgLd d a) s = .next t ∧ Continues s t [d] ∧ t.reg d = held d 1 ∧ fab t = f ∧ SameBytes s t) ∧
      (f.code ≠ 2 → ImageAt s (s.reg a) ws m → ∃ t, exec (.fcfgLd d a) s = .next t ∧ Continues s t [d] ∧ t.reg d = 0 ∧ Loaded t m ∧ SameBytes s t)) ∧
    (∀ d a ws m, EngineReady s (.fcfgSw d a) →
      (f.code = 2 → f.next ≠ none → ∃ t, exec (.fcfgSw d a) s = .next t ∧ Continues s t [d] ∧ t.reg d = held d 2 ∧ fab t = f ∧ SameBytes s t) ∧
      (f.code ≠ 2 → ImageAt s (s.reg a) ws m → ∃ t, exec (.fcfgSw d a) s = .next t ∧ Continues s t [d] ∧ t.reg d = held d 1 ∧ Loaded t m ∧
        SameBytes s t) ∧
      (f.code = 2 → f.next = none → ImageAt s (s.reg a) ws m → (∃ q ∈ f.pos, q.2.gen = f.gen) →
        ∃ t, exec (.fcfgSw d a) s = .next t ∧ Continues s t [d] ∧ t.reg d = 0 ∧ (fab t).next = some (s.reg a, m) ∧ (fab t).gen = f.gen ∧
          Loaded.LoopsBound t m ∧ SameBytes s t)) ∧
    (∀ a (pa : Nat → Nat), EngineReady s (.fsave a) → Canonical s → s.resv = [] → (s.reg a).toNat % 64 = 0 → (s.reg a).toNat + 36864 ≤ 2 ^ 48 →
      (∀ i < 4608, WritableAt s (s.curTile.part.getD 0) ((s.reg a).toNat + 8 * i) (pa i)) →
      (∀ i < 4608, ∀ j < 4608, i ≠ j → pa i + 8 ≤ pa j ∨ pa j + 8 ≤ pa i) →
      ∃ t, exec (.fsave a) s = .next t ∧ Continues s t [] ∧ fab t = stopFabric f ∧
        (∀ i < 4608, number (cellGet t.mem) (pa i) 8 = (fabricWords (stopFabric f)).getD i 0 % 2 ^ 64) ∧
        (∀ x, (∀ i < 4608, x < pa i ∨ pa i + 8 ≤ x) → cellGet t.mem x = cellGet s.mem x) ∧
        ∀ h x, cellGet (t.tile h).spd x = cellGet (s.tile h).spd x) ∧
    (∀ a ws g, EngineReady s (.frest a) → ws.length = 4608 → ReadsWords s (s.reg a) 4608 (fun i => ws.getD i 0) → ws.getD 2132 0 / 2 ^ 63 % 2 = 0 →
      areaRead s.ct f ws s = .ok g s → g.code = 3 → g.spill = [] → (∀ q ∈ g.pos, q.2.stl = false) →
      ws.getD 2112 0 % 8 = 3 ∧ (∀ e < 64, (sget {} g.pos e).word.toNat = ws.getD (1 + e) 0) ∧
        ∃ t, exec (.frest a) s = .next t ∧ Continues s t [] ∧ fab t = g ∧ SameBytes s t)

/-! ### Firings -/

/-- O39 (R201, R204, Table 9.4): an operator of Table 9.4 with a data token on every linked input consumes them, puts its result on O0
and leaves memory alone; `unpk` and `pack` apart. That links move their tokens in the same step is the model's choice (log 60). -/
def Obligations.PureFirings : Prop :=
  ∀ i s op t e v, firing i = some (op, t, e) → op ≤ 14 → MayFire s op t e → 0 ∈ linkedIn s t e → OnInputs s t e v →
    FiresTo i s t e ((dataNeed (posAt s t e).word).filter fun j => (linkedIn s t e).contains j)
      [(0, firingResult (posAt s t e).word (v 0) (v 1) (v 2))] s fun _ _ => True

/-- O40 (R201, R205 to R214, Table 9.5): an operator of the common pattern with its data and its order token at hand, and no operand of
it in the spill queue, consumes them and emits what its operation gives; the routing operators pass their tokens on, `acc` adds to an
element of its accumulator, `vout` appends to its port's out-queue, and `xreq` has its copy accepted. That links move their tokens in
the same step is the model's choice (log 60). -/
def Obligations.GeneralFirings : Prop :=
  ∀ i s op t e v, firing i = some (op, t, e) → op ∈ [16, 18, 19, 20, 21, 22, 27, 29, 31, 32, 33, 34, 35, 36] → MayFire s op t e →
    0 ∈ linkedIn s t e → OnInputs s t e v →
    parkHead (s.tile t).ctx.fabric e (posAt s t e) = none →
    sameOrdinal (posAt s t e) (fedIns (s.tile t).ctx.fabric e (posAt s t e)) = true →
    let p := posAt s t e
    let order := (orderIn p.word).toList.filter fun j => (linkedIn s t e).contains j && !p.hasEnded j
    let used := ((dataNeed p.word).filter fun j => (linkedIn s t e).contains j) ++ order
    (∀ j ∈ order, ∃ x, DataOn p j x) →
    (∀ s' outs, compute t e p (v 0) (v 1) (v 2) s = .emit s' outs → accessHeld (s.tile t).ctx.fabric e p (v 0) = false →
      FiresTo i s t e used outs s' fun _ _ => True) ∧
    (∀ outs, routed p.word (v 0) (v 1) p.s0 = some outs → FiresTo i s t e used outs s fun _ _ => True) ∧
    (let w := tagWidth (fld p.word 13 5)
     let k := p.s1.toNat
     let x : Word := p.s0 ||| BitVec.ofNat 64 ((v 0).toNat % 2 ^ w * 2 ^ (k * w))
     op = 16 → if k + 1 = 64 / w then FiresTo i s t e used [(0, x)] s fun q _ => q.s0 = 0 ∧ q.s1 = 0
       else FiresTo i s t e used [] s fun q _ => q.s0 = x ∧ q.s1 = BitVec.ofNat 64 (k + 1)) ∧
    (op = 31 → ((s.tile t).ctx.fabric.outQueue (fld p.word 18 14)).length < 8 → FiresTo i s t e used [] s fun _ c => ∃ x,
      c.fabric.outQueue (fld p.word 18 14) = (s.tile t).ctx.fabric.outQueue (fld p.word 18 14) ++ [x] ∧ x.kind = .data ∧ x.val = v 0) ∧
    (op = 35 → let k := (v 0).toNat % 2 ^ 32
     let y := (v 1).toNat % 2 ^ 32
     let n := fld p.word 18 14
     let c0 := (s.tile t).ctx
     let elem := fun (c : Ctx) (j : Nat) => (sget 0 c.q n).toNat / 2 ^ (32 * j) % 2 ^ 32
     let sum := intValue true 32 (elem c0 k) + intValue true 32 y
     let clamps := fld p.word 13 5 ≠ 0x15 ∧ fld p.word 10 3 = 1 ∧ (sum < -2 ^ 31 ∨ 2 ^ 31 ≤ sum)
     FiresTo i s t e used [] s fun _ c =>
       (1024 ≤ k → c.q = c0.q ∧ c.sat = c0.sat ∧ sget 0 c.fabric.counts 6 = counted s t 6 1) ∧
       (k < 1024 → sget 0 c.fabric.counts 6 = sget 0 c0.fabric.counts 6 ∧
         (∀ r, r ≠ n → sget 0 c.q r = sget 0 c0.q r ∧ sget 0 c.sat r = sget 0 c0.sat r) ∧
         (∀ j < 1024, elem c j = if j ≠ k then elem c0 j
           else if fld p.word 13 5 = 0x15 then accFloat (elem c0 k) (plusZero (decodeF .fp32 y))
           else encoding 32 (if fld p.word 10 3 = 1 then Max.max (-2 ^ 31) (Min.min (2 ^ 31 - 1) sum) else sum)) ∧
         ∀ j < 1024, ((sget 0 c.sat n).getLsbD j = true ↔ (sget 0 c0.sat n).getLsbD j = true ∨ (j = k ∧ clamps)))) ∧
    (op = 36 → fld (v 0) 59 5 = fld p.s0 0 5 → FiresTo i s t e used
      [(0, if fld p.word 10 3 = 1 then v 0 &&& BitVec.ofNat 64 (2 ^ 59 - 1) else v 0)] s fun q _ =>
        q.s0 = BitVec.ofNat 64 ((fld p.s0 0 5 + 1) % (fld p.word 32 32 / 32 % 32 + 1))) ∧
    (let tag := fld p.word 13 5
     let n := tagWidth tag / 8
     ∀ h off, op ∈ [18, 19, 20] → placeFor t 0 (fabricAgent t) (v 0) n (memAccess p.word) s = .ok (.spd h off) s →
       accessHeld (s.tile t).ctx.fabric e p (v 0) = false → pinners s h off n = [] →
       let old := number (cellGet (s.tile h).spd) off n
       (op = 18 → FiresTo i s t e used [(0, extended tag old), (1, 0)] s fun _ _ => True) ∧
       (op = 19 → FiresTo i s t e used [(0, 0)] (spdPut s t h off (natLe n ((v 1).toNat % 2 ^ tagWidth tag))) fun _ _ => True) ∧
       (op = 20 → FiresTo i s t e used [(0, extended tag old), (1, 0)]
         (spdPut s t h off (natLe n (amonValue (fld p.word 10 3) tag old ((v 1).toNat % 2 ^ tagWidth tag)))) fun _ _ => True)) ∧
    (let r := xreqRecord p.word (v 0) (v 1) (v 2)
     let c := (s.tile t).ctx
     ∀ n, op = 29 → copyTrap s t r = none → r.empty = false → nextCopySlot c = some n → r.out = true ∨ (c.xchan r.chan).state ≠ .busy →
       FiresTo i s t e used [(0, BitVec.ofNat 64 (n + 2 ^ 9 * (sget 0 c.slotUse n % 128) + 2 ^ 16 * r.chan))] s fun q c' => q.s0 = 0 ∧
         ∃ k, sfind c'.copies n = some k ∧ k.record = r ∧ k.state = .running ∧ k.next = 0)

/-- O41 (R205, R208, R209, R211, R212, R400, Table 9.5): the operators with firing rules of their own, where each fires; and, of every
operator, what EOS on all its inputs does and what its policy does with data beside an input that has ended. That links move their
tokens in the same step is the model's choice (log 60), and so is that a first token of a wave follows its marker in a step of its own
(log 152). -/
def Obligations.FiringRules : Prop :=
  ∀ i s op t e, firing i = some (op, t, e) → MayFire s op t e →
    let p := posAt s t e
    let f := (s.tile t).ctx.fabric
    let n := tagWidth (fld p.word 13 5)
    let element := fun (x : Word) (k : Nat) => extended (fld p.word 18 14) (convertElem (fld p.word 13 5) (fld p.word 18 14) .rne (fld x (k * n) n)).1
    (∀ v, op = 15 → p.s1 = 0 → DataOn p 0 v →
      FiresTo i s t e [0] [(0, element v 0)] s fun q _ => if 64 / n = 1 then q.s0 = 0 ∧ q.s1 = 0 else q.s0 = v ∧ q.s1 = 1) ∧
    (op = 15 → p.s1 ≠ 0 → StepsTo 0 i s t e [] [(0, element p.s0 p.s1.toNat)] s fun q _ =>
      if p.s1.toNat + 1 = 64 / n then q.s0 = 0 ∧ q.s1 = 0 else q.s0 = p.s0 ∧ q.s1 = p.s1 + 1) ∧
    (∀ l m, op = 17 → p.s2.getLsbD 0 = false → DataOn p 0 l → DataOn p 1 m →
      FiresTo i s t e [0, 1] [] s fun q _ => q.s0 = l ∧ q.s1 = m ∧ (q.s2.getLsbD 0 = true ↔ m ≠ 0)) ∧
    (op = 17 → p.s2.getLsbD 0 = true → StepsTo 0 i s t e [] [(0, p.s0)] s fun q _ =>
      q.s0 = p.s0 + BitVec.ofInt 64 (intValue true 32 (fld p.word 32 32)) ∧ q.s1 = p.s1 - 1 ∧ (q.s2.getLsbD 0 = true ↔ p.s1 ≠ 1)) ∧
    (∀ v y, op = 23 → DataOn p 0 v → DataOn p (if v ≠ 0 then 1 else 2) y →
      FiresTo i s t e [0, if v ≠ 0 then 1 else 2] [(0, y)] s fun _ _ => True) ∧
    (let late := fun (k : Nat) (x : Word) => isectLate p k (x.toNat % 2 ^ n)
     let took := fun (q : Pos) (k : Nat) => isectOrd q k = (isectOrd p k + 1) % 2 ^ 31
     let dropped := fun (k : Nat) => FiresTo i s t e [k] [] s fun q c => took q k ∧ isectOrd q (1 - k) = isectOrd p (1 - k) ∧
       q.s1 = p.s1 ∧ q.s2 = p.s2 ∧ sget 0 c.fabric.counts 5 = counted s t 5 1
     let passed := fun (k : Nat) (x : Word) => FiresTo i s t e [k] [] s fun q c => took q k ∧ isectOrd q (1 - k) = isectOrd p (1 - k) ∧
       (if k = 0 then q.s1.toNat = x.toNat % 2 ^ n ∧ q.s2 = p.s2 else q.s2.toNat = x.toNat % 2 ^ n ∧ q.s1 = p.s1) ∧
       sget 0 c.fabric.counts 5 = sget 0 f.counts 5
     op = 24 →
     (∀ a b, DataOn p 0 a → DataOn p 1 b →
       (late 0 a = true → dropped 0) ∧ (late 0 a = false → late 1 b = true → dropped 1) ∧
       (late 0 a = false → late 1 b = false →
         (a.toNat % 2 ^ n = b.toNat % 2 ^ n → FiresTo i s t e [0, 1]
           [(0, BitVec.ofNat 64 (a.toNat % 2 ^ n)), (1, BitVec.ofNat 64 (isectOrd p 0)), (2, BitVec.ofNat 64 (isectOrd p 1))] s
           fun q _ => took q 0 ∧ took q 1 ∧ q.s1.toNat = a.toNat % 2 ^ n ∧ q.s2.toNat = b.toNat % 2 ^ n) ∧
         (a.toNat % 2 ^ n < b.toNat % 2 ^ n → passed 0 a) ∧ (b.toNat % 2 ^ n < a.toNat % 2 ^ n → passed 1 b))) ∧
     ∀ k x, k < 2 → DataOn p k x → Over p (1 - k) → (late k x = true → dropped k) ∧ (late k x = false → passed k x)) ∧
    (∀ v, op = 25 → p.s0 = 0 → DataOn p 0 v → FiresTo i s t e [0] [(0, v)] s fun q _ => q.s0 = 1) ∧
    (∀ c y, op = 25 → p.s0 = 1 → DataOn p 2 c → c ≠ 0 → DataOn p 1 y → FiresTo i s t e [1, 2] [(0, y)] s fun q _ => q.s0 = 1) ∧
    (∀ c, op = 25 → p.s0 = 1 → DataOn p 2 c → c = 0 → FiresTo i s t e [2] [] s fun q _ => q.s0 = 0) ∧
    (∀ a b, op = 26 → DataOn p 0 a → DataOn p 1 b →
      FiresTo i s t e (if b ≠ 0 then [1] else [0, 1]) (if b ≠ 0 then [(0, a)] else []) s fun _ _ => True) ∧
    (op = 28 → p.owed = none → rtakeWaiting (s.tile t) e (fld p.word 18 14) = true →
      lighterWaits s ((s.tile t).part.getD 0) (fld p.word 18 14) t e = false →
      let serve := rangeServe s ((s.tile t).part.getD 0) (fld p.word 18 14) (fabricAgent t)
      (∀ s1 w0 w1, serve = (s1, .token w0 w1 none) →
        FiresTo i s t e [] [(0, BitVec.ofNat 64 w0), (1, BitVec.ofNat 64 (w1 % 2 ^ 32)), (2, BitVec.ofNat 64 (w1 / 2 ^ 48 % 2 ^ 16))] s1
          fun _ _ => True) ∧
      (∀ s1 w0 w1 k, serve = (s1, .token w0 w1 (some k)) → ∃ t1, exec i s = .next (updCtx t settle t1) ∧ SameBytes s1 t1 ∧
        (posAt t1 t e).owed = some (BitVec.ofNat 64 w0, BitVec.ofNat 64 w1) ∧
        ∀ o ∈ linkedOut s t e, ∃ x, sfind (posAt t1 t e).outs o = some x ∧ x.kind = .marker ∧ x.mark = BitVec.ofNat 16 k) ∧
      (∀ s1, serve = (s1, .exhausted) → SameBytes s s1 → EndsTo i s t e [] fun q _ => q.s0 = 1)) ∧
    (∀ w0 w1, op = 28 → p.owed = some (w0, w1) → FiresTo i s t e []
      [(0, w0), (1, BitVec.ofNat 64 (w1.toNat % 2 ^ 32)), (2, BitVec.ofNat 64 (w1.toNat / 2 ^ 48 % 2 ^ 16))] s fun q _ => q.owed = none) ∧
    (∀ x r, op = 30 → f.inQueue (fld p.word 18 14) = x :: r →
      (x.kind = .eos → EndsTo i s t e [] fun _ c => c.fabric.inQueue (fld p.word 18 14) = r) ∧
      (x.kind = .data → FiresTo i s t e [] [(0, x.val)] s fun _ c => c.fabric.inQueue (fld p.word 18 14) = r)) ∧
    (op = 32 → linkedIn s t e = [] → p.hasEnded 3 = false →
      (p.s0 = 0 → FiresTo i s t e [] [(0, immToken p.word)] s fun q _ => q.s0 = 1) ∧
      (p.s0 = 1 → EndsTo i s t e [] fun q _ => q.hasEnded 3 = true)) ∧
    (op = 15 → p.s1 = 0 → EosOn p 0 → EndsTo i s t e [0] fun q _ => q.hasEnded 0 = true) ∧
    (op = 25 → p.s0 = 0 → EosOn p 0 → EndsTo i s t e [0] fun q _ => q.hasEnded 0 = true) ∧
    (op ∈ [17, 24, 26] → (op = 17 → p.s2.getLsbD 0 = false) → Over p 0 → Over p 1 → EosOn p 0 ∨ EosOn p 1 →
      EndsTo i s t e [0, 1] fun q _ => q.hasEnded 0 = true ∧ q.hasEnded 1 = true) ∧
    (op = 23 → (∀ j < 3, Over p j) → (∃ j < 3, EosOn p j) → EndsTo i s t e [0, 1, 2] fun q _ => ∀ j < 3, q.hasEnded j = true) ∧
    (∀ k v, k < 2 → (op = 17 ∧ p.s2.getLsbD 0 = false) ∨ (op = 26 ∧ p.hasEnded 4 = false) → DataOn p k v → Over p (1 - k) →
      (fld p.word 6 2 = 0 → StopsWith i s t e cFLEN) ∧
      (fld p.word 6 2 ≠ 0 → StepsTo 0 i s t e [k] [] s fun _ c => sget 0 c.fabric.counts 2 = counted s t 2 1)) ∧
    (let need := neededIn s t e
     let used := dataAmong p need
     op ∉ [0, 15, 17, 23, 24, 25, 26, 28, 30] → (op = 32 → linkedIn s t e ≠ []) → parkHead f e p = none →
     ((∀ j ∈ need, Over p j) → (∃ j ∈ need, EosOn p j) → (∀ x ∈ f.spill, ¬ (x.dst = e ∧ x.gen = p.gen)) →
       let ends := EndsTo i s t e need fun q _ => ∀ j ∈ need, q.hasEnded j = true
       (op ∉ [16, 27, 31, 33] → ends) ∧
       (op = 16 → (p.s1 = 0 → ends) ∧ (p.s1 ≠ 0 → StepsTo 0 i s t e [] [(0, p.s0)] s fun q _ => q.s0 = 0 ∧ q.s1 = 0)) ∧
       (op = 27 → (fld p.word 10 3 ≠ 0 ∨ p.hasEnded 3 = true → ends) ∧
         (fld p.word 10 3 = 0 → p.hasEnded 3 = false → StepsTo 0 i s t e [] [(0, p.s0)] s fun q _ => q.hasEnded 3 = true)) ∧
       (op = 31 → (f.outQueue (fld p.word 18 14)).length < 8 → StepsTo 0 i s t e need [] s fun _ c => ∃ x,
         c.fabric.outQueue (fld p.word 18 14) = f.outQueue (fld p.word 18 14) ++ [x] ∧ x.kind = .eos) ∧
       (op = 33 → StepsTo 0 i s t e need [] s fun q _ => ∀ j ∈ need, q.hasEnded j = true)) ∧
     ((∃ j ∈ need, Over p j) → (∃ j ∈ need, ∃ v, DataOn p j v) →
       (fld p.word 6 2 = 0 → StopsWith i s t e cFLEN) ∧
       (fld p.word 6 2 = 1 → StepsTo 0 i s t e used [] s fun _ c => sget 0 c.fabric.counts 2 = counted s t 2 used.length) ∧
       (∀ v : Nat → Word, fld p.word 6 2 = 2 → (∀ j ∈ orderAt s t e, ∃ x, DataOn p j x) →
         (∀ j < 3, (j ∈ need → DataOn p j (v j) ∨ (Over p j ∧ v j = immToken p.word)) ∧
           (j ∉ need → v j = if j = 1 ∧ p.word.getLsbD 8 = true then immToken p.word else 0)) →
         ∀ s' outs, compute t e p (v 0) (v 1) (v 2) s = .emit s' outs → accessHeld f e p (v 0) = false →
           FiresTo i s t e (used ++ orderAt s t e) outs s' fun _ c =>
             sget 0 c.fabric.counts 8 = counted s t 8 (need.length - used.length))))

/-! ### Streams, channels and Draught loops -/

/-- O42 (R270 to R272): `sopen` sets the register from its record with POS and SEQ zero, `sclose` closes it and frees its reservation,
`sadv` moves the position, `spos` reads it. What the walk-ahead of R310 does to a KIND 0 register's pages is said as `walkAhead`. -/
def Obligations.StreamRegisters : Prop :=
  ∀ s d a, StreamFree s d.toNat →
    let st := s.curTile.stream d.toNat
    (∀ r s1, readRecord (s.reg a) 32 32 .either s = .ok r s1 → st.isOpen = false → openRecordLegal r = true → openRecordClass r = true →
      (rword r 2 % 8 = 4 → (s1.tile (rword r 2 / 2 ^ 16 % 2 ^ 10)).part = s1.curTile.part) →
      (rword r 2 % 8 = 3 → (s1.curTile.chan (rword r 2 / 2 ^ 7 % 2 ^ 5)).enabled = true) →
      rword r 2 / 2 ^ 5 % 4 = 0 ∨ rword r 1 % 2 ^ 32 = 0 →
      let ahead := walkAhead s1.ct d.toNat (s1.setCurTile (s1.curTile.setStream d.toNat (openStream r)))
      ∃ t, exec (.sopen d a) s = .next t ∧ Continues s t [] ∧ SameBytes ahead t ∧ t.resv = ahead.resv ∧
        (rword r 2 % 8 ≠ 0 → SameBytes s1 t ∧ t.resv = s1.resv) ∧
        let u := t.curTile.stream d.toNat
        u.isOpen = true ∧ u.kind.toNat = rword r 2 % 8 ∧ u.intent.toNat = rword r 2 / 2 ^ 3 % 4 ∧
        u.pol.toNat = rword r 2 / 2 ^ 5 % 4 ∧ u.addr.toNat = rword r 0 % 2 ^ 64 ∧
        u.ext.toNat = rword r 1 % 2 ^ 32 ∧ u.es.toNat = rword r 1 / 2 ^ 32 % 2 ^ 32 ∧ u.ch.toNat = rword r 2 / 2 ^ 7 % 2 ^ 5 ∧
        u.port.toNat = rword r 2 / 2 ^ 12 % 2 ^ 4 ∧ u.dtile.toNat = rword r 2 / 2 ^ 16 % 2 ^ 10 ∧ u.pos = 0 ∧ u.seq = 0 ∧ u.rid = none) ∧
    (∀ r s1, readRecord (s.reg a) 32 32 .either s = .ok r s1 → st.isOpen = false → openRecordLegal r = true → openRecordClass r = true →
      rword r 2 % 8 = 0 → (openStream r).pol ≠ 0 → (openStream r).ext ≠ 0 →
      let opened : Stream := { openStream r with rid := some s1.nextRid }
      let registered := registerRange s1.ct d.toNat (openStream r) s1.nextRid
        { s1.setCurTile (s1.curTile.setStream d.toNat opened) with nextRid := s1.nextRid + 1 }
      (registered = none → exec (.sopen d a) s = .next (s.waitAt .reservationShare)) ∧
      (∀ s2, registered = some s2 → ∃ t, exec (.sopen d a) s = .next t ∧ Continues s t [] ∧ SameBytes (walkAhead s1.ct d.toNat s2) t ∧
        t.resv = (walkAhead s1.ct d.toNat s2).resv ∧ t.nextRid = s1.nextRid + 1 ∧ t.curTile.stream d.toNat = opened)) ∧
    (∀ r s1, readRecord (s.reg a) 32 32 .either s = .ok r s1 → st.isOpen = false → openRecordLegal r = true → openRecordClass r = false →
      exec (.sopen d a) s = trapOf s { cause := cADDR, tva := BitVec.ofNat 56 (rword r 0) }) ∧
    (∀ r s1, readRecord (s.reg a) 32 32 .either s = .ok r s1 → st.isOpen = true → exec (.sopen d a) s = trapOf s { cause := cPROT, sub := 3 }) ∧
    (∀ r s1, readRecord (s.reg a) 32 32 .either s = .ok r s1 → st.isOpen = false → openRecordLegal r = false →
      exec (.sopen d a) s = trapOf s { cause := cRSVD }) ∧
    (∃ t, exec (.sclose d) s = .next t ∧ Continues s t [] ∧ SameBytes s t ∧ (t.curTile.stream d.toNat).isOpen = false ∧
      (t.curTile.stream d.toNat).pos = st.pos ∧ (st.isOpen = true → ∀ e ∈ t.resv, st.rid ≠ some e.rid) ∧
      ∀ k, k ≠ d.toNat → t.curTile.stream k = s.curTile.stream k) ∧
    (st.isOpen = true →
      let moved : Stream := { st with pos := BitVec.ofInt 64 (st.pos.toInt + (s.reg a).toInt * st.es.toInt) }
      ∃ t, exec (.sadv d a) s = .next t ∧ Continues s t [] ∧ (st.kind ≠ 0 → SameBytes s t) ∧
      SameBytes (walkAhead s.ct d.toNat (s.setCurTile (s.curTile.setStream d.toNat moved))) t ∧ t.curTile.stream d.toNat = moved ∧
      ∀ k, k ≠ d.toNat → t.curTile.stream k = s.curTile.stream k) ∧
    (st.isOpen = false → exec (.sadv d a) s = trapOf s { cause := cPROT, sub := 1 }) ∧
    (∀ x, ∃ t, exec (.spos x d) s = .next t ∧ GoesOn t (s.cur.pc + 4) ∧ t.reg x = held x (if st.isOpen then st.pos else 0) ∧ RegistersOnly s t [x])

/-- O43 (R274 to R278): binding a channel, sending, receiving and polling. -/
def Obligations.Channels : Prop :=
  ∀ s c, s.enginesBusy = false →
    let h := s.curTile.chan c.toNat
    let gives := fun (i : Instr) (d : BitVec 5) (v : Nat) => ∃ t, exec i s = .next t ∧ GoesOn t (s.cur.pc + 4) ∧
      t.reg d = held d (BitVec.ofNat 64 v) ∧ RegistersOnly s t [d]
    (∀ a, entryLegal (s.reg a).toNat s.strandTop = true → ∃ t, exec (.chbind c a) s = .next t ∧ Continues s t [] ∧ SameBytes s t ∧
      (t.curTile.chan c.toNat).entry = s.reg a ∧
      (bindingKey h.entry = bindingKey (s.reg a) → (t.curTile.chan c.toNat).queue = h.queue ∧ (t.curTile.chan c.toNat).expected = h.expected) ∧
      (bindingKey h.entry ≠ bindingKey (s.reg a) → (t.curTile.chan c.toNat).queue = [] ∧ (t.curTile.chan c.toNat).expected = 0)) ∧
    (∀ a, entryLegal (s.reg a).toNat s.strandTop = false → exec (.chbind c a) s = trapOf s { cause := cRSVD }) ∧
    (∀ d a ws s1, let st := s.curTile.stream d.toNat
      st.isOpen = true → st.kind = 4 → st.hw = none → readRecord (s.reg a) 64 64 .either s = .ok ws s1 →
      ∃ t e, exec (.chsend d a c) s = .next t ∧ Continues s t [] ∧ SameBytes s1 t ∧
        t.flight = s1.flight ++ [{ src := s.ct, dst := st.dtile.toNat, elem := e }] ∧ e.pay = BitVec.ofNat 512 (leNat (ws.flatMap (natLe 8))) ∧
        e.seq = st.seq ∧ e.ch = c ∧ e.dtile = st.dtile ∧ e.stile = BitVec.ofNat 10 s.ct ∧
        t.curTile.stream d.toNat = { st with seq := st.seq + 1 }) ∧
    (∀ d a, (s.curTile.stream d.toNat).isOpen = false → exec (.chsend d a c) s = trapOf s { cause := cPROT, sub := 1 }) ∧
    (∀ d a w, storeFaults (s.reg a) s = .ok w s →
      (h.enabled = false → ∃ t, exec (.chrecv d a c) s = .next t ∧ Continues s t [d] ∧ SameBytes s t ∧
        t.reg d = held d (BitVec.ofNat 64 (3 + 2 ^ 32 * h.queue.length)) ∧ t.curTile.chan c.toNat = h) ∧
      (h.enabled = true → h.queue = [] → ∃ t, exec (.chrecv d a c) s = .next t ∧ Continues s t [d] ∧ SameBytes s t ∧ t.reg d = held d 1 ∧
        t.curTile.chan c.toNat = h) ∧
      (∀ e r ps s1 s2, h.enabled = true → h.queue = e :: r → h.withheld = none → recordPlaces (s.reg a) 64 64 .write .either s = .ok ps s1 →
        putPlaces ps ((List.range 8).map fun k => fld e.pay (64 * k) 64) s1 = .ok () s2 →
        ∃ t, exec (.chrecv d a c) s = .next t ∧ Continues s t [d] ∧ SameBytes s2 t ∧ t.curTile.chan c.toNat = { h with queue := r, expected := e.seq + 1 } ∧
          t.reg d = held d (BitVec.ofNat 64 ((if e.seq = h.expected then 0 else 2) + 2 ^ 16 * e.seq.toNat + 2 ^ 32 * r.length)))) ∧
    (∀ d, gives (.chpoll d c) d (h.queue.length + (if h.queue.length = h.depth then 2 ^ 7 else 0) + (if h.lossless then 2 ^ 8 else 0)
      + (if h.enabled then 2 ^ 9 else 0) + (if h.masked? then 2 ^ 10 else 0))) ∧
    (∀ d, gives (.chseq d c) d (h.expected.toNat + 2 ^ 16 * (h.loss % 2 ^ 16) + 2 ^ 32 * (h.masked % 2 ^ 16)))

/-- O44 (R280, R281, R341, R342): binding, reading and freezing a loop; a sample; the arrival of a rate message. -/
def Obligations.DraughtLoops : Prop :=
  ∀ s (l : BitVec 4),
    let x := s.curTile.loop l.toNat
    (∀ a r s1, s.enginesBusy = false → readRecord (s.reg a) 16 16 .either s = .ok r s1 →
      (rword r 0 % 16 = l.toNat → loopRecLegal s1 s1.ct s1.strandTop (rword r 0) (rword r 1) = true →
        stable (otherLoops s1 s1.ct [l.toNat]) s1.ct (loopRec (rword r 0) (rword r 1)) = true →
        ∃ t, exec (.drgtSet l a) s = .next t ∧ Continues s t [] ∧ SameBytes s1 t ∧
          let y := t.curTile.loop l.toNat
          let q := loopRec (rword r 0) (rword r 1)
          y.bound = true ∧ y.w0 = BitVec.ofNat 64 (rword r 0) ∧ y.w1 = BitVec.ofNat 64 (rword r 1) ∧ y.integ = 0 ∧ y.frozen = false ∧
          y.next = q.period ∧ y.wp = Max.max q.wmin (Min.min 128 q.wmax) ∧ y.wc = y.wp ∧ y.gen = x.gen + 1) ∧
      (rword r 0 % 16 ≠ l.toNat → exec (.drgtSet l a) s = trapOf s { cause := cRSVD }) ∧
      (rword r 0 % 16 = l.toNat → loopRecLegal s1 s1.ct s1.strandTop (rword r 0) (rword r 1) = true →
        stable (otherLoops s1 s1.ct [l.toNat]) s1.ct (loopRec (rword r 0) (rword r 1)) = false →
        exec (.drgtSet l a) s = trapOf s { cause := cCOUPLING })) ∧
    (∀ d e, (e.toNat ≤ 7 → ∃ t v, exec (.drgtRd d l e) s = .next t ∧ GoesOn t (s.cur.pc + 4) ∧ t.reg d = held d (BitVec.ofNat 64 v) ∧
        RegistersOnly s t [d] ∧ (e.toNat < 7 → v = loopReg x e.toNat) ∧ (e = 7 → x.bound = false → v = 0) ∧
        (e = 7 → x.bound = true → v % 2 ^ 30 = x.record.ch + 2 ^ 5 * x.record.ptile + 2 ^ 15 * x.record.ptgt + 2 ^ 22 * x.record.ctgt + 2 ^ 29)) ∧
      (7 < e.toNat → s.enginesBusy = false → exec (.drgtRd d l e) s = trapOf s (decodeTrap cRSVD))) ∧
    (s.enginesBusy = false →
      (∃ t, exec (.drgtFreeze l) s = .next t ∧ Continues s t [] ∧ SameBytes s t ∧
        t.curTile.loop l.toNat = if x.bound then { x with frozen := true } else x) ∧
      (∃ t, exec (.drgtThaw l) s = .next t ∧ Continues s t [] ∧ SameBytes s t ∧
        t.curTile.loop l.toNat = if x.bound then { x with frozen := false, next := x.record.period } else x)) ∧
    (∀ h : BitVec 10, let y := (s.tile h.toNat).loop l.toNat
      let q := y.record
      let c := (s.tile h.toNat).chan q.ch
      let n := if c.enabled then c.queue.length else 0
      let err : Int := (n : Int) - q.sp
      let sum := if n = 0 then y.integ else Max.max (-32768) (Min.min 32767 (y.integ + err))
      let u : Int := ((q.kp : Int) * err + (q.ki : Int) * sum) / 2 ^ q.sh
      (s.tile h.toNat).still = false → y.samples = true → q.wmin ≤ q.wmax →
      ∃ t, exec (.draughtSample h l) s = .next t ∧ SameBytes s t ∧
        let z := (t.tile h.toNat).loop l.toNat
        z.integ = sum ∧ (z.wp : Int) = Max.max (q.wmin : Int) (Min.min (q.wmax : Int) (y.wp - u)) ∧
        (z.wc : Int) = (if n = 0 then (y.wc : Int) else Max.max (q.wmin : Int) (Min.min (q.wmax : Int) (y.wc + u))) ∧ z.next = q.period ∧
        (z.wp = y.wp → t.rates = s.rates) ∧
        (z.wp ≠ y.wp → t.rates = s.rates ++ [{ ptile := q.ptile, ctile := h.toNat, loop := l.toNat, gen := y.gen, weight := z.wp }])) ∧
    (∀ (p c : BitVec 10) m r, s.rates = m :: r → m.ptile = p.toNat → m.ctile = c.toNat → m.loop = l.toNat → (s.tile p.toNat).halted = false →
      ∃ t, exec (.rateMessageArrival p c l) s = .next t ∧ t.rates = r ∧ SameBytes s t ∧
        (t.tile p.toNat).weights = (s.tile p.toNat).weights.map fun w =>
          if w.ctile = c.toNat ∧ w.loop = l.toNat ∧ w.gen = m.gen then { w with weight := m.weight } else w)

/-! ### Scheduling -/

/-- O45 (R316 to R319): reading, adding to, waiting for and cancelling a counter. Which dependants a cancel takes is the model's reading
(log 79). -/
def Obligations.Counters : Prop :=
  ∀ s a (c : BitVec 20), NamesCounter s a c →
    let x := s.partition s.curPart
    let v := sget {} x.counters (fld c 0 12)
    let old := fld c 10 2 < 2 ∧ v.gen ≠ BitVec.ofNat 8 (fld c 12 8)
    let gives := fun (i : Instr) (d : BitVec 5) (y : Word) => ∃ t, exec i s = .next t ∧ GoesOn t (s.cur.pc + 4) ∧ t.reg d = held d y ∧ RegistersOnly s t [d]
    (∀ d, gives (.ctrRd d a) d (BitVec.ofNat 64 (counterValue s s.curPart c))) ∧
    (∀ b, s.enginesBusy = false →
      (old → ∃ t, exec (.ctrAdd a b) s = .next t ∧ GoesOn t (s.cur.pc + 4) ∧ RegistersOnly s t []) ∧
      (¬ old → fld c 10 2 < 2 → exec (.ctrAdd a b) s = trapOf s { cause := cPROT, sub := 6 }) ∧
      (2 ≤ fld c 10 2 → ∃ t, exec (.ctrAdd a b) s = .next t ∧ Continues s t [] ∧ SameBytes s t ∧
        sget {} (t.partition s.curPart).counters (fld c 0 12) = { v with val := BitVec.ofNat 48 (v.val.toNat + (s.reg b).toNat) } ∧
        ∀ k, k ≠ fld c 0 12 → sget {} (t.partition s.curPart).counters k = sget {} x.counters k)) ∧
    (∀ d b,
      let reached := (s.reg b).toNat ≤ (match fld c 10 2 with | 0 => v.exited | 1 => v.done | _ => v.val.toNat)
      (¬ old → v.can = true → gives (.waitCtr d a b) d 1) ∧
      (old ∨ (v.can = false ∧ reached) → gives (.waitCtr d a b) d 0) ∧
      (¬ old → v.can = false → ¬ reached → exec (.waitCtr d a b) s = .next (s.waitAt .waitCtr))) ∧
    (s.enginesBusy = false →
      (old → ∃ t, exec (.cancel a) s = .next t ∧ GoesOn t (s.cur.pc + 4) ∧ RegistersOnly s t []) ∧
      (¬ old → 2 ≤ fld c 10 2 ∨ x.graphs = [] → ∃ t, exec (.cancel a) s = .next t ∧ t.cur.pc = s.cur.pc + 4 ∧ SameBytes s t ∧
        (sget {} (t.partition s.curPart).counters (fld c 0 12)).can = true))

/-- O46 (R90, R320 to R324, R327): `launch` queues its record's teams under a fresh counter, `gsq.arm` arms its graph, `trig`
contributes once, `exit` ends the strand, `wait.ch` finds the channel whose element came first, `yield` only stands back. That the
supervisor's `trig` does nothing, and the stamp that an element gets, are the model's readings (logs 84 and 37). -/
def Obligations.Launches : Prop :=
  ∀ s,
    (∀ d a w s1, s.enginesBusy = false → readRecord (s.reg a) 384 64 .either s = .ok w s1 →
      let p := s.curPart
      let r := launchRec w
      (launchRecLegal s1 p w = false → exec (.launch d a) s = trapOf s { cause := cRSVD }) ∧
      (launchRecLegal s1 p w = true → launchRecPlaced s1 p r false = false → exec (.launch d a) s = trapOf s { cause := cPROT, sub := 5 }) ∧
      (launchRecLegal s1 p w = true → launchRecPlaced s1 p r false = true →
        (∀ h, launchTooBig s1 r = some h → exec (.launch d a) s = trapOf s { cause := cCAPACITY, tva := BitVec.ofNat 56 h }) ∧
        (∀ c v, launchTooBig s1 r = none → freeCounter (s1.partition p) 0 (s1.partition p).lastLaunch = some (c, v) →
          ∃ t l, exec (.launch d a) s = .next t ∧ Continues s t [d] ∧ SameBytes s1 t ∧ t.reg d = held d (c.zeroExtend 64) ∧
            (t.partition p).launches = (s1.partition p).launches ++ [l] ∧ l.cid = c ∧ l.words = w.map (BitVec.ofNat 64) ∧
            l.arg = BitVec.ofNat 64 r.arg ∧ l.pending = (List.range r.count).map (· + r.first) ∧
            let y := sget {} (t.partition p).counters (fld c 0 12)
            y.live = true ∧ y.teams = r.count ∧ y.exited = v.exited ∧ y.parent = r.parent))) ∧
    (∀ a b t1, gsqArm a b s = .ok () t1 →
      (∀ g ∈ (s.partition s.curPart).graphs, ((s.partition s.curPart).counter g.cid).live = true) →
      ∃ t g, exec (.gsqArm a b) s = .next t ∧ Continues s t [] ∧ (t.partition s.curPart).graphs.getLast? = some g ∧
        (t.partition s.curPart).graphs.length = (s.partition s.curPart).graphs.length + 1 ∧ g.cluster = clusterBase s.ct ∧ g.n = (s.reg b).toNat) ∧
    (∀ m, s.isSupervisor s.ct s.cs = false → s.curTile.team = some m → m.contributed = false → operationsDone s true = true →
      s.curTile.part.isSome = true →
      ∃ t, exec .trig s = .next t ∧ Continues s t [] ∧ SameBytes s t ∧ t.curTile.team = some { m with contributed := true } ∧
        (((s.partition s.curPart).counter m.cid).contrib + 1 ≠ ((s.partition s.curPart).counter m.cid).teams →
          ((t.partition s.curPart).counter m.cid).contrib = ((s.partition s.curPart).counter m.cid).contrib + 1)) ∧
    ((s.isSupervisor s.ct s.cs = true ∨ (∃ m, s.curTile.team = some m ∧ m.contributed = true)) →
      ∃ t, exec .trig s = .next t ∧ GoesOn t (s.cur.pc + 4) ∧ RegistersOnly s t []) ∧
    (∀ a, (s.isSupervisor s.ct s.cs = true → s.enginesBusy = false → exec (.exit a) s = trapOf s (decodeTrap cPRIV)) ∧
      (s.isSupervisor s.ct s.cs = false → operationsDone s false = true → ∃ t, exec (.exit a) s = .next t ∧ t.cur.state = .ended ∧ SameBytes s t ∧
        (∀ m, s.curTile.team = some m → t.curTile.team = some { m with status := if s.cs = 0 then (s.reg a).truncate 8 else m.status }) ∧
        ∀ h k, (h, k) ≠ (s.ct, s.cs) → t.strandOf h k = s.strandOf h k)) ∧
    (∀ d a, s.reg a ≠ 0 → (s.reg a).toNat < 2 ^ 32 →
      let ready := fun k : Nat => k < 32 ∧ (s.reg a).getLsbD k = true ∧ (s.curTile.chan k).ready s.cs = true
      let since := fun k : Nat => ((s.curTile.chan k).queue.head?.map (·.time)).getD 0
      ((∃ k, ready k) → ∃ t k, exec (.waitCh d a) s = .next t ∧ GoesOn t (s.cur.pc + 4) ∧ t.reg d = held d (BitVec.ofNat 64 k) ∧ RegistersOnly s t [d] ∧
        ready k ∧ ∀ j, ready j → since k < since j ∨ (since k = since j ∧ k ≤ j)) ∧
      ((¬ ∃ k, ready k) → exec (.waitCh d a) s = .next (s.waitAt (.waitCh ((s.reg a).truncate 32))))) ∧
    (∃ t, exec .yield s = .next t ∧ GoesOn t (s.cur.pc + 4) ∧ t.cur.yielded = true ∧ OnlyStrand s t ∧ SameBytes s t ∧ ∀ r, t.reg r = s.reg r)

/-- O47 (R326, R328 to R330): `rtake` gives the two words of a token, or says that the pool is exhausted or empty, and waits while a
reservation holds the pool's words; `spalloc` gives the lowest free run of zeroed stripes, or -1; `spfree` frees a region; `opcap` and
`opreq`. What an untranslatable pool answers, and that `opreq` traps with PRIV whatever it names, are the model's readings (logs 72 and
85). -/
def Obligations.RangesAndStripes : Prop :=
  ∀ s d a,
    (s.enginesBusy = false → (s.reg a).toNat < 256 → lighterRequest s s.curPart (s.reg a).toNat s.ct [] = none →
      let x := rangeServe s s.curPart (s.reg a).toNat s.agent
      (∀ w, x.2 = .held w → exec (.rtake d a) s = .next (s.waitAt w)) ∧
      ((∀ w, x.2 ≠ .held w) → d ≠ 0 → d ≠ 31 → ∃ t, exec (.rtake d a) s = .next t ∧ Continues s t [d, d + 1] ∧ SameBytes x.1 t ∧
        match x.2 with
        | .token w0 w1 _ => t.reg d = BitVec.ofNat 64 (w0 + 2 ^ 63) ∧ t.reg (d + 1) = BitVec.ofNat 64 w1
        | .exhausted => t.reg d = BitVec.ofNat 64 (2 ^ 62) ∧ t.reg (d + 1) = 0
        | .empty => t.reg d = 0 ∧ t.reg (d + 1) = 0
        | .held _ => False)) ∧
    (s.enginesBusy = false →
      let n := ((s.reg a).toNat + 2047) / 2048
      (s.reg a = 0 → exec (.spalloc d a) s = trapOf s { cause := cRSVD }) ∧
      (∀ o b, s.reg a ≠ 0 → s.owner = some o → n ≤ 1536 → lowestRun s [s.ct] n = some b →
        ∃ t, exec (.spalloc d a) s = .next t ∧ Continues s t [d] ∧ t.reg d = held d (BitVec.ofNat 64 (2048 * b)) ∧
          (∃ k, t.curTile.regions = s.curTile.regions ++ [{ base := b, stripes := n, owner := o, footprint := false, cluster := k }] ∧
            (k = true ↔ ∃ m, s.curTile.team = some m ∧ m.cs = true ∧ o ≠ .supervisor)) ∧
          (∀ x, cellGet t.mem x = cellGet s.mem x) ∧
          ∀ x, cellGet t.curTile.spd x = if 2048 * b ≤ x ∧ x < 2048 * (b + n) then 0 else cellGet s.curTile.spd x) ∧
      (s.reg a ≠ 0 → (s.owner = none ∨ 1536 < n ∨ lowestRun s [s.ct] n = none) →
        ∃ t, exec (.spalloc d a) s = .next t ∧ GoesOn t (s.cur.pc + 4) ∧ t.reg d = held d (BitVec.allOnes 64) ∧ RegistersOnly s t [d])) ∧
    (∀ b, s.enginesBusy = false →
      let mine := fun r : Region => 2048 * r.base = (s.reg a).toNat ∧ r.stripes = ((s.reg b).toNat + 2047) / 2048 ∧ r.footprint = false ∧ s.owner = some r.owner
      ((∀ r ∈ s.curTile.regions, ¬ mine r) → exec (.spfree a b) s = trapOf s { cause := cSPDRANGE, tva := (s.reg a).truncate 56 }) ∧
      let free := copyTouches s s.ct (s.reg a).toNat (2048 * (((s.reg b).toNat + 2047) / 2048)) = false ∧
        pinners s s.ct (s.reg a).toNat (2048 * (((s.reg b).toNat + 2047) / 2048)) = []
      ((∃ r ∈ s.curTile.regions, mine r) → free →
        ∃ t r, exec (.spfree a b) s = .next t ∧ Continues s t [] ∧ SameBytes s t ∧ mine r ∧ r ∈ s.curTile.regions ∧
          t.curTile.regions = s.curTile.regions.filter fun q => q ≠ r) ∧
      ((∃ r ∈ s.curTile.regions, mine r) → ¬ free → exec (.spfree a b) s = .next (s.waitAt .regionHeld))) ∧
    ((s.reg a).toNat ≤ 3 → ∃ t, exec (.opcap d a) s = .next t ∧ GoesOn t (s.cur.pc + 4) ∧ RegistersOnly s t [d] ∧
      t.reg d = held d (BitVec.ofNat 64 (Min.min 1536 (1600 - ((List.range 1600).filter (sget 0 s.curTile.fails (s.reg a).toNat).getLsbD).length)))) ∧
    (3 < (s.reg a).toNat → s.enginesBusy = false → exec (.opcap d a) s = trapOf s { cause := cRSVD }) ∧
    (s.isSupervisor s.ct s.cs = false → s.enginesBusy = false → exec (.opreq d a) s = trapOf s (decodeTrap cPRIV)) ∧
    (s.isSupervisor s.ct s.cs = true → s.cur.state = .runnable → (s.reg a).toNat ≤ 3 →
      let gives := fun v : Word => ∃ t, exec (.opreq d a) s = .next t ∧ GoesOn t (s.cur.pc + 4) ∧ t.reg d = held d v ∧ RegistersOnly s t [d]
      ((s.reg a).toNat = s.opcur.toNat → gives 4) ∧
      ((s.reg a).toNat ≠ s.opcur.toNat →
        (∀ o, s.opStep = some o → o.target ≠ (s.reg a).toNat → gives 2) ∧
        (s.opStep = none → floorAllows s (s.reg a).toNat = false → gives 3) ∧
        (s.opStep = none → floorAllows s (s.reg a).toNat = true → ∃ t, exec (.opreq d a) s = .next t ∧ t.opBusy = true ∧
          t.opStep = some { target := (s.reg a).toNat } ∧ t.cur.state = .waiting (.opreq (s.reg a).toNat none) ∧ t.cur.pc = s.cur.pc ∧ SameBytes s t)))

/-! ### Events: what happens without an instruction -/

/-- O48 (R83, R86, R129, R354, R356, R357, R362, R372, R379, R380, R442): traps, cancels and time-outs reach their strands, and the
oldest engine entry is performed, retires or traps. The age 64 is the model's reading of R357 (log 22). -/
def Obligations.StrandEvents : Prop :=
  ∀ s (tl : BitVec 10) (k : BitVec 3),
    let t := tl.toNat
    let y := s.strandOf t k.toNat
    let x := s.tile t
    (∀ tr r, AtBoundary s t k.toNat → y.traps = tr :: r →
      exec (.takeTrap tl k) s = .next (takeTrap (s.setStrandOf t k.toNat { y with traps := r, posting := false }) t k.toNat tr)) ∧
    (∀ tr r, TakesTraps s t k.toNat → y.traps = tr :: r → tr.cause ≠ cWALK → tr.tpc = none →
      ∃ z, exec (.takeTrap tl k) s = .next z ∧ SameBytes s z ∧ EnteredHandler s z t k.toNat tr y.pc ∧ (z.strandOf t k.toNat).traps = r ∧
        ∀ g, (z.strandOf t k.toNat).reg g = y.reg g) ∧
    (∀ tr s', x.still = false → y.state = .runnable → fetchWord t k.toNat s = .error (.trap tr) s' → x.entriesOf k.toNat = [] →
      exec (.fetchFault tl k) s = .next (takeTrap { s with ct := t, cs := k.toNat } t k.toNat tr)) ∧
    (TakesTraps s t k.toNat →
      (2 ^ 48 ≤ y.pc.toNat → ∃ z, exec (.fetchFault tl k) s = .next z ∧ SameBytes s z ∧
        EnteredHandler s z t k.toNat { cause := cADDR, tva := y.pc.truncate 56 } y.pc) ∧
      (∀ f, y.pc.toNat < 2 ^ 48 → probe s (x.part.getD 0) y.pc.toNat .fetch = .error f → f.cause ≠ cWALK →
        ∃ z, exec (.fetchFault tl k) s = .next z ∧ SameBytes s z ∧
          EnteredHandler s z t k.toNat { cause := f.cause, sub := f.sub, tva := y.pc.truncate 56 } y.pc)) ∧
    (∀ d l, x.still = false → y.state = .waiting (.mwait d (some l)) → l ≤ s.cyc → ∃ s', exec (.mwaitTimeout tl k) s = .next s' ∧ SameBytes s s' ∧
      (s'.strandOf t k.toNat).reg d = held d (if y.written then 0 else 1) ∧ (s'.strandOf t k.toNat).pc = y.pc + 4 ∧
      (s'.strandOf t k.toNat).state = .runnable) ∧
    (y.state = .runnable → 64 ≤ y.age → ∃ s', exec (.strandAgePromotion tl k) s = .next s' ∧ SameBytes s s' ∧
      s'.strandOf t k.toNat = { y with promoted := true } ∧ slotPrio s' t k.toNat = 8) ∧
    (y.age < 64 → exec (.strandAgePromotion tl k) s = .next s) ∧
    (∀ id r, TakesTraps s t k.toNat → y.cancels = id :: r →
      exec (.cancelDelivery tl k) s =
        .next (takeTrap (s.setStrandOf t k.toNat { y with cancels := r }) t k.toNat { cause := cCANCEL, tva := id.truncate 56 })) ∧
    (∀ id r, AtBoundary s t k.toNat → y.cancels = id :: r → y.h = true ∨ y.tvec = 0 →
      ∃ s', exec (.cancelDelivery tl k) s = .next s' ∧ SameBytes s s' ∧ (s'.strandOf t k.toNat).state = .ended ∧
        ∀ m, x.team = some m → (s'.tile t).team = some { m with status := if k = 0 then 0xFF else m.status }) ∧
    (∀ (p : BitVec 4), let q := s.partition p.toNat
      let u := if x.fenced then q.word 0 / 2 ^ 14 % 2 ^ 10 else t
      q.sup = some t → x.fenced = true ∨ (s.strandOf t 7).state = .halted → q.pre = .running → q.abandoned = false → q.restarts = [] →
      ∃ s', exec (.supervisorRestart p) s = .next s' ∧ SameBytes s s' ∧ (s'.partition p.toNat).sup = some u ∧ (s'.strandOf u 7).state = .runnable ∧
        (s'.strandOf u 7).pc = BitVec.ofNat 64 (q.word 6 % 2 ^ 48) ∧ (s'.strandOf u 7).reg 1 = BitVec.ofNat 64 (q.word 7) ∧
        (∀ r, r ≠ 1 → (s'.strandOf u 7).reg r = 0) ∧ (s'.partition p.toNat).restarts = [s.cyc]) ∧
    (∀ (p : BitVec 4), let q := s.partition p.toNat
      q.sup = some t → x.fenced = false → (s.strandOf t 7).state = .halted → q.pre = .running →
      16 ≤ (q.restarts.filter fun c => decide (s.cyc < c + clockOf s.opcur.toNat * 10 ^ 6)).length →
      ∃ s', exec (.supervisorRestart p) s = .next s' ∧ SameBytes s s' ∧ (s'.strandOf t 7).state = .halted ∧ (s'.partition p.toNat).abandoned = true) ∧
    (∀ (p : BitVec 4) w a b c, let ring := (s.partition p.toNat).word 9 % 2 ^ 48
      let tail := number (cellGet s.mem) a 4
      let slot := ring + 32 * (tail % 1024)
      Canonical s → (s.partition p.toNat).notices = [w] → (s.partition p.toNat).noteWatch = none → s.resv = [] → WritableAt s p.toNat (ring + 32768) a → WritableAt s p.toNat (ring + 32772) b →
      WritableAt s p.toNat slot c → TablesApart s p.toNat (ring + 32768) c 32 → (tail + 2 ^ 32 - number (cellGet s.mem) b 4) % 2 ^ 32 ≠ 1024 →
      ∃ s', exec (.noticePostRetry p) s = .next s' ∧ (s'.partition p.toNat).notices = [] ∧
        number (cellGet s'.mem) a 4 = (tail + 1) % 2 ^ 32 ∧ ∀ h, cellGet (s'.tile h).spd = cellGet (s.tile h).spd) ∧
    (∀ e rest, HeadWaits s t e rest →
      let o := entryPerf t [] e s
      (∀ n tr, o.fin = .trap n tr → exec (.engineTrap tl) s =
        .next (takeTrap (abandonHead t { e with flags := joinFlags e.flags o.flags } n (keepView t x.ctx o.st)) t 0 tr)) ∧
      (∀ d a m, e.op = .load .unit d a m → maskHeld x.ctx e.op = false → (x.stream a.toNat).isOpen = false →
        (s.strandOf t 0).h = false → (s.strandOf t 0).tvec ≠ 0 → (s.strandOf t 0).state = .runnable →
        ∃ z, exec (.engineTrap tl) s = .next z ∧ SameBytes s z ∧ EnteredHandler s z t 0 { cause := cPROT, sub := 1 } e.pc ∧
          (∀ q ∈ (z.tile t).queue, q.slot ≠ 0) ∧ (z.tile t).ctx.av = x.ctx.av ∧ ∀ g, (z.strandOf t 0).reg g = e.reg g) ∧
      (∀ d, o.fin = .done d → e.op.queue = .vector → ∃ s' e', exec (.vectorEntryPerform tl) s = .next s' ∧ SameBytes o.st s' ∧
        (s'.tile t).queue = e' :: rest ∧ e'.op = e.op ∧ e'.state = .performed ∧ e'.dests = d.dests ∧
        (s'.tile t).ctx = { (o.st.tile t).ctx with av := x.ctx.av, g := x.ctx.g }) ∧
      (registerOnly e.op = true → maskHeld x.ctx e.op = false → ∃ s' e', exec (.vectorEntryPerform tl) s = .next s' ∧ SameBytes s s' ∧
        (s'.tile t).queue = e' :: rest ∧ e'.op = e.op ∧ e'.state = .performed ∧ (s'.tile t).ctx.av = x.ctx.av ∧
        ∀ g, (s'.strandOf t 0).reg g = (s.strandOf t 0).reg g) ∧
      (∀ d, o.fin = .done d → e.op.queue = .matrix → ∃ s' e', exec (.matrixEntryStart tl) s = .next s' ∧ SameBytes o.st s' ∧
        (s'.tile t).queue = e' :: rest ∧ e'.op = e.op ∧ (e'.state = .performed ∨ e'.state = .running 0) ∧
        (s'.tile t).ctx = { (o.st.tile t).ctx with av := x.ctx.av, g := x.ctx.g }) ∧
      (∀ q, e.op = .mzero q → maskHeld x.ctx e.op = false → fabricHoldsQ x.ctx.fabric q.toNat = false →
        ∃ s' e', exec (.matrixEntryStart tl) s = .next s' ∧ SameBytes s s' ∧ (s'.tile t).queue = e' :: rest ∧ e'.op = e.op ∧
          e'.state = .running 0 ∧ sget 0 (s'.tile t).ctx.q q.toNat = 0 ∧ (s'.tile t).ctx.v = x.ctx.v ∧ (s'.tile t).ctx.av = x.ctx.av) ∧
      (∀ d, o.fin = .done d → ((∃ b a c, e.op = .xcopy b a c) ∨ ∃ b a, e.op = .xcopyQ b a) → ∃ s', exec (.copyAccept tl) s = .next s' ∧
        (s'.tile t).queue.length = rest.length ∧ (s'.tile t).ctx.copies = (o.st.tile t).ctx.copies ∧
        (s'.tile t).ctx.xchans = (o.st.tile t).ctx.xchans) ∧
      (∀ d a r n, e.op = .xcopyQ d a → e.slot = 0 → packetCopyRec (e.reg a) (e.reg (a + 1)) = some r → copyTrap s t r = none → r.empty = false →
        nextCopySlot x.ctx = some n → r.out = true ∨ (x.ctx.xchan r.chan).state ≠ .busy →
        ∃ s' c, exec (.copyAccept tl) s = .next s' ∧ SameBytes s s' ∧ (s'.tile t).queue.length = rest.length ∧
          sfind (s'.tile t).ctx.copies n = some c ∧ c.record = r ∧ c.state = .running ∧ c.next = 0 ∧
          (s'.strandOf t 0).reg d = held d (BitVec.ofNat 64 c.ident) ∧ c.ident % 2 ^ 9 = n ∧ c.ident / 2 ^ 16 = r.chan ∧
          ((s'.tile t).ctx.xchan r.chan).state = (if r.out then (x.ctx.xchan r.chan).accepting.state else .busy))) ∧
    (∀ e rest (me : BitVec 1), x.queue = e :: rest → e.state = .running me → (∀ o ∈ rest, o.state ≠ .running me) →
      ∃ s', exec (.matrixEntryComplete tl me) s = .next s' ∧ (s'.tile t).queue = { e with state := .performed } :: rest ∧ SameBytes s s') ∧
    (∀ e rest, x.still = false → x.queue = e :: rest → e.state = .performed → e.dests = [] →
      ∃ s', exec (.engineEntryRetire tl) s = .next s' ∧ (s'.tile t).queue = rest ∧ SameBytes s s' ∧
        (if e.slot = 0 then (s'.tile t).ctx.av.vstart = 0 else (s'.tile t).ctx.av = x.ctx.av) ∧
        ∀ r, (s'.strandOf t 0).reg r = (s.strandOf t 0).reg r)

/-- O49 (R147 to R149, R152, R387): a copy writes its next line, completes, suspends on a page fault or fails, and its event record is
posted when there is room. A copy that fails or is aborted discards its range (log 46). -/
def Obligations.CopyEvents : Prop :=
  ∀ s (tl : BitVec 10) (n : BitVec 9) c,
    let t := tl.toNat
    let slot := n.toNat
    let copies := fun z : State => (z.tile t).ctx.copies
    let part := (s.tile t).part.getD 0
    let q := c.record
    let a := q.memAt (c.next / q.e0) (c.next % q.e0)
    let h := spdTile t q.window q.position
    let off := q.spdAt (c.next / q.e0) (c.next % q.e0)
    let refilled := ∀ k < q.unitBytes, (off + k) / 2048 ∉ (s.tile h).evicted
    let moves := fun z : State => ∃ c', sfind (copies z) slot = some c' ∧ c.next + q.perUnit ≤ c'.next ∧ c.moved ≤ c'.moved ∧
      c'.record = q ∧ c'.state = .running
    Keyed (copies s) → sfind (copies s) slot = some c → (s.tile t).still = false → (∀ e ∈ (s.tile t).queue, e.op.queue ≠ .transfer) →
    (∀ s1, c.state = .running → c.finished = false → copyStep t slot s = .ok () s1 → ∃ z, exec (.copyLineWrite tl n) s = .next z ∧ moves z) ∧
    (∀ l, c.state = .running → c.finished = false → c.out = false → a < 2 ^ 48 → a % 128 + q.unitBytes ≤ 128 → probe s part a .read = .ok l →
      s.resv = [] → refilled → pinners s h off q.unitBytes = [] →
      ∃ z, exec (.copyLineWrite tl n) s = .next z ∧ moves z) ∧
    (c.state = .running → c.finished = true → ∃ z, exec (.copyComplete tl n) s = .next z ∧ SameBytes s z ∧
      (∀ c', sfind (copies z) slot = some c' → c'.state = .complete) ∧
      (c.ev = false → sfind (copies z) slot = none) ∧
      (c.ev = true → (s.tile t).ctx.deferred = [] → (s.tile t).ctx.events.length < 64 →
        ∃ r, (z.tile t).ctx.events = (s.tile t).ctx.events ++ [r] ∧ r.2 = 0 ∧
          r.1.toNat = c.ident % 2 ^ 20 + 2 ^ 32 * (c.moved % 2 ^ 31) + 2 ^ 63)) ∧
    (∀ tr s1, c.state = .running → c.finished = false → copyStep t slot s = .error (.trap tr) s1 → tr.cause = cPAGE →
      ∃ z c' l, exec (.copyPageFault tl n) s = .next z ∧ sfind (copies z) slot = some c' ∧ c'.state = .suspended l ∧ c'.cause = cPAGE ∧
        c'.sub = tr.sub ∧ c'.fault = tr.tva.toNat ∧ c'.next = c.next ∧ l ∈ z.resWatches) ∧
    (∀ f, c.state = .running → c.finished = false → c.out = false → c.next % q.e0 < q.limit → a < 2 ^ 48 → probe s part a .read = .error f →
      f.cause = cPAGE → refilled → ∃ z c', exec (.copyPageFault tl n) s = .next z ∧ sfind (copies z) slot = some c' ∧
        c'.state = .suspended (f.entry / 128) ∧ c'.cause = cPAGE ∧ c'.sub = f.sub ∧ c'.fault = a ∧ c'.next = c.next ∧
        f.entry / 128 ∈ z.resWatches) ∧
    (∀ tr s1, c.state = .running → c.finished = false → copyStep t slot s = .error (.trap tr) s1 → tr.cause ≠ cPAGE →
      ∃ z, exec (.copyPageFault tl n) s = .next z ∧ (∀ c', sfind (copies z) slot = some c' → c'.state = .failed) ∧
        ((z.tile t).ctx.xchan c.chan).state = .failed) ∧
    ((s.tile t).ctx.deferred.head? = some slot → (s.tile t).ctx.events.length < 64 →
      ∃ z, exec (.eventPostDeferred tl n) s = .next z ∧ SameBytes s z ∧
        (z.tile t).ctx.events = (s.tile t).ctx.events ++ [eventRecord c] ∧ sfind (copies z) slot = none ∧
        (z.tile t).ctx.deferred = (s.tile t).ctx.deferred.tail)

/-- O50 (R62, R90, R180, R185, R323, R445): a team starts with its strands and registers as R62 gives them and its stripes zeroed;
helpers end with their lead; a team whose strands have all ended leaves its tile, and keeps its footprint while a copy of it runs, which
goes on without an event record. Which registers a start leaves as they are, and what becomes of a copy that outlives its team, is the
model's reading (logs 80 and 142). -/
def Obligations.TeamEvents : Prop :=
  ∀ s (tl : BitVec 10),
    let t := tl.toNat
    (∀ (p : BitVec 4) c l b, launchOf s p.toNat c = some l → l.record.cs = false → l.record.fcfg = 0 → startBase s p.toNat l t = some b →
      startsFirst s p.toNat l t = true →
      let r := l.record
      ∃ z, exec (.teamStart p c tl) s = .next z ∧
        (∃ m, (z.tile t).team = some m ∧ m.cid = l.cid ∧ m.ns = r.ns ∧ m.prio = r.prio ∧ m.index = t - r.first) ∧
        (∀ k, k ≤ r.ns → (z.strandOf t k).state = .runnable ∧
          (z.strandOf t k).pc = BitVec.ofNat 64 (if k = 0 then r.entry else r.helper) ∧ (z.strandOf t k).h = false ∧
          (z.strandOf t k).reg 1 = l.arg ∧ (z.strandOf t k).reg 2 = BitVec.ofNat 64 (2048 * b) ∧
          (z.strandOf t k).reg 3 = BitVec.ofNat 64 ((t - r.first) * 8 + k) ∧
          (z.strandOf t k).reg 30 = BitVec.ofNat 64 (if r.stack = 0 then 0 else r.stack + ((t - r.first) * 8 + k + 1) * r.sbytes) ∧
          ∀ g, g ∉ [1, 2, 3, 30] → (z.strandOf t k).reg g = 0) ∧
        (z.tile t).ctx.v = [] ∧ (z.tile t).ctx.q = [] ∧ (z.tile t).ctx.streams = [] ∧ (∀ q ∈ (z.tile t).queue, r.ns < q.slot) ∧
        (∀ a, 2048 * b ≤ a → a < 2048 * (b + r.stripes) → cellGet (z.tile t).spd a = 0) ∧ (∀ a, cellGet z.mem a = cellGet s.mem a) ∧
        ∀ l' ∈ (z.partition p.toNat).launches, l'.cid = c → t ∉ l'.pending) ∧
    (∀ (p : BitVec 4) c l b, launchOf s p.toNat c = some l → startBase s p.toNat l t = some b →
      (startsFirst s p.toNat l t = false → exec (.teamStart p c tl) s = .next s) ∧
      ((∀ u ∈ startGroup l t, startsFirst s p.toNat l u = true) →
        (∀ u tr, startTeams l b s (startGroup l t) = .error (u, .trap tr) → exec (.teamStart p c tl) s = .next (imageFails p.toNat l u tr s)) ∧
        (∀ w s', startTeams l b s (startGroup l t) = .ok s' → w ∈ startGroup l t →
          ∃ z, exec (.teamStart p c tl) s = .next z ∧ z.tiles = s'.tiles ∧ z.mem = s'.mem ∧
            ∀ l' ∈ (z.partition p.toNat).launches, l'.cid = c → w ∉ l'.pending))) ∧
    (∀ (k : BitVec 3) m, (s.tile t).team = some m → (s.tile t).still = false → k ≠ 0 → k.toNat ≤ m.ns → (s.strandOf t 0).state = .ended →
      (s.strandOf t k.toNat).state ≠ .halted → ∃ z, exec (.helperEnd tl k) s = .next z ∧ (z.strandOf t k.toNat).state = .ended ∧ SameBytes s z) ∧
    (∀ m p, (s.tile t).team = some m → (s.tile t).part = some p → (s.tile t).still = false → (s.tile t).teamEnded = true →
      rollbackPending s t = false →
      ∃ z, exec (.teamExit tl) s = .next z ∧ (z.tile t).team = none ∧ (∀ q ∈ (z.tile t).queue, m.ns < q.slot) ∧
        (∀ k, k ≤ m.ns → (z.strandOf t k).state = .free) ∧
        (∀ a, cellGet (z.tile t).spd a = cellGet (s.tile t).spd a) ∧
        ((s.partition p).graphs = [] → let v := (s.partition p).counter m.cid
          ((z.partition p).counter m.cid).exited = v.exited + 1 ∧ ((z.partition p).counter m.cid).xst = if v.xst = 0 then m.status else v.xst) ∧
        ((s.tile t).saved = none → (s.tile t).backing = none → Keyed (s.tile t).ctx.copies → (s.tile t).ctx.deferred = [] →
          ((∀ q ∈ (s.tile t).ctx.copies, q.2.active = false ∧ q.2.posting = false) →
            ∀ r ∈ (z.tile t).regions, r.cluster = false → r.owner ≠ .launch m.cid) ∧
          (∀ n k, sfind (s.tile t).ctx.copies n = some k → k.state = .running →
            sfind (z.tile t).ctx.copies n = some { k with ev := false } ∧
            (k.cid = m.cid → ∀ r ∈ (s.tile t).regions, r.owner = .launch m.cid → r ∈ (z.tile t).regions))))

/-- O51 (R220, R243, R276, R336, R386): a position takes its new image, a late firing frees its spill entries, a written table line
wakes the copies that watch it, and an element reaches its channel. That links move their tokens at once, and the order of the elements
of one cycle, are the model's choice (logs 37, 60). -/
def Obligations.FabricAndStreamEvents : Prop :=
  ∀ s (tl : BitVec 10) (e : BitVec 6),
    let t := tl.toNat
    let f := (s.tile t).ctx.fabric
    let p := posAt s t e.toNat
    (∀ a m, (s.tile t).still = false → f.code = 2 ∨ f.code = 5 → f.next = some (a, m) → mayTurn f e.toNat p = true →
      (sfind f.pos e.toNat).isSome = true → m.elem e.toNat ≠ 0 →
      ∃ z, exec (.fabricPositionSwitch tl e) s = .next (updCtx t settle z) ∧ SameBytes s z ∧ (posAt z t e.toNat).gen = f.gen + 1 ∧
        (posAt z t e.toNat).word = m.elem e.toNat ∧ (posAt z t e.toNat).ins = [] ∧
        ∀ o ∈ linkedOut s t e.toNat, ∃ x, sfind (posAt z t e.toNat).outs o = some x ∧ x.kind = .switch) ∧
    ((s.tile t).still = false → mayFire f e.toNat = true → (∀ n ∈ f.spill, n.again = false) → f.outsFree e.toNat p = true →
      gateOk (s.tile t) e.toNat = true → ∀ o, lateReady f e.toNat p = some o →
      let freed := fun z : State => ∀ n ∈ (z.tile t).ctx.fabric.spill, ¬ (n.dst = e.toNat ∧ n.gen = p.gen ∧ n.ord = o)
      let val := lateValue p (lateValues f e.toNat p o)
      (∀ outs s1, compute t e.toNat p (val 0) (val 1) 0 s = .emit s1 outs → accessHeld f e.toNat p (val 0) = false →
        ∃ z, exec (.lateFiring tl e) s = .next z ∧ SameBytes s1 z ∧ freed z) ∧
      (eOp p.word = 27 ∨ eOp p.word = 35 → ∃ z, exec (.lateFiring tl e) s = .next (updCtx t settle z) ∧ SameBytes s z ∧ freed z ∧
        (eOp p.word = 27 → (posAt z t e.toNat).s0 = p.s0 + 1))) ∧
    (∀ (l : BitVec 49) h k c, l.toNat ∈ s.resWritten → (∀ x ∈ (s.tile h).queue, x.op.queue ≠ .transfer) → (s.tile h).ctx.deferred = [] →
      sfind (s.tile h).ctx.copies k = some c → c.state = .suspended l.toNat → c.posting = false →
      ∃ z c', exec (.resolutionWatchWrite l) s = .next z ∧ sfind (z.tile h).ctx.copies k = some c' ∧ c'.state = .running ∧ c'.next = c.next) ∧
    (∀ (u : BitVec 10) x r, s.flight = x :: r → x.src = u.toNat → x.dst = t → (∀ m ∈ s.markers, ¬ (m.src = u.toNat ∧ m.dst = t)) →
      (s.tile t).saved = none → (s.tile t).backing = none →
      let c := (s.tile t).chan x.elem.ch.toNat
      ∃ z, exec (.streamElementArrival tl u) s = .next z ∧ SameBytes s z ∧ z.flight = r ∧
        (x.elem.ccGood = true → c.enabled = true → c.queue.length < c.depth →
          ((z.tile t).chan x.elem.ch.toNat).queue = c.queue ++ [{ x.elem with time := s.cyc }] ∧
          ((z.tile t).chan x.elem.ch.toNat).loss = c.loss) ∧
        (x.elem.ccGood = true → c.enabled = true → c.depth ≤ c.queue.length → c.lossless = false →
          ((z.tile t).chan x.elem.ch.toNat).queue = c.queue.dropLast ++ [{ x.elem with time := s.cyc }] ∧
          ((z.tile t).chan x.elem.ch.toNat).loss = Min.min (c.loss + 1) 0xFFFF) ∧
        (x.elem.ccGood = true → c.enabled = true → c.depth ≤ c.queue.length → c.lossless = true → c.withheld = none →
          ((z.tile t).chan x.elem.ch.toNat).queue = c.queue.dropLast ++ [{ x.elem with time := s.cyc }] ∧
          ((z.tile t).chan x.elem.ch.toNat).withheld = some (c.queue.length - 1) ∧ (z.tile t).rollback.isSome = true ∧
          ∀ n l, sfind (s.tile t).ctx.loops n = some l → l.bound = true → fld l.w0 4 5 = x.elem.ch.toNat → ((z.tile t).loop n).lossFrozen = true) ∧
        (x.elem.ccGood = true → c.enabled = false →
          ((z.tile t).chan x.elem.ch.toNat).queue = c.queue ∧ ((z.tile t).chan x.elem.ch.toNat).loss = Min.min (c.loss + 1) 0xFFFF) ∧
        (x.elem.ccGood = false →
          ((z.tile t).chan x.elem.ch.toNat).queue = c.queue ∧ ((z.tile t).chan x.elem.ch.toNat).loss = Min.min (c.loss + 1) 0xFFFF ∧
          ∀ p, (s.tile t).part = some p → ∃ w, (z.partition p).errlog.getLast? = some w ∧ w.1.toNat % 16 = 2 ∧ w.1.toNat / 16 % 256 = 5))

/-- O52 (R282 to R287, R292, R294, R296, R302, R443, Table 15.2): line requests, probes and evictions change the holders of a line as
Table 15.2 says and no byte; registrations, splits and releases of reservations. Where a line that leaves its reservation would drive
another out, it is evicted at once (log 113); an event whose condition does not hold changes nothing (log 122). -/
def Obligations.CoherenceEvents : Prop :=
  ∀ s (tl : BitVec 10) (l : BitVec 49),
    let t := tl.toNat
    let holders := fun z : State => sget [] z.lines l.toNat
    (∀ w : BitVec 1, (s.tile t).still = false → s.resv = [] → ∃ z, exec (.lineRequest tl l w) s = .next z ∧ SameBytes s z ∧
      (w = 1 → holders z = [(t, .m)]) ∧
      (w = 0 → (∀ x, sfind (holders s) t = some x → holders z = holders s) ∧
        (holders s = [] → (∀ u, u ≠ t → (s.tile u).keepsXlat l.toNat = false) → holders z = [(t, .e)]) ∧
        (sfind (holders s) t = none → holders s ≠ [] → sfind (holders z) t = some .s ∧
          ∀ u x, u ≠ t → sfind (holders s) u = some x → sfind (holders z) u = some (if x = .m ∨ x = .o then .o else .s)))) ∧
    (∀ x, sfind (holders s) t = some x → Keyed (holders s) → Keyed s.lines →
      let others := fun z : State => ∀ u, u ≠ t → sfind (holders z) u = sfind (holders s) u
      (∃ z, exec (.probeShared tl l) s = .next z ∧ SameBytes s z ∧ sfind (holders z) t = some (if x = .m ∨ x = .o then .o else .s) ∧ others z) ∧
      (∃ z, exec (.probeInvalidate tl l) s = .next z ∧ SameBytes s z ∧ (z.tile t).keepsXlat l.toNat = false ∧
        (∀ e ∈ z.resv, e.owner = t → l.toNat ∉ e.walked) ∧ (s.resv = [] → sfind (holders z) t = none ∧ others z)) ∧
      (s.resv = [] → ∃ z, exec (.lineEviction tl l) s = .next z ∧ SameBytes s z ∧ sfind (holders z) t = none ∧ z.resv = [] ∧ others z ∧
        ∀ k y, sfind (s.tile t).ctx.strands k = some y → y.watch = some l → (z.strandOf t k).written = true)) ∧
    (2 ^ 39 ≤ l.toNat * 128 → ∃ z, exec (.backInvalidateSnoop l) s = .next z ∧ SameBytes s z ∧
      (∀ u, (z.tile u).keepsXlat l.toNat = false ∧ sfind (z.tile u).rmask l.toNat = none) ∧
      (s.resv = [] → Keyed (holders s) → Keyed s.lines → holders z = [])) ∧
    ((s.tile t).team = none → ∃ z, exec (.tileCacheRetention tl) s = .next z ∧ SameBytes s z ∧ t ∈ z.retained) ∧
    (∀ (k : BitVec 4) r lf, let st := (s.tile t).stream k.toNat
      let part := (s.tile t).part.getD 0
      let base := fun va : Nat => va / 2 ^ lf.bits * 2 ^ lf.bits
      let entered := fun (z : State) (lo n : Nat) => (lf.pte / 2 ^ 5 % 2 = 1 → SameBytes s z) ∧ (∀ h, cellGet (z.tile h).spd = cellGet (s.tile h).spd) ∧
        ∃ e ∈ z.resv, e.rid = r ∧ e.owner = t ∧ e.vlo = lo ∧ e.lo = leafAddress s part lf lo ∧ e.hi = e.lo + n ∧
          e.write = st.intent.getLsbD 1 ∧ e.pol = st.pol ∧ e.state = .granted
      st.rid = some r → st.isOpen = true → s.resv = [] → sfind s.cuts r = none → (s.partition part).mig = none →
      (walk s part st.addr.toNat = .ok lf → 0 < st.ext.toNat → st.addr.toNat + st.ext.toNat ≤ base st.addr.toNat + 2 ^ lf.bits →
        ∃ z, exec (.reservationRegistration tl k) s = .next z ∧ entered z st.addr.toNat st.ext.toNat) ∧
      (∀ g : BitVec 36, let va := Max.max (4096 * g.toNat) st.addr.toNat
        let lo := Max.max (base va) st.addr.toNat
        va < 4096 * g.toNat + 4096 → va < st.addr.toNat + st.ext.toNat → walk s part va = .ok lf →
        ∃ z, exec (.reservationPageRegister tl k g) s = .next z ∧
          entered z lo (Min.min (base va + 2 ^ lf.bits) (st.addr.toNat + st.ext.toNat) - lo))) ∧
    (∀ (i : BitVec 14) e, s.resv[i.toNat]? = some e →
      (e.pol = 2 → e.state = .granted → ∃ z, exec (.splitProbe i) s = .next z ∧ SameBytes s z ∧
        z.resv[i.toNat]? = some { e with state := .splitting, answer := some (s.edgeNow e) }) ∧
      (e.state = .releasing → ∃ z, exec (.reservationRelease i) s = .next z ∧ SameBytes s z ∧ e ∉ z.resv)) ∧
    (∀ e, let left := fun (z : State) (edge : Nat) => ∀ n, e.covers n = true → (e.applyCut (splitCut e edge)).covers n = false →
        if e.write then sget [] z.lines n = [(e.owner, .m)] else sfind (sget [] z.lines n) e.owner = some .s
      s.resv = [e] → e.lo < e.hi → e.hi ≤ e.lo / 128 * 128 + 65536 → e.state ≠ .pending → s.dir.length + 512 ≤ 262144 →
      (∀ n, e.covers n = true → hasWay e.owner n s = true) →
      (∀ c, e.answer = some c → ∃ z, exec (.splitAnswer 0) s = .next z ∧ SameBytes s z ∧ left z c) ∧
      (e.pol = 2 → e.state = .granted → ∃ z, exec (.positionReport 0) s = .next z ∧ SameBytes s z ∧ left z (s.edgeNow e)) ∧
      (∀ r, e.owner = t → e.pol = 2 → e.write = true → r ∈ s.rels → r.tile = t → overlaps (128 * l.toNat) 128 r.addr r.size = true →
        e.rid ∈ r.under → ∃ z, exec (.forwardedAcquire tl l) s = .next z ∧ SameBytes s z ∧ left z (s.edgeNow e)))

/-- O53 (R266, R312 to R314, R326, R432, R433): an outside agent reaches lent memory, and peer and pool memory that a window shows; a
migration's request, its start and its lines with what the device writes into the mailbox; a pool that is re-opened. The guards of an
outside agent's access are the model's reading (logs 94 to 96). -/
def Obligations.MemoryEvents : Prop :=
  ∀ s,
    (∀ (a : BitVec 56) (n : BitVec 2), let b := a.toNat
      let k := 2 ^ n.toNat
      let shown := 2 ^ 39 ≤ b ∧ inWindow s b k = true ∧ isRevoked s b k = false
      (s.linkUp = false → exec (.externalRead a n) s = .next s ∧ ∀ v, exec (.externalWrite a n v) s = .next s) ∧
      (b % k ≠ 0 → exec (.externalRead a n) s = .next s ∧ ∀ v, exec (.externalWrite a n v) s = .next s) ∧
      (s.linkUp = true → b % k = 0 →
        (outsideReach s b k = true ∨ (beingRevoked s b k = false ∧ shown) → s.resv = [] →
          ∃ z, exec (.externalRead a n) s = .next z ∧ SameBytes s z ∧ z.extData = BitVec.ofNat 64 (number (cellGet s.mem) b k) ∧
            z.extPoison = s.poisoned (b / 64)) ∧
        (outsideReach s b k = false → beingRevoked s b k = true → ∃ z, exec (.externalRead a n) s = .next z ∧ SameBytes s z ∧ z.extPoison = true) ∧
        (outsideReach s b k = false → beingRevoked s b k = false → ¬ shown → exec (.externalRead a n) s = .next s) ∧
        (outsideReach s b k = true ∨ shown → s.resv = [] → Canonical s → ∀ v : BitVec 64, ∃ z, exec (.externalWrite a n v) s = .next z ∧
          (∀ x, cellGet z.mem x = stored (cellGet s.mem) b k v.toNat x) ∧ ∀ h x, cellGet (z.tile h).spd x = cellGet (s.tile h).spd x) ∧
        (outsideReach s b k = false → ¬ shown → ∀ v, exec (.externalWrite a n v) s = .next s))) ∧
    (∀ (p : BitVec 4) pa w, Mailbox s p.toNat pa w →
      let x := s.partition p.toNat
      let reply := fun (z : State) (st fail cause : Nat) => number (cellGet z.mem) (pa + 24) 8 = w 3 % 4 + 2 ^ 8 * st + 2 ^ 10 * fail + 2 ^ 16 * cause
      (x.mig = none → x.armSeen = false → w 3 % 2 = 1 →
        (migLegal x (w 0) (w 1) (w 2) (w 3) = true → ∃ z g, exec (.migrationArm p) s = .next z ∧ (z.partition p.toNat).mig = some g ∧
          g.old = w 0 / 2 ^ 12 % 2 ^ 44 * 4096 ∧ g.new = w 1 / 2 ^ 12 % 2 ^ 44 * 4096 ∧ g.ptr = 0 ∧ g.phase = 1 ∧ g.failed = false ∧
          number (cellGet z.mem) (pa + 16) 8 = 0 ∧ reply z 1 0 0) ∧
        (migLegal x (w 0) (w 1) (w 2) (w 3) = false → ∃ z, exec (.migrationArm p) s = .next z ∧ (z.partition p.toNat).mig = none ∧ reply z 0 1 1)) ∧
      (∀ g, x.mig = some g → g.phase = 1 → g.ptr = 0 → w 3 / 2 % 2 = 1 →
        ∃ z, exec (.migrationStart p) s = .next z ∧ (z.partition p.toNat).mig = some { g with phase := 2 } ∧ reply z 2 0 0) ∧
      (∀ g, x.mig = some g → g.phase = 2 → g.failed = false → g.ptr < 2 ^ g.size → g.ptr % 128 = 0 → 12 ≤ g.size → g.size ≤ 30 →
        TablesApart s p.toNat (migBox x) g.old (2 ^ g.size) → TablesApart s p.toNat (migBox x) g.new (2 ^ g.size) →
        let a := g.old + g.ptr
        let b := g.new + g.ptr
        let last := g.ptr + 128 = 2 ^ g.size
        (isRevoked s a 128 = false → isRevoked s b 128 = false → (addressClass s a).isSome = true → (addressClass s b).isSome = true →
          pa + 32 ≤ b ∨ b + 128 ≤ pa →
          ∃ z, exec (.migrationLineCopy p) s = .next z ∧
            (z.partition p.toNat).mig = some { g with ptr := g.ptr + 128, phase := if last then 3 else 2 } ∧
            (∀ i < 128, cellGet z.mem (b + i) = cellGet s.mem (a + i)) ∧
            (a + 128 ≤ b ∨ b + 128 ≤ a → pa + 32 ≤ a ∨ a + 128 ≤ pa → ∀ i < 128, cellGet z.mem (a + i) = cellGet s.mem (a + i)) ∧
            number (cellGet z.mem) (pa + 16) 8 = g.ptr + 128 ∧ (last → reply z 3 0 0)) ∧
        (isRevoked s a 128 = true ∨ isRevoked s b 128 = true → ∃ z, exec (.migrationLineCopy p) s = .next z ∧
          (z.partition p.toNat).mig = some { g with failed := true } ∧ reply z 2 1 0x0B) ∧
        (isRevoked s a 128 = false → isRevoked s b 128 = false → addressClass s a = none ∨ addressClass s b = none →
          ∃ z, exec (.migrationLineCopy p) s = .next z ∧ (z.partition p.toNat).mig = some { g with failed := true } ∧ reply z 2 1 0x08))) ∧
    (∀ (p : BitVec 4) (k : BitVec 8), let x := s.partition p.toNat
      ∃ z, exec (.poolWordObserved p k) s = .next z ∧ SameBytes s z ∧
        (∀ l, let va := x.word 11 % 2 ^ 48 + 32 * k.toNat + 16
          probe s p.toNat va .read = .ok l → sfind (z.partition p.toNat).poolAt k.toNat = some (leafAddress s p.toNat l va)) ∧
        (k.toNat ∈ x.reopened → Keyed x.accounts → k.toNat ∉ (z.partition p.toNat).reopened ∧
          ∀ h, (z.partition p.toNat).account k.toNat h = 0) ∧
        (k.toNat ∉ x.reopened → (z.partition p.toNat).accounts = x.accounts))

/-- O54 (R388 to R393, R400, R401, R428, Table 21.7): a partition is pre-empted, saved and resumed; a context and stripes go to the
backing area and come back; marker notices and snapshots. The words in which a moved context stands are the model's choice (log 99). -/
def Obligations.PreemptionEvents : Prop :=
  ∀ s (tl : BitVec 10),
    let t := tl.toNat
    let x := s.tile t
    (∀ p : BitVec 4, McFree s →
      let q := s.partition p.toNat
      (q.sup.isSome = true → q.pre = .running → ∃ z, exec (.partPreempt p) s = .next z ∧
        (z.partition p.toNat).pre = .halting ∧ z.tiles = s.tiles ∧ SameBytes s z) ∧
      (q.sup = none ∨ q.pre ≠ .running → Answers (.partPreempt p) s 4 fun z => z.parts = s.parts ∧ z.tiles = s.tiles) ∧
      (steppingDown s = true → ∃ z, exec (.partResume p) s = .next z ∧ z.commands = [.partResume p] ∧ z.parts = s.parts ∧ z.tiles = s.tiles) ∧
      (steppingDown s = false →
        (q.sup = none ∨ q.pre ≠ .saved → Answers (.partResume p) s 4 fun z => z.parts = s.parts ∧ z.tiles = s.tiles) ∧
        (q.sup.isSome = true → q.pre = .saved → (partTiles s p.toNat).all (stripesFit s) = true →
          ∃ z, exec (.partResume p) s = .next z ∧ (z.partition p.toNat).pre = .resuming ∧ z.tiles = s.tiles ∧ SameBytes s z) ∧
        (q.sup.isSome = true → q.pre = .saved → (partTiles s p.toNat).all (stripesFit s) = false →
          Answers (.partResume p) s 3 fun z => z.parts = s.parts ∧ z.tiles = s.tiles))) ∧
    (∀ p, x.part = some p →
      ((s.partition p).pre = .halting → x.still = false → rollbackPending s t = false → ∃ z, exec (.tileHalt tl) s = .next z ∧
        (z.tile t).halted = true ∧ (x.queue = [] → (z.tile t).ctx.v = x.ctx.v ∧ (z.tile t).ctx.q = x.ctx.q)) ∧
      (x.halted = true → x.saved = none → x.backing = none → ∃ z c, exec (.contextSwapOut tl) s = .next z ∧ SameBytes s z ∧
        (z.tile t).saved = some c ∧ c.v = x.ctx.v ∧ c.q = x.ctx.q ∧ c.av = x.ctx.av ∧ c.fabric = x.ctx.fabric ∧ c.copies = x.ctx.copies ∧
        (∀ k r, (sget {} c.strands k).reg r = (s.strandOf t k).reg r) ∧
        ∀ k y, sfind x.ctx.strands k = some y → (sget {} c.strands k).written = true) ∧
      (∀ c, x.saved.or x.backing = some c → x.halted = true → (s.partition p).pre = .resuming → x.queue = [] → rollbackPending s t = false →
        ∃ z, exec (.contextRestore tl) s = .next z ∧ (z.tile t).halted = false ∧ (z.tile t).saved = none ∧ (z.tile t).backing = none ∧
          (z.tile t).ctx.v = c.v ∧ (z.tile t).ctx.q = c.q ∧ (z.tile t).ctx.av = c.av ∧
          ∀ k l, sfind c.loops k = some l → l.live = true → ∃ m ∈ z.rates, m.ctile = t ∧ m.loop = k ∧ m.weight = l.wp) ∧
      (∀ (n : BitVec 11) (pa : Nat → Nat), let va := backingBase s p t + 0x100000 + 2048 * n.toNat
        ((s.partition p).pre = .saved → x.halted = true → x.stripeTaken n.toNat = true → n.toNat ∉ x.evicted → WordsWritable s p va 256 pa →
          ∃ z, exec (.stripeEviction tl n 0) s = .next z ∧ n.toNat ∈ (z.tile t).evicted ∧
            (∀ a, cellGet (z.tile t).spd a = if a / 2048 = n.toNat then 0 else cellGet x.spd a) ∧
            ∀ i < 256, number (cellGet z.mem) (pa i) 8 = number (cellGet x.spd) (2048 * n.toNat + 8 * i) 8) ∧
        (x.still = false → n.toNat ∈ x.evicted → s.resv = [] → Canonical s → (∀ i < 256, ReadableAt s p (va + 8 * i) (pa i)) →
          ∃ z, exec (.stripeRefill tl n 0) s = .next z ∧ n.toNat ∉ (z.tile t).evicted ∧ (∀ a, cellGet z.mem a = cellGet s.mem a) ∧
            (∀ i k, i < 256 → k < 8 → cellGet (z.tile t).spd (2048 * n.toNat + 8 * i + k) = cellGet s.mem (pa i + k)) ∧
            ∀ a, a / 2048 ≠ n.toNat → cellGet (z.tile t).spd a = cellGet x.spd a)) ∧
      (∀ c, x.saved = some c → x.backing = none → ∃ z, exec (.contextMove tl) s = .next z ∧ (z.tile t).saved = none ∧
        (z.tile t).backing = some c ∧ (∀ h a, cellGet (z.tile h).spd a = cellGet (s.tile h).spd a) ∧
        ∀ pa, WordsWritable s p (backingBase s p t) (ctxWords c).length pa →
          ∀ i < (ctxWords c).length, number (cellGet z.mem) (pa i) 8 = (ctxWords c).getD i 0 % 2 ^ 64)) ∧
    (∀ (u : BitVec 10) m r, s.markers = m :: r → m.src = u.toNat → m.dst = t → m.ahead = 0 → ∃ z, exec (.markerNoticeArrival tl u) s = .next z ∧
      SameBytes s z ∧ z.markers = r ∧ sfind (z.tile t).marked u.toNat = some m.wave) ∧
    (∀ m p w, x.team = some m → x.part = some p → dueWave s t = some w → x.still = false → rollbackPending s t = false →
      ∃ z, exec (.snapshot tl) s = .next z ∧ (z.tile t).wave = some w ∧
        (∃ c, (z.tile t).snaps.head? = some (w, c) ∧ c.v = (z.tile t).ctx.v ∧ c.q = (z.tile t).ctx.q) ∧
        ∀ k st, sfind x.ctx.streams k = some st → st.isOpen = true → st.kind = 4 → sameRegion s t st.dtile.toNat = true →
          ∃ n ∈ z.markers, n.src = t ∧ n.dst = st.dtile.toNat ∧ n.wave = w)

/-- O55 (R395, R396, R403 to R408, R413, R430): an error that no team's strand consumes becomes its `MCHK`; a rollback takes the teams
of the region back to the wave, and one that is given up leaves its record; links, scrubs, failed channels and fences leave theirs. The
classes of the records of links and fences, and the ports that a device has, are the model's reading (logs 111, 112 and 147). -/
def Obligations.ReliabilityEvents : Prop :=
  ∀ s (tl : BitVec 10) (k : BitVec 3),
    let t := tl.toNat
    let x := s.tile t
    let y := s.strandOf t k.toNat
    let lone := fun n : Nat => x.team = none ∧ x.saved = none ∧ x.backing = none ∧ (s.strandOf t n).state = .runnable
    let logged := fun (z : State) (p cls src : Nat) => ∃ r, (z.partition p).errlog.getLast? = some r ∧ r.1.toNat % 16 = cls ∧ r.1.toNat / 16 % 256 = src
    (∀ (g : BitVec 50) (src : BitVec 8), lone k.toNat → ∃ z, exec (.errorConsumed tl k g src) s = .next z ∧ SameBytes s z ∧
      (z.strandOf t k.toNat).traps = y.traps ++ [{ cause := cMCHK, tva := BitVec.ofNat 56 (64 * g.toNat) }] ∧
      ∀ p, x.part = some p → logged z p 3 src.toNat) ∧
    (lone k.toNat → ∃ z, exec (.cxlCompletionTimeout tl k) s = .next z ∧ SameBytes s z ∧
      (z.strandOf t k.toNat).traps = y.traps ++ [{ cause := cMCHK }] ∧ ∀ p, x.part = some p → logged z p 3 4) ∧
    (∀ src a v m p, x.rollback = some (src, a) → x.team = some m → x.part = some p → regionWave s t = some v →
      (rollbackOk s t v = true → ∃ z, exec (.rollback tl) s = .next z ∧ ∀ u ∈ regionTeams s t, (z.tile u).wave = some v ∧
        ∀ n e, (s.tile u).team = some n → e ∈ (z.tile u).queue → n.ns < e.slot) ∧
      (rollbackOk s t v = false → exec (.rollback tl) s = .next (uncontained t src.toNat a (s.setTile t { x with rollback := none })))) ∧
    (∀ src a p, x.rollback = some (src, a) → x.part = some p → x.team = none → ∃ z, exec (.rollback tl) s = .next z ∧ SameBytes s z ∧
      (z.tile t).rollback = none ∧ logged z p 3 src.toNat) ∧
    (∀ n : BitVec 16, ∃ z, exec (.permitAudit n) s = .next z ∧ SameBytes s z ∧ z.tiles = s.tiles ∧ z.parts = s.parts ∧
      (n = 0 → z = s) ∧ (n ≠ 0 → ∃ r, z.errlog.getLast? = some r ∧ r.1.toNat % 16 = 4 ∧ r.2.2.2 = n.zeroExtend 64)) ∧
    (∀ n : BitVec 4, ∀ p, x.part = some p →
      (n.toNat ≤ 8 → ∃ z, exec (.flitCrcRetry tl n) s = .next z ∧ SameBytes s z ∧ z.tiles = s.tiles ∧ logged z p 0 2) ∧
      (8 < n.toNat → lone 0 → ∃ z, exec (.flitCrcRetry tl n) s = .next z ∧ SameBytes s z ∧
        (z.strandOf t 0).traps = (s.strandOf t 0).traps ++ [{ cause := cMCHK }] ∧ logged z p 3 2)) ∧
    (∀ (n : BitVec 4) (ok : BitVec 1), ∃ z, exec (.ucieLaneRepair n ok) s = .next z ∧ SameBytes s z ∧ z.tiles = s.tiles ∧
      (ok = 0 → n.toNat ∈ z.ucieDown) ∧ (ok = 1 → z.ucieDown = s.ucieDown)) ∧
    (∀ (g : BitVec 50) (b : BitVec 2), ∃ z, exec (.patrolScrub g b) s = .next z ∧ SameBytes s z ∧ z.tiles = s.tiles ∧
      (b = 0 → z = s) ∧ (b = 1 → z.poison = s.poison) ∧ (2 ≤ b.toNat → g.toNat ∈ z.poison) ∧
      ∀ p, ownerOf s (64 * g.toNat) = some p → b ≠ 0 → logged z p (if b = 1 then 0 else 1) 1) ∧
    (∃ z, exec (.tileFence tl) s = .next z ∧ (z.tile t).fenced = true ∧ SameBytes s z ∧
      ∀ p l, x.part = some p → l ∈ (s.partition p).launches → t ∈ l.pending → (s.partition p).graphs = [] → (s.partition p).stale l.cid = false →
        ((z.partition p).counter l.cid).can = true) ∧
    (∀ c : BitVec 8, ∃ z, exec (.hbmChannelFailure c) s = .next z ∧ SameBytes s z ∧ z.tiles = s.tiles ∧ c.toNat ∈ z.hbmDown) ∧
    (∀ (n : BitVec 4) (w : BitVec 5) (ok : BitVec 1), Keyed s.ports → ∃ z, exec (.linkTraining n w ok) s = .next z ∧ SameBytes s z ∧ z.tiles = s.tiles ∧
      (8 < n.toNat → z = s) ∧
      (n.toNat ≤ 8 → sfind z.ports n.toNat = if ok = 1 ∧ (w = 16 ∨ (n = 0 ∧ (w = 4 ∨ w = 8))) then some w.toNat else none))

/-- O56 (R194, R420, R421, R423 to R429): the stages of an operating-point step, and a char map refresh. How a char map refresh spreads
to deeper points is the model's reading (log 114). -/
def Obligations.PointEvents : Prop :=
  ∀ s (tl : BitVec 10),
    let t := tl.toNat
    let x := s.tile t
    let answered := fun (z : State) (p : Nat) (r : Word) => z.opStep = none ∧ z.opBusy = false ∧
      ∀ h k, (s.strandOf h k).state = .waiting (.opreq p none) → (z.strandOf h k).state = .waiting (.opreq p (some r))
    (∀ o, s.opStep = some o →
      (s.opcur.toNat < o.target → o.checked = false → t ∉ o.acked →
        ((∃ u < 1024, u ≠ t ∧ u ∉ o.acked) →
          ∃ z, exec (.allocatorAck tl) s = .next z ∧ z.opStep = some { o with acked := o.acked ++ [t] } ∧ z.tiles = s.tiles) ∧
        ((∀ u < 1024, u ≠ t → u ∈ o.acked) → (∀ q ∈ s.tiles, q.2.extent ≤ q.2.capAt o.target) →
          ∃ z, exec (.allocatorAck tl) s = .next z ∧ z.opStep = some { o with acked := o.acked ++ [t], checked := true } ∧ z.tiles = s.tiles) ∧
        ((∀ u < 1024, u ≠ t → u ∈ o.acked) → (∃ q ∈ s.tiles, q.2.capAt o.target < q.2.extent) →
          ∃ z q, exec (.allocatorAck tl) s = .next z ∧ q ∈ s.tiles ∧ q.2.capAt o.target < q.2.extent ∧ z.opcur = s.opcur ∧
            answered z o.target (BitVec.ofNat 64 (1 + 2 ^ 16 * q.1)))) ∧
      (∀ l ph, o.checked = true → x.nextMove o.target (x.capAt o.target) = some l → ph ∈ x.working o.target →
        (∀ l' < x.capAt o.target, l' ≠ l → x.physical l' ≠ ph) → ∃ z, exec (.stripeMove tl) s = .next z ∧ SameBytes s z ∧
          (z.tile t).stripeWorks o.target ((z.tile t).physical l) = true ∧ (∀ l', l' ≠ l → (z.tile t).physical l' = x.physical l') ∧
          ∀ g ∈ x.spdLatent, g / 32 = l → x.stripeTaken l = true → l ∉ x.awayStripes → g ∈ (z.tile t).spdPoison) ∧
      (o.checked = true → ∃ z, exec (.cacheWayDisable tl) s = .next z ∧ SameBytes s z ∧
        (z.tile t).tcOff = x.tcOff ||| sget 0 x.tcw o.target ∧ (z.tile t).l1Off = x.l1Off ||| sget 0 x.l1w o.target ∧
        (s.resv = [] → Keyed s.lines → (∀ n, Keyed (sget [] s.lines n)) →
          ∀ n ∈ linesInWays x (sget 0 x.tcw o.target), sfind (sget [] z.lines n) t = none)) ∧
      (clockDue o s = true → ∃ z, exec .clockChange s = .next z ∧ z.opStep = some { o with clock := true } ∧ z.tiles = s.tiles) ∧
      (rampDue o s = true → ∃ z, exec .voltageRamp s = .next z ∧ z.opStep = some { o with ramp := true } ∧ z.tiles = s.tiles) ∧
      (s.opcur.toNat < o.target → tilesReady o s = false → exec .opStepComplete s = .next s) ∧
      (o.ramp = true → clockDue o s = false → o.target ≤ 3 → (s.opcur.toNat < o.target → tilesReady o s = true) →
        ∃ z, exec .opStepComplete s = .next z ∧ z.opcur.toNat = o.target ∧ answered z o.target 0)) ∧
    (∀ (p : BitVec 2) fl tc l1,
      (x.team.isSome = true ∨ x.regions ≠ [] → exec (.charMapRefresh tl p fl tc l1) s = .next s) ∧
      (x.team = none → x.regions = [] → ∃ z, exec (.charMapRefresh tl p fl tc l1) s = .next z ∧ SameBytes s z ∧
        (∀ q, p.toNat ≤ q → q < 4 → sget 0 (z.tile t).fails q = sget 0 x.fails q ||| fl ∧ sget 0 (z.tile t).tcw q = sget 0 x.tcw q ||| tc ∧
          sget 0 (z.tile t).l1w q = sget 0 x.l1w q ||| l1) ∧
        (∀ q, q < p.toNat → sget 0 (z.tile t).fails q = sget 0 x.fails q) ∧
        (p.toNat ≤ s.opcur.toNat → (z.tile t).tcOff = x.tcOff ||| tc ∧ (z.tile t).l1Off = x.l1Off ||| l1) ∧
        (charMapSound (z.tile t) = false → (z.tile t).fenced = true) ∧
        (charMapSound (z.tile t) = true → (z.tile t).fenced = x.fenced ∧ (s.resv = [] → ∀ h, h ≠ t → z.tile h = s.tile h))))

/-- O57 (R407, R411, R420, R430 to R439): the management commands, their order, and device reset. What unwritten memory and scratchpad
read as, the statuses that the spec does not give, the operands, and the images that the device was made with are the model's choice
(logs 1, 2, 117, 119, 120); when the char maps are loaded and what a partition reset clears are its reading (logs 118, 121). -/
def Obligations.ManagementCommands : Prop :=
  ∀ s, (McFree s →
    (∀ r : BitVec 2048, let p := fld r 0 4
      let sup := fld r 4 10
      (s.opBusy = true → exec (.partSetup r) s = .next { s with commands := [.partSetup r] }) ∧
      (s.opBusy = false → recordLegal r = false → Answers (.partSetup r) s 1 fun z => z.tiles = s.tiles ∧ z.parts = s.parts) ∧
      (s.opBusy = false → recordLegal r = true → recordInUse s r = true →
        Answers (.partSetup r) s 2 fun z => z.tiles = s.tiles ∧ z.parts = s.parts) ∧
      (s.opBusy = false → recordLegal r = true → recordInUse s r = false → (∀ q ∈ s.parts, q.2.sup = none) → s.opcur.toNat ≤ fld r 24 2 →
        Answers (.partSetup r) s 0 fun z =>
          (z.partition p).record = r ∧ (z.partition p).sup = some sup ∧ (z.partition p).errlog = (s.partition p).errlog ∧
          (z.strandOf sup 7).state = .runnable ∧ (z.strandOf sup 7).pc = BitVec.ofNat 64 (fld r 384 48) ∧
          (z.strandOf sup 7).reg 1 = BitVec.ofNat 64 (fld r 448 64) ∧
          (∀ h, h < 1024 → r.getLsbD (64 + h / 4) = true → (z.tile h).part = some p ∧ (z.tile h).team = none ∧ (z.tile h).spd = []) ∧
          (s.resv = [] → s.lines = [] → ∀ h, r.getLsbD (64 + h / 4) = false → h < 1024 → z.tile h = s.tile h))) ∧
    (∀ p : BitVec 4,
      ((s.partition p.toNat).sup = none → Answers (.partReset p) s 4 (fun z => z.tiles = s.tiles) ∧ Answers (.partFree p) s 4 fun z => z.tiles = s.tiles) ∧
      ((s.partition p.toNat).sup.isSome = true →
        (Answers (.partReset p) s 0 fun z => (z.partition p.toNat).launches = [] ∧ (z.partition p.toNat).graphs = [] ∧
          (z.partition p.toNat).sup.isSome = true ∧ (z.partition p.toNat).errlog = (s.partition p.toNat).errlog ∧
          (∀ j < 1024, (sget {} (z.partition p.toNat).counters (3072 + j)).can = true ∧ (sget {} (z.partition p.toNat).counters (3072 + j)).val = 0) ∧
          ∀ h ∈ partTiles s p.toNat, (z.tile h).team = none ∧ (z.tile h).spd = []) ∧
        (Answers (.partFree p) s 0 fun z => (z.partition p.toNat).sup = none ∧ (z.partition p.toNat).errlog = (s.partition p.toNat).errlog ∧
          ∀ h ∈ partTiles s p.toNat, (z.tile h).part = none ∧ (z.tile h).team = none ∧ (z.tile h).spd = []))) ∧
    (∀ (b c : BitVec 26) ds, (∀ q ∈ s.parts, q.2.sup = none) → s.lent = [] → c ≠ 0 → ds.length ≤ 16 → b.toNat + c.toNat ≤ 512 →
      Answers (.lend b c ds) s 0 fun z => z.lent = [{ base := b.toNat, count := c.toNat, borrowers := ds }]) ∧
    (∀ b c : BitVec 26,
      ((∀ l ∈ s.lent, ¬ (l.base = b.toNat ∧ l.count = c.toNat)) → Answers (.revoke b c) s 4 fun z => z.lent = s.lent) ∧
      (s.lent = [{ base := b.toNat, count := c.toNat, borrowers := [] }] → Answers (.revoke b c) s 0 fun z => z.lent = []) ∧
      (∀ ds, s.lent = [{ base := b.toNat, count := c.toNat, borrowers := ds }] → ds ≠ [] → ∃ z, exec (.revoke b c) s = .next z ∧
        z.lent = [{ base := b.toNat, count := c.toNat, borrowers := ds, awaited := some ds }] ∧ z.mbox = s.mbox ∧ SameBytes s z ∧
        ∀ q ∈ z.dir, b.toNat * 2 ^ 30 ≤ 512 * q.1 → 512 * q.1 < (b.toNat + c.toNat) * 2 ^ 30 → q.2.pv = 0 ∧ q.2.ovf = false)) ∧
    (∀ (n : BitVec 5) (a : BitVec 12) (c : BitVec 13), ∃ z, exec (.errlog n a c) s = .next z ∧ z.tiles = s.tiles ∧ z.parts = s.parts ∧
      z.mbox = 0 :: (((if n.toNat < 16 then (s.partition n.toNat).errlog else s.errlog).drop a.toNat).take c.toNat).flatMap
        fun q => [q.1, q.2.1, q.2.2.1, q.2.2.2]) ∧
    (∀ tl : BitVec 10, ∃ z, exec (.charmap tl) s = .next z ∧ z.tiles = s.tiles ∧ z.mbox.length = 129 ∧ z.mbox.head? = some 0) ∧
    (∀ nonce, ∃ z, exec (.attest nonce) s = .next z ∧ z.tiles = s.tiles ∧ z.meas = s.meas ∧ z.mbox.head? = some 0) ∧
    (∀ ws n a, (∀ q ∈ s.parts, q.2.sup = none) →
      (configLegal ws n a = true → Answers (.devConfig ws n a) s 0 fun z => z.timeout = n ∧ z.audit = a ∧ z.windows.length = ws.length) ∧
      (configLegal ws n a = false → Answers (.devConfig ws n a) s 1 fun z => z.timeout = s.timeout ∧ z.windows = s.windows))) ∧
  (McFree { s with recovery := false } →
    (∃ z, exec .measure s = .next z ∧ z.tiles = s.tiles ∧ z.mbox.length = 33 ∧ z.mbox.head? = some 0) ∧
    (∀ image, ∃ z, exec (.fwStage image) s = .next z ∧ z.mbox = [BitVec.ofNat 64 (if imageAccepted s image then 0 else 1)] ∧
      (if imageAccepted s image then sfind z.store (if Config.isDeviceImage image then 1 else 0) = some image else z.store = s.store) ∧
      z.fver = s.fver ∧ SameBytes s z)) ∧
  (∀ (r : BitVec 2048) (p : BitVec 4) (b c : BitVec 26) ds tl nonce ws n a (l : BitVec 5) f m,
    (s.recovery = true → ∀ i ∈ [Instr.partSetup r, .partReset p, .partPreempt p, .partResume p, .partFree p, .lend b c ds, .revoke b c,
      .errlog l f m, .charmap tl, .attest nonce, .devConfig ws n a], exec i s = .next s) ∧
    (s.recovery = false → mcBusy s = true →
      exec (.partFree p) s = .next { s with commands := s.commands ++ [.partFree p] } ∧
      exec (.charmap tl) s = .next { s with commands := s.commands ++ [.charmap tl] } ∧
      exec (.lend b c ds) s = .next { s with commands := s.commands ++ [.lend b c ds] })) ∧
  (Keyed s.tiles → ∃ z, exec .deviceReset s = .next z ∧ z.mem = [] ∧ z.parts = [] ∧ z.cyc = 0 ∧ z.opcur = 0 ∧
    z.recovery = !(imageAccepted (bareReset s) (slotImage s 0) && imageAccepted (bareReset s) (slotImage s 1)) ∧
    z.fkey = s.fkey ∧ z.store = s.store ∧ s.fver.toNat ≤ z.fver.toNat ∧ (z.recovery = true → z.fver = s.fver) ∧
    ∀ h, (z.tile h).team = none ∧ (z.tile h).spd = [] ∧ (z.tile h).fails = (s.tile h).fails ∧ (z.tile h).fenced = !charMapSound (z.tile h))

/-- O58 (R433): a borrower marks the pages of a revoked range; the lender's command completes when every borrower has answered, and a
silent one is fenced from the range, which is lent no more. At any other time these events change nothing: the model's reading (log
122). -/
def Obligations.Revocation : Prop :=
  ∀ s,
    (∀ b c : BitVec 26, ∃ z, exec (.revocationNotice b c) s = .next z ∧ SameBytes s z ∧ z.tiles = s.tiles ∧
      (b.toNat * 2 ^ 30, c.toNat * 2 ^ 30) ∈ z.revoked ∧ ∀ r ∈ s.revoked, r ∈ z.revoked) ∧
    (∀ (d : BitVec 16) l, s.lent = [l] →
      (l.awaited = some [d] → Answers (.revocationAck d) s 0 fun z => z.lent = [] ∧ z.tiles = s.tiles) ∧
      (∀ ds, l.awaited = some ds → (∃ e ∈ ds, e ≠ d) → ∃ z, exec (.revocationAck d) s = .next z ∧ z.mbox = s.mbox ∧
        z.lent = [{ l with awaited := some (ds.filter fun e => e ≠ d) }]) ∧
      (∀ ds, l.awaited = some ds → d ∈ ds → Answers (.revokeTimeout d) s 5 fun z => z.lent = [] ∧ z.tiles = s.tiles) ∧
      (∀ ds, l.awaited = some ds → d ∉ ds → exec (.revokeTimeout d) s = .next s) ∧
      (l.awaited = none → exec (.revokeTimeout d) s = .next s ∧ exec (.revocationAck d) s = .next s))

/-! ### Reset and the invariant -/

/-- O59 (R8, R11, R21, R437): right after reset no tile holds a team or a partition, every strand slot is FREE with zeros in every
register, the program counter, `tvec`, `tcause`, `tpc`, `tva`, `telem` and `fstat`, the point is OP0, and memory is in its canonical
form. The values that R12 and Table 1.3 do not give are the model's choice (logs 1 to 5). -/
def Obligations.ResetValues : Prop :=
  Canonical State.reset ∧ State.reset.cyc = 0 ∧ State.reset.opcur = 0 ∧ State.reset.opBusy = false ∧
  (∀ h, (State.reset.tile h).team = none ∧ (State.reset.tile h).part = none ∧ (State.reset.tile h).queue = [] ∧
    ∀ k, (State.reset.strandOf h k).state = .free ∧ (State.reset.strandOf h k).pc = 0 ∧ (State.reset.strandOf h k).tvec = 0 ∧
      (State.reset.strandOf h k).tcause = 0 ∧ (State.reset.strandOf h k).tpc = 0 ∧ (State.reset.strandOf h k).tva = 0 ∧
      (State.reset.strandOf h k).telem = 0 ∧ (State.reset.strandOf h k).fstat = 0 ∧ (State.reset.strandOf h k).h = false ∧
      ∀ r, (State.reset.strandOf h k).reg r = 0) ∧
  ∀ p, (State.reset.partition p).sup = none

/-- O60: a step keeps memory and every scratchpad in canonical form: addresses rise, and no byte is listed that reads as an unlisted
one. The canonical form is the model's own representation (logs 1 and 2). -/
def Obligations.StepsKeepCanonical : Prop :=
  ∀ s t, Canonical s → step s = .next t → Canonical t
end

