-- ==== Sys2Proof/Laws/Map.lean ====
section
/-! SUPPORT. The laws of keyed families and of byte lists: reading what was written, leaving the rest, and keeping the canonical form. -/

namespace Sys2Proof.Laws

open Sys2Proof.Machine Sys2Proof.Spec

variable {α : Type}

/-! ### Families -/

@[simp] theorem sget_nil (d : α) (k : Nat) : sget d [] k = d := rfl
@[simp] theorem sfind_nil (k : Nat) : sfind ([] : SMap α) k = none := rfl

theorem sget_eq_sfind (d : α) (m : SMap α) (k : Nat) : sget d m k = (sfind m k).getD d := by
  induction m with
  | nil => rfl
  | cons p r ih => obtain ⟨j, v⟩ := p; simp only [sget, sfind]; split <;> simp_all

@[simp] theorem sfind_sput_same (m : SMap α) (k : Nat) (v : α) : sfind (sput m k v) k = some v := by
  induction m with
  | nil => simp [sput, sfind]
  | cons p r ih => obtain ⟨j, w⟩ := p; grind [sput, sfind]

theorem sfind_sput_other (m : SMap α) {j k : Nat} (v : α) (h : j ≠ k) : sfind (sput m k v) j = sfind m j := by
  induction m with
  | nil => grind [sput, sfind]
  | cons p r ih => obtain ⟨i, w⟩ := p; grind [sput, sfind]

@[simp] theorem sget_sput_same (d : α) (m : SMap α) (k : Nat) (v : α) : sget d (sput m k v) k = v := by
  rw [sget_eq_sfind, sfind_sput_same]; rfl

theorem sget_sput_other (d : α) (m : SMap α) {j k : Nat} (v : α) (h : j ≠ k) : sget d (sput m k v) j = sget d m j := by
  rw [sget_eq_sfind, sget_eq_sfind, sfind_sput_other m v h]

theorem sget_sput (d : α) (m : SMap α) (j k : Nat) (v : α) : sget d (sput m k v) j = if j = k then v else sget d m j := by
  split
  · next h => subst h; simp
  · next h => exact sget_sput_other d m v h

@[simp] theorem sput_sput_same (m : SMap α) (k : Nat) (v w : α) : sput (sput m k v) k w = sput m k w := by
  induction m with
  | nil => simp [sput]
  | cons p r ih => obtain ⟨j, u⟩ := p; grind [sput]

/-- Mapping the values of a family. -/
theorem sfind_map {β : Type} (f : Nat → α → β) (m : SMap α) (k : Nat) :
    sfind (m.map fun p => (p.1, f p.1 p.2)) k = (sfind m k).map (f k) := by
  induction m with
  | nil => rfl
  | cons p r ih => obtain ⟨j, v⟩ := p; grind [sfind]

/-- Mapping a family by a function that fixes what an absent key reads as. -/
theorem sget_map (d : α) (f : Nat → α → α) (m : SMap α) (k : Nat) (h : f k d = d) :
    sget d (m.map fun p => (p.1, f p.1 p.2)) k = f k (sget d m k) := by
  rw [sget_eq_sfind, sget_eq_sfind, sfind_map]
  cases sfind m k <;> simp [h]

theorem keyed_cons (k : Nat) (v : α) (m : SMap α) : Keyed ((k, v) :: m) ↔ (∀ p ∈ m, k < p.1) ∧ Keyed m := by
  simp [Keyed, List.pairwise_cons]

theorem mem_sput {m : SMap α} {k : Nat} {v : α} {p : Nat × α} (h : p ∈ sput m k v) : p ∈ m ∨ p = (k, v) := by
  induction m with
  | nil => grind [sput]
  | cons q r ih => obtain ⟨j, w⟩ := q; grind [sput]

theorem keyed_sput {m : SMap α} (k : Nat) (v : α) (h : Keyed m) : Keyed (sput m k v) := by
  induction m with
  | nil => simp [sput, Keyed]
  | cons q r ih =>
    obtain ⟨j, w⟩ := q
    obtain ⟨h1, h2⟩ := (keyed_cons j w r).1 h
    simp only [sput]
    split
    · exact (keyed_cons _ _ _).2 ⟨by grind, h⟩
    · split
      · next hk => subst hk; exact (keyed_cons _ _ _).2 ⟨h1, h2⟩
      · refine (keyed_cons _ _ _).2 ⟨?_, ih h2⟩
        intro p hp
        rcases mem_sput hp with h' | rfl
        · exact h1 p h'
        · show j < k; omega

theorem sfind_none_of_lt {m : SMap α} {k : Nat} (h : ∀ p ∈ m, k < p.1) : sfind m k = none := by
  induction m with
  | nil => rfl
  | cons q r ih =>
    obtain ⟨j, w⟩ := q
    have hj : k < j := h (j, w) (by simp)
    simp only [sfind, if_neg (Nat.ne_of_gt hj)]
    exact ih fun p hp => h p (by simp [hp])

theorem sfind_sdel_same {m : SMap α} (k : Nat) (h : Keyed m) : sfind (sdel m k) k = none := by
  induction m with
  | nil => rfl
  | cons q r ih =>
    obtain ⟨j, w⟩ := q
    obtain ⟨h1, h2⟩ := (keyed_cons j w r).1 h
    simp only [sdel]
    split
    · next hk => subst hk; exact sfind_none_of_lt h1
    · next hk => simp only [sfind, if_neg hk]; exact ih h2

theorem sfind_sdel_other (m : SMap α) {j k : Nat} (h : j ≠ k) : sfind (sdel m k) j = sfind m j := by
  induction m with
  | nil => rfl
  | cons q r ih => obtain ⟨i, w⟩ := q; grind [sdel, sfind]

/-! ### Bytes -/

theorem wf_tail {p : Host.Cell} {c : List Host.Cell} (h : Memory.wf (p :: c) = true) : Memory.wf c = true := by
  cases c with
  | nil => rfl
  | cons q r => obtain ⟨i, u⟩ := p; obtain ⟨j, v⟩ := q; simp [Memory.wf] at h; exact h.2

theorem wf_head {i : Nat} {u : BitVec 8} {c : List Host.Cell} (h : Memory.wf ((i, u) :: c) = true) : u ≠ 0 := by
  cases c with
  | nil => simpa [Memory.wf] using h
  | cons q r => obtain ⟨j, v⟩ := q; simp [Memory.wf] at h; exact h.1.1

/-- In canonical form every address after the first is greater. -/
theorem wf_lt {i : Nat} {u : BitVec 8} {c : List Host.Cell} (h : Memory.wf ((i, u) :: c) = true) : ∀ p ∈ c, i < p.1 := by
  induction c generalizing i u with
  | nil => simp
  | cons q r ih =>
    obtain ⟨j, v⟩ := q
    have hij : i < j := by simp [Memory.wf] at h; exact h.1.2
    intro p hp
    rcases List.mem_cons.1 hp with rfl | hp
    · exact hij
    · exact Nat.lt_trans hij (ih (wf_tail h) p hp)

theorem wf_cons {i : Nat} {u : BitVec 8} {c : List Host.Cell} (h1 : u ≠ 0) (h2 : ∀ p ∈ c, i < p.1) (h3 : Memory.wf c = true) :
    Memory.wf ((i, u) :: c) = true := by
  cases c with
  | nil => simpa [Memory.wf] using h1
  | cons q r => obtain ⟨j, v⟩ := q; simp only [Memory.wf, Bool.and_eq_true, bne_iff_ne, decide_eq_true_eq]; exact ⟨⟨h1, h2 (j, v) (by simp)⟩, h3⟩

theorem cellGet_of_lt {c : List Host.Cell} {a : Nat} (h : ∀ p ∈ c, a < p.1) : cellGet c a = 0 := by
  induction c with
  | nil => rfl
  | cons q r ih =>
    obtain ⟨j, w⟩ := q
    have hj : a < j := h (j, w) (by simp)
    simp only [cellGet, if_neg (Nat.ne_of_gt hj)]
    exact ih fun p hp => h p (by simp [hp])

theorem mem_cellPut {c : List Host.Cell} {a : Nat} {v : BitVec 8} {p : Host.Cell} (h : p ∈ cellPut c a v) : p ∈ c ∨ p = (a, v) := by
  induction c with
  | nil => grind [cellPut]
  | cons q r ih => obtain ⟨j, w⟩ := q; grind [cellPut]

/-- A byte write keeps the canonical form. -/
theorem wf_cellPut {c : List Host.Cell} (a : Nat) (v : BitVec 8) (h : Memory.wf c = true) : Memory.wf (cellPut c a v) = true := by
  induction c with
  | nil => simp only [cellPut]; split <;> simp_all [Memory.wf]
  | cons q r ih =>
    obtain ⟨j, w⟩ := q
    have hr := wf_tail h
    have hlt := wf_lt h
    simp only [cellPut]
    split
    · split
      · exact h
      · next ha hv => exact wf_cons hv (by grind) h
    · split
      · split
        · exact hr
        · next ha hv => exact wf_cons hv (by grind) hr
      · refine wf_cons (wf_head h) ?_ (ih hr)
        intro p hp
        rcases mem_cellPut hp with h' | rfl
        · exact hlt p h'
        · show j < a; omega

theorem cellGet_cellPut_same {c : List Host.Cell} (a : Nat) (v : BitVec 8) (h : Memory.wf c = true) : cellGet (cellPut c a v) a = v := by
  induction c with
  | nil => simp only [cellPut]; split <;> simp_all [cellGet]
  | cons q r ih =>
    obtain ⟨j, w⟩ := q
    have hlt := wf_lt h
    have hr := wf_tail h
    simp only [cellPut]
    split
    · next ha =>
      split
      · next hv =>
        subst hv
        have : ∀ p ∈ (j, w) :: r, a < p.1 := by grind
        exact cellGet_of_lt this
      · simp [cellGet]
    · split
      · next hk =>
        subst hk
        split
        · next hv => subst hv; exact cellGet_of_lt hlt
        · simp [cellGet]
      · next h1 h2 => simp only [cellGet, if_neg (Ne.symm h2)]; exact ih hr

theorem cellGet_cellPut_other (c : List Host.Cell) {a b : Nat} (v : BitVec 8) (h : b ≠ a) : cellGet (cellPut c a v) b = cellGet c b := by
  induction c with
  | nil => grind [cellPut, cellGet]
  | cons q r ih => obtain ⟨j, w⟩ := q; grind [cellPut, cellGet]

/-- A write of several bytes keeps the canonical form. -/
theorem wf_cellsPut {c : List Host.Cell} (a : Nat) (bs : List (BitVec 8)) (h : Memory.wf c = true) : Memory.wf (cellsPut c a bs) = true := by
  induction bs generalizing c a with
  | nil => exact h
  | cons b r ih => exact ih (a + 1) (wf_cellPut a b h)

theorem cellGet_cellsPut_below (c : List Host.Cell) {a x : Nat} (bs : List (BitVec 8)) (h : x < a) :
    cellGet (cellsPut c a bs) x = cellGet c x := by
  induction bs generalizing c a with
  | nil => rfl
  | cons b r ih => rw [cellsPut, ih _ (by omega), cellGet_cellPut_other _ _ (by omega)]

/-- What every byte reads as after a write. -/
theorem cellGet_cellsPut {c : List Host.Cell} (a x : Nat) (bs : List (BitVec 8)) (h : Memory.wf c = true) :
    cellGet (cellsPut c a bs) x = if a ≤ x ∧ x < a + bs.length then bs.getD (x - a) 0 else cellGet c x := by
  induction bs generalizing c a with
  | nil => simp [cellsPut]
  | cons b r ih =>
    rw [cellsPut]
    by_cases hx : x = a
    · subst hx
      rw [cellGet_cellsPut_below _ _ (by omega), cellGet_cellPut_same _ _ h]
      simp
    · rw [ih (a + 1) (wf_cellPut a b h), cellGet_cellPut_other _ _ hx]
      by_cases h1 : a + 1 ≤ x ∧ x < a + 1 + r.length
      · rw [if_pos h1, if_pos (by simp; omega)]
        obtain ⟨n, rfl⟩ : ∃ n, x = a + 1 + n := ⟨x - (a + 1), by omega⟩
        simp [show a + 1 + n - a = n + 1 by omega]
      · rw [if_neg h1, if_neg (by simp; omega)]

/-- Dropping cells keeps the canonical form. -/
theorem wf_filter {c : List Host.Cell} (p : Host.Cell → Bool) (h : Memory.wf c = true) : Memory.wf (c.filter p) = true := by
  induction c with
  | nil => rfl
  | cons q r ih =>
    obtain ⟨j, w⟩ := q
    have hr := ih (wf_tail h)
    simp only [List.filter_cons]
    split
    · exact wf_cons (wf_head h) (fun x hx => wf_lt h x (List.mem_of_mem_filter hx)) hr
    · exact hr

end Sys2Proof.Laws
end

