-- ==== Sys2Proof/Laws/State.lean ====
section
/-! SUPPORT. What each update of a state leaves in each field: one lemma per field and update, so that no proof unfolds an update. -/

namespace Sys2Proof.Machine

open Sys2Proof.Laws

/-! ### Fields of the device that an update does not write -/

@[simp] theorem State.setTile_parts (s : State) (t : Nat) (x : Tile) : (s.setTile t x).parts = s.parts := rfl
@[simp] theorem State.setTile_mem (s : State) (t : Nat) (x : Tile) : (s.setTile t x).mem = s.mem := rfl
@[simp] theorem State.setTile_cyc (s : State) (t : Nat) (x : Tile) : (s.setTile t x).cyc = s.cyc := rfl
@[simp] theorem State.setTile_opcur (s : State) (t : Nat) (x : Tile) : (s.setTile t x).opcur = s.opcur := rfl
@[simp] theorem State.setTile_opBusy (s : State) (t : Nat) (x : Tile) : (s.setTile t x).opBusy = s.opBusy := rfl
@[simp] theorem State.setTile_ct (s : State) (t : Nat) (x : Tile) : (s.setTile t x).ct = s.ct := rfl
@[simp] theorem State.setTile_cs (s : State) (t : Nat) (x : Tile) : (s.setTile t x).cs = s.cs := rfl
@[simp] theorem State.setTile_agenda (s : State) (t : Nat) (x : Tile) : (s.setTile t x).agenda = s.agenda := rfl
@[simp] theorem State.setTile_commands (s : State) (t : Nat) (x : Tile) : (s.setTile t x).commands = s.commands := rfl
@[simp] theorem State.setTile_undoMade (s : State) (t : Nat) (x : Tile) : (s.setTile t x).undoMade = s.undoMade := rfl
@[simp] theorem State.setTile_lag (s : State) (t : Nat) (x : Tile) : (s.setTile t x).lag = s.lag := rfl
@[simp] theorem State.setTile_lines (s : State) (t : Nat) (x : Tile) : (s.setTile t x).lines = s.lines := rfl
@[simp] theorem State.setTile_dir (s : State) (t : Nat) (x : Tile) : (s.setTile t x).dir = s.dir := rfl
@[simp] theorem State.setTile_msc (s : State) (t : Nat) (x : Tile) : (s.setTile t x).msc = s.msc := rfl
@[simp] theorem State.setTile_rels (s : State) (t : Nat) (x : Tile) : (s.setTile t x).rels = s.rels := rfl
@[simp] theorem State.setTile_cuts (s : State) (t : Nat) (x : Tile) : (s.setTile t x).cuts = s.cuts := rfl
@[simp] theorem State.setTile_resv (s : State) (t : Nat) (x : Tile) : (s.setTile t x).resv = s.resv := rfl
@[simp] theorem State.setTile_nextRid (s : State) (t : Nat) (x : Tile) : (s.setTile t x).nextRid = s.nextRid := rfl
@[simp] theorem State.setTile_flight (s : State) (t : Nat) (x : Tile) : (s.setTile t x).flight = s.flight := rfl
@[simp] theorem State.setTile_rates (s : State) (t : Nat) (x : Tile) : (s.setTile t x).rates = s.rates := rfl
@[simp] theorem State.setTile_markers (s : State) (t : Nat) (x : Tile) : (s.setTile t x).markers = s.markers := rfl
@[simp] theorem State.setTile_windows (s : State) (t : Nat) (x : Tile) : (s.setTile t x).windows = s.windows := rfl
@[simp] theorem State.setTile_revoked (s : State) (t : Nat) (x : Tile) : (s.setTile t x).revoked = s.revoked := rfl
@[simp] theorem State.setTile_resWatches (s : State) (t : Nat) (x : Tile) : (s.setTile t x).resWatches = s.resWatches := rfl
@[simp] theorem State.setTile_resWritten (s : State) (t : Nat) (x : Tile) : (s.setTile t x).resWritten = s.resWritten := rfl
@[simp] theorem State.setTile_retained (s : State) (t : Nat) (x : Tile) : (s.setTile t x).retained = s.retained := rfl
@[simp] theorem State.setTile_poison (s : State) (t : Nat) (x : Tile) : (s.setTile t x).poison = s.poison := rfl
@[simp] theorem State.setTile_errlog (s : State) (t : Nat) (x : Tile) : (s.setTile t x).errlog = s.errlog := rfl
@[simp] theorem State.setTile_consumed (s : State) (t : Nat) (x : Tile) : (s.setTile t x).consumed = s.consumed := rfl
@[simp] theorem State.setTile_opStep (s : State) (t : Nat) (x : Tile) : (s.setTile t x).opStep = s.opStep := rfl
@[simp] theorem State.setTile_lent (s : State) (t : Nat) (x : Tile) : (s.setTile t x).lent = s.lent := rfl
@[simp] theorem State.setTile_timeout (s : State) (t : Nat) (x : Tile) : (s.setTile t x).timeout = s.timeout := rfl
@[simp] theorem State.setTile_audit (s : State) (t : Nat) (x : Tile) : (s.setTile t x).audit = s.audit := rfl
@[simp] theorem State.setTile_recovery (s : State) (t : Nat) (x : Tile) : (s.setTile t x).recovery = s.recovery := rfl
@[simp] theorem State.setTile_fkey (s : State) (t : Nat) (x : Tile) : (s.setTile t x).fkey = s.fkey := rfl
@[simp] theorem State.setTile_fver (s : State) (t : Nat) (x : Tile) : (s.setTile t x).fver = s.fver := rfl
@[simp] theorem State.setTile_store (s : State) (t : Nat) (x : Tile) : (s.setTile t x).store = s.store := rfl
@[simp] theorem State.setTile_meas (s : State) (t : Nat) (x : Tile) : (s.setTile t x).meas = s.meas := rfl
@[simp] theorem State.setTile_mbox (s : State) (t : Nat) (x : Tile) : (s.setTile t x).mbox = s.mbox := rfl
@[simp] theorem State.setTile_extData (s : State) (t : Nat) (x : Tile) : (s.setTile t x).extData = s.extData := rfl
@[simp] theorem State.setTile_extPoison (s : State) (t : Nat) (x : Tile) : (s.setTile t x).extPoison = s.extPoison := rfl
@[simp] theorem State.setTile_hbmDown (s : State) (t : Nat) (x : Tile) : (s.setTile t x).hbmDown = s.hbmDown := rfl
@[simp] theorem State.setTile_ucieDown (s : State) (t : Nat) (x : Tile) : (s.setTile t x).ucieDown = s.ucieDown := rfl
@[simp] theorem State.setTile_ports (s : State) (t : Nat) (x : Tile) : (s.setTile t x).ports = s.ports := rfl

@[simp] theorem State.setPartition_tiles (s : State) (p : Nat) (x : Partition) : (s.setPartition p x).tiles = s.tiles := rfl
@[simp] theorem State.setPartition_mem (s : State) (p : Nat) (x : Partition) : (s.setPartition p x).mem = s.mem := rfl
@[simp] theorem State.setPartition_cyc (s : State) (p : Nat) (x : Partition) : (s.setPartition p x).cyc = s.cyc := rfl
@[simp] theorem State.setPartition_opcur (s : State) (p : Nat) (x : Partition) : (s.setPartition p x).opcur = s.opcur := rfl
@[simp] theorem State.setPartition_opBusy (s : State) (p : Nat) (x : Partition) : (s.setPartition p x).opBusy = s.opBusy := rfl
@[simp] theorem State.setPartition_ct (s : State) (p : Nat) (x : Partition) : (s.setPartition p x).ct = s.ct := rfl
@[simp] theorem State.setPartition_cs (s : State) (p : Nat) (x : Partition) : (s.setPartition p x).cs = s.cs := rfl
@[simp] theorem State.setPartition_agenda (s : State) (p : Nat) (x : Partition) : (s.setPartition p x).agenda = s.agenda := rfl
@[simp] theorem State.setPartition_commands (s : State) (p : Nat) (x : Partition) : (s.setPartition p x).commands = s.commands := rfl
@[simp] theorem State.setPartition_undoMade (s : State) (p : Nat) (x : Partition) : (s.setPartition p x).undoMade = s.undoMade := rfl
@[simp] theorem State.setPartition_lag (s : State) (p : Nat) (x : Partition) : (s.setPartition p x).lag = s.lag := rfl
@[simp] theorem State.setPartition_lines (s : State) (p : Nat) (x : Partition) : (s.setPartition p x).lines = s.lines := rfl
@[simp] theorem State.setPartition_dir (s : State) (p : Nat) (x : Partition) : (s.setPartition p x).dir = s.dir := rfl
@[simp] theorem State.setPartition_msc (s : State) (p : Nat) (x : Partition) : (s.setPartition p x).msc = s.msc := rfl
@[simp] theorem State.setPartition_rels (s : State) (p : Nat) (x : Partition) : (s.setPartition p x).rels = s.rels := rfl
@[simp] theorem State.setPartition_cuts (s : State) (p : Nat) (x : Partition) : (s.setPartition p x).cuts = s.cuts := rfl
@[simp] theorem State.setPartition_resv (s : State) (p : Nat) (x : Partition) : (s.setPartition p x).resv = s.resv := rfl
@[simp] theorem State.setPartition_nextRid (s : State) (p : Nat) (x : Partition) : (s.setPartition p x).nextRid = s.nextRid := rfl
@[simp] theorem State.setPartition_flight (s : State) (p : Nat) (x : Partition) : (s.setPartition p x).flight = s.flight := rfl
@[simp] theorem State.setPartition_rates (s : State) (p : Nat) (x : Partition) : (s.setPartition p x).rates = s.rates := rfl
@[simp] theorem State.setPartition_markers (s : State) (p : Nat) (x : Partition) : (s.setPartition p x).markers = s.markers := rfl
@[simp] theorem State.setPartition_windows (s : State) (p : Nat) (x : Partition) : (s.setPartition p x).windows = s.windows := rfl
@[simp] theorem State.setPartition_revoked (s : State) (p : Nat) (x : Partition) : (s.setPartition p x).revoked = s.revoked := rfl
@[simp] theorem State.setPartition_resWatches (s : State) (p : Nat) (x : Partition) : (s.setPartition p x).resWatches = s.resWatches := rfl
@[simp] theorem State.setPartition_resWritten (s : State) (p : Nat) (x : Partition) : (s.setPartition p x).resWritten = s.resWritten := rfl
@[simp] theorem State.setPartition_retained (s : State) (p : Nat) (x : Partition) : (s.setPartition p x).retained = s.retained := rfl
@[simp] theorem State.setPartition_poison (s : State) (p : Nat) (x : Partition) : (s.setPartition p x).poison = s.poison := rfl
@[simp] theorem State.setPartition_errlog (s : State) (p : Nat) (x : Partition) : (s.setPartition p x).errlog = s.errlog := rfl
@[simp] theorem State.setPartition_consumed (s : State) (p : Nat) (x : Partition) : (s.setPartition p x).consumed = s.consumed := rfl
@[simp] theorem State.setPartition_opStep (s : State) (p : Nat) (x : Partition) : (s.setPartition p x).opStep = s.opStep := rfl
@[simp] theorem State.setPartition_lent (s : State) (p : Nat) (x : Partition) : (s.setPartition p x).lent = s.lent := rfl
@[simp] theorem State.setPartition_timeout (s : State) (p : Nat) (x : Partition) : (s.setPartition p x).timeout = s.timeout := rfl
@[simp] theorem State.setPartition_audit (s : State) (p : Nat) (x : Partition) : (s.setPartition p x).audit = s.audit := rfl
@[simp] theorem State.setPartition_recovery (s : State) (p : Nat) (x : Partition) : (s.setPartition p x).recovery = s.recovery := rfl
@[simp] theorem State.setPartition_fkey (s : State) (p : Nat) (x : Partition) : (s.setPartition p x).fkey = s.fkey := rfl
@[simp] theorem State.setPartition_fver (s : State) (p : Nat) (x : Partition) : (s.setPartition p x).fver = s.fver := rfl
@[simp] theorem State.setPartition_store (s : State) (p : Nat) (x : Partition) : (s.setPartition p x).store = s.store := rfl
@[simp] theorem State.setPartition_meas (s : State) (p : Nat) (x : Partition) : (s.setPartition p x).meas = s.meas := rfl
@[simp] theorem State.setPartition_mbox (s : State) (p : Nat) (x : Partition) : (s.setPartition p x).mbox = s.mbox := rfl
@[simp] theorem State.setPartition_extData (s : State) (p : Nat) (x : Partition) : (s.setPartition p x).extData = s.extData := rfl
@[simp] theorem State.setPartition_extPoison (s : State) (p : Nat) (x : Partition) : (s.setPartition p x).extPoison = s.extPoison := rfl
@[simp] theorem State.setPartition_hbmDown (s : State) (p : Nat) (x : Partition) : (s.setPartition p x).hbmDown = s.hbmDown := rfl
@[simp] theorem State.setPartition_ucieDown (s : State) (p : Nat) (x : Partition) : (s.setPartition p x).ucieDown = s.ucieDown := rfl
@[simp] theorem State.setPartition_ports (s : State) (p : Nat) (x : Partition) : (s.setPartition p x).ports = s.ports := rfl

@[simp] theorem State.setStrandOf_parts (s : State) (t k : Nat) (y : Strand) : (s.setStrandOf t k y).parts = s.parts := rfl
@[simp] theorem State.setStrandOf_mem (s : State) (t k : Nat) (y : Strand) : (s.setStrandOf t k y).mem = s.mem := rfl
@[simp] theorem State.setStrandOf_cyc (s : State) (t k : Nat) (y : Strand) : (s.setStrandOf t k y).cyc = s.cyc := rfl
@[simp] theorem State.setStrandOf_opcur (s : State) (t k : Nat) (y : Strand) : (s.setStrandOf t k y).opcur = s.opcur := rfl
@[simp] theorem State.setStrandOf_opBusy (s : State) (t k : Nat) (y : Strand) : (s.setStrandOf t k y).opBusy = s.opBusy := rfl
@[simp] theorem State.setStrandOf_ct (s : State) (t k : Nat) (y : Strand) : (s.setStrandOf t k y).ct = s.ct := rfl
@[simp] theorem State.setStrandOf_cs (s : State) (t k : Nat) (y : Strand) : (s.setStrandOf t k y).cs = s.cs := rfl
@[simp] theorem State.setStrandOf_agenda (s : State) (t k : Nat) (y : Strand) : (s.setStrandOf t k y).agenda = s.agenda := rfl
@[simp] theorem State.setStrandOf_commands (s : State) (t k : Nat) (y : Strand) : (s.setStrandOf t k y).commands = s.commands := rfl
@[simp] theorem State.setStrandOf_undoMade (s : State) (t k : Nat) (y : Strand) : (s.setStrandOf t k y).undoMade = s.undoMade := rfl
@[simp] theorem State.setStrandOf_lag (s : State) (t k : Nat) (y : Strand) : (s.setStrandOf t k y).lag = s.lag := rfl
@[simp] theorem State.setStrandOf_lines (s : State) (t k : Nat) (y : Strand) : (s.setStrandOf t k y).lines = s.lines := rfl
@[simp] theorem State.setStrandOf_dir (s : State) (t k : Nat) (y : Strand) : (s.setStrandOf t k y).dir = s.dir := rfl
@[simp] theorem State.setStrandOf_msc (s : State) (t k : Nat) (y : Strand) : (s.setStrandOf t k y).msc = s.msc := rfl
@[simp] theorem State.setStrandOf_rels (s : State) (t k : Nat) (y : Strand) : (s.setStrandOf t k y).rels = s.rels := rfl
@[simp] theorem State.setStrandOf_cuts (s : State) (t k : Nat) (y : Strand) : (s.setStrandOf t k y).cuts = s.cuts := rfl
@[simp] theorem State.setStrandOf_resv (s : State) (t k : Nat) (y : Strand) : (s.setStrandOf t k y).resv = s.resv := rfl
@[simp] theorem State.setStrandOf_nextRid (s : State) (t k : Nat) (y : Strand) : (s.setStrandOf t k y).nextRid = s.nextRid := rfl
@[simp] theorem State.setStrandOf_flight (s : State) (t k : Nat) (y : Strand) : (s.setStrandOf t k y).flight = s.flight := rfl
@[simp] theorem State.setStrandOf_rates (s : State) (t k : Nat) (y : Strand) : (s.setStrandOf t k y).rates = s.rates := rfl
@[simp] theorem State.setStrandOf_markers (s : State) (t k : Nat) (y : Strand) : (s.setStrandOf t k y).markers = s.markers := rfl
@[simp] theorem State.setStrandOf_windows (s : State) (t k : Nat) (y : Strand) : (s.setStrandOf t k y).windows = s.windows := rfl
@[simp] theorem State.setStrandOf_revoked (s : State) (t k : Nat) (y : Strand) : (s.setStrandOf t k y).revoked = s.revoked := rfl
@[simp] theorem State.setStrandOf_resWatches (s : State) (t k : Nat) (y : Strand) : (s.setStrandOf t k y).resWatches = s.resWatches := rfl
@[simp] theorem State.setStrandOf_resWritten (s : State) (t k : Nat) (y : Strand) : (s.setStrandOf t k y).resWritten = s.resWritten := rfl
@[simp] theorem State.setStrandOf_retained (s : State) (t k : Nat) (y : Strand) : (s.setStrandOf t k y).retained = s.retained := rfl
@[simp] theorem State.setStrandOf_poison (s : State) (t k : Nat) (y : Strand) : (s.setStrandOf t k y).poison = s.poison := rfl
@[simp] theorem State.setStrandOf_errlog (s : State) (t k : Nat) (y : Strand) : (s.setStrandOf t k y).errlog = s.errlog := rfl
@[simp] theorem State.setStrandOf_consumed (s : State) (t k : Nat) (y : Strand) : (s.setStrandOf t k y).consumed = s.consumed := rfl
@[simp] theorem State.setStrandOf_opStep (s : State) (t k : Nat) (y : Strand) : (s.setStrandOf t k y).opStep = s.opStep := rfl
@[simp] theorem State.setStrandOf_lent (s : State) (t k : Nat) (y : Strand) : (s.setStrandOf t k y).lent = s.lent := rfl
@[simp] theorem State.setStrandOf_timeout (s : State) (t k : Nat) (y : Strand) : (s.setStrandOf t k y).timeout = s.timeout := rfl
@[simp] theorem State.setStrandOf_audit (s : State) (t k : Nat) (y : Strand) : (s.setStrandOf t k y).audit = s.audit := rfl
@[simp] theorem State.setStrandOf_recovery (s : State) (t k : Nat) (y : Strand) : (s.setStrandOf t k y).recovery = s.recovery := rfl
@[simp] theorem State.setStrandOf_fkey (s : State) (t k : Nat) (y : Strand) : (s.setStrandOf t k y).fkey = s.fkey := rfl
@[simp] theorem State.setStrandOf_fver (s : State) (t k : Nat) (y : Strand) : (s.setStrandOf t k y).fver = s.fver := rfl
@[simp] theorem State.setStrandOf_store (s : State) (t k : Nat) (y : Strand) : (s.setStrandOf t k y).store = s.store := rfl
@[simp] theorem State.setStrandOf_meas (s : State) (t k : Nat) (y : Strand) : (s.setStrandOf t k y).meas = s.meas := rfl
@[simp] theorem State.setStrandOf_mbox (s : State) (t k : Nat) (y : Strand) : (s.setStrandOf t k y).mbox = s.mbox := rfl
@[simp] theorem State.setStrandOf_extData (s : State) (t k : Nat) (y : Strand) : (s.setStrandOf t k y).extData = s.extData := rfl
@[simp] theorem State.setStrandOf_extPoison (s : State) (t k : Nat) (y : Strand) : (s.setStrandOf t k y).extPoison = s.extPoison := rfl
@[simp] theorem State.setStrandOf_hbmDown (s : State) (t k : Nat) (y : Strand) : (s.setStrandOf t k y).hbmDown = s.hbmDown := rfl
@[simp] theorem State.setStrandOf_ucieDown (s : State) (t k : Nat) (y : Strand) : (s.setStrandOf t k y).ucieDown = s.ucieDown := rfl
@[simp] theorem State.setStrandOf_ports (s : State) (t k : Nat) (y : Strand) : (s.setStrandOf t k y).ports = s.ports := rfl

@[simp] theorem State.setCurTile_parts (s : State) (x : Tile) : (s.setCurTile x).parts = s.parts := rfl
@[simp] theorem State.setCurTile_mem (s : State) (x : Tile) : (s.setCurTile x).mem = s.mem := rfl
@[simp] theorem State.setCurTile_cyc (s : State) (x : Tile) : (s.setCurTile x).cyc = s.cyc := rfl
@[simp] theorem State.setCurTile_opcur (s : State) (x : Tile) : (s.setCurTile x).opcur = s.opcur := rfl
@[simp] theorem State.setCurTile_opBusy (s : State) (x : Tile) : (s.setCurTile x).opBusy = s.opBusy := rfl
@[simp] theorem State.setCurTile_ct (s : State) (x : Tile) : (s.setCurTile x).ct = s.ct := rfl
@[simp] theorem State.setCurTile_cs (s : State) (x : Tile) : (s.setCurTile x).cs = s.cs := rfl
@[simp] theorem State.setCurTile_agenda (s : State) (x : Tile) : (s.setCurTile x).agenda = s.agenda := rfl
@[simp] theorem State.setCurTile_commands (s : State) (x : Tile) : (s.setCurTile x).commands = s.commands := rfl
@[simp] theorem State.setCurTile_undoMade (s : State) (x : Tile) : (s.setCurTile x).undoMade = s.undoMade := rfl
@[simp] theorem State.setCurTile_lag (s : State) (x : Tile) : (s.setCurTile x).lag = s.lag := rfl
@[simp] theorem State.setCurTile_lines (s : State) (x : Tile) : (s.setCurTile x).lines = s.lines := rfl
@[simp] theorem State.setCurTile_dir (s : State) (x : Tile) : (s.setCurTile x).dir = s.dir := rfl
@[simp] theorem State.setCurTile_msc (s : State) (x : Tile) : (s.setCurTile x).msc = s.msc := rfl
@[simp] theorem State.setCurTile_rels (s : State) (x : Tile) : (s.setCurTile x).rels = s.rels := rfl
@[simp] theorem State.setCurTile_cuts (s : State) (x : Tile) : (s.setCurTile x).cuts = s.cuts := rfl
@[simp] theorem State.setCurTile_resv (s : State) (x : Tile) : (s.setCurTile x).resv = s.resv := rfl
@[simp] theorem State.setCurTile_nextRid (s : State) (x : Tile) : (s.setCurTile x).nextRid = s.nextRid := rfl
@[simp] theorem State.setCurTile_flight (s : State) (x : Tile) : (s.setCurTile x).flight = s.flight := rfl
@[simp] theorem State.setCurTile_rates (s : State) (x : Tile) : (s.setCurTile x).rates = s.rates := rfl
@[simp] theorem State.setCurTile_markers (s : State) (x : Tile) : (s.setCurTile x).markers = s.markers := rfl
@[simp] theorem State.setCurTile_windows (s : State) (x : Tile) : (s.setCurTile x).windows = s.windows := rfl
@[simp] theorem State.setCurTile_revoked (s : State) (x : Tile) : (s.setCurTile x).revoked = s.revoked := rfl
@[simp] theorem State.setCurTile_resWatches (s : State) (x : Tile) : (s.setCurTile x).resWatches = s.resWatches := rfl
@[simp] theorem State.setCurTile_resWritten (s : State) (x : Tile) : (s.setCurTile x).resWritten = s.resWritten := rfl
@[simp] theorem State.setCurTile_retained (s : State) (x : Tile) : (s.setCurTile x).retained = s.retained := rfl
@[simp] theorem State.setCurTile_poison (s : State) (x : Tile) : (s.setCurTile x).poison = s.poison := rfl
@[simp] theorem State.setCurTile_errlog (s : State) (x : Tile) : (s.setCurTile x).errlog = s.errlog := rfl
@[simp] theorem State.setCurTile_consumed (s : State) (x : Tile) : (s.setCurTile x).consumed = s.consumed := rfl
@[simp] theorem State.setCurTile_opStep (s : State) (x : Tile) : (s.setCurTile x).opStep = s.opStep := rfl
@[simp] theorem State.setCurTile_lent (s : State) (x : Tile) : (s.setCurTile x).lent = s.lent := rfl
@[simp] theorem State.setCurTile_timeout (s : State) (x : Tile) : (s.setCurTile x).timeout = s.timeout := rfl
@[simp] theorem State.setCurTile_audit (s : State) (x : Tile) : (s.setCurTile x).audit = s.audit := rfl
@[simp] theorem State.setCurTile_recovery (s : State) (x : Tile) : (s.setCurTile x).recovery = s.recovery := rfl
@[simp] theorem State.setCurTile_fkey (s : State) (x : Tile) : (s.setCurTile x).fkey = s.fkey := rfl
@[simp] theorem State.setCurTile_fver (s : State) (x : Tile) : (s.setCurTile x).fver = s.fver := rfl
@[simp] theorem State.setCurTile_store (s : State) (x : Tile) : (s.setCurTile x).store = s.store := rfl
@[simp] theorem State.setCurTile_meas (s : State) (x : Tile) : (s.setCurTile x).meas = s.meas := rfl
@[simp] theorem State.setCurTile_mbox (s : State) (x : Tile) : (s.setCurTile x).mbox = s.mbox := rfl
@[simp] theorem State.setCurTile_extData (s : State) (x : Tile) : (s.setCurTile x).extData = s.extData := rfl
@[simp] theorem State.setCurTile_extPoison (s : State) (x : Tile) : (s.setCurTile x).extPoison = s.extPoison := rfl
@[simp] theorem State.setCurTile_hbmDown (s : State) (x : Tile) : (s.setCurTile x).hbmDown = s.hbmDown := rfl
@[simp] theorem State.setCurTile_ucieDown (s : State) (x : Tile) : (s.setCurTile x).ucieDown = s.ucieDown := rfl
@[simp] theorem State.setCurTile_ports (s : State) (x : Tile) : (s.setCurTile x).ports = s.ports := rfl

@[simp] theorem State.setCur_parts (s : State) (y : Strand) : (s.setCur y).parts = s.parts := rfl
@[simp] theorem State.setCur_mem (s : State) (y : Strand) : (s.setCur y).mem = s.mem := rfl
@[simp] theorem State.setCur_cyc (s : State) (y : Strand) : (s.setCur y).cyc = s.cyc := rfl
@[simp] theorem State.setCur_opcur (s : State) (y : Strand) : (s.setCur y).opcur = s.opcur := rfl
@[simp] theorem State.setCur_opBusy (s : State) (y : Strand) : (s.setCur y).opBusy = s.opBusy := rfl
@[simp] theorem State.setCur_ct (s : State) (y : Strand) : (s.setCur y).ct = s.ct := rfl
@[simp] theorem State.setCur_cs (s : State) (y : Strand) : (s.setCur y).cs = s.cs := rfl
@[simp] theorem State.setCur_agenda (s : State) (y : Strand) : (s.setCur y).agenda = s.agenda := rfl
@[simp] theorem State.setCur_commands (s : State) (y : Strand) : (s.setCur y).commands = s.commands := rfl
@[simp] theorem State.setCur_undoMade (s : State) (y : Strand) : (s.setCur y).undoMade = s.undoMade := rfl
@[simp] theorem State.setCur_lag (s : State) (y : Strand) : (s.setCur y).lag = s.lag := rfl
@[simp] theorem State.setCur_lines (s : State) (y : Strand) : (s.setCur y).lines = s.lines := rfl
@[simp] theorem State.setCur_dir (s : State) (y : Strand) : (s.setCur y).dir = s.dir := rfl
@[simp] theorem State.setCur_msc (s : State) (y : Strand) : (s.setCur y).msc = s.msc := rfl
@[simp] theorem State.setCur_rels (s : State) (y : Strand) : (s.setCur y).rels = s.rels := rfl
@[simp] theorem State.setCur_cuts (s : State) (y : Strand) : (s.setCur y).cuts = s.cuts := rfl
@[simp] theorem State.setCur_resv (s : State) (y : Strand) : (s.setCur y).resv = s.resv := rfl
@[simp] theorem State.setCur_nextRid (s : State) (y : Strand) : (s.setCur y).nextRid = s.nextRid := rfl
@[simp] theorem State.setCur_flight (s : State) (y : Strand) : (s.setCur y).flight = s.flight := rfl
@[simp] theorem State.setCur_rates (s : State) (y : Strand) : (s.setCur y).rates = s.rates := rfl
@[simp] theorem State.setCur_markers (s : State) (y : Strand) : (s.setCur y).markers = s.markers := rfl
@[simp] theorem State.setCur_windows (s : State) (y : Strand) : (s.setCur y).windows = s.windows := rfl
@[simp] theorem State.setCur_revoked (s : State) (y : Strand) : (s.setCur y).revoked = s.revoked := rfl
@[simp] theorem State.setCur_resWatches (s : State) (y : Strand) : (s.setCur y).resWatches = s.resWatches := rfl
@[simp] theorem State.setCur_resWritten (s : State) (y : Strand) : (s.setCur y).resWritten = s.resWritten := rfl
@[simp] theorem State.setCur_retained (s : State) (y : Strand) : (s.setCur y).retained = s.retained := rfl
@[simp] theorem State.setCur_poison (s : State) (y : Strand) : (s.setCur y).poison = s.poison := rfl
@[simp] theorem State.setCur_errlog (s : State) (y : Strand) : (s.setCur y).errlog = s.errlog := rfl
@[simp] theorem State.setCur_consumed (s : State) (y : Strand) : (s.setCur y).consumed = s.consumed := rfl
@[simp] theorem State.setCur_opStep (s : State) (y : Strand) : (s.setCur y).opStep = s.opStep := rfl
@[simp] theorem State.setCur_lent (s : State) (y : Strand) : (s.setCur y).lent = s.lent := rfl
@[simp] theorem State.setCur_timeout (s : State) (y : Strand) : (s.setCur y).timeout = s.timeout := rfl
@[simp] theorem State.setCur_audit (s : State) (y : Strand) : (s.setCur y).audit = s.audit := rfl
@[simp] theorem State.setCur_recovery (s : State) (y : Strand) : (s.setCur y).recovery = s.recovery := rfl
@[simp] theorem State.setCur_fkey (s : State) (y : Strand) : (s.setCur y).fkey = s.fkey := rfl
@[simp] theorem State.setCur_fver (s : State) (y : Strand) : (s.setCur y).fver = s.fver := rfl
@[simp] theorem State.setCur_store (s : State) (y : Strand) : (s.setCur y).store = s.store := rfl
@[simp] theorem State.setCur_meas (s : State) (y : Strand) : (s.setCur y).meas = s.meas := rfl
@[simp] theorem State.setCur_mbox (s : State) (y : Strand) : (s.setCur y).mbox = s.mbox := rfl
@[simp] theorem State.setCur_extData (s : State) (y : Strand) : (s.setCur y).extData = s.extData := rfl
@[simp] theorem State.setCur_extPoison (s : State) (y : Strand) : (s.setCur y).extPoison = s.extPoison := rfl
@[simp] theorem State.setCur_hbmDown (s : State) (y : Strand) : (s.setCur y).hbmDown = s.hbmDown := rfl
@[simp] theorem State.setCur_ucieDown (s : State) (y : Strand) : (s.setCur y).ucieDown = s.ucieDown := rfl
@[simp] theorem State.setCur_ports (s : State) (y : Strand) : (s.setCur y).ports = s.ports := rfl

@[simp] theorem State.setReg_parts (s : State) (r : BitVec 5) (v : Word) : (s.setReg r v).parts = s.parts := rfl
@[simp] theorem State.setReg_mem (s : State) (r : BitVec 5) (v : Word) : (s.setReg r v).mem = s.mem := rfl
@[simp] theorem State.setReg_cyc (s : State) (r : BitVec 5) (v : Word) : (s.setReg r v).cyc = s.cyc := rfl
@[simp] theorem State.setReg_opcur (s : State) (r : BitVec 5) (v : Word) : (s.setReg r v).opcur = s.opcur := rfl
@[simp] theorem State.setReg_opBusy (s : State) (r : BitVec 5) (v : Word) : (s.setReg r v).opBusy = s.opBusy := rfl
@[simp] theorem State.setReg_ct (s : State) (r : BitVec 5) (v : Word) : (s.setReg r v).ct = s.ct := rfl
@[simp] theorem State.setReg_cs (s : State) (r : BitVec 5) (v : Word) : (s.setReg r v).cs = s.cs := rfl
@[simp] theorem State.setReg_agenda (s : State) (r : BitVec 5) (v : Word) : (s.setReg r v).agenda = s.agenda := rfl
@[simp] theorem State.setReg_commands (s : State) (r : BitVec 5) (v : Word) : (s.setReg r v).commands = s.commands := rfl
@[simp] theorem State.setReg_undoMade (s : State) (r : BitVec 5) (v : Word) : (s.setReg r v).undoMade = s.undoMade := rfl
@[simp] theorem State.setReg_lag (s : State) (r : BitVec 5) (v : Word) : (s.setReg r v).lag = s.lag := rfl
@[simp] theorem State.setReg_lines (s : State) (r : BitVec 5) (v : Word) : (s.setReg r v).lines = s.lines := rfl
@[simp] theorem State.setReg_dir (s : State) (r : BitVec 5) (v : Word) : (s.setReg r v).dir = s.dir := rfl
@[simp] theorem State.setReg_msc (s : State) (r : BitVec 5) (v : Word) : (s.setReg r v).msc = s.msc := rfl
@[simp] theorem State.setReg_rels (s : State) (r : BitVec 5) (v : Word) : (s.setReg r v).rels = s.rels := rfl
@[simp] theorem State.setReg_cuts (s : State) (r : BitVec 5) (v : Word) : (s.setReg r v).cuts = s.cuts := rfl
@[simp] theorem State.setReg_resv (s : State) (r : BitVec 5) (v : Word) : (s.setReg r v).resv = s.resv := rfl
@[simp] theorem State.setReg_nextRid (s : State) (r : BitVec 5) (v : Word) : (s.setReg r v).nextRid = s.nextRid := rfl
@[simp] theorem State.setReg_flight (s : State) (r : BitVec 5) (v : Word) : (s.setReg r v).flight = s.flight := rfl
@[simp] theorem State.setReg_rates (s : State) (r : BitVec 5) (v : Word) : (s.setReg r v).rates = s.rates := rfl
@[simp] theorem State.setReg_markers (s : State) (r : BitVec 5) (v : Word) : (s.setReg r v).markers = s.markers := rfl
@[simp] theorem State.setReg_windows (s : State) (r : BitVec 5) (v : Word) : (s.setReg r v).windows = s.windows := rfl
@[simp] theorem State.setReg_revoked (s : State) (r : BitVec 5) (v : Word) : (s.setReg r v).revoked = s.revoked := rfl
@[simp] theorem State.setReg_resWatches (s : State) (r : BitVec 5) (v : Word) : (s.setReg r v).resWatches = s.resWatches := rfl
@[simp] theorem State.setReg_resWritten (s : State) (r : BitVec 5) (v : Word) : (s.setReg r v).resWritten = s.resWritten := rfl
@[simp] theorem State.setReg_retained (s : State) (r : BitVec 5) (v : Word) : (s.setReg r v).retained = s.retained := rfl
@[simp] theorem State.setReg_poison (s : State) (r : BitVec 5) (v : Word) : (s.setReg r v).poison = s.poison := rfl
@[simp] theorem State.setReg_errlog (s : State) (r : BitVec 5) (v : Word) : (s.setReg r v).errlog = s.errlog := rfl
@[simp] theorem State.setReg_consumed (s : State) (r : BitVec 5) (v : Word) : (s.setReg r v).consumed = s.consumed := rfl
@[simp] theorem State.setReg_opStep (s : State) (r : BitVec 5) (v : Word) : (s.setReg r v).opStep = s.opStep := rfl
@[simp] theorem State.setReg_lent (s : State) (r : BitVec 5) (v : Word) : (s.setReg r v).lent = s.lent := rfl
@[simp] theorem State.setReg_timeout (s : State) (r : BitVec 5) (v : Word) : (s.setReg r v).timeout = s.timeout := rfl
@[simp] theorem State.setReg_audit (s : State) (r : BitVec 5) (v : Word) : (s.setReg r v).audit = s.audit := rfl
@[simp] theorem State.setReg_recovery (s : State) (r : BitVec 5) (v : Word) : (s.setReg r v).recovery = s.recovery := rfl
@[simp] theorem State.setReg_fkey (s : State) (r : BitVec 5) (v : Word) : (s.setReg r v).fkey = s.fkey := rfl
@[simp] theorem State.setReg_fver (s : State) (r : BitVec 5) (v : Word) : (s.setReg r v).fver = s.fver := rfl
@[simp] theorem State.setReg_store (s : State) (r : BitVec 5) (v : Word) : (s.setReg r v).store = s.store := rfl
@[simp] theorem State.setReg_meas (s : State) (r : BitVec 5) (v : Word) : (s.setReg r v).meas = s.meas := rfl
@[simp] theorem State.setReg_mbox (s : State) (r : BitVec 5) (v : Word) : (s.setReg r v).mbox = s.mbox := rfl
@[simp] theorem State.setReg_extData (s : State) (r : BitVec 5) (v : Word) : (s.setReg r v).extData = s.extData := rfl
@[simp] theorem State.setReg_extPoison (s : State) (r : BitVec 5) (v : Word) : (s.setReg r v).extPoison = s.extPoison := rfl
@[simp] theorem State.setReg_hbmDown (s : State) (r : BitVec 5) (v : Word) : (s.setReg r v).hbmDown = s.hbmDown := rfl
@[simp] theorem State.setReg_ucieDown (s : State) (r : BitVec 5) (v : Word) : (s.setReg r v).ucieDown = s.ucieDown := rfl
@[simp] theorem State.setReg_ports (s : State) (r : BitVec 5) (v : Word) : (s.setReg r v).ports = s.ports := rfl

@[simp] theorem State.goto_parts (s : State) (a : Word) : (s.goto a).parts = s.parts := rfl
@[simp] theorem State.goto_mem (s : State) (a : Word) : (s.goto a).mem = s.mem := rfl
@[simp] theorem State.goto_cyc (s : State) (a : Word) : (s.goto a).cyc = s.cyc := rfl
@[simp] theorem State.goto_opcur (s : State) (a : Word) : (s.goto a).opcur = s.opcur := rfl
@[simp] theorem State.goto_opBusy (s : State) (a : Word) : (s.goto a).opBusy = s.opBusy := rfl
@[simp] theorem State.goto_ct (s : State) (a : Word) : (s.goto a).ct = s.ct := rfl
@[simp] theorem State.goto_cs (s : State) (a : Word) : (s.goto a).cs = s.cs := rfl
@[simp] theorem State.goto_agenda (s : State) (a : Word) : (s.goto a).agenda = s.agenda := rfl
@[simp] theorem State.goto_commands (s : State) (a : Word) : (s.goto a).commands = s.commands := rfl
@[simp] theorem State.goto_undoMade (s : State) (a : Word) : (s.goto a).undoMade = s.undoMade := rfl
@[simp] theorem State.goto_lag (s : State) (a : Word) : (s.goto a).lag = s.lag := rfl
@[simp] theorem State.goto_lines (s : State) (a : Word) : (s.goto a).lines = s.lines := rfl
@[simp] theorem State.goto_dir (s : State) (a : Word) : (s.goto a).dir = s.dir := rfl
@[simp] theorem State.goto_msc (s : State) (a : Word) : (s.goto a).msc = s.msc := rfl
@[simp] theorem State.goto_rels (s : State) (a : Word) : (s.goto a).rels = s.rels := rfl
@[simp] theorem State.goto_cuts (s : State) (a : Word) : (s.goto a).cuts = s.cuts := rfl
@[simp] theorem State.goto_resv (s : State) (a : Word) : (s.goto a).resv = s.resv := rfl
@[simp] theorem State.goto_nextRid (s : State) (a : Word) : (s.goto a).nextRid = s.nextRid := rfl
@[simp] theorem State.goto_flight (s : State) (a : Word) : (s.goto a).flight = s.flight := rfl
@[simp] theorem State.goto_rates (s : State) (a : Word) : (s.goto a).rates = s.rates := rfl
@[simp] theorem State.goto_markers (s : State) (a : Word) : (s.goto a).markers = s.markers := rfl
@[simp] theorem State.goto_windows (s : State) (a : Word) : (s.goto a).windows = s.windows := rfl
@[simp] theorem State.goto_revoked (s : State) (a : Word) : (s.goto a).revoked = s.revoked := rfl
@[simp] theorem State.goto_resWatches (s : State) (a : Word) : (s.goto a).resWatches = s.resWatches := rfl
@[simp] theorem State.goto_resWritten (s : State) (a : Word) : (s.goto a).resWritten = s.resWritten := rfl
@[simp] theorem State.goto_retained (s : State) (a : Word) : (s.goto a).retained = s.retained := rfl
@[simp] theorem State.goto_poison (s : State) (a : Word) : (s.goto a).poison = s.poison := rfl
@[simp] theorem State.goto_errlog (s : State) (a : Word) : (s.goto a).errlog = s.errlog := rfl
@[simp] theorem State.goto_consumed (s : State) (a : Word) : (s.goto a).consumed = s.consumed := rfl
@[simp] theorem State.goto_opStep (s : State) (a : Word) : (s.goto a).opStep = s.opStep := rfl
@[simp] theorem State.goto_lent (s : State) (a : Word) : (s.goto a).lent = s.lent := rfl
@[simp] theorem State.goto_timeout (s : State) (a : Word) : (s.goto a).timeout = s.timeout := rfl
@[simp] theorem State.goto_audit (s : State) (a : Word) : (s.goto a).audit = s.audit := rfl
@[simp] theorem State.goto_recovery (s : State) (a : Word) : (s.goto a).recovery = s.recovery := rfl
@[simp] theorem State.goto_fkey (s : State) (a : Word) : (s.goto a).fkey = s.fkey := rfl
@[simp] theorem State.goto_fver (s : State) (a : Word) : (s.goto a).fver = s.fver := rfl
@[simp] theorem State.goto_store (s : State) (a : Word) : (s.goto a).store = s.store := rfl
@[simp] theorem State.goto_meas (s : State) (a : Word) : (s.goto a).meas = s.meas := rfl
@[simp] theorem State.goto_mbox (s : State) (a : Word) : (s.goto a).mbox = s.mbox := rfl
@[simp] theorem State.goto_extData (s : State) (a : Word) : (s.goto a).extData = s.extData := rfl
@[simp] theorem State.goto_extPoison (s : State) (a : Word) : (s.goto a).extPoison = s.extPoison := rfl
@[simp] theorem State.goto_hbmDown (s : State) (a : Word) : (s.goto a).hbmDown = s.hbmDown := rfl
@[simp] theorem State.goto_ucieDown (s : State) (a : Word) : (s.goto a).ucieDown = s.ucieDown := rfl
@[simp] theorem State.goto_ports (s : State) (a : Word) : (s.goto a).ports = s.ports := rfl

@[simp] theorem State.advance_parts (s : State) : (s.advance).parts = s.parts := rfl
@[simp] theorem State.advance_mem (s : State) : (s.advance).mem = s.mem := rfl
@[simp] theorem State.advance_cyc (s : State) : (s.advance).cyc = s.cyc := rfl
@[simp] theorem State.advance_opcur (s : State) : (s.advance).opcur = s.opcur := rfl
@[simp] theorem State.advance_opBusy (s : State) : (s.advance).opBusy = s.opBusy := rfl
@[simp] theorem State.advance_ct (s : State) : (s.advance).ct = s.ct := rfl
@[simp] theorem State.advance_cs (s : State) : (s.advance).cs = s.cs := rfl
@[simp] theorem State.advance_agenda (s : State) : (s.advance).agenda = s.agenda := rfl
@[simp] theorem State.advance_commands (s : State) : (s.advance).commands = s.commands := rfl
@[simp] theorem State.advance_undoMade (s : State) : (s.advance).undoMade = s.undoMade := rfl
@[simp] theorem State.advance_lag (s : State) : (s.advance).lag = s.lag := rfl
@[simp] theorem State.advance_lines (s : State) : (s.advance).lines = s.lines := rfl
@[simp] theorem State.advance_dir (s : State) : (s.advance).dir = s.dir := rfl
@[simp] theorem State.advance_msc (s : State) : (s.advance).msc = s.msc := rfl
@[simp] theorem State.advance_rels (s : State) : (s.advance).rels = s.rels := rfl
@[simp] theorem State.advance_cuts (s : State) : (s.advance).cuts = s.cuts := rfl
@[simp] theorem State.advance_resv (s : State) : (s.advance).resv = s.resv := rfl
@[simp] theorem State.advance_nextRid (s : State) : (s.advance).nextRid = s.nextRid := rfl
@[simp] theorem State.advance_flight (s : State) : (s.advance).flight = s.flight := rfl
@[simp] theorem State.advance_rates (s : State) : (s.advance).rates = s.rates := rfl
@[simp] theorem State.advance_markers (s : State) : (s.advance).markers = s.markers := rfl
@[simp] theorem State.advance_windows (s : State) : (s.advance).windows = s.windows := rfl
@[simp] theorem State.advance_revoked (s : State) : (s.advance).revoked = s.revoked := rfl
@[simp] theorem State.advance_resWatches (s : State) : (s.advance).resWatches = s.resWatches := rfl
@[simp] theorem State.advance_resWritten (s : State) : (s.advance).resWritten = s.resWritten := rfl
@[simp] theorem State.advance_retained (s : State) : (s.advance).retained = s.retained := rfl
@[simp] theorem State.advance_poison (s : State) : (s.advance).poison = s.poison := rfl
@[simp] theorem State.advance_errlog (s : State) : (s.advance).errlog = s.errlog := rfl
@[simp] theorem State.advance_consumed (s : State) : (s.advance).consumed = s.consumed := rfl
@[simp] theorem State.advance_opStep (s : State) : (s.advance).opStep = s.opStep := rfl
@[simp] theorem State.advance_lent (s : State) : (s.advance).lent = s.lent := rfl
@[simp] theorem State.advance_timeout (s : State) : (s.advance).timeout = s.timeout := rfl
@[simp] theorem State.advance_audit (s : State) : (s.advance).audit = s.audit := rfl
@[simp] theorem State.advance_recovery (s : State) : (s.advance).recovery = s.recovery := rfl
@[simp] theorem State.advance_fkey (s : State) : (s.advance).fkey = s.fkey := rfl
@[simp] theorem State.advance_fver (s : State) : (s.advance).fver = s.fver := rfl
@[simp] theorem State.advance_store (s : State) : (s.advance).store = s.store := rfl
@[simp] theorem State.advance_meas (s : State) : (s.advance).meas = s.meas := rfl
@[simp] theorem State.advance_mbox (s : State) : (s.advance).mbox = s.mbox := rfl
@[simp] theorem State.advance_extData (s : State) : (s.advance).extData = s.extData := rfl
@[simp] theorem State.advance_extPoison (s : State) : (s.advance).extPoison = s.extPoison := rfl
@[simp] theorem State.advance_hbmDown (s : State) : (s.advance).hbmDown = s.hbmDown := rfl
@[simp] theorem State.advance_ucieDown (s : State) : (s.advance).ucieDown = s.ucieDown := rfl
@[simp] theorem State.advance_ports (s : State) : (s.advance).ports = s.ports := rfl

@[simp] theorem State.retire_parts (s : State) (d : BitVec 5) (v : Word) : (s.retire d v).parts = s.parts := rfl
@[simp] theorem State.retire_mem (s : State) (d : BitVec 5) (v : Word) : (s.retire d v).mem = s.mem := rfl
@[simp] theorem State.retire_cyc (s : State) (d : BitVec 5) (v : Word) : (s.retire d v).cyc = s.cyc := rfl
@[simp] theorem State.retire_opcur (s : State) (d : BitVec 5) (v : Word) : (s.retire d v).opcur = s.opcur := rfl
@[simp] theorem State.retire_opBusy (s : State) (d : BitVec 5) (v : Word) : (s.retire d v).opBusy = s.opBusy := rfl
@[simp] theorem State.retire_ct (s : State) (d : BitVec 5) (v : Word) : (s.retire d v).ct = s.ct := rfl
@[simp] theorem State.retire_cs (s : State) (d : BitVec 5) (v : Word) : (s.retire d v).cs = s.cs := rfl
@[simp] theorem State.retire_agenda (s : State) (d : BitVec 5) (v : Word) : (s.retire d v).agenda = s.agenda := rfl
@[simp] theorem State.retire_commands (s : State) (d : BitVec 5) (v : Word) : (s.retire d v).commands = s.commands := rfl
@[simp] theorem State.retire_undoMade (s : State) (d : BitVec 5) (v : Word) : (s.retire d v).undoMade = s.undoMade := rfl
@[simp] theorem State.retire_lag (s : State) (d : BitVec 5) (v : Word) : (s.retire d v).lag = s.lag := rfl
@[simp] theorem State.retire_lines (s : State) (d : BitVec 5) (v : Word) : (s.retire d v).lines = s.lines := rfl
@[simp] theorem State.retire_dir (s : State) (d : BitVec 5) (v : Word) : (s.retire d v).dir = s.dir := rfl
@[simp] theorem State.retire_msc (s : State) (d : BitVec 5) (v : Word) : (s.retire d v).msc = s.msc := rfl
@[simp] theorem State.retire_rels (s : State) (d : BitVec 5) (v : Word) : (s.retire d v).rels = s.rels := rfl
@[simp] theorem State.retire_cuts (s : State) (d : BitVec 5) (v : Word) : (s.retire d v).cuts = s.cuts := rfl
@[simp] theorem State.retire_resv (s : State) (d : BitVec 5) (v : Word) : (s.retire d v).resv = s.resv := rfl
@[simp] theorem State.retire_nextRid (s : State) (d : BitVec 5) (v : Word) : (s.retire d v).nextRid = s.nextRid := rfl
@[simp] theorem State.retire_flight (s : State) (d : BitVec 5) (v : Word) : (s.retire d v).flight = s.flight := rfl
@[simp] theorem State.retire_rates (s : State) (d : BitVec 5) (v : Word) : (s.retire d v).rates = s.rates := rfl
@[simp] theorem State.retire_markers (s : State) (d : BitVec 5) (v : Word) : (s.retire d v).markers = s.markers := rfl
@[simp] theorem State.retire_windows (s : State) (d : BitVec 5) (v : Word) : (s.retire d v).windows = s.windows := rfl
@[simp] theorem State.retire_revoked (s : State) (d : BitVec 5) (v : Word) : (s.retire d v).revoked = s.revoked := rfl
@[simp] theorem State.retire_resWatches (s : State) (d : BitVec 5) (v : Word) : (s.retire d v).resWatches = s.resWatches := rfl
@[simp] theorem State.retire_resWritten (s : State) (d : BitVec 5) (v : Word) : (s.retire d v).resWritten = s.resWritten := rfl
@[simp] theorem State.retire_retained (s : State) (d : BitVec 5) (v : Word) : (s.retire d v).retained = s.retained := rfl
@[simp] theorem State.retire_poison (s : State) (d : BitVec 5) (v : Word) : (s.retire d v).poison = s.poison := rfl
@[simp] theorem State.retire_errlog (s : State) (d : BitVec 5) (v : Word) : (s.retire d v).errlog = s.errlog := rfl
@[simp] theorem State.retire_consumed (s : State) (d : BitVec 5) (v : Word) : (s.retire d v).consumed = s.consumed := rfl
@[simp] theorem State.retire_opStep (s : State) (d : BitVec 5) (v : Word) : (s.retire d v).opStep = s.opStep := rfl
@[simp] theorem State.retire_lent (s : State) (d : BitVec 5) (v : Word) : (s.retire d v).lent = s.lent := rfl
@[simp] theorem State.retire_timeout (s : State) (d : BitVec 5) (v : Word) : (s.retire d v).timeout = s.timeout := rfl
@[simp] theorem State.retire_audit (s : State) (d : BitVec 5) (v : Word) : (s.retire d v).audit = s.audit := rfl
@[simp] theorem State.retire_recovery (s : State) (d : BitVec 5) (v : Word) : (s.retire d v).recovery = s.recovery := rfl
@[simp] theorem State.retire_fkey (s : State) (d : BitVec 5) (v : Word) : (s.retire d v).fkey = s.fkey := rfl
@[simp] theorem State.retire_fver (s : State) (d : BitVec 5) (v : Word) : (s.retire d v).fver = s.fver := rfl
@[simp] theorem State.retire_store (s : State) (d : BitVec 5) (v : Word) : (s.retire d v).store = s.store := rfl
@[simp] theorem State.retire_meas (s : State) (d : BitVec 5) (v : Word) : (s.retire d v).meas = s.meas := rfl
@[simp] theorem State.retire_mbox (s : State) (d : BitVec 5) (v : Word) : (s.retire d v).mbox = s.mbox := rfl
@[simp] theorem State.retire_extData (s : State) (d : BitVec 5) (v : Word) : (s.retire d v).extData = s.extData := rfl
@[simp] theorem State.retire_extPoison (s : State) (d : BitVec 5) (v : Word) : (s.retire d v).extPoison = s.extPoison := rfl
@[simp] theorem State.retire_hbmDown (s : State) (d : BitVec 5) (v : Word) : (s.retire d v).hbmDown = s.hbmDown := rfl
@[simp] theorem State.retire_ucieDown (s : State) (d : BitVec 5) (v : Word) : (s.retire d v).ucieDown = s.ucieDown := rfl
@[simp] theorem State.retire_ports (s : State) (d : BitVec 5) (v : Word) : (s.retire d v).ports = s.ports := rfl

@[simp] theorem State.noteWait_tiles (s : State) (w : WaitKind) : (s.noteWait w).tiles = s.tiles := by cases w <;> rfl
@[simp] theorem State.noteWait_parts (s : State) (w : WaitKind) : (s.noteWait w).parts = s.parts := by cases w <;> rfl
@[simp] theorem State.noteWait_mem (s : State) (w : WaitKind) : (s.noteWait w).mem = s.mem := by cases w <;> rfl
@[simp] theorem State.noteWait_cyc (s : State) (w : WaitKind) : (s.noteWait w).cyc = s.cyc := by cases w <;> rfl
@[simp] theorem State.noteWait_opcur (s : State) (w : WaitKind) : (s.noteWait w).opcur = s.opcur := by cases w <;> rfl
@[simp] theorem State.noteWait_opBusy (s : State) (w : WaitKind) : (s.noteWait w).opBusy = s.opBusy := by cases w <;> rfl
@[simp] theorem State.noteWait_ct (s : State) (w : WaitKind) : (s.noteWait w).ct = s.ct := by cases w <;> rfl
@[simp] theorem State.noteWait_cs (s : State) (w : WaitKind) : (s.noteWait w).cs = s.cs := by cases w <;> rfl
@[simp] theorem State.noteWait_agenda (s : State) (w : WaitKind) : (s.noteWait w).agenda = s.agenda := by cases w <;> rfl
@[simp] theorem State.noteWait_commands (s : State) (w : WaitKind) : (s.noteWait w).commands = s.commands := by cases w <;> rfl
@[simp] theorem State.noteWait_undoMade (s : State) (w : WaitKind) : (s.noteWait w).undoMade = s.undoMade := by cases w <;> rfl
@[simp] theorem State.noteWait_lag (s : State) (w : WaitKind) : (s.noteWait w).lag = s.lag := by cases w <;> rfl
@[simp] theorem State.noteWait_lines (s : State) (w : WaitKind) : (s.noteWait w).lines = s.lines := by cases w <;> rfl
@[simp] theorem State.noteWait_dir (s : State) (w : WaitKind) : (s.noteWait w).dir = s.dir := by cases w <;> rfl
@[simp] theorem State.noteWait_msc (s : State) (w : WaitKind) : (s.noteWait w).msc = s.msc := by cases w <;> rfl
@[simp] theorem State.noteWait_rels (s : State) (w : WaitKind) : (s.noteWait w).rels = s.rels := by cases w <;> rfl
@[simp] theorem State.noteWait_cuts (s : State) (w : WaitKind) : (s.noteWait w).cuts = s.cuts := by cases w <;> rfl
@[simp] theorem State.noteWait_nextRid (s : State) (w : WaitKind) : (s.noteWait w).nextRid = s.nextRid := by cases w <;> rfl
@[simp] theorem State.noteWait_flight (s : State) (w : WaitKind) : (s.noteWait w).flight = s.flight := by cases w <;> rfl
@[simp] theorem State.noteWait_rates (s : State) (w : WaitKind) : (s.noteWait w).rates = s.rates := by cases w <;> rfl
@[simp] theorem State.noteWait_markers (s : State) (w : WaitKind) : (s.noteWait w).markers = s.markers := by cases w <;> rfl
@[simp] theorem State.noteWait_windows (s : State) (w : WaitKind) : (s.noteWait w).windows = s.windows := by cases w <;> rfl
@[simp] theorem State.noteWait_revoked (s : State) (w : WaitKind) : (s.noteWait w).revoked = s.revoked := by cases w <;> rfl
@[simp] theorem State.noteWait_resWatches (s : State) (w : WaitKind) : (s.noteWait w).resWatches = s.resWatches := by cases w <;> rfl
@[simp] theorem State.noteWait_resWritten (s : State) (w : WaitKind) : (s.noteWait w).resWritten = s.resWritten := by cases w <;> rfl
@[simp] theorem State.noteWait_retained (s : State) (w : WaitKind) : (s.noteWait w).retained = s.retained := by cases w <;> rfl
@[simp] theorem State.noteWait_poison (s : State) (w : WaitKind) : (s.noteWait w).poison = s.poison := by cases w <;> rfl
@[simp] theorem State.noteWait_errlog (s : State) (w : WaitKind) : (s.noteWait w).errlog = s.errlog := by cases w <;> rfl
@[simp] theorem State.noteWait_consumed (s : State) (w : WaitKind) : (s.noteWait w).consumed = s.consumed := by cases w <;> rfl
@[simp] theorem State.noteWait_opStep (s : State) (w : WaitKind) : (s.noteWait w).opStep = s.opStep := by cases w <;> rfl
@[simp] theorem State.noteWait_lent (s : State) (w : WaitKind) : (s.noteWait w).lent = s.lent := by cases w <;> rfl
@[simp] theorem State.noteWait_timeout (s : State) (w : WaitKind) : (s.noteWait w).timeout = s.timeout := by cases w <;> rfl
@[simp] theorem State.noteWait_audit (s : State) (w : WaitKind) : (s.noteWait w).audit = s.audit := by cases w <;> rfl
@[simp] theorem State.noteWait_recovery (s : State) (w : WaitKind) : (s.noteWait w).recovery = s.recovery := by cases w <;> rfl
@[simp] theorem State.noteWait_fkey (s : State) (w : WaitKind) : (s.noteWait w).fkey = s.fkey := by cases w <;> rfl
@[simp] theorem State.noteWait_fver (s : State) (w : WaitKind) : (s.noteWait w).fver = s.fver := by cases w <;> rfl
@[simp] theorem State.noteWait_store (s : State) (w : WaitKind) : (s.noteWait w).store = s.store := by cases w <;> rfl
@[simp] theorem State.noteWait_meas (s : State) (w : WaitKind) : (s.noteWait w).meas = s.meas := by cases w <;> rfl
@[simp] theorem State.noteWait_mbox (s : State) (w : WaitKind) : (s.noteWait w).mbox = s.mbox := by cases w <;> rfl
@[simp] theorem State.noteWait_extData (s : State) (w : WaitKind) : (s.noteWait w).extData = s.extData := by cases w <;> rfl
@[simp] theorem State.noteWait_extPoison (s : State) (w : WaitKind) : (s.noteWait w).extPoison = s.extPoison := by cases w <;> rfl
@[simp] theorem State.noteWait_hbmDown (s : State) (w : WaitKind) : (s.noteWait w).hbmDown = s.hbmDown := by cases w <;> rfl
@[simp] theorem State.noteWait_ucieDown (s : State) (w : WaitKind) : (s.noteWait w).ucieDown = s.ucieDown := by cases w <;> rfl
@[simp] theorem State.noteWait_ports (s : State) (w : WaitKind) : (s.noteWait w).ports = s.ports := by cases w <;> rfl

@[simp] theorem State.waitAt_parts (s : State) (w : WaitKind) : (s.waitAt w).parts = s.parts := by cases w <;> rfl
@[simp] theorem State.waitAt_mem (s : State) (w : WaitKind) : (s.waitAt w).mem = s.mem := by cases w <;> rfl
@[simp] theorem State.waitAt_cyc (s : State) (w : WaitKind) : (s.waitAt w).cyc = s.cyc := by cases w <;> rfl
@[simp] theorem State.waitAt_opcur (s : State) (w : WaitKind) : (s.waitAt w).opcur = s.opcur := by cases w <;> rfl
@[simp] theorem State.waitAt_opBusy (s : State) (w : WaitKind) : (s.waitAt w).opBusy = s.opBusy := by cases w <;> rfl
@[simp] theorem State.waitAt_ct (s : State) (w : WaitKind) : (s.waitAt w).ct = s.ct := by cases w <;> rfl
@[simp] theorem State.waitAt_cs (s : State) (w : WaitKind) : (s.waitAt w).cs = s.cs := by cases w <;> rfl
@[simp] theorem State.waitAt_agenda (s : State) (w : WaitKind) : (s.waitAt w).agenda = s.agenda := by cases w <;> rfl
@[simp] theorem State.waitAt_commands (s : State) (w : WaitKind) : (s.waitAt w).commands = s.commands := by cases w <;> rfl
@[simp] theorem State.waitAt_undoMade (s : State) (w : WaitKind) : (s.waitAt w).undoMade = s.undoMade := by cases w <;> rfl
@[simp] theorem State.waitAt_lag (s : State) (w : WaitKind) : (s.waitAt w).lag = s.lag := by cases w <;> rfl
@[simp] theorem State.waitAt_lines (s : State) (w : WaitKind) : (s.waitAt w).lines = s.lines := by cases w <;> rfl
@[simp] theorem State.waitAt_dir (s : State) (w : WaitKind) : (s.waitAt w).dir = s.dir := by cases w <;> rfl
@[simp] theorem State.waitAt_msc (s : State) (w : WaitKind) : (s.waitAt w).msc = s.msc := by cases w <;> rfl
@[simp] theorem State.waitAt_rels (s : State) (w : WaitKind) : (s.waitAt w).rels = s.rels := by cases w <;> rfl
@[simp] theorem State.waitAt_cuts (s : State) (w : WaitKind) : (s.waitAt w).cuts = s.cuts := by cases w <;> rfl
@[simp] theorem State.waitAt_nextRid (s : State) (w : WaitKind) : (s.waitAt w).nextRid = s.nextRid := by cases w <;> rfl
@[simp] theorem State.waitAt_flight (s : State) (w : WaitKind) : (s.waitAt w).flight = s.flight := by cases w <;> rfl
@[simp] theorem State.waitAt_rates (s : State) (w : WaitKind) : (s.waitAt w).rates = s.rates := by cases w <;> rfl
@[simp] theorem State.waitAt_markers (s : State) (w : WaitKind) : (s.waitAt w).markers = s.markers := by cases w <;> rfl
@[simp] theorem State.waitAt_windows (s : State) (w : WaitKind) : (s.waitAt w).windows = s.windows := by cases w <;> rfl
@[simp] theorem State.waitAt_revoked (s : State) (w : WaitKind) : (s.waitAt w).revoked = s.revoked := by cases w <;> rfl
@[simp] theorem State.waitAt_resWatches (s : State) (w : WaitKind) : (s.waitAt w).resWatches = s.resWatches := by cases w <;> rfl
@[simp] theorem State.waitAt_resWritten (s : State) (w : WaitKind) : (s.waitAt w).resWritten = s.resWritten := by cases w <;> rfl
@[simp] theorem State.waitAt_retained (s : State) (w : WaitKind) : (s.waitAt w).retained = s.retained := by cases w <;> rfl
@[simp] theorem State.waitAt_poison (s : State) (w : WaitKind) : (s.waitAt w).poison = s.poison := by cases w <;> rfl
@[simp] theorem State.waitAt_errlog (s : State) (w : WaitKind) : (s.waitAt w).errlog = s.errlog := by cases w <;> rfl
@[simp] theorem State.waitAt_consumed (s : State) (w : WaitKind) : (s.waitAt w).consumed = s.consumed := by cases w <;> rfl
@[simp] theorem State.waitAt_opStep (s : State) (w : WaitKind) : (s.waitAt w).opStep = s.opStep := by cases w <;> rfl
@[simp] theorem State.waitAt_lent (s : State) (w : WaitKind) : (s.waitAt w).lent = s.lent := by cases w <;> rfl
@[simp] theorem State.waitAt_timeout (s : State) (w : WaitKind) : (s.waitAt w).timeout = s.timeout := by cases w <;> rfl
@[simp] theorem State.waitAt_audit (s : State) (w : WaitKind) : (s.waitAt w).audit = s.audit := by cases w <;> rfl
@[simp] theorem State.waitAt_recovery (s : State) (w : WaitKind) : (s.waitAt w).recovery = s.recovery := by cases w <;> rfl
@[simp] theorem State.waitAt_fkey (s : State) (w : WaitKind) : (s.waitAt w).fkey = s.fkey := by cases w <;> rfl
@[simp] theorem State.waitAt_fver (s : State) (w : WaitKind) : (s.waitAt w).fver = s.fver := by cases w <;> rfl
@[simp] theorem State.waitAt_store (s : State) (w : WaitKind) : (s.waitAt w).store = s.store := by cases w <;> rfl
@[simp] theorem State.waitAt_meas (s : State) (w : WaitKind) : (s.waitAt w).meas = s.meas := by cases w <;> rfl
@[simp] theorem State.waitAt_mbox (s : State) (w : WaitKind) : (s.waitAt w).mbox = s.mbox := by cases w <;> rfl
@[simp] theorem State.waitAt_extData (s : State) (w : WaitKind) : (s.waitAt w).extData = s.extData := by cases w <;> rfl
@[simp] theorem State.waitAt_extPoison (s : State) (w : WaitKind) : (s.waitAt w).extPoison = s.extPoison := by cases w <;> rfl
@[simp] theorem State.waitAt_hbmDown (s : State) (w : WaitKind) : (s.waitAt w).hbmDown = s.hbmDown := by cases w <;> rfl
@[simp] theorem State.waitAt_ucieDown (s : State) (w : WaitKind) : (s.waitAt w).ucieDown = s.ucieDown := by cases w <;> rfl
@[simp] theorem State.waitAt_ports (s : State) (w : WaitKind) : (s.waitAt w).ports = s.ports := by cases w <;> rfl

/-! ### Fields of a tile that setting a strand does not write -/

@[simp] theorem Tile.setStrand_tc (x : Tile) (k : Nat) (y : Strand) : (x.setStrand k y).tc = x.tc := rfl
@[simp] theorem Tile.setStrand_l1d (x : Tile) (k : Nat) (y : Strand) : (x.setStrand k y).l1d = x.l1d := rfl
@[simp] theorem Tile.setStrand_l1i (x : Tile) (k : Nat) (y : Strand) : (x.setStrand k y).l1i = x.l1i := rfl
@[simp] theorem Tile.setStrand_rmask (x : Tile) (k : Nat) (y : Strand) : (x.setStrand k y).rmask = x.rmask := rfl
@[simp] theorem Tile.setStrand_xlat (x : Tile) (k : Nat) (y : Strand) : (x.setStrand k y).xlat = x.xlat := rfl
@[simp] theorem Tile.setStrand_undo (x : Tile) (k : Nat) (y : Strand) : (x.setStrand k y).undo = x.undo := rfl
@[simp] theorem Tile.setStrand_undoLost (x : Tile) (k : Nat) (y : Strand) : (x.setStrand k y).undoLost = x.undoLost := rfl
@[simp] theorem Tile.setStrand_fails (x : Tile) (k : Nat) (y : Strand) : (x.setStrand k y).fails = x.fails := rfl
@[simp] theorem Tile.setStrand_tcw (x : Tile) (k : Nat) (y : Strand) : (x.setStrand k y).tcw = x.tcw := rfl
@[simp] theorem Tile.setStrand_l1w (x : Tile) (k : Nat) (y : Strand) : (x.setStrand k y).l1w = x.l1w := rfl
@[simp] theorem Tile.setStrand_remap (x : Tile) (k : Nat) (y : Strand) : (x.setStrand k y).remap = x.remap := rfl
@[simp] theorem Tile.setStrand_tcOff (x : Tile) (k : Nat) (y : Strand) : (x.setStrand k y).tcOff = x.tcOff := rfl
@[simp] theorem Tile.setStrand_l1Off (x : Tile) (k : Nat) (y : Strand) : (x.setStrand k y).l1Off = x.l1Off := rfl
@[simp] theorem Tile.setStrand_halted (x : Tile) (k : Nat) (y : Strand) : (x.setStrand k y).halted = x.halted := rfl
@[simp] theorem Tile.setStrand_saved (x : Tile) (k : Nat) (y : Strand) : (x.setStrand k y).saved = x.saved := rfl
@[simp] theorem Tile.setStrand_backing (x : Tile) (k : Nat) (y : Strand) : (x.setStrand k y).backing = x.backing := rfl
@[simp] theorem Tile.setStrand_evicted (x : Tile) (k : Nat) (y : Strand) : (x.setStrand k y).evicted = x.evicted := rfl
@[simp] theorem Tile.setStrand_chEvicted (x : Tile) (k : Nat) (y : Strand) : (x.setStrand k y).chEvicted = x.chEvicted := rfl
@[simp] theorem Tile.setStrand_wave (x : Tile) (k : Nat) (y : Strand) : (x.setStrand k y).wave = x.wave := rfl
@[simp] theorem Tile.setStrand_snaps (x : Tile) (k : Nat) (y : Strand) : (x.setStrand k y).snaps = x.snaps := rfl
@[simp] theorem Tile.setStrand_marked (x : Tile) (k : Nat) (y : Strand) : (x.setStrand k y).marked = x.marked := rfl
@[simp] theorem Tile.setStrand_rollback (x : Tile) (k : Nat) (y : Strand) : (x.setStrand k y).rollback = x.rollback := rfl
@[simp] theorem Tile.setStrand_fenced (x : Tile) (k : Nat) (y : Strand) : (x.setStrand k y).fenced = x.fenced := rfl
@[simp] theorem Tile.setStrand_lastNode (x : Tile) (k : Nat) (y : Strand) : (x.setStrand k y).lastNode = x.lastNode := rfl
@[simp] theorem Tile.setStrand_part (x : Tile) (k : Nat) (y : Strand) : (x.setStrand k y).part = x.part := rfl
@[simp] theorem Tile.setStrand_team (x : Tile) (k : Nat) (y : Strand) : (x.setStrand k y).team = x.team := rfl
@[simp] theorem Tile.setStrand_queue (x : Tile) (k : Nat) (y : Strand) : (x.setStrand k y).queue = x.queue := rfl
@[simp] theorem Tile.setStrand_reads (x : Tile) (k : Nat) (y : Strand) : (x.setStrand k y).reads = x.reads := rfl
@[simp] theorem Tile.setStrand_spd (x : Tile) (k : Nat) (y : Strand) : (x.setStrand k y).spd = x.spd := rfl
@[simp] theorem Tile.setStrand_spdPoison (x : Tile) (k : Nat) (y : Strand) : (x.setStrand k y).spdPoison = x.spdPoison := rfl
@[simp] theorem Tile.setStrand_spdLatent (x : Tile) (k : Nat) (y : Strand) : (x.setStrand k y).spdLatent = x.spdLatent := rfl
@[simp] theorem Tile.setStrand_regions (x : Tile) (k : Nat) (y : Strand) : (x.setStrand k y).regions = x.regions := rfl
@[simp] theorem Tile.setStrand_weights (x : Tile) (k : Nat) (y : Strand) : (x.setStrand k y).weights = x.weights := rfl
@[simp] theorem Tile.setStrand_ctx_v (x : Tile) (k : Nat) (y : Strand) : (x.setStrand k y).ctx.v = x.ctx.v := rfl
@[simp] theorem Tile.setStrand_ctx_m (x : Tile) (k : Nat) (y : Strand) : (x.setStrand k y).ctx.m = x.ctx.m := rfl
@[simp] theorem Tile.setStrand_ctx_q (x : Tile) (k : Nat) (y : Strand) : (x.setStrand k y).ctx.q = x.ctx.q := rfl
@[simp] theorem Tile.setStrand_ctx_sat (x : Tile) (k : Nat) (y : Strand) : (x.setStrand k y).ctx.sat = x.ctx.sat := rfl
@[simp] theorem Tile.setStrand_ctx_av (x : Tile) (k : Nat) (y : Strand) : (x.setStrand k y).ctx.av = x.ctx.av := rfl
@[simp] theorem Tile.setStrand_ctx_g (x : Tile) (k : Nat) (y : Strand) : (x.setStrand k y).ctx.g = x.ctx.g := rfl
@[simp] theorem Tile.setStrand_ctx_arrivals (x : Tile) (k : Nat) (y : Strand) : (x.setStrand k y).ctx.arrivals = x.ctx.arrivals := rfl
@[simp] theorem Tile.setStrand_ctx_streams (x : Tile) (k : Nat) (y : Strand) : (x.setStrand k y).ctx.streams = x.ctx.streams := rfl
@[simp] theorem Tile.setStrand_ctx_chans (x : Tile) (k : Nat) (y : Strand) : (x.setStrand k y).ctx.chans = x.ctx.chans := rfl
@[simp] theorem Tile.setStrand_ctx_loops (x : Tile) (k : Nat) (y : Strand) : (x.setStrand k y).ctx.loops = x.ctx.loops := rfl
@[simp] theorem Tile.setStrand_ctx_xchans (x : Tile) (k : Nat) (y : Strand) : (x.setStrand k y).ctx.xchans = x.ctx.xchans := rfl
@[simp] theorem Tile.setStrand_ctx_fabric (x : Tile) (k : Nat) (y : Strand) : (x.setStrand k y).ctx.fabric = x.ctx.fabric := rfl
@[simp] theorem Tile.setStrand_ctx_copies (x : Tile) (k : Nat) (y : Strand) : (x.setStrand k y).ctx.copies = x.ctx.copies := rfl
@[simp] theorem Tile.setStrand_ctx_slotUse (x : Tile) (k : Nat) (y : Strand) : (x.setStrand k y).ctx.slotUse = x.ctx.slotUse := rfl
@[simp] theorem Tile.setStrand_ctx_slotLast (x : Tile) (k : Nat) (y : Strand) : (x.setStrand k y).ctx.slotLast = x.ctx.slotLast := rfl
@[simp] theorem Tile.setStrand_ctx_under (x : Tile) (k : Nat) (y : Strand) : (x.setStrand k y).ctx.under = x.ctx.under := rfl
@[simp] theorem Tile.setStrand_ctx_events (x : Tile) (k : Nat) (y : Strand) : (x.setStrand k y).ctx.events = x.ctx.events := rfl
@[simp] theorem Tile.setStrand_ctx_deferred (x : Tile) (k : Nat) (y : Strand) : (x.setStrand k y).ctx.deferred = x.ctx.deferred := rfl

/-! ### Tiles, partitions and strands after an update -/

@[simp] theorem State.tile_setTile_same (s : State) (t : Nat) (x : Tile) : (s.setTile t x).tile t = x := sget_sput_same ..
theorem State.tile_setTile_other (s : State) {t u : Nat} (x : Tile) (h : u ≠ t) : (s.setTile t x).tile u = s.tile u := sget_sput_other _ _ _ h
theorem State.tile_setTile (s : State) (t u : Nat) (x : Tile) : (s.setTile t x).tile u = if u = t then x else s.tile u := sget_sput ..
@[simp] theorem State.partition_setPartition_same (s : State) (p : Nat) (x : Partition) : (s.setPartition p x).partition p = x := sget_sput_same ..
theorem State.partition_setPartition_other (s : State) {p q : Nat} (x : Partition) (h : q ≠ p) :
    (s.setPartition p x).partition q = s.partition q := sget_sput_other _ _ _ h
@[simp] theorem State.tile_setPartition (s : State) (p t : Nat) (x : Partition) : (s.setPartition p x).tile t = s.tile t := rfl
@[simp] theorem State.partition_setTile (s : State) (p t : Nat) (x : Tile) : (s.setTile t x).partition p = s.partition p := rfl
@[simp] theorem State.partition_setStrandOf (s : State) (p t k : Nat) (y : Strand) : (s.setStrandOf t k y).partition p = s.partition p := rfl
@[simp] theorem State.partition_setCur (s : State) (p : Nat) (y : Strand) : (s.setCur y).partition p = s.partition p := rfl
@[simp] theorem State.partition_retire (s : State) (p : Nat) (d : BitVec 5) (v : Word) : (s.retire d v).partition p = s.partition p := rfl

@[simp] theorem Tile.strand_setStrand_same (x : Tile) (k : Nat) (y : Strand) : (x.setStrand k y).strand k = y := sget_sput_same ..
theorem Tile.strand_setStrand_other (x : Tile) {j k : Nat} (y : Strand) (h : j ≠ k) : (x.setStrand k y).strand j = x.strand j := sget_sput_other _ _ _ h

@[simp] theorem State.strandOf_setStrandOf_same (s : State) (t k : Nat) (y : Strand) : (s.setStrandOf t k y).strandOf t k = y := by
  simp [State.strandOf, State.setStrandOf]
theorem State.strandOf_setStrandOf_other (s : State) {t k u j : Nat} (y : Strand) (h : (u, j) ≠ (t, k)) :
    (s.setStrandOf t k y).strandOf u j = s.strandOf u j := by
  by_cases hu : u = t
  · subst hu
    have hj : j ≠ k := fun e => h (by rw [e])
    simp [State.strandOf, State.setStrandOf, Tile.strand_setStrand_other _ _ hj]
  · simp [State.strandOf, State.setStrandOf, State.tile_setTile_other _ _ hu]
@[simp] theorem State.strandOf_setPartition (s : State) (p t k : Nat) (x : Partition) : (s.setPartition p x).strandOf t k = s.strandOf t k := rfl

/-- Setting a strand writes no field of a tile but its context. -/
@[simp] theorem State.tile_setStrandOf_spd (s : State) (t k u : Nat) (y : Strand) : ((s.setStrandOf t k y).tile u).spd = (s.tile u).spd := by
  by_cases h : u = t
  · subst h; simp [State.setStrandOf]
  · simp [State.setStrandOf, State.tile_setTile_other _ _ h]
@[simp] theorem State.tile_setStrandOf_queue (s : State) (t k u : Nat) (y : Strand) :
    ((s.setStrandOf t k y).tile u).queue = (s.tile u).queue := by
  by_cases h : u = t
  · subst h; simp [State.setStrandOf]
  · simp [State.setStrandOf, State.tile_setTile_other _ _ h]
@[simp] theorem State.tile_setStrandOf_team (s : State) (t k u : Nat) (y : Strand) :
    ((s.setStrandOf t k y).tile u).team = (s.tile u).team := by
  by_cases h : u = t
  · subst h; simp [State.setStrandOf]
  · simp [State.setStrandOf, State.tile_setTile_other _ _ h]
@[simp] theorem State.tile_setStrandOf_part (s : State) (t k u : Nat) (y : Strand) :
    ((s.setStrandOf t k y).tile u).part = (s.tile u).part := by
  by_cases h : u = t
  · subst h; simp [State.setStrandOf]
  · simp [State.setStrandOf, State.tile_setTile_other _ _ h]

/-! ### The current strand -/

@[simp] theorem State.cur_setCur (s : State) (y : Strand) : (s.setCur y).cur = y := by
  show (s.setStrandOf s.ct s.cs y).strandOf s.ct s.cs = y
  simp
@[simp] theorem State.setCur_strandOf_other (s : State) {t k : Nat} (y : Strand) (h : (t, k) ≠ (s.ct, s.cs)) :
    (s.setCur y).strandOf t k = s.strandOf t k := State.strandOf_setStrandOf_other s y h
@[simp] theorem State.setCur_tile_spd (s : State) (u : Nat) (y : Strand) : ((s.setCur y).tile u).spd = (s.tile u).spd :=
  State.tile_setStrandOf_spd ..
@[simp] theorem State.setCur_tile_queue (s : State) (u : Nat) (y : Strand) : ((s.setCur y).tile u).queue = (s.tile u).queue :=
  State.tile_setStrandOf_queue ..
@[simp] theorem State.setCur_tile_team (s : State) (u : Nat) (y : Strand) : ((s.setCur y).tile u).team = (s.tile u).team :=
  State.tile_setStrandOf_team ..
@[simp] theorem State.setCur_tile_part (s : State) (u : Nat) (y : Strand) : ((s.setCur y).tile u).part = (s.tile u).part :=
  State.tile_setStrandOf_part ..

@[simp] theorem Strand.reg_zero (y : Strand) : y.reg 0 = 0 := rfl
@[simp] theorem Strand.setReg_zero (y : Strand) (v : Word) : y.setReg 0 v = y := rfl
theorem Strand.reg_setReg_same (y : Strand) (d : BitVec 5) (v : Word) : (y.setReg d v).reg d = if d = 0 then 0 else v := by
  by_cases h : d = 0
  · subst h; rfl
  · simp only [Strand.reg, Strand.setReg, if_neg h, sget_sput_same]
theorem Strand.reg_setReg_other (y : Strand) {d r : BitVec 5} (v : Word) (h : r ≠ d) : (y.setReg d v).reg r = y.reg r := by
  by_cases hd : d = 0
  · subst hd; rfl
  · have hn : r.toNat ≠ d.toNat := fun e => h (BitVec.eq_of_toNat_eq e)
    simp only [Strand.reg, Strand.setReg, if_neg hd, sget_sput_other _ _ _ hn]
@[simp] theorem Strand.setReg_pc (y : Strand) (d : BitVec 5) (v : Word) : (y.setReg d v).pc = y.pc := by
  simp only [Strand.setReg]; split <;> rfl
@[simp] theorem Strand.setReg_state (y : Strand) (d : BitVec 5) (v : Word) : (y.setReg d v).state = y.state := by
  simp only [Strand.setReg]; split <;> rfl
@[simp] theorem Strand.setReg_h (y : Strand) (d : BitVec 5) (v : Word) : (y.setReg d v).h = y.h := by
  simp only [Strand.setReg]; split <;> rfl
@[simp] theorem Strand.setReg_tcause (y : Strand) (d : BitVec 5) (v : Word) : (y.setReg d v).tcause = y.tcause := by
  simp only [Strand.setReg]; split <;> rfl
@[simp] theorem Strand.setReg_tpc (y : Strand) (d : BitVec 5) (v : Word) : (y.setReg d v).tpc = y.tpc := by
  simp only [Strand.setReg]; split <;> rfl
@[simp] theorem Strand.setReg_tva (y : Strand) (d : BitVec 5) (v : Word) : (y.setReg d v).tva = y.tva := by
  simp only [Strand.setReg]; split <;> rfl
@[simp] theorem Strand.setReg_telem (y : Strand) (d : BitVec 5) (v : Word) : (y.setReg d v).telem = y.telem := by
  simp only [Strand.setReg]; split <;> rfl
@[simp] theorem Strand.setReg_tvec (y : Strand) (d : BitVec 5) (v : Word) : (y.setReg d v).tvec = y.tvec := by
  simp only [Strand.setReg]; split <;> rfl
@[simp] theorem Strand.setReg_tscr (y : Strand) (d : BitVec 5) (v : Word) : (y.setReg d v).tscr = y.tscr := by
  simp only [Strand.setReg]; split <;> rfl
@[simp] theorem Strand.setReg_fstat (y : Strand) (d : BitVec 5) (v : Word) : (y.setReg d v).fstat = y.fstat := by
  simp only [Strand.setReg]; split <;> rfl
@[simp] theorem Strand.setReg_fidx (y : Strand) (d : BitVec 5) (v : Word) : (y.setReg d v).fidx = y.fidx := by
  simp only [Strand.setReg]; split <;> rfl
@[simp] theorem Strand.setReg_drsel (y : Strand) (d : BitVec 5) (v : Word) : (y.setReg d v).drsel = y.drsel := by
  simp only [Strand.setReg]; split <;> rfl
@[simp] theorem Strand.setReg_watch (y : Strand) (d : BitVec 5) (v : Word) : (y.setReg d v).watch = y.watch := by
  simp only [Strand.setReg]; split <;> rfl
@[simp] theorem Strand.setReg_written (y : Strand) (d : BitVec 5) (v : Word) : (y.setReg d v).written = y.written := by
  simp only [Strand.setReg]; split <;> rfl
@[simp] theorem Strand.setReg_bucket (y : Strand) (d : BitVec 5) (v : Word) : (y.setReg d v).bucket = y.bucket := by
  simp only [Strand.setReg]; split <;> rfl
@[simp] theorem Strand.setReg_age (y : Strand) (d : BitVec 5) (v : Word) : (y.setReg d v).age = y.age := by
  simp only [Strand.setReg]; split <;> rfl
@[simp] theorem Strand.setReg_promoted (y : Strand) (d : BitVec 5) (v : Word) : (y.setReg d v).promoted = y.promoted := by
  simp only [Strand.setReg]; split <;> rfl
@[simp] theorem Strand.setReg_yielded (y : Strand) (d : BitVec 5) (v : Word) : (y.setReg d v).yielded = y.yielded := by
  simp only [Strand.setReg]; split <;> rfl
@[simp] theorem Strand.setReg_cancels (y : Strand) (d : BitVec 5) (v : Word) : (y.setReg d v).cancels = y.cancels := by
  simp only [Strand.setReg]; split <;> rfl
@[simp] theorem Strand.setReg_traps (y : Strand) (d : BitVec 5) (v : Word) : (y.setReg d v).traps = y.traps := by
  simp only [Strand.setReg]; split <;> rfl
@[simp] theorem Strand.setReg_carried (y : Strand) (d : BitVec 5) (v : Word) : (y.setReg d v).carried = y.carried := by
  simp only [Strand.setReg]; split <;> rfl
@[simp] theorem Strand.setReg_posting (y : Strand) (d : BitVec 5) (v : Word) : (y.setReg d v).posting = y.posting := by
  simp only [Strand.setReg]; split <;> rfl

/-! ### The ends of a scalar instruction -/

@[simp] theorem State.cur_setReg (s : State) (d : BitVec 5) (v : Word) : (s.setReg d v).cur = s.cur.setReg d v := by simp [State.setReg]
@[simp] theorem State.cur_goto (s : State) (a : Word) : (s.goto a).cur = { s.cur with pc := a, state := .runnable } := by simp [State.goto]
@[simp] theorem State.cur_advance (s : State) : s.advance.cur = { s.cur with pc := s.cur.pc + 4, state := .runnable } := by simp [State.advance]
@[simp] theorem State.cur_retire (s : State) (d : BitVec 5) (v : Word) :
    (s.retire d v).cur = { s.cur.setReg d v with pc := s.cur.pc + 4, state := .runnable } := by simp [State.retire]
@[simp] theorem State.tile_noteWait (s : State) (w : WaitKind) (t : Nat) : (s.noteWait w).tile t = s.tile t := by cases w <;> rfl
@[simp] theorem State.strandOf_noteWait (s : State) (w : WaitKind) (t k : Nat) : (s.noteWait w).strandOf t k = s.strandOf t k := by cases w <;> rfl
@[simp] theorem State.cur_noteWait (s : State) (w : WaitKind) : (s.noteWait w).cur = s.cur := by cases w <;> rfl
@[simp] theorem State.cur_waitAt (s : State) (w : WaitKind) : (s.waitAt w).cur = { s.cur with state := .waiting w, age := 0 } := by simp [State.waitAt]
@[simp] theorem State.reg_retire_same (s : State) (d : BitVec 5) (v : Word) : (s.retire d v).reg d = if d = 0 then 0 else v := by
  rw [State.reg, State.cur_retire]; exact Strand.reg_setReg_same s.cur d v
theorem State.reg_retire_other (s : State) {d r : BitVec 5} (v : Word) (h : r ≠ d) : (s.retire d v).reg r = s.reg r := by
  rw [State.reg, State.cur_retire]; exact Strand.reg_setReg_other s.cur v h
@[simp] theorem State.reg_goto (s : State) (a : Word) (r : BitVec 5) : (s.goto a).reg r = s.reg r := by rw [State.reg, State.cur_goto]; rfl
@[simp] theorem State.reg_waitAt (s : State) (w : WaitKind) (r : BitVec 5) : (s.waitAt w).reg r = s.reg r := by
  rw [State.reg, State.cur_waitAt]; rfl

end Sys2Proof.Machine
end

