-- ==== Sys2Proof/Laws/Cache.lean ====
section
/-! SUPPORT. The caches of the tiles, the directory, the reservations and the translations move no byte: each of their operations, said
once, leaves memory and every scratchpad as they were. -/

namespace Sys2Proof.Laws

open Sys2Proof.Machine

/-- Memory and every scratchpad are the same. -/
structure Kept (s t : State) : Prop where
  mem : t.mem = s.mem
  spd : ∀ h, (t.tile h).spd = (s.tile h).spd

theorem Kept.refl (s : State) : Kept s s := ⟨rfl, fun _ => rfl⟩

theorem Kept.trans {s t u : State} (a : Kept s t) (b : Kept t u) : Kept s u :=
  ⟨b.mem.trans a.mem, fun h => (b.spd h).trans (a.spd h)⟩

theorem kept_foldl {α : Type} {f : State → α → State} (h : ∀ s a, Kept s (f s a)) (l : List α) (s : State) : Kept s (l.foldl f s) := by
  induction l generalizing s with
  | nil => exact .refl s
  | cons a r ih => exact (h s a).trans (ih _)

theorem kept_ite {c : Prop} [Decidable c] {s a b : State} (ha : Kept s a) (hb : Kept s b) : Kept s (if c then a else b) := by
  split
  exacts [ha, hb]

/-- A change of other fields than memory and the tiles. -/
theorem kept_of {s t : State} (h1 : t.mem = s.mem) (h2 : t.tiles = s.tiles) : Kept s t :=
  ⟨h1, fun h => by simp only [State.tile, h2]⟩

/-- Setting a tile whose scratchpad is as before. -/
theorem kept_setTile {s : State} {t : Nat} {x : Tile} (h : x.spd = (s.tile t).spd) : Kept s (s.setTile t x) :=
  ⟨rfl, fun u => by rw [State.tile_setTile]; split; exacts [by subst u; exact h, rfl]⟩

theorem kept_setStrandOf (s : State) (t k : Nat) (y : Strand) : Kept s (s.setStrandOf t k y) := ⟨rfl, fun _ => State.tile_setStrandOf_spd ..⟩

/-- Changing the tiles by a function that keeps every scratchpad. -/
theorem kept_mapTiles {s t : State} {g : Nat × Tile → Nat × Tile} (h1 : t.mem = s.mem) (h2 : t.tiles = s.tiles.map g)
    (h : ∀ p, (g p).1 = p.1 ∧ (g p).2.spd = p.2.spd) : Kept s t :=
  ⟨h1, fun u => by
    have e : g = fun p => (p.1, (fun k x => (g (k, x)).2) p.1 p.2) := funext fun p => Prod.ext (h p).1 rfl
    rw [e] at h2
    simp only [State.tile, h2, sget_eq_sfind, sfind_map (fun k x => (g (k, x)).2)]
    cases sfind s.tiles u
    exacts [rfl, (h _).2]⟩

/-! ### Caches and directory -/

theorem dropL1_spd (x : Tile) (l : Nat) : (x.dropL1 l).spd = x.spd := rfl
theorem uncache_spd (x : Tile) (l : Nat) : (x.uncache l).spd = x.spd := rfl
theorem wakeTile_spd (ag : Agent) (l t : Nat) (x : Tile) : (wakeTile ag l t x).spd = x.spd := rfl

theorem kept_wakeWatches (s : State) (ag : Agent) (l : Nat) : Kept s (wakeWatches s ag l) := by
  unfold wakeWatches; split
  · exact kept_mapTiles rfl rfl fun _ => ⟨rfl, rfl⟩
  · exact .refl s

theorem kept_mscHold (r : Nat) (s : State) : Kept s (mscHold r s) := by
  unfold mscHold
  extract_lets held s1
  split
  · exact .refl s
  · have h1 : Kept s s1 := by
      refine kept_ite (.refl s) ?_
      split
      exacts [kept_of rfl rfl, .refl s]
    clear_value s1
    exact h1.trans (kept_of rfl rfl)

theorem kept_noteRegion (p : Bool) (l : Nat) (s : State) : Kept s (noteRegion p l s) := by
  simp only [noteRegion]; split
  · exact kept_of rfl rfl
  · refine .trans ?_ (kept_mscHold ..); exact kept_of rfl rfl

theorem kept_refreshRegion (p : Bool) (l : Nat) (s : State) : Kept s (refreshRegion p l s) := kept_ite (kept_noteRegion ..) (.refl s)

theorem kept_writeBack (l : Nat) (s : State) : Kept s (writeBack l s) := by
  unfold writeBack; split <;> exact kept_of rfl rfl

theorem kept_wakeDirty (t l : Nat) (s : State) : Kept s (wakeDirty t l s) := by
  simp only [wakeDirty]; split <;> exact kept_of rfl rfl

theorem kept_loseLine (t l : Nat) (s : State) : Kept s (loseLine t l s) := by
  unfold loseLine
  split
  · exact kept_setTile rfl
  · dsimp only
    split
    · refine .trans ?_ (kept_writeBack ..)
      refine .trans ?_ (kept_setTile rfl)
      exact (kept_wakeDirty t l s).trans (kept_of rfl rfl)
    · refine .trans ?_ (kept_setTile rfl)
      exact (kept_wakeDirty t l s).trans (kept_of rfl rfl)

theorem kept_dropLine (t l : Nat) (s : State) : Kept s (dropLine t l s) := by
  unfold dropLine; split
  · exact (kept_loseLine ..).trans (kept_noteRegion ..)
  · exact .refl s

theorem kept_recallLine (l : Nat) (s : State) : Kept s (recallLine l s) := by
  simp only [recallLine]; split
  · exact kept_ite (kept_refreshRegion ..) (.refl s)
  · exact (kept_foldl (fun s _ => kept_loseLine ..) _ s).trans (kept_noteRegion ..)

theorem kept_recallReserved (l : Nat) (s : State) : Kept s (recallReserved l s) :=
  kept_foldl (fun s t => by refine .trans ?_ (kept_writeBack ..); exact kept_setTile rfl) _ s

theorem kept_evictLine (t l : Nat) (s : State) : Kept s (evictLine t l s) := by
  unfold evictLine; split
  · exact (kept_loseLine ..).trans (kept_noteRegion ..)
  · exact kept_loseLine ..

theorem kept_fillTile (t l : Nat) (s : State) : Kept s (fillTile t l s) := by
  simp only [fillTile]; split
  · exact .refl s
  · split
    · exact .refl s
    · split
      · exact (kept_evictLine ..).trans (kept_setTile rfl)
      · exact kept_setTile rfl

theorem kept_recordOwner (t l : Nat) (o : SMap LineState) (x : LineState) (s : State) : Kept s (recordOwner t l o x s) := by
  unfold recordOwner
  extract_lets keep h s1
  have h1 : Kept s s1 := kept_of rfl rfl
  clear_value s1
  refine kept_ite (h1.trans ?_) (h1.trans ?_)
  · refine .trans ?_ (kept_noteRegion ..)
    exact (kept_fillTile ..).trans (kept_setTile rfl)
  · refine .trans ?_ (kept_refreshRegion ..)
    refine .trans ?_ (kept_writeBack ..)
    exact kept_setTile rfl

theorem kept_fillL1d (t l : Nat) (s : State) : Kept s (fillL1d t l s) := by
  simp only [fillL1d]; split
  · exact .refl s
  · exact kept_setTile rfl

theorem kept_probeOthers (t l : Nat) (w : Bool) (s : State) : Kept s (probeOthers t l w s) :=
  kept_foldl (fun s a => by dsimp only; split <;> first | exact kept_loseLine .. | exact kept_wakeDirty ..) _ s

theorem kept_touchCached (s : State) (ag : Agent) (t l : Nat) (w sh : Bool) : Kept s (touchCached s ag t l w sh) := by
  unfold touchCached
  extract_lets h h' s0 s1 s2
  have h1 : Kept s s1 := by
    simp only [s1]; split
    · exact .refl s
    · refine .trans ?_ (kept_noteRegion ..)
      exact (kept_probeOthers t l w s).trans (kept_of rfl rfl)
  have h2 : Kept s s2 := by simp only [s2]; exact h1.trans (kept_fillTile ..)
  clear_value s2
  repeat' split
  all_goals first | exact h2 | exact h2.trans (kept_fillL1d ..) | exact h2.trans (kept_setTile rfl)

theorem kept_touchHome (s : State) (l : Nat) (w : Bool) : Kept s (touchHome s l w) := by
  simp only [touchHome]; split
  · exact kept_recallLine ..
  · split
    · exact kept_ite (kept_refreshRegion ..) (.refl s)
    · refine .trans ?_ (kept_noteRegion ..)
      exact (kept_foldl (fun s (a : Nat × LineState) => kept_wakeDirty a.1 l s) _ s).trans (kept_of rfl rfl)

theorem kept_touchLine (s : State) (p : Path) (ag : Agent) (l : Nat) (w sh : Bool) : Kept s (touchLine s p ag l w sh) := by
  unfold touchLine; split
  · exact kept_touchCached ..
  · exact kept_touchHome ..

/-! ### Reservations -/

theorem kept_recallFree (old : List ResEntry) (e : ResEntry) (s : State) : Kept s (recallFree old e s) :=
  kept_foldl (fun s (a : Nat × SMap LineState) => kept_recallLine a.1 s) _ s

theorem kept_settleGrants (l : List ResEntry) : ∀ (old : List ResEntry) (s : State), Kept s (settleGrants s old l) := by
  induction l with
  | nil => exact fun _ s => .refl s
  | cons e r ih =>
    intro old s
    simp only [settleGrants]
    split
    · refine .trans ?_ (ih ..)
      split
      · exact kept_recallFree ..
      · exact (kept_recallFree old e s).trans (kept_of rfl rfl)
    · exact ih ..

theorem kept_leaveLine (e : ResEntry) (s : State) (l : Nat) : Kept s (leaveLine e s l) := kept_ite (kept_recordOwner ..) (kept_recordOwner ..)

theorem kept_cutEntries (s : State) (e : ResEntry) (edge : Nat) (st : ResState) (a : Option Nat) : Kept s (cutEntries s e edge st a) := by
  unfold cutEntries
  extract_lets cut rs src s1
  refine .trans (t := s1) ?_ (kept_settleGrants ..)
  refine .trans (t := { noteCut e edge s with resv := rs }) (kept_of rfl rfl) ?_
  exact kept_foldl (fun s x => kept_foldl (fun s l => kept_leaveLine x s l) _ s) _ _

theorem kept_noteWait (s : State) (w : WaitKind) : Kept s (s.noteWait w) := by cases w <;> exact kept_of rfl rfl

/-! ### Releases and acquires -/

theorem kept_flushReservation (r : Nat) (s : State) : Kept s (flushReservation r s) := by
  simp only [flushReservation]
  exact (kept_foldl (fun s e => kept_foldl (fun s l => kept_writeBack l s) _ s) _ s).trans (kept_foldl (fun s e => kept_cutEntries s e _ _ _) _ _)

theorem kept_flushAll (rs : List Nat) (s : State) : Kept s (flushAll rs s) := kept_foldl (fun s r => kept_flushReservation r s) _ s

theorem kept_applySplit (s : State) (e : ResEntry) (edge : Nat) (st : ResState) (a : Option Nat) : Kept s (applySplit s e edge st a) := by
  unfold applySplit
  extract_lets rs s1
  have h1 : Kept s s1 := kept_cutEntries ..
  clear_value s1
  exact kept_ite h1 (h1.trans (kept_flushAll ..))

theorem kept_reportEntry (s : State) (e : ResEntry) : Kept s (reportEntry s e) := kept_applySplit ..

theorem kept_flushLine (t l : Nat) (s : State) : Kept s (flushLine t l s) := kept_flushAll ..

theorem kept_flushHolders (l : Nat) (s : State) : Kept s (flushHolders l s) :=
  kept_foldl (fun s (a : Nat × LineState) => kept_flushLine a.1 l s) _ s

theorem kept_flushVictim (t l : Nat) (s : State) : Kept s (flushVictim t l s) := by
  simp only [flushVictim]
  repeat' split
  all_goals first | exact .refl s | exact kept_flushLine ..

theorem kept_acquireFlush (ag : Agent) (sc : BitVec 3) (pa n : Nat) (s : State) : Kept s (acquireFlush ag sc pa n s) := kept_flushAll ..

theorem kept_noteUnder (ag : Agent) (us : List Nat) (s : State) : Kept s (noteUnder ag us s) := by
  unfold noteUnder
  split
  · exact .refl s
  · dsimp only
    repeat' split
    all_goals first | exact .refl s | exact kept_setStrandOf .. | exact kept_setTile rfl

theorem kept_carryReleases (ag : Agent) (pa n : Nat) (s : State) : Kept s (carryReleases ag pa n s) := kept_noteUnder ..

/-! ### Released entries -/

theorem kept_releaseLine (e : ResEntry) (s : State) (l : Nat) : Kept s (releaseLine e s l) := by
  unfold releaseLine
  extract_lets others s1
  have h1 : Kept s s1 := kept_ite (.refl s) (kept_flushLine ..)
  clear_value s1
  exact h1.trans ((kept_writeBack ..).trans (kept_recordOwner ..))

theorem kept_releaseLines (s : State) (e : ResEntry) : Kept s (releaseLines s e) := kept_foldl (fun s l => kept_releaseLine e s l) _ s

theorem kept_releaseEntries (p : ResEntry → Bool) (s : State) : Kept s (releaseEntries p s) := by
  unfold releaseEntries; split
  · extract_lets s1
    refine .trans ?_ (kept_settleGrants ..)
    refine .trans ?_ (kept_foldl (fun s e => kept_releaseLines s e) _ _)
    exact kept_of rfl rfl
  · exact .refl s

theorem kept_endXlats (ls : List Nat) (s : State) : Kept s (endXlats ls s) := by
  unfold endXlats
  extract_lets hit s1
  refine .trans (t := s1) ?_ (kept_releaseEntries ..)
  refine kept_ite (.trans ?_ (kept_foldl (fun s l => kept_refreshRegion true l s) _ _)) (.refl s)
  exact kept_mapTiles rfl rfl fun _ => ⟨rfl, rfl⟩

/-! ### Accesses -/

theorem kept_touchReserved (s : State) (ag : Agent) (e : ResEntry) (l o n : Nat) (w : Bool) : Kept s (touchReserved s ag e l o n w) := by
  unfold touchReserved
  extract_lets s1 x m s2
  have h2 : Kept s s2 := (kept_fillTile ..).trans (kept_setTile rfl)
  clear_value s2
  exact kept_ite (h2.trans (kept_noteUnder ..)) h2

theorem kept_freeRegion (r : Nat) (s : State) : Kept s (freeRegion r s) := by
  unfold freeRegion
  extract_lets ls s1
  have h1 : Kept s s1 := by
    refine .trans ?_ (kept_endXlats ..)
    exact kept_foldl (fun s l => ((kept_flushHolders l s).trans (kept_recallLine l _)).trans (kept_recallReserved l _)) _ s
  clear_value s1
  exact h1.trans (kept_of rfl rfl)

theorem kept_roomFor (l : Nat) (s : State) : Kept s (roomFor l s) := by
  unfold roomFor; split
  · exact .refl s
  · split
    exacts [kept_freeRegion .., .refl s]

theorem kept_cacheAccess (ag : Agent) (p : Path) (l o n : Nat) (w : Bool) (s : State) : Kept s (cacheAccess ag p l o n w s) := by
  unfold cacheAccess
  extract_lets s1
  have h1 : Kept s s1 := by
    simp only [s1]; split
    · exact kept_flushVictim ..
    · exact .refl s
  clear_value s1
  refine h1.trans ?_
  split
  · split
    · exact kept_touchReserved ..
    · split
      · exact .refl _
      · exact (kept_roomFor ..).trans (kept_touchLine ..)
  · exact (kept_roomFor ..).trans (kept_touchLine ..)

theorem kept_wakeArray (s : State) (p : Path) (t : Option Nat) : Kept s (wakeArray s p t) := by
  unfold wakeArray; split
  · split
    · exact kept_of rfl rfl
    · exact .refl s
  · exact .refl s

/-! ### What a write does beside the bytes -/

theorem kept_notePools (old : List Host.Cell) (pa n : Nat) (s : State) : Kept s (notePools old pa n s) := by
  unfold notePools; split
  · exact kept_of rfl rfl
  · exact .refl s

theorem kept_pushUndo (t : Nat) (k : UndoKind) (w : BitVec 16) (b : Bool) (s : State) : Kept s (pushUndo t k w b s) := by
  simp only [pushUndo]; split
  · refine .trans (t := s.setTile t _) (kept_setTile ?_) (kept_of rfl rfl); rfl
  · exact kept_setTile rfl

theorem kept_logMemory (s : State) (t g : Nat) : Kept s (logMemory s t g) := by
  simp only [logMemory]; split
  · exact .refl s
  · exact kept_ite (.refl s) (kept_pushUndo ..)

theorem kept_logSpd (s : State) (t h g : Nat) : Kept s (logSpd s t h g) := by
  simp only [logSpd]; split
  · exact .refl s
  · exact kept_ite (.refl s) (kept_pushUndo ..)

theorem kept_noteWrite (s : State) (ag : Agent) (pa n : Nat) : Kept s (noteWrite s ag pa n) := by
  unfold noteWrite
  extract_lets s1 ls s2 s3 s4 hot
  have h1 : Kept s s1 := by
    simp only [s1]; split
    · exact kept_foldl (fun s i => kept_logMemory ..) _ s
    · exact .refl s
  have h2 : Kept s s2 := h1.trans (kept_foldl (fun s l => kept_wakeWatches s ag l) _ _)
  have h3 : Kept s s3 := h2.trans (kept_endXlats ..)
  clear_value s3
  have h4 : Kept s s4 := h3.trans (kept_of rfl rfl)
  clear_value s4
  split
  · exact h4
  · exact h4.trans (kept_of rfl rfl)

/-! ### Translations -/

theorem kept_exposeLine (s : State) (r : Option Nat) (l : Nat) : Kept s (exposeLine s r l) := by
  unfold exposeLine
  extract_lets hit
  refine kept_mapTiles rfl rfl fun p => ?_
  dsimp only
  split <;> split <;> exact ⟨rfl, rfl⟩

theorem kept_keepXlat (t part va : Nat) (l : Leaf) (st : Option Nat) (s : State) : Kept s (keepXlat t part va l st s) := by
  unfold keepXlat
  extract_lets x base ws s1 x1
  split
  · exact .refl s
  · have h1 : Kept s s1 := kept_foldl (fun s w => kept_touchHome s w false) _ s
    clear_value s1
    refine .trans ?_ (kept_foldl (fun s w => (kept_roomFor w s).trans (kept_noteRegion false w _)) _ _)
    exact h1.trans (kept_setTile rfl)

end Sys2Proof.Laws
end

