-- ==== Sys2Proof/Laws/Ops.lean ====
section
/-! SUPPORT. What the shared operations can do, each said once: how a scalar instruction ends, what taking a trap leaves, and that the
writes of memory and scratchpads keep the canonical form and every other byte. -/

namespace Sys2Proof.Laws

open Sys2Proof.Machine Sys2Proof.Spec

/-! ### Ends of a scalar instruction -/

theorem raise_idle {s : State} (tr : Trap) (h : s.enginesBusy = false) : raise s tr = takeTrap s s.ct s.cs tr := by simp [raise, h]

theorem raise_busy {s : State} (tr : Trap) (h : s.enginesBusy = true) : raise s tr = s.waitAt .drain := by simp [raise, h]

/-- Everything that a scalar instruction can end in: its own end, a trap, or a wait; the last two from the state before it. -/
theorem scalarEnd_cases (m : M Unit) (s : State) :
    (∃ s', m s = .ok () s' ∧ scalarEnd m s = s') ∨
    (∃ tr s', m s = .error (.trap tr) s' ∧ scalarEnd m s = raise s tr) ∨
    (∃ w s', m s = .error (.wait w) s' ∧ scalarEnd m s = s.waitAt w) := by
  unfold scalarEnd
  cases h : m s with
  | ok a s' => exact .inl ⟨s', rfl, rfl⟩
  | error e s' => cases e with
    | trap tr => exact .inr (.inl ⟨tr, s', rfl, rfl⟩)
    | wait w => exact .inr (.inr ⟨w, s', rfl, rfl⟩)

theorem runScalar_ok {m : M Unit} {s s' : State} (h : m s = .ok () s') : runScalar m s = .next s' := by simp [runScalar, scalarEnd, h]

theorem runScalar_trap {m : M Unit} {s s' : State} {tr : Trap} (h : m s = .error (.trap tr) s') : runScalar m s = .next (raise s tr) := by
  simp [runScalar, scalarEnd, h]

theorem runScalar_wait {m : M Unit} {s s' : State} {w : WaitKind} (h : m s = .error (.wait w) s') : runScalar m s = .next (s.waitAt w) := by
  simp [runScalar, scalarEnd, h]

/-! ### Taking a trap -/

theorem trapNotices_of_ne (s : State) (t k : Nat) {tr : Trap} (h : tr.cause ≠ cWALK) : trapNotices s t k tr false = [] := by
  simp [trapNotices, h]

theorem postAll_nil (s : State) (p : Nat) : postAll s p [] = (s, false) := rfl

theorem postTrap_of_ne (s : State) (t k : Nat) {tr : Trap} (h : tr.cause ≠ cWALK) : postTrap s t k tr false = (s, false) := by
  simp only [postTrap, trapNotices_of_ne s t k h, postAll_nil]; split <;> rfl

theorem clearStart_strandOf (s : State) (t k u j : Nat) (tr : Trap) : (clearStart s t k tr).strandOf u j = s.strandOf u j := by
  unfold clearStart; split
  · simp only [State.strandOf, State.tile_setTile]; split
    · next e => subst e; rfl
    · rfl
  · rfl

theorem clearStart_of_not_decode (s : State) (t k : Nat) {tr : Trap} (h : tr.decode = false) : clearStart s t k tr = s := by
  simp [clearStart, h]

/-- A strand with a handler, outside it, enters it; nothing but its slot is written, and `vstart` by a decode trap. -/
theorem takeTrap_enter (s : State) (t k : Nat) {tr : Trap} (hw : tr.cause ≠ cWALK) (h1 : (s.strandOf t k).h = false)
    (h2 : (s.strandOf t k).tvec ≠ 0) : ∃ y, takeTrap s t k tr = (clearStart s t k tr).setStrandOf t k y ∧
      y.pc = (s.strandOf t k).tvec.zeroExtend 64 ∧ y.h = true ∧ y.state = .runnable ∧ y.regs = (s.strandOf t k).regs ∧
      y.tva = tr.tva ∧ y.telem = tr.telem := by
  have hd : (s.strandOf t k).doubles = false := by simp only [Strand.doubles, h1, Bool.false_or, beq_eq_false_iff_ne]; exact h2
  simp only [takeTrap, clearStart_strandOf, hd, postTrap_of_ne _ t k hw, Bool.false_eq_true, if_false]
  exact ⟨_, rfl, rfl, rfl, rfl, rfl, rfl, rfl⟩

/-! ### Bytes -/

theorem length_natLe (n x : Nat) : (natLe n x).length = n := by
  induction n generalizing x with
  | zero => rfl
  | succ n ih => simp [natLe, ih]

theorem leNat_natLe (n x : Nat) : leNat (natLe n x) = x % 256 ^ n := by
  induction n generalizing x with
  | zero => simp [natLe, leNat, Nat.mod_one]
  | succ n ih =>
    rw [natLe, leNat, ih, Nat.pow_succ, Nat.mul_comm (256 ^ n) 256, Nat.mod_mul]
    simp

theorem leNat_lt (bs : List (BitVec 8)) : leNat bs < 256 ^ bs.length := by
  induction bs with
  | nil => simp [leNat]
  | cons b r ih => have := b.isLt; simp only [leNat, List.length_cons, Nat.pow_succ]; omega

theorem length_cellsGet (c : List Host.Cell) (a n : Nat) : (cellsGet c a n).length = n := by simp [cellsGet]

/-! ### What a physical write does -/

/-- A physical write puts its bytes into memory and changes no scratchpad byte. -/
theorem physPut_kept (s : State) (ag : Agent) (pa : Nat) (bs : List (BitVec 8)) :
    Kept { s with mem := cellsPut s.mem pa bs } (physPut s ag pa bs) := by
  unfold physPut; split
  · next h => rw [List.isEmpty_iff] at h; subst h; exact .refl s
  · extract_lets s1
    have h1 : Kept s s1 := kept_noteWrite ..
    clear_value s1
    refine .trans ?_ (kept_notePools ..)
    exact ⟨congrArg (cellsPut · pa bs) h1.mem, h1.spd⟩

theorem physPut_mem (s : State) (ag : Agent) (pa : Nat) (bs : List (BitVec 8)) : (physPut s ag pa bs).mem = cellsPut s.mem pa bs :=
  (physPut_kept ..).mem

theorem physPut_spd (s : State) (ag : Agent) (pa : Nat) (bs : List (BitVec 8)) (h : Nat) :
    ((physPut s ag pa bs).tile h).spd = (s.tile h).spd := (physPut_kept ..).spd h

theorem canonical_kept {s t : State} (k : Kept s t) (h : Canonical s) : Canonical t :=
  ⟨by rw [k.mem]; exact h.1, fun u => by rw [k.spd]; exact h.2 u⟩

theorem canonical_physPut {s : State} (ag : Agent) (pa : Nat) (bs : List (BitVec 8)) (h : Canonical s) : Canonical (physPut s ag pa bs) :=
  canonical_kept (physPut_kept ..) ⟨wf_cellsPut _ _ h.1, h.2⟩

/-- What a byte of memory reads as after a physical write. -/
theorem physPut_reads {s : State} (ag : Agent) (pa a : Nat) (bs : List (BitVec 8)) (h : Canonical s) :
    cellGet (physPut s ag pa bs).mem a = if pa ≤ a ∧ a < pa + bs.length then bs.getD (a - pa) 0 else cellGet s.mem a := by
  rw [physPut_mem]; exact cellGet_cellsPut pa a bs h.1

/-- Marking a leaf keeps the canonical form. -/
theorem canonical_markLeaf {s : State} (ag : Agent) (l : Leaf) (acc : Access) (h : Canonical s) : Canonical (markLeaf s ag l acc) := by
  unfold markLeaf; extract_lets want new; split
  exacts [h, canonical_physPut _ _ _ (canonical_kept (kept_touchHome s (l.addr / 128) true) h)]

/-! ### What a scratchpad write does -/

/-- A fold of changes that each keep a function of the state keeps it. -/
theorem foldl_keeps {α β : Type} (v : State → β) (f : State → α → State) (h : ∀ s a, v (f s a) = v s) (l : List α) (s : State) :
    v (l.foldl f s) = v s := by
  induction l generalizing s with
  | nil => rfl
  | cons a r ih => rw [List.foldl_cons, ih, h]

theorem spdPut_mem (s : State) (t h off : Nat) (bs : List (BitVec 8)) : (spdPut s t h off bs).mem = s.mem := by
  simp only [spdPut]; split
  · rfl
  · exact foldl_keeps (·.mem) _ (fun s g => (kept_logSpd ..).mem) _ s

theorem spdPut_spd (s : State) (t h off u : Nat) (bs : List (BitVec 8)) :
    ((spdPut s t h off bs).tile u).spd = if u = h then cellsPut (s.tile u).spd off bs else (s.tile u).spd := by
  have hf : ∀ (l : List Nat) (u : Nat), ((l.foldl (fun s g => logSpd s t h g) s).tile u).spd = (s.tile u).spd :=
    fun l u => foldl_keeps (fun s => (s.tile u).spd) _ (fun s g => (kept_logSpd ..).spd _) l s
  simp only [spdPut]; split
  · next e => rw [List.isEmpty_iff] at e; subst e; simp [cellsPut]
  · rw [State.tile_setTile]; split
    · next e => subst e; simp only [hf]
    · exact hf ..

theorem canonical_spdPut {s : State} (t h off : Nat) (bs : List (BitVec 8)) (hc : Canonical s) : Canonical (spdPut s t h off bs) := by
  refine ⟨by rw [spdPut_mem]; exact hc.1, fun u => ?_⟩
  rw [spdPut_spd]; split
  · exact wf_cellsPut _ _ (hc.2 u)
  · exact hc.2 u

/-! ### Updates that write no byte -/

theorem canonical_setStrandOf {s : State} (t k : Nat) (y : Strand) (h : Canonical s) : Canonical (s.setStrandOf t k y) :=
  ⟨h.1, fun u => by rw [State.tile_setStrandOf_spd]; exact h.2 u⟩

theorem canonical_setCur {s : State} (y : Strand) (h : Canonical s) : Canonical (s.setCur y) := canonical_setStrandOf _ _ y h

theorem canonical_setTile {s : State} (t : Nat) (x : Tile) (h : Canonical s) (hx : Memory.wf x.spd = true) : Canonical (s.setTile t x) :=
  ⟨h.1, fun u => by rw [State.tile_setTile]; split; exacts [hx, h.2 u]⟩

theorem canonical_setPartition {s : State} (p : Nat) (x : Partition) (h : Canonical s) : Canonical (s.setPartition p x) := h

theorem canonical_retire {s : State} (d : BitVec 5) (v : Word) (h : Canonical s) : Canonical (s.retire d v) :=
  canonical_setCur _ (canonical_setCur _ h)

theorem canonical_waitAt {s : State} (w : WaitKind) (h : Canonical s) : Canonical (s.waitAt w) :=
  canonical_kept (kept_noteWait ..) (canonical_setCur _ h)

/-- The device's log is one field. -/
theorem log_none (s : State) (cls src tile wave addr : Nat) : ∃ e, s.log none cls src tile wave addr = { s with errlog := e } := ⟨_, rfl⟩

theorem log_bytes (s : State) (p : Option Nat) (cls src tile wave addr : Nat) :
    (s.log p cls src tile wave addr).mem = s.mem ∧ ∀ h, (s.log p cls src tile wave addr).tile h = s.tile h := by
  cases p with
  | none =>
    obtain ⟨e, he⟩ := log_none s cls src tile wave addr
    rw [he]; exact ⟨rfl, fun _ => rfl⟩
  | some p => exact ⟨State.setPartition_mem .., fun _ => State.tile_setPartition ..⟩

theorem canonical_log {s : State} (p : Option Nat) (cls src tile wave addr : Nat) (h : Canonical s) :
    Canonical (s.log p cls src tile wave addr) := by
  obtain ⟨e1, e2⟩ := log_bytes s p cls src tile wave addr
  exact canonical_kept ⟨e1, fun u => by rw [e2]⟩ h

/-! ### Operations that can trap or wait -/

/-- The state in which an operation ends has `P`. -/
def Ends {α : Type} (P : State → Prop) (r : EStateM.Result Exit State α) : Prop := match r with | .ok _ s => P s | .error _ s => P s

/-- Every end of `m` from a state with `P` has `P`. -/
structure Keeps {α : Type} (P : State → Prop) (m : M α) : Prop where
  run : ∀ s, P s → Ends P (m s)

section
variable {α β : Type} {P : State → Prop}

theorem keeps_pure (a : α) : Keeps P (pure a : M α) := ⟨fun _ h => h⟩
theorem keeps_throw (e : Exit) : Keeps P (throw e : M α) := ⟨fun _ h => h⟩
theorem keeps_get : Keeps P (get : M State) := ⟨fun _ h => h⟩
/-- What follows a reading of the state may use what the state keeps. -/
theorem keeps_getThen {f : State → M α} (h : ∀ s, P s → Ends P (f s s)) : Keeps P (get >>= f) := ⟨fun s hs => h s hs⟩

theorem keeps_modify {f : State → State} (hf : ∀ s, P s → P (f s)) : Keeps P (modify f : M PUnit) := ⟨fun s h => hf s h⟩

theorem keeps_bind {m : M α} {f : α → M β} (hm : Keeps P m) (hf : ∀ a, Keeps P (f a)) : Keeps P (m >>= f) := by
  refine ⟨fun s h => ?_⟩
  have h1 := hm.run s h
  show (match EStateM.bind m f s with | .ok _ s' => P s' | .error _ s' => P s')
  unfold EStateM.bind
  cases e : m s with
  | ok a s' => rw [e] at h1; exact (hf a).run s' h1
  | error x s' => rw [e] at h1; exact h1

theorem keeps_ite {c : Prop} [Decidable c] {a b : M α} (ha : Keeps P a) (hb : Keeps P b) : Keeps P (if c then a else b) := by
  split
  exacts [ha, hb]

theorem keeps_mapM {l : List α} {f : α → M β} (hf : ∀ a ∈ l, Keeps P (f a)) : Keeps P (l.mapM f) := by
  induction l with
  | nil => exact keeps_pure _
  | cons a r ih =>
    rw [List.mapM_cons]
    exact keeps_bind (hf a (by simp)) fun _ => keeps_bind (ih fun b hb => hf b (by simp [hb])) fun _ => keeps_pure _

theorem keeps_forIn {l : List α} {f : α → PUnit → M (ForInStep PUnit)} (hf : ∀ a, Keeps P (f a PUnit.unit)) : Keeps P (forIn l PUnit.unit f) := by
  induction l with
  | nil => exact keeps_pure _
  | cons a r ih =>
    rw [List.forIn_cons]
    refine keeps_bind (hf a) fun b => ?_
    cases b
    exacts [keeps_pure _, ih]

end

/-! ### Accesses keep the canonical form -/

theorem keeps_modify_kept {f : State → State} (h : ∀ s, Kept s (f s)) : Keeps Canonical (modify f) :=
  keeps_modify fun s hs => canonical_kept (h s) hs

theorem keeps_judgeLine {P : State → Prop} (ag : Agent) (va : BitVec 56) (l : Nat) (w : Bool) (rs : List ResEntry) : Keeps P (judgeLine ag va l w rs) := by
  induction rs with
  | nil => exact keeps_pure _
  | cons e r ih =>
    rw [judgeLine]
    refine keeps_bind keeps_get fun s => ?_
    dsimp only
    refine keeps_ite ?_ ih
    exact keeps_ite (keeps_bind (keeps_throw _) fun _ => ih) (keeps_bind (keeps_throw _) fun _ => ih)

theorem keeps_lineAccess (ag : Agent) (p : Path) (va : BitVec 56) (pa n : Nat) (w : Bool) : Keeps Canonical (lineAccess ag p va pa n w) := by
  unfold lineAccess
  refine keeps_bind (keeps_forIn fun l => ?_) fun _ => keeps_pure _
  refine keeps_bind keeps_get fun s => keeps_bind (keeps_judgeLine ..) fun _ => ?_
  refine keeps_bind (keeps_modify_kept fun s => ?_) fun _ => keeps_pure _
  exact ((kept_cacheAccess ..).trans (kept_wakeArray ..)).trans (kept_exposeLine ..)

theorem keeps_physReadQuiet (ag : Agent) (p : Path) (va : BitVec 56) (pa n : Nat) : Keeps Canonical (physReadQuiet ag p va pa n) :=
  keeps_bind (keeps_lineAccess ..) fun _ =>
    keeps_bind (keeps_modify_kept fun s => kept_carryReleases ag pa n s) fun _ => keeps_bind keeps_get fun _ => keeps_pure _

theorem kept_consume (ag : Agent) (g : Nat) (s : State) : Kept s (consume ag g s) := kept_of rfl rfl

theorem keeps_physRead (ag : Agent) (p : Path) (va : BitVec 56) (pa n : Nat) : Keeps Canonical (physRead ag p va pa n) :=
  keeps_bind (keeps_physReadQuiet ..) fun _ =>
    keeps_bind (keeps_modify_kept fun s => kept_foldl (fun s g => kept_consume ag g s) _ s) fun _ => keeps_pure _

theorem keeps_physWrite (ag : Agent) (p : Path) (va : BitVec 56) (pa : Nat) (bs : List (BitVec 8)) :
    Keeps Canonical (physWrite ag p va pa bs) :=
  keeps_bind (keeps_lineAccess ..) fun _ => keeps_modify fun _ h => canonical_physPut _ _ _ h

theorem keeps_translate (ag : Agent) (part va : Nat) (acc : Access) : Keeps Canonical (Machine.translate ag part va acc) := by
  refine ⟨fun s h => ?_⟩
  have e : Machine.translate ag part va acc s = (match probe s part va acc with
      | .error f => .error (.trap { cause := f.cause, sub := f.sub, tva := BitVec.ofNat 56 va }) s
      | .ok l => .ok (leafAddress s part l va, l.ns) (match ag.tile with
          | some t => keepXlat t part va l none (markLeaf s ag l acc)
          | none => markLeaf s ag l acc)) := by
    simp only [Machine.translate, bind, get, getThe, MonadStateOf.get, EStateM.bind, EStateM.get]
    cases probe s part va acc <;> rfl
  rw [e]
  cases probe s part va acc with
  | error f => exact h
  | ok l =>
    have hm := canonical_markLeaf ag l acc h
    cases ag.tile with
    | none => exact hm
    | some t => exact canonical_kept (kept_keepXlat ..) hm

theorem keeps_partRead (p va n : Nat) (acc : Access) : Keeps Canonical (partRead p va n acc) :=
  keeps_bind (keeps_translate ..) fun _ => keeps_bind (keeps_physReadQuiet ..) fun _ => keeps_pure _

theorem keeps_partWrite (p va : Nat) (bs : List (BitVec 8)) : Keeps Canonical (partWrite p va bs) :=
  keeps_bind (keeps_translate ..) fun _ => by exact keeps_physWrite ..

theorem keeps_writeNotice (p : Nat) (w : Word × Word × Word × Word) : Keeps Canonical (writeNotice p w) := by
  unfold writeNotice
  refine keeps_bind keeps_get fun s => keeps_bind (keeps_partRead ..) fun tail => keeps_bind (keeps_partRead ..) fun head => ?_
  exact keeps_ite (keeps_pure _) (keeps_bind (keeps_partWrite ..) fun _ => keeps_bind (keeps_partWrite ..) fun _ => keeps_pure _)

/-! ### Taking a trap keeps the canonical form: it writes no byte but those of a notice -/

/-- The state that an attempt to post leaves. -/
def postState : PostResult → State
  | .posted s => s
  | .held s => s
  | .unwritable s _ _ => s

theorem canonical_tryPost {s : State} {p : Nat} {w : Word × Word × Word × Word} (h : Canonical s) : Canonical (postState (tryPost s p w)) := by
  have hk := keeps_writeNotice p w
  unfold tryPost
  generalize writeNotice p w = m at hk ⊢
  have hw := hk.run s h
  generalize m s = r at hw ⊢
  rcases r with ⟨_ | _, s1⟩ | ⟨tr | k, s1⟩
  exacts [h, hw, h, canonical_kept (kept_noteWait ..) h]

theorem canonical_watchNotice {s : State} (p va entry : Nat) (h : Canonical s) : Canonical (watchNotice p va entry s) := by
  have h1 := canonical_log (some p) 6 10 0x3FF 0 va h
  unfold watchNotice
  extract_lets s1
  exact canonical_kept (s := s1) (kept_of rfl rfl) h1

theorem canonical_postNotice {s : State} (p : Nat) (w : Word × Word × Word × Word) (h : Canonical s) : Canonical (postNotice s p w) := by
  have ht := canonical_tryPost (p := p) (w := w) h
  unfold postNotice
  extract_lets hold
  split
  · exact h
  · generalize tryPost s p w = r at ht ⊢
    cases r with
    | posted s1 => exact ht
    | held s1 => exact canonical_setPartition (s := s1) _ _ ht
    | unwritable s1 va e => exact canonical_watchNotice _ _ _ (canonical_setPartition (s := s1) _ _ ht)

theorem canonical_postAll {s : State} (p : Nat) (ws : List (Word × Word × Word × Word)) (h : Canonical s) : Canonical (postAll s p ws).1 := by
  simp only [postAll]
  induction ws generalizing s with
  | nil => exact h
  | cons w r ih => exact ih (canonical_postNotice p w h)

theorem canonical_postTrap {s : State} (t k : Nat) (tr : Trap) (d : Bool) (h : Canonical s) : Canonical (postTrap s t k tr d).1 := by
  unfold postTrap; split
  exacts [canonical_postAll _ _ h, h]

theorem canonical_clearStart {s : State} (t k : Nat) (tr : Trap) (h : Canonical s) : Canonical (clearStart s t k tr) := by
  unfold clearStart; split
  · exact canonical_kept (kept_setTile rfl) h
  · exact h

theorem canonical_takeTrap {s : State} (t k : Nat) (tr : Trap) (h : Canonical s) : Canonical (takeTrap s t k tr) := by
  have hp := canonical_postTrap t k tr ((clearStart s t k tr).strandOf t k).doubles (canonical_clearStart t k tr h)
  simp only [takeTrap]
  exact canonical_setStrandOf _ _ _ hp

theorem canonical_raise {s : State} (tr : Trap) (h : Canonical s) : Canonical (raise s tr) := by
  simp only [raise]; split
  · exact canonical_waitAt _ h
  · exact canonical_takeTrap _ _ _ h

/-! ### Scalar accesses keep the canonical form -/

theorem kept_updCtx (t : Nat) (f : Ctx → Ctx) (s : State) : Kept s (updCtx t f s) := kept_setTile rfl
theorem kept_setQueue (t : Nat) (q : List Entry) (s : State) : Kept s (setQueue t q s) := kept_setTile rfl
theorem kept_setVstart (t n : Nat) (s : State) : Kept s (setVstart t n s) := kept_updCtx ..

theorem kept_withdrawAll (t : Nat) (s : State) : Kept s (withdrawAll t s) := kept_updCtx ..
theorem kept_dropEntries (t k : Nat) (s : State) : Kept s (dropEntries t k s) := kept_setQueue ..

theorem kept_abandonHead (t : Nat) (e : Entry) (n : Nat) (s : State) : Kept s (abandonHead t e n s) := by
  simp only [abandonHead]
  exact (((kept_withdrawAll t s).trans (kept_setStrandOf ..)).trans (kept_dropEntries ..)).trans (kept_setVstart ..)


theorem keeps_releasePins (h off n : Nat) : Keeps Canonical (releasePins h off n) := by
  unfold releasePins
  refine keeps_bind keeps_get fun s => keeps_bind (keeps_forIn fun u => ?_) fun _ => keeps_pure _
  refine keeps_getThen fun s hs => ?_
  cases (s.tile u).queue with
  | nil => exact hs
  | cons e r =>
    dsimp only
    split
    · exact canonical_kept (kept_abandonHead u e (e.op.resumeAt (s.tile u).ctx.av.vstart) s) hs
    · exact hs

theorem keeps_spdWrite (t h off : Nat) (bs : List (BitVec 8)) : Keeps Canonical (spdWrite t h off bs) :=
  keeps_bind (keeps_releasePins ..) fun _ => keeps_modify fun _ hs => canonical_spdPut _ _ _ _ hs

theorem keeps_spdRead (ag : Agent) (h off n : Nat) : Keeps Canonical (spdRead ag h off n) :=
  keeps_bind (keeps_modify_kept fun s => kept_foldl (fun s _ => kept_consume ag 0 s) _ s) fun _ => keeps_bind keeps_get fun _ => keeps_pure _

theorem keeps_refillCheck {P : State → Prop} (h off n : Nat) : Keeps P (refillCheck h off n) :=
  keeps_bind keeps_get fun _ => keeps_ite (keeps_throw _) (keeps_pure _)

theorem keeps_wmCheck (ea : Word) (h off n : Nat) : Keeps Canonical (wmCheck ea h off n) := by
  unfold wmCheck
  refine keeps_bind keeps_get fun s => ?_
  split
  · exact keeps_throw _
  · exact keeps_ite (keeps_bind (keeps_throw _) fun _ => keeps_refillCheck ..) (keeps_refillCheck ..)

theorem keeps_placeFor (t k : Nat) (ag : Agent) (ea : Word) (n : Nat) (acc : Access) : Keeps Canonical (placeFor t k ag ea n acc) := by
  unfold placeFor
  refine keeps_bind keeps_get fun s => ?_
  split
  · exact keeps_throw _
  · next c _ =>
    have hc : Keeps Canonical (match c with
        | .spd w pos off => (do
          if !spdInRange s t k w pos off n then throw (.trap { cause := cSPDRANGE, tva := tvaOf ea })
          wmCheck ea (spdTile t w pos) off n
          return .spd (spdTile t w pos) off : M Place)
        | .virt va => do
          let (pa, ns) ← Machine.translate ag ((s.tile t).part.getD 0) va acc
          return .mem pa (tvaOf ea) ns) := by
      cases c with
      | spd w pos off =>
        have hw := keeps_bind (keeps_wmCheck ea (spdTile t w pos) off n) fun _ => keeps_pure (Place.spd (spdTile t w pos) off)
        exact keeps_ite (keeps_bind (keeps_throw _) fun _ => hw) hw
      | virt va => exact keeps_bind (keeps_translate ..) fun _ => keeps_pure _
    exact keeps_ite (keeps_bind (keeps_throw _) fun _ => hc) hc

theorem keeps_scalarPlace (ea : Word) (n : Nat) (acc : Access) : Keeps Canonical (scalarPlace ea n acc) := by
  unfold scalarPlace awaitJoin
  refine keeps_bind (keeps_bind keeps_get fun s => keeps_ite (keeps_throw _) (keeps_pure _)) fun _ => ?_
  refine keeps_bind keeps_get fun s => keeps_bind (keeps_placeFor ..) fun p => ?_
  cases p with
  | spd h off => exact keeps_pure _
  | mem pa va ns => exact keeps_ite (keeps_bind (keeps_throw _) fun _ => keeps_pure _) (keeps_pure _)

theorem keeps_awaitCommit {P : State → Prop} : Keeps P awaitCommit :=
  keeps_bind keeps_get fun _ => keeps_ite (keeps_throw _) (keeps_pure _)

theorem kept_acquireFirst (o : Order) (ag : Agent) (pa n : Nat) (s : State) : Kept s (acquireFirst o ag pa n s) :=
  kept_ite (kept_acquireFlush ..) (.refl s)

theorem kept_afterWrite (o : Order) (pa n : Nat) (s : State) : Kept s (afterWrite o pa n s) := kept_ite (kept_of rfl rfl) (.refl s)

theorem kept_keepRelease (o : Order) (p : Path) (l : Nat) (s : State) : Kept s (keepRelease o p l s) := by
  unfold keepRelease; split
  · extract_lets s1
    have h1 : Kept s s1 := (kept_roomFor ..).trans (kept_flushVictim ..)
    clear_value s1
    refine h1.trans (.trans ?_ (kept_noteRegion ..))
    refine .trans ?_ (kept_fillTile ..)
    exact kept_of rfl rfl
  · exact .refl s

theorem kept_setCur (s : State) (y : Strand) : Kept s (s.setCur y) := kept_setStrandOf ..

theorem keeps_setWatch (pa : Nat) : Keeps Canonical (setWatch pa) := keeps_modify_kept fun _ => kept_setCur ..

theorem keeps_scalarLoad (ea : Word) (n : Nat) (o : Order) : Keeps Canonical (scalarLoad ea n o) := by
  unfold scalarLoad
  refine keeps_bind (keeps_scalarPlace ..) fun p => ?_
  cases p with
  | spd h off =>
    exact keeps_bind (keeps_modify_kept fun _ => kept_setCur ..) fun _ => keeps_bind keeps_get fun _ =>
      keeps_bind (keeps_spdRead ..) fun _ => keeps_pure _
  | mem pa va ns =>
    exact keeps_bind keeps_get fun _ => keeps_bind (keeps_modify_kept fun _ => kept_acquireFirst ..) fun _ => keeps_bind keeps_get fun _ =>
      keeps_bind (keeps_physRead ..) fun _ => keeps_bind (keeps_setWatch pa) fun _ => keeps_pure _

theorem keeps_scalarStore (ea : Word) (n v : Nat) (o : Order) : Keeps Canonical (scalarStore ea n v o) := by
  unfold scalarStore
  refine keeps_bind keeps_awaitCommit fun _ => keeps_bind (keeps_scalarPlace ..) fun p => ?_
  cases p with
  | spd h off => exact keeps_bind keeps_get fun _ => keeps_spdWrite ..
  | mem pa va ns => exact keeps_bind keeps_get fun _ => keeps_bind (keeps_physWrite ..) fun _ => keeps_modify_kept fun _ => kept_afterWrite ..

theorem canonical_putAtomic {s : State} (ag : Agent) (pa : Nat) (bs : List (BitVec 8)) (h : Canonical s) : Canonical (putAtomic ag pa bs s) := by
  have h1 := canonical_physPut ag pa bs h
  unfold putAtomic
  extract_lets b s1
  exact canonical_kept (s := s1) (kept_of rfl rfl) h1

theorem keeps_memAtomic (ag : Agent) (p : Path) (va : BitVec 56) (pa n : Nat) (f : Nat → Option Nat) : Keeps Canonical (memAtomic ag p va pa n f) := by
  have hw : Keeps Canonical (do
      lineAccess ag p va pa n true
      modify (carryReleases ag pa n)
      let bs := cellsGet (← get).mem pa n
      modify fun s => ((granules pa n).filter s.poisoned).foldl (fun s g => consume ag g s) s
      match f (leNat bs) with
      | some v => modify (putAtomic ag pa (natLe n v))
      | none => pure ()
      return leNat bs) := by
    refine keeps_bind (keeps_lineAccess ..) fun _ => keeps_bind (keeps_modify_kept fun s => kept_carryReleases ag pa n s) fun _ => ?_
    refine keeps_bind keeps_get fun s => ?_
    refine keeps_bind (keeps_modify_kept fun s => kept_foldl (fun s g => kept_consume _ g s) _ s) fun _ => ?_
    dsimp only
    cases f (leNat (cellsGet s.mem pa n)) with
    | none => exact keeps_bind (keeps_pure _) fun _ => keeps_pure _
    | some v => exact keeps_bind (keeps_modify fun s hs => canonical_putAtomic _ _ _ hs) fun _ => keeps_pure _
  unfold memAtomic
  exact keeps_ite (keeps_bind (keeps_modify_kept fun s => kept_flushHolders _ s) fun _ => hw) hw

theorem keeps_scalarAtomic (ea : Word) (n : Nat) (o : Order) (f : Nat → Option Nat) : Keeps Canonical (scalarAtomic ea n o f) := by
  unfold scalarAtomic
  refine keeps_bind keeps_awaitCommit fun _ => keeps_bind (keeps_scalarPlace ..) fun p => ?_
  cases p with
  | spd h off =>
    refine keeps_bind keeps_get fun _ => keeps_bind (keeps_spdRead ..) fun old => ?_
    have he := keeps_bind (keeps_modify_kept fun s : State => kept_setCur s { s.cur with watch := none, written := false })
      fun _ => keeps_pure (leNat old)
    dsimp only
    cases f (leNat old) with
    | none => exact he
    | some v => exact keeps_bind keeps_get fun _ => keeps_bind (keeps_spdWrite ..) fun _ => he
  | mem pa va ns =>
    refine keeps_bind keeps_get fun s0 => keeps_bind (keeps_modify_kept fun s => kept_acquireFirst ..) fun _ => ?_
    refine keeps_bind (keeps_memAtomic ..) fun old => ?_
    have he := keeps_bind (keeps_setWatch pa) fun _ => keeps_pure old
    exact keeps_ite (keeps_bind (keeps_modify_kept fun s => (kept_afterWrite ..).trans (kept_keepRelease ..)) fun _ => he) he

/-! ### Records keep the canonical form -/

theorem keeps_recordPlaces (ea : Word) (n a : Nat) (acc : Access) (w : Accepts) : Keeps Canonical (recordPlaces ea n a acc w) := by
  unfold recordPlaces
  have hm : Keeps Canonical ((List.range (n / 8)).mapM fun i => scalarPlace (ea + BitVec.ofNat 64 (8 * i)) 8 acc) :=
    keeps_mapM fun _ _ => keeps_scalarPlace ..
  have ha := keeps_ite (c := ea.toNat % a ≠ 0) (keeps_bind (keeps_throw (.trap { cause := cMISALIGN, tva := tvaOf ea })) fun _ : PUnit => hm) hm
  exact keeps_ite (keeps_bind (keeps_throw _) fun _ => ha) ha

theorem keeps_readRecord (ea : Word) (n a : Nat) (w : Accepts) : Keeps Canonical (readRecord ea n a w) := by
  refine keeps_bind (keeps_recordPlaces ..) fun ps => keeps_mapM fun p _ => ?_
  cases p with
  | spd h off => exact keeps_bind keeps_get fun _ => keeps_bind (keeps_spdRead ..) fun _ => keeps_pure _
  | mem pa va ns => exact keeps_bind keeps_get fun _ => keeps_bind (keeps_physRead ..) fun _ => keeps_pure _

theorem keeps_writeRecord (ea : Word) (a : Nat) (ws : List Nat) : Keeps Canonical (writeRecord ea a ws) := by
  refine keeps_bind (keeps_recordPlaces ..) fun ps => keeps_bind (keeps_forIn fun x => ?_) fun _ => keeps_pure _
  obtain ⟨p, w⟩ := x
  cases p with
  | spd h off => exact keeps_bind keeps_get fun _ => keeps_bind (keeps_spdWrite ..) fun _ => keeps_pure _
  | mem pa va ns => exact keeps_bind keeps_get fun _ => keeps_bind (keeps_physWrite ..) fun _ => keeps_pure _

section
variable {P : State → Prop}

/-- A scalar instruction keeps what its operation, a trap and a wait keep. -/
theorem keeps_scalarEnd {m : M Unit} {s : State} (h : P s) (hm : Keeps P m) (hr : ∀ tr, P (raise s tr)) (hw : ∀ w, P (s.waitAt w)) :
    P (scalarEnd m s) := by
  have h1 := hm.run s h
  obtain ⟨s', e, e'⟩ | ⟨tr, s', -, e'⟩ | ⟨w, s', -, e'⟩ := scalarEnd_cases m s
  · rw [e] at h1; rw [e']; exact h1
  · rw [e']; exact hr tr
  · rw [e']; exact hw w

end

/-! ### Right after reset -/

theorem reset_mem_wf : Memory.wf State.reset.mem = true := rfl

end Sys2Proof.Laws
end

