-- ==== Sys2Proof/Laws/PerInstr.lean ====
section
/-! SUPPORT. The statements made of every instruction one by one. -/

namespace Sys2Proof.Laws

/-- The six highest bits of a bit vector. -/
def top {n : Nat} (x : BitVec n) : Nat := x.toNat / 2 ^ (n - 6)

/-- Bits appended below do not change the six highest. -/
theorem top_append {n m : Nat} (x : BitVec n) (y : BitVec m) (h : 6 ≤ n) : top (x ++ y) = top x := by
  have : n + m - 6 = m + (n - 6) := by omega
  rw [top, top, this, BitVec.toNat_append, Nat.pow_add, ← Nat.div_div_eq_div_mul, Nat.shiftLeft_eq, Nat.mul_comm,
    ← Nat.two_pow_add_eq_or_of_lt y.isLt, Nat.mul_add_div (Nat.two_pow_pos m), Nat.div_eq_of_lt y.isLt, Nat.add_zero]

/-- The major opcode of an instruction (R23, Table 1.4); 64 for an event, which has no word. -/
def majorOf : Instr → Nat
  | .ill .. | .trap .. | .tret | .brk .. | .fence .. | .fenceQ .. | .fenceI | .mwait .. => 0x0
  | .add .. | .sub .. | .and .. | .or .. | .xor .. | .andn .. | .sll .. | .srl .. | .sra .. | .rol .. | .ror .. | .slt ..
  | .sltu .. | .min .. | .max .. | .minu .. | .maxu .. | .mul .. | .mulh .. | .mulhu .. | .mulhsu .. | .div .. | .divu ..
  | .rem .. | .remu .. | .clz .. | .ctz .. | .ffs .. | .popc .. | .bswap .. => 0x1
  | .addi .. => 0x2
  | .andi .. => 0x3
  | .ori .. => 0x4
  | .xori .. => 0x5
  | .slti .. | .sltiu .. => 0x6
  | .slli .. | .srli .. | .srai .. | .rori .. => 0x7
  | .lih .. => 0x8
  | .ldB .. | .ldH .. | .ldW .. | .ldD .. | .ldBu .. | .ldHu .. | .ldWu .. => 0x9
  | .stB .. | .stH .. | .stW .. | .stD .. => 0xa
  | .amoSwap .. | .amoAdd .. | .amoAnd .. | .amoOr .. | .amoXor .. | .amoMin .. | .amoMax .. | .amoMinu .. | .amoMaxu ..
  | .amoCas .. | .orderedLoadZext .. | .orderedLoadSext .. | .orderedStore .. => 0xb
  | .beq .. | .bne .. | .blt .. | .bge .. | .bltu .. | .bgeu .. => 0xc
  | .jal .. => 0xd
  | .jalr .. => 0xe
  | .csrrw .. | .csrrs .. | .csrrc .. | .csrrwi .. | .csrrsi .. | .csrrci .. => 0xf
  | .vadd .. | .vsub .. | .vmul .. | .vmulh .. | .vfma .. | .vfms .. | .vfnma .. | .vdiv .. | .vmin .. | .vmax .. | .vsadd ..
  | .vssub .. | .vand .. | .vor .. | .vxor .. | .vandn .. | .vsll .. | .vsrl .. | .vsra .. | .vceq .. | .vcne .. | .vclt ..
  | .vcle .. | .vabs .. | .vneg .. | .vclz .. | .vctz .. | .vffs .. | .vpopc .. | .vexp2 .. | .vlog2 .. | .vrcp .. | .vrsq ..
  | .vcvt .. | .vcvtRne .. | .vcvtRtz .. | .vcvtRdn .. | .vcvtRup .. | .vcvtRmm .. | .vcvtSr .. | .vquant ..
  | .vdequant .. => 0x10
  | .vaddS .. | .vsubS .. | .vmulS .. | .vmulhS .. | .vfmaS .. | .vfmsS .. | .vfnmaS .. | .vdivS .. | .vminS .. | .vmaxS ..
  | .vsaddS .. | .vssubS .. | .vandS .. | .vorS .. | .vxorS .. | .vandnS .. | .vsllS .. | .vsrlS .. | .vsraS .. | .vceqS ..
  | .vcneS .. | .vcltS .. | .vcleS .. => 0x11
  | .vaddI .. | .vsubI .. | .vmulI .. | .vmulhI .. | .vminI .. | .vmaxI .. | .vsaddI .. | .vssubI .. | .vandI .. | .vorI ..
  | .vxorI .. | .vandnI .. | .vsllI .. | .vsrlI .. | .vsraI .. | .vceqI .. | .vcneI .. | .vcltI .. | .vcleI .. => 0x12
  | .mand .. | .mor .. | .mxor .. | .mandn .. | .morn .. | .mnot .. | .mpopc .. | .mfirst .. | .mset .. | .mclr .. => 0x13
  | .vslideup .. | .vslidedn .. | .vgather .. | .vcompress .. | .vexpand .. | .vbcast .. | .vext .. | .vins .. | .vredsum ..
  | .vredsumo .. | .vredmin .. | .vredmax .. => 0x14
  | .vsetl .. | .vtag .. => 0x15
  | .vld .. | .vlds .. | .vldx .. | .vldFf .. | .vldt .. => 0x16
  | .vst .. | .vsts .. | .vstx .. | .vstt .. | .vmmAdd .. | .vmmSub .. | .vmmMul .. | .vmmMin .. | .vmmMax .. | .vmmAnd ..
  | .vmmOr .. | .vmmXor .. | .vmmCpy .. | .vfba .. => 0x17
  | .mcfg .. => 0x18
  | .mma .. | .mmaX .. | .mmaG .. => 0x19
  | .mmaS24 .. | .mmaBm .. => 0x1a
  | .mzero .. | .mrsum .. | .mld .. | .mst .. | .mstSm .. | .mdrain .. => 0x1b
  | .xcopy .. | .xcopyQ .. | .xabort .. | .xqry .. => 0x1c
  | .xwaitW .. | .xwaitE | .xev .. => 0x1d
  | .fcfgLd .. | .fcfgSw .. => 0x1e
  | .fstart | .fstop | .fsave .. | .frest .. | .fmark .. | .fstat .. => 0x1f
  | .fportW .. | .fportWEos .. | .fportR .. | .fportRStatus .. => 0x20
  | .sopen .. | .sclose .. | .sadv .. | .spos .. => 0x21
  | .chbind .. | .chsend .. | .chrecv .. | .chpoll .. | .chseq .. => 0x22
  | .drgtSet .. | .drgtRd .. | .drgtFreeze .. | .drgtThaw .. => 0x23
  | .launch .. | .trig | .exit .. | .waitCh .. | .waitCtr .. | .yield | .rtake .. | .ctrRd .. | .ctrAdd .. | .cancel ..
  | .gsqArm .. => 0x24
  | .spalloc .. | .spfree .. | .opreq .. | .opcap .. => 0x25
  | .nonInstructionWord .. | .takeTrap .. | .fetchFault .. | .engineTrap .. | .vectorEntryPerform .. | .matrixEntryStart ..
  | .matrixEntryComplete .. | .engineEntryRetire .. | .mwaitTimeout .. | .strandAgePromotion .. | .copyAccept ..
  | .copyLineWrite .. | .copyComplete .. | .copyPageFault .. | .eventPostDeferred .. | .teamStart .. | .helperEnd ..
  | .teamExit .. | .cancelDelivery .. | .supervisorRestart .. | .noticePostRetry .. | .fabricAdd .. | .fabricSub ..
  | .fabricMul .. | .fabricFma .. | .fabricMin .. | .fabricMax .. | .fabricAnd .. | .fabricOr .. | .fabricXor ..
  | .fabricShl .. | .fabricShr .. | .fabricCmp .. | .fabricSel .. | .fabricCvt .. | .fabricUnpk .. | .fabricPack ..
  | .fabricAgen .. | .fabricLdn .. | .fabricStn .. | .fabricAmon .. | .fabricGate .. | .fabricSteer .. | .fabricMerge ..
  | .fabricIsect .. | .fabricCarry .. | .fabricInv .. | .fabricCtr .. | .fabricRtake .. | .fabricXreq .. | .fabricVin ..
  | .fabricVout .. | .fabricConst .. | .fabricDrop .. | .fabricDup .. | .fabricAcc .. | .fabricTagchk ..
  | .fabricPositionSwitch .. | .lateFiring .. | .resolutionWatchWrite .. | .streamElementArrival .. | .draughtSample ..
  | .rateMessageArrival .. | .reservationRegistration .. | .reservationPageRegister .. | .lineRequest .. | .probeShared ..
  | .probeInvalidate .. | .lineEviction .. | .tileCacheRetention .. | .splitProbe .. | .splitAnswer .. | .positionReport ..
  | .reservationRelease .. | .forwardedAcquire .. | .backInvalidateSnoop .. | .externalRead .. | .externalWrite ..
  | .migrationArm .. | .migrationStart .. | .migrationLineCopy .. | .poolWordObserved .. | .partPreempt .. | .tileHalt ..
  | .contextSwapOut .. | .contextMove .. | .stripeEviction .. | .partResume .. | .contextRestore .. | .stripeRefill ..
  | .markerNoticeArrival .. | .snapshot .. | .errorConsumed .. | .rollback .. | .permitAudit .. | .flitCrcRetry ..
  | .ucieLaneRepair .. | .patrolScrub .. | .tileFence .. | .allocatorAck .. | .stripeMove .. | .cacheWayDisable ..
  | .clockChange | .voltageRamp | .opStepComplete | .charMapRefresh .. | .deviceReset | .partSetup .. | .partReset ..
  | .partFree .. | .lend .. | .revoke .. | .revocationNotice .. | .revocationAck .. | .revokeTimeout .. | .errlog ..
  | .charmap .. | .measure | .attest .. | .fwStage .. | .devConfig .. | .hbmChannelFailure .. | .cxlCompletionTimeout ..
  | .linkTraining .. => 64

/-- The word of an instruction has its major opcode in bits [31:26] (R9, R23), and an event has no word. -/
def Encoding.Statement (i : Instr) : Prop := ∀ w, encode i = some w → top w = majorOf i

end Sys2Proof.Laws

open Sys2Proof Sys2Proof.Laws

theorem Sys2Proof.Laws.Encoding.add (x0 x1 x2) : Encoding.Statement (.add x0 x1 x2) := by rintro w ⟨⟩; (repeat rw [top_append _ _ (by decide)]); rfl
theorem Sys2Proof.Laws.Encoding.sub (x0 x1 x2) : Encoding.Statement (.sub x0 x1 x2) := by rintro w ⟨⟩; (repeat rw [top_append _ _ (by decide)]); rfl
theorem Sys2Proof.Laws.Encoding.and (x0 x1 x2) : Encoding.Statement (.and x0 x1 x2) := by rintro w ⟨⟩; (repeat rw [top_append _ _ (by decide)]); rfl
theorem Sys2Proof.Laws.Encoding.or (x0 x1 x2) : Encoding.Statement (.or x0 x1 x2) := by rintro w ⟨⟩; (repeat rw [top_append _ _ (by decide)]); rfl
theorem Sys2Proof.Laws.Encoding.xor (x0 x1 x2) : Encoding.Statement (.xor x0 x1 x2) := by rintro w ⟨⟩; (repeat rw [top_append _ _ (by decide)]); rfl
theorem Sys2Proof.Laws.Encoding.andn (x0 x1 x2) : Encoding.Statement (.andn x0 x1 x2) := by rintro w ⟨⟩; (repeat rw [top_append _ _ (by decide)]); rfl
theorem Sys2Proof.Laws.Encoding.sll (x0 x1 x2) : Encoding.Statement (.sll x0 x1 x2) := by rintro w ⟨⟩; (repeat rw [top_append _ _ (by decide)]); rfl
theorem Sys2Proof.Laws.Encoding.srl (x0 x1 x2) : Encoding.Statement (.srl x0 x1 x2) := by rintro w ⟨⟩; (repeat rw [top_append _ _ (by decide)]); rfl
theorem Sys2Proof.Laws.Encoding.sra (x0 x1 x2) : Encoding.Statement (.sra x0 x1 x2) := by rintro w ⟨⟩; (repeat rw [top_append _ _ (by decide)]); rfl
theorem Sys2Proof.Laws.Encoding.rol (x0 x1 x2) : Encoding.Statement (.rol x0 x1 x2) := by rintro w ⟨⟩; (repeat rw [top_append _ _ (by decide)]); rfl
theorem Sys2Proof.Laws.Encoding.ror (x0 x1 x2) : Encoding.Statement (.ror x0 x1 x2) := by rintro w ⟨⟩; (repeat rw [top_append _ _ (by decide)]); rfl
theorem Sys2Proof.Laws.Encoding.slt (x0 x1 x2) : Encoding.Statement (.slt x0 x1 x2) := by rintro w ⟨⟩; (repeat rw [top_append _ _ (by decide)]); rfl
theorem Sys2Proof.Laws.Encoding.sltu (x0 x1 x2) : Encoding.Statement (.sltu x0 x1 x2) := by rintro w ⟨⟩; (repeat rw [top_append _ _ (by decide)]); rfl
theorem Sys2Proof.Laws.Encoding.min (x0 x1 x2) : Encoding.Statement (.min x0 x1 x2) := by rintro w ⟨⟩; (repeat rw [top_append _ _ (by decide)]); rfl
theorem Sys2Proof.Laws.Encoding.max (x0 x1 x2) : Encoding.Statement (.max x0 x1 x2) := by rintro w ⟨⟩; (repeat rw [top_append _ _ (by decide)]); rfl
theorem Sys2Proof.Laws.Encoding.minu (x0 x1 x2) : Encoding.Statement (.minu x0 x1 x2) := by rintro w ⟨⟩; (repeat rw [top_append _ _ (by decide)]); rfl
theorem Sys2Proof.Laws.Encoding.maxu (x0 x1 x2) : Encoding.Statement (.maxu x0 x1 x2) := by rintro w ⟨⟩; (repeat rw [top_append _ _ (by decide)]); rfl
theorem Sys2Proof.Laws.Encoding.mul (x0 x1 x2) : Encoding.Statement (.mul x0 x1 x2) := by rintro w ⟨⟩; (repeat rw [top_append _ _ (by decide)]); rfl
theorem Sys2Proof.Laws.Encoding.mulh (x0 x1 x2) : Encoding.Statement (.mulh x0 x1 x2) := by rintro w ⟨⟩; (repeat rw [top_append _ _ (by decide)]); rfl
theorem Sys2Proof.Laws.Encoding.mulhu (x0 x1 x2) : Encoding.Statement (.mulhu x0 x1 x2) := by rintro w ⟨⟩; (repeat rw [top_append _ _ (by decide)]); rfl
theorem Sys2Proof.Laws.Encoding.mulhsu (x0 x1 x2) : Encoding.Statement (.mulhsu x0 x1 x2) := by rintro w ⟨⟩; (repeat rw [top_append _ _ (by decide)]); rfl
theorem Sys2Proof.Laws.Encoding.div (x0 x1 x2) : Encoding.Statement (.div x0 x1 x2) := by rintro w ⟨⟩; (repeat rw [top_append _ _ (by decide)]); rfl
theorem Sys2Proof.Laws.Encoding.divu (x0 x1 x2) : Encoding.Statement (.divu x0 x1 x2) := by rintro w ⟨⟩; (repeat rw [top_append _ _ (by decide)]); rfl
theorem Sys2Proof.Laws.Encoding.rem (x0 x1 x2) : Encoding.Statement (.rem x0 x1 x2) := by rintro w ⟨⟩; (repeat rw [top_append _ _ (by decide)]); rfl
theorem Sys2Proof.Laws.Encoding.remu (x0 x1 x2) : Encoding.Statement (.remu x0 x1 x2) := by rintro w ⟨⟩; (repeat rw [top_append _ _ (by decide)]); rfl
theorem Sys2Proof.Laws.Encoding.clz (x0 x1) : Encoding.Statement (.clz x0 x1) := by rintro w ⟨⟩; (repeat rw [top_append _ _ (by decide)]); rfl
theorem Sys2Proof.Laws.Encoding.ctz (x0 x1) : Encoding.Statement (.ctz x0 x1) := by rintro w ⟨⟩; (repeat rw [top_append _ _ (by decide)]); rfl
theorem Sys2Proof.Laws.Encoding.ffs (x0 x1) : Encoding.Statement (.ffs x0 x1) := by rintro w ⟨⟩; (repeat rw [top_append _ _ (by decide)]); rfl
theorem Sys2Proof.Laws.Encoding.popc (x0 x1) : Encoding.Statement (.popc x0 x1) := by rintro w ⟨⟩; (repeat rw [top_append _ _ (by decide)]); rfl
theorem Sys2Proof.Laws.Encoding.bswap (x0 x1) : Encoding.Statement (.bswap x0 x1) := by rintro w ⟨⟩; (repeat rw [top_append _ _ (by decide)]); rfl
theorem Sys2Proof.Laws.Encoding.addi (x0 x1 x2) : Encoding.Statement (.addi x0 x1 x2) := by rintro w ⟨⟩; (repeat rw [top_append _ _ (by decide)]); rfl
theorem Sys2Proof.Laws.Encoding.andi (x0 x1 x2) : Encoding.Statement (.andi x0 x1 x2) := by rintro w ⟨⟩; (repeat rw [top_append _ _ (by decide)]); rfl
theorem Sys2Proof.Laws.Encoding.ori (x0 x1 x2) : Encoding.Statement (.ori x0 x1 x2) := by rintro w ⟨⟩; (repeat rw [top_append _ _ (by decide)]); rfl
theorem Sys2Proof.Laws.Encoding.xori (x0 x1 x2) : Encoding.Statement (.xori x0 x1 x2) := by rintro w ⟨⟩; (repeat rw [top_append _ _ (by decide)]); rfl
theorem Sys2Proof.Laws.Encoding.slti (x0 x1 x2) : Encoding.Statement (.slti x0 x1 x2) := by rintro w ⟨⟩; (repeat rw [top_append _ _ (by decide)]); rfl
theorem Sys2Proof.Laws.Encoding.sltiu (x0 x1 x2) : Encoding.Statement (.sltiu x0 x1 x2) := by rintro w ⟨⟩; (repeat rw [top_append _ _ (by decide)]); rfl
theorem Sys2Proof.Laws.Encoding.slli (x0 x1 x2) : Encoding.Statement (.slli x0 x1 x2) := by rintro w ⟨⟩; (repeat rw [top_append _ _ (by decide)]); rfl
theorem Sys2Proof.Laws.Encoding.srli (x0 x1 x2) : Encoding.Statement (.srli x0 x1 x2) := by rintro w ⟨⟩; (repeat rw [top_append _ _ (by decide)]); rfl
theorem Sys2Proof.Laws.Encoding.srai (x0 x1 x2) : Encoding.Statement (.srai x0 x1 x2) := by rintro w ⟨⟩; (repeat rw [top_append _ _ (by decide)]); rfl
theorem Sys2Proof.Laws.Encoding.rori (x0 x1 x2) : Encoding.Statement (.rori x0 x1 x2) := by rintro w ⟨⟩; (repeat rw [top_append _ _ (by decide)]); rfl
theorem Sys2Proof.Laws.Encoding.lih (x0 x1) : Encoding.Statement (.lih x0 x1) := by rintro w ⟨⟩; (repeat rw [top_append _ _ (by decide)]); rfl
theorem Sys2Proof.Laws.Encoding.ldB (x0 x1 x2) : Encoding.Statement (.ldB x0 x1 x2) := by rintro w ⟨⟩; (repeat rw [top_append _ _ (by decide)]); rfl
theorem Sys2Proof.Laws.Encoding.ldH (x0 x1 x2) : Encoding.Statement (.ldH x0 x1 x2) := by rintro w ⟨⟩; (repeat rw [top_append _ _ (by decide)]); rfl
theorem Sys2Proof.Laws.Encoding.ldW (x0 x1 x2) : Encoding.Statement (.ldW x0 x1 x2) := by rintro w ⟨⟩; (repeat rw [top_append _ _ (by decide)]); rfl
theorem Sys2Proof.Laws.Encoding.ldD (x0 x1 x2) : Encoding.Statement (.ldD x0 x1 x2) := by rintro w ⟨⟩; (repeat rw [top_append _ _ (by decide)]); rfl
theorem Sys2Proof.Laws.Encoding.ldBu (x0 x1 x2) : Encoding.Statement (.ldBu x0 x1 x2) := by rintro w ⟨⟩; (repeat rw [top_append _ _ (by decide)]); rfl
theorem Sys2Proof.Laws.Encoding.ldHu (x0 x1 x2) : Encoding.Statement (.ldHu x0 x1 x2) := by rintro w ⟨⟩; (repeat rw [top_append _ _ (by decide)]); rfl
theorem Sys2Proof.Laws.Encoding.ldWu (x0 x1 x2) : Encoding.Statement (.ldWu x0 x1 x2) := by rintro w ⟨⟩; (repeat rw [top_append _ _ (by decide)]); rfl
theorem Sys2Proof.Laws.Encoding.stB (x0 x1 x2) : Encoding.Statement (.stB x0 x1 x2) := by rintro w ⟨⟩; (repeat rw [top_append _ _ (by decide)]); rfl
theorem Sys2Proof.Laws.Encoding.stH (x0 x1 x2) : Encoding.Statement (.stH x0 x1 x2) := by rintro w ⟨⟩; (repeat rw [top_append _ _ (by decide)]); rfl
theorem Sys2Proof.Laws.Encoding.stW (x0 x1 x2) : Encoding.Statement (.stW x0 x1 x2) := by rintro w ⟨⟩; (repeat rw [top_append _ _ (by decide)]); rfl
theorem Sys2Proof.Laws.Encoding.stD (x0 x1 x2) : Encoding.Statement (.stD x0 x1 x2) := by rintro w ⟨⟩; (repeat rw [top_append _ _ (by decide)]); rfl
theorem Sys2Proof.Laws.Encoding.amoSwap (x0 x1 x2 x3 x4 x5) : Encoding.Statement (.amoSwap x0 x1 x2 x3 x4 x5) := by rintro w ⟨⟩; (repeat rw [top_append _ _ (by decide)]); rfl
theorem Sys2Proof.Laws.Encoding.amoAdd (x0 x1 x2 x3 x4 x5) : Encoding.Statement (.amoAdd x0 x1 x2 x3 x4 x5) := by rintro w ⟨⟩; (repeat rw [top_append _ _ (by decide)]); rfl
theorem Sys2Proof.Laws.Encoding.amoAnd (x0 x1 x2 x3 x4 x5) : Encoding.Statement (.amoAnd x0 x1 x2 x3 x4 x5) := by rintro w ⟨⟩; (repeat rw [top_append _ _ (by decide)]); rfl
theorem Sys2Proof.Laws.Encoding.amoOr (x0 x1 x2 x3 x4 x5) : Encoding.Statement (.amoOr x0 x1 x2 x3 x4 x5) := by rintro w ⟨⟩; (repeat rw [top_append _ _ (by decide)]); rfl
theorem Sys2Proof.Laws.Encoding.amoXor (x0 x1 x2 x3 x4 x5) : Encoding.Statement (.amoXor x0 x1 x2 x3 x4 x5) := by rintro w ⟨⟩; (repeat rw [top_append _ _ (by decide)]); rfl
theorem Sys2Proof.Laws.Encoding.amoMin (x0 x1 x2 x3 x4 x5) : Encoding.Statement (.amoMin x0 x1 x2 x3 x4 x5) := by rintro w ⟨⟩; (repeat rw [top_append _ _ (by decide)]); rfl
theorem Sys2Proof.Laws.Encoding.amoMax (x0 x1 x2 x3 x4 x5) : Encoding.Statement (.amoMax x0 x1 x2 x3 x4 x5) := by rintro w ⟨⟩; (repeat rw [top_append _ _ (by decide)]); rfl
theorem Sys2Proof.Laws.Encoding.amoMinu (x0 x1 x2 x3 x4 x5) : Encoding.Statement (.amoMinu x0 x1 x2 x3 x4 x5) := by rintro w ⟨⟩; (repeat rw [top_append _ _ (by decide)]); rfl
theorem Sys2Proof.Laws.Encoding.amoMaxu (x0 x1 x2 x3 x4 x5) : Encoding.Statement (.amoMaxu x0 x1 x2 x3 x4 x5) := by rintro w ⟨⟩; (repeat rw [top_append _ _ (by decide)]); rfl
theorem Sys2Proof.Laws.Encoding.amoCas (x0 x1 x2 x3 x4 x5) : Encoding.Statement (.amoCas x0 x1 x2 x3 x4 x5) := by rintro w ⟨⟩; (repeat rw [top_append _ _ (by decide)]); rfl
theorem Sys2Proof.Laws.Encoding.orderedLoadZext (x0 x1 x2 x3 x4) : Encoding.Statement (.orderedLoadZext x0 x1 x2 x3 x4) := by rintro w ⟨⟩; (repeat rw [top_append _ _ (by decide)]); rfl
theorem Sys2Proof.Laws.Encoding.orderedLoadSext (x0 x1 x2 x3 x4) : Encoding.Statement (.orderedLoadSext x0 x1 x2 x3 x4) := by rintro w ⟨⟩; (repeat rw [top_append _ _ (by decide)]); rfl
theorem Sys2Proof.Laws.Encoding.orderedStore (x0 x1 x2 x3 x4) : Encoding.Statement (.orderedStore x0 x1 x2 x3 x4) := by rintro w ⟨⟩; (repeat rw [top_append _ _ (by decide)]); rfl
theorem Sys2Proof.Laws.Encoding.beq (x0 x1 x2) : Encoding.Statement (.beq x0 x1 x2) := by rintro w ⟨⟩; (repeat rw [top_append _ _ (by decide)]); rfl
theorem Sys2Proof.Laws.Encoding.bne (x0 x1 x2) : Encoding.Statement (.bne x0 x1 x2) := by rintro w ⟨⟩; (repeat rw [top_append _ _ (by decide)]); rfl
theorem Sys2Proof.Laws.Encoding.blt (x0 x1 x2) : Encoding.Statement (.blt x0 x1 x2) := by rintro w ⟨⟩; (repeat rw [top_append _ _ (by decide)]); rfl
theorem Sys2Proof.Laws.Encoding.bge (x0 x1 x2) : Encoding.Statement (.bge x0 x1 x2) := by rintro w ⟨⟩; (repeat rw [top_append _ _ (by decide)]); rfl
theorem Sys2Proof.Laws.Encoding.bltu (x0 x1 x2) : Encoding.Statement (.bltu x0 x1 x2) := by rintro w ⟨⟩; (repeat rw [top_append _ _ (by decide)]); rfl
theorem Sys2Proof.Laws.Encoding.bgeu (x0 x1 x2) : Encoding.Statement (.bgeu x0 x1 x2) := by rintro w ⟨⟩; (repeat rw [top_append _ _ (by decide)]); rfl
theorem Sys2Proof.Laws.Encoding.jal (x0) : Encoding.Statement (.jal x0) := by rintro w ⟨⟩; (repeat rw [top_append _ _ (by decide)]); rfl
theorem Sys2Proof.Laws.Encoding.jalr (x0 x1 x2) : Encoding.Statement (.jalr x0 x1 x2) := by rintro w ⟨⟩; (repeat rw [top_append _ _ (by decide)]); rfl
theorem Sys2Proof.Laws.Encoding.csrrw (x0 x1 x2) : Encoding.Statement (.csrrw x0 x1 x2) := by rintro w ⟨⟩; (repeat rw [top_append _ _ (by decide)]); rfl
theorem Sys2Proof.Laws.Encoding.csrrs (x0 x1 x2) : Encoding.Statement (.csrrs x0 x1 x2) := by rintro w ⟨⟩; (repeat rw [top_append _ _ (by decide)]); rfl
theorem Sys2Proof.Laws.Encoding.csrrc (x0 x1 x2) : Encoding.Statement (.csrrc x0 x1 x2) := by rintro w ⟨⟩; (repeat rw [top_append _ _ (by decide)]); rfl
theorem Sys2Proof.Laws.Encoding.csrrwi (x0 x1 x2) : Encoding.Statement (.csrrwi x0 x1 x2) := by rintro w ⟨⟩; (repeat rw [top_append _ _ (by decide)]); rfl
theorem Sys2Proof.Laws.Encoding.csrrsi (x0 x1 x2) : Encoding.Statement (.csrrsi x0 x1 x2) := by rintro w ⟨⟩; (repeat rw [top_append _ _ (by decide)]); rfl
theorem Sys2Proof.Laws.Encoding.csrrci (x0 x1 x2) : Encoding.Statement (.csrrci x0 x1 x2) := by rintro w ⟨⟩; (repeat rw [top_append _ _ (by decide)]); rfl
theorem Sys2Proof.Laws.Encoding.ill (x0 x1 x2) : Encoding.Statement (.ill x0 x1 x2) := by rintro w ⟨⟩; (repeat rw [top_append _ _ (by decide)]); rfl
theorem Sys2Proof.Laws.Encoding.trap (x0) : Encoding.Statement (.trap x0) := by rintro w ⟨⟩; (repeat rw [top_append _ _ (by decide)]); rfl
theorem Sys2Proof.Laws.Encoding.tret : Encoding.Statement .tret := by rintro w ⟨⟩; rfl
theorem Sys2Proof.Laws.Encoding.brk (x0) : Encoding.Statement (.brk x0) := by rintro w ⟨⟩; (repeat rw [top_append _ _ (by decide)]); rfl
theorem Sys2Proof.Laws.Encoding.fence (x0) : Encoding.Statement (.fence x0) := by rintro w ⟨⟩; (repeat rw [top_append _ _ (by decide)]); rfl
theorem Sys2Proof.Laws.Encoding.fenceQ (x0) : Encoding.Statement (.fenceQ x0) := by rintro w ⟨⟩; (repeat rw [top_append _ _ (by decide)]); rfl
theorem Sys2Proof.Laws.Encoding.fenceI : Encoding.Statement .fenceI := by rintro w ⟨⟩; rfl
theorem Sys2Proof.Laws.Encoding.mwait (x0 x1 x2) : Encoding.Statement (.mwait x0 x1 x2) := by rintro w ⟨⟩; (repeat rw [top_append _ _ (by decide)]); rfl
theorem Sys2Proof.Laws.Encoding.nonInstructionWord (x0) : Encoding.Statement (.nonInstructionWord x0) := by rintro w ⟨⟩
theorem Sys2Proof.Laws.Encoding.vadd (x0 x1 x2 x3) : Encoding.Statement (.vadd x0 x1 x2 x3) := by rintro w ⟨⟩; (repeat rw [top_append _ _ (by decide)]); rfl
theorem Sys2Proof.Laws.Encoding.vsub (x0 x1 x2 x3) : Encoding.Statement (.vsub x0 x1 x2 x3) := by rintro w ⟨⟩; (repeat rw [top_append _ _ (by decide)]); rfl
theorem Sys2Proof.Laws.Encoding.vmul (x0 x1 x2 x3) : Encoding.Statement (.vmul x0 x1 x2 x3) := by rintro w ⟨⟩; (repeat rw [top_append _ _ (by decide)]); rfl
theorem Sys2Proof.Laws.Encoding.vmulh (x0 x1 x2 x3) : Encoding.Statement (.vmulh x0 x1 x2 x3) := by rintro w ⟨⟩; (repeat rw [top_append _ _ (by decide)]); rfl
theorem Sys2Proof.Laws.Encoding.vfma (x0 x1 x2 x3) : Encoding.Statement (.vfma x0 x1 x2 x3) := by rintro w ⟨⟩; (repeat rw [top_append _ _ (by decide)]); rfl
theorem Sys2Proof.Laws.Encoding.vfms (x0 x1 x2 x3) : Encoding.Statement (.vfms x0 x1 x2 x3) := by rintro w ⟨⟩; (repeat rw [top_append _ _ (by decide)]); rfl
theorem Sys2Proof.Laws.Encoding.vfnma (x0 x1 x2 x3) : Encoding.Statement (.vfnma x0 x1 x2 x3) := by rintro w ⟨⟩; (repeat rw [top_append _ _ (by decide)]); rfl
theorem Sys2Proof.Laws.Encoding.vdiv (x0 x1 x2 x3) : Encoding.Statement (.vdiv x0 x1 x2 x3) := by rintro w ⟨⟩; (repeat rw [top_append _ _ (by decide)]); rfl
theorem Sys2Proof.Laws.Encoding.vmin (x0 x1 x2 x3) : Encoding.Statement (.vmin x0 x1 x2 x3) := by rintro w ⟨⟩; (repeat rw [top_append _ _ (by decide)]); rfl
theorem Sys2Proof.Laws.Encoding.vmax (x0 x1 x2 x3) : Encoding.Statement (.vmax x0 x1 x2 x3) := by rintro w ⟨⟩; (repeat rw [top_append _ _ (by decide)]); rfl
theorem Sys2Proof.Laws.Encoding.vsadd (x0 x1 x2 x3) : Encoding.Statement (.vsadd x0 x1 x2 x3) := by rintro w ⟨⟩; (repeat rw [top_append _ _ (by decide)]); rfl
theorem Sys2Proof.Laws.Encoding.vssub (x0 x1 x2 x3) : Encoding.Statement (.vssub x0 x1 x2 x3) := by rintro w ⟨⟩; (repeat rw [top_append _ _ (by decide)]); rfl
theorem Sys2Proof.Laws.Encoding.vand (x0 x1 x2 x3) : Encoding.Statement (.vand x0 x1 x2 x3) := by rintro w ⟨⟩; (repeat rw [top_append _ _ (by decide)]); rfl
theorem Sys2Proof.Laws.Encoding.vor (x0 x1 x2 x3) : Encoding.Statement (.vor x0 x1 x2 x3) := by rintro w ⟨⟩; (repeat rw [top_append _ _ (by decide)]); rfl
theorem Sys2Proof.Laws.Encoding.vxor (x0 x1 x2 x3) : Encoding.Statement (.vxor x0 x1 x2 x3) := by rintro w ⟨⟩; (repeat rw [top_append _ _ (by decide)]); rfl
theorem Sys2Proof.Laws.Encoding.vandn (x0 x1 x2 x3) : Encoding.Statement (.vandn x0 x1 x2 x3) := by rintro w ⟨⟩; (repeat rw [top_append _ _ (by decide)]); rfl
theorem Sys2Proof.Laws.Encoding.vsll (x0 x1 x2 x3) : Encoding.Statement (.vsll x0 x1 x2 x3) := by rintro w ⟨⟩; (repeat rw [top_append _ _ (by decide)]); rfl
theorem Sys2Proof.Laws.Encoding.vsrl (x0 x1 x2 x3) : Encoding.Statement (.vsrl x0 x1 x2 x3) := by rintro w ⟨⟩; (repeat rw [top_append _ _ (by decide)]); rfl
theorem Sys2Proof.Laws.Encoding.vsra (x0 x1 x2 x3) : Encoding.Statement (.vsra x0 x1 x2 x3) := by rintro w ⟨⟩; (repeat rw [top_append _ _ (by decide)]); rfl
theorem Sys2Proof.Laws.Encoding.vceq (x0 x1 x2 x3) : Encoding.Statement (.vceq x0 x1 x2 x3) := by rintro w ⟨⟩; (repeat rw [top_append _ _ (by decide)]); rfl
theorem Sys2Proof.Laws.Encoding.vcne (x0 x1 x2 x3) : Encoding.Statement (.vcne x0 x1 x2 x3) := by rintro w ⟨⟩; (repeat rw [top_append _ _ (by decide)]); rfl
theorem Sys2Proof.Laws.Encoding.vclt (x0 x1 x2 x3) : Encoding.Statement (.vclt x0 x1 x2 x3) := by rintro w ⟨⟩; (repeat rw [top_append _ _ (by decide)]); rfl
theorem Sys2Proof.Laws.Encoding.vcle (x0 x1 x2 x3) : Encoding.Statement (.vcle x0 x1 x2 x3) := by rintro w ⟨⟩; (repeat rw [top_append _ _ (by decide)]); rfl
theorem Sys2Proof.Laws.Encoding.vabs (x0 x1 x2) : Encoding.Statement (.vabs x0 x1 x2) := by rintro w ⟨⟩; (repeat rw [top_append _ _ (by decide)]); rfl
theorem Sys2Proof.Laws.Encoding.vneg (x0 x1 x2) : Encoding.Statement (.vneg x0 x1 x2) := by rintro w ⟨⟩; (repeat rw [top_append _ _ (by decide)]); rfl
theorem Sys2Proof.Laws.Encoding.vclz (x0 x1 x2) : Encoding.Statement (.vclz x0 x1 x2) := by rintro w ⟨⟩; (repeat rw [top_append _ _ (by decide)]); rfl
theorem Sys2Proof.Laws.Encoding.vctz (x0 x1 x2) : Encoding.Statement (.vctz x0 x1 x2) := by rintro w ⟨⟩; (repeat rw [top_append _ _ (by decide)]); rfl
theorem Sys2Proof.Laws.Encoding.vffs (x0 x1 x2) : Encoding.Statement (.vffs x0 x1 x2) := by rintro w ⟨⟩; (repeat rw [top_append _ _ (by decide)]); rfl
theorem Sys2Proof.Laws.Encoding.vpopc (x0 x1 x2) : Encoding.Statement (.vpopc x0 x1 x2) := by rintro w ⟨⟩; (repeat rw [top_append _ _ (by decide)]); rfl
theorem Sys2Proof.Laws.Encoding.vexp2 (x0 x1 x2) : Encoding.Statement (.vexp2 x0 x1 x2) := by rintro w ⟨⟩; (repeat rw [top_append _ _ (by decide)]); rfl
theorem Sys2Proof.Laws.Encoding.vlog2 (x0 x1 x2) : Encoding.Statement (.vlog2 x0 x1 x2) := by rintro w ⟨⟩; (repeat rw [top_append _ _ (by decide)]); rfl
theorem Sys2Proof.Laws.Encoding.vrcp (x0 x1 x2) : Encoding.Statement (.vrcp x0 x1 x2) := by rintro w ⟨⟩; (repeat rw [top_append _ _ (by decide)]); rfl
theorem Sys2Proof.Laws.Encoding.vrsq (x0 x1 x2) : Encoding.Statement (.vrsq x0 x1 x2) := by rintro w ⟨⟩; (repeat rw [top_append _ _ (by decide)]); rfl
theorem Sys2Proof.Laws.Encoding.vcvt (x0 x1 x2) : Encoding.Statement (.vcvt x0 x1 x2) := by rintro w ⟨⟩; (repeat rw [top_append _ _ (by decide)]); rfl
theorem Sys2Proof.Laws.Encoding.vcvtRne (x0 x1 x2) : Encoding.Statement (.vcvtRne x0 x1 x2) := by rintro w ⟨⟩; (repeat rw [top_append _ _ (by decide)]); rfl
theorem Sys2Proof.Laws.Encoding.vcvtRtz (x0 x1 x2) : Encoding.Statement (.vcvtRtz x0 x1 x2) := by rintro w ⟨⟩; (repeat rw [top_append _ _ (by decide)]); rfl
theorem Sys2Proof.Laws.Encoding.vcvtRdn (x0 x1 x2) : Encoding.Statement (.vcvtRdn x0 x1 x2) := by rintro w ⟨⟩; (repeat rw [top_append _ _ (by decide)]); rfl
theorem Sys2Proof.Laws.Encoding.vcvtRup (x0 x1 x2) : Encoding.Statement (.vcvtRup x0 x1 x2) := by rintro w ⟨⟩; (repeat rw [top_append _ _ (by decide)]); rfl
theorem Sys2Proof.Laws.Encoding.vcvtRmm (x0 x1 x2) : Encoding.Statement (.vcvtRmm x0 x1 x2) := by rintro w ⟨⟩; (repeat rw [top_append _ _ (by decide)]); rfl
theorem Sys2Proof.Laws.Encoding.vcvtSr (x0 x1 x2) : Encoding.Statement (.vcvtSr x0 x1 x2) := by rintro w ⟨⟩; (repeat rw [top_append _ _ (by decide)]); rfl
theorem Sys2Proof.Laws.Encoding.vquant (x0 x1 x2 x3) : Encoding.Statement (.vquant x0 x1 x2 x3) := by rintro w ⟨⟩; (repeat rw [top_append _ _ (by decide)]); rfl
theorem Sys2Proof.Laws.Encoding.vdequant (x0 x1 x2 x3) : Encoding.Statement (.vdequant x0 x1 x2 x3) := by rintro w ⟨⟩; (repeat rw [top_append _ _ (by decide)]); rfl
theorem Sys2Proof.Laws.Encoding.vaddS (x0 x1 x2 x3) : Encoding.Statement (.vaddS x0 x1 x2 x3) := by rintro w ⟨⟩; (repeat rw [top_append _ _ (by decide)]); rfl
theorem Sys2Proof.Laws.Encoding.vsubS (x0 x1 x2 x3) : Encoding.Statement (.vsubS x0 x1 x2 x3) := by rintro w ⟨⟩; (repeat rw [top_append _ _ (by decide)]); rfl
theorem Sys2Proof.Laws.Encoding.vmulS (x0 x1 x2 x3) : Encoding.Statement (.vmulS x0 x1 x2 x3) := by rintro w ⟨⟩; (repeat rw [top_append _ _ (by decide)]); rfl
theorem Sys2Proof.Laws.Encoding.vmulhS (x0 x1 x2 x3) : Encoding.Statement (.vmulhS x0 x1 x2 x3) := by rintro w ⟨⟩; (repeat rw [top_append _ _ (by decide)]); rfl
theorem Sys2Proof.Laws.Encoding.vfmaS (x0 x1 x2 x3) : Encoding.Statement (.vfmaS x0 x1 x2 x3) := by rintro w ⟨⟩; (repeat rw [top_append _ _ (by decide)]); rfl
theorem Sys2Proof.Laws.Encoding.vfmsS (x0 x1 x2 x3) : Encoding.Statement (.vfmsS x0 x1 x2 x3) := by rintro w ⟨⟩; (repeat rw [top_append _ _ (by decide)]); rfl
theorem Sys2Proof.Laws.Encoding.vfnmaS (x0 x1 x2 x3) : Encoding.Statement (.vfnmaS x0 x1 x2 x3) := by rintro w ⟨⟩; (repeat rw [top_append _ _ (by decide)]); rfl
theorem Sys2Proof.Laws.Encoding.vdivS (x0 x1 x2 x3) : Encoding.Statement (.vdivS x0 x1 x2 x3) := by rintro w ⟨⟩; (repeat rw [top_append _ _ (by decide)]); rfl
theorem Sys2Proof.Laws.Encoding.vminS (x0 x1 x2 x3) : Encoding.Statement (.vminS x0 x1 x2 x3) := by rintro w ⟨⟩; (repeat rw [top_append _ _ (by decide)]); rfl
theorem Sys2Proof.Laws.Encoding.vmaxS (x0 x1 x2 x3) : Encoding.Statement (.vmaxS x0 x1 x2 x3) := by rintro w ⟨⟩; (repeat rw [top_append _ _ (by decide)]); rfl
theorem Sys2Proof.Laws.Encoding.vsaddS (x0 x1 x2 x3) : Encoding.Statement (.vsaddS x0 x1 x2 x3) := by rintro w ⟨⟩; (repeat rw [top_append _ _ (by decide)]); rfl
theorem Sys2Proof.Laws.Encoding.vssubS (x0 x1 x2 x3) : Encoding.Statement (.vssubS x0 x1 x2 x3) := by rintro w ⟨⟩; (repeat rw [top_append _ _ (by decide)]); rfl
theorem Sys2Proof.Laws.Encoding.vandS (x0 x1 x2 x3) : Encoding.Statement (.vandS x0 x1 x2 x3) := by rintro w ⟨⟩; (repeat rw [top_append _ _ (by decide)]); rfl
theorem Sys2Proof.Laws.Encoding.vorS (x0 x1 x2 x3) : Encoding.Statement (.vorS x0 x1 x2 x3) := by rintro w ⟨⟩; (repeat rw [top_append _ _ (by decide)]); rfl
theorem Sys2Proof.Laws.Encoding.vxorS (x0 x1 x2 x3) : Encoding.Statement (.vxorS x0 x1 x2 x3) := by rintro w ⟨⟩; (repeat rw [top_append _ _ (by decide)]); rfl
theorem Sys2Proof.Laws.Encoding.vandnS (x0 x1 x2 x3) : Encoding.Statement (.vandnS x0 x1 x2 x3) := by rintro w ⟨⟩; (repeat rw [top_append _ _ (by decide)]); rfl
theorem Sys2Proof.Laws.Encoding.vsllS (x0 x1 x2 x3) : Encoding.Statement (.vsllS x0 x1 x2 x3) := by rintro w ⟨⟩; (repeat rw [top_append _ _ (by decide)]); rfl
theorem Sys2Proof.Laws.Encoding.vsrlS (x0 x1 x2 x3) : Encoding.Statement (.vsrlS x0 x1 x2 x3) := by rintro w ⟨⟩; (repeat rw [top_append _ _ (by decide)]); rfl
theorem Sys2Proof.Laws.Encoding.vsraS (x0 x1 x2 x3) : Encoding.Statement (.vsraS x0 x1 x2 x3) := by rintro w ⟨⟩; (repeat rw [top_append _ _ (by decide)]); rfl
theorem Sys2Proof.Laws.Encoding.vceqS (x0 x1 x2 x3) : Encoding.Statement (.vceqS x0 x1 x2 x3) := by rintro w ⟨⟩; (repeat rw [top_append _ _ (by decide)]); rfl
theorem Sys2Proof.Laws.Encoding.vcneS (x0 x1 x2 x3) : Encoding.Statement (.vcneS x0 x1 x2 x3) := by rintro w ⟨⟩; (repeat rw [top_append _ _ (by decide)]); rfl
theorem Sys2Proof.Laws.Encoding.vcltS (x0 x1 x2 x3) : Encoding.Statement (.vcltS x0 x1 x2 x3) := by rintro w ⟨⟩; (repeat rw [top_append _ _ (by decide)]); rfl
theorem Sys2Proof.Laws.Encoding.vcleS (x0 x1 x2 x3) : Encoding.Statement (.vcleS x0 x1 x2 x3) := by rintro w ⟨⟩; (repeat rw [top_append _ _ (by decide)]); rfl
theorem Sys2Proof.Laws.Encoding.vaddI (x0 x1 x2 x3) : Encoding.Statement (.vaddI x0 x1 x2 x3) := by rintro w ⟨⟩; (repeat rw [top_append _ _ (by decide)]); rfl
theorem Sys2Proof.Laws.Encoding.vsubI (x0 x1 x2 x3) : Encoding.Statement (.vsubI x0 x1 x2 x3) := by rintro w ⟨⟩; (repeat rw [top_append _ _ (by decide)]); rfl
theorem Sys2Proof.Laws.Encoding.vmulI (x0 x1 x2 x3) : Encoding.Statement (.vmulI x0 x1 x2 x3) := by rintro w ⟨⟩; (repeat rw [top_append _ _ (by decide)]); rfl
theorem Sys2Proof.Laws.Encoding.vmulhI (x0 x1 x2 x3) : Encoding.Statement (.vmulhI x0 x1 x2 x3) := by rintro w ⟨⟩; (repeat rw [top_append _ _ (by decide)]); rfl
theorem Sys2Proof.Laws.Encoding.vminI (x0 x1 x2 x3) : Encoding.Statement (.vminI x0 x1 x2 x3) := by rintro w ⟨⟩; (repeat rw [top_append _ _ (by decide)]); rfl
theorem Sys2Proof.Laws.Encoding.vmaxI (x0 x1 x2 x3) : Encoding.Statement (.vmaxI x0 x1 x2 x3) := by rintro w ⟨⟩; (repeat rw [top_append _ _ (by decide)]); rfl
theorem Sys2Proof.Laws.Encoding.vsaddI (x0 x1 x2 x3) : Encoding.Statement (.vsaddI x0 x1 x2 x3) := by rintro w ⟨⟩; (repeat rw [top_append _ _ (by decide)]); rfl
theorem Sys2Proof.Laws.Encoding.vssubI (x0 x1 x2 x3) : Encoding.Statement (.vssubI x0 x1 x2 x3) := by rintro w ⟨⟩; (repeat rw [top_append _ _ (by decide)]); rfl
theorem Sys2Proof.Laws.Encoding.vandI (x0 x1 x2 x3) : Encoding.Statement (.vandI x0 x1 x2 x3) := by rintro w ⟨⟩; (repeat rw [top_append _ _ (by decide)]); rfl
theorem Sys2Proof.Laws.Encoding.vorI (x0 x1 x2 x3) : Encoding.Statement (.vorI x0 x1 x2 x3) := by rintro w ⟨⟩; (repeat rw [top_append _ _ (by decide)]); rfl
theorem Sys2Proof.Laws.Encoding.vxorI (x0 x1 x2 x3) : Encoding.Statement (.vxorI x0 x1 x2 x3) := by rintro w ⟨⟩; (repeat rw [top_append _ _ (by decide)]); rfl
theorem Sys2Proof.Laws.Encoding.vandnI (x0 x1 x2 x3) : Encoding.Statement (.vandnI x0 x1 x2 x3) := by rintro w ⟨⟩; (repeat rw [top_append _ _ (by decide)]); rfl
theorem Sys2Proof.Laws.Encoding.vsllI (x0 x1 x2 x3) : Encoding.Statement (.vsllI x0 x1 x2 x3) := by rintro w ⟨⟩; (repeat rw [top_append _ _ (by decide)]); rfl
theorem Sys2Proof.Laws.Encoding.vsrlI (x0 x1 x2 x3) : Encoding.Statement (.vsrlI x0 x1 x2 x3) := by rintro w ⟨⟩; (repeat rw [top_append _ _ (by decide)]); rfl
theorem Sys2Proof.Laws.Encoding.vsraI (x0 x1 x2 x3) : Encoding.Statement (.vsraI x0 x1 x2 x3) := by rintro w ⟨⟩; (repeat rw [top_append _ _ (by decide)]); rfl
theorem Sys2Proof.Laws.Encoding.vceqI (x0 x1 x2 x3) : Encoding.Statement (.vceqI x0 x1 x2 x3) := by rintro w ⟨⟩; (repeat rw [top_append _ _ (by decide)]); rfl
theorem Sys2Proof.Laws.Encoding.vcneI (x0 x1 x2 x3) : Encoding.Statement (.vcneI x0 x1 x2 x3) := by rintro w ⟨⟩; (repeat rw [top_append _ _ (by decide)]); rfl
theorem Sys2Proof.Laws.Encoding.vcltI (x0 x1 x2 x3) : Encoding.Statement (.vcltI x0 x1 x2 x3) := by rintro w ⟨⟩; (repeat rw [top_append _ _ (by decide)]); rfl
theorem Sys2Proof.Laws.Encoding.vcleI (x0 x1 x2 x3) : Encoding.Statement (.vcleI x0 x1 x2 x3) := by rintro w ⟨⟩; (repeat rw [top_append _ _ (by decide)]); rfl
theorem Sys2Proof.Laws.Encoding.mand (x0 x1 x2) : Encoding.Statement (.mand x0 x1 x2) := by rintro w ⟨⟩; (repeat rw [top_append _ _ (by decide)]); rfl
theorem Sys2Proof.Laws.Encoding.mor (x0 x1 x2) : Encoding.Statement (.mor x0 x1 x2) := by rintro w ⟨⟩; (repeat rw [top_append _ _ (by decide)]); rfl
theorem Sys2Proof.Laws.Encoding.mxor (x0 x1 x2) : Encoding.Statement (.mxor x0 x1 x2) := by rintro w ⟨⟩; (repeat rw [top_append _ _ (by decide)]); rfl
theorem Sys2Proof.Laws.Encoding.mandn (x0 x1 x2) : Encoding.Statement (.mandn x0 x1 x2) := by rintro w ⟨⟩; (repeat rw [top_append _ _ (by decide)]); rfl
theorem Sys2Proof.Laws.Encoding.morn (x0 x1 x2) : Encoding.Statement (.morn x0 x1 x2) := by rintro w ⟨⟩; (repeat rw [top_append _ _ (by decide)]); rfl
theorem Sys2Proof.Laws.Encoding.mnot (x0 x1) : Encoding.Statement (.mnot x0 x1) := by rintro w ⟨⟩; (repeat rw [top_append _ _ (by decide)]); rfl
theorem Sys2Proof.Laws.Encoding.mpopc (x0 x1 x2) : Encoding.Statement (.mpopc x0 x1 x2) := by rintro w ⟨⟩; (repeat rw [top_append _ _ (by decide)]); rfl
theorem Sys2Proof.Laws.Encoding.mfirst (x0 x1 x2) : Encoding.Statement (.mfirst x0 x1 x2) := by rintro w ⟨⟩; (repeat rw [top_append _ _ (by decide)]); rfl
theorem Sys2Proof.Laws.Encoding.mset (x0) : Encoding.Statement (.mset x0) := by rintro w ⟨⟩; (repeat rw [top_append _ _ (by decide)]); rfl
theorem Sys2Proof.Laws.Encoding.mclr (x0) : Encoding.Statement (.mclr x0) := by rintro w ⟨⟩; (repeat rw [top_append _ _ (by decide)]); rfl
theorem Sys2Proof.Laws.Encoding.vslideup (x0 x1 x2 x3) : Encoding.Statement (.vslideup x0 x1 x2 x3) := by rintro w ⟨⟩; (repeat rw [top_append _ _ (by decide)]); rfl
theorem Sys2Proof.Laws.Encoding.vslidedn (x0 x1 x2 x3) : Encoding.Statement (.vslidedn x0 x1 x2 x3) := by rintro w ⟨⟩; (repeat rw [top_append _ _ (by decide)]); rfl
theorem Sys2Proof.Laws.Encoding.vgather (x0 x1 x2 x3) : Encoding.Statement (.vgather x0 x1 x2 x3) := by rintro w ⟨⟩; (repeat rw [top_append _ _ (by decide)]); rfl
theorem Sys2Proof.Laws.Encoding.vcompress (x0 x1 x2) : Encoding.Statement (.vcompress x0 x1 x2) := by rintro w ⟨⟩; (repeat rw [top_append _ _ (by decide)]); rfl
theorem Sys2Proof.Laws.Encoding.vexpand (x0 x1 x2) : Encoding.Statement (.vexpand x0 x1 x2) := by rintro w ⟨⟩; (repeat rw [top_append _ _ (by decide)]); rfl
theorem Sys2Proof.Laws.Encoding.vbcast (x0 x1 x2) : Encoding.Statement (.vbcast x0 x1 x2) := by rintro w ⟨⟩; (repeat rw [top_append _ _ (by decide)]); rfl
theorem Sys2Proof.Laws.Encoding.vext (x0 x1 x2) : Encoding.Statement (.vext x0 x1 x2) := by rintro w ⟨⟩; (repeat rw [top_append _ _ (by decide)]); rfl
theorem Sys2Proof.Laws.Encoding.vins (x0 x1 x2) : Encoding.Statement (.vins x0 x1 x2) := by rintro w ⟨⟩; (repeat rw [top_append _ _ (by decide)]); rfl
theorem Sys2Proof.Laws.Encoding.vredsum (x0 x1 x2 x3) : Encoding.Statement (.vredsum x0 x1 x2 x3) := by rintro w ⟨⟩; (repeat rw [top_append _ _ (by decide)]); rfl
theorem Sys2Proof.Laws.Encoding.vredsumo (x0 x1 x2 x3) : Encoding.Statement (.vredsumo x0 x1 x2 x3) := by rintro w ⟨⟩; (repeat rw [top_append _ _ (by decide)]); rfl
theorem Sys2Proof.Laws.Encoding.vredmin (x0 x1 x2 x3) : Encoding.Statement (.vredmin x0 x1 x2 x3) := by rintro w ⟨⟩; (repeat rw [top_append _ _ (by decide)]); rfl
theorem Sys2Proof.Laws.Encoding.vredmax (x0 x1 x2 x3) : Encoding.Statement (.vredmax x0 x1 x2 x3) := by rintro w ⟨⟩; (repeat rw [top_append _ _ (by decide)]); rfl
theorem Sys2Proof.Laws.Encoding.vsetl (x0 x1 x2) : Encoding.Statement (.vsetl x0 x1 x2) := by rintro w ⟨⟩; (repeat rw [top_append _ _ (by decide)]); rfl
theorem Sys2Proof.Laws.Encoding.vtag (x0 x1 x2 x3) : Encoding.Statement (.vtag x0 x1 x2 x3) := by rintro w ⟨⟩; (repeat rw [top_append _ _ (by decide)]); rfl
theorem Sys2Proof.Laws.Encoding.vld (x0 x1 x2) : Encoding.Statement (.vld x0 x1 x2) := by rintro w ⟨⟩; (repeat rw [top_append _ _ (by decide)]); rfl
theorem Sys2Proof.Laws.Encoding.vlds (x0 x1 x2 x3) : Encoding.Statement (.vlds x0 x1 x2 x3) := by rintro w ⟨⟩; (repeat rw [top_append _ _ (by decide)]); rfl
theorem Sys2Proof.Laws.Encoding.vldx (x0 x1 x2 x3) : Encoding.Statement (.vldx x0 x1 x2 x3) := by rintro w ⟨⟩; (repeat rw [top_append _ _ (by decide)]); rfl
theorem Sys2Proof.Laws.Encoding.vldFf (x0 x1 x2) : Encoding.Statement (.vldFf x0 x1 x2) := by rintro w ⟨⟩; (repeat rw [top_append _ _ (by decide)]); rfl
theorem Sys2Proof.Laws.Encoding.vldt (x0 x1 x2) : Encoding.Statement (.vldt x0 x1 x2) := by rintro w ⟨⟩; (repeat rw [top_append _ _ (by decide)]); rfl
theorem Sys2Proof.Laws.Encoding.vst (x0 x1 x2) : Encoding.Statement (.vst x0 x1 x2) := by rintro w ⟨⟩; (repeat rw [top_append _ _ (by decide)]); rfl
theorem Sys2Proof.Laws.Encoding.vsts (x0 x1 x2 x3) : Encoding.Statement (.vsts x0 x1 x2 x3) := by rintro w ⟨⟩; (repeat rw [top_append _ _ (by decide)]); rfl
theorem Sys2Proof.Laws.Encoding.vstx (x0 x1 x2 x3) : Encoding.Statement (.vstx x0 x1 x2 x3) := by rintro w ⟨⟩; (repeat rw [top_append _ _ (by decide)]); rfl
theorem Sys2Proof.Laws.Encoding.vstt (x0 x1 x2) : Encoding.Statement (.vstt x0 x1 x2) := by rintro w ⟨⟩; (repeat rw [top_append _ _ (by decide)]); rfl
theorem Sys2Proof.Laws.Encoding.vmmAdd (x0 x1 x2 x3) : Encoding.Statement (.vmmAdd x0 x1 x2 x3) := by rintro w ⟨⟩; (repeat rw [top_append _ _ (by decide)]); rfl
theorem Sys2Proof.Laws.Encoding.vmmSub (x0 x1 x2 x3) : Encoding.Statement (.vmmSub x0 x1 x2 x3) := by rintro w ⟨⟩; (repeat rw [top_append _ _ (by decide)]); rfl
theorem Sys2Proof.Laws.Encoding.vmmMul (x0 x1 x2 x3) : Encoding.Statement (.vmmMul x0 x1 x2 x3) := by rintro w ⟨⟩; (repeat rw [top_append _ _ (by decide)]); rfl
theorem Sys2Proof.Laws.Encoding.vmmMin (x0 x1 x2 x3) : Encoding.Statement (.vmmMin x0 x1 x2 x3) := by rintro w ⟨⟩; (repeat rw [top_append _ _ (by decide)]); rfl
theorem Sys2Proof.Laws.Encoding.vmmMax (x0 x1 x2 x3) : Encoding.Statement (.vmmMax x0 x1 x2 x3) := by rintro w ⟨⟩; (repeat rw [top_append _ _ (by decide)]); rfl
theorem Sys2Proof.Laws.Encoding.vmmAnd (x0 x1 x2 x3) : Encoding.Statement (.vmmAnd x0 x1 x2 x3) := by rintro w ⟨⟩; (repeat rw [top_append _ _ (by decide)]); rfl
theorem Sys2Proof.Laws.Encoding.vmmOr (x0 x1 x2 x3) : Encoding.Statement (.vmmOr x0 x1 x2 x3) := by rintro w ⟨⟩; (repeat rw [top_append _ _ (by decide)]); rfl
theorem Sys2Proof.Laws.Encoding.vmmXor (x0 x1 x2 x3) : Encoding.Statement (.vmmXor x0 x1 x2 x3) := by rintro w ⟨⟩; (repeat rw [top_append _ _ (by decide)]); rfl
theorem Sys2Proof.Laws.Encoding.vmmCpy (x0 x1 x2) : Encoding.Statement (.vmmCpy x0 x1 x2) := by rintro w ⟨⟩; (repeat rw [top_append _ _ (by decide)]); rfl
theorem Sys2Proof.Laws.Encoding.vfba (x0) : Encoding.Statement (.vfba x0) := by rintro w ⟨⟩; (repeat rw [top_append _ _ (by decide)]); rfl
theorem Sys2Proof.Laws.Encoding.mcfg (x0 x1 x2 x3 x4) : Encoding.Statement (.mcfg x0 x1 x2 x3 x4) := by rintro w ⟨⟩; (repeat rw [top_append _ _ (by decide)]); rfl
theorem Sys2Proof.Laws.Encoding.mma (x0 x1 x2 x3) : Encoding.Statement (.mma x0 x1 x2 x3) := by rintro w ⟨⟩; (repeat rw [top_append _ _ (by decide)]); rfl
theorem Sys2Proof.Laws.Encoding.mmaX (x0 x1 x2 x3 x4) : Encoding.Statement (.mmaX x0 x1 x2 x3 x4) := by rintro w ⟨⟩; (repeat rw [top_append _ _ (by decide)]); rfl
theorem Sys2Proof.Laws.Encoding.mmaG (x0 x1 x2 x3 x4) : Encoding.Statement (.mmaG x0 x1 x2 x3 x4) := by rintro w ⟨⟩; (repeat rw [top_append _ _ (by decide)]); rfl
theorem Sys2Proof.Laws.Encoding.mmaS24 (x0 x1 x2 x3 x4) : Encoding.Statement (.mmaS24 x0 x1 x2 x3 x4) := by rintro w ⟨⟩; (repeat rw [top_append _ _ (by decide)]); rfl
theorem Sys2Proof.Laws.Encoding.mmaBm (x0 x1 x2 x3 x4) : Encoding.Statement (.mmaBm x0 x1 x2 x3 x4) := by rintro w ⟨⟩; (repeat rw [top_append _ _ (by decide)]); rfl
theorem Sys2Proof.Laws.Encoding.mzero (x0) : Encoding.Statement (.mzero x0) := by rintro w ⟨⟩; (repeat rw [top_append _ _ (by decide)]); rfl
theorem Sys2Proof.Laws.Encoding.mrsum (x0 x1 x2 x3) : Encoding.Statement (.mrsum x0 x1 x2 x3) := by rintro w ⟨⟩; (repeat rw [top_append _ _ (by decide)]); rfl
theorem Sys2Proof.Laws.Encoding.mld (x0 x1 x2) : Encoding.Statement (.mld x0 x1 x2) := by rintro w ⟨⟩; (repeat rw [top_append _ _ (by decide)]); rfl
theorem Sys2Proof.Laws.Encoding.mst (x0 x1 x2) : Encoding.Statement (.mst x0 x1 x2) := by rintro w ⟨⟩; (repeat rw [top_append _ _ (by decide)]); rfl
theorem Sys2Proof.Laws.Encoding.mstSm (x0 x1 x2) : Encoding.Statement (.mstSm x0 x1 x2) := by rintro w ⟨⟩; (repeat rw [top_append _ _ (by decide)]); rfl
theorem Sys2Proof.Laws.Encoding.mdrain (x0 x1 x2 x3 x4) : Encoding.Statement (.mdrain x0 x1 x2 x3 x4) := by rintro w ⟨⟩; (repeat rw [top_append _ _ (by decide)]); rfl
theorem Sys2Proof.Laws.Encoding.xcopy (x0 x1 x2) : Encoding.Statement (.xcopy x0 x1 x2) := by rintro w ⟨⟩; (repeat rw [top_append _ _ (by decide)]); rfl
theorem Sys2Proof.Laws.Encoding.xcopyQ (x0 x1) : Encoding.Statement (.xcopyQ x0 x1) := by rintro w ⟨⟩; (repeat rw [top_append _ _ (by decide)]); rfl
theorem Sys2Proof.Laws.Encoding.xabort (x0) : Encoding.Statement (.xabort x0) := by rintro w ⟨⟩; (repeat rw [top_append _ _ (by decide)]); rfl
theorem Sys2Proof.Laws.Encoding.xqry (x0 x1) : Encoding.Statement (.xqry x0 x1) := by rintro w ⟨⟩; (repeat rw [top_append _ _ (by decide)]); rfl
theorem Sys2Proof.Laws.Encoding.xwaitW (x0 x1) : Encoding.Statement (.xwaitW x0 x1) := by rintro w ⟨⟩; (repeat rw [top_append _ _ (by decide)]); rfl
theorem Sys2Proof.Laws.Encoding.xwaitE : Encoding.Statement .xwaitE := by rintro w ⟨⟩; rfl
theorem Sys2Proof.Laws.Encoding.xev (x0) : Encoding.Statement (.xev x0) := by rintro w ⟨⟩; (repeat rw [top_append _ _ (by decide)]); rfl
theorem Sys2Proof.Laws.Encoding.fcfgLd (x0 x1) : Encoding.Statement (.fcfgLd x0 x1) := by rintro w ⟨⟩; (repeat rw [top_append _ _ (by decide)]); rfl
theorem Sys2Proof.Laws.Encoding.fcfgSw (x0 x1) : Encoding.Statement (.fcfgSw x0 x1) := by rintro w ⟨⟩; (repeat rw [top_append _ _ (by decide)]); rfl
theorem Sys2Proof.Laws.Encoding.fstart : Encoding.Statement .fstart := by rintro w ⟨⟩; rfl
theorem Sys2Proof.Laws.Encoding.fstop : Encoding.Statement .fstop := by rintro w ⟨⟩; rfl
theorem Sys2Proof.Laws.Encoding.fsave (x0) : Encoding.Statement (.fsave x0) := by rintro w ⟨⟩; (repeat rw [top_append _ _ (by decide)]); rfl
theorem Sys2Proof.Laws.Encoding.frest (x0) : Encoding.Statement (.frest x0) := by rintro w ⟨⟩; (repeat rw [top_append _ _ (by decide)]); rfl
theorem Sys2Proof.Laws.Encoding.fmark (x0) : Encoding.Statement (.fmark x0) := by rintro w ⟨⟩; (repeat rw [top_append _ _ (by decide)]); rfl
theorem Sys2Proof.Laws.Encoding.fstat (x0 x1) : Encoding.Statement (.fstat x0 x1) := by rintro w ⟨⟩; (repeat rw [top_append _ _ (by decide)]); rfl
theorem Sys2Proof.Laws.Encoding.fportW (x0 x1) : Encoding.Statement (.fportW x0 x1) := by rintro w ⟨⟩; (repeat rw [top_append _ _ (by decide)]); rfl
theorem Sys2Proof.Laws.Encoding.fportWEos (x0 x1) : Encoding.Statement (.fportWEos x0 x1) := by rintro w ⟨⟩; (repeat rw [top_append _ _ (by decide)]); rfl
theorem Sys2Proof.Laws.Encoding.fportR (x0 x1) : Encoding.Statement (.fportR x0 x1) := by rintro w ⟨⟩; (repeat rw [top_append _ _ (by decide)]); rfl
theorem Sys2Proof.Laws.Encoding.fportRStatus (x0 x1) : Encoding.Statement (.fportRStatus x0 x1) := by rintro w ⟨⟩; (repeat rw [top_append _ _ (by decide)]); rfl
theorem Sys2Proof.Laws.Encoding.sopen (x0 x1) : Encoding.Statement (.sopen x0 x1) := by rintro w ⟨⟩; (repeat rw [top_append _ _ (by decide)]); rfl
theorem Sys2Proof.Laws.Encoding.sclose (x0) : Encoding.Statement (.sclose x0) := by rintro w ⟨⟩; (repeat rw [top_append _ _ (by decide)]); rfl
theorem Sys2Proof.Laws.Encoding.sadv (x0 x1) : Encoding.Statement (.sadv x0 x1) := by rintro w ⟨⟩; (repeat rw [top_append _ _ (by decide)]); rfl
theorem Sys2Proof.Laws.Encoding.spos (x0 x1) : Encoding.Statement (.spos x0 x1) := by rintro w ⟨⟩; (repeat rw [top_append _ _ (by decide)]); rfl
theorem Sys2Proof.Laws.Encoding.chbind (x0 x1) : Encoding.Statement (.chbind x0 x1) := by rintro w ⟨⟩; (repeat rw [top_append _ _ (by decide)]); rfl
theorem Sys2Proof.Laws.Encoding.chsend (x0 x1 x2) : Encoding.Statement (.chsend x0 x1 x2) := by rintro w ⟨⟩; (repeat rw [top_append _ _ (by decide)]); rfl
theorem Sys2Proof.Laws.Encoding.chrecv (x0 x1 x2) : Encoding.Statement (.chrecv x0 x1 x2) := by rintro w ⟨⟩; (repeat rw [top_append _ _ (by decide)]); rfl
theorem Sys2Proof.Laws.Encoding.chpoll (x0 x1) : Encoding.Statement (.chpoll x0 x1) := by rintro w ⟨⟩; (repeat rw [top_append _ _ (by decide)]); rfl
theorem Sys2Proof.Laws.Encoding.chseq (x0 x1) : Encoding.Statement (.chseq x0 x1) := by rintro w ⟨⟩; (repeat rw [top_append _ _ (by decide)]); rfl
theorem Sys2Proof.Laws.Encoding.drgtSet (x0 x1) : Encoding.Statement (.drgtSet x0 x1) := by rintro w ⟨⟩; (repeat rw [top_append _ _ (by decide)]); rfl
theorem Sys2Proof.Laws.Encoding.drgtRd (x0 x1 x2) : Encoding.Statement (.drgtRd x0 x1 x2) := by rintro w ⟨⟩; (repeat rw [top_append _ _ (by decide)]); rfl
theorem Sys2Proof.Laws.Encoding.drgtFreeze (x0) : Encoding.Statement (.drgtFreeze x0) := by rintro w ⟨⟩; (repeat rw [top_append _ _ (by decide)]); rfl
theorem Sys2Proof.Laws.Encoding.drgtThaw (x0) : Encoding.Statement (.drgtThaw x0) := by rintro w ⟨⟩; (repeat rw [top_append _ _ (by decide)]); rfl
theorem Sys2Proof.Laws.Encoding.launch (x0 x1) : Encoding.Statement (.launch x0 x1) := by rintro w ⟨⟩; (repeat rw [top_append _ _ (by decide)]); rfl
theorem Sys2Proof.Laws.Encoding.trig : Encoding.Statement .trig := by rintro w ⟨⟩; rfl
theorem Sys2Proof.Laws.Encoding.exit (x0) : Encoding.Statement (.exit x0) := by rintro w ⟨⟩; (repeat rw [top_append _ _ (by decide)]); rfl
theorem Sys2Proof.Laws.Encoding.waitCh (x0 x1) : Encoding.Statement (.waitCh x0 x1) := by rintro w ⟨⟩; (repeat rw [top_append _ _ (by decide)]); rfl
theorem Sys2Proof.Laws.Encoding.waitCtr (x0 x1 x2) : Encoding.Statement (.waitCtr x0 x1 x2) := by rintro w ⟨⟩; (repeat rw [top_append _ _ (by decide)]); rfl
theorem Sys2Proof.Laws.Encoding.yield : Encoding.Statement .yield := by rintro w ⟨⟩; rfl
theorem Sys2Proof.Laws.Encoding.rtake (x0 x1) : Encoding.Statement (.rtake x0 x1) := by rintro w ⟨⟩; (repeat rw [top_append _ _ (by decide)]); rfl
theorem Sys2Proof.Laws.Encoding.ctrRd (x0 x1) : Encoding.Statement (.ctrRd x0 x1) := by rintro w ⟨⟩; (repeat rw [top_append _ _ (by decide)]); rfl
theorem Sys2Proof.Laws.Encoding.ctrAdd (x0 x1) : Encoding.Statement (.ctrAdd x0 x1) := by rintro w ⟨⟩; (repeat rw [top_append _ _ (by decide)]); rfl
theorem Sys2Proof.Laws.Encoding.cancel (x0) : Encoding.Statement (.cancel x0) := by rintro w ⟨⟩; (repeat rw [top_append _ _ (by decide)]); rfl
theorem Sys2Proof.Laws.Encoding.gsqArm (x0 x1) : Encoding.Statement (.gsqArm x0 x1) := by rintro w ⟨⟩; (repeat rw [top_append _ _ (by decide)]); rfl
theorem Sys2Proof.Laws.Encoding.spalloc (x0 x1) : Encoding.Statement (.spalloc x0 x1) := by rintro w ⟨⟩; (repeat rw [top_append _ _ (by decide)]); rfl
theorem Sys2Proof.Laws.Encoding.spfree (x0 x1) : Encoding.Statement (.spfree x0 x1) := by rintro w ⟨⟩; (repeat rw [top_append _ _ (by decide)]); rfl
theorem Sys2Proof.Laws.Encoding.opreq (x0 x1) : Encoding.Statement (.opreq x0 x1) := by rintro w ⟨⟩; (repeat rw [top_append _ _ (by decide)]); rfl
theorem Sys2Proof.Laws.Encoding.opcap (x0 x1) : Encoding.Statement (.opcap x0 x1) := by rintro w ⟨⟩; (repeat rw [top_append _ _ (by decide)]); rfl
theorem Sys2Proof.Laws.Encoding.takeTrap (x0 x1) : Encoding.Statement (.takeTrap x0 x1) := by rintro w ⟨⟩
theorem Sys2Proof.Laws.Encoding.fetchFault (x0 x1) : Encoding.Statement (.fetchFault x0 x1) := by rintro w ⟨⟩
theorem Sys2Proof.Laws.Encoding.engineTrap (x0) : Encoding.Statement (.engineTrap x0) := by rintro w ⟨⟩
theorem Sys2Proof.Laws.Encoding.vectorEntryPerform (x0) : Encoding.Statement (.vectorEntryPerform x0) := by rintro w ⟨⟩
theorem Sys2Proof.Laws.Encoding.matrixEntryStart (x0) : Encoding.Statement (.matrixEntryStart x0) := by rintro w ⟨⟩
theorem Sys2Proof.Laws.Encoding.matrixEntryComplete (x0 x1) : Encoding.Statement (.matrixEntryComplete x0 x1) := by rintro w ⟨⟩
theorem Sys2Proof.Laws.Encoding.engineEntryRetire (x0) : Encoding.Statement (.engineEntryRetire x0) := by rintro w ⟨⟩
theorem Sys2Proof.Laws.Encoding.mwaitTimeout (x0 x1) : Encoding.Statement (.mwaitTimeout x0 x1) := by rintro w ⟨⟩
theorem Sys2Proof.Laws.Encoding.strandAgePromotion (x0 x1) : Encoding.Statement (.strandAgePromotion x0 x1) := by rintro w ⟨⟩
theorem Sys2Proof.Laws.Encoding.copyAccept (x0) : Encoding.Statement (.copyAccept x0) := by rintro w ⟨⟩
theorem Sys2Proof.Laws.Encoding.copyLineWrite (x0 x1) : Encoding.Statement (.copyLineWrite x0 x1) := by rintro w ⟨⟩
theorem Sys2Proof.Laws.Encoding.copyComplete (x0 x1) : Encoding.Statement (.copyComplete x0 x1) := by rintro w ⟨⟩
theorem Sys2Proof.Laws.Encoding.copyPageFault (x0 x1) : Encoding.Statement (.copyPageFault x0 x1) := by rintro w ⟨⟩
theorem Sys2Proof.Laws.Encoding.eventPostDeferred (x0 x1) : Encoding.Statement (.eventPostDeferred x0 x1) := by rintro w ⟨⟩
theorem Sys2Proof.Laws.Encoding.teamStart (x0 x1 x2) : Encoding.Statement (.teamStart x0 x1 x2) := by rintro w ⟨⟩
theorem Sys2Proof.Laws.Encoding.helperEnd (x0 x1) : Encoding.Statement (.helperEnd x0 x1) := by rintro w ⟨⟩
theorem Sys2Proof.Laws.Encoding.teamExit (x0) : Encoding.Statement (.teamExit x0) := by rintro w ⟨⟩
theorem Sys2Proof.Laws.Encoding.cancelDelivery (x0 x1) : Encoding.Statement (.cancelDelivery x0 x1) := by rintro w ⟨⟩
theorem Sys2Proof.Laws.Encoding.supervisorRestart (x0) : Encoding.Statement (.supervisorRestart x0) := by rintro w ⟨⟩
theorem Sys2Proof.Laws.Encoding.noticePostRetry (x0) : Encoding.Statement (.noticePostRetry x0) := by rintro w ⟨⟩
theorem Sys2Proof.Laws.Encoding.fabricAdd (x0 x1) : Encoding.Statement (.fabricAdd x0 x1) := by rintro w ⟨⟩
theorem Sys2Proof.Laws.Encoding.fabricSub (x0 x1) : Encoding.Statement (.fabricSub x0 x1) := by rintro w ⟨⟩
theorem Sys2Proof.Laws.Encoding.fabricMul (x0 x1) : Encoding.Statement (.fabricMul x0 x1) := by rintro w ⟨⟩
theorem Sys2Proof.Laws.Encoding.fabricFma (x0 x1) : Encoding.Statement (.fabricFma x0 x1) := by rintro w ⟨⟩
theorem Sys2Proof.Laws.Encoding.fabricMin (x0 x1) : Encoding.Statement (.fabricMin x0 x1) := by rintro w ⟨⟩
theorem Sys2Proof.Laws.Encoding.fabricMax (x0 x1) : Encoding.Statement (.fabricMax x0 x1) := by rintro w ⟨⟩
theorem Sys2Proof.Laws.Encoding.fabricAnd (x0 x1) : Encoding.Statement (.fabricAnd x0 x1) := by rintro w ⟨⟩
theorem Sys2Proof.Laws.Encoding.fabricOr (x0 x1) : Encoding.Statement (.fabricOr x0 x1) := by rintro w ⟨⟩
theorem Sys2Proof.Laws.Encoding.fabricXor (x0 x1) : Encoding.Statement (.fabricXor x0 x1) := by rintro w ⟨⟩
theorem Sys2Proof.Laws.Encoding.fabricShl (x0 x1) : Encoding.Statement (.fabricShl x0 x1) := by rintro w ⟨⟩
theorem Sys2Proof.Laws.Encoding.fabricShr (x0 x1) : Encoding.Statement (.fabricShr x0 x1) := by rintro w ⟨⟩
theorem Sys2Proof.Laws.Encoding.fabricCmp (x0 x1) : Encoding.Statement (.fabricCmp x0 x1) := by rintro w ⟨⟩
theorem Sys2Proof.Laws.Encoding.fabricSel (x0 x1) : Encoding.Statement (.fabricSel x0 x1) := by rintro w ⟨⟩
theorem Sys2Proof.Laws.Encoding.fabricCvt (x0 x1) : Encoding.Statement (.fabricCvt x0 x1) := by rintro w ⟨⟩
theorem Sys2Proof.Laws.Encoding.fabricUnpk (x0 x1) : Encoding.Statement (.fabricUnpk x0 x1) := by rintro w ⟨⟩
theorem Sys2Proof.Laws.Encoding.fabricPack (x0 x1) : Encoding.Statement (.fabricPack x0 x1) := by rintro w ⟨⟩
theorem Sys2Proof.Laws.Encoding.fabricAgen (x0 x1) : Encoding.Statement (.fabricAgen x0 x1) := by rintro w ⟨⟩
theorem Sys2Proof.Laws.Encoding.fabricLdn (x0 x1) : Encoding.Statement (.fabricLdn x0 x1) := by rintro w ⟨⟩
theorem Sys2Proof.Laws.Encoding.fabricStn (x0 x1) : Encoding.Statement (.fabricStn x0 x1) := by rintro w ⟨⟩
theorem Sys2Proof.Laws.Encoding.fabricAmon (x0 x1) : Encoding.Statement (.fabricAmon x0 x1) := by rintro w ⟨⟩
theorem Sys2Proof.Laws.Encoding.fabricGate (x0 x1) : Encoding.Statement (.fabricGate x0 x1) := by rintro w ⟨⟩
theorem Sys2Proof.Laws.Encoding.fabricSteer (x0 x1) : Encoding.Statement (.fabricSteer x0 x1) := by rintro w ⟨⟩
theorem Sys2Proof.Laws.Encoding.fabricMerge (x0 x1) : Encoding.Statement (.fabricMerge x0 x1) := by rintro w ⟨⟩
theorem Sys2Proof.Laws.Encoding.fabricIsect (x0 x1) : Encoding.Statement (.fabricIsect x0 x1) := by rintro w ⟨⟩
theorem Sys2Proof.Laws.Encoding.fabricCarry (x0 x1) : Encoding.Statement (.fabricCarry x0 x1) := by rintro w ⟨⟩
theorem Sys2Proof.Laws.Encoding.fabricInv (x0 x1) : Encoding.Statement (.fabricInv x0 x1) := by rintro w ⟨⟩
theorem Sys2Proof.Laws.Encoding.fabricCtr (x0 x1) : Encoding.Statement (.fabricCtr x0 x1) := by rintro w ⟨⟩
theorem Sys2Proof.Laws.Encoding.fabricRtake (x0 x1) : Encoding.Statement (.fabricRtake x0 x1) := by rintro w ⟨⟩
theorem Sys2Proof.Laws.Encoding.fabricXreq (x0 x1) : Encoding.Statement (.fabricXreq x0 x1) := by rintro w ⟨⟩
theorem Sys2Proof.Laws.Encoding.fabricVin (x0 x1) : Encoding.Statement (.fabricVin x0 x1) := by rintro w ⟨⟩
theorem Sys2Proof.Laws.Encoding.fabricVout (x0 x1) : Encoding.Statement (.fabricVout x0 x1) := by rintro w ⟨⟩
theorem Sys2Proof.Laws.Encoding.fabricConst (x0 x1) : Encoding.Statement (.fabricConst x0 x1) := by rintro w ⟨⟩
theorem Sys2Proof.Laws.Encoding.fabricDrop (x0 x1) : Encoding.Statement (.fabricDrop x0 x1) := by rintro w ⟨⟩
theorem Sys2Proof.Laws.Encoding.fabricDup (x0 x1) : Encoding.Statement (.fabricDup x0 x1) := by rintro w ⟨⟩
theorem Sys2Proof.Laws.Encoding.fabricAcc (x0 x1) : Encoding.Statement (.fabricAcc x0 x1) := by rintro w ⟨⟩
theorem Sys2Proof.Laws.Encoding.fabricTagchk (x0 x1) : Encoding.Statement (.fabricTagchk x0 x1) := by rintro w ⟨⟩
theorem Sys2Proof.Laws.Encoding.fabricPositionSwitch (x0 x1) : Encoding.Statement (.fabricPositionSwitch x0 x1) := by rintro w ⟨⟩
theorem Sys2Proof.Laws.Encoding.lateFiring (x0 x1) : Encoding.Statement (.lateFiring x0 x1) := by rintro w ⟨⟩
theorem Sys2Proof.Laws.Encoding.resolutionWatchWrite (x0) : Encoding.Statement (.resolutionWatchWrite x0) := by rintro w ⟨⟩
theorem Sys2Proof.Laws.Encoding.streamElementArrival (x0 x1) : Encoding.Statement (.streamElementArrival x0 x1) := by rintro w ⟨⟩
theorem Sys2Proof.Laws.Encoding.draughtSample (x0 x1) : Encoding.Statement (.draughtSample x0 x1) := by rintro w ⟨⟩
theorem Sys2Proof.Laws.Encoding.rateMessageArrival (x0 x1 x2) : Encoding.Statement (.rateMessageArrival x0 x1 x2) := by rintro w ⟨⟩
theorem Sys2Proof.Laws.Encoding.reservationRegistration (x0 x1) : Encoding.Statement (.reservationRegistration x0 x1) := by rintro w ⟨⟩
theorem Sys2Proof.Laws.Encoding.reservationPageRegister (x0 x1 x2) : Encoding.Statement (.reservationPageRegister x0 x1 x2) := by rintro w ⟨⟩
theorem Sys2Proof.Laws.Encoding.lineRequest (x0 x1 x2) : Encoding.Statement (.lineRequest x0 x1 x2) := by rintro w ⟨⟩
theorem Sys2Proof.Laws.Encoding.probeShared (x0 x1) : Encoding.Statement (.probeShared x0 x1) := by rintro w ⟨⟩
theorem Sys2Proof.Laws.Encoding.probeInvalidate (x0 x1) : Encoding.Statement (.probeInvalidate x0 x1) := by rintro w ⟨⟩
theorem Sys2Proof.Laws.Encoding.lineEviction (x0 x1) : Encoding.Statement (.lineEviction x0 x1) := by rintro w ⟨⟩
theorem Sys2Proof.Laws.Encoding.tileCacheRetention (x0) : Encoding.Statement (.tileCacheRetention x0) := by rintro w ⟨⟩
theorem Sys2Proof.Laws.Encoding.splitProbe (x0) : Encoding.Statement (.splitProbe x0) := by rintro w ⟨⟩
theorem Sys2Proof.Laws.Encoding.splitAnswer (x0) : Encoding.Statement (.splitAnswer x0) := by rintro w ⟨⟩
theorem Sys2Proof.Laws.Encoding.positionReport (x0) : Encoding.Statement (.positionReport x0) := by rintro w ⟨⟩
theorem Sys2Proof.Laws.Encoding.reservationRelease (x0) : Encoding.Statement (.reservationRelease x0) := by rintro w ⟨⟩
theorem Sys2Proof.Laws.Encoding.forwardedAcquire (x0 x1) : Encoding.Statement (.forwardedAcquire x0 x1) := by rintro w ⟨⟩
theorem Sys2Proof.Laws.Encoding.backInvalidateSnoop (x0) : Encoding.Statement (.backInvalidateSnoop x0) := by rintro w ⟨⟩
theorem Sys2Proof.Laws.Encoding.externalRead (x0 x1) : Encoding.Statement (.externalRead x0 x1) := by rintro w ⟨⟩
theorem Sys2Proof.Laws.Encoding.externalWrite (x0 x1 x2) : Encoding.Statement (.externalWrite x0 x1 x2) := by rintro w ⟨⟩
theorem Sys2Proof.Laws.Encoding.migrationArm (x0) : Encoding.Statement (.migrationArm x0) := by rintro w ⟨⟩
theorem Sys2Proof.Laws.Encoding.migrationStart (x0) : Encoding.Statement (.migrationStart x0) := by rintro w ⟨⟩
theorem Sys2Proof.Laws.Encoding.migrationLineCopy (x0) : Encoding.Statement (.migrationLineCopy x0) := by rintro w ⟨⟩
theorem Sys2Proof.Laws.Encoding.poolWordObserved (x0 x1) : Encoding.Statement (.poolWordObserved x0 x1) := by rintro w ⟨⟩
theorem Sys2Proof.Laws.Encoding.partPreempt (x0) : Encoding.Statement (.partPreempt x0) := by rintro w ⟨⟩
theorem Sys2Proof.Laws.Encoding.tileHalt (x0) : Encoding.Statement (.tileHalt x0) := by rintro w ⟨⟩
theorem Sys2Proof.Laws.Encoding.contextSwapOut (x0) : Encoding.Statement (.contextSwapOut x0) := by rintro w ⟨⟩
theorem Sys2Proof.Laws.Encoding.contextMove (x0) : Encoding.Statement (.contextMove x0) := by rintro w ⟨⟩
theorem Sys2Proof.Laws.Encoding.stripeEviction (x0 x1 x2) : Encoding.Statement (.stripeEviction x0 x1 x2) := by rintro w ⟨⟩
theorem Sys2Proof.Laws.Encoding.partResume (x0) : Encoding.Statement (.partResume x0) := by rintro w ⟨⟩
theorem Sys2Proof.Laws.Encoding.contextRestore (x0) : Encoding.Statement (.contextRestore x0) := by rintro w ⟨⟩
theorem Sys2Proof.Laws.Encoding.stripeRefill (x0 x1 x2) : Encoding.Statement (.stripeRefill x0 x1 x2) := by rintro w ⟨⟩
theorem Sys2Proof.Laws.Encoding.markerNoticeArrival (x0 x1) : Encoding.Statement (.markerNoticeArrival x0 x1) := by rintro w ⟨⟩
theorem Sys2Proof.Laws.Encoding.snapshot (x0) : Encoding.Statement (.snapshot x0) := by rintro w ⟨⟩
theorem Sys2Proof.Laws.Encoding.errorConsumed (x0 x1 x2 x3) : Encoding.Statement (.errorConsumed x0 x1 x2 x3) := by rintro w ⟨⟩
theorem Sys2Proof.Laws.Encoding.rollback (x0) : Encoding.Statement (.rollback x0) := by rintro w ⟨⟩
theorem Sys2Proof.Laws.Encoding.permitAudit (x0) : Encoding.Statement (.permitAudit x0) := by rintro w ⟨⟩
theorem Sys2Proof.Laws.Encoding.flitCrcRetry (x0 x1) : Encoding.Statement (.flitCrcRetry x0 x1) := by rintro w ⟨⟩
theorem Sys2Proof.Laws.Encoding.ucieLaneRepair (x0 x1) : Encoding.Statement (.ucieLaneRepair x0 x1) := by rintro w ⟨⟩
theorem Sys2Proof.Laws.Encoding.patrolScrub (x0 x1) : Encoding.Statement (.patrolScrub x0 x1) := by rintro w ⟨⟩
theorem Sys2Proof.Laws.Encoding.tileFence (x0) : Encoding.Statement (.tileFence x0) := by rintro w ⟨⟩
theorem Sys2Proof.Laws.Encoding.allocatorAck (x0) : Encoding.Statement (.allocatorAck x0) := by rintro w ⟨⟩
theorem Sys2Proof.Laws.Encoding.stripeMove (x0) : Encoding.Statement (.stripeMove x0) := by rintro w ⟨⟩
theorem Sys2Proof.Laws.Encoding.cacheWayDisable (x0) : Encoding.Statement (.cacheWayDisable x0) := by rintro w ⟨⟩
theorem Sys2Proof.Laws.Encoding.clockChange : Encoding.Statement .clockChange := by rintro w ⟨⟩
theorem Sys2Proof.Laws.Encoding.voltageRamp : Encoding.Statement .voltageRamp := by rintro w ⟨⟩
theorem Sys2Proof.Laws.Encoding.opStepComplete : Encoding.Statement .opStepComplete := by rintro w ⟨⟩
theorem Sys2Proof.Laws.Encoding.charMapRefresh (x0 x1 x2 x3 x4) : Encoding.Statement (.charMapRefresh x0 x1 x2 x3 x4) := by rintro w ⟨⟩
theorem Sys2Proof.Laws.Encoding.deviceReset : Encoding.Statement .deviceReset := by rintro w ⟨⟩
theorem Sys2Proof.Laws.Encoding.partSetup (x0) : Encoding.Statement (.partSetup x0) := by rintro w ⟨⟩
theorem Sys2Proof.Laws.Encoding.partReset (x0) : Encoding.Statement (.partReset x0) := by rintro w ⟨⟩
theorem Sys2Proof.Laws.Encoding.partFree (x0) : Encoding.Statement (.partFree x0) := by rintro w ⟨⟩
theorem Sys2Proof.Laws.Encoding.lend (x0 x1 x2) : Encoding.Statement (.lend x0 x1 x2) := by rintro w ⟨⟩
theorem Sys2Proof.Laws.Encoding.revoke (x0 x1) : Encoding.Statement (.revoke x0 x1) := by rintro w ⟨⟩
theorem Sys2Proof.Laws.Encoding.revocationNotice (x0 x1) : Encoding.Statement (.revocationNotice x0 x1) := by rintro w ⟨⟩
theorem Sys2Proof.Laws.Encoding.revocationAck (x0) : Encoding.Statement (.revocationAck x0) := by rintro w ⟨⟩
theorem Sys2Proof.Laws.Encoding.revokeTimeout (x0) : Encoding.Statement (.revokeTimeout x0) := by rintro w ⟨⟩
theorem Sys2Proof.Laws.Encoding.errlog (x0 x1 x2) : Encoding.Statement (.errlog x0 x1 x2) := by rintro w ⟨⟩
theorem Sys2Proof.Laws.Encoding.charmap (x0) : Encoding.Statement (.charmap x0) := by rintro w ⟨⟩
theorem Sys2Proof.Laws.Encoding.measure : Encoding.Statement .measure := by rintro w ⟨⟩
theorem Sys2Proof.Laws.Encoding.attest (x0) : Encoding.Statement (.attest x0) := by rintro w ⟨⟩
theorem Sys2Proof.Laws.Encoding.fwStage (x0) : Encoding.Statement (.fwStage x0) := by rintro w ⟨⟩
theorem Sys2Proof.Laws.Encoding.devConfig (x0 x1 x2) : Encoding.Statement (.devConfig x0 x1 x2) := by rintro w ⟨⟩
theorem Sys2Proof.Laws.Encoding.hbmChannelFailure (x0) : Encoding.Statement (.hbmChannelFailure x0) := by rintro w ⟨⟩
theorem Sys2Proof.Laws.Encoding.cxlCompletionTimeout (x0 x1) : Encoding.Statement (.cxlCompletionTimeout x0 x1) := by rintro w ⟨⟩
theorem Sys2Proof.Laws.Encoding.linkTraining (x0 x1 x2) : Encoding.Statement (.linkTraining x0 x1 x2) := by rintro w ⟨⟩
end

