-- ==== Sys2Proof/Laws/Walk.lean ====
section
/-! SUPPORT. What a walk of the translation tables finds. -/

namespace Sys2Proof.Laws

open Sys2Proof.Machine

/-- What a walk of `n + 1` levels finds: a leaf of this level, or what the walk from the next node finds. -/
theorem walkFrom_cases {s : State} {p va n node : Nat} {l : Leaf} (h : walkFrom s p va (n + 1) node = .ok l) :
    l.bits = 16 ∨ l.bits = 12 + 9 * n ∨ ∃ x, walkFrom s p va n x = .ok l := by
  rw [walkFrom] at h
  split at h
  · exact nomatch h
  dsimp only at h
  generalize migRoute s p (node + 8 * fieldOf va (12 + 9 * n) 9) = entry at h
  generalize leNat (cellsGet s.mem entry 8) = pte at h
  split at h
  · exact nomatch h
  split at h
  · exact nomatch h
  split at h
  · exact nomatch h
  split at h
  · exact nomatch h
  split at h
  · exact .inr (.inr ⟨_, h⟩)
  split at h
  · exact nomatch h
  generalize hb : (if fieldOf pte 10 1 = 1 then 16 else 12 + 9 * n) = b at h
  split at h
  · exact nomatch h
  split at h
  · exact nomatch h
  cases h
  rw [← hb]; dsimp only
  split <;> simp

theorem walkFrom_bits {s : State} {p va : Nat} : ∀ n node l, walkFrom s p va n node = .ok l → l.bits ≤ max 16 (3 + 9 * n) := by
  intro n
  induction n with
  | zero => intro node l h; exact nomatch h
  | succ n ih =>
    intro node l h
    obtain h | h | ⟨x, h⟩ := walkFrom_cases h
    · omega
    · omega
    · have := ih x l h; omega

/-- Two addresses that agree in a level's index walk alike through it. -/
theorem walkFrom_next {s : State} {p va va' n node : Nat} {l : Leaf} (f : fieldOf va (12 + 9 * n) 9 = fieldOf va' (12 + 9 * n) 9)
    (hr : ∀ x, walkFrom s p va' n x = .ok l → walkFrom s p va n x = .ok l) (h : walkFrom s p va' (n + 1) node = .ok l) :
    walkFrom s p va (n + 1) node = .ok l := by
  rw [walkFrom] at h ⊢
  rw [f]
  split at h
  · exact nomatch h
  rename_i c1
  rw [if_neg c1]
  dsimp only at h ⊢
  generalize migRoute s p (node + 8 * fieldOf va' (12 + 9 * n) 9) = entry at h ⊢
  generalize leNat (cellsGet s.mem entry 8) = pte at h ⊢
  split at h
  · exact nomatch h
  rename_i c2
  rw [if_neg c2]
  split at h
  · exact nomatch h
  rename_i c3
  rw [if_neg c3]
  split at h
  · exact nomatch h
  rename_i c c4
  split at h
  · exact nomatch h
  rename_i c5
  rw [if_neg c5]
  split at h
  · rename_i c6
    rw [if_pos c6]
    exact hr _ h
  rename_i c6
  rw [if_neg c6]
  exact h

/-- A leaf of a GiB or more serves every address below 1 GiB. -/
theorem probe_low {s : State} {p va : Nat} {acc : Access} {l : Leaf} (hv : va < 2 ^ 30) (e : probe s p 0 acc = .ok l) (hl : 30 ≤ l.bits) :
    probe s p va acc = .ok l := by
  have low : ∀ node l', 30 ≤ l'.bits → walkFrom s p 0 4 node = .ok l' → walkFrom s p va 4 node = .ok l' := fun node l' hl h =>
    walkFrom_next (n := 3) (by simp only [fieldOf]; omega) (fun x h => walkFrom_next (n := 2) (by simp only [fieldOf]; omega)
      (fun y h => by have := walkFrom_bits 2 y l' h; omega) h) h
  have hb : ∀ l', (match lacks l'.pte acc with
    | some sub => (.error { cause := cPROT, sub := sub, entry := l'.addr } : Except WalkFault Leaf) | none => .ok l') = .ok l → l' = l := by
    intro l' h
    split at h
    · exact nomatch h
    · exact Except.ok.inj h
  unfold probe walk at e ⊢
  rw [if_neg (by decide)] at e
  rw [if_neg (by omega)]
  split at e
  · exact nomatch e
  rename_i l' h
  have hl' := hb l' e
  subst hl'
  split at h
  · exact nomatch h
  rename_i hr
  rw [if_neg hr, low _ _ hl h]
  exact e

end Sys2Proof.Laws
end

