-- ==== Sys2Proof/Tests/Machines.lean ====
section
/-! SUPPORT. Small states that the tests run on. -/

namespace Sys2Proof.Tests

open Sys2Proof.Machine Sys2Proof.Spec

/-- A strand at 0x10000 with a handler at 0x20000 and these registers. -/
def strand (regs : SMap Word) : Strand := { regs := regs, pc := 0x10000, state := .runnable, tvec := 0x20000 }

/-- A device whose tile 0 is as given, with the partition that `withFetchWord` sets up. -/
def device (x : Tile) : State :=
  { tiles := [(0, { x with part := some 0 })], parts := [(0, placePartition)], mem := placeTables [] }

/-- The team that tile 0 runs. -/
def team0 : Team := { cid := 0, ns := 1, prio := 0, index := 0, cs := false }

/-- A helper strand in slot 1 of tile 0. -/
def helper (regs : SMap Word) : State :=
  { device { team := some team0, ctx := { strands := [(1, strand regs)] } } with cs := 1 }

/-- The lead strand of tile 0, its tile's context else as given, with stripes 0 and 1 held. -/
def lead (regs : SMap Word) (c : Ctx) : State :=
  device { team := some team0, regions := [{ base := 0, stripes := 2, owner := .launch 0, footprint := true }]
           ctx := { c with strands := [(0, strand regs)] } }

/-- The supervisor strand of partition 0, in slot 7 of tile 0. -/
def supervisor (regs : SMap Word) : State :=
  { device { ctx := { strands := [(7, strand regs)] } } with cs := 7, parts := [(0, { placePartition with sup := some 0 })] }

/-- What an engine instruction needs to issue, as one test. -/
theorem engineReady {s : State} {op : EngOp}
    (h : (s.isLead && s.curTile.queue.isEmpty && !s.lag && engineLegal s.reg s.curTile.ctx.av op && !maskHeld s.curTile.ctx op) = true) :
    EngineReady s op := by
  simp only [Bool.and_eq_true, Bool.not_eq_true', List.isEmpty_iff] at h
  exact ⟨h.1.1.1.1, h.1.1.1.2, h.1.1.2, h.1.2, h.2⟩

/-- An operation that ends well with a result that passes a test. -/
theorem endsWell {α : Type} {m : M α} {s : State} (f : α → State → Bool)
    (h : (match m s with | .ok a t => f a t | .error _ _ => false) = true) : ∃ a t, m s = .ok a t ∧ f a t = true := by
  cases e : m s with
  | ok a t => rw [e] at h; exact ⟨a, t, rfl, h⟩
  | error x t => rw [e] at h; cases h

/-- An operation that traps with a trap that passes a test. -/
theorem traps {α : Type} {m : M α} {s : State} (f : Trap → Bool)
    (h : (match m s with | .error (.trap tr) _ => f tr | _ => false) = true) : ∃ tr t, m s = .error (.trap tr) t ∧ f tr = true := by
  cases e : m s with
  | ok a t => rw [e] at h; cases h
  | error x t => cases x with
    | trap tr => rw [e] at h; exact ⟨tr, t, rfl, h⟩
    | wait w => rw [e] at h; cases h

end Sys2Proof.Tests
end

