-- ==== Sys2Proof/Tests/Scalar.lean ====
section
/-! SUPPORT. Witnesses: for each statement about encoding, scalar instructions and the strand's registers, states and operands that meet its
hypotheses, clause by clause. -/

set_option Elab.async false

open Sys2Proof Sys2Proof.Machine Sys2Proof.Spec

namespace Sys2Proof.Tests

theorem witness_DecodeEncode : ∃ i w, Instr.wellFormed i = true ∧ encode i = some w := ⟨.mdrain 7 0 31 31 0x19, _, rfl, rfl⟩

/-- The state in which the next step fetches `add s3, s4, s5`. -/
def placed : State := State.reset.withFetchWord 32 0x04642800

theorem witness_StepRunsDecoded :
    placed.agenda = .issue 0 false :: [] ∧ issueOrder (issuing placed 0 false []) 0 = [0] ∧ (placed.tile 0).still = false ∧
    ((issuing placed 0 false []).strandOf 0 0).state = .runnable ∧ ((issuing placed 0 false []).strandOf 0 0).traps = [] ∧ ((issuing placed 0 false []).strandOf 0 0).cancels = [] ∧
    (∃ w s1, fetchWord 0 0 (charge 0 0 (issuing placed 0 false [])) = .ok w s1 ∧ (w == 0x04642800 && !namesPending s1 w) = true) ∧
    decode 0x04642800 = .ok (.add 3 4 5) ∧ Instr.wellFormed (.add 3 4 5) = true :=
  ⟨rfl, by decide +kernel, by decide +kernel, by decide +kernel, by decide +kernel, by decide +kernel,
    endsWell (fun w s1 => w == 0x04642800 && !namesPending s1 w) (by decide +kernel), rfl, rfl⟩

/-- The same with `exit`, while the tile's queue holds an entry: it waits before its issue. -/
def placedExit : State :=
  let s := State.reset.withFetchWord 32 0x90010002
  s.setTile 0 { s.tile 0 with queue := [{ op := .mzero 0, pc := 0x1000, regs := [], view := {} }] }

theorem witness_StepRunsDecoded_waits :
    placedExit.agenda = .issue 0 false :: [] ∧ issueOrder (issuing placedExit 0 false []) 0 = [0] ∧
    ((issuing placedExit 0 false []).strandOf 0 0).state = .runnable ∧
    ∃ w s1, fetchWord 0 0 (charge 0 0 (issuing placedExit 0 false [])) = .ok w s1 ∧
      (match decode w with
       | .ok i => match exec i s1 with | .next t => beforeIssue t 0 0 == some .operations | _ => false
       | .error _ => false) = true :=
  ⟨rfl, by decide +kernel, by decide +kernel, endsWell (fun w s1 => match decode w with
       | .ok i => match exec i s1 with | .next t => beforeIssue t 0 0 == some .operations | _ => false
       | .error _ => false) (by decide +kernel)⟩

/-- A reserved major, a reserved function, a nonzero field marked 0 in a scalar and in a lead-only major, and `fence` with scope 5; on the
lead and on a helper. -/
theorem witness_DecodeTraps :
    (lead [] {}).enginesBusy = false ∧ (helper []).enginesBusy = false ∧ (lead [] {}).isLead = true ∧ (helper []).isLead = false ∧
    decodeWord 0x98000000 = .error .majorReserved ∧ decodeWord 0x0400001E = .error .functionReserved ∧
    decodeWord 0x04000819 = .error .fieldReserved ∧ decodeWord 0x40880820 = .error .fieldReserved ∧
    decode 0x00002804 = .ok (.fence 5) ∧ Instr.wellFormed (.fence 5) = false := ⟨rfl, rfl, rfl, rfl, rfl, rfl, rfl, rfl, rfl, rfl⟩

theorem witness_ScalarArithmetic :
    (∃ d a b v, binaryResult 7 9 (.mulhsu 0 1 2) = some (d, a, b, v)) ∧ (∃ d a v, countResult 0 (.clz 31 1) = some (d, a, v)) ∧
    ∃ d a v, immediateResult 5 (.srai 1 2 63) = some (d, a, v) := ⟨⟨_, _, _, _, rfl⟩, ⟨_, _, _, rfl⟩, ⟨_, _, _, rfl⟩⟩

/-- Division by zero and the overflow. -/
theorem witness_Division : (∃ d a b v, divisionResult 7 0 (.rem 3 1 2) = some (d, a, b, v)) ∧
    ∃ d a b v, divisionResult 0x8000000000000000 (-1) (.div 3 1 2) = some (d, a, b, v) := ⟨⟨_, _, _, _, rfl⟩, ⟨_, _, _, _, rfl⟩⟩

/-- Taken backwards, and not taken. -/
theorem witness_Branches : (∃ a b off, branchTaken 5 5 (.beq 1 2 0x1FFD) = some (a, b, off, true)) ∧
    ∃ a b off, branchTaken 5 5 (.blt 1 2 0x1000) = some (a, b, off, false) := ⟨⟨1, 2, 0x1FFD, by decide⟩, ⟨1, 2, 0x1000, by decide⟩⟩

/-- An aligned target, and one that is two bytes off. -/
theorem witness_Jumps :
    ((helper [(1, 0x20000)]).reg 1 + BitVec.ofInt 64 (0xFFFC : BitVec 16).toInt).toNat % 4 = 0 ∧
    ((helper [(1, 0x20000)]).reg 1 + BitVec.ofInt 64 (2 : BitVec 16).toInt).toNat % 4 ≠ 0 ∧
    (helper [(1, 0x20000)]).enginesBusy = false ∧ HandlerReady (helper [(1, 0x20000)]) := by
  refine ⟨by decide +kernel, by decide +kernel, rfl, rfl, by decide +kernel⟩

/-! ### Accesses -/

/-- The leaf that maps the first GiB. -/
def leaf0 : Leaf := { pte := 0x26F, addr := 0x2000, bits := 30 }

theorem probeIs {s : State} {va : Nat} {acc : Access}
    (h : (match probe s s.curPart va acc with | .ok l => decide (l = leaf0) | .error _ => false) = true) :
    probe s s.curPart va acc = .ok leaf0 := by
  cases e : probe s s.curPart va acc with
  | ok l => rw [e] at h; exact congrArg _ (of_decide_eq_true h)
  | error f => rw [e] at h; cases h

theorem probeFails {s : State} {va : Nat} {acc : Access}
    (h : (match probe s s.curPart va acc with | .ok _ => false | .error _ => true) = true) : ∃ f, probe s s.curPart va acc = .error f := by
  cases e : probe s s.curPart va acc with
  | ok l => rw [e] at h; cases h
  | error f => exact ⟨f, rfl⟩

/-- A leaf of the first GiB maps an address to itself. -/
theorem leaf0_address (s : State) (p va : Nat) (h : va < 2 ^ 30) : leafAddress s p leaf0 va = va := by
  have h0 : fieldOf leaf0.pte 12 44 = 0 := by decide
  have h1 : leaf0.bits = 30 := rfl
  unfold leafAddress
  dsimp only
  rw [if_neg (by decide), h0, h1]
  omega

/-- The words of an area below 1 GiB, read through the leaf of the first GiB. -/
theorem reads_low {s : State} {ea : Word} {n : Nat} {w : Nat → Nat} (hp : probe s (s.curTile.part.getD 0) 0 .read = .ok leaf0)
    (ha : ea.toNat % 64 = 0) (hb : ea.toNat + 8 * n ≤ 2 ^ 30) (hr : s.resv = []) (h : ∀ i < n, number (cellGet s.mem) (ea.toNat + 8 * i) 8 = w i) :
    ReadsWords s ea n w :=
  ⟨ha, by omega, hr, fun i => ea.toNat + 8 * i, fun i hi =>
    ⟨⟨leaf0, Laws.probe_low (by omega) hp (by decide), by decide, leaf0_address _ _ _ (by omega)⟩, h i hi⟩⟩

/-- An access below 1 GiB goes through on a device without reservations. -/
theorem mapped {s : State} {ea : Word} {n : Nat} {acc : Access} (h1 : s.resv = []) (h2 : s.curTile.queue = []) (h3 : fld ea 48 16 = 0)
    (h4 : ea.toNat % n = 0) (h5 : probe s s.curPart ea.toNat acc = .ok leaf0) : MemoryAccess s ea n acc leaf0 where
  canonical := h3
  aligned := h4
  leaf := h5
  unjoined := fun e he => by rw [h2] at he; cases he
  uncached := fun h => by simp [Leaf.ns, leaf0, fieldOf] at h
  free := fun e he => by rw [h1] at he; cases he

/-- The last doubleword below 1 GiB. -/
theorem witness_LoadFromMemory : ∃ i s d ea n sgn l, Instr.wellFormed i = true ∧ loadForm s i = some (d, ea, n, sgn) ∧ MemoryAccess s ea n .read l :=
  ⟨.ldD 3 1 0x1FF8, helper [(1, 0x40000000)], 3, 0x3FFFFFF8, 8, false, leaf0, rfl, by decide +kernel,
    mapped rfl rfl (by decide +kernel) (by decide +kernel) (probeIs (by decide +kernel))⟩

theorem canonical_device (x : Tile) (h : Memory.wf x.spd = true) : Canonical (device x) := by
  have hm : Memory.wf (placeTables []) = true := by decide +kernel
  refine ⟨hm, fun t => ?_⟩
  simp only [device, State.tile, sget]
  split
  · exact h
  · rfl

theorem canonical_helper (r : SMap Word) : Canonical (helper r) := canonical_device _ rfl
theorem canonical_lead (r : SMap Word) (c : Ctx) : Canonical (lead r c) := canonical_device _ rfl

theorem witness_StoreToMemory : ∃ i s ea n v l, Instr.wellFormed i = true ∧ Canonical s ∧ storeForm s i = some (ea, n, v) ∧ s.enginesBusy = false ∧
    MemoryAccess s ea n .write l :=
  ⟨.stB 2 1 0, helper [(1, 0x3FFFFFFF), (2, 0xFF)], 0x3FFFFFFF, 1, 0xFF, leaf0, rfl, canonical_helper _, by decide +kernel, rfl,
    mapped rfl rfl (by decide +kernel) (by decide +kernel) (probeIs (by decide +kernel))⟩

theorem witness_AtomicOnMemory : ∃ i s d ea n z f l, Instr.wellFormed i = true ∧ Canonical s ∧ amoForm s i = some (d, ea, n, z, f) ∧
    s.enginesBusy = false ∧ MemoryAccess s ea n .atomic l :=
  ⟨.amoCas 3 1 2 3 4 3, helper [(1, 0x3000), (2, 5)], 3, 0x3000, 8, false, _, leaf0, rfl, canonical_helper _, rfl, rfl,
    mapped rfl rfl (by decide +kernel) (by decide +kernel) (probeIs (by decide +kernel))⟩

/-- Bytes of stripes 0 and 1 are held by the team of `lead`. -/
theorem padAccess {s : State} {ea : Word} {n off : Nat} (h1 : ea.toNat % n = 0) (h2 : classify ea = some (.spd false 0 off))
    (h3 : spdInRange s s.ct s.cs false 0 off n = true) (h4 : s.curTile.queue = [])
    (h5 : ∀ i < n, wmByte s s.ct (off + i) = .free) (h6 : (s.tile s.ct).evicted = []) : ScratchpadAccess s ea n s.ct off where
  aligned := h1
  address := ⟨false, 0, h2, rfl, h3⟩
  unjoined := fun e he => by rw [h4] at he; cases he
  written := h5
  present := fun i _ => by rw [h6]; simp

/-- The last doubleword of stripe 1. -/
theorem witness_ScratchpadAccesses : ∃ s, Canonical s ∧ s.enginesBusy = false ∧ ScratchpadAccess s 0xFE00000000000FF8 8 0 0xFF8 ∧
    loadForm s (.ldD 3 1 0) = some (3, 0xFE00000000000FF8, 8, false) ∧ storeForm s (.stD 2 1 0) = some (0xFE00000000000FF8, 8, 5) ∧
    ∃ f, amoForm s (.amoAdd 3 1 2 0 0 3) = some (3, 0xFE00000000000FF8, 8, false, f) :=
  ⟨lead [(1, 0xFE00000000000FF8), (2, 5)] {}, canonical_lead _ _, rfl,
    padAccess (by decide +kernel) (by decide +kernel) (by decide +kernel) rfl (by decide +kernel) rfl, by decide +kernel, by decide +kernel, _, rfl⟩

/-- The leaf is marked already. -/
theorem marked (s : State) (ag : Agent) (acc : Access) : markLeaf s ag leaf0 acc = s := by
  have h : leaf0.pte ||| 0x20 = leaf0.pte ∧ leaf0.pte ||| 0x60 = leaf0.pte := by decide
  simp only [markLeaf]
  split <;> simp [h.1, h.2]

/-- A helper beside an unretired load in state `st` that pins the last doubleword of stripe 1. -/
def pinned (st : EntryState) : State :=
  { device { team := some team0, regions := [{ base := 0, stripes := 2, owner := .launch 0, footprint := true }]
             queue := [{ op := .load .unit 8 2 0, pc := 0x10000, regs := [], view := {}, state := st, pins := [(0, [(0xFF8, 0x1000)])] }]
             ctx := { strands := [(1, strand [(1, 0xFE00000000000FF8), (2, 5)])] } } with cs := 1 }

theorem pinnedAccess (st : EntryState) (h1 : spdInRange (pinned st) 0 1 false 0 0xFF8 8 = true)
    (h2 : ∀ i < 8, wmByte (pinned st) 0 (0xFF8 + i) = .free) : ScratchpadAccess (pinned st) 0xFE00000000000FF8 8 0 0xFF8 := by
  refine ⟨by decide +kernel, ⟨false, 0, by decide +kernel, rfl, h1⟩, fun e he _ m hm => ?_, h2, fun i _ => by simp [pinned, device, State.tile, sget]⟩
  simp [pinned, device, State.curTile, State.tile, sget] at he
  subst he; cases hm

/-- A load that has been performed, and one that stands stalled at a watermark. -/
theorem witness_ScratchpadAccesses_pins :
    (∀ st, Canonical (pinned st) ∧ (pinned st).enginesBusy = false ∧
      storeForm (pinned st) (.stD 2 1 0) = some (0xFE00000000000FF8, 8, 5)) ∧
    ScratchpadAccess (pinned .performed) 0xFE00000000000FF8 8 0 0xFF8 ∧ ScratchpadAccess (pinned (.stalled .watermark)) 0xFE00000000000FF8 8 0 0xFF8 ∧
    (pinners (pinned .performed) 0 0xFF8 8 = [0] ∧ ∃ e, ((pinned .performed).tile 0).queue.head? = some e ∧
      (e.yieldsPins (pinned .performed) && e.pinsAny 0 0xFF8 8) = false) ∧
    (pinners (pinned (.stalled .watermark)) 0 0xFF8 8 = [0] ∧ ∃ e, ((pinned (.stalled .watermark)).tile 0).queue.head? = some e ∧
      e.yieldsPins (pinned (.stalled .watermark)) = true ∧ e.pinsAny 0 0xFF8 8 = true ∧ e.slot = 0) ∧
    pinners (lead [(1, 0xFE00000000000FF8), (2, 5)] {}) 0 0xFF8 8 = [] :=
  ⟨fun _ => ⟨canonical_device _ rfl, rfl, rfl⟩, pinnedAccess _ (by decide +kernel) (by decide +kernel),
    pinnedAccess _ (by decide +kernel) (by decide +kernel), ⟨by decide +kernel, _, rfl, by decide +kernel⟩, ⟨by decide +kernel, _, rfl, by decide +kernel, by decide +kernel, rfl⟩, by decide +kernel⟩

/-- A lead beside a failed copy of the last doubleword of stripe 1. -/
def failedRange : State := lead [(1, 0xFE00000000000FF8)] { xchans := [(0, { state := .failed, rb := 0xFF8, re := 0x1000, wm := 0xFF9 })] }

/-- Tile 0 holds the translation of the first GiB. -/
def State.walked (s : State) : State :=
  s.setTile 0 { s.tile 0 with xlat := [{ part := 0, base := 0, bits := 30, walked := [0x20, 0x40] }] }

/-- A helper's device on which tile 1 has reserved line 0x60 for writing, under the trap policy. -/
def reserved : State :=
  { State.walked (helper [(1, 0x3000)]) with
    resv := [{ rid := 1, owner := 1, st := 0, part := 0, slice := 2, lo := 0x3000, hi := 0x3080, vlo := 0x3000, down := false, write := true
               pol := 3, state := .granted, cut := 0x3000 }] }

/-- Of a load, a store and an atomic: the first address of no class, a byte off, a byte past stripe 1, the second byte of a failed copy, the
first byte of the second GiB, and a line of another tile's reservation. -/
theorem witness_AccessFaults :
    (∃ s ea, accessForm s (.ldH 3 1 0) = some (ea, 2, .read) ∧ s.enginesBusy = false ∧ classify ea = none) ∧
    (∃ s ea, accessForm s (.stH 3 1 0) = some (ea, 2, .write) ∧ s.enginesBusy = false ∧ classify ea ≠ none ∧ ea.toNat % 2 ≠ 0) ∧
    (∃ s ea, accessForm s (.amoAdd 3 1 2 0 0 3) = some (ea, 8, .atomic) ∧ s.enginesBusy = false ∧ classify ea = some (.spd false 0 0x1000) ∧
      ea.toNat % 8 = 0 ∧ spdInRange s s.ct s.cs false 0 0x1000 8 = false) ∧
    (∃ s ea, accessForm s (.stD 3 1 0) = some (ea, 8, .write) ∧ s.enginesBusy = false ∧ classify ea = some (.spd false 0 0xFF8) ∧ ea.toNat % 8 = 0 ∧
      spdInRange s s.ct s.cs false 0 0xFF8 8 = true ∧ wmByte s (spdTile s.ct false 0) (0xFF8 + 1) = .failed ∧
      ∀ j < 1, wmByte s (spdTile s.ct false 0) (0xFF8 + j) ≠ .failed) ∧
    (∃ s ea, accessForm s (.stH 3 1 0) = some (ea, 2, .write) ∧ s.enginesBusy = false ∧ classify ea = some (.virt 0x40000000) ∧ ea.toNat % 2 = 0 ∧
      ∃ f, probe s s.curPart 0x40000000 .write = .error f) ∧
    ∃ s ea e, accessForm s (.amoAdd 3 1 2 0 0 3) = some (ea, 8, .atomic) ∧ s.enginesBusy = false ∧ classify ea = some (.virt 0x3000) ∧ ea.toNat % 8 = 0 ∧
      probe s s.curPart 0x3000 .atomic = .ok leaf0 ∧ markLeaf s s.agent leaf0 .atomic = s ∧ keepXlat s.ct s.curPart 0x3000 leaf0 none s = s ∧
      leafAddress s s.curPart leaf0 0x3000 / 128 = 0x60 ∧ s.releasesAt 0x3000 256 = [] ∧ e ∈ s.resv ∧ e.covers 0x60 = true ∧
      (∀ o ∈ s.resv, o.covers 0x60 = true → o = e) ∧ e.pol = 3 ∧ e.owner ≠ s.ct ∧ e.write = true :=
  ⟨⟨lead [(1, 0x1000000000000)] {}, 0x1000000000000, by decide +kernel, rfl, by decide +kernel⟩,
   ⟨lead [(1, 0x3FFFFFFF)] {}, 0x3FFFFFFF, by decide +kernel, rfl, by decide +kernel, by decide +kernel⟩,
   ⟨lead [(1, 0xFE00000000001000)] {}, 0xFE00000000001000, rfl, rfl, by decide +kernel, by decide +kernel, by decide +kernel⟩,
   ⟨failedRange, 0xFE00000000000FF8, by decide +kernel, rfl, by decide +kernel, by decide +kernel, by decide +kernel, by decide +kernel, by decide +kernel⟩,
   ⟨lead [(1, 0x40000000)] {}, 0x40000000, by decide +kernel, rfl, by decide +kernel, by decide +kernel, probeFails (by decide +kernel)⟩,
   ⟨reserved, 0x3000, _, rfl, rfl, by decide +kernel, by decide +kernel, probeIs (by decide +kernel), marked _ _ _, rfl, by decide +kernel, rfl,
    List.mem_singleton_self _, by decide +kernel, fun o ho _ => List.mem_singleton.mp ho, rfl, by decide, rfl⟩⟩

/-! ### Control and status registers and traps -/

theorem witness_CsrAccess :
    (∃ s m u s', csrForm s (.csrrw 3 1 0x044) = some (3, 0x044, some u) ∧ csrMark 0x044 = some m ∧ s.enginesBusy = false ∧
      (m.lead = true → s.isLead = true) ∧ (m.sup = true → s.isSupervisor s.ct s.cs = true) ∧ m.ro = false ∧
      csrWrite s 0x044 (u (BitVec.ofNat 64 (csrRead s 0x044))).toNat = some s') ∧
    (∃ s m, csrForm s (.csrrs 3 0 0x0D5) = some (3, 0x0D5, none) ∧ csrMark 0x0D5 = some m ∧ s.enginesBusy = false ∧
      (m.lead = true → s.isLead = true) ∧ (m.sup = true → s.isSupervisor s.ct s.cs = true)) :=
  ⟨⟨lead [(1, 0x30000)] {}, _, _, _, rfl, rfl, rfl, by decide, by decide, rfl, rfl⟩,
   ⟨supervisor [], _, rfl, rfl, rfl, by decide, fun _ => by decide +kernel⟩⟩

/-- `vl`, the partition's number, and a weight of the loop that `drsel` names. -/
theorem witness_CsrAccess_holds : csrHolds (lead [] {}) 0x010 = some 0 ∧ csrHolds (supervisor []) 0x0C2 = some 0 ∧
    csrHolds (lead [] { loops := [(0, { bound := true, wp := 7 })] }) 0x105 = some 7 := ⟨rfl, by decide +kernel, by decide +kernel⟩

/-- An unassigned number, a read-only register written, a lead-only one read by a helper, a supervisor one by the lead, and a reserved RM. -/
theorem witness_CsrFaults :
    (lead [] {}).enginesBusy = false ∧ (helper []).enginesBusy = false ∧ csrMark 0xFFF = none ∧
    (∃ m u, csrForm (lead [] {}) (.csrrwi 0 1 0x010) = some (0, 0x010, some u) ∧ csrMark 0x010 = some m ∧ m.ro = true) ∧
    (∃ m, csrForm (helper []) (.csrrs 3 0 0x011) = some (3, 0x011, none) ∧ csrMark 0x011 = some m ∧ m.lead = true ∧ (helper []).isLead = false) ∧
    (∃ m, csrForm (lead [] {}) (.csrrs 3 0 0x0D0) = some (3, 0x0D0, none) ∧ csrMark 0x0D0 = some m ∧ m.lead = false ∧ m.sup = true ∧
      (lead [] {}).isSupervisor 0 0 = false) ∧
    ∃ m u, csrForm (lead [] {}) (.csrrwi 0 5 0x001) = some (0, 0x001, some u) ∧ csrMark 0x001 = some m ∧ m.ro = false ∧ m.lead = false ∧ m.sup = false ∧
      csrWrite (lead [] {}) 0x001 (u 0).toNat = none :=
  ⟨rfl, rfl, rfl, ⟨_, _, rfl, rfl, rfl⟩, ⟨_, rfl, rfl, rfl, rfl⟩, ⟨_, rfl, rfl, rfl, rfl, rfl⟩, _, _, rfl, rfl, rfl, rfl, rfl, by decide +kernel⟩

theorem witness_CsrReadBack : ∃ m s', csrMark 0x041 = some m ∧ m.ro = false ∧ csrWrite (lead [] {}) 0x041 (2 ^ 64 - 1) = some s' := ⟨_, _, rfl, rfl, rfl⟩

/-- A strand with a handler; one in its handler; one without. -/
theorem witness_TrapEntry : HandlerReady (lead [] {}) ∧ ({ strand [] with h := true } : Strand).h = true ∧ ({ strand [] with tvec := 0 } : Strand).tvec = 0 :=
  ⟨⟨rfl, by decide +kernel⟩, rfl, rfl⟩

/-- The lead strand of a partition whose notice ring stands on no page. -/
def ringless : State := { lead [] {} with parts := [(0, { placePartition with record := placeRecord ||| (0x7FFFFFFF8000 <<< 576) })] }

/-- A failed walk, whose notice can be posted, or cannot. -/
theorem witness_TrapEntry_notices : HandlerReady ringless ∧
    (postTrap (clearStart (lead [] {}) 0 0 { cause := cWALK }) 0 0 { cause := cWALK } false).2 = false ∧
    (postTrap (clearStart ringless 0 0 { cause := cWALK }) 0 0 { cause := cWALK } false).2 = true ∧
    (postTrap (clearStart ringless 0 0 { cause := cWALK }) 0 0 { cause := cWALK } true).2 = true :=
  ⟨⟨rfl, by decide +kernel⟩, by decide +kernel, by decide +kernel, by decide +kernel⟩

/-- The lead strand of tile 0 in its handler. -/
def handling : State := (lead [] {}).setCur { strand [] with h := true, tpc := 0x10008 }

theorem witness_SoftwareTraps : HandlerReady (lead [] {}) ∧ (lead [] {}).enginesBusy = false ∧ handling.cur.h = true ∧ (lead [] {}).cur.h = false :=
  ⟨⟨rfl, by decide +kernel⟩, rfl, by decide +kernel, rfl⟩

/-- A copy that is in progress in slot 0. -/
def copying : Ctx := { copies := [(0, { ident := 0, cid := 0, chan := 0, out := true, tag := 1, base := 0, exts := [4], strides := [1]
                                        spa := 0, rot := 0, lp := 64, lim := 0, mreg := 0, ev := true })] }

theorem witness_Fences :
    ((helper []).lag = false ∧ (helper []).curTile.queue = [] ∧ copiesActive (helper []).curTile.ctx = false) ∧ ((lead [] {}).lag = false ∧ (lead [] {}).curTile.queue = [] ∧ copiesActive (lead [] {}).curTile.ctx = false) ∧
    ((4 : BitVec 5).getLsbD 2 = true ∧ (lead [] copying).isLead = true ∧ (lead [] copying).lag = false ∧ (lead [] copying).curTile.queue = [] ∧
      copiesActive (lead [] copying).curTile.ctx = true) := ⟨⟨rfl, rfl, rfl⟩, ⟨rfl, rfl, rfl⟩, rfl, rfl, rfl, rfl, rfl⟩

/-- The strand watches the line of the address in s1, or another one; the line was written, or a limit is over, or a cancel waits. -/
def watching (w : BitVec 49) (z : Bool) (c : List Word) : State :=
  (State.walked (lead [(1, 0x3000), (2, 0)] {})).setCur { strand [(1, 0x3000), (2, 0)] with watch := some w, written := z, cancels := c }

/-- The address in s1 is on line 0x60 and its translation changes nothing. -/
def AtLine (s : State) : Prop :=
  NoJoin s ∧ classify (s.reg 1) = some (.virt 0x3000) ∧ probe s s.curPart 0x3000 .read = .ok leaf0 ∧ markLeaf s s.agent leaf0 .read = s ∧
  keepXlat s.ct s.curPart 0x3000 leaf0 none s = s ∧
  leafAddress s s.curPart leaf0 0x3000 / 128 = 0x60

/-- A watch on another line; a written line; a limit that is over; a cancel that waits; nothing. -/
theorem witness_MwaitStatus :
    AtLine (watching 0x61 false []) ∧ AtLine (watching 0x60 true []) ∧ AtLine (watching 0x60 false []) ∧ AtLine (watching 0x60 false [7]) ∧
    (watching 0x61 false []).cur.watch ≠ some (BitVec.ofNat 49 0x60) ∧
    ((watching 0x60 true []).cur.watch = some (BitVec.ofNat 49 0x60) ∧ (watching 0x60 true []).cur.written = true) ∧
    ((watching 0x60 false []).cur.written = false ∧ limitReached (watching 0x60 false []) (mwaitLimit (watching 0x60 false []) 2) = true) ∧
    (limitReached (watching 0x60 false [7]) (mwaitLimit (watching 0x60 false [7]) 0) = false ∧ (watching 0x60 false [7]).eventPending 0 0 = true) ∧
    (watching 0x60 false []).eventPending 0 0 = false := by
  have at' : ∀ w z c, classify ((watching w z c).reg 1) = some (.virt 0x3000) → probe (watching w z c) 0 0x3000 .read = .ok leaf0 →
      leafAddress (watching w z c) 0 leaf0 0x3000 / 128 = 0x60 → AtLine (watching w z c) := fun w z c h1 h2 h3 =>
    ⟨(fun _ e => nomatch e), h1, h2, marked _ _ _, rfl, h3⟩
  have ok : ∀ w z c, (match probe (watching w z c) 0 0x3000 .read with | .ok l => decide (l = leaf0) | .error _ => false) = true →
      probe (watching w z c) 0 0x3000 .read = .ok leaf0 := fun _ _ _ h => probeIs (s := watching _ _ _) h
  refine ⟨at' _ _ _ ?_ (ok _ _ _ ?_) ?_, at' _ _ _ ?_ (ok _ _ _ ?_) ?_, at' _ _ _ ?_ (ok _ _ _ ?_) ?_, at' _ _ _ ?_ (ok _ _ _ ?_) ?_, ?_, ⟨?_, ?_⟩,
    ⟨?_, ?_⟩, ⟨?_, ?_⟩, ?_⟩ <;> decide +kernel

end Sys2Proof.Tests
end

