-- ==== Sys2Proof/Tests/Engine.lean ====
section
/-! SUPPORT. Witnesses: for each statement about engine instructions, states and operands that meet its hypotheses, clause by clause. -/

set_option Elab.async false

open Sys2Proof Sys2Proof.Machine Sys2Proof.Spec

namespace Sys2Proof.Tests

/-- Two elements of tag n8 in force. -/
def two : View := { vl := 2 }

/-- The lead strand with `vl` 2 and these scalar registers; m1 selects element 1. -/
def engine (regs : SMap Word) : State := lead regs { av := two, m := [(1, 2)] }

theorem doneOf {s : State} {op : EngOp} (h : (match (performance s op).fin with | .done _ => true | _ => false) = true) :
    ∃ dn, (performance s op).fin = .done dn := by
  cases e : (performance s op).fin with
  | done d => exact ⟨d, rfl⟩
  | _ => rw [e] at h; cases h

/-- A load past nothing, an accumulator read, a port write: one form of each queue. -/
theorem witness_EngineForms :
    (∃ op s dn, engineOp (.vadd 4 8 12 1) = some op ∧ EngineReady s op ∧ (performance s op).fin = .done dn) ∧
    (∃ op s dn, engineOp (.mzero 7) = some op ∧ EngineReady s op ∧ (performance s op).fin = .done dn) ∧
    (∃ op s dn, engineOp (.xev 2) = some op ∧ EngineReady s op ∧ (performance s op).fin = .done dn) ∧
    ∃ op s dn, engineOp (.fportW 1 15) = some op ∧ EngineReady s op ∧ (performance s op).fin = .done dn := by
  refine ⟨⟨.arith .add 4 8 (.vec 12) 1, engine [], ?_⟩, ⟨.mzero 7, engine [], ?_⟩, ⟨.xev 2, engine [], ?_⟩, ⟨.fportW 1 15 false, engine [], ?_⟩⟩ <;>
    exact (doneOf (by decide +kernel)).imp fun _ h => ⟨rfl, engineReady (by decide +kernel), h⟩

theorem witness_VectorRegisterForms : ∃ i op s, engineOp i = some op ∧ registerOnly op = true ∧ EngineReady s op :=
  ⟨.vredmax 31 8 12 1, _, engine [], rfl, rfl, engineReady (by decide +kernel)⟩

theorem witness_VectorRegisterFrame : ∃ i op s t, engineOp i = some op ∧ registerOnly op = true ∧ EngineReady s op ∧ exec i s = .next t :=
  ⟨.mpopc 31 7 1, _, engine [], _, rfl, rfl, engineReady (by decide +kernel), rfl⟩

/-- The register form, a fused one, the scalar form, and the immediates at both ends of n8's and of simm5's range. -/
theorem witness_ArithmeticElements : ∀ q ∈ [(ArithOp.add, SrcB.vec 12), (.fma, .vec 12), (.sra, .scalar 31), (.sub, .imm 0), (.mul, .imm 15)],
    EngineReady (engine []) (.arith q.1 4 8 q.2 1) ∧ tagIsInt (tagAt (engine []) 8) = true ∧
    (q.1.isFused = true → tagAt (engine []) 4 = tagAt (engine []) 8) ∧
    (∀ e, Active (engine []) 1 e → ∃ y, SecondOperand (engine []) (tagAt (engine []) 8) q.2 e y) ∧
    arithPlan (engine []).curTile.ctx.av q.1 4 8 q.2 = some (tagAt (engine []) 8, ((engine []).curTile.ctx.av.operand 8).group) := by
  intro q hq
  simp only [List.mem_cons, List.not_mem_nil, or_false] at hq
  obtain rfl | rfl | rfl | rfl | rfl := hq <;>
    refine ⟨engineReady (by decide +kernel), by decide +kernel, by decide +kernel, fun e _ => ?_, by decide +kernel⟩
  · exact ⟨_, by decide +kernel, rfl⟩
  · exact ⟨_, by decide +kernel, rfl⟩
  · exact ⟨_, rfl⟩
  · exact ⟨_, by decide +kernel, by decide +kernel, rfl⟩
  · exact ⟨_, by decide +kernel, by decide +kernel, rfl⟩

/-- The lead strand with two elements of the tags `ts`, both selected. -/
def tagged (ts : SMap (BitVec 16)) : State := lead [] { av := { vl := 2, tags := ts } }

/-- The same of fp32: a vector and a fused form, a logical one, and an immediate. -/
theorem witness_ArithmeticElements_float : ∀ q ∈ [(ArithOp.add, SrcB.vec 12), (.fma, .vec 12), (.xor, .vec 12), (.max, .imm (-16))],
    let s := tagged [(4, 0x15), (8, 0x15), (12, 0x15)]
    EngineReady s (.arith q.1 4 8 q.2 0) ∧ tagFmt (tagAt s 8) = some .fp32 ∧ (q.1.isFused = true → tagAt s 4 = tagAt s 8) ∧
    (∀ e, Active s 0 e → ∃ y, FloatOperand s (tagAt s 8) .fp32 q.2 e y) ∧
    arithPlan s.curTile.ctx.av q.1 4 8 q.2 = some (tagAt s 8, (s.curTile.ctx.av.operand 8).group) := by
  intro q hq
  simp only [List.mem_cons, List.not_mem_nil, or_false] at hq
  obtain rfl | rfl | rfl | rfl := hq <;>
    refine ⟨engineReady (by decide +kernel), by decide +kernel, by decide +kernel, fun e _ => ?_, by decide +kernel⟩
  · exact ⟨_, by decide +kernel, rfl⟩
  · exact ⟨_, by decide +kernel, rfl⟩
  · exact ⟨_, by decide +kernel, rfl⟩
  · exact ⟨_, rfl⟩

/-- A floating compare, unary forms and special functions, conversions, and both kinds of scales. -/
theorem witness_ComparesAndConversions_float :
    (let s := tagged [(8, 0x15), (12, 0x15)]
     EngineReady s (.cmp .lt 7 8 (.vec 12) 0) ∧ cmpPlan s.curTile.ctx.av 8 (.vec 12) = some (tagAt s 8) ∧ tagFmt (tagAt s 8) = some .fp32 ∧
     ∀ e, Active s 0 e → ∃ y, FloatOperand s (tagAt s 8) .fp32 (.vec 12) e y) ∧
    (∀ op ∈ [UnaryOp.abs, .neg, .popc, .exp2, .log2, .rcp, .rsq], ∃ s, EngineReady s (.unary op 4 8 0) ∧
      (tagIsInt (tagAt s 8) = true ∨ tagFmt (tagAt s 8) = some .fp32)) ∧
    (∀ md ∈ [CvtMode.dyn, .rne, .rmm, .sr], EngineReady (tagged [(4, 0x14), (8, 0x15)]) (.cvt md 4 8 0)) ∧
    (EngineReady (tagged [(4, 0x02), (8, 0x15), (12, 0x198)]) (.quant 4 8 12 0) ∧ tagAt (tagged [(4, 0x02), (8, 0x15), (12, 0x198)]) 12 = 0x18) ∧
    (EngineReady (tagged [(4, 0x15), (8, 0x02), (12, 0x99)]) (.dequant 4 8 12 0) ∧ tagAt (tagged [(4, 0x15), (8, 0x02), (12, 0x99)]) 12 = 0x19) := by
  refine ⟨⟨engineReady (by decide +kernel), by decide +kernel, by decide +kernel, fun _ _ => ⟨_, by decide +kernel, rfl⟩⟩, fun op h => ?_, fun md h => ?_,
    ⟨engineReady (by decide +kernel), by decide +kernel⟩, engineReady (by decide +kernel), by decide +kernel⟩
  · simp only [List.mem_cons, List.not_mem_nil, or_false] at h
    obtain rfl | rfl | rfl | rfl | rfl | rfl | rfl := h
    · exact ⟨engine [], engineReady (by decide +kernel), .inl (by decide +kernel)⟩
    · exact ⟨engine [], engineReady (by decide +kernel), .inl (by decide +kernel)⟩
    · exact ⟨engine [], engineReady (by decide +kernel), .inl (by decide +kernel)⟩
    all_goals exact ⟨tagged [(4, 0x15), (8, 0x15)], engineReady (by decide +kernel), .inr (by decide +kernel)⟩
  · simp only [List.mem_cons, List.not_mem_nil, or_false] at h
    obtain rfl | rfl | rfl | rfl := h <;> exact engineReady (by decide +kernel)

theorem witness_ComparesAndConversions : EngineReady (engine []) (.cmp .le 7 8 (.vec 12) 0) ∧ tagIsInt (tagAt (engine []) 8) = true ∧
    (∀ e, Active (engine []) 0 e → ∃ y, SecondOperand (engine []) (tagAt (engine []) 8) (.vec 12) e y) ∧
    cmpPlan (engine []).curTile.ctx.av 8 (.vec 12) = some (tagAt (engine []) 8) ∧ (engine []).curTile.ctx.av.vl ≤ 8192 :=
  ⟨engineReady (by decide +kernel), by decide +kernel, fun _ _ => ⟨_, by decide +kernel, rfl⟩, by decide +kernel, by decide +kernel⟩

theorem witness_MaskAlgebra : ∀ op ∈ [EngOp.maskOp .and 7 1 0, .maskOp .or 7 1 0, .maskOp .xor 7 1 0, .maskOp .andn 7 1 0, .maskOp .orn 7 1 0,
    .maskNot 0 7, .maskSet 7, .maskClr 0, .maskPopc 31 7 1, .maskFirst 31 0 0], EngineReady (engine []) op := by
  intro op h
  simp only [List.mem_cons, List.not_mem_nil, or_false] at h
  obtain rfl | rfl | rfl | rfl | rfl | rfl | rfl | rfl | rfl | rfl := h <;> exact engineReady (by decide +kernel)

theorem witness_Permutes : (∀ op ∈ [EngOp.slideUp 4 8 1 1, .slideDown 4 8 1 0, .gather 4 8 12 1, .compress 4 8 1, .expand 4 8 7, .bcast 4 31 0,
    .extract 31 8 1, .insert 4 31 1], EngineReady (engine []) op) ∧ (7 : BitVec 3) ≠ 0 ∧ tagIsInt ((engine []).curTile.ctx.av.operand 8).tag = true := by
  refine ⟨fun op h => ?_, by decide, by decide +kernel⟩
  simp only [List.mem_cons, List.not_mem_nil, or_false] at h
  obtain rfl | rfl | rfl | rfl | rfl | rfl | rfl | rfl := h <;> exact engineReady (by decide +kernel)

theorem witness_Reductions_float : let s := tagged [(4, 0x15), (8, 0x15), (12, 0x15)]
    EngineReady s (.reduce .sum 4 8 12 0) ∧ tagAt s 12 = tagAt s 8 ∧ tagFmt (tagAt s 8) = some .fp32 :=
  ⟨engineReady (by decide +kernel), by decide +kernel, by decide +kernel⟩

theorem witness_Reductions : ∃ i op, engineOp i = some (.reduce op 4 8 12 1) ∧ EngineReady (engine []) (.reduce op 4 8 12 1) ∧
    tagIsInt (tagAt (engine []) 8) = true ∧ tagAt (engine []) 12 = tagAt (engine []) 8 ∧ (engine []).curTile.ctx.av.vl ≤ 8192 :=
  ⟨.vredsumo 4 8 12 1, .sumo, rfl, engineReady (by decide +kernel), by decide +kernel, by decide +kernel, by decide +kernel⟩

/-- `mcfg` at the full depth of the 8-bit format. -/
theorem witness_ConfigurationAndBarrier : (∀ op ∈ [EngOp.vsetl 31 1 8, .vtag 24 0x04 0 3, .mcfg 1 0 1 1 1, .mzero 7], EngineReady (engine [(1, 48)]) op) ∧
    fabricHoldsQ (engine [(1, 48)]).curTile.ctx.fabric 7 = false := by
  refine ⟨fun op h => ?_, by decide +kernel⟩
  simp only [List.mem_cons, List.not_mem_nil, or_false] at h
  obtain rfl | rfl | rfl | rfl := h <;> exact engineReady (by decide +kernel)

/-- A launch of tiles 0 and 1, in which tile 1 has still to start its team, or has no part any more. -/
def fba (pending : List Nat) : State :=
  let s := lead [] {}
  { s with parts := [(0, { placePartition with launches := [{ cid := 0, words := [0, 0, 2 * 2 ^ 10], arg := 0, pending := pending }] })] }

theorem witness_ConfigurationAndBarrier_vfba : EngineReady (fba [1]) (.vfba 1) ∧ EngineReady (fba []) (.vfba 1) ∧
    (∃ u ∈ participants (fba [1]) 1, Awaited (fba [1]) 1 1 u) ∧ ∀ u ∈ participants (fba []) 1, ¬ Awaited (fba []) 1 1 u := by
  refine ⟨engineReady (by decide +kernel), engineReady (by decide +kernel), ⟨1, by decide +kernel, team0, _, rfl, rfl, .inl (by decide +kernel)⟩, ?_⟩
  rintro u - ⟨m, l, hm, hl, h⟩
  have hl' : launchOf (fba []) 0 0 = some l := by cases hm; exact hl
  cases hl'
  obtain h | ⟨hu, ⟨m', ht, -⟩, -⟩ := h
  · cases h
  · have : (fba []).tile u = {} := by
      simp only [fba, lead, device, State.tile, sget]
      split
      · next h0 => exact absurd h0.symm hu
      · rfl
    rw [this] at ht; cases ht

/-- The greatest finite fp32. -/theorem witness_FloatFormats : 0x7F7FFFFF < 2 ^ Fmt.fp32.width ∧ IsNumber (decodeF .fp32 0x7F7FFFFF) ∧
    (encodeF .fp32 .rne (decodeF .fp32 0x7F7FFFFF)).2.of = false ∧ IsNumber (.fin false 3 0) ∧ valueQ (.fin false 3 0) ≠ 0 ∧
    (divF .fp32 .rne (decodeF .fp32 0x7F7FFFFF) (.fin false 3 0)).2.of = false := by
  have h : decodeF .fp32 0x7F7FFFFF = .fin false 0xFFFFFF 104 := by decide +kernel
  exact ⟨by decide, h ▸ trivial, by decide +kernel, trivial, by norm_num [valueQ], by decide +kernel⟩

/-- Stream 3 is open on the last two bytes of stripe 1, to read and to write. -/
def padStream : Stream := { isOpen := true, kind := 1, intent := 3, addr := 0xFE00000000000FFE, ext := 2, es := 1 }
def pad : State := lead [] { av := two, streams := [(3, padStream)] }

/-- A byte of stripe 0 or 1 is an element's place. -/
theorem padPlace {s : State} {ea : Word} {n off : Nat} (h : (decide (ea.toNat % n = 0) && decide (classify ea = some (.spd false 0 off)) &&
      spdInRange s s.ct 0 false 0 off n && (List.range n).all (fun i => decide (wmByte s s.ct (off + i) = .free) &&
        !(s.tile s.ct).evicted.contains ((off + i) / 2048))) = true) : ElementOnPad.ScratchpadPlace s ea n s.ct off := by
  simp only [Bool.and_eq_true, decide_eq_true_eq, List.all_eq_true, List.mem_range, Bool.not_eq_true', List.contains_eq_mem, decide_eq_false_iff_not] at h
  exact ⟨h.1.1.1, ⟨false, 0, h.1.1.2, rfl, h.1.2⟩, fun i hi => (h.2 i hi).1, fun i hi => (h.2 i hi).2⟩

theorem onPad {s : State} {k : BitVec 5} {ea : Word} {n off : Nat} (h0 : (ea - (s.curTile.stream k.toNat).addr).toNat + n ≤
      (s.curTile.stream k.toNat).ext.toNat) (h : (decide (ea.toNat % n = 0) && decide (classify ea = some (.spd false 0 off)) &&
      spdInRange s s.ct 0 false 0 off n && (List.range n).all (fun i => decide (wmByte s s.ct (off + i) = .free) &&
        !(s.tile s.ct).evicted.contains ((off + i) / 2048))) = true) : ElementOnPad s k ea n s.ct off := ⟨h0, padPlace h⟩

theorem below_two {p : Nat → Prop} (h0 : p 0) (h1 : p 1) (e : Nat) (he : e < 2) : p e := by
  obtain rfl | rfl : e = 0 ∨ e = 1 := by omega
  · exact h0
  · exact h1

/-- The same with 4-bit elements. -/
def nibbles : State := lead [] { av := { vl := 2, tags := [(4, 1)] }, streams := [(3, padStream)] }

/-- A shape record in v12 for two bytes at the end of stripe 1. -/
def shapedPad : State := lead [] { av := { tags := [(12, 5)], vl := 2 }, v := [(12, BitVec.ofNat 8192 (0xFE00000000000FFE + 2 ^ 64 * 0x10A + 2 ^ 128 * 2 + 2 ^ 896))] }

theorem shapedPad_sound : RecordSound shapedPad 12 := by
  refine ⟨by decide +kernel, by decide +kernel, by decide +kernel, by decide +kernel, by decide +kernel, ?_⟩
  rw [if_neg (by decide +kernel)]; decide +kernel

theorem shapedPad_place (e : Nat) (h : e < 2) : ElementOnPad.ScratchpadPlace shapedPad (recordAddress shapedPad 12 8 e) 1 0 (0xFFE + e) := by
  exact below_two (p := fun e => ElementOnPad.ScratchpadPlace shapedPad (recordAddress shapedPad 12 8 e) 1 0 (0xFFE + e))
    (padPlace (by decide +kernel)) (padPlace (by decide +kernel)) e h

theorem witness_ScratchpadLoads :
    (engineOp (.vld 4 3 0) = some (.load .unit 4 3 0) ∧ EngineReady pad (.load .unit 4 3 0) ∧ ScratchpadStream pad 3 0 ∧
      ∀ e, Active pad 0 e → ElementOnPad pad 3 (elementAddress pad 3 .unit (tagWidth (tagAt pad 4)) e) (elementBytes (tagWidth (tagAt pad 4))) 0 (0xFFE + e)) ∧
    (EngineReady nibbles (.load .unit 4 3 0) ∧ ScratchpadStream nibbles 3 0 ∧ tagWidth (tagAt nibbles 4) = 4 ∧ ∀ e, Active nibbles 0 e →
      ElementOnPad nibbles 3 (elementAddress nibbles 3 .unit 4 e) (elementBytes 4) 0 0xFFE) ∧
    (EngineReady shapedPad (.load .shaped 4 12 0) ∧ RecordSound shapedPad 12 ∧ tagWidth (recordTag shapedPad 12) = 8 ∧ recordLength shapedPad 12 = 2 ∧
      (4 : BitVec 5).toNat % (shapedPad.curTile.ctx.av.operand 4).group = 0 ∧
      2 ≤ Min.min (8192 * (shapedPad.curTile.ctx.av.operand 4).group / 8) 8192 ∧
      ∀ e, e < 2 → ElementOnPad.ScratchpadPlace shapedPad (recordAddress shapedPad 12 8 e) 1 0 (0xFFE + e)) :=
  ⟨⟨rfl, engineReady (by decide +kernel), ⟨rfl, rfl, rfl, rfl⟩, fun e he => below_two
      (p := fun e => ElementOnPad pad 3 (elementAddress pad 3 .unit (tagWidth (tagAt pad 4)) e) (elementBytes (tagWidth (tagAt pad 4))) 0 (0xFFE + e))
      (onPad (by decide +kernel) (by decide +kernel)) (onPad (by decide +kernel) (by decide +kernel)) e he.2.1⟩,
    ⟨engineReady (by decide +kernel), ⟨rfl, rfl, rfl, rfl⟩, by decide +kernel, fun e he => below_two
      (p := fun e => ElementOnPad nibbles 3 (elementAddress nibbles 3 .unit 4 e) (elementBytes 4) 0 0xFFE)
      (onPad (by decide +kernel) (by decide +kernel)) (onPad (by decide +kernel) (by decide +kernel)) e he.2.1⟩,
    engineReady (by decide +kernel), shapedPad_sound, by decide +kernel, by decide +kernel, by decide +kernel, by decide +kernel, shapedPad_place⟩

/-- Three streams on the scratchpad; s1 is 1. -/
def pads : State := lead [(1, 1)] { av := two, streams := [(3, padStream), (4, { padStream with addr := 0xFE00000000000000 }),
  (5, { padStream with addr := 0xFE00000000000100 })] }

theorem witness_ScratchpadStores :
    (engineOp (.vst 4 3 0) = some (.store .unit 4 3 0) ∧ EngineReady pad (.store .unit 4 3 0) ∧ Canonical pad ∧ ScratchpadStream pad 3 1 ∧
      (∀ e, Active pad 0 e → ElementOnPad pad 3 (elementAddress pad 3 .unit (tagWidth (tagAt pad 4)) e) (elementBytes (tagWidth (tagAt pad 4))) 0 (0xFFE + e)) ∧
      pinners pad 0 0xFFE 2 = []) ∧
    (EngineReady nibbles (.store .unit 4 3 0) ∧ Canonical nibbles ∧ ScratchpadStream nibbles 3 1) ∧
    (EngineReady shapedPad (.store .shaped 4 12 0) ∧ Canonical shapedPad ∧ recordTag shapedPad 12 = tagAt shapedPad 4) ∧
    (EngineReady pads (.vmm .add 5 3 4 0) ∧ Canonical pads ∧ ScratchpadStream pads 5 1 ∧ ScratchpadStream pads 3 0 ∧ ScratchpadStream pads 4 0 ∧
      (∀ e, e < 2 → ElementOnPad pads 5 (elementAddress pads 5 .unit 8 e) (elementBytes 8) 0 (0x100 + e)) ∧
      (∀ e, e < 2 → ElementOnPad pads 3 (elementAddress pads 3 .unit 8 e) (elementBytes 8) 0 (0xFFE + e)) ∧
      (∀ e, e < 2 → ElementOnPad pads 4 (elementAddress pads 4 .unit 8 e) (elementBytes 8) 0 e) ∧
      tagWidth (tagAt pads 0) = 8 ∧ pinners pads 0 0x100 2 = []) :=
  ⟨⟨rfl, engineReady (by decide +kernel), canonical_lead _ _, ⟨rfl, rfl, rfl, rfl⟩, witness_ScratchpadLoads.1.2.2.2, by decide +kernel⟩,
    ⟨engineReady (by decide +kernel), canonical_lead _ _, rfl, rfl, rfl, rfl⟩,
    ⟨engineReady (by decide +kernel), canonical_lead _ _, by decide +kernel⟩,
    engineReady (by decide +kernel), canonical_lead _ _, ⟨rfl, rfl, rfl, rfl⟩, ⟨rfl, rfl, rfl, rfl⟩, ⟨rfl, rfl, rfl, rfl⟩,
    below_two (onPad (by decide +kernel) (by decide +kernel)) (onPad (by decide +kernel) (by decide +kernel)), below_two (onPad (by decide +kernel) (by decide +kernel)) (onPad (by decide +kernel) (by decide +kernel)),
    below_two (onPad (by decide +kernel) (by decide +kernel)) (onPad (by decide +kernel) (by decide +kernel)), by decide +kernel, by decide +kernel⟩

/-- Format 0, signed A, the full depth. -/
def matrix : State := lead [(2, 0), (3, 0x40000)] { av := { mcfg := 0x20, kval := 48 } }

/-- A format, its depth, and the entry of `vtagtab` for v28. -/
def mats0 (f k : Nat) (e : BitVec 16) : State :=
  lead [] { av := { tags := [(28, e)], vl := 8192, mcfg := BitVec.ofNat 8 f, kval := BitVec.ofNat 7 k } }

/-- A descriptor in s2, s3 of 32 lines of one 32-bit element, 4 bytes apart, from offset 0. -/
def described : State := lead [(2, 0x400000000), (3, 0x20)] { av := { mcfg := 0x20, kval := 1 } }

theorem overRegs {s : State} {kind : MmaKind} {q : BitVec 3} {a b : Nat}
    (h : (!fabricHoldsQ s.curTile.ctx.fabric q.toNat && decide (s.curTile.ctx.av.vstart = 0) &&
      (mmaValueTrap s.curTile.ctx (mmaPlan s.curTile.ctx.av) kind s.curTile.ctx.av.vl).isNone) = true) :
    MultiplyReady s kind q (.regs a) (.regs b) := by
  simp only [Bool.and_eq_true, Bool.not_eq_true', decide_eq_true_eq, Option.isNone_iff_eq_none] at h
  exact ⟨h.1.1, h.1.2, rfl, h.2, fun _ _ _ _ => trivial, fun _ _ _ _ => trivial⟩

/-- A line of one element at each place of the descriptor. -/
theorem describedPlace (o : MOperand) (w : Nat) (ho : o = .spd 0x400000000 0x20)
    (h : ∀ i < 32, (descriptorPlace described 0x400000000 0x20 w i 0).1 = 0) (i : Nat) (hi : i < 32) (k : Nat) (hk : k < 1) :
    OperandReady described o w i k := by
  subst ho
  obtain rfl : k = 0 := by omega
  intro j _
  rw [h i hi]
  exact ⟨by simp [wmByte, described, lead, device, State.tile, sget, Tile.held, clusterBase, List.range, List.range.loop], by simp [described, lead, device, State.tile, sget]⟩

/-- Every form over registers, on integers with and without SAT, and on floating formats; a descriptor for A. -/
theorem witness_Multiplies :
    (∀ q ∈ [(mats0 0x20 48 0, MmaKind.dense), (mats0 0x80 48 0, .dense), (mats0 7 24 0, .dense), (mats0 3 32 0x18, .scaled 28), (mats0 0x20 48 0x99, .grouped 28),
      (mats0 0x20 48 0, .s24 20), (mats0 0x20 48 0, .bitmap 20), (mats0 0x20 48 0, .rowSum)],
      EngineReady q.1 (.mma q.2 7 0 0 16) ∧ MultiplyReady q.1 q.2 7 (mOperand q.1.reg false 0) (mOperand q.1.reg false 16)) ∧
    EngineReady described (.mma .dense 7 1 2 16) ∧
      MultiplyReady described .dense 7 (mOperand described.reg true 2) (mOperand described.reg false 16) := by
  refine ⟨fun q h => ?_, engineReady (by decide +kernel), rfl, rfl, by decide +kernel, by decide +kernel, ?_, fun _ _ _ _ => trivial⟩
  · simp only [List.mem_cons, List.not_mem_nil, or_false] at h
    obtain rfl | rfl | rfl | rfl | rfl | rfl | rfl | rfl := h <;> exact ⟨engineReady (by decide +kernel), overRegs (by decide +kernel)⟩
  · exact fun i hi k hk => describedPlace _ _ rfl (by decide +kernel) i hi k hk

theorem witness_AccumulatorMoves :
    (EngineReady matrix (.mld 7 0 28) ∧ EngineReady matrix (.mst 7 0 28) ∧ MoveReady matrix 7 (mOperand matrix.reg false 28) 32 32 ∧
      StoreApart matrix (mOperand matrix.reg false 28) 32 32) ∧
    (EngineReady described (.mstSm 7 1 2) ∧ MoveReady described 7 (mOperand described.reg true 2) 32 1 ∧
      StoreApart described (mOperand described.reg true 2) 32 1) ∧
    (let s := mats0 0x20 48 4
     EngineReady s (.mdrain 7 0 0 28 4) ∧ MoveReady s 7 (mOperand s.reg false 0) 32 32 ∧ (0 + drainSpan 32 ≤ (28 : BitVec 5).toNat)) := by
  refine ⟨⟨engineReady (by decide +kernel), engineReady (by decide +kernel), ⟨rfl, rfl, rfl, fun _ _ _ _ => trivial⟩, trivial⟩,
    ⟨engineReady (by decide +kernel), ⟨rfl, rfl, by decide +kernel, ?_⟩, ?_, ?_⟩,
    engineReady (by decide +kernel), ⟨rfl, rfl, rfl, fun _ _ _ _ => trivial⟩, by decide +kernel⟩
  · exact fun i hi k hk => describedPlace _ _ rfl (by decide +kernel) i hi k hk
  · decide +kernel
  · have apart : ∀ i < 32, ∀ i' < 32, i ≠ i' →
        let p := fun i => (descriptorPlace described (described.reg 2) (described.reg 3) 32 i 0).2
        p i + elementBytes 32 ≤ p i' ∨ p i' + elementBytes 32 ≤ p i := by decide +kernel
    intro i hi i' hi' k hk k' hk' hne _
    obtain rfl : k = 0 := by omega
    obtain rfl : k' = 0 := by omega
    exact apart i hi i' hi' fun h => hne (by rw [h])

/-- B names the pair s2, s3, whose second word has bit 18 set. -/
theorem witness_MatrixOperandFaults : ∃ tr, EngineReady matrix (.mma .dense 7 2 0 2) ∧ fabricHoldsQ matrix.curTile.ctx.fabric 7 = false ∧
    HandlerReady matrix ∧ tr.cause ≠ cWALK ∧
    operandTrap (enqueue (.mma .dense 7 2 0 2) matrix.curTile.ctx.av matrix) matrix.ct
      [{ op := mOperand matrix.reg ((2 : BitVec 2).getLsbD 0) 0, w := fmtWidth (viewFmt matrix.curTile.ctx.av),
         len := fun _ => validDepth matrix.curTile.ctx.av, noO := false },
       { op := mOperand matrix.reg ((2 : BitVec 2).getLsbD 1) 2, w := fmtWidth (viewFmt matrix.curTile.ctx.av),
         len := fun _ => validDepth matrix.curTile.ctx.av, noO := false }] = some tr :=
  ⟨{ cause := cRSVD }, engineReady (by decide +kernel), rfl, ⟨rfl, by decide +kernel⟩, by decide, by decide +kernel⟩

/-- A packet that fills stripe 1 from memory, in elements of i8, and an empty one. -/
def packet : State := lead [(2, 0x2000000003000), (3, 0x80000000800)] {}

theorem witness_CopyAccepted : ∃ r, engineOp (.xcopyQ 31 2) = some (.xcopyQ 31 2) ∧ packetCopyRec (packet.reg 2) (packet.reg 3) = some r ∧
    EngineReady packet (.xcopyQ 31 2) ∧ copyTrap packet packet.ct r = none ∧ nextCopySlot packet.curTile.ctx = some 0 ∧
    r.empty = false ∧ (packet.curTile.ctx.xchan r.chan).state ≠ .busy :=
  ⟨_, rfl, rfl, engineReady (by decide +kernel), by decide +kernel, by decide +kernel, by decide +kernel, by decide +kernel⟩

/-- A copy in slot 0 and an event; a busy channel 3 with its watermark at 0x40; nothing. -/
def transfers : State := lead [(1, 0), (2, 0x41)] { copying with events := [(1, 0)], xchans := [(3, { state := .busy, rb := 0, re := 0x80, wm := 0x40 })] }

theorem witness_TransferControl :
    (∀ op ∈ [EngOp.xqry 31 1, .xev 30, .xabort 1], EngineReady transfers op) ∧ (30 : BitVec 5).toNat < 31 ∧
    (∃ slot k, findCopy transfers.curTile.ctx (transfers.reg 1) = some (slot, k) ∧ k.state = .running) ∧
    (transfers.curTile.ctx.copies.map (·.1)).Pairwise (· < ·) ∧ findCopy transfers.curTile.ctx (transfers.reg 2) = none ∧ transfers.isLead = true ∧
    (transfers.curTile.ctx.xchan 4).state ≠ .busy ∧
    ((transfers.curTile.ctx.xchan 3).state = .busy ∧ (transfers.reg 1).toNat % 2 ^ 25 ≤ (transfers.curTile.ctx.xchan 3).mark ∧
      (transfers.curTile.ctx.xchan 3).mark < (transfers.reg 2).toNat % 2 ^ 25) ∧
    transfers.curTile.ctx.events ≠ [] ∧ (lead [] {}).isLead = true ∧ (lead [] {}).curTile.ctx.events = [] := by
  refine ⟨fun op h => ?_, by decide, ⟨0, _, rfl, rfl⟩, by decide +kernel, by decide +kernel, rfl, by decide +kernel, ⟨rfl, by decide +kernel, by decide +kernel⟩,
    by decide +kernel, rfl, rfl⟩
  simp only [List.mem_cons, List.not_mem_nil, or_false] at h
  obtain rfl | rfl | rfl := h <;> exact engineReady (by decide +kernel)

/-! ### A form of each kind ends well -/

/-- A shape record in v12 for two bytes at 0x8000. -/
def shapedAt : State := lead [] { av := { tags := [(12, 5)], vl := 2 }, v := [(12, BitVec.ofNat 8192 (0x8000 + 2 ^ 64 * 0x10A + 2 ^ 128 * 2 + 2 ^ 896))] }

/-- A format, its depth and the entry of `vtagtab` for v28; the last row is still to do. -/
def mats (f k : Nat) (e : BitVec 16) : State :=
  lead [(2, 0), (3, 0x40000)] { av := { tags := [(28, e)], vl := 8192, vstart := 31, mcfg := BitVec.ofNat 8 f, kval := BitVec.ofNat 7 k } }

/-- An image without elements at 0x8000 and a loaded fabric. -/
def imaged : State :=
  let s := lead [(1, 0x8000)] { fabric := { code := 1 } }
  { s with mem := cellsPut s.mem 0x8000 (natLe 8 0x1CF) }

theorem witness_EngineForms_memory : ∀ op ∈ [EngOp.load .unit 4 3 0, .load (.strided 1) 4 3 0, .load (.indexed 8) 4 3 0, .load .firstFault 4 3 0,
    .store .unit 4 3 0, .store (.strided 1) 4 3 0, .store (.indexed 8) 4 3 0, .vmm .add 5 3 4 0, .vmm .sub 5 3 4 0, .vmm .mul 5 3 4 0,
    .vmm .min 5 3 4 0, .vmm .max 5 3 4 0, .vmm .and 5 3 4 0, .vmm .or 5 3 4 0, .vmm .xor 5 3 4 0, .vmm .cpy 5 3 0 0, .vfba 0],
    EngineReady pads op ∧ ∃ dn, (performance pads op).fin = .done dn := by
  intro op h
  simp only [List.mem_cons, List.not_mem_nil, or_false] at h
  obtain rfl | rfl | rfl | rfl | rfl | rfl | rfl | rfl | rfl | rfl | rfl | rfl | rfl | rfl | rfl | rfl | rfl := h <;>
    exact ⟨engineReady (by decide +kernel), doneOf (by decide +kernel)⟩

theorem witness_EngineForms_others : ∀ q ∈ [(shapedAt, EngOp.load .shaped 4 12 0), (shapedAt, .store .shaped 4 12 0),
    (mats 3 32 0x18, .mma (.scaled 28) 7 0 0 16), (mats 0x20 48 0x99, .mma (.grouped 28) 7 0 0 16), (mats 0x20 48 0, .mma (.s24 20) 7 0 0 16),
    (mats 0x20 48 0, .mma (.bitmap 20) 7 0 0 16), (mats 0x20 48 0, .mma .rowSum 7 0 0 16), (mats 0 48 0, .mstSm 7 0 28),
    (mats 0 48 4, .mdrain 7 0 0 28 4), (imaged, .fcfgLd 5 1), (imaged, .fcfgSw 5 1)],
    EngineReady q.1 q.2 ∧ ∃ dn, (performance q.1 q.2).fin = .done dn := by
  intro q h
  simp only [List.mem_cons, List.not_mem_nil, or_false] at h
  obtain rfl | rfl | rfl | rfl | rfl | rfl | rfl | rfl | rfl | rfl | rfl := h <;>
    exact ⟨engineReady (by decide +kernel), doneOf (by decide +kernel)⟩

/-- The packet's entry behind a matrix entry that stalls. -/
def behind : State :=
  { packet with tiles := [(0, { packet.tile 0 with queue :=
      [{ op := .mma .dense 7 3 4 6, pc := 0x10000, regs := [], view := {}, state := .stalled .watermark },
       { op := .xcopyQ 31 2, pc := 0x10004, regs := [(2, 0x2000000003000), (3, 0x80000000800)], view := {} }] })] }

/-- R191, R356: the copy is accepted, and its entry stays until the older one retires. -/
theorem test_accept_behind_stall : (match exec (.copyAccept 0) behind with
    | .next t => some ((t.tile 0).queue.map (·.state), (t.tile 0).ctx.copies.map (·.1)) | _ => none) =
    some ([.stalled .watermark, .performed], [0]) := by decide +kernel

/-- R131, R377: with the older entry abandoned, the accepted copy is withdrawn. -/
theorem test_withdrawn : (match exec (.copyAccept 0) behind with
    | .next t => match (t.tile 0).queue with
      | e :: _ => some ((abandonHead 0 e 0 t).tile 0).ctx.copies
      | [] => none
    | _ => none) = some [] := by decide +kernel

end Sys2Proof.Tests
end

