-- ==== Sys2Proof/Tests/Fabric.lean ====
section
/-! SUPPORT. Witnesses: for each statement about the fabric and its firings, states that meet its hypotheses, clause by clause. -/

set_option Elab.async false

open Sys2Proof Sys2Proof.Machine Sys2Proof.Spec

namespace Sys2Proof.Tests

/-! ### The instructions of the fabric ports -/

/-- The lead strand with a fabric in a state of Table 9.6 and a token in out-queue 15; s1 holds the greatest marker number. -/
def fabricIn (code : Nat) : State := lead [(1, 0xFFFF)] { fabric := { code := code, outq := [(15, [{ val := 7 }])] } }

theorem witness_FabricControl : (∀ c ∈ [0, 1, 2, 3, 4, 5], ∀ op ∈ [EngOp.fstop, .fstart, .fstat 31 0, .fstat 31 4, .fstat 31 10, .fstat 31 9, .fmark 1,
      .fportW 1 15 false, .fportW 1 15 true, .fportR 31 15 false, .fportR 31 15 true], EngineReady (fabricIn c) op) ∧
    ((fabricIn 1).reg 1).toNat < 2 ^ 16 ∧ (fabricIn 1).curTile.ctx.fabric.marks.length < 4 ∧ (fabricIn 1).curTile.ctx.fabric.next = none ∧
    ((fabricIn 1).curTile.ctx.fabric.inQueue 15).length < 8 ∧ ∃ x r, (fabricIn 1).curTile.ctx.fabric.outQueue 15 = x :: r := by
  refine ⟨fun c hc op h => ?_, by decide +kernel, by decide +kernel, rfl, by decide +kernel, _, _, rfl⟩
  simp only [List.mem_cons, List.not_mem_nil, or_false] at h hc
  obtain rfl | rfl | rfl | rfl | rfl | rfl := hc <;>
    obtain rfl | rfl | rfl | rfl | rfl | rfl | rfl | rfl | rfl | rfl | rfl := h <;> exact engineReady (by decide +kernel)

/-- The same with an image without elements at 0x8000, a position of the fabric's generation, and a switch pending if `next` says so. -/
def configuring (code : Nat) (next : Option (Word × Image)) : State :=
  { lead [(1, 0x8000)] { fabric := { code := code, pos := [(0, { word := 0x22 })], next := next } } with
    mem := [(0x1000, 0x01), (0x1001, 0x20), (0x2000, 0x6F), (0x2001, 0x02), (0x8000, 0xCF), (0x8001, 1)] }

theorem imageReads {s : State} (he : (s.reg 1).toNat = 0x8000) (hp : probe s (s.curTile.part.getD 0) 0 .read = .ok leaf0) (hr : s.resv = [])
    (h : (List.range 65).all (fun i => number (cellGet s.mem) (0x8000 + 8 * i) 8 == [0x1CF].getD i 0) = true) (hl : loopsFault s s.ct {} = none) :
    ImageAt s (s.reg 1) [0x1CF] {} :=
  ⟨by decide +kernel, by decide +kernel, hl, reads_low hp (by rw [he]) (by rw [he]; decide) hr fun i hi => by
    rw [he]; exact eq_of_beq (List.all_eq_true.1 h i (List.mem_range.2 hi))⟩

/-- An image to load into an IDLE fabric and to switch to; a RUNNING fabric, and one with a switch pending, refuse. -/
theorem witness_FabricControl_images :
    (EngineReady (configuring 0 none) (.fcfgLd 31 1) ∧ EngineReady (configuring 0 none) (.fcfgSw 31 1) ∧
      ImageAt (configuring 0 none) ((configuring 0 none).reg 1) [0x1CF] {}) ∧
    (EngineReady (configuring 2 none) (.fcfgLd 31 1) ∧ EngineReady (configuring 2 none) (.fcfgSw 31 1) ∧
      ImageAt (configuring 2 none) ((configuring 2 none).reg 1) [0x1CF] {} ∧
      ∃ q ∈ (configuring 2 none).curTile.ctx.fabric.pos, q.2.gen = (configuring 2 none).curTile.ctx.fabric.gen) ∧
    EngineReady (configuring 2 (some (0, {}))) (.fcfgSw 31 1) := by
  have hi : ∀ c, probe (configuring c none) (configuring c none).curPart 0 .read = .ok leaf0 → loopsFault (configuring c none) 0 {} = none →
      ImageAt (configuring c none) ((configuring c none).reg 1) [0x1CF] {} := fun c hp hl =>
    imageReads rfl hp rfl (show _ = true from (by decide +kernel : (List.range 65).all (fun i =>
      number (cellGet (configuring 0 none).mem) (0x8000 + 8 * i) 8 == [0x1CF].getD i 0) = true)) hl
  exact ⟨⟨engineReady (by decide +kernel), engineReady (by decide +kernel), hi 0 (probeIs (by decide +kernel)) (by decide +kernel)⟩,
    ⟨engineReady (by decide +kernel), engineReady (by decide +kernel), hi 2 (probeIs (by decide +kernel)) (by decide +kernel), _, List.mem_cons_self .., rfl⟩,
    engineReady (by decide +kernel)⟩

/-! ### Firings -/

/-- An element word (Table 9.2): operator, SUB, TAG, AUX, IMM; BI where the last is given. -/
def elemWord (op sub tag aux : Nat) (imm : Option Nat := none) : Word :=
  BitVec.ofNat 64 (op + 2 ^ 10 * sub + 2 ^ 13 * tag + 2 ^ 18 * aux + (match imm with | some v => 2 ^ 8 + 2 ^ 32 * v | none => 0))

/-- A link from output 0 of element 8 + i to input i of element 0. -/
def inLink0 (i : Nat) : Word := BitVec.ofNat 64 (8 + i + 2 ^ 14 * i)
/-- A link from output o of element 0 to input o of element 16. -/
def outLink0 (o : Nat) : Word := BitVec.ofNat 64 (2 ^ 6 * o + 2 ^ 8 * 16 + 2 ^ 14 * o)

/-- Element 0 of tile 0's running fabric, with inputs `ins` linked and holding data, and outputs `outs` linked and free. -/
def firingState (w : Word) (ins : List (Nat × Word)) (linked outs : List Nat) (s0 : Word := 0) (s1 : Word := 0) (s2 : Word := 0) : State :=
  lead [] { fabric := { code := 2, image := { elems := [(0, w)], links := linked.map inLink0 ++ outs.map outLink0 }
                        pos := [(0, { word := w, s0 := s0, s1 := s1, s2 := s2, ins := ins.map fun p => (p.1, { val := p.2 }) })]
                        inq := [(15, [{ val := 9 }])] } }

/-- What a firing needs, as one test. -/
theorem mayFireOf {s : State} {op : Nat}
    (h : (!(s.tile 0).still && decide (eOp (posAt s 0 0).word = op) && mayFire (s.tile 0).ctx.fabric 0 &&
      (s.tile 0).ctx.fabric.outsFree 0 (posAt s 0 0) && gateOk (s.tile 0) 0 && decide (((posAt s 0 0).ins.map (·.1)).Pairwise (· < ·))) = true) :
    MayFire s op 0 0 := by
  simp only [Bool.and_eq_true, Bool.not_eq_true', decide_eq_true_eq] at h
  exact ⟨h.1.1.1.1.1, h.1.1.1.1.2, h.1.1.1.2, h.1.1.2, h.1.2, h.2⟩

/-- `add` of i64 with both inputs linked; `cmp` with an immediate. -/
theorem witness_PureFirings :
    (firing (.fabricAdd 0 0) = some (1, 0, 0) ∧ MayFire (firingState (elemWord 1 0 5 0) [(0, 5), (1, 7)] [0, 1] [0]) 1 0 0 ∧
      0 ∈ linkedIn (firingState (elemWord 1 0 5 0) [(0, 5), (1, 7)] [0, 1] [0]) 0 0 ∧
      OnInputs (firingState (elemWord 1 0 5 0) [(0, 5), (1, 7)] [0, 1] [0]) 0 0 fun i => if i = 0 then 5 else if i = 1 then 7 else 0) ∧
    (firing (.fabricCmp 0 0) = some (12, 0, 0) ∧ MayFire (firingState (elemWord 12 5 5 0 (some 9)) [(0, 5)] [0] [0]) 12 0 0 ∧
      0 ∈ linkedIn (firingState (elemWord 12 5 5 0 (some 9)) [(0, 5)] [0] [0]) 0 0 ∧
      OnInputs (firingState (elemWord 12 5 5 0 (some 9)) [(0, 5)] [0] [0]) 0 0 fun i => if i = 0 then 5 else if i = 1 then 9 else 0) := by
  refine ⟨⟨rfl, mayFireOf (by decide +kernel), by decide +kernel, fun i hi => ?_⟩, rfl, mayFireOf (by decide +kernel), by decide +kernel, fun i hi => ?_⟩ <;>
    obtain rfl | rfl | rfl : i = 0 ∨ i = 1 ∨ i = 2 := by omega
  · exact ⟨fun _ _ => ⟨_, rfl, rfl, rfl⟩, fun h => absurd (by decide +kernel) h⟩
  · exact ⟨fun _ _ => ⟨_, rfl, rfl, rfl⟩, fun h => absurd (by decide +kernel) h⟩
  · exact ⟨fun h => absurd h (by decide +kernel), fun _ => by decide +kernel⟩
  · exact ⟨fun _ _ => ⟨_, rfl, rfl, rfl⟩, fun h => absurd (by decide +kernel) h⟩
  · exact ⟨fun h => absurd h (by decide +kernel), fun _ => by decide +kernel⟩
  · exact ⟨fun h => absurd h (by decide +kernel), fun _ => by decide +kernel⟩

/-- A load of the last doubleword of the first GiB behind an order token. -/
def loading : State := firingState (elemWord 18 0 5 3) [(0, 0x3FFFFFF8), (1, 1)] [0, 1] [0, 1]
/-- `dup`. -/
def dupping : State := firingState (elemWord 34 0 0 0) [(0, 5)] [0] [0, 1]

theorem emitsOf {t e : Nat} {p : Pos} {a b c : Word} {s : State} (h : (match compute t e p a b c s with | .emit _ _ => true | _ => false) = true) :
    ∃ s' outs, compute t e p a b c s = .emit s' outs := by
  cases e : compute t e p a b c s with
  | emit s' outs => exact ⟨s', outs, rfl⟩
  | _ => rw [e] at h; cases h

theorem witness_GeneralFirings :
    (MayFire loading 18 0 0 ∧ 0 ∈ linkedIn loading 0 0 ∧ (OnInputs loading 0 0 fun i => if i = 0 then 0x3FFFFFF8 else 0) ∧
      parkHead (loading.tile 0).ctx.fabric 0 (posAt loading 0 0) = none ∧
      sameOrdinal (posAt loading 0 0) (fedIns (loading.tile 0).ctx.fabric 0 (posAt loading 0 0)) = true ∧
      (∀ j ∈ (orderIn (posAt loading 0 0).word).toList.filter fun j => (linkedIn loading 0 0).contains j && !(posAt loading 0 0).hasEnded j,
        ∃ x, DataOn (posAt loading 0 0) j x) ∧
      ∃ s' outs, compute 0 0 (posAt loading 0 0) 0x3FFFFFF8 0 0 loading = .emit s' outs) ∧
    (MayFire dupping 34 0 0 ∧ 0 ∈ linkedIn dupping 0 0 ∧ (OnInputs dupping 0 0 fun i => if i = 0 then 5 else 0) ∧
      parkHead (dupping.tile 0).ctx.fabric 0 (posAt dupping 0 0) = none ∧
      sameOrdinal (posAt dupping 0 0) (fedIns (dupping.tile 0).ctx.fabric 0 (posAt dupping 0 0)) = true ∧
      (∀ j ∈ (orderIn (posAt dupping 0 0).word).toList, ∃ x, DataOn (posAt dupping 0 0) j x) ∧
      ∃ outs, routed (posAt dupping 0 0).word 5 0 0 = some outs) := by
  refine ⟨⟨mayFireOf (by decide +kernel), by decide +kernel, fun i hi => ?_, by rfl, by decide +kernel, fun j hj => ?_, emitsOf (by decide +kernel)⟩,
    mayFireOf (by decide +kernel), by decide +kernel, fun i hi => ?_, by rfl, by decide +kernel, fun j hj => ?_, _, rfl⟩
  · obtain rfl | rfl | rfl : i = 0 ∨ i = 1 ∨ i = 2 := by omega
    · exact ⟨fun _ _ => ⟨_, rfl, rfl, rfl⟩, fun h => absurd (by decide +kernel) h⟩
    · exact ⟨fun h => absurd h (by decide +kernel), fun _ => by decide +kernel⟩
    · exact ⟨fun h => absurd h (by decide +kernel), fun _ => by decide +kernel⟩
  · have : (orderIn (posAt loading 0 0).word).toList = [1] := by decide +kernel
    rw [this] at hj
    obtain rfl : j = 1 := by simpa using (List.mem_filter.1 hj).1
    exact ⟨_, _, rfl, rfl, rfl⟩
  · obtain rfl | rfl | rfl : i = 0 ∨ i = 1 ∨ i = 2 := by omega
    · exact ⟨fun _ _ => ⟨_, rfl, rfl, rfl⟩, fun h => absurd (by decide +kernel) h⟩
    · exact ⟨fun h => absurd h (by decide +kernel), fun _ => by decide +kernel⟩
    · exact ⟨fun h => absurd h (by decide +kernel), fun _ => by decide +kernel⟩
  · have : (orderIn (posAt dupping 0 0).word).toList = [] := by decide +kernel
    rw [this] at hj; cases hj

/-- An access of 8 bytes to the last doubleword of stripe 1 behind an order token. -/
def padding (op order : Nat) (linked : List (Nat × Word)) : State :=
  firingState (elemWord op 0 5 3) ((0, 0xFE00000000000FF8) :: linked ++ [(order, 1)]) ((0 :: linked.map (·.1)) ++ [order]) [0, 1]

theorem placeIs {s : State} {ea : Word} {a : Access} {h off : Nat}
    (q : (match placeFor 0 0 (fabricAgent 0) ea 8 a s with | .ok (.spd x o) t => decide (x = h ∧ o = off ∧ t = s) | _ => false) = true) :
    placeFor 0 0 (fabricAgent 0) ea 8 a s = .ok (.spd h off) s := by
  cases e : placeFor 0 0 (fabricAgent 0) ea 8 a s with
  | ok x t => cases x with
    | spd x o => rw [e] at q; obtain ⟨rfl, rfl, rfl⟩ := of_decide_eq_true q; rfl
    | _ => rw [e] at q; cases q
  | error x t => rw [e] at q; cases q

/-- A load, a store and an atomic of the fabric on the scratchpad. -/
theorem witness_GeneralFirings_memory : ∀ q ∈ [(18, padding 18 1 []), (19, padding 19 2 [(1, 5)]), (20, padding 20 2 [(1, 5)])],
    MayFire q.2 q.1 0 0 ∧ parkHead (q.2.tile 0).ctx.fabric 0 (posAt q.2 0 0) = none ∧
    sameOrdinal (posAt q.2 0 0) (fedIns (q.2.tile 0).ctx.fabric 0 (posAt q.2 0 0)) = true ∧
    placeFor 0 0 (fabricAgent 0) 0xFE00000000000FF8 8 (memAccess (posAt q.2 0 0).word) q.2 = .ok (.spd 0 0xFF8) q.2 ∧
    accessHeld (q.2.tile 0).ctx.fabric 0 (posAt q.2 0 0) 0xFE00000000000FF8 = false ∧ pinners q.2 0 0xFF8 8 = [] := by
  intro q hq
  simp only [List.mem_cons, List.not_mem_nil, or_false] at hq
  obtain rfl | rfl | rfl := hq <;>
    exact ⟨mayFireOf (by decide +kernel), by rfl, by decide +kernel, placeIs (by decide +kernel), by decide +kernel, by decide +kernel⟩

/-- `pack` of its last and of another element, `vout` with room, `acc`, a `tagchk` that matches, an `xreq` that is accepted. -/
def kindStates : List (Nat × State) :=
  [(16, firingState (elemWord 16 0 4 0) [(0, 5)] [0] [0] 7 1), (16, firingState (elemWord 16 0 4 0) [(0, 5)] [0] [0]),
   (31, firingState (elemWord 31 0 0 15) [(0, 5)] [0] []), (35, firingState (elemWord 35 0 4 0) [(0, 5), (1, 7)] [0, 1] []),
   (36, firingState (elemWord 36 1 0 0 (some 0x3E0)) [(0, 0xF800000000000005)] [0] [0] 31),
   (29, firingState (elemWord 29 0 5 0) [(0, 0x3000), (1, 0), (2, 2)] [0, 1, 2] [0])]

theorem witness_GeneralFirings_kinds : (∀ q ∈ kindStates, MayFire q.2 q.1 0 0 ∧ parkHead (q.2.tile 0).ctx.fabric 0 (posAt q.2 0 0) = none ∧
      sameOrdinal (posAt q.2 0 0) (fedIns (q.2.tile 0).ctx.fabric 0 (posAt q.2 0 0)) = true ∧ orderIn (posAt q.2 0 0).word = none) ∧
    (((firingState (elemWord 31 0 0 15) [(0, 5)] [0] []).tile 0).ctx.fabric.outQueue 15).length < 8 ∧ fld (0xF800000000000005 : Word) 59 5 = fld (31 : Word) 0 5 ∧
    let s := firingState (elemWord 29 0 5 0) [(0, 0x3000), (1, 0), (2, 2)] [0, 1, 2] [0]
    let r := xreqRecord (posAt s 0 0).word 0x3000 0 2
    copyTrap s 0 r = none ∧ r.empty = false ∧ nextCopySlot (s.tile 0).ctx = some 0 ∧ ((s.tile 0).ctx.xchan r.chan).state ≠ .busy := by
  refine ⟨fun q hq => ?_, by decide, by decide, by decide +kernel, by decide +kernel, by decide +kernel, by decide +kernel⟩
  simp only [kindStates, List.mem_cons, List.not_mem_nil, or_false] at hq
  obtain rfl | rfl | rfl | rfl | rfl | rfl := hq <;> exact ⟨mayFireOf (by decide +kernel), by rfl, by decide +kernel, by decide +kernel⟩

/-- The states in which the operators with rules of their own fire. -/
def ruleStates : List (Nat × State) :=
  [(15, firingState (elemWord 15 0 2 5) [(0, 0x80)] [0] [0]),
   (17, firingState (elemWord 17 0 5 0) [(0, 5), (1, 3)] [0, 1] [0]),
   (23, firingState (elemWord 23 0 0 0) [(0, 1), (1, 5)] [0, 1, 2] [0]),
   (23, firingState (elemWord 23 0 0 0) [(0, 0), (2, 5)] [0, 1, 2] [0]),
   (24, firingState (elemWord 24 0 0x0C 0) [(0, 5), (1, 5)] [0, 1] [0, 1, 2]),
   (24, firingState (elemWord 24 0 0x0C 0) [(0, 4), (1, 5)] [0, 1] [0, 1, 2]),
   (24, firingState (elemWord 24 0 0x0C 0) [(0, 6), (1, 5)] [0, 1] [0, 1, 2]),
   (25, firingState (elemWord 25 0 0 0) [(0, 5)] [0, 1, 2] [0]),
   (25, firingState (elemWord 25 0 0 0) [(1, 5), (2, 1)] [0, 1, 2] [0] 1),
   (25, firingState (elemWord 25 0 0 0) [(2, 0)] [0, 1, 2] [0] 1),
   (26, firingState (elemWord 26 0 0 0) [(0, 5), (1, 1)] [0, 1] [0]),
   (26, firingState (elemWord 26 0 0 0) [(0, 5), (1, 0)] [0, 1] [0]),
   (30, firingState (elemWord 30 0 0 15) [] [] [0]),
   (32, firingState (elemWord 32 0 5 0 (some 7)) [] [] [0])]

/-- Entry 0 of the pool table at 0x8000: a ring of one token at 0x9000, its bounds 0 and 8, weight 1; `w1` and `w2` are the entry's second and
third word. -/
def pooled (s : State) (w1 w2 : Nat) : State :=
  { s with parts := [(0, { placePartition with record := placePartition.record ||| BitVec.ofNat 2048 (0x8000 * 2 ^ 704) })]
           mem := cellsPut (cellsPut s.mem 0x8000 ([0x9000, w1, w2, 0].flatMap (natLe 8))) 0x9000 ([0, 2 ^ 32 + 8].flatMap (natLe 8)) }

/-- A pool with a token, one where each token starts a wave, and one that is closed and empty. -/
def ranging : State := pooled (firingState (elemWord 28 0 0 0) [] [] [0, 1, 2]) 1 1
def rangingWave : State := pooled (firingState (elemWord 28 0 0 0) [] [] [0, 1, 2]) (1 + 2 ^ 32) 1
def rangingEnd : State := pooled (firingState (elemWord 28 0 0 0) [] [] [0, 1, 2]) 1 (2 ^ 32)

/-- The words of a token still to follow its marker. -/
def owing : State :=
  lead [] { fabric := { code := 2, image := { elems := [(0, elemWord 28 0 0 0)], links := [0, 1, 2].map outLink0 }
                        pos := [(0, { word := elemWord 28 0 0 0, owed := some (0, 8) })] } }

theorem servedAs {s : State} {p pool : Nat} {ag : Agent} (v : Served) (h : decide ((rangeServe s p pool ag).2 = v) = true) :
    ∃ s1, rangeServe s p pool ag = (s1, v) := ⟨(rangeServe s p pool ag).1, Prod.ext rfl (of_decide_eq_true h)⟩

theorem witness_FiringRules_rtake : (∀ s ∈ [ranging, rangingWave, rangingEnd], MayFire s 28 0 0 ∧ (posAt s 0 0).owed = none ∧
      rtakeWaiting (s.tile 0) 0 0 = true ∧ lighterWaits s 0 0 0 0 = false) ∧
    (∃ s1, rangeServe ranging 0 0 (fabricAgent 0) = (s1, .token 0 (2 ^ 32 + 8) none)) ∧
    (∃ s1, rangeServe rangingWave 0 0 (fabricAgent 0) = (s1, .token 0 (2 ^ 32 + 8) (some 1))) ∧
    (∃ s1, rangeServe rangingEnd 0 0 (fabricAgent 0) = (s1, .exhausted)) ∧
    SameBytes rangingEnd (rangeServe rangingEnd 0 0 (fabricAgent 0)).1 ∧
    MayFire owing 28 0 0 ∧ (posAt owing 0 0).owed = some (0, 8) := by
  refine ⟨fun s hs => ?_, servedAs _ (by decide +kernel), servedAs _ (by decide +kernel), servedAs _ (by decide +kernel), ?_, mayFireOf (by decide +kernel), rfl⟩
  · simp only [List.mem_cons, List.not_mem_nil, or_false] at hs
    obtain rfl | rfl | rfl := hs <;> exact ⟨mayFireOf (by decide +kernel), rfl, by decide +kernel, by decide +kernel⟩
  · have hm : (rangeServe rangingEnd 0 0 (fabricAgent 0)).1.mem = rangingEnd.mem := by decide +kernel
    have ht : (rangeServe rangingEnd 0 0 (fabricAgent 0)).1.tiles = rangingEnd.tiles := by decide +kernel
    exact ⟨fun a => by rw [hm], fun h a => by unfold State.tile; rw [ht]⟩

/-! ### Ends and policies -/

/-- A token that stands in an input slot: data, or EOS. -/
def tok (v : Option Word) : Token := match v with | some x => { val := x } | none => { kind := .eos }

/-- As `firingState`, with EOS where an input has no value, and with ended inputs. -/
def endingState (w : Word) (ins : List (Nat × Option Word)) (linked outs : List Nat) (s0 : Word := 0) (s1 : Word := 0) (s2 : Word := 0) (ended : Nat := 0) : State :=
  lead [] { fabric := { code := 2, image := { elems := [(0, w)], links := linked.map inLink0 ++ outs.map outLink0 }
                        pos := [(0, { word := w, s0 := s0, s1 := s1, s2 := s2, ins := ins.map fun p => (p.1, tok p.2), ended := ended })]
                        inq := [(15, [{ kind := .eos }])] } }

theorem overOf {p : Pos} {i : Nat} (h : (match sfind p.ins i with | some x => decide (x.kind = .eos) | none => p.hasEnded i) = true) : Over p i := by
  cases e : sfind p.ins i with
  | some x => rw [e] at h; exact .inl ⟨x, e, of_decide_eq_true h⟩
  | none => rw [e] at h; exact .inr ⟨e, h⟩

/-- A position with EOS on input `i`, all of the inputs `l` over. -/
def Ending (s : State) (op i : Nat) (l : List Nat) : Prop := MayFire s op 0 0 ∧ EosOn (posAt s 0 0) i ∧ ∀ j ∈ l, Over (posAt s 0 0) j

theorem endingOf {s : State} {op i : Nat} {l : List Nat} (h1 : MayFire s op 0 0)
    (h2 : (match sfind (posAt s 0 0).ins i with | some x => decide (x.kind = .eos) | none => false) = true)
    (h3 : l.all (fun j => match sfind (posAt s 0 0).ins j with | some x => decide (x.kind = .eos) | none => (posAt s 0 0).hasEnded j) = true) :
    Ending s op i l := by
  refine ⟨h1, ?_, fun j hj => overOf (List.all_eq_true.1 h3 j hj)⟩
  cases e : sfind (posAt s 0 0).ins i with
  | some x => rw [e] at h2; exact ⟨x, e, of_decide_eq_true h2⟩
  | none => rw [e] at h2; cases h2

/-- Operators with rules of their own at their end: `unpk`, `carry`, `agen`, `isect`, `inv`, `merge`. -/
theorem witness_FiringRules_ends :
    Ending (endingState (elemWord 15 0 2 5) [(0, none)] [0] [0]) 15 0 [0] ∧
    Ending (endingState (elemWord 25 0 0 0) [(0, none)] [0, 1, 2] [0]) 25 0 [0] ∧
    Ending (endingState (elemWord 17 0 5 0) [(0, none), (1, none)] [0, 1] [0]) 17 0 [0, 1] ∧
    Ending (endingState (elemWord 24 0 0x0C 0) [(1, none)] [0, 1] [0, 1, 2] (ended := 1)) 24 1 [0, 1] ∧
    Ending (endingState (elemWord 26 0 0 0) [(0, none)] [0, 1] [0] (ended := 2)) 26 0 [0, 1] ∧
    Ending (endingState (elemWord 23 0 0 0) [(0, none)] [0, 1, 2] [0] (ended := 6)) 23 0 [0, 1, 2] := by
  refine ⟨?_, ?_, ?_, ?_, ?_, ?_⟩ <;> exact endingOf (mayFireOf (by decide +kernel)) (by decide +kernel) (by decide +kernel)

/-- The states in which an operator of the general rule ends: `add`, `pack` with nothing and with something packed, `ctr` of both kinds, `vout`,
`drop`. -/
def endStates : List (Nat × State) :=
  [(1, endingState (elemWord 1 0 5 0) [(0, none)] [0, 1] [0] (ended := 2)),
   (16, endingState (elemWord 16 0 4 0) [(0, none)] [0] [0]), (16, endingState (elemWord 16 0 4 0) [(0, none)] [0] [0] 7 1),
   (27, endingState (elemWord 27 1 0 0) [(0, none)] [0] [0] 5), (27, endingState (elemWord 27 0 0 0) [(0, none)] [0] [0] 5),
   (31, endingState (elemWord 31 0 0 15) [(0, none)] [0] []), (33, endingState (elemWord 33 0 0 0) [(0, none)] [0] [])]

theorem witness_FiringRules_generalEnds : ∀ q ∈ endStates, Ending q.2 q.1 0 (neededIn q.2 0 0) ∧ 0 ∈ neededIn q.2 0 0 ∧
    parkHead (q.2.tile 0).ctx.fabric 0 (posAt q.2 0 0) = none ∧ (q.2.tile 0).ctx.fabric.spill = [] := by
  intro q hq
  simp only [endStates, List.mem_cons, List.not_mem_nil, or_false] at hq
  obtain rfl | rfl | rfl | rfl | rfl | rfl | rfl := hq <;>
    exact ⟨endingOf (mayFireOf (by decide +kernel)) (by decide +kernel) (by decide +kernel), by decide +kernel, by rfl, rfl⟩

/-- Data beside an ended input under a policy: `agen`, `inv` and `add`; strict, truncated, padded (`add` alone). -/
def policyState (op pol : Nat) : State := endingState (elemWord (op + 64 * pol) 0 5 0) [(0, some 5)] [0, 1] [0] (ended := 2)

theorem witness_FiringRules_policies : (∀ op ∈ [17, 26, 1], ∀ pol ∈ [0, 1], MayFire (policyState op pol) op 0 0 ∧
      DataOn (posAt (policyState op pol) 0 0) 0 5 ∧ Over (posAt (policyState op pol) 0 0) 1 ∧ (posAt (policyState op pol) 0 0).hasEnded 4 = false ∧
      fld (posAt (policyState op pol) 0 0).word 6 2 = pol ∧ parkHead ((policyState op pol).tile 0).ctx.fabric 0 (posAt (policyState op pol) 0 0) = none) ∧
    let s := policyState 1 2
    MayFire s 1 0 0 ∧ fld (posAt s 0 0).word 6 2 = 2 ∧ parkHead (s.tile 0).ctx.fabric 0 (posAt s 0 0) = none ∧ orderAt s 0 0 = [] ∧
      neededIn s 0 0 = [0, 1] ∧ DataOn (posAt s 0 0) 0 5 ∧ Over (posAt s 0 0) 1 ∧
      (∃ s' outs, compute 0 0 (posAt s 0 0) 5 (immToken (posAt s 0 0).word) 0 s = .emit s' outs) ∧
      accessHeld (s.tile 0).ctx.fabric 0 (posAt s 0 0) 5 = false := by
  refine ⟨fun op ho pol hp => ?_, mayFireOf (by decide +kernel), by decide +kernel, by rfl, by decide +kernel, by decide +kernel,
    ⟨_, rfl, rfl, rfl⟩, overOf (by decide +kernel), emitsOf (by decide +kernel), by decide +kernel⟩
  simp only [List.mem_cons, List.not_mem_nil, or_false] at ho hp
  obtain rfl | rfl | rfl := ho <;> obtain rfl | rfl := hp <;>
    exact ⟨mayFireOf (by decide +kernel), ⟨_, rfl, rfl, rfl⟩, overOf (by decide +kernel), by decide +kernel, by decide +kernel, by rfl⟩

/-- A key that comes late, and keys beside an ended input. -/
theorem witness_FiringRules_isect :
    (let s := firingState (elemWord 24 0 0x0C 0) [(0, 5), (1, 5)] [0, 1] [0, 1, 2] 1 5
     MayFire s 24 0 0 ∧ isectLate (posAt s 0 0) 0 5 = true ∧ isectLate (posAt s 0 0) 1 5 = false) ∧
    ∀ s1 ∈ [(0 : Word), 5], let s := endingState (elemWord 24 0 0x0C 0) [(0, some 5)] [0, 1] [0, 1, 2] 1 s1 (ended := 2)
     MayFire s 24 0 0 ∧ DataOn (posAt s 0 0) 0 5 ∧ Over (posAt s 0 0) 1 ∧ isectLate (posAt s 0 0) 0 5 = decide (s1 = 5) := by
  refine ⟨⟨mayFireOf (by decide +kernel), by decide +kernel, by decide +kernel⟩, fun s1 hs => ?_⟩
  simp only [List.mem_cons, List.not_mem_nil, or_false] at hs
  obtain rfl | rfl := hs <;> exact ⟨mayFireOf (by decide +kernel), ⟨_, rfl, rfl, rfl⟩, overOf (by decide +kernel), by decide +kernel⟩

/-- The second element of `unpk`, an element of a started `agen`, the end of a `vin` and of an unlinked `const`. -/
theorem witness_FiringRules_later :
    (MayFire (firingState (elemWord 15 0 2 5) [] [0] [0] 0x80 1) 15 0 0 ∧ (posAt (firingState (elemWord 15 0 2 5) [] [0] [0] 0x80 1) 0 0).s1 ≠ 0) ∧
    (MayFire (firingState (elemWord 17 0 5 0) [] [0, 1] [0] 5 3 1) 17 0 0 ∧
      (posAt (firingState (elemWord 17 0 5 0) [] [0, 1] [0] 5 3 1) 0 0).s2.getLsbD 0 = true) ∧
    (MayFire (endingState (elemWord 30 0 0 15) [] [] [0]) 30 0 0 ∧
      ∃ x r, ((endingState (elemWord 30 0 0 15) [] [] [0]).tile 0).ctx.fabric.inQueue 15 = x :: r ∧ x.kind = .eos) ∧
    MayFire (firingState (elemWord 32 0 5 0 (some 7)) [] [] [0] 1) 32 0 0 ∧ linkedIn (firingState (elemWord 32 0 5 0 (some 7)) [] [] [0] 1) 0 0 = [] ∧
      (posAt (firingState (elemWord 32 0 5 0 (some 7)) [] [] [0] 1) 0 0).hasEnded 3 = false ∧
      (posAt (firingState (elemWord 32 0 5 0 (some 7)) [] [] [0] 1) 0 0).s0 = 1 :=
  ⟨⟨mayFireOf (by decide +kernel), by decide⟩, ⟨mayFireOf (by decide +kernel), rfl⟩, ⟨mayFireOf (by decide +kernel), _, _, rfl, rfl⟩,
    mayFireOf (by decide +kernel), by decide +kernel, by decide +kernel, rfl⟩

theorem witness_FiringRules : (∀ q ∈ ruleStates, MayFire q.2 q.1 0 0) ∧
    (∀ q ∈ ruleStates, ∀ i ∈ linkedIn q.2 0 0, ∀ x, sfind (posAt q.2 0 0).ins i = some x → x.kind = .data) ∧
    (isectLate (posAt (firingState (elemWord 24 0 0x0C 0) [(0, 5), (1, 5)] [0, 1] [0, 1, 2]) 0 0) 0 5 = false) ∧
    (∃ x r, ((firingState (elemWord 30 0 0 15) [] [] [0]).tile 0).ctx.fabric.inQueue 15 = x :: r ∧ x.kind = .data) ∧
    (linkedIn (firingState (elemWord 32 0 5 0 (some 7)) [] [] [0]) 0 0 = [] ∧
      (posAt (firingState (elemWord 32 0 5 0 (some 7)) [] [] [0]) 0 0).hasEnded 3 = false) := by
  refine ⟨fun q hq => ?_, fun q hq => ?_, by decide +kernel, ⟨_, _, rfl, rfl⟩, by decide +kernel, by decide +kernel⟩
  · simp only [ruleStates, List.mem_cons, List.not_mem_nil, or_false] at hq
    obtain rfl | rfl | rfl | rfl | rfl | rfl | rfl | rfl | rfl | rfl | rfl | rfl | rfl | rfl := hq <;> exact mayFireOf (by decide +kernel)
  · have h : ruleStates.all (fun q => (posAt q.2 0 0).ins.all fun x => decide (x.2.kind = .data)) = true := by decide +kernel
    intro i _ x hx
    have h1 := List.all_eq_true.1 (List.all_eq_true.1 h q hq)
    have hm : ∀ (l : SMap Token), sfind l i = some x → (i, x) ∈ l := by
      intro l hl
      induction l with
      | nil => cases hl
      | cons p r ih =>
        obtain ⟨j, y⟩ := p
        simp only [sfind] at hl
        split at hl
        · next e => cases hl; subst e; exact List.mem_cons_self ..
        · exact List.mem_cons_of_mem _ (ih hl)
    exact of_decide_eq_true (h1 _ (hm _ hx))

end Sys2Proof.Tests
end

