-- ==== Sys2Proof/Tests/Streams.lean ====
section
/-! SUPPORT. Witnesses: for each statement about streams, channels, loops, counters, launches and stripes, states that meet its hypotheses,
clause by clause. -/

set_option Elab.async false

open Sys2Proof Sys2Proof.Machine Sys2Proof.Spec

namespace Sys2Proof.Tests

/-- A state with 64-bit words in memory from address `a` on. -/
def withWords (s : State) (a : Nat) (ws : List Nat) : State := { s with mem := cellsPut s.mem a (ws.flatMap (natLe 8)) }

/-! ### Streams -/

/-- The lead strand with an open record at 0x8000, named by s1: a range of memory, of the scratchpad, or none, as KIND asks; channel 31 is
enabled. -/
def opening (w2 : Nat) : State :=
  withWords (lead [(1, 0x8000)] { streams := [(2, padStream)], chans := [(31, { entry := 0x1400005 })] }) 0x8000
    (if w2 % 8 = 0 then [0x9000, 2 ^ 32 + 0x1000, w2, 0] else if w2 % 8 = 1 then [0xFE00000000000000, 2 ^ 32 + 0x1000, w2, 0] else [0, 0, w2, 0])

theorem streamFree {s : State} {k : Nat} (h1 : s.enginesBusy = false) (h2 : s.curTile.queue = []) : StreamFree s k :=
  ⟨h1, fun e he => by rw [h2] at he; cases he⟩

/-- Records of KIND 0, 1, 3 and 4 without a policy for a closed register; a memory record under a policy; an open register; a record with
KIND 7. -/
theorem witness_StreamRegisters :
    (∀ w2 ∈ [0x10, 0x9, 11 + 2 ^ 7 * 31, 0x14], StreamFree (opening w2) 15 ∧ ((opening w2).curTile.stream 15).isOpen = false ∧
      ∃ r s1, readRecord ((opening w2).reg 1) 32 32 .either (opening w2) = .ok r s1 ∧
        (openRecordLegal r && openRecordClass r && rword r 2 == w2 && rword r 2 / 2 ^ 5 % 4 == 0 &&
          (rword r 2 % 8 != 4 || (s1.tile (rword r 2 / 2 ^ 16 % 2 ^ 10)).part == s1.curTile.part) &&
          (rword r 2 % 8 != 3 || (s1.curTile.chan (rword r 2 / 2 ^ 7 % 2 ^ 5)).enabled)) = true) ∧
    (StreamFree (opening 0x50) 15 ∧ ∃ r s1, readRecord ((opening 0x50).reg 1) 32 32 .either (opening 0x50) = .ok r s1 ∧
        (openRecordLegal r && openRecordClass r && rword r 2 % 8 == 0 && (openStream r).pol != 0 && (openStream r).ext != 0 &&
          (registerRange s1.ct 15 (openStream r) s1.nextRid
            { s1.setCurTile (s1.curTile.setStream 15 { openStream r with rid := some s1.nextRid }) with nextRid := s1.nextRid + 1 }).isSome) = true) ∧
    (StreamFree (opening 0x9) 2 ∧ ((opening 0x9).curTile.stream 2).isOpen = true) ∧
    (StreamFree (opening 0x7) 15 ∧ ∃ r s1, readRecord ((opening 0x7).reg 1) 32 32 .either (opening 0x7) = .ok r s1 ∧ (!openRecordLegal r) = true) := by
  refine ⟨fun w2 h => ?_, ⟨streamFree rfl rfl, endsWell (fun r s1 => openRecordLegal r && openRecordClass r && rword r 2 % 8 == 0 && (openStream r).pol != 0 && (openStream r).ext != 0 &&
          (registerRange s1.ct 15 (openStream r) s1.nextRid
            { s1.setCurTile (s1.curTile.setStream 15 { openStream r with rid := some s1.nextRid }) with nextRid := s1.nextRid + 1 }).isSome)
      (by decide +kernel)⟩,
   ⟨streamFree rfl rfl, rfl⟩, streamFree rfl rfl, endsWell (fun r _ => !openRecordLegal r) (by decide +kernel)⟩
  simp only [List.mem_cons, List.not_mem_nil, or_false] at h
  obtain rfl | rfl | rfl | rfl := h <;>
    exact ⟨streamFree rfl rfl, rfl, endsWell (fun r s1 => openRecordLegal r && openRecordClass r && rword r 2 == _ && rword r 2 / 2 ^ 5 % 4 == 0 &&
          (rword r 2 % 8 != 4 || (s1.tile (rword r 2 / 2 ^ 16 % 2 ^ 10)).part == s1.curTile.part) &&
          (rword r 2 % 8 != 3 || (s1.curTile.chan (rword r 2 / 2 ^ 7 % 2 ^ 5)).enabled)) (by decide +kernel)⟩

/-! ### Channels -/

/-- An element. -/
def elem0 : Element := { pay := 5, seq := 0xFFFF, ch := 31, dtile := 0, stile := 0, cc := 0 }

/-- Channel 31 enabled with one element, 30 enabled and empty; a send stream in register 2; s1 names 64 free bytes, s2 an entry of depth
64, s3 one of depth 65. -/
def channels : State :=
  lead [(1, 0x8000), (2, 0x1400005), (3, 0x1410005)]
    { chans := [(30, { entry := 0x1400005 }), (31, { entry := 0x1400005, queue := [elem0] })]
      streams := [(2, { isOpen := true, kind := 4, intent := 2, dtile := 1 })] }

theorem storeFaultsOf {ea : Word} {s : State} (h : (match storeFaults ea s with | .ok _ _ => true | .error _ _ => false) = true) :
    ∃ w, storeFaults ea s = .ok w s := by
  have (x : EStateM.Result Exit State Unit) :
      (match (match x with | .error (.trap tr) _ => throw (.trap tr) | .error (.wait _) _ => pure true | .ok _ _ => pure false : M Bool) s with
        | .ok _ _ => true | .error _ _ => false) = true →
      ∃ w, (match x with | .error (.trap tr) _ => throw (.trap tr) | .error (.wait _) _ => pure true | .ok _ _ => pure false : M Bool) s = .ok w s := by
    intro h
    match x with
    | .ok .. => exact ⟨false, rfl⟩
    | .error (.wait _) _ => exact ⟨true, rfl⟩
    | .error (.trap _) _ => cases h
  exact this _ h

theorem witness_Channels : channels.enginesBusy = false ∧ entryLegal (channels.reg 2).toNat channels.strandTop = true ∧
    entryLegal (channels.reg 3).toNat channels.strandTop = false ∧
    (bindingKey (channels.curTile.chan 31).entry = bindingKey (channels.reg 2) ∧ bindingKey (channels.curTile.chan 0).entry ≠ bindingKey (channels.reg 2)) ∧
    ((channels.curTile.stream 2).isOpen = true ∧ (channels.curTile.stream 2).kind = 4 ∧ (channels.curTile.stream 2).hw = none ∧
      ∃ ws s1, readRecord (channels.reg 1) 64 64 .either channels = .ok ws s1 ∧ true = true) ∧
    (channels.curTile.stream 0).isOpen = false ∧
    (∃ w, storeFaults (channels.reg 1) channels = .ok w channels) ∧
    (∃ ps s1, recordPlaces (channels.reg 1) 64 64 .write .either channels = .ok ps s1 ∧
      (match putPlaces ps ((List.range 8).map fun k => fld elem0.pay (64 * k) 64) s1 with | .ok _ _ => true | .error _ _ => false) = true) ∧
    (channels.curTile.chan 0).enabled = false ∧ ((channels.curTile.chan 30).enabled = true ∧ (channels.curTile.chan 30).queue = []) ∧
    ((channels.curTile.chan 31).enabled = true ∧ (channels.curTile.chan 31).queue = [elem0] ∧ (channels.curTile.chan 31).withheld = none) :=
  ⟨rfl, by decide +kernel, by decide +kernel, ⟨by decide +kernel, by decide +kernel⟩, ⟨rfl, rfl, rfl, endsWell (fun _ _ => true) (by decide +kernel)⟩, rfl,
    storeFaultsOf (by decide +kernel), endsWell (fun ps s1 => match putPlaces ps ((List.range 8).map fun k => fld elem0.pay (64 * k) 64) s1 with | .ok _ _ => true | .error _ _ => false)
      (by decide +kernel), by decide +kernel, ⟨by decide +kernel, rfl⟩, by decide +kernel, rfl, rfl⟩

/-! ### Draught loops -/

/-- Loop 15 on channel 31 with the longest period; KP and KI as given; its producer is slot 0 of tile 0 and its consumer slot 1. -/
def loopW0 (kp ki : Nat) : Nat := 15 + 2 ^ 4 * 31 + 2 ^ 13 * 4096 + 2 ^ 26 * 8 + 2 ^ 33 * kp + 2 ^ 37 * ki + 2 ^ 41 * 4
def loopW1 : Nat := 1 + 2 ^ 8 * 255 + 2 ^ 33 * 1

def looping (kp ki : Nat) : State :=
  withWords (lead [(1, 0x8000)] { chans := [(31, { entry := 0x1400005, queue := [elem0] })]
                                  loops := [(15, { bound := true, w0 := BitVec.ofNat 64 (loopW0 8 1), w1 := BitVec.ofNat 64 loopW1 })] })
    0x8000 [loopW0 kp ki, loopW1]

theorem witness_DraughtLoops :
    ((looping 8 1).enginesBusy = false ∧ ∃ r s1, readRecord ((looping 8 1).reg 1) 16 16 .either (looping 8 1) = .ok r s1 ∧
      (rword r 0 % 16 == 15 && loopRecLegal s1 s1.ct s1.strandTop (rword r 0) (rword r 1) &&
        stable (otherLoops s1 s1.ct [15]) s1.ct (loopRec (rword r 0) (rword r 1))) = true) ∧
    (∃ r s1, readRecord ((looping 15 15).reg 1) 16 16 .either (looping 15 15) = .ok r s1 ∧
      (rword r 0 % 16 == 15 && loopRecLegal s1 s1.ct s1.strandTop (rword r 0) (rword r 1) &&
        !stable (otherLoops s1 s1.ct [15]) s1.ct (loopRec (rword r 0) (rword r 1))) = true) ∧
    (((looping 8 1).tile 0).still = false ∧ (((looping 8 1).tile 0).loop 15).samples = true ∧
      (((looping 8 1).tile 0).loop 15).record.wmin ≤ (((looping 8 1).tile 0).loop 15).record.wmax) ∧
    ∃ s : State, s.rates = [{ ptile := 0, ctile := 0, loop := 15, gen := 0, weight := 255 }] ∧ (s.tile 0).halted = false :=
  ⟨⟨rfl, endsWell (fun r s1 => rword r 0 % 16 == 15 && loopRecLegal s1 s1.ct s1.strandTop (rword r 0) (rword r 1) &&
        stable (otherLoops s1 s1.ct [15]) s1.ct (loopRec (rword r 0) (rword r 1))) (by decide +kernel)⟩,
   endsWell (fun r s1 => rword r 0 % 16 == 15 && loopRecLegal s1 s1.ct s1.strandTop (rword r 0) (rword r 1) &&
        !stable (otherLoops s1 s1.ct [15]) s1.ct (loopRec (rword r 0) (rword r 1))) (by decide +kernel),
   ⟨by decide +kernel, by decide +kernel, by decide +kernel⟩,
   { looping 8 1 with rates := [{ ptile := 0, ctile := 0, loop := 15, gen := 0, weight := 255 }] }, rfl, by decide +kernel⟩

/-! ### Counters -/

/-- s1 names the live launch counter 0, s2 a stale one, s3 job counter 1023, s4 is 1; the counters given are cancelled or reached. -/
def counting (v : Counter) : State :=
  { lead [(1, 0), (2, 0x5000), (3, 0xFFF), (4, 1)] {} with parts := [(0, { placePartition with counters := [(0, v)] })] }

theorem witness_Counters :
    (NamesCounter (counting { live := true }) 1 0 ∧ NamesCounter (counting { live := true }) 2 0x5000 ∧ NamesCounter (counting { live := true }) 3 0xFFF) ∧
    (counting { live := true }).enginesBusy = false ∧
    ¬ (fld (0 : BitVec 20) 10 2 < 2 ∧ (sget {} ((counting { live := true }).partition 0).counters 0).gen ≠ BitVec.ofNat 8 (fld (0 : BitVec 20) 12 8)) ∧
    (fld (0x5000 : BitVec 20) 10 2 < 2 ∧ (sget {} ((counting { live := true }).partition 0).counters 0).gen ≠ BitVec.ofNat 8 (fld (0x5000 : BitVec 20) 12 8)) ∧
    2 ≤ fld (0xFFF : BitVec 20) 10 2 ∧ (sget {} ((counting { live := true, can := true }).partition 0).counters 0).can = true ∧
    ((counting { live := true, exited := 1 }).reg 4).toNat ≤ (sget {} ((counting { live := true, exited := 1 }).partition 0).counters 0).exited ∧
    ¬ ((counting { live := true }).reg 4).toNat ≤ (sget {} ((counting { live := true }).partition 0).counters 0).exited ∧
    ((counting { live := true }).partition 0).graphs = [] :=
  ⟨⟨⟨rfl, by decide⟩, ⟨rfl, by decide⟩, ⟨rfl, by decide⟩⟩, rfl, by decide +kernel, by decide +kernel, by decide, rfl, by decide +kernel, by decide +kernel, rfl⟩

/-! ### Launches -/

/-- A launch record at 0x8000 for tile 0, with STRIPES and FIRST as given; s1 names it and s2 is 1. -/
def launching (first stripes count : Nat) : State :=
  withWords (lead [(1, 0x8000), (2, 1), (3, 0x80000000)] { chans := [(31, { entry := 0x1400005, queue := [elem0] })] })
    0x8000 ([0x10000, 0, first + 2 ^ 10 * count, stripes, 7] ++ List.replicate 43 0)

/-- A graph of one node at 0x9000, whose launch record stands at 0x8000. -/
def arming : State := withWords (launching 0 1 1 |>.setCur { strand [(1, 0x9000), (2, 1)] with }) 0x9000 [0x101, 0, 0, 0, 0x8000, 0]

theorem witness_Launches :
    ((launching 0 1 1).enginesBusy = false ∧ ∃ w s1, readRecord ((launching 0 1 1).reg 1) 384 64 .either (launching 0 1 1) = .ok w s1 ∧
      (launchRecLegal s1 0 w && launchRecPlaced s1 0 (launchRec w) false && (launchTooBig s1 (launchRec w)).isNone &&
        (freeCounter (s1.partition 0) 0 (s1.partition 0).lastLaunch).isSome) = true) ∧
    (∃ w s1, readRecord ((launching 0 1 0).reg 1) 384 64 .either (launching 0 1 0) = .ok w s1 ∧ (!launchRecLegal s1 0 w) = true) ∧
    (∃ w s1, readRecord ((launching 1 1 1).reg 1) 384 64 .either (launching 1 1 1) = .ok w s1 ∧
      (launchRecLegal s1 0 w && !launchRecPlaced s1 0 (launchRec w) false) = true) ∧
    (∃ w s1, readRecord ((launching 0 1536 1).reg 1) 384 64 .either { launching 0 1536 1 with opcur := 3, tiles := sput (launching 0 1536 1).tiles 0 { (launching 0 1536 1).tile 0 with fails := [(3, BitVec.ofNat 1600 (2 ^ 65 - 1))] } } = .ok w s1 ∧
      (launchRecLegal s1 0 w && launchRecPlaced s1 0 (launchRec w) false && (launchTooBig s1 (launchRec w)).isSome) = true) ∧
    (∃ t1, gsqArm 1 2 arming = .ok () t1 ∧ true = true) ∧
    (∃ m, (lead [] {}).isSupervisor 0 0 = false ∧ (lead [] {}).curTile.team = some m ∧ m.contributed = false ∧ operationsDone (lead [] {}) true = true ∧
      operationsDone (lead [] {}) false = true ∧ (lead [] {}).curTile.part.isSome = true) ∧
    ((supervisor []).isSupervisor (supervisor []).ct (supervisor []).cs = true ∧ (supervisor []).enginesBusy = false) ∧
    ((launching 0 1 1).reg 3 ≠ 0 ∧ ((launching 0 1 1).reg 3).toNat < 2 ^ 32 ∧ ((launching 0 1 1).reg 3).getLsbD 31 = true ∧
      ((launching 0 1 1).curTile.chan 31).ready 0 = true) ∧
    ¬ ∃ k, k < 32 ∧ ((launching 0 1 1).reg 2).getLsbD k = true ∧ ((launching 0 1 1).curTile.chan k).ready 0 = true := by
  refine ⟨⟨rfl, endsWell (fun w s1 => launchRecLegal s1 0 w && launchRecPlaced s1 0 (launchRec w) false && (launchTooBig s1 (launchRec w)).isNone &&
        (freeCounter (s1.partition 0) 0 (s1.partition 0).lastLaunch).isSome) (by decide +kernel)⟩,
    endsWell (fun w s1 => !launchRecLegal s1 0 w) (by decide +kernel),
    endsWell (fun w s1 => launchRecLegal s1 0 w && !launchRecPlaced s1 0 (launchRec w) false) (by decide +kernel),
    endsWell (fun w s1 => launchRecLegal s1 0 w && launchRecPlaced s1 0 (launchRec w) false && (launchTooBig s1 (launchRec w)).isSome) (by decide +kernel),
    ?_, ⟨_, rfl, rfl, rfl, rfl, rfl, rfl⟩, ⟨by decide +kernel, rfl⟩, ⟨by decide +kernel, by decide +kernel, by decide +kernel, by decide +kernel⟩, ?_⟩
  · obtain ⟨a, t, h⟩ := endsWell (m := gsqArm 1 2) (s := arming) (fun _ _ => true) (by decide +kernel)
    exact ⟨t, h⟩
  · rintro ⟨k, hk, h1, h2⟩
    have : ∀ k < 32, ¬ (((launching 0 1 1).reg 2).getLsbD k = true ∧ ((launching 0 1 1).curTile.chan k).ready 0 = true) := by decide +kernel
    exact this k hk ⟨h1, h2⟩

/-! ### Ranges, stripes and points -/

/-- A copy runs on the stripe that `spfree` would free. -/
def copyHeld : State := lead [(4, 0x1000), (5, 1)] { copying with copies := copying.copies.map fun q => (q.1, { q.2 with spa := 0x1000 }) }

/-- Stripe 2 is free; s1 names pool 0, s2 asks for 1,534 stripes, s3 for one more, s4 is the offset of the region that `spfree` frees. -/
def stripes : State :=
  let s := lead [(1, 0), (2, 3141632), (3, 3141633), (4, 0x1000), (5, 1), (6, 4)] {}
  pooled (s.setTile 0 { s.tile 0 with regions := [{ base := 0, stripes := 2, owner := .launch 0, footprint := true }, { base := 2, stripes := 1, owner := .launch 0, footprint := false }] }) 1 1

/-- Line 0x100 of the pool table, or line 0x2000, under reservations `n` of another tile. -/
def otherReserves (line n : Nat) (s : State) : State :=
  { s with resv := (List.range n).map fun i =>
      { rid := 100 + i, owner := 1, st := 0, part := 0, slice := line / 16 % 4, lo := 128 * line, hi := 128 * line + 128, vlo := 128 * line, down := false
        write := true, pol := 1, state := .granted, cut := 128 * line } }

/-- A request that the pool answers, and one that waits for its words. -/
theorem witness_RangesAndStripes_served :
    (∀ w, (rangeServe stripes stripes.curPart (stripes.reg 1).toNat stripes.agent).2 ≠ .held w) ∧
    ∃ w, (rangeServe (otherReserves 0x100 1 stripes) stripes.curPart (stripes.reg 1).toNat stripes.agent).2 = .held w := by
  refine ⟨fun w h => ?_, ?_⟩
  · have : (rangeServe stripes stripes.curPart (stripes.reg 1).toNat stripes.agent).2 = .token 0 (2 ^ 32 + 8) none := by decide +kernel
    rw [this] at h; cases h
  · have h : (match (rangeServe (otherReserves 0x100 1 stripes) stripes.curPart (stripes.reg 1).toNat stripes.agent).2 with | .held _ => true | _ => false) = true := by
      decide +kernel
    generalize (rangeServe (otherReserves 0x100 1 stripes) stripes.curPart (stripes.reg 1).toNat stripes.agent).2 = v at h
    cases v with
    | held w => exact ⟨w, rfl⟩
    | _ => cases h

/-- A memory record under a policy while the partition's share of entries at a slice is in use. -/
theorem witness_StreamRegisters_share : StreamFree (otherReserves 0x2020 128 (opening 0x50)) 15 ∧
    ∃ r s1, readRecord ((opening 0x50).reg 1) 32 32 .either (otherReserves 0x2020 128 (opening 0x50)) = .ok r s1 ∧
      (openRecordLegal r && openRecordClass r && rword r 2 % 8 == 0 && (openStream r).pol != 0 && (openStream r).ext != 0 &&
        (registerRange s1.ct 15 (openStream r) s1.nextRid
          { s1.setCurTile (s1.curTile.setStream 15 { openStream r with rid := some s1.nextRid }) with nextRid := s1.nextRid + 1 }).isNone) = true :=
  ⟨streamFree rfl rfl, endsWell (fun r s1 => openRecordLegal r && openRecordClass r && rword r 2 % 8 == 0 && (openStream r).pol != 0 && (openStream r).ext != 0 &&
        (registerRange s1.ct 15 (openStream r) s1.nextRid
          { s1.setCurTile (s1.curTile.setStream 15 { openStream r with rid := some s1.nextRid }) with nextRid := s1.nextRid + 1 }).isNone) (by decide +kernel)⟩

/-- A record of KIND 1 whose address lies in memory. -/
theorem witness_StreamRegisters_class :
    let s := withWords (lead [(1, 0x8000)] {}) 0x8000 [0x9000, 2 ^ 32 + 0x1000, 0x9, 0]
    StreamFree s 15 ∧ (s.curTile.stream 15).isOpen = false ∧ ∃ r s1, readRecord (s.reg 1) 32 32 .either s = .ok r s1 ∧
      (openRecordLegal r && !openRecordClass r) = true :=
  ⟨streamFree rfl rfl, rfl, endsWell (fun r _ => openRecordLegal r && !openRecordClass r) (by decide +kernel)⟩

theorem witness_RangesAndStripes :
    (stripes.enginesBusy = false ∧ (stripes.reg 1).toNat < 256 ∧ lighterRequest stripes stripes.curPart (stripes.reg 1).toNat stripes.ct [] = none) ∧
    ((lead [(2, 3141632)] {}).reg 2 ≠ 0 ∧ (∃ o, (lead [(2, 3141632)] {}).owner = some o) ∧ (3141632 + 2047) / 2048 = 1534 ∧ 1534 ≤ 1536 ∧
      lowestRun (lead [(2, 3141632)] {}) [0] 1534 = some 2) ∧
    ((stripes.reg 3 ≠ 0) ∧ lowestRun stripes [stripes.ct] 1535 = none) ∧
    (∀ r ∈ stripes.curTile.regions, ¬ (2048 * r.base = (stripes.reg 1).toNat ∧ r.stripes = ((stripes.reg 5).toNat + 2047) / 2048 ∧ r.footprint = false ∧
      stripes.owner = some r.owner)) ∧
    ((∃ r ∈ stripes.curTile.regions, 2048 * r.base = (stripes.reg 4).toNat ∧ r.stripes = ((stripes.reg 5).toNat + 2047) / 2048 ∧ r.footprint = false ∧
      stripes.owner = some r.owner) ∧ copyTouches stripes stripes.ct 0x1000 2048 = false ∧
      pinners stripes stripes.ct 0x1000 2048 = []) ∧
    (copyTouches copyHeld copyHeld.ct (copyHeld.reg 4).toNat 2048 = true) ∧
    ((stripes.reg 5).toNat ≤ 3 ∧ 3 < (stripes.reg 6).toNat ∧ stripes.isSupervisor 0 0 = false) ∧
    ((supervisor [(1, 0), (2, 3)]).isSupervisor 0 7 = true ∧ (supervisor [(1, 0), (2, 3)]).cur.state = .runnable ∧
      ((supervisor [(1, 0), (2, 3)]).reg 1).toNat = (supervisor [(1, 0), (2, 3)]).opcur.toNat ∧ (supervisor [(1, 0), (2, 3)]).opStep = none ∧
      floorAllows (supervisor [(1, 0), (2, 3)]) 3 = false) ∧
    ∃ s : State, floorAllows s 3 = true ∧ s.opStep = none ∧ s.isSupervisor s.ct s.cs = true ∧ (s.reg 2).toNat = 3 ∧ s.cur.state = .runnable := by
  refine ⟨⟨rfl, by decide +kernel, by decide +kernel⟩, ⟨by decide +kernel, ⟨_, rfl⟩, rfl, by decide, by decide +kernel⟩, ⟨by decide +kernel, by decide +kernel⟩,
    by decide +kernel, ⟨by decide +kernel, by decide +kernel, by decide +kernel⟩, by decide +kernel, ⟨by decide +kernel, by decide +kernel, rfl⟩,
    ⟨by decide +kernel, rfl, by decide +kernel, rfl, by decide +kernel⟩,
    { supervisor [(2, 3)] with parts := [(0, { placePartition with sup := some 0, record := placePartition.record ||| BitVec.ofNat 2048 (3 * 2 ^ 24) })] }, ?_⟩
  exact ⟨by decide +kernel, rfl, by decide +kernel, by decide +kernel, rfl⟩

end Sys2Proof.Tests
end

