-- ==== Sys2Proof/Tests/Events.lean ====
section
/-! SUPPORT. Witnesses: for each statement about the device's own events, states that meet its hypotheses, clause by clause. -/

set_option Elab.async false

open Sys2Proof Sys2Proof.Machine Sys2Proof.Spec

namespace Sys2Proof.Tests

/-! ### Strands -/

/-- The helper strand of slot 1 as given. -/
def helperAs (y : Strand) : State := device { team := some team0, ctx := { strands := [(1, y)] } }

/-- The lead strand with one entry in its queue. -/
def queued (op : EngOp) (e : EntryState) (regs : SMap Word) (c : Ctx) : State :=
  device { team := some team0, regions := [{ base := 0, stripes := 2, owner := .launch 0, footprint := true }]
           queue := [{ op := op, pc := 0x10000, regs := regs, view := c.av, state := e }]
           ctx := { c with strands := [(0, strand regs)] } }

/-- A supervisor strand that has halted; one held notice, with its ring at address 0. -/
def supervised : State :=
  { device { ctx := { strands := [(7, { strand [] with state := .halted })] } } with
    parts := [(0, { placePartition with sup := some 0, notices := [(1, 2, 3, 4)] })] }

theorem probeAt {s : State} {p va : Nat} {acc : Access}
    (h : (match probe s p va acc with | .ok l => decide (l = leaf0) | .error _ => false) = true) : probe s p va acc = .ok leaf0 := by
  cases e : probe s p va acc with
  | ok l => rw [e] at h; exact congrArg _ (of_decide_eq_true h)
  | error f => rw [e] at h; cases h

theorem probeFaults {s : State} {p va : Nat} {acc : Access} {c : BitVec 8}
    (h : (match probe s p va acc with | .ok _ => false | .error f => decide (f.cause = c)) = true) : ∃ f, probe s p va acc = .error f ∧ f.cause = c := by
  cases e : probe s p va acc with
  | ok l => rw [e] at h; cases h
  | error f => rw [e] at h; exact ⟨f, rfl, of_decide_eq_true h⟩

/-- The helper of slot 1 stands at a boundary. -/
theorem boundary {y : Strand} (h : y.state = .runnable) : AtBoundary (helperAs y) 0 1 := by
  refine ⟨rfl, h, rfl, (fun _ h => nomatch h), ?_⟩
  show (y.posting && false) = false
  rw [Bool.and_false]

theorem takes {y : Strand} (h : (decide (y.state = .runnable) && !y.h && decide (y.tvec ≠ 0)) = true) : TakesTraps (helperAs y) 0 1 := by
  simp only [Bool.and_eq_true, Bool.not_eq_true', decide_eq_true_eq] at h
  exact ⟨boundary h.1.1, h.1.2, h.2⟩

/-- A trap pending; a counter outside memory, and one past 48 bits; an `mwait` whose limit is the present cycle; a runnable strand of age 64
and of age 63; a cancel with a handler and without one. -/
theorem witness_StrandEvents_delivery :
    (let s := helperAs { strand [] with traps := [{ cause := cMCHK }] };
      TakesTraps s 0 1 ∧ (s.strandOf 0 1).traps = [{ cause := cMCHK }] ∧ cMCHK ≠ cWALK) ∧
    (let s := helperAs { strand [] with pc := 0x40000000 };
      (s.tile 0).still = false ∧ TakesTraps s 0 1 ∧ (s.strandOf 0 1).state = .runnable ∧ (s.tile 0).entriesOf 1 = [] ∧
      (s.strandOf 0 1).pc.toNat < 2 ^ 48 ∧ (∃ tr s', fetchWord 0 1 s = .error (.trap tr) s') ∧
      ∃ f, probe s 0 (s.strandOf 0 1).pc.toNat .fetch = .error f ∧ f.cause = cPAGE ∧ cPAGE ≠ cWALK) ∧
    (let s := helperAs { strand [] with pc := 0x1000000000000 };
      TakesTraps s 0 1 ∧ 2 ^ 48 ≤ (s.strandOf 0 1).pc.toNat) ∧
    (let s := helperAs { strand [] with state := .waiting (.mwait 31 (some 0)) };
      (s.tile 0).still = false ∧ (s.strandOf 0 1).state = .waiting (.mwait 31 (some 0)) ∧ 0 ≤ s.cyc) ∧
    (((helperAs { strand [] with age := 64 }).strandOf 0 1).state = .runnable ∧ 64 ≤ ((helperAs { strand [] with age := 64 }).strandOf 0 1).age ∧
      ((helperAs { strand [] with age := 63 }).strandOf 0 1).age < 64) ∧
    (let s := helperAs { strand [] with cancels := [7] }; TakesTraps s 0 1 ∧ (s.strandOf 0 1).cancels = [7]) ∧
    ∀ y ∈ [{ strand [] with cancels := [7], h := true }, { strand [] with cancels := [7], tvec := 0 }],
      AtBoundary (helperAs y) 0 1 ∧ y.cancels = [7] ∧ (y.h = true ∨ y.tvec = 0) := by
  refine ⟨⟨takes rfl, rfl, by decide⟩, ⟨rfl, takes rfl, rfl, rfl, by decide, ?_, ?_⟩, ⟨takes rfl, by decide⟩, ⟨rfl, rfl, by decide⟩,
    ⟨rfl, by decide, by decide⟩, ⟨takes rfl, rfl⟩, fun y hy => ?_⟩
  · obtain ⟨tr, s', h, -⟩ := traps (m := fetchWord 0 1) (s := helperAs { strand [] with pc := 0x40000000 }) (fun _ => true) (by decide +kernel)
    exact ⟨tr, s', h⟩
  · obtain ⟨f, h, c⟩ := probeFaults (s := helperAs { strand [] with pc := 0x40000000 }) (p := 0) (va := 0x40000000) (acc := .fetch) (c := cPAGE)
      (by decide +kernel)
    exact ⟨f, h, c, by decide⟩
  · simp only [List.mem_cons, List.not_mem_nil, or_false] at hy
    obtain rfl | rfl := hy
    · exact ⟨boundary rfl, rfl, .inl rfl⟩
    · exact ⟨boundary rfl, rfl, .inr rfl⟩

theorem witness_StrandEvents_supervisor :
    ((supervised.partition 0).sup = some 0 ∧ (supervised.strandOf 0 7).state = .halted ∧ (supervised.tile 0).fenced = false ∧
      (supervised.partition 0).pre = .running ∧ (supervised.partition 0).abandoned = false ∧ (supervised.partition 0).restarts = []) ∧
    (let s := { supervised with parts := [(0, { placePartition with sup := some 0, restarts := List.replicate 16 0 })] };
      (s.partition 0).sup = some 0 ∧ (s.tile 0).fenced = false ∧ (s.strandOf 0 7).state = .halted ∧ (s.partition 0).pre = .running ∧
      16 ≤ ((s.partition 0).restarts.filter fun c => decide (s.cyc < c + clockOf s.opcur.toNat * 10 ^ 6)).length) ∧
    (Canonical supervised ∧ (supervised.partition 0).noteWatch = none ∧ (0 + 2 ^ 32 - 0) % 2 ^ 32 ≠ 1024 ∧ (supervised.partition 0).notices = [(1, 2, 3, 4)] ∧ supervised.resv = [] ∧ WritableAt supervised 0 32768 32768 ∧ WritableAt supervised 0 32772 32772 ∧
      WritableAt supervised 0 0 0 ∧ TablesApart supervised 0 32768 0 32 ∧ (supervised.partition 0).word 9 % 2 ^ 48 = 0 ∧
      number (cellGet supervised.mem) 32768 4 = 0 ∧ number (cellGet supervised.mem) 32772 4 = 0) :=
  ⟨⟨rfl, rfl, rfl, rfl, rfl, rfl⟩, ⟨rfl, rfl, rfl, rfl, by decide +kernel⟩, canonical_device { ctx := { strands := [(7, { strand [] with state := .halted })] } } rfl,
    rfl, by decide, rfl, rfl, ⟨leaf0, probeAt (by decide +kernel), by decide, by decide +kernel⟩,
    ⟨leaf0, probeAt (by decide +kernel), by decide, by decide +kernel⟩, ⟨leaf0, probeAt (by decide +kernel), by decide, by decide +kernel⟩,
    by unfold TablesApart; decide +kernel, by decide +kernel, by decide +kernel, by decide +kernel⟩

theorem finOf {s : State} {t : Nat} {e : Entry} (h : (match (entryPerf t [] e s).fin with | .done _ => true | _ => false) = true) :
    ∃ d, (entryPerf t [] e s).fin = .done d := by
  cases x : (entryPerf t [] e s).fin with
  | done d => exact ⟨d, rfl⟩
  | _ => rw [x] at h; cases h

theorem finTrap {s : State} {t : Nat} {e : Entry} (h : (match (entryPerf t [] e s).fin with | .trap _ _ => true | _ => false) = true) :
    ∃ n tr, (entryPerf t [] e s).fin = .trap n tr := by
  cases x : (entryPerf t [] e s).fin with
  | trap n tr => exact ⟨n, tr, rfl⟩
  | _ => rw [x] at h; cases h

theorem headWaits (op : EngOp) (regs : SMap Word) (c : Ctx) :
    HeadWaits (queued op .issued regs c) 0 { op := op, pc := 0x10000, regs := regs, view := c.av } [] := ⟨rfl, rfl, .inl rfl⟩

/-- A load through a closed register; an addition, an accumulator that is cleared, a copy by packet; an entry in execution and one that has
been performed. -/
theorem witness_StrandEvents_engine :
    (let s := queued (.load .unit 8 2 0) .issued [(2, 0x40000000)] { av := two };
      (∃ n tr, (entryPerf 0 [] { op := .load .unit 8 2 0, pc := 0x10000, regs := [(2, 0x40000000)], view := two } s).fin = .trap n tr) ∧
      maskHeld (s.tile 0).ctx (.load .unit 8 2 0) = false ∧ ((s.tile 0).stream 2).isOpen = false ∧ (s.strandOf 0 0).h = false ∧
      (s.strandOf 0 0).tvec ≠ 0 ∧ (s.strandOf 0 0).state = .runnable) ∧
    (let op := EngOp.arith .add 8 12 (.vec 16) 0;
      (∃ d, (entryPerf 0 [] { op := op, pc := 0x10000, regs := [], view := two } (queued op .issued [] { av := two })).fin = .done d) ∧
      op.queue = .vector ∧ registerOnly op = true ∧ maskHeld ((queued op .issued [] { av := two }).tile 0).ctx op = false) ∧
    (let op := EngOp.mzero 7;
      (∃ d, (entryPerf 0 [] { op := op, pc := 0x10000, regs := [], view := {} } (queued op .issued [] {})).fin = .done d) ∧ op.queue = .matrix ∧
      maskHeld ((queued op .issued [] {}).tile 0).ctx op = false ∧ fabricHoldsQ ((queued op .issued [] {}).tile 0).ctx.fabric 7 = false) ∧
    (let op := EngOp.xcopyQ 31 2;
      let e : Entry := { op := op, pc := 0x10000, regs := (packet.strandOf 0 0).regs, view := {} };
      let s := queued op .issued (packet.strandOf 0 0).regs {};
      (∃ d, (entryPerf 0 [] e s).fin = .done d) ∧ ∃ r n, packetCopyRec (e.reg 2) (e.reg 3) = some r ∧
        (copyTrap s 0 r = none ∧ r.empty = false ∧ nextCopySlot (s.tile 0).ctx = some n ∧ (r.out = true ∨ ((s.tile 0).ctx.xchan r.chan).state ≠ .busy))) ∧
    ((queued (.mzero 7) (.running 0) [] {}).tile 0).queue = [{ op := .mzero 7, pc := 0x10000, regs := [], view := {}, state := .running 0 }] ∧
    (((queued (.mzero 7) .performed [] {}).tile 0).still = false ∧
      ((queued (.mzero 7) .performed [] {}).tile 0).queue = [{ op := .mzero 7, pc := 0x10000, regs := [], view := {}, state := .performed }]) :=
  ⟨⟨finTrap (by decide +kernel), by decide +kernel, rfl, rfl, by decide, rfl⟩,
   ⟨finOf (by decide +kernel), rfl, rfl, by decide +kernel⟩, ⟨finOf (by decide +kernel), rfl, by decide +kernel, by decide +kernel⟩,
   ⟨finOf (by decide +kernel), _, 0, rfl, by decide +kernel, by decide +kernel, by decide +kernel, by decide +kernel⟩, rfl, rfl, rfl⟩

/-! ### Copies -/

/-- Tile 0 with the copy in slot 0 of `copying`, changed by `f`. -/
def copyOf (f : Copy → Copy) : State := lead [] { copying with copies := copying.copies.map fun q => (q.1, f q.2) }

/-- A page record with a reserved bit, for the second GiB. -/
def badPage (s : State) : State := { s with mem := cellPut s.mem 0x2008 3 }

theorem stepsOf {s : State} (h : (match copyStep 0 0 s with | .ok _ _ => true | _ => false) = true) : ∃ s1, copyStep 0 0 s = .ok () s1 := by
  cases e : copyStep 0 0 s with
  | ok a t => exact ⟨t, rfl⟩
  | error x t => rw [e] at h; cases h

/-- A copy into memory at address 0; its four units done; a destination page without a record, and one with a reserved bit; a copy that has
completed with its event not yet posted. -/
theorem witness_CopyEvents :
    (∀ f ∈ [fun c : Copy => c, fun c => { c with next := 4, ev := true }, fun c => { c with base := 0x40000000 }, fun c => { c with ev := true, state := .complete }],
      Keyed ((copyOf f).tile 0).ctx.copies ∧ ((copyOf f).tile 0).still = false ∧ (∀ e ∈ ((copyOf f).tile 0).queue, e.op.queue ≠ .transfer) ∧
      ((copyOf f).tile 0).ctx.deferred = [] ∧ ((copyOf f).tile 0).ctx.events.length < 64 ∧ ∃ c, sfind ((copyOf f).tile 0).ctx.copies 0 = some c) ∧
    (∃ c s1, sfind ((copyOf id).tile 0).ctx.copies 0 = some c ∧ c.state = .running ∧ c.finished = false ∧ copyStep 0 0 (copyOf id) = .ok () s1) ∧
    (∃ c, sfind ((copyOf fun c => { c with next := 4, ev := true }).tile 0).ctx.copies 0 = some c ∧ c.state = .running ∧ c.finished = true ∧ c.ev = true) ∧
    (∃ tr s1, copyStep 0 0 (copyOf fun c => { c with base := 0x40000000 }) = .error (.trap tr) s1 ∧ tr.cause = cPAGE) ∧
    (∃ tr s1, copyStep 0 0 (badPage (copyOf fun c => { c with base := 0x40000000 })) = .error (.trap tr) s1 ∧ tr.cause ≠ cPAGE) ∧
    (∃ c, sfind ((copyOf fun c => { c with ev := true, state := .complete }).tile 0).ctx.copies 0 = some c ∧ c.active = false ∧ c.ev = true) ∧
    (let s := lead [] { copying with copies := copying.copies.map fun q => (q.1, { q.2 with state := .complete }), deferred := [0] };
      (s.tile 0).ctx.deferred.head? = some 0 ∧ (s.tile 0).ctx.events.length < 64) := by
  refine ⟨fun f hf => ?_, ?_, ⟨_, rfl, rfl, by decide +kernel, rfl⟩, ?_, ?_, ⟨_, rfl, rfl, rfl⟩, rfl, by decide⟩
  · simp only [List.mem_cons, List.not_mem_nil, or_false] at hf
    obtain rfl | rfl | rfl | rfl := hf <;> exact ⟨List.pairwise_singleton .., rfl, (fun _ h => nomatch h), rfl, by decide, _, rfl⟩
  · obtain ⟨s1, h⟩ := stepsOf (s := copyOf id) (by decide +kernel)
    exact ⟨_, s1, rfl, rfl, by decide +kernel, h⟩
  · obtain ⟨tr, s', h, q⟩ := traps (m := copyStep 0 0) (s := copyOf fun c => { c with base := 0x40000000 }) (fun tr => tr.cause == cPAGE) (by decide +kernel)
    exact ⟨tr, s', h, by simpa using q⟩
  · obtain ⟨tr, s', h, q⟩ := traps (m := copyStep 0 0) (s := badPage (copyOf fun c => { c with base := 0x40000000 })) (fun tr => tr.cause != cPAGE)
      (by decide +kernel)
    exact ⟨tr, s', h, by simpa using q⟩

/-- A copy into the scratchpad from address 0, and one from the second GiB. -/
def copyIn (base : Nat) : State := copyOf fun c => { c with out := false, base := base }

theorem witness_CopyEvents_inward : ((copyIn 0).tile 0).still = false ∧ (∀ e ∈ ((copyIn 0).tile 0).queue, e.op.queue ≠ .transfer) ∧
    (∃ c, sfind ((copyIn 0).tile 0).ctx.copies 0 = some c ∧ c.state = .running ∧ c.finished = false ∧ c.out = false ∧
      c.record.memAt (c.next / c.record.e0) (c.next % c.record.e0) = 0 ∧ c.record.unitBytes ≤ 128 ∧ probe (copyIn 0) 0 0 .read = .ok leaf0 ∧
      ((copyIn 0).tile (spdTile 0 c.record.window c.record.position)).evicted = [] ∧
      (copyIn 0).resv = [] ∧ pinners (copyIn 0) (spdTile 0 c.record.window c.record.position)
        (c.record.spdAt (c.next / c.record.e0) (c.next % c.record.e0)) c.record.unitBytes = []) ∧
    ∃ c, sfind ((copyIn 0x40000000).tile 0).ctx.copies 0 = some c ∧ c.state = .running ∧ c.finished = false ∧ c.out = false ∧
      c.next % c.record.e0 < c.record.limit ∧ c.record.memAt (c.next / c.record.e0) (c.next % c.record.e0) = 0x40000000 ∧
      ((copyIn 0x40000000).tile (spdTile 0 c.record.window c.record.position)).evicted = [] ∧
      ∃ f, probe (copyIn 0x40000000) 0 0x40000000 .read = .error f ∧ f.cause = cPAGE :=
  ⟨rfl, (fun _ h => nomatch h), ⟨_, rfl, rfl, by decide +kernel, rfl, by decide +kernel, by decide +kernel, probeAt (by decide +kernel), by decide +kernel, rfl, by decide +kernel⟩,
    _, rfl, rfl, by decide +kernel, rfl, by decide +kernel, by decide +kernel, by decide +kernel, probeFaults (by decide +kernel)⟩

/-! ### Teams -/

/-- Launch 5, after `before`, of one tile, 1, whose team has a helper, one stripe, and the image at `fcfg`: nothing of it has started. -/
def teamLaunch (fcfg : Word := 0) (before : List Launch := []) : State :=
  let ws : List Word := [0x10000, 0x20000, BitVec.ofNat 64 (1 + 1 * 2 ^ 10 + 2 ^ 22), 1, 0, 0, 0, 0, fcfg] ++ List.replicate 39 0
  { device {} with
    tiles := [(0, { part := some 0 }), (1, { part := some 0 })]
    parts := [(0, { placePartition with launches := before ++ [{ cid := 5, words := ws, arg := 9, pending := [1] }] })] }

theorem startsOf {l : Launch} {b : Nat} {s : State} {ts : List Nat} (h : (match startTeams l b s ts with | .ok _ => true | .error _ => false) = true) :
    ∃ z, startTeams l b s ts = .ok z := by
  cases e : startTeams l b s ts with
  | ok z => exact ⟨z, rfl⟩
  | error x => rw [e] at h; cases h

theorem startFails {l : Launch} {b : Nat} {s : State} {ts : List Nat} (h : (match startTeams l b s ts with | .error (_, .trap _) => true | _ => false) = true) :
    ∃ u tr, startTeams l b s ts = .error (u, .trap tr) := by
  rcases e : startTeams l b s ts with ⟨u, tr | w⟩ | z
  · exact ⟨u, tr, rfl⟩
  · rw [e] at h; cases h
  · rw [e] at h; cases h

/-- Tile 0 with a team whose lead has ended, and its helper as given. -/
def leadEnded (y : Strand) : State :=
  device { team := some team0, ctx := { strands := [(0, { strand [] with state := .ended }), (1, y)] } }

theorem witness_TeamEvents :
    (∃ l b, launchOf teamLaunch 0 5 = some l ∧ l.record.cs = false ∧ l.record.fcfg = 0 ∧ startBase teamLaunch 0 l 1 = some b ∧
      startsFirst teamLaunch 0 l 1 = true ∧ startGroup l 1 = [1] ∧ ∃ z, startTeams l b teamLaunch [1] = .ok z) ∧
    (∃ l b, launchOf (teamLaunch 0x40000000) 0 5 = some l ∧ startBase (teamLaunch 0x40000000) 0 l 1 = some b ∧
      startsFirst (teamLaunch 0x40000000) 0 l 1 = true ∧ startGroup l 1 = [1] ∧ ∃ u tr, startTeams l b (teamLaunch 0x40000000) [1] = .error (u, .trap tr)) ∧
    (let s := teamLaunch 0 [{ (launchOf teamLaunch 0 5).getD { cid := 5, words := [], arg := 0, pending := [] } with cid := 6 }];
      ∃ l b, launchOf s 0 5 = some l ∧ startBase s 0 l 1 = some b ∧ startsFirst s 0 l 1 = false) ∧
    (((leadEnded (strand [])).tile 0).team = some team0 ∧ (1 : BitVec 3).toNat ≤ team0.ns ∧ ((leadEnded (strand [])).strandOf 0 0).state = .ended) ∧
    (((leadEnded { strand [] with state := .ended }).tile 0).team = some team0 ∧ ((leadEnded { strand [] with state := .ended }).tile 0).part = some 0 ∧
      ((leadEnded { strand [] with state := .ended }).tile 0).still = false ∧ rollbackPending (leadEnded { strand [] with state := .ended }) 0 = false ∧
      ((leadEnded { strand [] with state := .ended }).tile 0).teamEnded = true ∧ ((leadEnded { strand [] with state := .ended }).tile 0).ctx.copies = []) ∧
    ((leadEnded (strand [])).strandOf 0 1).state ≠ .halted ∧
    (let s := device { team := some team0, regions := [{ base := 0, stripes := 2, owner := .launch 0, footprint := true }]
                       ctx := { copying with strands := [(0, { strand [] with state := .ended }), (1, { strand [] with state := .ended })] } };
      (s.tile 0).teamEnded = true ∧ (s.tile 0).saved = none ∧ (s.tile 0).backing = none ∧ Keyed (s.tile 0).ctx.copies ∧
      (s.tile 0).ctx.deferred = [] ∧ rollbackPending s 0 = false ∧
      (∃ q ∈ (s.tile 0).ctx.copies, q.2.state = .running ∧ q.2.cid = team0.cid) ∧ ∃ r ∈ (s.tile 0).regions, r.owner = .launch team0.cid) :=
  ⟨⟨_, 0, rfl, by decide +kernel, by decide +kernel, by decide +kernel, by decide +kernel, by decide +kernel, startsOf (by decide +kernel)⟩,
    ⟨_, 0, rfl, by decide +kernel, by decide +kernel, by decide +kernel, startFails (by decide +kernel)⟩, ⟨_, 0, rfl, by decide +kernel, by decide +kernel⟩,
    ⟨rfl, by decide, rfl⟩, ⟨rfl, rfl, rfl, by decide +kernel, by decide +kernel, rfl⟩, by decide,
    by decide +kernel, rfl, rfl, List.pairwise_singleton .., rfl, by decide +kernel, ⟨_, List.mem_singleton.2 rfl, rfl, rfl⟩, _, List.mem_singleton.2 rfl, rfl⟩

/-! ### The fabric, resolution watches, elements -/

/-- Element 5, an `add` with immediate 9 and no link, in a fabric that takes a new image in which it is a `sub`. -/
def turning : State := lead [] { fabric := { code := 5, image := { elems := [(5, elemWord 1 0 5 0 (some 9))] }
                                             pos := [(5, { word := elemWord 1 0 5 0 (some 9) })]
                                             next := some (0x8000, { elems := [(5, elemWord 2 0 5 0 (some 9))] }) } }

/-- Element 0, an `acc` fed by the loads 8 and 9, whose values of ordinal 0xFFFF both stand in the spill queue. -/
def late : State :=
  let m : Image := { elems := [(0, elemWord 35 0 5 0), (8, elemWord 18 0 5 3), (9, elemWord 18 0 5 3)], links := [inLink0 0, inLink0 1, outLink0 0] }
  lead [] { fabric := { code := 2, image := m
                        pos := [(0, { word := m.elem 0 }), (8, { word := m.elem 8, dv := true }), (9, { word := m.elem 9, dv := true })]
                        spill := [{ ea := 0x8000, opr := 5, parked := some (1, 7), src := 8, dst := 0, replayed := true, ord := 0xFFFF, gen := 0 }] } }

/-- A copy that waits for a table line which has been written; element `x` in flight from tile 3 to tile 0, with channel 31 as given. -/
def awaiting : State := { copyOf (fun c => { c with state := .suspended 0x40 }) with resWritten := [0x40], resWatches := [0x40] }
def arriving (c : Channel) (x : Element) : State := { lead [] { chans := [(31, c)] } with flight := [{ src := 3, dst := 0, elem := x }] }

/-- `elem0` with its carry code, as tile 3 sends it. -/
def sound : Element :=
  let x := { elem0 with stile := 3 }
  { x with cc := carryCode (elemTag x.dtile.toNat x.ch.toNat x.seq.toNat x.stile.toNat) (natLe 64 x.pay.toNat) }

theorem witness_FabricAndStreamEvents :
    ((turning.tile 0).still = false ∧ (turning.tile 0).ctx.fabric.code = 5 ∧
      (∃ a m, (turning.tile 0).ctx.fabric.next = some (a, m) ∧ m.elem 5 ≠ 0) ∧ mayTurn (turning.tile 0).ctx.fabric 5 (posAt turning 0 5) = true ∧
      (sfind (turning.tile 0).ctx.fabric.pos 5).isSome = true) ∧
    ((late.tile 0).still = false ∧ mayFire (late.tile 0).ctx.fabric 0 = true ∧ lateReady (late.tile 0).ctx.fabric 0 (posAt late 0 0) = some 0xFFFF ∧
      (late.tile 0).ctx.fabric.outsFree 0 (posAt late 0 0) = true ∧ gateOk (late.tile 0) 0 = true ∧
      (∀ n ∈ (late.tile 0).ctx.fabric.spill, n.again = false) ∧ eOp (posAt late 0 0).word = 35 ∧
      accessHeld (late.tile 0).ctx.fabric 0 (posAt late 0 0) 0 = false ∧
      ∃ s1 outs, compute 0 0 (posAt late 0 0) (lateValue (posAt late 0 0) (lateValues (late.tile 0).ctx.fabric 0 (posAt late 0 0) 0xFFFF) 0)
        (lateValue (posAt late 0 0) (lateValues (late.tile 0).ctx.fabric 0 (posAt late 0 0) 0xFFFF) 1) 0 late = .emit s1 outs) ∧
    (0x40 ∈ awaiting.resWritten ∧ (∀ x ∈ (awaiting.tile 0).queue, x.op.queue ≠ .transfer) ∧ (awaiting.tile 0).ctx.deferred = [] ∧
      ∃ c, sfind (awaiting.tile 0).ctx.copies 0 = some c ∧ c.state = .suspended 0x40 ∧ c.posting = false) ∧
    elem0.ccGood = false ∧ ((arriving {} elem0).tile 0).part = some 0 ∧
    ∀ q ∈ [({ entry := 0x1400005 } : Channel), { entry := 0x400005, queue := List.replicate 64 sound }, { entry := 0x1400005, queue := List.replicate 64 sound }, {}],
      (arriving q sound).flight = [{ src := 3, dst := 0, elem := sound }] ∧ (∀ m ∈ (arriving q sound).markers, ¬ (m.src = 3 ∧ m.dst = 0)) ∧
      ((arriving q sound).tile 0).saved = none ∧ ((arriving q sound).tile 0).backing = none ∧ sound.ccGood = true ∧
      ((q.enabled = true ∧ q.queue.length < q.depth) ∨ (q.enabled = true ∧ q.depth ≤ q.queue.length ∧ q.lossless = false) ∨
        (q.enabled = true ∧ q.depth ≤ q.queue.length ∧ q.lossless = true ∧ q.withheld = none) ∨ q.enabled = false) := by
  refine ⟨⟨rfl, rfl, ⟨_, _, rfl, by decide +kernel⟩, by decide +kernel, by decide +kernel⟩,
    ⟨rfl, by decide +kernel, by decide +kernel, by decide +kernel, by decide +kernel, by decide +kernel, by decide +kernel, by decide +kernel, emitsOf (by decide +kernel)⟩,
    ⟨by decide, (fun _ h => nomatch h), rfl, _, rfl, rfl, rfl⟩, by decide +kernel, rfl, fun q hq => ⟨rfl, (fun _ h => nomatch h), rfl, rfl, by decide +kernel, ?_⟩⟩
  simp only [List.mem_cons, List.not_mem_nil, or_false] at hq
  obtain rfl | rfl | rfl | rfl := hq <;> decide +kernel

/-! ### Coherence and reservations -/

/-- Tile 0 holds line 2^32 (peer memory) and tiles 1 and 2 hold it too; a strand watches it. -/
def sharing : State :=
  { helperAs { strand [] with watch := some (2 ^ 32) } with lines := [(2 ^ 32, [(0, .o), (1, .s), (2, .s)])] }

/-- A stream register of tile 0 with a reservation of a page, its position past the first 256 bytes, under the split policy. -/
def streaming : State :=
  lead [] { streams := [(15, { isOpen := true, intent := 3, pol := 2, addr := 0x9000, ext := 0x1000, es := 1, pos := 256, rid := some 7 })] }

/-- The entry of its page at slice 2. -/
def entry0 : ResEntry :=
  { rid := 7, owner := 0, st := 15, part := 0, slice := 2, lo := 0x9000, hi := 0xA000, vlo := 0x9000
    down := false, write := true, pol := 2, state := .granted, cut := 0x9000 }

def reservedBy (e : ResEntry) : State := { streaming with resv := [e], lines := [(0x120, [(0, .m)])] }

/-- Its tile cache is empty. -/
theorem reservedWay (e : ResEntry) (n : Nat) (h : e.owner = 0) : hasWay e.owner n (reservedBy e) = true := by
  have h1 : ((reservedBy e).tile 0).tc = [] := rfl
  have h2 : ((reservedBy e).tile 0).tcOff = 0 := rfl
  rw [h]
  unfold hasWay
  simp [h1, cacheFind, sget, Tile.tcWays, h2]
  exact ⟨0, by decide⟩

/-- The same with a release at address 0x2000 behind writes under the entry. -/
def released : State := { reservedBy entry0 with rels := [{ addr := 0x2000, tile := 0, scope := 3, size := 8, under := [7] }] }

theorem walkIs {s : State} {p va : Nat} (h : (match walk s p va with | .ok l => decide (l = leaf0) | .error _ => false) = true) :
    walk s p va = .ok leaf0 := by
  cases e : walk s p va with
  | ok l => rw [e] at h; exact congrArg _ (of_decide_eq_true h)
  | error f => rw [e] at h; cases h

theorem witness_CoherenceEvents :
    ((sharing.tile 0).still = false ∧ sharing.resv = [] ∧ sfind (sget [] sharing.lines (2 ^ 32)) 3 = none ∧ sget [] sharing.lines (2 ^ 32) ≠ [] ∧
      sget [] sharing.lines 5 = []) ∧
    (sfind (sget [] sharing.lines (2 ^ 32)) 0 = some .o ∧ Keyed (sget [] sharing.lines (2 ^ 32)) ∧ Keyed sharing.lines ∧
      ∃ y, sfind (sharing.tile 0).ctx.strands 1 = some y ∧ y.watch = some (2 ^ 32)) ∧
    (2 ^ 39 ≤ 2 ^ 32 * 128) ∧ (sharing.tile 5).team = none ∧
    (((streaming.tile 0).stream 15).rid = some 7 ∧ ((streaming.tile 0).stream 15).isOpen = true ∧ streaming.resv = [] ∧
      (streaming.partition 0).mig = none ∧ walk streaming 0 0x9000 = .ok leaf0 ∧ (0 < 0x1000 ∧ 0x9000 + 0x1000 ≤ 0x9000 / 2 ^ 30 * 2 ^ 30 + 2 ^ 30)) ∧
    (let va := Max.max (4096 * (9 : BitVec 36).toNat) 0x9000;
      va < 4096 * (9 : BitVec 36).toNat + 4096 ∧ va < 0x9000 + 0x1000 ∧ walk streaming 0 va = .ok leaf0) ∧
    (∀ e ∈ [entry0, { entry0 with state := .splitting, answer := some 0x9100 }, { entry0 with state := .releasing }],
      (reservedBy e).resv[0]? = some e ∧ e.lo < e.hi ∧ e.pol = 2 ∧ e.hi ≤ e.lo / 128 * 128 + 65536 ∧ (reservedBy e).resv = [e] ∧ (reservedBy e).dir.length + 512 ≤ 262144 ∧
      (∀ n, e.covers n = true → hasWay e.owner n (reservedBy e) = true) ∧ ∀ x ∈ (reservedBy e).resv, x.state ≠ .pending) ∧
    sfind (sget [] (reservedBy entry0).lines 0x120) 0 = some .m ∧
    (released.resv = [entry0] ∧ entry0.owner = 0 ∧ entry0.write = true ∧ entry0.state = .granted ∧
      ∃ r ∈ released.rels, r.tile = 0 ∧ overlaps (128 * 0x40) 128 r.addr r.size = true ∧ entry0.rid ∈ r.under) := by
  refine ⟨⟨rfl, rfl, by decide +kernel, by decide +kernel, by decide +kernel⟩,
    ⟨by decide +kernel, by unfold Keyed; decide +kernel, by unfold Keyed; decide +kernel, _, rfl, rfl⟩, by decide, rfl,
    ⟨rfl, rfl, rfl, rfl, walkIs (by decide +kernel), by decide, by decide⟩, ⟨by decide, by decide, walkIs (by decide +kernel)⟩, fun e he => ⟨rfl, ?_⟩, by decide +kernel,
    rfl, rfl, rfl, rfl, _, List.mem_singleton.2 rfl, rfl, by decide, by decide⟩
  simp only [List.mem_cons, List.not_mem_nil, or_false] at he
  obtain rfl | rfl | rfl := he <;> exact ⟨by decide, rfl, by decide, rfl, by decide, fun n _ => reservedWay _ n rfl, fun x hx => by simp only [reservedBy, List.mem_singleton] at hx; subst hx; exact (by decide)⟩

end Sys2Proof.Tests
end

