-- ==== Sys2Proof/Tests/Device.lean ====
section
/-! SUPPORT. Witnesses: for each statement about memory events, pre-emption, reliability, operating points, management and the invariant,
states that meet its hypotheses, clause by clause. -/

set_option Elab.async false

open Sys2Proof Sys2Proof.Machine Sys2Proof.Spec

namespace Sys2Proof.Tests

/-- A device whose tile 0 alone holds anything is in canonical form when its memory and that tile's scratchpad are. -/
theorem canonicalOf {s : State} {x : Tile} (h : s.tiles = [(0, x)]) (h1 : Memory.wf s.mem = true) (h2 : Memory.wf x.spd = true) : Canonical s := by
  refine ⟨h1, fun t => ?_⟩
  cases t with
  | zero => simp only [State.tile, h]; exact h2
  | succ n => simp only [State.tile, h]; rfl

/-! ### Memory -/

/-- The first GiB lent to device 7, which returns it or not; the GiB at 2^39 is a window on the pool; port 0 has trained. -/
def exposed (w : Option (List (BitVec 16))) : State :=
  { device {} with ports := [(0, 16)], lent := [{ base := 0, count := 1, borrowers := [7], awaited := w }]
                   windows := [{ base := 2 ^ 39, size := 2 ^ 30, cls := 2, dev := 7 }] }

/-- No link; an address off; the last word of a lent range; a window; a range being returned; what nothing exposes. -/
theorem witness_MemoryEvents_outside :
    (device {}).linkUp = false ∧ ((exposed none).linkUp = true ∧ (exposed none).resv = [] ∧ Canonical (exposed none)) ∧ 0x3F9 % 8 ≠ 0 ∧
    (outsideReach (exposed none) 0x3FFFFFF8 8 = true ∧ 0x3FFFFFF8 % 8 = 0) ∧
    (outsideReach (exposed none) (2 ^ 39) 8 = false ∧ beingRevoked (exposed none) (2 ^ 39) 8 = false ∧ inWindow (exposed none) (2 ^ 39) 8 = true ∧
      isRevoked (exposed none) (2 ^ 39) 8 = false) ∧
    ((exposed (some [7])).linkUp = true ∧ outsideReach (exposed (some [7])) 0x3F8 8 = false ∧ beingRevoked (exposed (some [7])) 0x3F8 8 = true) ∧
    (outsideReach (exposed none) 0x40000000 8 = false ∧ beingRevoked (exposed none) 0x40000000 8 = false ∧ ¬ 2 ^ 39 ≤ 0x40000000) :=
  ⟨by decide, ⟨by decide, rfl, canonical_device {} rfl⟩, by decide, ⟨by decide +kernel, by decide⟩, ⟨by decide +kernel, by decide +kernel, by decide +kernel, by decide +kernel⟩,
    ⟨by decide, by decide +kernel, by decide +kernel⟩, by decide +kernel, by decide +kernel, by decide⟩

/-- A mailbox at address 0 with the pages 0x10000 and `new`, and word 3; a migration with state `g` behind it. -/
def mailbox (new w3 : Nat) : State := withWords (device {}) 0 [0x10000, new, 0, w3]
def migrating (g : Migration) (w3 : Nat) : State := { mailbox 0x20000 w3 with parts := [(0, { placePartition with mig := some g })] }

theorem mailboxOf {s : State} {w : List Nat} (hc : Canonical s) (hr : s.resv = []) (hb : migBox (s.partition 0) = 0)
    (h1 : probe s 0 0 .read = .ok leaf0) (h2 : probe s 0 0 .write = .ok leaf0) (ha : TablesApart s 0 0 0 32)
    (hw : ∀ i < 4, number (cellGet s.mem) (0 + 8 * i) 8 = w.getD i 0) : Mailbox s 0 0 fun i => w.getD i 0 where
  canonical := hc
  free := hr
  aligned := by rw [hb]
  page := by rw [hb]; exact ⟨leaf0, h1, h2, by decide, by decide, leaf0_address _ _ _ (by decide)⟩
  apart := by rw [hb]; exact ha
  words := hw

/-- A request that is legal, and one for a page that does not stand at its size. -/
theorem witness_MemoryEvents_request : ∀ new ∈ [0x20000, 0x20001],
    Mailbox (mailbox new 1) 0 0 (fun i => [0x10000, new, 0, 1].getD i 0) ∧ ((mailbox new 1).partition 0).mig = none ∧
    ((mailbox new 1).partition 0).armSeen = false ∧ migLegal ((mailbox new 1).partition 0) 0x10000 new 0 1 = decide (new = 0x20000) := by
  intro new hn
  simp only [List.mem_cons, List.not_mem_nil, or_false] at hn
  obtain rfl | rfl := hn <;>
    exact ⟨mailboxOf (canonicalOf rfl (by decide +kernel) rfl) rfl (by decide +kernel) (probeAt (by decide +kernel)) (probeAt (by decide +kernel))
      (by unfold TablesApart; decide +kernel) (by decide +kernel), rfl, rfl, by decide +kernel⟩

/-- A migration that is armed; the first and the last line of one that copies; one whose new page is revoked, and one to a page of no class. -/
theorem witness_MemoryEvents_migration :
    (let s := migrating { old := 0x10000, new := 0x20000, size := 12 } 3
     Mailbox s 0 0 (fun i => [0x10000, 0x20000, 0, 3].getD i 0) ∧ (s.partition 0).mig = some { old := 0x10000, new := 0x20000, size := 12 }) ∧
    (∀ p ∈ [0, 0xF80], let g : Migration := { old := 0x10000, new := 0x20000, size := 12, ptr := p, phase := 2 }
     let s := migrating g 3
     Mailbox s 0 0 (fun i => [0x10000, 0x20000, 0, 3].getD i 0) ∧ (s.partition 0).mig = some g ∧ g.ptr < 2 ^ g.size ∧ g.ptr % 128 = 0 ∧
      TablesApart s 0 (migBox (s.partition 0)) g.old (2 ^ g.size) ∧ TablesApart s 0 (migBox (s.partition 0)) g.new (2 ^ g.size) ∧
      isRevoked s (g.old + g.ptr) 128 = false ∧ isRevoked s (g.new + g.ptr) 128 = false ∧
      (addressClass s (g.old + g.ptr)).isSome = true ∧ (addressClass s (g.new + g.ptr)).isSome = true ∧ 0 + 32 ≤ g.new + g.ptr) ∧
    (let g : Migration := { old := 0x10000, new := 0x80000000, size := 12, phase := 2 }
     let s := { migrating g 3 with revoked := [(0x80000000, 0x40000000)] }
     Mailbox s 0 0 (fun i => [0x10000, 0x20000, 0, 3].getD i 0) ∧ (s.partition 0).mig = some g ∧
      TablesApart s 0 (migBox (s.partition 0)) g.old (2 ^ g.size) ∧ TablesApart s 0 (migBox (s.partition 0)) g.new (2 ^ g.size) ∧
      isRevoked s (g.new + g.ptr) 128 = true) ∧
    (let g : Migration := { old := 0x10000, new := 2 ^ 40, size := 12, phase := 2 }
     let s := migrating g 3
     Mailbox s 0 0 (fun i => [0x10000, 0x20000, 0, 3].getD i 0) ∧ (s.partition 0).mig = some g ∧
      TablesApart s 0 (migBox (s.partition 0)) g.old (2 ^ g.size) ∧ TablesApart s 0 (migBox (s.partition 0)) g.new (2 ^ g.size) ∧
      isRevoked s (g.old + g.ptr) 128 = false ∧ isRevoked s (g.new + g.ptr) 128 = false ∧ addressClass s (g.new + g.ptr) = none) := by
  refine ⟨⟨mailboxOf (canonicalOf rfl (by decide +kernel) rfl) rfl (by decide +kernel) (probeAt (by decide +kernel)) (probeAt (by decide +kernel))
      (by unfold TablesApart; decide +kernel) (by decide +kernel), rfl⟩, fun p hp => ?_,
    ⟨mailboxOf (canonicalOf rfl (by decide +kernel) rfl) rfl (by decide +kernel) (probeAt (by decide +kernel)) (probeAt (by decide +kernel))
      (by unfold TablesApart; decide +kernel) (by decide +kernel), rfl, by unfold TablesApart; decide +kernel, by unfold TablesApart; decide +kernel, by decide +kernel⟩,
    ⟨mailboxOf (canonicalOf rfl (by decide +kernel) rfl) rfl (by decide +kernel) (probeAt (by decide +kernel)) (probeAt (by decide +kernel))
      (by unfold TablesApart; decide +kernel) (by decide +kernel), rfl, by unfold TablesApart; decide +kernel, by unfold TablesApart; decide +kernel, by decide +kernel,
      by decide +kernel, by decide +kernel⟩⟩
  simp only [List.mem_cons, List.not_mem_nil, or_false] at hp
  obtain rfl | rfl := hp <;>
    exact ⟨mailboxOf (canonicalOf rfl (by decide +kernel) rfl) rfl (by decide +kernel) (probeAt (by decide +kernel)) (probeAt (by decide +kernel))
      (by unfold TablesApart; decide +kernel) (by decide +kernel), rfl, by decide, by decide, by unfold TablesApart; decide +kernel, by unfold TablesApart; decide +kernel,
      by decide +kernel, by decide +kernel, by decide +kernel, by decide +kernel, by decide⟩

theorem witness_MemoryEvents_pool :
    let x : Partition := { ranging.partition 0 with reopened := [0], accounts := [(0, [(5, 7)])] }
    0 ∈ x.reopened ∧ 1 ∉ x.reopened ∧ Keyed x.accounts ∧ ∃ l, probe ranging 0 ((ranging.partition 0).word 11 % 2 ^ 48 + 16) .read = .ok l :=
  ⟨by decide, by decide, List.pairwise_singleton .., _, probeAt (by decide +kernel)⟩

/-! ### Pre-emption and snapshots -/

/-- The device in a stage of pre-emption, tile 0 as given; its backing area stands at 1 MiB. -/
def staged (pre : PreState) (x : Tile) : State :=
  { device x with parts := [(0, { placePartition with pre := pre, record := placePartition.record ||| BitVec.ofNat 2048 (0x100000 * 2 ^ 768) })] }

/-- A halted tile that holds `n` stripes, with its context saved or not, stripes `ev` in the backing area. -/
def halted (c : Option Ctx) (n : Nat := 1) (ev : List Nat := []) : Tile :=
  { halted := true, saved := c, evicted := ev, regions := [{ base := 0, stripes := n, owner := .launch 0, footprint := true }] }

theorem mcFree_device (x : Tile) : McFree (device x) :=
  ⟨rfl, rfl, fun p hp => by simp only [device, List.mem_singleton] at hp; subst hp; exact ⟨by decide, by decide⟩, fun _ h => nomatch h⟩

theorem mcFree_saved (x : Tile) : McFree (staged .saved x) :=
  ⟨rfl, rfl, fun p hp => by simp only [staged, List.mem_singleton] at hp; subst hp; exact ⟨by decide, by decide⟩, fun _ h => nomatch h⟩

/-- A partition that runs, one that is not set up, one that is saved, one in a downward step; tiles that fit and one that does not. -/
theorem witness_PreemptionEvents_commands :
    (McFree (device {}) ∧ ((device {}).partition 0).sup.isSome = true ∧ ((device {}).partition 0).pre = .running ∧ ((device {}).partition 15).sup = none) ∧
    (∀ n, McFree (staged .saved (halted none n)) ∧ ((staged .saved (halted none n)).partition 0).sup.isSome = true ∧
      ((staged .saved (halted none n)).partition 0).pre = .saved ∧ steppingDown (staged .saved (halted none n)) = false) ∧
    ((partTiles (staged .saved (halted none)) 0).all (stripesFit (staged .saved (halted none))) = true ∧
      (partTiles (staged .saved (halted none 1537)) 0).all (stripesFit (staged .saved (halted none 1537))) = false) ∧
    (McFree { staged .saved (halted none) with opStep := some { target := 3 } } ∧
      steppingDown { staged .saved (halted none) with opStep := some { target := 3 } } = true) :=
  ⟨⟨mcFree_device _, rfl, rfl, rfl⟩, fun n => ⟨mcFree_saved _, rfl, rfl, rfl⟩, ⟨by decide +kernel, by decide +kernel⟩, mcFree_saved (halted none), by decide +kernel⟩

/-- A tile that halts; a halted one to save; a saved one, and one in the backing area, to restore. -/
theorem witness_PreemptionEvents :
    (((staged .halting {}).tile 0).part = some 0 ∧ ((staged .halting {}).partition 0).pre = .halting ∧ ((staged .halting {}).tile 0).still = false ∧
      rollbackPending (staged .halting {}) 0 = false ∧ ((staged .halting {}).tile 0).queue = []) ∧
    (((staged .saved (halted none)).tile 0).halted = true ∧ ((staged .saved (halted none)).tile 0).saved = none ∧
      ((staged .saved (halted none)).tile 0).backing = none) ∧
    ∀ x ∈ [halted (some {}), { halted none with backing := some {} }],
      ((staged .resuming x).tile 0).saved.or ((staged .resuming x).tile 0).backing = some {} ∧ ((staged .resuming x).tile 0).halted = true ∧
      ((staged .resuming x).partition 0).pre = .resuming ∧ ((staged .resuming x).tile 0).queue = [] ∧ rollbackPending (staged .resuming x) 0 = false := by
  refine ⟨⟨rfl, rfl, rfl, by decide +kernel, rfl⟩, ⟨rfl, rfl, rfl⟩, fun x hx => ?_⟩
  simp only [List.mem_cons, List.not_mem_nil, or_false] at hx
  obtain rfl | rfl := hx <;> exact ⟨rfl, rfl, rfl, rfl, by decide +kernel⟩

/-- A walk that ends at a leaf of the first GiB reads the same two lines for every address below it. -/
theorem lines_low {s : State} {p va node a b : Nat} (hv : va < 2 ^ 30) (h : walkedLines s p 0 4 node = [a, b]) : walkedLines s p va 4 node = [a, b] := by
  have f3 : fieldOf va (12 + 9 * 3) 9 = fieldOf 0 (12 + 9 * 3) 9 := by simp only [fieldOf]; omega
  have f2 : fieldOf va (12 + 9 * 2) 9 = fieldOf 0 (12 + 9 * 2) 9 := by simp only [fieldOf]; omega
  rw [walkedLines, walkedLines] at h ⊢
  rw [f3, f2]
  split at h
  · rename_i c1
    rw [if_pos c1]
    split at h
    · rw [walkedLines] at h
      exact absurd (congrArg List.length h) (by simp)
    · rename_i c2
      rw [if_neg c2]
      exact h
  · exact absurd (congrArg List.length h) (by simp)

/-- Words from `va` on, below 1 GiB and past the tables, that can be written. -/
theorem wordsLow {s : State} {p va n : Nat} (hc : Canonical s) (hr : s.resv = []) (hp : probe s p 0 .write = .ok leaf0)
    (hl : walkedLines s p 0 4 ((s.partition p).word 5 / 2 ^ 12 % 2 ^ 44 * 4096) = [0x20, 0x40]) (h1 : 0x3000 ≤ va) (h2 : va + 8 * n ≤ 2 ^ 30) :
    WordsWritable s p va n fun i => va + 8 * i where
  canonical := hc
  free := hr
  writable := fun i hi => ⟨leaf0, Laws.probe_low (by omega) hp (by decide), by decide, leaf0_address _ _ _ (by omega)⟩
  apart := fun i hi j hj x hx => by
    rw [lines_low (by omega) hl] at hx
    simp only [List.mem_cons, List.not_mem_nil, or_false] at hx
    omega
  disjoint := fun i hi j hj => by omega

theorem canonical_staged (pre : PreState) (x : Tile) (h : Memory.wf x.spd = true) : Canonical (staged pre x) := canonical_device x h

/-- Stripe 0 goes to the backing area, and comes back from it; a context goes there. -/
theorem witness_PreemptionEvents_backing :
    (let s := staged .saved (halted none)
     (s.partition 0).pre = .saved ∧ (s.tile 0).halted = true ∧ (s.tile 0).stripeTaken 0 = true ∧ 0 ∉ (s.tile 0).evicted ∧
      backingBase s 0 0 = 0x100000 ∧ ∃ pa, WordsWritable s 0 (backingBase s 0 0 + 0x100000 + 2048 * 0) 256 pa) ∧
    (let s := staged .running { evicted := [0] }
     (s.tile 0).still = false ∧ 0 ∈ (s.tile 0).evicted ∧ s.resv = [] ∧ Canonical s ∧
      ∀ i < 256, ReadableAt s 0 (backingBase s 0 0 + 0x100000 + 2048 * 0 + 8 * i) (0x200000 + 8 * i)) ∧
    (let s := staged .saved (halted (some {}))
     (s.tile 0).saved = some {} ∧ (s.tile 0).backing = none ∧ ∃ pa, WordsWritable s 0 (backingBase s 0 0) (ctxWords {}).length pa) := by
  have hb : ∀ pre x, x.part = none → backingBase (staged pre x) 0 0 = 0x100000 := fun pre x _ => by
    have h : partTiles (staged pre x) 0 = [0] := rfl
    unfold backingBase
    rw [h]
    show fieldOf ((staged .running {}).partition 0 |>.word 12) 0 48 + _ = _
    decide +kernel
  have hlen : (ctxWords {}).length = 16384 := by decide +kernel
  refine ⟨⟨rfl, rfl, by decide +kernel, by decide, hb _ _ rfl, _, wordsLow (canonical_staged _ _ rfl) rfl (probeAt (by decide +kernel)) (by decide +kernel) ?_ ?_⟩,
    ⟨rfl, by decide, rfl, canonical_staged _ _ rfl, fun i hi => ?_⟩, rfl, rfl, _,
    wordsLow (canonical_staged _ _ rfl) rfl (probeAt (by decide +kernel)) (by decide +kernel) ?_ ?_⟩
  · rw [hb _ _ rfl]; decide
  · rw [hb _ _ rfl]; decide
  · rw [hb _ _ rfl]
    exact ⟨leaf0, Laws.probe_low (by omega) (probeAt (by decide +kernel)) (by decide), by decide, leaf0_address _ _ _ (by omega)⟩
  · rw [hb _ _ rfl]; decide
  · rw [hb _ _ rfl, hlen]; decide

/-- Tile 0 with wave 0x8000 at the one position of its running fabric. -/
def waved : State := lead [] { fabric := { code := 2, pos := [(63, { mark := some 0x8000 })] } }
/-- A marker notice from tile 5 to tile 0. -/
def noticed : State := { device {} with markers := [{ src := 5, dst := 0, wave := 9 }] }

theorem witness_PreemptionEvents_waves :
    (noticed.markers = [{ src := 5, dst := 0, wave := 9, ahead := 0 }]) ∧
    ((waved.tile 0).team = some team0 ∧ (waved.tile 0).part = some 0 ∧ dueWave waved 0 = some 0x8000 ∧ (waved.tile 0).still = false ∧
      rollbackPending waved 0 = false) :=
  ⟨rfl, rfl, rfl, by decide +kernel, rfl, by decide +kernel⟩

/-! ### Reliability -/

/-- A runnable supervisor strand on a tile without a team. -/
def alone : State := supervisor []

/-- Tile 0 is to roll back to wave 9, of which it holds the snapshot, or does not; the same without a team. -/
def rolling (m : Option Team) (snaps : List (BitVec 16 × Ctx)) : State :=
  { device { team := m, rollback := some (1, 0x8000), wave := some 9, snaps := snaps, ctx := { strands := [(0, strand [])] } } with
    parts := [(0, { placePartition with waves := [(0, 0, 9)] })] }

theorem witness_ReliabilityEvents :
    ((alone.tile 0).team = none ∧ (alone.tile 0).saved = none ∧ (alone.tile 0).backing = none ∧ (alone.strandOf 0 7).state = .runnable ∧
      (alone.tile 0).part = some 0) ∧
    (∀ l ∈ [[(9, {})], []], ((rolling (some team0) l).tile 0).rollback = some (1, 0x8000) ∧ ((rolling (some team0) l).tile 0).team = some team0 ∧
      ((rolling (some team0) l).tile 0).part = some 0 ∧ regionWave (rolling (some team0) l) 0 = some 9 ∧
      rollbackOk (rolling (some team0) l) 0 9 = decide (l ≠ [])) ∧
    (((rolling none []).tile 0).rollback = some (1, 0x8000) ∧ ((rolling none []).tile 0).part = some 0 ∧ ((rolling none []).tile 0).team = none) ∧
    ((8 : BitVec 4).toNat ≤ 8 ∧ 8 < (9 : BitVec 4).toNat ∧
      (let s := device { ctx := { strands := [(0, strand [])] } }; (s.tile 0).team = none ∧ (s.strandOf 0 0).state = .runnable)) ∧
    (∃ p, ownerOf alone (64 * 5) = some p) ∧
    (∃ l ∈ (teamLaunch.partition 0).launches, 1 ∈ l.pending ∧ (teamLaunch.partition 0).graphs = [] ∧ (teamLaunch.partition 0).stale l.cid = false ∧
      (teamLaunch.tile 1).part = some 0) ∧
    Keyed alone.ports := by
  refine ⟨⟨rfl, rfl, rfl, rfl, rfl⟩, fun l hl => ?_, ⟨rfl, rfl, rfl⟩, ⟨by decide, by decide, rfl, rfl⟩, ⟨0, by decide +kernel⟩,
    ⟨_, List.mem_cons_self .., by decide, rfl, by decide +kernel, rfl⟩, List.Pairwise.nil⟩
  simp only [List.mem_cons, List.not_mem_nil, or_false] at hl
  obtain rfl | rfl := hl <;> exact ⟨rfl, rfl, rfl, by decide +kernel, by decide +kernel⟩

/-! ### Operating points -/

/-- A step from point `p` in progress, with no tile in use; with tile 0 as given. -/
def stepping (p : BitVec 2) (o : OpStep) : State := { opcur := p, opBusy := true, opStep := some o }
def pointing (p : BitVec 2) (o : OpStep) (x : Tile := {}) : State := { device x with opcur := p, opBusy := true, opStep := some o }

theorem workingAll (x : Tile) (h : sget 0 x.fails 0 = 0) : x.working 0 = List.range 1600 :=
  List.filter_eq_self.2 fun a _ => by rw [Tile.stripeWorks, h]; simp

/-- Every tile but tile 0 has acknowledged. -/
def lastAck : OpStep := { target := 3, acked := (List.range 1024).filter (· != 0) }

/-- The first acknowledgement; the last one, with a tile whose footprint fits and with one whose footprint does not; a stripe to move; the
ways to empty; clocks and ramps, downward and upward; a step that is not ready, and one that is; a tile that is in use, and a free one. -/
theorem witness_PointEvents :
    ((pointing 0 { target := 3 }).opcur.toNat < 3 ∧ (3 : Nat) ∉ ({ target := 3 } : OpStep).acked ∧ ∃ u < 1024, u ≠ 3 ∧ u ∉ ({ target := 3 } : OpStep).acked) ∧
    ((0 : Nat) ∉ lastAck.acked ∧ (∀ u < 1024, u ≠ 0 → u ∈ lastAck.acked) ∧
      (∀ q ∈ (pointing 0 lastAck (halted none)).tiles, q.2.extent ≤ q.2.capAt lastAck.target) ∧
      ∃ q ∈ (pointing 0 lastAck { halted none with fails := [(3, BitVec.allOnes 1600)] }).tiles, q.2.capAt lastAck.target < q.2.extent) ∧
    (let x := (pointing 0 { target := 3, checked := true } { fails := [(3, 1)] }).tile 0; x.nextMove 3 (x.capAt 3) = some 0 ∧ 1599 ∈ x.working 3 ∧
      ∀ l' < x.capAt 3, l' ≠ 0 → x.physical l' ≠ 1599) ∧
    ((pointing 0 { target := 3, checked := true }).resv = [] ∧ Keyed (pointing 0 { target := 3, checked := true }).lines ∧
      ∀ n, Keyed (sget [] (pointing 0 { target := 3, checked := true }).lines n)) ∧
    clockDue { target := 3, checked := true } (stepping 0 { target := 3, checked := true }) = true ∧
    clockDue { target := 0, ramp := true } (stepping 3 { target := 0, ramp := true }) = true ∧
    rampDue { target := 3, checked := true, clock := true } (stepping 0 { target := 3, checked := true, clock := true }) = true ∧
    rampDue { target := 0 } (stepping 3 { target := 0 }) = true ∧
    tilesReady { target := 3, checked := true } (pointing 0 { target := 3, checked := true } { fails := [(3, 1)] }) = false ∧
    (let o : OpStep := { target := 3, checked := true, clock := true, ramp := true }; clockDue o (stepping 0 o) = false ∧ (3 : Nat) ≤ 3 ∧
      tilesReady o (stepping 0 o) = true) ∧
    (((device (halted none)).tile 0).regions ≠ [] ∧ ((device { team := some team0 }).tile 0).team.isSome = true ∧ ((device {}).tile 0).team = none ∧
      ((device {}).tile 0).regions = [] ∧ (device {}).resv = []) := by
  have ha : ∀ u, u ∈ lastAck.acked ↔ u < 1024 ∧ u ≠ 0 := fun u => by simp [lastAck]
  refine ⟨⟨by decide, by decide, 4, by decide, by decide, by decide⟩, ⟨fun h => ((ha 0).1 h).2 rfl, fun u hu h => (ha u).2 ⟨hu, h⟩, ?_, ?_⟩,
    ⟨by decide +kernel, by decide +kernel, ?_⟩, ⟨rfl, List.Pairwise.nil, fun n => List.Pairwise.nil⟩, by decide +kernel, by decide +kernel,
    by decide +kernel, by decide +kernel, by decide +kernel, ⟨by decide +kernel, by decide, by decide +kernel⟩, by decide, rfl, rfl, rfl, rfl⟩
  · have h : (device (halted none)).tiles.all (fun q => decide (q.2.extent ≤ q.2.capAt 3)) = true := by decide +kernel
    exact fun q hq => of_decide_eq_true (List.all_eq_true.1 h q hq)
  · exact ⟨_, List.mem_singleton.2 rfl, by decide +kernel⟩
  intro l hl _ he
  have h1 : ((pointing 0 { target := 3, checked := true } { fails := [(3, 1)] }).tile 0).capAt 3 = 1536 := by decide +kernel
  rw [h1] at hl
  simp only [Tile.physical, workingAll _ (by rfl : sget 0 ((pointing 0 { target := 3, checked := true } { fails := [(3, 1)] }).tile 0).fails 0 = 0),
    show ((pointing 0 { target := 3, checked := true } { fails := [(3, 1)] }).tile 0).remap = [] from rfl, sfind, Option.getD_none, List.getD_eq_getElem?_getD,
    List.getElem?_range (show l < 1600 by omega), Option.getD_some] at he
  omega

/-! ### Management -/

/-- No partition. -/
def bare : State := {}
/-- `placeRecord` for partition 15 with ROOT not aligned. -/
def badRecord : BitVec 2048 := placeRecord ||| BitVec.ofNat 2048 (2 ^ 320)

/-- The last GiB of HBM lent to these borrowers. -/
def lending (ds : List (BitVec 16)) : State := { lent := [{ base := 511, count := 1, borrowers := ds }] }

theorem witness_ManagementCommands :
    (McFree bare ∧ bare.opBusy = false ∧ recordLegal badRecord = false ∧ recordLegal placeRecord = true ∧ recordInUse bare placeRecord = false ∧
      bare.parts = [] ∧ bare.opcur.toNat ≤ fld placeRecord 24 2 ∧ bare.resv = [] ∧ bare.lines = []) ∧
    (McFree { bare with opBusy := true } ∧ { bare with opBusy := true }.opBusy = true) ∧
    (McFree alone ∧ alone.opBusy = false ∧ recordInUse alone placeRecord = true ∧ (alone.partition 0).sup.isSome = true ∧ (alone.partition 15).sup = none) ∧
    (bare.lent = [] ∧ (1 : BitVec 26) ≠ 0 ∧ (511 : BitVec 26).toNat + (1 : BitVec 26).toNat ≤ 512 ∧ (List.replicate 16 (1 : BitVec 16)).length ≤ 16) ∧
    (∀ ds, McFree (lending ds) ∧ (lending ds).lent = [{ base := (511 : BitVec 26).toNat, count := (1 : BitVec 26).toNat, borrowers := ds }]) ∧
    (∀ l ∈ bare.lent, ¬ (l.base = 511 ∧ l.count = 1)) ∧
    ((∀ q ∈ bare.parts, q.2.sup = none) ∧ configLegal [BitVec.ofNat 128 (512 + 2 ^ 32 + 2 ^ 64)] 4000 6 = true ∧ configLegal [] 50001 0 = false ∧
      configLegal [] 3999 0 = false ∧ configLegal [] 50000 7 = false) ∧
    McFree { { bare with recovery := true } with recovery := false } ∧ { bare with recovery := true }.recovery = true ∧
    ((staged .halting {}).recovery = false ∧ mcBusy (staged .halting {}) = true) ∧ Keyed bare.tiles :=
  ⟨⟨⟨rfl, rfl, by decide +kernel, by decide +kernel⟩, rfl, by decide +kernel, by decide +kernel, by decide +kernel, rfl, by decide +kernel, rfl, rfl⟩,
   ⟨⟨rfl, rfl, by decide +kernel, by decide +kernel⟩, rfl⟩,
   ⟨⟨rfl, rfl, by decide +kernel, by decide +kernel⟩, rfl, by decide +kernel, rfl, rfl⟩,
   ⟨rfl, by decide, by decide, by decide⟩, fun ds => ⟨⟨rfl, rfl, (fun _ h => nomatch h), fun l h => by simp only [lending, List.mem_singleton] at h; subst h; rfl⟩, rfl⟩,
   by decide +kernel, ⟨by decide +kernel, by decide +kernel, by decide +kernel, by decide +kernel, by decide +kernel⟩,
   ⟨rfl, rfl, by decide +kernel, by decide +kernel⟩, rfl, ⟨rfl, by decide +kernel⟩, List.Pairwise.nil⟩

/-- A range whose revocation awaits these devices. -/
def revoking (ds : List (BitVec 16)) : State := { lent := [{ base := 511, count := 1, borrowers := [7, 8], awaited := some ds }] }

theorem witness_Revocation :
    ((revoking [7]).lent = [{ base := 511, count := 1, borrowers := [7, 8], awaited := some [7] }]) ∧
    ((revoking [7, 8]).lent = [{ base := 511, count := 1, borrowers := [7, 8], awaited := some [7, 8] }] ∧ (7 : BitVec 16) ∈ [7, 8] ∧ (9 : BitVec 16) ∉ [7, 8] ∧
      ∃ e ∈ [(7 : BitVec 16), 8], e ≠ 7) ∧
    ∃ l, (lending [7]).lent = [l] ∧ l.awaited = none :=
  ⟨rfl, ⟨rfl, by decide, by decide, 8, by decide, by decide⟩, _, rfl, rfl⟩

/-! ### The invariant -/

theorem nextOf {s : State} (h : (match step s with | .next _ => true | _ => false) = true) : ∃ t, step s = .next t := by
  cases e : step s with
  | next t => exact ⟨t, rfl⟩
  | _ => rw [e] at h; cases h

/-- A canonical state, with bytes in memory and a scratchpad, that has a next state. -/
theorem witness_StepsKeepCanonical : ∃ s t, Canonical s ∧ s.mem ≠ [] ∧ (s.tile 0).spd ≠ [] ∧ step s = .next t := by
  obtain ⟨t, h⟩ := nextOf (s := { device { team := some team0, spd := [(5, 1)], ctx := { strands := [(0, strand [])] } } with agenda := [.issue 0 false] })
    (by decide +kernel)
  exact ⟨_, t, canonicalOf rfl (by decide +kernel) (by decide +kernel), by decide +kernel, by decide, h⟩

end Sys2Proof.Tests
end

