-- ==== Sys2Proof/Tests/Save.lean ====
section
/-! SUPPORT. Witnesses: states in which `fsave` and `frest` end well; the area's 4,608 words are gone through by induction. -/

set_option Elab.async false

open Sys2Proof Sys2Proof.Machine Sys2Proof.Spec
namespace Sys2Proof.Tests

/-- An idle fabric, and 18 stripes to save it into, which hold an image without elements. -/
def saving : State :=
  device { team := some team0, regions := [{ base := 0, stripes := 18, owner := .launch 0, footprint := true }]
           ctx := { strands := [(0, strand [(1, 0xFE00000000000000)])] }, spd := [(0, 0xCF), (1, 1)] }

theorem word_address (i : Nat) (h : i < 4608) :
    (0xFE00000000000000 + BitVec.ofNat 64 (8 * i) : Word).toNat = 0xFE00000000000000 + 8 * i := by
  rw [BitVec.toNat_add, BitVec.toNat_ofNat]; simp; omega

theorem word_class (x : Word) (i : Nat) (h : i < 4608) (e : x.toNat = 0xFE00000000000000 + 8 * i) :
    classify x = some (.spd false 0 (8 * i)) := by
  have f (lo n : Nat) : fld x lo n = (0xFE00000000000000 + 8 * i) / 2 ^ lo % 2 ^ n := by
    simp [fld, BitVec.extractLsb'_toNat, e, Nat.shiftRight_eq_div_pow]
  have g : x.getLsbD 24 = false := by
    rw [BitVec.getLsbD, e, Nat.testBit_eq_decide_div_mod_eq]; simp; omega
  unfold classify
  rw [f 48, f 56, f 25, f 22, f 0, g, if_neg (by omega), if_pos (by omega)]
  congr 2 <;> omega

/-- The state in which the two are performed. -/
def savingAt (op : EngOp) : State :=
  let s := enqueue op saving.curTile.ctx.av saving
  s.setTile 0 (entryTile [] (entryOf saving op) (s.tile 0))

theorem performance_saving (op : EngOp) : performance saving op = performEntry 0 (entryOf saving op) (savingAt op) := rfl

/-- No entry of any queue pins a byte. -/
def NoPins (s : State) : Prop := ∀ u, ∀ e ∈ (s.tile u).queue, e.pins = []

theorem noPins_saving (op : EngOp) : NoPins (savingAt op) := fun u e he => by
  by_cases hu : u = 0
  · subst hu
    have h : ((savingAt op).tile 0).queue = [entryOf saving op].map fun o => if o = entryOf saving op then { o with pins := [] } else o := rfl
    rw [h, List.map_cons, List.map_nil, if_pos rfl, List.mem_singleton] at he
    rw [he]
  · have h : (savingAt op).tile u = {} := by
      unfold savingAt
      rw [State.tile_setTile_other _ _ hu]
      show (State.tile _ u) = _
      unfold enqueue State.advance State.goto State.setCur State.setStrandOf setQueue
      simp only [State.tile_setTile_other _ _ hu, State.setTile_ct, show saving.ct = 0 from rfl]
      unfold saving device State.tile
      simp [sget, Ne.symm hu]
    rw [h] at he
    cases he

theorem pushUndo_queue (s : State) (t u : Nat) (k : UndoKind) (w : BitVec 16) (b : Bool) : ((pushUndo t k w b s).tile u).queue = (s.tile u).queue := by
  have h (x : Tile) (hx : x.queue = (s.tile t).queue) : ((s.setTile t x).tile u).queue = (s.tile u).queue := by
    rw [State.tile_setTile]; split
    · subst u; exact hx
    · rfl
  unfold pushUndo
  dsimp only
  split
  · exact h _ rfl
  · exact h _ rfl

theorem logSpd_queue (s : State) (t h g u : Nat) : ((logSpd s t h g).tile u).queue = (s.tile u).queue := by
  unfold logSpd
  dsimp only
  split
  · rfl
  · split
    · rfl
    · exact pushUndo_queue ..

theorem spdPut_queue (s : State) (t h o : Nat) (bs : List (BitVec 8)) (u : Nat) : ((spdPut s t h o bs).tile u).queue = (s.tile u).queue := by
  have hl (l : List Nat) : ∀ s : State, ((l.foldl (fun s g => logSpd s t h g) s).tile u).queue = (s.tile u).queue := by
    induction l with
    | nil => exact fun _ => rfl
    | cons g r ih => exact fun s => (ih _).trans (logSpd_queue ..)
  unfold spdPut
  split
  · rfl
  · rw [State.tile_setTile]; split
    · subst u; exact hl ..
    · exact hl ..

theorem noPins_spdPut {s : State} (hs : NoPins s) (t h o : Nat) (bs : List (BitVec 8)) : NoPins (spdPut s t h o bs) := fun u e he =>
  hs u e (by rwa [spdPut_queue] at he)

theorem releasePins_none {s : State} (hs : NoPins s) (h o n : Nat) : releasePins h o n s = .ok () s := by
  have hp : pinners s h o n = [] := List.filter_eq_nil_iff.mpr fun u _ => by
    simp only [List.any_eq_true, not_exists, not_and]
    intro e he
    simp [Entry.pinsAny, hs u e he]
  unfold releasePins
  simp only [bind, EStateM.bind, get, getThe, MonadStateOf.get, EStateM.get, hp]
  rfl

theorem spdWrite_none {s : State} (hs : NoPins s) (t h o : Nat) (bs : List (BitVec 8)) : spdWrite t h o bs s = .ok () (spdPut s t h o bs) := by
  unfold spdWrite
  simp only [bind, EStateM.bind, releasePins_none hs]
  rfl

theorem word_place (op : EngOp) (acc : Access) (i : Nat) (h : i < 4608) :
    placeFor 0 0 (fabricAgent 0) (0xFE00000000000000 + BitVec.ofNat 64 (8 * i)) 8 acc (savingAt op) =
      .ok (.spd 0 (8 * i)) (savingAt op) := by
  have e := word_address i h
  have hr : spdInRange (savingAt op) 0 0 false 0 (8 * i) 8 = true := by
    have h1 : (8 * i + 8 - 1) / 2048 - 8 * i / 2048 + 1 = 1 := by omega
    have h2 : 8 * i / 2048 < 18 := by omega
    have h3 : 8 * i + 8 ≤ 2 ^ 22 := by omega
    have hg : ((savingAt op).tile 0).regions = [{ base := 0, stripes := 18, owner := .launch 0, footprint := true }] := rfl
    have ht : ((savingAt op).tile 0).team = some team0 := rfl
    have hs : (savingAt op).isSupervisor 0 0 = false := rfl
    have hcap : ((savingAt op).tile 0).capAt (savingAt op).opcur.toNat = 1536 := by
      have hf : sget 0 ((savingAt op).tile 0).fails (savingAt op).opcur.toNat = 0 := rfl
      unfold Tile.capAt; rw [hf]; decide +kernel
    have h4 : 8 * i / 2048 < 1536 := by omega
    have hh : stripeHeld (savingAt op) 0 0 0 (8 * i / 2048) = true := by
      simp only [stripeHeld, hs, ht, hg, team0, List.any_cons, List.any_nil, hcap]; simp [h2, h4]
    simp only [spdInRange, h1, spdTile, h3, List.range_one, List.all_cons, List.all_nil, Nat.add_zero, Bool.false_eq_true, if_false, hh]; simp
  have hw : ∀ o, wmByte (savingAt op) 0 o = .free := fun o => rfl
  have hv : ((savingAt op).tile 0).evicted = [] := rfl
  have hc (ea : Word) (o : Nat) : wmCheck ea 0 o 8 (savingAt op) = .ok () (savingAt op) := by
    have hf : (List.range 8).find? (fun _ => false) = none := rfl
    have hn : refillCheck 0 o 8 (savingAt op) = .ok () (savingAt op) := by
      unfold refillCheck
      simp [bind, EStateM.bind, get, getThe, MonadStateOf.get, EStateM.get, hv, pure, EStateM.pure]
    unfold wmCheck
    simp [hf, bind, EStateM.bind, get, getThe, MonadStateOf.get, EStateM.get, hw, hn]
  have h8 : ¬(0xFE00000000000000 + BitVec.ofNat 64 (8 * i) : Word).toNat % 8 ≠ 0 := by omega
  have hp : spdTile 0 false 0 = 0 := rfl
  unfold placeFor
  simp only [bind, EStateM.bind, get, getThe, MonadStateOf.get, EStateM.get, word_class _ i h e, if_neg h8, hr, pure, EStateM.pure, Bool.not_true,
    Bool.false_eq_true, if_false, hp, hc]

theorem mapM_ok {α β : Type} {s : State} {f : α → M β} {g : α → β} (l : List α) (h : ∀ a ∈ l, f a s = .ok (g a) s) :
    l.mapM f s = .ok (l.map g) s := by
  induction l with
  | nil => rfl
  | cons a r ih =>
    rw [List.mapM_cons]
    simp only [bind, EStateM.bind, h a (List.mem_cons_self ..), ih fun b hb => h b (List.mem_cons_of_mem _ hb), pure, EStateM.pure, List.map_cons]

theorem area_check (op : EngOp) : areaCheck 0xFE00000000000000 (savingAt op) = .ok () (savingAt op) := rfl

theorem area_first (n : Nat) (hn : n ≤ 4608) (op : EngOp) (acc : Access) :
    (List.range n).mapM (fun i => placeFor 0 0 (fabricAgent 0) (0xFE00000000000000 + BitVec.ofNat 64 (8 * i)) 8 acc) (savingAt op) =
      .ok ((List.range n).map fun i => .spd 0 (8 * i)) (savingAt op) :=
  mapM_ok _ fun i hi => word_place op acc i (by have := List.mem_range.mp hi; omega)

theorem areaPlaces_ok {t : Nat} {ea : Word} {acc : Access} {s : State} {ps : List Place} (hc : areaCheck ea s = .ok () s)
    (h : (List.range 4608).mapM (fun i => placeFor t 0 (fabricAgent t) (ea + BitVec.ofNat 64 (8 * i)) 8 acc) s = .ok ps s) :
    areaPlaces t ea acc s = .ok ps s := by
  unfold areaPlaces
  simp only [bind, EStateM.bind, hc]
  exact h

/-- The places of the area. -/
theorem area_places (op : EngOp) (acc : Access) :
    areaPlaces 0 0xFE00000000000000 acc (savingAt op) = .ok ((List.range 4608).map fun i => .spd 0 (8 * i)) (savingAt op) :=
  areaPlaces_ok (area_check op) (area_first 4608 (Nat.le_refl _) op acc)

theorem spdRead_saving (op : EngOp) (ag : Agent) (o n : Nat) :
    readPlace ag (.spd 0 o) n (savingAt op) = .ok (cellsGet [(0, 0xCF), (1, 1)] o n) (savingAt op) := by
  have h2 : ((savingAt op).tile 0).spd = [(0, 0xCF), (1, 1)] := rfl
  have hf : (granules o n).filter ((savingAt op).tile 0).spdBad = [] := List.filter_eq_nil_iff.mpr fun g _ => Bool.false_ne_true
  simp only [readPlace, spdRead, bind, EStateM.bind, modify, modifyGet, MonadStateOf.modifyGet, EStateM.modifyGet, hf, List.foldl_nil, get, getThe,
    MonadStateOf.get, EStateM.get, pure, EStateM.pure, spdGet, h2]

theorem saves (t : Nat) (ag : Agent) (ps : List (Place × Nat)) (hp : ∀ q ∈ ps, ∃ h o, q.1 = .spd h o) :
    ∀ s, NoPins s → ∃ s', (forIn ps () fun (q : Place × Nat) (_ : Unit) => (do writePlace t ag q.1 (natLe 8 q.2); pure (ForInStep.yield ()) : M (ForInStep Unit))) s =
      .ok () s' := by
  induction ps with
  | nil => exact fun s _ => ⟨s, rfl⟩
  | cons q r ih =>
    intro s hn
    obtain ⟨h, o, e⟩ := hp q (List.mem_cons_self ..)
    obtain ⟨s', hs⟩ := ih (fun x hx => hp x (List.mem_cons_of_mem _ hx)) (spdPut s t h o (natLe 8 q.2)) (noPins_spdPut hn t h o (natLe 8 q.2))
    refine ⟨s', ?_⟩
    rw [List.forIn_cons]
    simp only [bind, EStateM.bind, e, writePlace, spdWrite_none hn, pure, EStateM.pure]
    exact hs

/-- A save ends well when every place of its area is one of the scratchpad. -/
theorem performFsave_done {t : Nat} {ea : Word} {s : State} {ps : List Place} (hn : NoPins s) (hp : areaPlaces t ea .write s = .ok ps s)
    (h : ∀ p ∈ ps, ∃ h o, p = .spd h o) : ∃ dn, (performFsave t ea s).fin = .done dn := by
  obtain ⟨s', hs⟩ := saves t (fabricAgent t)
    (ps.zip (fabricWords ((updCtx t (fun c => { c with fabric := stopFabric c.fabric }) s).tile t).ctx.fabric))
    (fun q hq => h q.1 (List.of_mem_zip (a := q.1) (b := q.2) hq).1) (updCtx t (fun c => { c with fabric := stopFabric c.fabric }) s)
    (fun u e he => hn u e (by unfold updCtx at he; rw [State.tile_setTile] at he; split at he; exacts [by subst u; exact he, he]))
  unfold performFsave perfOf
  simp only [bind, EStateM.bind, hp, modify, modifyGet, MonadStateOf.modifyGet, EStateM.modifyGet, get, getThe, MonadStateOf.get, EStateM.get, pure,
    EStateM.pure] at hs ⊢
  rw [hs]
  exact ⟨_, rfl⟩

theorem pad_places (l : List Nat) : ∀ p ∈ l.map (fun i => Place.spd 0 (8 * i)), ∃ h o, p = .spd h o := fun p hp => by
  obtain ⟨i, -, e⟩ := List.mem_map.mp hp
  exact ⟨0, 8 * i, e.symm⟩

theorem witness_EngineForms_fsave : EngineReady saving (.fsave 1) ∧ ∃ dn, (performance saving (.fsave 1)).fin = .done dn := by
  refine ⟨engineReady (by decide +kernel), ?_⟩
  have hr : (entryOf saving (.fsave 1)).reg 1 = 0xFE00000000000000 := rfl
  have hm : maskHeld ((savingAt (.fsave 1)).tile 0).ctx (.fsave 1) = false := rfl
  have h : performance saving (.fsave 1) = performFsave 0 0xFE00000000000000 (savingAt (.fsave 1)) := by
    rw [performance_saving, ← hr]
    unfold performEntry
    simp only [entryOf, hm, Bool.false_eq_true, if_false]
  rw [h]
  exact performFsave_done (noPins_saving _) (area_places _ _) (pad_places _)

/-! What a restore makes of an area rests on the area's words alone, an absent one being 0. -/

theorem linkTokens_words {ws v : List Nat} (h : rword ws = rword v) (n : Nat) : ∀ i ls, linkTokens ws n i ls = linkTokens v n i ls := by
  induction n with
  | zero => exact fun i ls => rfl
  | succ n ih => intro i ls; unfold linkTokens; simp only [h, ih]

theorem area_words {ws v : List Nat} (h : rword ws = rword v) : areaImage ws = areaImage v ∧ areaGen ws = areaGen v ∧
    ∀ old m g, areaFabric old ws m g = areaFabric old v m g := by
  have hs (b n : Nat) : slotsAt ws b n = slotsAt v b n := by unfold slotsAt; simp only [h]
  have hpos (m : Image) (e : Nat) : posOf m ws e = posOf m v e := by unfold posOf; simp only [h, hs]
  have hsp (k : Nat) : spillOf ws k = spillOf v k := by unfold spillOf; simp only [h]
  have hsp' : spillOf ws = spillOf v := funext hsp
  have hr : areaReserved ws = areaReserved v := by unfold areaReserved selectorsReserved; simp only [h]
  refine ⟨by unfold areaImage; simp only [h], by unfold areaGen; simp only [h], fun old m g => ?_⟩
  unfold areaFabric
  simp only [h, hs, hpos, hsp', hr, linkTokens_words h]

theorem areaRead_done {t : Nat} {old : Fabric} {s : State} {ws : List Nat} {m : Image} {f : Fabric}
    (hm : areaImage ws = some m) (hp : fieldOf (rword ws 2132) 63 1 = 0) (hi : areaImageFault (currentImage ws m) false = none)
    (hf : areaFabric old ws m (areaGen ws) = some f) : areaRead t old ws s = .ok { f with image := currentImage ws m } s := by
  unfold areaRead
  have h1 : (0 = 1) = False := by simp
  simp only [hm, hp, h1, decide_false, if_false, hi, hf, Bool.not_false, if_true]
  rfl

theorem performFrest_done {t : Nat} {ea : Word} {s : State} {ws : List Nat} {m : Image}
    (hr : (do let ps ← areaPlaces t ea .read; ps.mapM fun p => do return leNat (← readPlace (fabricAgent t) p 8) : M (List Nat)) s = .ok ws s)
    (hm : areaImage ws = some m) (hp : fieldOf (rword ws 2132) 63 1 = 0)
    (hi : areaImageFault (currentImage ws m) false = none)
    (hf : (areaFabric (s.tile t).ctx.fabric ws m (areaGen ws)).isSome = true) : ∃ dn, (performFrest t ea s).fin = .done dn := by
  obtain ⟨f, hf⟩ := Option.isSome_iff_exists.mp hf
  unfold performFrest
  rw [hr]
  simp only [areaRead_done hm hp hi hf]
  exact ⟨_, rfl⟩

theorem readArea_ok {t : Nat} {ea : Word} {s : State} {ps : List Place} {g : Place → List (BitVec 8)} (hp : areaPlaces t ea .read s = .ok ps s)
    (h : ∀ p ∈ ps, readPlace (fabricAgent t) p 8 s = .ok (g p) s) :
    (do let ps ← areaPlaces t ea .read; ps.mapM fun p => do return leNat (← readPlace (fabricAgent t) p 8) : M (List Nat)) s =
      .ok (ps.map fun p => leNat (g p)) s := by
  simp only [bind, EStateM.bind, hp]
  exact mapM_ok _ fun p hp => by simp only [EStateM.bind, h p hp, pure, EStateM.pure]

/-- The bytes that `saving` holds at a place. -/
def padBytes (p : Place) : List (BitVec 8) := match p with | .spd _ o => cellsGet [(0, 0xCF), (1, 1)] o 8 | _ => []

theorem padBytes_read (op : EngOp) (l : List Nat) : ∀ p ∈ l.map (fun i => Place.spd 0 (8 * i)),
    readPlace (fabricAgent 0) p 8 (savingAt op) = .ok (padBytes p) (savingAt op) := fun p hp => by
  obtain ⟨i, -, rfl⟩ := List.mem_map.mp hp
  exact spdRead_saving op _ _ _

theorem pad_words (n : Nat) (hn : 0 < n) :
    rword (((List.range n).map fun i => Place.spd 0 (8 * i)).map fun p => leNat (padBytes p)) = rword [0x1CF] := by
  funext i
  have hz (o : Nat) (h : 2 ≤ o) : cellGet [(0, 0xCF), (1, 1)] o = 0 := by
    simp only [cellGet]; rw [if_neg (by omega), if_neg (by omega)]
  have h1 (j : Nat) : leNat (padBytes (.spd 0 (8 * (j + 1)))) = 0 := by
    have hb : cellsGet [(0, 0xCF), (1, 1)] (8 * (j + 1)) 8 = (List.range 8).map fun _ => 0 :=
      List.map_congr_left fun k _ => hz _ (by omega)
    simp only [padBytes, hb]
    decide
  unfold rword
  cases i with
  | zero => obtain ⟨m, rfl⟩ : ∃ m, n = m + 1 := ⟨n - 1, by omega⟩; simp [List.range_succ_eq_map]; decide
  | succ j =>
    by_cases hj : j + 1 < n
    · simp [List.getD, List.getElem?_map, List.getElem?_range hj, h1]
    · simp [List.getD, List.getElem?_map, List.getElem?_eq_none (show (List.range n).length ≤ j + 1 by simp; omega)]

theorem witness_EngineForms_frest : EngineReady saving (.frest 1) ∧ ∃ dn, (performance saving (.frest 1)).fin = .done dn := by
  refine ⟨engineReady (by decide +kernel), ?_⟩
  have hr : (entryOf saving (.frest 1)).reg 1 = 0xFE00000000000000 := rfl
  have hm : maskHeld ((savingAt (.frest 1)).tile 0).ctx (.frest 1) = false := rfl
  have h : performance saving (.frest 1) = performFrest 0 0xFE00000000000000 (savingAt (.frest 1)) := by
    rw [performance_saving, ← hr]
    unfold performEntry
    simp only [entryOf, hm, Bool.false_eq_true, if_false]
  have hw := area_words (pad_words 4608 (by decide))
  rw [h]
  refine performFrest_done (m := {}) (readArea_ok (area_places _ _) (padBytes_read _ _)) (hw.1.trans (by decide +kernel)) ?_ ?_ ?_
  · rw [pad_words 4608 (by decide)]; decide
  · show areaImageFault {} false = none
    decide +kernel
  · rw [hw.2.1, hw.2.2]; decide +kernel
/-! ### An area in memory -/

/-- A fabric to save to memory at 0x8000. -/
def saveToMemory : State := lead [(1, 0x8000)] {}

theorem witness_FabricControl_fsave : EngineReady saveToMemory (.fsave 1) ∧ Canonical saveToMemory ∧ saveToMemory.resv = [] ∧
    (saveToMemory.reg 1).toNat % 64 = 0 ∧ (saveToMemory.reg 1).toNat + 36864 ≤ 2 ^ 48 ∧
    (∀ i < 4608, WritableAt saveToMemory (saveToMemory.curTile.part.getD 0) ((saveToMemory.reg 1).toNat + 8 * i) (0x8000 + 8 * i)) ∧
    ∀ i < 4608, ∀ j < 4608, i ≠ j → 0x8000 + 8 * i + 8 ≤ 0x8000 + 8 * j ∨ 0x8000 + 8 * j + 8 ≤ 0x8000 + 8 * i := by
  have ha : (saveToMemory.reg 1).toNat = 0x8000 := rfl
  refine ⟨engineReady (by decide +kernel), canonical_lead _ _, rfl, by rw [ha], by rw [ha]; decide, fun i hi => ?_, fun i _ j _ h => by omega⟩
  rw [ha]
  have hp : probe saveToMemory saveToMemory.curPart 0 .write = .ok leaf0 := probeIs (by decide +kernel)
  exact ⟨leaf0, Laws.probe_low (by omega) hp (by decide), by decide, leaf0_address _ _ _ (by omega)⟩

/-- The area of a STOPPED fabric without elements, at 0x8000. -/
def restoring : State :=
  { lead [(1, 0x8000)] {} with mem := [(0x1000, 0x01), (0x1001, 0x20), (0x2000, 0x6F), (0x2001, 0x02), (0x8000, 0xCF), (0x8001, 1), (0xC200, 3)] }

def restoredWord (i : Nat) : Nat := if i = 0 then 0x1CF else if i = 2112 then 3 else 0
@[irreducible] def restoredWords : List Nat := (List.range 4608).map restoredWord

theorem restoredWords_at (i : Nat) : rword restoredWords i = restoredWord i := by
  unfold rword restoredWords
  by_cases hi : i < 4608
  · rw [List.getD, List.getElem?_map, List.getElem?_range hi]; rfl
  · rw [List.getD, List.getElem?_eq_none (by simp; omega)]
    simp only [restoredWord, Option.getD_none]
    rw [if_neg (by omega), if_neg (by omega)]

theorem restoring_word (i : Nat) (hi : i < 4608) : number (cellGet restoring.mem) (0x8000 + 8 * i) 8 = restoredWord i := by
  have hc (a : Nat) (h : 0x8002 ≤ a) : cellGet restoring.mem a = if a = 0xC200 then 3 else 0 := by
    simp only [restoring, cellGet]
    rw [if_neg (by omega), if_neg (by omega), if_neg (by omega), if_neg (by omega), if_neg (by omega), if_neg (by omega)]
    by_cases h : a = 0xC200
    · rw [if_pos h.symm, if_pos h]
    · rw [if_neg (Ne.symm h), if_neg h]
  unfold restoredWord
  by_cases h0 : i = 0
  · subst h0; rfl
  by_cases h1 : i = 2112
  · subst h1; rfl
  rw [if_neg h0, if_neg h1]
  have hz : ∀ k < 8, cellGet restoring.mem (0x8000 + 8 * i + k) = 0 := fun k hk => by rw [hc _ (by omega), if_neg (by omega)]
  unfold number
  rw [List.map_congr_left (g := fun _ => 0) fun k hk => by rw [hz k (List.mem_range.mp hk)]; simp]
  rfl

theorem gather_congr {α β : Type} {f g : α → Option β} (l : List α) (h : ∀ a ∈ l, f a = g a) : gather f l = gather g l := by
  induction l with
  | nil => rfl
  | cons a r ih => simp only [gather, h a (List.mem_cons_self ..), ih fun b hb => h b (List.mem_cons_of_mem _ hb)]

theorem slotsAt_congr {ws v : List Nat} (b n : Nat) (h : ∀ i, b ≤ i → i < b + 2 * n → rword ws i = rword v i) : slotsAt ws b n = slotsAt v b n := by
  unfold slotsAt
  exact List.foldl_ext _ _ _ fun m i hi => by
    have := List.mem_range.mp hi
    rw [h _ (by omega) (by omega), h _ (by omega) (by omega)]

/-- An area that differs from another in its first selector word alone holds the same fabric in another state of Table 9.6. -/
theorem area_code {ws v : List Nat} (h : ∀ i, i ≠ 2112 → rword ws i = rword v i) (h0 : rword ws 2112 = 3) (h1 : rword v 2112 = 0) :
    areaGen ws = areaGen v ∧ ∀ old m g, areaFabric old ws m g = (areaFabric old v m g).map fun f => { f with code := 3 } := by
  have hs (b n : Nat) (hb : b + 2 * n ≤ 2112 ∨ 2112 < b) : slotsAt ws b n = slotsAt v b n := slotsAt_congr b n fun i _ _ => h i (by omega)
  have hpos (m : Image) : gather (fun e => (posOf m ws e).map fun p => (e, p)) (List.range 64) =
      gather (fun e => (posOf m v e).map fun p => (e, p)) (List.range 64) := gather_congr _ fun e he => by
    have := List.mem_range.mp he
    unfold posOf
    dsimp only
    rw [hs _ _ (by omega), hs _ _ (by omega), h _ (by omega), h _ (by omega), h _ (by omega), h _ (by omega)]
  have hsp : gather (spillOf ws) (List.range 16) = gather (spillOf v) (List.range 16) := gather_congr _ fun k hk => by
    have := List.mem_range.mp hk
    unfold spillOf
    dsimp only
    rw [h _ (by omega), h _ (by omega), h _ (by omega), h _ (by omega)]
  have hport (b : Nat) (hb : b = 1536 ∨ b = 1552) : gather (fun p => (slotsAt ws (b + 32 * p) 8).map fun t => (p, t.map (·.2))) (List.range 16) =
      gather (fun p => (slotsAt v (b + 32 * p) 8).map fun t => (p, t.map (·.2))) (List.range 16) := gather_congr _ fun p hp => by
    have := List.mem_range.mp hp
    rw [hs _ _ (by omega)]
  have hl (n : Nat) : ∀ i ls, linkTokens ws n i ls = linkTokens v n i ls := by
    induction n with
    | zero => exact fun i ls => rfl
    | succ n ih => intro i ls; unfold linkTokens; rw [h _ (by omega), h _ (by omega)]; simp only [ih]
  have hany (b n : Nat) (f : Nat → Bool) (hb : 2112 < b) : (List.range n).any (fun i => f (rword ws (b + i))) = (List.range n).any fun i => f (rword v (b + i)) := by
    refine congrArg (fun f => (List.range n).any f) (funext fun i => ?_)
    rw [h _ (by omega)]
  have hsel : selectorsReserved ws = selectorsReserved v := by
    unfold selectorsReserved
    have ha : (List.range 11).any (fun i => rword ws (2112 + i) / 2 ^ 32 != 0) = (List.range 11).any fun i => rword v (2112 + i) / 2 ^ 32 != 0 := by
      refine congrArg (fun f => (List.range 11).any f) (funext fun i => ?_)
      by_cases hi : i = 0
      · subst hi; rw [Nat.add_zero, h0, h1]; decide
      · rw [h _ (by omega)]
    rw [ha, h 2116 (by decide)]
    dsimp only
    rw [h0, h1]
    rfl
  have hr : areaReserved ws = areaReserved v := by
    unfold areaReserved
    rw [hsel, hany 2123 5 (· != 0) (by decide), hany 2128 4 (fun x => x != 0 && x / 2 ^ 16 != 1) (by decide), hany 2133 11 (· != 0) (by decide),
      hany 2144 96 (· != 0) (by decide), h 2132 (by decide)]
  refine ⟨?_, fun old m g => ?_⟩
  · have e : (List.range 64).map (fun e => BitVec.ofNat 8 (rword ws (512 + 16 * e))) = (List.range 64).map fun e => BitVec.ofNat 8 (rword v (512 + 16 * e)) :=
      List.map_congr_left fun e he => by have := List.mem_range.mp he; rw [h _ (by omega)]
    unfold areaGen
    rw [e]
  · have hc (k : Nat) (hk : k ≠ 0) : rword ws (2112 + k) = rword v (2112 + k) := h _ (by omega)
    have hm : (((List.range 4).filter fun i => rword ws (2128 + i) != 0).map fun i => BitVec.ofNat 16 (rword ws (2128 + i))) =
        ((List.range 4).filter fun i => rword v (2128 + i) != 0).map fun i => BitVec.ofNat 16 (rword v (2128 + i)) := by
      have : (fun i => rword ws (2128 + i)) = fun i => rword v (2128 + i) := funext fun i => h _ (by omega)
      rw [show (fun i => rword ws (2128 + i) != 0) = fun i => rword v (2128 + i) != 0 from funext fun i => by rw [h _ (by omega)],
        show (fun i => BitVec.ofNat 16 (rword ws (2128 + i))) = fun i => BitVec.ofNat 16 (rword v (2128 + i)) from funext fun i => by rw [h _ (by omega)]]
    unfold areaFabric
    dsimp only
    rw [hpos, hsp, hport 1536 (.inl rfl), hport 1552 (.inr rfl), hr, hm, h0, h1, h 2116 (by decide)]
    simp only [hl, List.map_cons, List.map_nil, hc 1 (by decide), hc 2 (by decide), hc 3 (by decide), hc 5 (by decide), hc 6 (by decide), hc 7 (by decide),
      hc 8 (by decide), hc 9 (by decide)]
    split
    · split
      · rfl
      · split <;> rfl
    · rfl

theorem restored_area : ∃ g, areaRead 0 (restoring.tile 0).ctx.fabric restoredWords restoring = .ok g restoring ∧
    g.code = 3 ∧ g.spill = [] ∧ g.pos = [] := by
  have hw (i : Nat) (hi : i ≠ 2112) : rword restoredWords i = rword [0x1CF] i := by
    rw [restoredWords_at, restoredWord]
    cases i with
    | zero => rfl
    | succ j => rw [if_neg (by omega), if_neg hi]; rfl
  have h0 : rword restoredWords 2112 = 3 := restoredWords_at 2112
  obtain ⟨hg, hf⟩ := area_code hw h0 rfl
  have him : areaImage restoredWords = some {} := by
    have e : ((List.range 64).filterMap fun e => if rword restoredWords (1 + e) = 0 then none else some (e, BitVec.ofNat 64 (rword restoredWords (1 + e)))) = [] := by
      rw [List.filterMap_eq_nil_iff]
      intro e he
      have := List.mem_range.mp he
      rw [hw _ (by omega), show 1 + e = e + 1 from Nat.add_comm ..]
      rfl
    have h1 : rword restoredWords 0 = 0x1CF := restoredWords_at 0
    have h2 : fieldOf 0x1CF 16 8 = 0 := by decide
    have h3 : fieldOf 0x1CF 24 5 = 0 := by decide
    unfold areaImage
    dsimp only
    rw [e, h1, h2, h3, if_neg (by decide)]
    rfl
  have hv : ∃ f, areaFabric (restoring.tile 0).ctx.fabric [0x1CF] {} (areaGen [0x1CF]) = some f ∧ f.spill = [] ∧ f.pos = [] := by
    have h : (match areaFabric (restoring.tile 0).ctx.fabric [0x1CF] {} (areaGen [0x1CF]) with | some f => decide (f.spill = [] ∧ f.pos = []) | none => false) = true := by
      decide +kernel
    revert h
    cases areaFabric (restoring.tile 0).ctx.fabric [0x1CF] {} (areaGen [0x1CF]) with
    | none => exact fun h => nomatch h
    | some f => exact fun h => ⟨f, rfl, of_decide_eq_true h⟩
  obtain ⟨f, e, e1, e2⟩ := hv
  have hp : fieldOf (rword restoredWords 2132) 63 1 = 0 := by rw [hw 2132 (by decide)]; decide
  have hi : areaImageFault (currentImage restoredWords {}) false = none := by
    show areaImageFault {} false = none
    decide +kernel
  exact ⟨{ { f with code := 3 } with image := currentImage restoredWords {} }, areaRead_done (f := { f with code := 3 }) him hp hi (by rw [hg, hf, e]; rfl),
    rfl, e1, e2⟩

theorem witness_FabricControl_frest : EngineReady restoring (.frest 1) ∧ restoredWords.length = 4608 ∧
    ReadsWords restoring (restoring.reg 1) 4608 (fun i => restoredWords.getD i 0) ∧ restoredWords.getD 2132 0 / 2 ^ 63 % 2 = 0 ∧
    ∃ g, areaRead restoring.ct restoring.curTile.ctx.fabric restoredWords restoring = .ok g restoring ∧ g.code = 3 ∧ g.spill = [] ∧
      ∀ q ∈ g.pos, q.2.stl = false := by
  have hp : probe restoring restoring.curPart 0 .read = .ok leaf0 := probeIs (by decide +kernel)
  obtain ⟨g, e, e1, e2, e3⟩ := restored_area
  refine ⟨engineReady (by decide +kernel), by unfold restoredWords; simp, reads_low hp (by decide +kernel) (by decide +kernel) rfl fun i hi => ?_, ?_, g, e, e1, e2, fun q hq => ?_⟩
  · exact (restoring_word i hi).trans (by rw [← restoredWords_at, rword])
  · have h := restoredWords_at 2132
    unfold rword at h
    rw [h]; rfl
  · rw [e3] at hq; cases hq
end Sys2Proof.Tests
end

