-- ==== Sys2Proof/Tests/Slice0.lean ====
section
/-! SUPPORT. Tests of the model's text: words written out field by field from the spec's encoding tables, an ill-formed term for each check
of well-formedness, and a few results worked by hand. -/

set_option Elab.async false

open Sys2Proof Sys2Proof.Machine Sys2Proof.Spec

namespace Sys2Proof.Tests

/-! ### Decoding: each word is written field by field, from bit 31 down -/

/-- R24, Table 1.5. -/
theorem test_decode_ialu :
    decode 0b000001_00011_00100_00101_00000000000 = .ok (.add 3 4 5) ∧
    decode 0b000001_11111_11110_00001_00000011000 = .ok (.remu 31 30 1) ∧
    decode 0b000001_01001_01010_00000_00000011101 = .ok (.bswap 9 10) :=
  ⟨rfl, rfl, rfl⟩

/-- R25. -/
theorem test_decode_immediates :
    decode 0b000010_11110_11110_1111111111000000 = .ok (.addi 30 30 0xFFC0) ∧
    decode 0b000101_00001_00010_1000000000000001 = .ok (.xori 1 2 0x8001) ∧
    decode 0b000110_00001_00010_1_111111111111111 = .ok (.sltiu 1 2 0x7FFF) ∧
    decode 0b000111_00001_00010_0010_000000_111111 = .ok (.srai 1 2 63) ∧
    decode 0b001000_00101_111111111111111111111 = .ok (.lih 5 0x1FFFFF) :=
  ⟨rfl, rfl, rfl, rfl, rfl⟩

/-- R26, Table 1.6. -/
theorem test_decode_loads_stores :
    decode 0b001001_00111_01000_110_1111111111111 = .ok (.ldWu 7 8 0x1FFF) ∧
    decode 0b001001_00111_01000_000_0000000000001 = .ok (.ldB 7 8 1) ∧
    decode 0b001010_00111_01000_011_1000000000000 = .ok (.stD 7 8 0x1000) :=
  ⟨rfl, rfl, rfl⟩

/-- R27, Table 1.7. -/
theorem test_decode_atomics :
    decode 0b001011_00001_00010_00011_1001_11_100_11 = .ok (.amoCas 1 2 3 3 4 3) ∧
    decode 0b001011_00001_00010_00000_1010_01_010_00 = .ok (.orderedLoadZext 1 2 1 2 0) ∧
    decode 0b001011_00000_00010_00011_1100_10_001_01 = .ok (.orderedStore 2 3 2 1 1) :=
  ⟨rfl, rfl, rfl⟩

/-- R28. -/
theorem test_decode_branches :
    decode 0b001100_00001_00010_000_1111111111101 = .ok (.beq 1 2 0x1FFD) ∧
    decode 0b001100_11111_00000_101_0000000000001 = .ok (.bgeu 31 0 1) ∧
    decode 0b001101_10000000000000000000000000 = .ok (.jal 0x2000000) ∧
    decode 0b001110_11111_00001_0111111111111100 = .ok (.jalr 31 1 0x7FFC) :=
  ⟨rfl, rfl, rfl, rfl⟩

/-- R29. -/
theorem test_decode_csr :
    decode 0b001111_00100_00101_000001000100_0000 = .ok (.csrrw 4 5 0x044) ∧
    decode 0b001111_00100_11111_000000000001_0101 = .ok (.csrrci 4 31 0x001) :=
  ⟨rfl, rfl⟩

/-- R30, Table 1.8. -/
theorem test_decode_sys :
    decode 0b00000000000000000000000000000000 = .ok (.ill 0 0 0) ∧
    decode 0b000000_00000_1111111111_00000000001 = .ok (.trap 0x3FF) ∧
    decode 0b000000_00000_00000_00_100_00000000100 = .ok (.fence 4) ∧
    decode 0b000000_00000_11111_00000_00000000101 = .ok (.fenceQ 0x1F) ∧
    decode 0b000000_00001_00010_00011_00000000111 = .ok (.mwait 1 2 3) :=
  ⟨rfl, rfl, rfl, rfl, rfl⟩

/-- R31, Table 1.9. -/
theorem test_decode_vop :
    decode 0b010000_00100_01000_01100_010_00000000 = .ok (.vadd 4 8 12 2) ∧
    decode 0b010000_00111_01000_01100_001_00011011 = .ok (.vcle 7 8 12 1) ∧
    decode 0b010000_00100_01000_00000_000_00110110 = .ok (.vcvtSr 4 8 0) ∧
    decode 0b010000_00100_01000_01100_000_00111001 = .ok (.vdequant 4 8 12 0) :=
  ⟨rfl, rfl, rfl, rfl⟩

/-- R32. -/
theorem test_decode_vops_vopi :
    decode 0b010001_00100_01000_11111_111_00000111 = .ok (.vdivS 4 8 31 7) ∧
    decode 0b010010_00100_01000_10000_000_00010010 = .ok (.vsraI 4 8 16 0) ∧
    decode 0b010010_00011_01000_11111_000_00011000 = .ok (.vceqI 3 8 31 0) :=
  ⟨rfl, rfl, rfl⟩

/-- R33. -/
theorem test_decode_masks :
    decode 0b010011_00111_00110_00101_000_00000100 = .ok (.morn 7 6 5) ∧
    decode 0b010011_11111_00110_00000_011_00000111 = .ok (.mfirst 31 6 3) ∧
    decode 0b010011_00111_00000_00000_000_00001001 = .ok (.mclr 7) :=
  ⟨rfl, rfl, rfl⟩

/-- R34, Table 1.10. -/
theorem test_decode_permutes :
    decode 0b010100_00100_01000_01100_111_00000010 = .ok (.vgather 4 8 12 7) ∧
    decode 0b010100_00100_01000_00000_001_00000011 = .ok (.vcompress 4 8 1) ∧
    decode 0b010100_00100_01000_01100_000_00010011 = .ok (.vredmax 4 8 12 0) :=
  ⟨rfl, rfl, rfl⟩

/-- R35. -/
theorem test_decode_vcfg :
    decode 0b010101_01001_01010_01011_000_00000000 = .ok (.vsetl 9 10 11) ∧
    decode 0b010101_00100_11000_011_10_000_00000001 = .ok (.vtag 4 0x18 3 2) :=
  ⟨rfl, rfl⟩

/-- R36, Table 1.11. -/
theorem test_decode_vector_memory :
    decode 0b010110_00100_01111_00000_001_00000000 = .ok (.vld 4 15 1) ∧
    decode 0b010110_00100_00010_01001_000_00000001 = .ok (.vlds 4 2 9 0) ∧
    decode 0b010111_00100_00010_01001_000_00000010 = .ok (.vstx 4 2 9 0) ∧
    decode 0b010111_00001_00010_00011_000_00010000 = .ok (.vmmAdd 1 2 3 0) ∧
    decode 0b010111_00001_00010_00000_000_00011000 = .ok (.vmmCpy 1 2 0) ∧
    decode 0b010111_00000_00_100_00000_000_00100000 = .ok (.vfba 4) :=
  ⟨rfl, rfl, rfl, rfl, rfl, rfl⟩

/-- R37, R38, Tables 1.12 and 1.13. -/
theorem test_decode_matrix :
    decode 0b011000_000_00_00101_00000_00001_000111 = .ok (.mcfg 5 1 1 1 1) ∧
    decode 0b011001_111_01_00110_01000_00000_000000 = .ok (.mma 7 1 6 8) ∧
    decode 0b011010_011_00_00110_01000_01001_000001 = .ok (.mmaBm 3 0 6 8 9) ∧
    decode 0b011011_010_00_00000_00000_00000_000000 = .ok (.mzero 2) ∧
    decode 0b011011_010_01_00110_00000_00001_000011 = .ok (.mstSm 2 1 6) ∧
    decode 0b011011_010_00_00110_01000_10000_000100 = .ok (.mdrain 2 0 6 8 0x10) :=
  ⟨rfl, rfl, rfl, rfl, rfl, rfl⟩

/-- R39, Table 1.14. -/
theorem test_decode_transfers :
    decode 0b011100_00011_00100_0_1111_00000000000 = .ok (.xcopy 3 4 15) ∧
    decode 0b011100_00011_00100_00000_00000000001 = .ok (.xcopyQ 3 4) ∧
    decode 0b011101_00000_0_0101_00110_00000000000 = .ok (.xwaitW 5 6) ∧
    decode 0b011101_00010_00000_00000_00000000010 = .ok (.xev 2) :=
  ⟨rfl, rfl, rfl, rfl⟩

/-- R40, Table 1.15. -/
theorem test_decode_fabric :
    decode 0b011110_00011_00100_00000_00000000001 = .ok (.fcfgSw 3 4) ∧
    decode 0b011111_00000_00000_00000_00000000000 = .ok (.fstart) ∧
    decode 0b011111_00011_00000_01010_00000000101 = .ok (.fstat 3 10) :=
  ⟨rfl, rfl, rfl⟩

/-- R40, R224, Table 1.15: the end-of-stream form sets bit 4 of the port field. -/
theorem test_decode_fabric_ports :
    decode 0b100000_00000_00100_00011_00000000000 = .ok (.fportW 4 3) ∧
    decode 0b100000_00000_00100_1_0011_00000000000 = .ok (.fportWEos 4 3) ∧
    decode 0b100000_00101_00000_01111_00000000001 = .ok (.fportR 5 15) :=
  ⟨rfl, rfl, rfl⟩

/-- R41, Table 1.16. -/
theorem test_decode_streams_channels :
    decode 0b100001_01111_00100_00000_00000000000 = .ok (.sopen 15 4) ∧
    decode 0b100001_00011_01111_00000_00000000011 = .ok (.spos 3 15) ∧
    decode 0b100010_00011_00100_11111_00000000010 = .ok (.chrecv 3 4 31) ∧
    decode 0b100011_0_1111_00000_00001_00000000010 = .ok (.drgtFreeze 15) ∧
    decode 0b100011_00011_0_1111_00111_00000000001 = .ok (.drgtRd 3 15 7) :=
  ⟨rfl, rfl, rfl, rfl, rfl⟩

/-- R42, Table 1.17. -/
theorem test_decode_scheduling :
    decode 0b100100_00011_00100_00000_00000000000 = .ok (.launch 3 4) ∧
    decode 0b100100_00010_00100_00000_00000000110 = .ok (.rtake 2 4) ∧
    decode 0b100100_00000_00100_00101_00000001010 = .ok (.gsqArm 4 5) ∧
    decode 0b100101_00011_00100_00000_00000000000 = .ok (.spalloc 3 4) ∧
    decode 0b100101_00110_00100_00000_00000000011 = .ok (.opcap 6 4) :=
  ⟨rfl, rfl, rfl, rfl, rfl⟩

/-- R43: majors 0x26 to 0x3F. -/
theorem test_reject_major_reserved :
    decode 0b100110_00000000000000000000000000 = .error .majorReserved ∧
    decode 0b111111_11111111111111111111111111 = .error .majorReserved :=
  ⟨rfl, rfl⟩

/-- R24, R25, R27 to R30, R43: a reserved function. -/
theorem test_reject_function_reserved :
    decode 0b000001_00001_00010_00011_00000011110 = .error .functionReserved ∧
    decode 0b000111_00001_00010_0100_000000_000000 = .error .functionReserved ∧
    decode 0b001011_00001_00010_00011_1101_00_000_11 = .error .functionReserved ∧
    decode 0b001100_00001_00010_110_0000000000000 = .error .functionReserved ∧
    decode 0b001111_00001_00010_000000000000_0110 = .error .functionReserved ∧
    decode 0b000000_00000_00000_00000_00000001000 = .error .functionReserved ∧
    decode 0b010010_00100_01000_01100_000_00000100 = .error .functionReserved :=
  ⟨rfl, rfl, rfl, rfl, rfl, rfl, rfl⟩

/-- R9, R43: a nonzero field that the row marks 0, or a reserved width. -/
theorem test_reject_field_reserved :
    decode 0b000001_00001_00010_00011_00000011001 = .error .fieldReserved ∧
    decode 0b000111_00001_00010_0000_000001_000000 = .error .fieldReserved ∧
    decode 0b001001_00001_00010_111_0000000000000 = .error .fieldReserved ∧
    decode 0b001010_00001_00010_100_0000000000000 = .error .fieldReserved ∧
    decode 0b000000_00000_00000_00001_00000000010 = .error .fieldReserved :=
  ⟨rfl, rfl, rfl, rfl, rfl⟩

/-- Table 1.19, as the host numbers the bits. -/
theorem test_table_words :
    decodeTableWord 32 0x04642800 = some (.add 3 4 5) ∧ decodeTableWord 32 0x0BDEFFC0 = some (.addi 30 30 0xFFC0) ∧
    decodeTableWord 32 0x30221FFD = some (.beq 1 2 0x1FFD) ∧ decodeTableWord 32 0x40886200 = some (.vadd 4 8 12 2) := ⟨rfl, rfl, rfl, rfl⟩

/-! ### Well-formedness: for each check a term that it refuses, beside one that passes -/

/-- R27, R43. -/
theorem test_wellFormed_atomic_size : Instr.wellFormed (.amoAdd 1 2 3 0 0 1) = false ∧ Instr.wellFormed (.amoAdd 1 2 3 0 0 2) = true := by decide

/-- R19, R43. -/
theorem test_wellFormed_scope : Instr.wellFormed (.fence 5) = false ∧ Instr.wellFormed (.fence 4) = true := by decide

/-- R19, R27. -/
theorem test_wellFormed_atomic_scope : Instr.wellFormed (.amoCas 1 2 3 0 5 3) = false ∧ Instr.wellFormed (.amoCas 1 2 3 3 4 3) = true := by decide

/-- R27. -/
theorem test_wellFormed_load_order : Instr.wellFormed (.orderedLoadZext 1 2 2 0 0) = false ∧ Instr.wellFormed (.orderedLoadZext 1 2 1 4 3) = true := by decide

/-- R27. -/
theorem test_wellFormed_load_width : Instr.wellFormed (.orderedLoadSext 1 2 0 0 3) = false ∧ Instr.wellFormed (.orderedLoadSext 1 2 0 0 2) = true := by decide

/-- R27. -/
theorem test_wellFormed_store_order : Instr.wellFormed (.orderedStore 1 2 1 0 0) = false ∧ Instr.wellFormed (.orderedStore 1 2 2 0 0) = true := by decide

/-- R43. -/
theorem test_wellFormed_fenceq_mask : Instr.wellFormed (.fenceQ 0) = false ∧ Instr.wellFormed (.fenceQ 1) = true := by decide

/-- R15, R43. -/
theorem test_wellFormed_mask_register : Instr.wellFormed (.mand 8 0 0) = false ∧ Instr.wellFormed (.mand 7 7 7) = true := by decide

/-- R15, R43. -/
theorem test_wellFormed_mask_source : Instr.wellFormed (.mnot 0 8) = false ∧ Instr.wellFormed (.mnot 7 0) = true := by decide

/-- R15, R31. -/
theorem test_wellFormed_compare_mask : Instr.wellFormed (.vceq 8 4 4 0) = false ∧ Instr.wellFormed (.vceq 7 4 4 0) = true := by decide

/-- R43. -/
theorem test_wellFormed_compress_mask : Instr.wellFormed (.vcompress 4 8 0) = false ∧ Instr.wellFormed (.vcompress 4 8 1) = true := by decide

/-- R43. -/
theorem test_wellFormed_expand_mask : Instr.wellFormed (.vexpand 4 8 0) = false ∧ Instr.wellFormed (.vexpand 4 8 7) = true := by decide

/-- R13. -/
theorem test_wellFormed_tag : Instr.wellFormed (.vtag 4 0x06 0 0) = false ∧ Instr.wellFormed (.vtag 4 0x19 0 3) = true := by decide

/-- R14. -/
theorem test_wellFormed_ratio : Instr.wellFormed (.vtag 4 0x0A 1 0) = false ∧ Instr.wellFormed (.vtag 4 0x18 3 0) = true := by decide

/-- R17, R43. -/
theorem test_wellFormed_stream_register : Instr.wellFormed (.vld 4 16 0) = false ∧ Instr.wellFormed (.vld 4 15 0) = true := by decide

/-- R17, R43. -/
theorem test_wellFormed_vmm_register : Instr.wellFormed (.vmmAdd 1 16 0 0) = false ∧ Instr.wellFormed (.vmmAdd 15 15 15 0) = true := by decide

/-- R19, R36. -/
theorem test_wellFormed_barrier_scope : Instr.wellFormed (.vfba 5) = false ∧ Instr.wellFormed (.vfba 4) = true := by decide

/-- R38. -/
theorem test_wellFormed_matrix_format : Instr.wellFormed (.mcfg 0 10 0 0 0) = false ∧ Instr.wellFormed (.mcfg 0 9 0 0 0) = true := by decide

/-- R38. -/
theorem test_wellFormed_matrix_signs : Instr.wellFormed (.mcfg 0 2 0 0 1) = false ∧ Instr.wellFormed (.mcfg 0 1 1 1 1) = true := by decide

/-- R11, R37. -/
theorem test_wellFormed_matrix_pair : Instr.wellFormed (.mma 0 1 3 4) = false ∧ Instr.wellFormed (.mma 0 1 2 5) = true := by decide

/-- R11, R37. -/
theorem test_wellFormed_matrix_pair_b : Instr.wellFormed (.mma 0 2 4 0) = false ∧ Instr.wellFormed (.mma 0 2 5 4) = true := by decide

/-- R11, R37. -/
theorem test_wellFormed_mld_pair : Instr.wellFormed (.mld 0 1 0) = false ∧ Instr.wellFormed (.mld 0 0 1) = true := by decide

/-- R13, R37. -/
theorem test_wellFormed_mdrain_tag : Instr.wellFormed (.mdrain 0 0 4 4 0x0E) = false ∧ Instr.wellFormed (.mdrain 0 0 4 4 0x0D) = true := by decide

/-- R11, R39. -/
theorem test_wellFormed_packet_pair : Instr.wellFormed (.xcopyQ 1 3) = false ∧ Instr.wellFormed (.xcopyQ 1 2) = true := by decide

/-- R11, R39. -/
theorem test_wellFormed_event_pair : Instr.wellFormed (.xev 0) = false ∧ Instr.wellFormed (.xev 2) = true := by decide

/-- R17, R41. -/
theorem test_wellFormed_open_register : Instr.wellFormed (.sopen 16 1) = false ∧ Instr.wellFormed (.sopen 15 1) = true := by decide

/-- R17, R41. -/
theorem test_wellFormed_send_register : Instr.wellFormed (.chsend 16 1 0) = false ∧ Instr.wellFormed (.chsend 15 1 0) = true := by decide

/-- R11, R42. -/
theorem test_wellFormed_token_pair : Instr.wellFormed (.rtake 31 1) = false ∧ Instr.wellFormed (.rtake 30 1) = true := by decide

/-! ### The words that the spec's tables of majors 0x1C to 0x25 work out -/

theorem test_worked_scheduling_words :
    decode 0x90040009 = .ok (.cancel 4) ∧
    decode 0x90042808 = .ok (.ctrAdd 4 5) ∧
    decode 0x90E40007 = .ok (.ctrRd 7 4) ∧
    decode 0x90040002 = .ok (.exit 4) ∧
    decode 0x9004280A = .ok (.gsqArm 4 5) ∧
    decode 0x90A40000 = .ok (.launch 5 4) ∧
    decode 0x94C40003 = .ok (.opcap 6 4) ∧
    decode 0x94C40002 = .ok (.opreq 6 4) ∧
    decode 0x90C40006 = .ok (.rtake 6 4) ∧
    decode 0x94A40000 = .ok (.spalloc 5 4) ∧
    decode 0x94042801 = .ok (.spfree 4 5) ∧
    decode 0x90C40003 = .ok (.waitCh 6 4) ∧
    decode 0x90C42804 = .ok (.waitCtr 6 4 5) :=
  ⟨rfl, rfl, rfl, rfl, rfl, rfl, rfl, rfl, rfl, rfl, rfl, rfl, rfl⟩

theorem test_worked_channel_words :
    decode 0x88640000 = .ok (.chbind 3 4) ∧
    decode 0x88C03803 = .ok (.chpoll 6 7) ∧
    decode 0x88C53802 = .ok (.chrecv 6 5 7) ∧
    decode 0x88453801 = .ok (.chsend 2 5 7) ∧
    decode 0x88C03804 = .ok (.chseq 6 7) :=
  ⟨rfl, rfl, rfl, rfl, rfl⟩

theorem test_worked_draught_words :
    decode 0x8C400802 = .ok (.drgtFreeze 2) ∧
    decode 0x8CE22801 = .ok (.drgtRd 7 2 5) ∧
    decode 0x8C440000 = .ok (.drgtSet 2 4) :=
  ⟨rfl, rfl, rfl⟩

theorem test_worked_fabric_words :
    decode 0x78A40000 = .ok (.fcfgLd 5 4) ∧
    decode 0x78A40001 = .ok (.fcfgSw 5 4) ∧
    decode 0x7C070004 = .ok (.fmark 7) ∧
    decode 0x81401801 = .ok (.fportR 10 3) ∧
    decode 0x80091800 = .ok (.fportW 9 3) ∧
    decode 0x7C060002 = .ok (.fsave 6) ∧
    decode 0x7D000805 = .ok (.fstat 8 1) :=
  ⟨rfl, rfl, rfl, rfl, rfl, rfl, rfl⟩

theorem test_worked_stream_words :
    decode 0x84640002 = .ok (.sadv 3 4) ∧
    decode 0x84600001 = .ok (.sclose 3) ∧
    decode 0x84640000 = .ok (.sopen 3 4) ∧
    decode 0x84A30003 = .ok (.spos 5 3) :=
  ⟨rfl, rfl, rfl, rfl⟩

theorem test_worked_transfer_words :
    decode 0x70BC1800 = .ok (.xcopy 5 28 3) ∧
    decode 0x75000002 = .ok (.xev 8) ∧
    decode 0x74033000 = .ok (.xwaitW 3 6) :=
  ⟨rfl, rfl, rfl⟩


/-! ### Results worked by hand from the spec's tables and examples -/

/-- A register after an instruction that answers a next state. -/
def regAfter (i : Instr) (s : State) (r : BitVec 5) : Option Word := match exec i s with | .next t => some (t.reg r) | _ => none

/-- R67, its example. -/
theorem test_bit_counts : (regAfter (.clz 3 4) (helper [(4, 0x100000)]) 3, regAfter (.ctz 3 4) (helper [(4, 0x100000)]) 3,
    regAfter (.ffs 3 4) (helper [(4, 0x100000)]) 3, regAfter (.popc 3 4) (helper [(4, 0x100000)]) 3,
    regAfter (.bswap 3 4) (helper [(4, 0x100000)]) 3) = (some 43, some 20, some 21, some 1, some 0x0000100000000000) := by decide +kernel

/-- Table 3.3. -/
theorem test_division_corners : (regAfter (.div 3 4 5) (helper [(4, 7)]) 3, regAfter (.rem 3 4 5) (helper [(4, 7)]) 3,
    regAfter (.div 3 4 5) (helper [(4, 2 ^ 63), (5, 2 ^ 64 - 1)]) 3, regAfter (.rem 3 4 5) (helper [(4, 2 ^ 63), (5, 2 ^ 64 - 1)]) 3) =
    (some 0xFFFFFFFFFFFFFFFF, some 7, some 0x8000000000000000, some 0) := by decide +kernel

/-- R66: the quotient truncates, the remainder has the sign of the dividend; here -7 and 2. -/
theorem test_division_signs : (regAfter (.div 3 4 5) (helper [(4, 0xFFFFFFFFFFFFFFF9), (5, 2)]) 3,
    regAfter (.rem 3 4 5) (helper [(4, 0xFFFFFFFFFFFFFFF9), (5, 2)]) 3) = (some 0xFFFFFFFFFFFFFFFD, some 0xFFFFFFFFFFFFFFFF) := by decide +kernel

/-- R11: a write to s0 is discarded. -/
theorem test_s0 : regAfter (.addi 0 0 5) (helper []) 0 = some 0 := by decide +kernel

/-- R77: `jalr` reads sa before it writes sd. -/
theorem test_jalr_same_register : regAfter (.jalr 4 4 8) (helper [(4, 0x20000)]) 4 = some 0x10004 := by decide +kernel

/-- R86, R88: `trap` saves the next word's address and goes to the handler. -/
theorem test_trap_entry : (match exec (.trap 9) (helper []) with
    | .next t => some (t.cur.tpc, t.cur.tva, t.cur.h, t.cur.pc) | _ => none) = some (0x10004, 9, true, 0x20000) := by decide +kernel

/-- R167, its example. -/
theorem test_generator : (gSeed 40 0, gStep 1, gStep (gStep 1), gStep (gStep (gStep 1))) = (0xB8AB04E8, 0x80200003, 0xC0300002, 0x60180001) := by
  decide +kernel

/-- R168, its example: 2.25, then -2.25, then 7.0 and 1.5, from fp32 to f4. -/
theorem test_stochastic_rounding : ((convertStochastic 0x15 0x10 0x3FFFFFFF 0x40100000).1, (convertStochastic 0x15 0x10 0x40000000 0x40100000).1,
    (convertStochastic 0x15 0x10 0x3FFFFFFF 0xC0100000).1, (convertStochastic 0x15 0x10 0x40000000 0xC0100000).1,
    (convertStochastic 0x15 0x10 0 0x40E00000).1, (convertStochastic 0x15 0x10 0 0x3FC00000).1) = (5, 4, 13, 12, 7, 3) := by decide +kernel

/-- The lead of R113's example: v8 holds 2^24, 1, 1 and -2^24. -/
def sums : State := lead [] { av := { tags := [(4, 0x15), (8, 0x15), (12, 0x15)], vl := 4 }, v := [(8, 0xCB8000003F8000003F8000004B800000)] }

/-- Element 0 of v4 after a reduction. -/
def sumAfter (i : Instr) : Option (BitVec 32) := match exec i sums with
  | .next t => some ((sget 0 t.curTile.ctx.v 4).truncate 32) | _ => none

/-- R113, its example: in sequence 0, pairwise 1. -/
theorem test_float_reductions : (sumAfter (.vredsumo 4 8 12 0), sumAfter (.vredsum 4 8 12 0)) = (some 0, some 0x3F800000) := by decide +kernel

/-- R22, R113: the reduction of the example sets NX and records element 0. -/
theorem test_float_reduction_flag : (match exec (.vredsum 4 8 12 0) sums with
    | .next t => some (t.cur.fstat, sget 0 t.cur.fidx 4) | _ => none) = some (0x10, 0x8000000000010000) := by decide +kernel

/-- FIPS 205: the checksum of 32 zero digits is 480, three digits 1, E, 0. -/
theorem test_signature_checksum : (Slh.chainDigits (List.replicate 16 0)).drop 32 = [1, 14, 0] := by decide +kernel

/-- FIPS 205: digits of 12 bits are read highest bit first. -/
theorem test_signature_digits : Slh.digits 12 2 [0x12, 0x34, 0x56] = [0x123, 0x456] := by decide +kernel

end Sys2Proof.Tests
end

section
/-! PROOF. Encoding and decoding (R8, R9, R23 to R45): the fields of a word that is put together from its fields, and the word of every
instruction decoded. -/

namespace Sys2Proof.Laws

open BitVec

/-! ### Fields of a word (R9) -/

/-- The fields of a word of three registers and an 11-bit function (R24). -/
theorem registerWord_fields {o : BitVec 6} {x y z : BitVec 5} {f : BitVec 11} {w : BitVec 32} (h : o ++ x ++ y ++ z ++ f = w) :
    w.extractLsb' 26 6 = o ∧ w.extractLsb' 21 5 = x ∧ w.extractLsb' 16 5 = y ∧ w.extractLsb' 11 5 = z ∧ w.extractLsb' 0 11 = f := by
  subst h
  refine ⟨?_, ?_, ?_, ?_, ?_⟩ <;>
    simp (disch := decide) only [extractLsb'_append_eq_of_le, extractLsb'_append_eq_of_add_le, Nat.reduceSub, extractLsb'_eq_self]

/-- The fields of a vector word: three registers, a mask and an 8-bit function (R31). -/
theorem vectorWord_fields {o : BitVec 6} {x y z : BitVec 5} {k : BitVec 3} {f : BitVec 8} {w : BitVec 32}
    (h : o ++ x ++ y ++ z ++ k ++ f = w) :
    w.extractLsb' 26 6 = o ∧ w.extractLsb' 21 5 = x ∧ w.extractLsb' 16 5 = y ∧ w.extractLsb' 11 5 = z ∧ w.extractLsb' 8 3 = k ∧
      w.extractLsb' 0 8 = f := by
  subst h
  refine ⟨?_, ?_, ?_, ?_, ?_, ?_⟩ <;>
    simp (disch := decide) only [extractLsb'_append_eq_of_le, extractLsb'_append_eq_of_add_le, Nat.reduceSub, extractLsb'_eq_self]

/-- The fields of a word of two registers, a 3-bit function and a 13-bit immediate (R26, R28). -/
theorem offsetWord_fields {o : BitVec 6} {x y : BitVec 5} {f : BitVec 3} {d : BitVec 13} {w : BitVec 32} (h : o ++ x ++ y ++ f ++ d = w) :
    w.extractLsb' 26 6 = o ∧ w.extractLsb' 21 5 = x ∧ w.extractLsb' 16 5 = y ∧ w.extractLsb' 13 3 = f ∧ w.extractLsb' 0 13 = d := by
  subst h
  refine ⟨?_, ?_, ?_, ?_, ?_⟩ <;>
    simp (disch := decide) only [extractLsb'_append_eq_of_le, extractLsb'_append_eq_of_add_le, Nat.reduceSub, extractLsb'_eq_self]

/-- The fields of a word of two registers: those of the lower half are fields of its 16 bits. -/
theorem halfWord_fields {o : BitVec 6} {x y : BitVec 5} {d : BitVec 16} {w : BitVec 32} (h : o ++ x ++ y ++ d = w) :
    w.extractLsb' 26 6 = o ∧ w.extractLsb' 21 5 = x ∧ w.extractLsb' 16 5 = y ∧ w.extractLsb' 11 5 = d.extractLsb' 11 5 ∧
      w.extractLsb' 0 11 = d.extractLsb' 0 11 ∧ w.extractLsb' 0 16 = d := by
  subst h
  refine ⟨?_, ?_, ?_, ?_, ?_, ?_⟩ <;>
    simp (disch := decide) only [extractLsb'_append_eq_of_le, extractLsb'_append_eq_of_add_le, Nat.reduceSub, extractLsb'_eq_self]

/-! ### The word of every instruction, by major (Table 1.4) -/

/-- Scalar and system instructions, majors 0x00 to 0x0F (R24 to R30). -/
theorem decode_encode_scalar {i : Instr} {w : BitVec 32} (hm : majorOf i ≤ 0xF) (h : encode i = some w) :
    decode w = .ok i := by
  cases i with
  | tret | fenceI =>
    cases h
    rfl
  | ill | mwait =>
    obtain ⟨hm, hx, hy, hz, hf⟩ := registerWord_fields (Option.some.inj h)
    unfold decode decodeWord
    rw [hm]
    unfold decodeSys
    rw [hf, hx, hy, hz]
    rfl
  | trap | brk | fence | fenceQ =>
    cases h
    unfold decode decodeWord
    simp (disch := decide) only [extractLsb'_append_eq_of_le, Nat.reduceSub, reduceExtractLsb', reduceToNat]
    unfold decodeSys
    simp (disch := decide) only [extractLsb'_append_eq_of_le, extractLsb'_append_eq_of_add_le, Nat.reduceSub, extractLsb'_eq_self,
      reduceExtractLsb', reduceToNat]
    rfl
  | add | sub | and | or | xor | andn | sll | srl | sra | rol | ror | slt | sltu | min | max | minu | maxu | mul | mulh | mulhu |
  mulhsu | div | divu | rem | remu =>
    obtain ⟨hm, hx, hy, hz, hf⟩ := registerWord_fields (Option.some.inj h)
    unfold decode decodeWord
    rw [hm]
    unfold decodeIalu
    rw [hf, hx, hy, hz]
    rfl
  | clz | ctz | ffs | popc | bswap =>
    obtain ⟨hm, hx, hy, hz, hf, -⟩ := halfWord_fields (Option.some.inj h)
    unfold decode decodeWord
    rw [hm]
    unfold decodeIalu
    rw [hf, hx, hy, hz]
    rfl
  | addi | andi | ori | xori | jalr =>
    obtain ⟨hm, hx, hy, -, -, hd⟩ := halfWord_fields (Option.some.inj h)
    unfold decode decodeWord
    rw [hm, hx, hy, hd]
    rfl
  | slti | sltiu =>
    cases h
    unfold decode decodeWord
    simp (disch := decide) only [extractLsb'_append_eq_of_le, Nat.reduceSub, extractLsb'_eq_self, reduceToNat]
    unfold decodeSlti
    simp (disch := decide) only [extractLsb'_append_eq_of_le, extractLsb'_append_eq_of_add_le, Nat.reduceSub, extractLsb'_eq_self,
      reduceToNat]
    rfl
  | slli | srli | srai | rori =>
    cases h
    unfold decode decodeWord
    simp (disch := decide) only [extractLsb'_append_eq_of_le, Nat.reduceSub, extractLsb'_eq_self, reduceToNat]
    unfold decodeShift
    simp (disch := decide) only [extractLsb'_append_eq_of_le, extractLsb'_append_eq_of_add_le, Nat.reduceSub, extractLsb'_eq_self,
      reduceExtractLsb', reduceToNat]
    rfl
  | lih =>
    cases h
    unfold decode decodeWord
    simp (disch := decide) only [extractLsb'_append_eq_of_le, extractLsb'_append_eq_of_add_le, Nat.reduceSub, extractLsb'_eq_self,
      reduceToNat]
    rfl
  | ldB | ldH | ldW | ldD | ldBu | ldHu | ldWu =>
    obtain ⟨hm, hx, hy, hf, hd⟩ := offsetWord_fields (Option.some.inj h)
    unfold decode decodeWord
    rw [hm]
    unfold decodeLd
    rw [hf, hx, hy, hd]
    rfl
  | stB | stH | stW | stD =>
    obtain ⟨hm, hx, hy, hf, hd⟩ := offsetWord_fields (Option.some.inj h)
    unfold decode decodeWord
    rw [hm]
    unfold decodeSt
    rw [hf, hx, hy, hd]
    rfl
  | amoSwap | amoAdd | amoAnd | amoOr | amoXor | amoMin | amoMax | amoMinu | amoMaxu | amoCas | orderedLoadZext | orderedLoadSext
  | orderedStore =>
    cases h
    unfold decode decodeWord
    simp (disch := decide) only [extractLsb'_append_eq_of_le, Nat.reduceSub, extractLsb'_eq_self, reduceExtractLsb', reduceToNat]
    unfold decodeAmo
    simp (disch := decide) only [extractLsb'_append_eq_of_le, extractLsb'_append_eq_of_add_le, Nat.reduceSub, extractLsb'_eq_self,
      reduceExtractLsb', reduceToNat]
    rfl
  | beq | bne | blt | bge | bltu | bgeu =>
    obtain ⟨hm, hx, hy, hf, hd⟩ := offsetWord_fields (Option.some.inj h)
    unfold decode decodeWord
    rw [hm]
    unfold decodeBr
    rw [hf, hx, hy, hd]
    rfl
  | jal =>
    cases h
    unfold decode decodeWord
    simp (disch := decide) only [extractLsb'_append_eq_of_le, extractLsb'_append_eq_of_add_le, Nat.reduceSub, extractLsb'_eq_self,
      reduceToNat]
    rfl
  | csrrw | csrrs | csrrc | csrrwi | csrrsi | csrrci =>
    cases h
    unfold decode decodeWord
    simp (disch := decide) only [extractLsb'_append_eq_of_le, Nat.reduceSub, extractLsb'_eq_self, reduceToNat]
    unfold decodeCsr
    simp (disch := decide) only [extractLsb'_append_eq_of_le, extractLsb'_append_eq_of_add_le, Nat.reduceSub, extractLsb'_eq_self,
      reduceToNat]
    rfl
  | _ => exact absurd hm (of_decide_eq_false rfl)

/-- Vector operations and mask operations, majors 0x10 to 0x13 (R31 to R33). -/
theorem decode_encode_vectorRegister {i : Instr} {w : BitVec 32} (hm : 0x10 ≤ majorOf i ∧ majorOf i ≤ 0x13) (h : encode i = some w) :
    decode w = .ok i := by
  cases i with
  | vadd | vsub | vmul | vmulh | vfma | vfms | vfnma | vdiv | vmin | vmax | vsadd | vssub | vand | vor | vxor | vandn | vsll |
  vsrl | vsra | vceq | vcne | vclt | vcle | vabs | vneg | vclz | vctz | vffs | vpopc | vexp2 | vlog2 | vrcp | vrsq | vcvt |
  vcvtRne | vcvtRtz | vcvtRdn | vcvtRup | vcvtRmm | vcvtSr | vquant | vdequant =>
    obtain ⟨hm, hx, hy, hz, hk, hf⟩ := vectorWord_fields (Option.some.inj h)
    unfold decode decodeWord
    rw [hm]
    unfold decodeVop
    rw [hf, hx, hy, hz, hk]
    rfl
  | vaddS | vsubS | vmulS | vmulhS | vfmaS | vfmsS | vfnmaS | vdivS | vminS | vmaxS | vsaddS | vssubS | vandS | vorS | vxorS |
  vandnS | vsllS | vsrlS | vsraS | vceqS | vcneS | vcltS | vcleS =>
    obtain ⟨hm, hx, hy, hz, hk, hf⟩ := vectorWord_fields (Option.some.inj h)
    unfold decode decodeWord
    rw [hm]
    unfold decodeVops
    rw [hf, hx, hy, hz, hk]
    rfl
  | vaddI | vsubI | vmulI | vmulhI | vminI | vmaxI | vsaddI | vssubI | vandI | vorI | vxorI | vandnI | vsllI | vsrlI | vsraI |
  vceqI | vcneI | vcltI | vcleI =>
    obtain ⟨hm, hx, hy, hz, hk, hf⟩ := vectorWord_fields (Option.some.inj h)
    unfold decode decodeWord
    rw [hm]
    unfold decodeVopi
    rw [hf, hx, hy, hz, hk]
    rfl
  | mpopc | mfirst =>
    obtain ⟨hm, hx, hy, hz, hk, hf⟩ := vectorWord_fields (Option.some.inj h)
    unfold decode decodeWord
    rw [hm]
    unfold decodeVmsk
    rw [hf, hx, hy, hz, hk]
    rfl
  | mand | mor | mxor | mandn | morn | mnot | mset | mclr =>
    cases h
    unfold decode decodeWord
    simp (disch := decide) only [extractLsb'_append_eq_of_le, Nat.reduceSub, extractLsb'_eq_self, reduceToNat]
    unfold decodeVmsk
    simp (disch := decide) only [extractLsb'_append_eq_of_le, extractLsb'_append_eq_of_add_le, Nat.reduceSub, extractLsb'_eq_self,
      reduceExtractLsb', reduceToNat]
    rfl
  | _ => exact absurd hm (of_decide_eq_false rfl)

/-- Permutes, vector configuration, vector memory and matrix instructions, majors 0x14 to 0x1B (R34 to R38). -/
theorem decode_encode_vectorMemory {i : Instr} {w : BitVec 32} (hm : 0x14 ≤ majorOf i ∧ majorOf i ≤ 0x1B) (h : encode i = some w) :
    decode w = .ok i := by
  cases i with
  | vslideup | vslidedn | vgather | vcompress | vexpand | vbcast | vredsum | vredsumo | vredmin | vredmax =>
    obtain ⟨hm, hx, hy, hz, hk, hf⟩ := vectorWord_fields (Option.some.inj h)
    unfold decode decodeWord
    rw [hm]
    unfold decodeVprm
    rw [hf, hx, hy, hz, hk]
    rfl
  | vext | vins =>
    cases h
    unfold decode decodeWord
    simp (disch := decide) only [extractLsb'_append_eq_of_le, Nat.reduceSub, extractLsb'_eq_self, reduceToNat]
    unfold decodeVprm
    simp (disch := decide) only [extractLsb'_append_eq_of_le, extractLsb'_append_eq_of_add_le, Nat.reduceSub, extractLsb'_eq_self,
      reduceExtractLsb', reduceToNat]
    rfl
  | vsetl | vtag =>
    cases h
    unfold decode decodeWord
    simp (disch := decide) only [extractLsb'_append_eq_of_le, Nat.reduceSub, extractLsb'_eq_self, reduceToNat]
    unfold decodeVcfg
    simp (disch := decide) only [extractLsb'_append_eq_of_le, extractLsb'_append_eq_of_add_le, Nat.reduceSub, extractLsb'_eq_self,
      reduceExtractLsb', reduceToNat]
    rfl
  | vld | vlds | vldx | vldFf | vldt =>
    obtain ⟨hm, hx, hy, hz, hk, hf⟩ := vectorWord_fields (Option.some.inj h)
    unfold decode decodeWord
    rw [hm]
    unfold decodeVld
    rw [hf, hx, hy, hz, hk]
    rfl
  | vst | vsts | vstx | vstt | vmmAdd | vmmSub | vmmMul | vmmMin | vmmMax | vmmAnd | vmmOr | vmmXor | vmmCpy =>
    obtain ⟨hm, hx, hy, hz, hk, hf⟩ := vectorWord_fields (Option.some.inj h)
    unfold decode decodeWord
    rw [hm]
    unfold decodeVst
    rw [hf, hx, hy, hz, hk]
    rfl
  | vfba =>
    cases h
    unfold decode decodeWord
    simp (disch := decide) only [extractLsb'_append_eq_of_le, Nat.reduceSub, reduceExtractLsb', reduceToNat]
    unfold decodeVst
    simp (disch := decide) only [extractLsb'_append_eq_of_le, extractLsb'_append_eq_of_add_le, Nat.reduceSub, extractLsb'_eq_self,
      reduceExtractLsb', reduceToNat]
    rfl
  | mcfg =>
    cases h
    unfold decode decodeWord
    simp (disch := decide) only [extractLsb'_append_eq_of_le, Nat.reduceSub, reduceExtractLsb', reduceToNat]
    unfold decodeMcfg
    simp (disch := decide) only [extractLsb'_append_eq_of_le, extractLsb'_append_eq_of_add_le, Nat.reduceSub, extractLsb'_eq_self,
      reduceExtractLsb', reduceToNat]
    rfl
  | mma | mmaX | mmaG =>
    cases h
    unfold decode decodeWord
    simp (disch := decide) only [extractLsb'_append_eq_of_le, Nat.reduceSub, extractLsb'_eq_self, reduceToNat]
    unfold decodeMma
    simp (disch := decide) only [extractLsb'_append_eq_of_le, extractLsb'_append_eq_of_add_le, Nat.reduceSub, extractLsb'_eq_self,
      reduceExtractLsb', reduceToNat]
    rfl
  | mmaS24 | mmaBm =>
    cases h
    unfold decode decodeWord
    simp (disch := decide) only [extractLsb'_append_eq_of_le, Nat.reduceSub, extractLsb'_eq_self, reduceToNat]
    unfold decodeMspa
    simp (disch := decide) only [extractLsb'_append_eq_of_le, extractLsb'_append_eq_of_add_le, Nat.reduceSub, extractLsb'_eq_self,
      reduceToNat]
    rfl
  | mzero | mrsum | mld | mst | mstSm | mdrain =>
    cases h
    unfold decode decodeWord
    simp (disch := decide) only [extractLsb'_append_eq_of_le, Nat.reduceSub, extractLsb'_eq_self, reduceToNat]
    unfold decodeMacc
    simp (disch := decide) only [extractLsb'_append_eq_of_le, extractLsb'_append_eq_of_add_le, Nat.reduceSub, extractLsb'_eq_self,
      reduceExtractLsb', reduceToNat]
    rfl
  | _ => exact absurd hm (of_decide_eq_false rfl)

/-- Transfers, the fabric, streams, channels, scheduling and operating points, majors 0x1C to 0x25 (R39 to R42). -/
theorem decode_encode_late {i : Instr} {w : BitVec 32} (hm : 0x1C ≤ majorOf i ∧ majorOf i ≤ 0x25) (h : encode i = some w) :
    decode w = .ok i := by
  cases i with
  | xwaitE | fstart | fstop | trig | yield =>
    cases h
    rfl
  | xcopyQ | xqry =>
    obtain ⟨hm, hx, hy, hz, hf, -⟩ := halfWord_fields (Option.some.inj h)
    unfold decode decodeWord
    rw [hm]
    unfold decodeXfer
    rw [hf, hx, hy, hz]
    rfl
  | xcopy | xabort =>
    cases h
    unfold decode decodeWord
    simp (disch := decide) only [extractLsb'_append_eq_of_le, Nat.reduceSub, extractLsb'_eq_self, reduceExtractLsb', reduceToNat]
    unfold decodeXfer
    simp (disch := decide) only [extractLsb'_append_eq_of_le, extractLsb'_append_eq_of_add_le, Nat.reduceSub, extractLsb'_eq_self,
      reduceExtractLsb', reduceToNat]
    rfl
  | xwaitW | xev =>
    cases h
    unfold decode decodeWord
    simp (disch := decide) only [extractLsb'_append_eq_of_le, Nat.reduceSub, extractLsb'_eq_self, reduceExtractLsb', reduceToNat]
    unfold decodeXsyn
    simp (disch := decide) only [extractLsb'_append_eq_of_le, extractLsb'_append_eq_of_add_le, Nat.reduceSub, extractLsb'_eq_self,
      reduceExtractLsb', reduceToNat]
    rfl
  | fcfgLd | fcfgSw =>
    obtain ⟨hm, hx, hy, hz, hf, -⟩ := halfWord_fields (Option.some.inj h)
    unfold decode decodeWord
    rw [hm]
    unfold decodeFcfg
    rw [hf, hx, hy, hz]
    rfl
  | fstat =>
    obtain ⟨hm, hx, hy, hz, hf⟩ := registerWord_fields (Option.some.inj h)
    unfold decode decodeWord
    rw [hm]
    unfold decodeFctl
    rw [hf, hx, hy, hz]
    rfl
  | fsave | frest | fmark =>
    cases h
    unfold decode decodeWord
    simp (disch := decide) only [extractLsb'_append_eq_of_le, Nat.reduceSub, reduceExtractLsb', reduceToNat]
    unfold decodeFctl
    simp (disch := decide) only [extractLsb'_append_eq_of_le, extractLsb'_append_eq_of_add_le, Nat.reduceSub, extractLsb'_eq_self,
      reduceExtractLsb', reduceToNat]
    rfl
  | fportW | fportWEos | fportR | fportRStatus =>
    cases h
    unfold decode decodeWord
    simp (disch := decide) only [extractLsb'_append_eq_of_le, Nat.reduceSub, extractLsb'_eq_self, reduceExtractLsb', reduceToNat]
    unfold decodeFprt
    simp (disch := decide) only [extractLsb'_append_eq_of_le, extractLsb'_append_eq_of_add_le, Nat.reduceSub, extractLsb'_eq_self,
      reduceExtractLsb', reduceToNat]
    rfl
  | sopen | sadv | spos =>
    obtain ⟨hm, hx, hy, hz, hf, -⟩ := halfWord_fields (Option.some.inj h)
    unfold decode decodeWord
    rw [hm]
    unfold decodeStrm
    rw [hf, hx, hy, hz]
    rfl
  | sclose =>
    cases h
    unfold decode decodeWord
    simp (disch := decide) only [extractLsb'_append_eq_of_le, Nat.reduceSub, extractLsb'_eq_self, reduceToNat]
    unfold decodeStrm
    simp (disch := decide) only [extractLsb'_append_eq_of_le, extractLsb'_append_eq_of_add_le, Nat.reduceSub, extractLsb'_eq_self,
      reduceExtractLsb', reduceToNat]
    rfl
  | chsend | chrecv | chpoll | chseq =>
    obtain ⟨hm, hx, hy, hz, hf⟩ := registerWord_fields (Option.some.inj h)
    unfold decode decodeWord
    rw [hm]
    unfold decodeChan
    rw [hf, hx, hy, hz]
    rfl
  | chbind =>
    obtain ⟨hm, hx, hy, hz, hf, -⟩ := halfWord_fields (Option.some.inj h)
    unfold decode decodeWord
    rw [hm]
    unfold decodeChan
    rw [hf, hx, hy, hz]
    rfl
  | drgtSet | drgtRd | drgtFreeze | drgtThaw =>
    cases h
    unfold decode decodeWord
    simp (disch := decide) only [extractLsb'_append_eq_of_le, Nat.reduceSub, extractLsb'_eq_self, reduceExtractLsb', reduceToNat]
    unfold decodeDrgt
    simp (disch := decide) only [extractLsb'_append_eq_of_le, extractLsb'_append_eq_of_add_le, Nat.reduceSub, extractLsb'_eq_self,
      reduceExtractLsb', reduceToNat]
    rfl
  | waitCtr =>
    obtain ⟨hm, hx, hy, hz, hf⟩ := registerWord_fields (Option.some.inj h)
    unfold decode decodeWord
    rw [hm]
    unfold decodeSchd
    rw [hf, hx, hy, hz]
    rfl
  | launch | waitCh | rtake | ctrRd =>
    obtain ⟨hm, hx, hy, hz, hf, -⟩ := halfWord_fields (Option.some.inj h)
    unfold decode decodeWord
    rw [hm]
    unfold decodeSchd
    rw [hf, hx, hy, hz]
    rfl
  | exit | ctrAdd | cancel | gsqArm =>
    cases h
    unfold decode decodeWord
    simp (disch := decide) only [extractLsb'_append_eq_of_le, Nat.reduceSub, reduceExtractLsb', reduceToNat]
    unfold decodeSchd
    simp (disch := decide) only [extractLsb'_append_eq_of_le, extractLsb'_append_eq_of_add_le, Nat.reduceSub, extractLsb'_eq_self,
      reduceExtractLsb', reduceToNat]
    rfl
  | spalloc | opreq | opcap =>
    obtain ⟨hm, hx, hy, hz, hf, -⟩ := halfWord_fields (Option.some.inj h)
    unfold decode decodeWord
    rw [hm]
    unfold decodeOppt
    rw [hf, hx, hy, hz]
    rfl
  | spfree =>
    cases h
    unfold decode decodeWord
    simp (disch := decide) only [extractLsb'_append_eq_of_le, Nat.reduceSub, reduceExtractLsb', reduceToNat]
    unfold decodeOppt
    simp (disch := decide) only [extractLsb'_append_eq_of_le, extractLsb'_append_eq_of_add_le, Nat.reduceSub, extractLsb'_eq_self,
      reduceExtractLsb', reduceToNat]
    rfl
  | _ => exact absurd hm (of_decide_eq_false rfl)

/-- The major of an instruction with a word is one of Table 1.4. -/
theorem majorOf_le_of_encode {i : Instr} {w : BitVec 32} (h : encode i = some w) : majorOf i ≤ 0x25 := by
  have all : (!(encode i).isSome || Nat.ble (majorOf i) 0x25) = true := by cases i <;> rfl
  rw [h] at all
  exact Nat.le_of_ble_eq_true all

/-- Decoding the word of an instruction gives the instruction back. -/
theorem decode_encode {i : Instr} {w : BitVec 32} (h : encode i = some w) : decode w = .ok i := by
  have hm := majorOf_le_of_encode h
  obtain h1 | h1 | h1 | h1 : majorOf i ≤ 0xF ∨ (0x10 ≤ majorOf i ∧ majorOf i ≤ 0x13) ∨ (0x14 ≤ majorOf i ∧ majorOf i ≤ 0x1B) ∨
      (0x1C ≤ majorOf i ∧ majorOf i ≤ 0x25) := by omega
  · exact decode_encode_scalar h1 h
  · exact decode_encode_vectorRegister h1 h
  · exact decode_encode_vectorMemory h1 h
  · exact decode_encode_late h1 h

/-- Settles O2: by the layout of each major's words, the decoder reads every field where the encoder puts it. -/
theorem decodeEncode : Obligations.DecodeEncode := fun _ _ _ h => decode_encode h

end Sys2Proof.Laws
end

section
/-! PROOF. What a fetched word does: decoding and running it, the traps of the words that are no instruction (R43 to R45), one turn of a
tile (R257, R357), and the state right after reset (R12, R437). -/

namespace Sys2Proof.Laws

open Sys2Proof.Machine Sys2Proof.Spec

/-! ### Decoded words -/

/-- Settles O1: each word decodes by evaluation. -/
theorem workedWords : Obligations.WorkedWords :=
  ⟨rfl, rfl, rfl, rfl, rfl, rfl, rfl, rfl, rfl, rfl, rfl, rfl, rfl, rfl, rfl, rfl, rfl, rfl⟩

/-- Well-formedness is that of the instruction, for the instructions of majors 0x20 to 0x25 too. -/
theorem wellFormed_toInstr (d : Decoded) : d.toInstr.wellFormed = d.wellFormed := by
  cases d with
  | early i => rfl
  | late l => cases l <;> rfl

/-- So is the meaning. -/
theorem exec_toInstr (d : Decoded) (s : State) : exec d.toInstr s = Decoded.exec d s := by
  cases d with
  | early i => rfl
  | late l => cases l <;> rfl

theorem decode_eq_ok {w : BitVec 32} {i : Instr} (h : decode w = .ok i) : ∃ d, decodeWord w = .ok d ∧ d.toInstr = i := by
  unfold decode at h
  cases e : decodeWord w with
  | error r => rw [e] at h; exact nomatch h
  | ok d => rw [e] at h; exact ⟨d, rfl, Except.ok.inj h⟩

/-- The word of a well-formed instruction runs that instruction. -/
theorem runWord_of_decode {w : BitVec 32} {i : Instr} (h : decode w = .ok i) (hi : i.wellFormed = true) (s : State) :
    runWord w s = exec i s := by
  obtain ⟨d, hd, rfl⟩ := decode_eq_ok h
  rw [wellFormed_toInstr] at hi
  rw [runWord, hd, exec_toInstr]
  exact if_pos hi

/-! ### Words that are no instruction (R43 to R45) -/

theorem wordReject_of_error {w : BitVec 32} {r : Reject} (h : decodeWord w = .error r) : wordReject w = some r := by
  simp [wordReject, h]

theorem wordReject_of_illFormed {w : BitVec 32} {i : Instr} (h : decode w = .ok i) (hi : i.wellFormed = false) :
    wordReject w = some .fieldReserved := by
  obtain ⟨d, hd, rfl⟩ := decode_eq_ok h
  rw [wellFormed_toInstr] at hi
  simp [wordReject, hd, hi]

theorem leadOnlyMajor_iff (w : BitVec 32) : leadOnlyMajor w = true ↔ 0x10 ≤ w.toNat / 2 ^ 26 ∧ w.toNat / 2 ^ 26 ≤ 0x20 := by
  have hw := w.isLt
  have hf : fld w 26 6 = w.toNat / 2 ^ 26 := by
    rw [fld, BitVec.extractLsb'_toNat, Nat.shiftRight_eq_div_pow]; exact Nat.mod_eq_of_lt (by omega)
  simp [leadOnlyMajor, hf]

/-- A word that is no instruction raises its cause, with no older engine entry at once. -/
theorem exec_nonInstructionWord {w : BitVec 32} {s : State} {c : BitVec 8} (hb : s.enginesBusy = false) (hc : wordCause w s.isLead = some c) :
    exec (.nonInstructionWord w) s = .next (takeTrap s s.ct s.cs (decodeTrap c)) := by
  show execNonInstructionWord w s = _
  rw [execNonInstructionWord, hc, ← raise_idle _ hb]

/-- A reserved major or function is `ILL`. -/
theorem wordCause_of_reserved {w : BitVec 32} (lead : Bool)
    (h : decodeWord w = .error .majorReserved ∨ decodeWord w = .error .functionReserved) : wordCause w lead = some cILL := by
  rcases h with h | h <;> rw [wordCause, wordReject_of_error h]

/-- A reserved field is `RSVD`, but `ILL` where the major is lead-only and the strand is not the lead (R44). -/
theorem wordCause_of_fieldReserved {w : BitVec 32} (lead : Bool) (h : wordReject w = some .fieldReserved) :
    wordCause w lead =
      some (if 0x10 ≤ w.toNat / 2 ^ 26 ∧ w.toNat / 2 ^ 26 ≤ 0x20 ∧ lead = false then cILL else cRSVD) := by
  rw [wordCause, h]
  simp only [Bool.and_eq_true, leadOnlyMajor_iff, Bool.not_eq_true', and_assoc]
  split <;> rfl

/-- Settles O4: the cause of a word is read off its refusal, in the order of R44. -/
theorem decodeTraps : Obligations.DecodeTraps := fun _ _ hb =>
  ⟨fun h => exec_nonInstructionWord hb (wordCause_of_reserved _ h),
   fun h => exec_nonInstructionWord hb (wordCause_of_fieldReserved _ (wordReject_of_error h)),
   fun _ h hi => exec_nonInstructionWord hb (wordCause_of_fieldReserved _ (wordReject_of_illFormed h hi))⟩

/-! ### One turn of a tile -/

/-- Passing a round changes nothing of a strand but its age, its promotion and its `yield`. -/
theorem passStrand_default : passStrand {} = {} := rfl

theorem endRound_strand (x : Tile) (k : Nat) : (endRound x).strand k = passStrand (x.strand k) :=
  sget_map ({} : Strand) (fun _ => passStrand) x.ctx.strands k passStrand_default

/-- The strand that is charged keeps what is pending for it. -/
theorem charge_pending (t k : Nat) (s : State) :
    (charge t k s).cur.traps = (s.strandOf t k).traps ∧ (charge t k s).cur.cancels = (s.strandOf t k).cancels := by
  have hc : (charge t k s).cur = ((charge t k s).tile t).strand k := rfl
  have ht : (charge t k s).tile t = _ := State.tile_setTile_same ..
  rw [hc, ht, Tile.strand_setStrand_same, endRound_strand]
  exact ⟨rfl, rfl⟩

/-- A strand with nothing pending runs the word that it fetches. -/
theorem issueStrand_of_fetch {s s1 : State} {w : BitVec 32} (ht : s.cur.traps = []) (hc : s.cur.cancels = [])
    (hf : fetchWord s.ct s.cs s = .ok w s1) (hn : namesPending s1 w = false) : issueStrand s = runWord w s1 := by
  rw [issueStrand, ht, hc, hf]
  simp [hn]

/-- The one slot to issue goes on, or stands at a wait of its own. -/
theorem firstIssue_issued {t k : Nat} {s s1 : State} (h : issueStrand (charge t k s) = .next s1) (hb : beforeIssue s1 t k = none) :
    firstIssue t s false [k] = some (.next s1) := by
  rw [firstIssue, h]; simp only [hb]

/-- The one slot to issue only begins to wait: it is not charged. -/
theorem firstIssue_waits {t k : Nat} {s s1 : State} {v : WaitKind} (h : issueStrand (charge t k s) = .next s1)
    (hb : beforeIssue s1 t k = some v) : firstIssue t s false [k] =
      some (.next ((s.setStrandOf t k { s.strandOf t k with state := .waiting v, age := 0 }).noteWait v)) := by
  rw [firstIssue, h]; simp only [hb]; rfl

/-- The one slot to issue answers no state. -/
theorem firstIssue_stops {t k : Nat} {s : State} (h : ∀ s1, issueStrand (charge t k s) ≠ .next s1) :
    firstIssue t s false [k] = some (issueStrand (charge t k s)) := by
  rw [firstIssue]
  cases e : issueStrand (charge t k s) with
  | next s1 => exact absurd e (h s1)
  | _ => rfl

/-- A step at which the agenda gives tile `tl` its turn. -/
theorem step_of_issue {s : State} {tl : Nat} {x : Bool} {ag : List Turn} (h : s.agenda = .issue tl x :: ag)
    (hs : (s.tile tl).still = false) {o : Host.Outcome State Fault Refusal}
    (ho : firstIssue tl (issuing s tl x ag) false (issueOrder (issuing s tl x ag) tl) = some o) : step s = o := by
  have e : tileTurn tl { s with cyc := s.cyc + 1, agenda := ag, lag := x } =
      firstIssue tl (issuing s tl x ag) false (issueOrder (issuing s tl x ag) tl) := if_neg (by rw [Bool.not_eq_true]; exact hs)
  unfold step
  rw [h]
  exact congrArg (Option.getD · _) (e.trans ho)

/-- Settles O3: a turn is the issue of its one slot, and the issue of a slot with nothing pending runs the decoded word.  That the beginning
of a wait is not charged is the model's choice (log 21). -/
theorem stepRunsDecoded : Obligations.StepRunsDecoded := by
  intro s tl k ag x w i s1 hag hord hstill _ htraps hcancels hf hn hd hi
  have hrun : issueStrand (charge tl k (issuing s tl x ag)) = exec i s1 := by
    obtain ⟨h1, h2⟩ := charge_pending tl k (issuing s tl x ag)
    rw [issueStrand_of_fetch (h1.trans htraps) (h2.trans hcancels) hf hn, runWord_of_decode hd hi]
  have hstep : ∀ {o}, firstIssue tl (issuing s tl x ag) false [k] = some o → step s = o :=
    fun h => step_of_issue hag hstill (hord ▸ h)
  refine ⟨fun t ht hb => ?_, fun t v ht hb => ?_, fun hne => ?_⟩
  · exact hstep (firstIssue_issued (hrun.trans ht) hb)
  · exact hstep (firstIssue_waits (hrun.trans ht) hb)
  · exact hrun ▸ hstep (firstIssue_stops (hrun.symm ▸ hne))

/-! ### Right after reset -/

/-- A strand slot of the reset state holds zeros (R12, R21). -/
theorem reset_strandOf (h k : Nat) : State.reset.strandOf h k = {} := rfl

theorem reg_default (r : BitVec 5) : ({} : Strand).reg r = 0 := by simp [Strand.reg]

/-- Settles O59: the reset state lists no tile and no partition, and an unlisted one has its initial fields. -/
theorem resetValues : Obligations.ResetValues :=
  ⟨⟨reset_mem_wf, fun _ => rfl⟩, rfl, rfl, rfl,
   fun h => ⟨rfl, rfl, rfl, fun k => by
     rw [reset_strandOf]
     exact ⟨rfl, rfl, rfl, rfl, rfl, rfl, rfl, rfl, rfl, reg_default⟩⟩,
   fun _ => rfl⟩

end Sys2Proof.Laws
end

section
/-! PROOF. An access of the device itself, as the posting of a notice makes (R372), leaves every strand as it was, but for the written bits
of watches (R82): each of the operations that it goes through, said once. -/

namespace Sys2Proof.Laws

open Sys2Proof.Machine

/-- A strand but for the written bit of its watch. -/
def unwritten (y : Strand) : Strand := { y with written := false }

/-- The cursor is the same, and so is every strand but for the written bit of its watch. -/
structure Undisturbed (s t : State) : Prop where
  ct : t.ct = s.ct
  cs : t.cs = s.cs
  strand : ∀ h k, unwritten (t.strandOf h k) = unwritten (s.strandOf h k)

theorem Undisturbed.refl (s : State) : Undisturbed s s := ⟨rfl, rfl, fun _ _ => rfl⟩

theorem Undisturbed.trans {s t u : State} (a : Undisturbed s t) (b : Undisturbed t u) : Undisturbed s u :=
  ⟨b.ct.trans a.ct, b.cs.trans a.cs, fun h k => (b.strand h k).trans (a.strand h k)⟩

theorem undisturbed_foldl {α : Type} {f : State → α → State} (h : ∀ s a, Undisturbed s (f s a)) (l : List α) (s : State) :
    Undisturbed s (l.foldl f s) := by
  induction l generalizing s with
  | nil => exact .refl s
  | cons a r ih => exact (h s a).trans (ih _)

theorem undisturbed_ite {c : Prop} [Decidable c] {s a b : State} (ha : Undisturbed s a) (hb : Undisturbed s b) :
    Undisturbed s (if c then a else b) := by
  split
  exacts [ha, hb]

/-- A change of other fields than the tiles and the cursor. -/
theorem undisturbed_of {s t : State} (h1 : t.ct = s.ct) (h2 : t.cs = s.cs) (h3 : t.tiles = s.tiles) : Undisturbed s t :=
  ⟨h1, h2, fun h k => by simp only [State.strandOf, State.tile, h3]⟩

/-- Setting a tile whose strands are as before, but for the written bits. -/
theorem undisturbed_setTile {s : State} {t : Nat} {x : Tile} (h : ∀ k, unwritten (x.strand k) = unwritten ((s.tile t).strand k)) :
    Undisturbed s (s.setTile t x) :=
  ⟨rfl, rfl, fun u k => by rw [State.strandOf, State.tile_setTile]; split; exacts [by subst u; exact h k, rfl]⟩

/-- Changing the tiles by a function that keeps every strand but for the written bits. -/
theorem undisturbed_mapTiles {s t : State} {g : Nat × Tile → Nat × Tile} (h1 : t.ct = s.ct) (h2 : t.cs = s.cs)
    (h3 : t.tiles = s.tiles.map g) (h : ∀ p, (g p).1 = p.1 ∧ ∀ k, unwritten ((g p).2.strand k) = unwritten (p.2.strand k)) :
    Undisturbed s t :=
  ⟨h1, h2, fun u k => by
    have e : g = fun p => (p.1, (fun k x => (g (k, x)).2) p.1 p.2) := funext fun p => Prod.ext (h p).1 rfl
    rw [e] at h3
    simp only [State.strandOf, State.tile, h3, sget_eq_sfind, sfind_map (fun k x => (g (k, x)).2)]
    cases sfind s.tiles u
    exacts [rfl, (h _).2 k]⟩

/-! ### Watches, caches and directory -/

theorem wakeTile_strand (ag : Agent) (l t : Nat) (x : Tile) (k : Nat) :
    unwritten ((wakeTile ag l t x).strand k) = unwritten (x.strand k) := by
  have e : (wakeTile ag l t x).strand k = if watchHit ag l t k (x.strand k) then { x.strand k with written := true } else x.strand k :=
    sget_map ({} : Strand) (fun k y => if watchHit ag l t k y then { y with written := true } else y) x.ctx.strands k rfl
  rw [e]; split <;> rfl

theorem undisturbed_wakeWatches (s : State) (ag : Agent) (l : Nat) : Undisturbed s (wakeWatches s ag l) := by
  unfold wakeWatches; split
  · exact undisturbed_mapTiles rfl rfl rfl fun p => ⟨rfl, wakeTile_strand ag l p.1 p.2⟩
  · exact .refl s

theorem undisturbed_mscHold (r : Nat) (s : State) : Undisturbed s (mscHold r s) := by
  unfold mscHold
  extract_lets held s1
  split
  · exact .refl s
  · have h1 : Undisturbed s s1 := by
      refine undisturbed_ite (.refl s) ?_
      split
      exacts [undisturbed_of rfl rfl rfl, .refl s]
    clear_value s1
    exact h1.trans (undisturbed_of rfl rfl rfl)

theorem undisturbed_noteRegion (p : Bool) (l : Nat) (s : State) : Undisturbed s (noteRegion p l s) := by
  simp only [noteRegion]; split
  · exact undisturbed_of rfl rfl rfl
  · refine .trans ?_ (undisturbed_mscHold ..); exact undisturbed_of rfl rfl rfl

theorem undisturbed_refreshRegion (p : Bool) (l : Nat) (s : State) : Undisturbed s (refreshRegion p l s) :=
  undisturbed_ite (undisturbed_noteRegion ..) (.refl s)

theorem undisturbed_writeBack (l : Nat) (s : State) : Undisturbed s (writeBack l s) := by
  unfold writeBack; split <;> exact undisturbed_of rfl rfl rfl

theorem undisturbed_wakeDirty (t l : Nat) (s : State) : Undisturbed s (wakeDirty t l s) :=
  undisturbed_ite (undisturbed_of rfl rfl rfl) (.refl s)

theorem undisturbed_loseLine (t l : Nat) (s : State) : Undisturbed s (loseLine t l s) := by
  unfold loseLine
  split
  · exact undisturbed_setTile fun _ => rfl
  · extract_lets h s1 s2 s3
    have h3 : Undisturbed s s3 := by
      refine .trans (t := s2) ?_ (undisturbed_setTile (wakeTile_strand {} l t _))
      exact (undisturbed_wakeDirty t l s).trans (undisturbed_of rfl rfl rfl)
    clear_value s3
    exact undisturbed_ite (h3.trans (undisturbed_writeBack ..)) h3

theorem undisturbed_recallLine (l : Nat) (s : State) : Undisturbed s (recallLine l s) := by
  simp only [recallLine]; split
  · exact undisturbed_ite (undisturbed_refreshRegion ..) (.refl s)
  · exact (undisturbed_foldl (fun s _ => undisturbed_loseLine ..) _ s).trans (undisturbed_noteRegion ..)

theorem undisturbed_recallReserved (l : Nat) (s : State) : Undisturbed s (recallReserved l s) :=
  undisturbed_foldl (fun s t => by refine .trans ?_ (undisturbed_writeBack ..); exact undisturbed_setTile fun _ => rfl) _ s

theorem undisturbed_evictLine (t l : Nat) (s : State) : Undisturbed s (evictLine t l s) := by
  unfold evictLine; split
  · exact (undisturbed_loseLine ..).trans (undisturbed_noteRegion ..)
  · exact undisturbed_loseLine ..

theorem undisturbed_fillTile (t l : Nat) (s : State) : Undisturbed s (fillTile t l s) := by
  simp only [fillTile]; split
  · exact .refl s
  · split
    · exact .refl s
    · split
      · exact (undisturbed_evictLine ..).trans (undisturbed_setTile fun _ => rfl)
      · exact undisturbed_setTile fun _ => rfl

theorem undisturbed_recordOwner (t l : Nat) (o : SMap LineState) (x : LineState) (s : State) : Undisturbed s (recordOwner t l o x s) := by
  unfold recordOwner
  extract_lets keep h s1
  have h1 : Undisturbed s s1 := undisturbed_of rfl rfl rfl
  clear_value s1
  refine undisturbed_ite (h1.trans ?_) (h1.trans ?_)
  · refine .trans ?_ (undisturbed_noteRegion ..)
    exact (undisturbed_fillTile ..).trans (undisturbed_setTile fun _ => rfl)
  · refine .trans ?_ (undisturbed_refreshRegion ..)
    refine .trans ?_ (undisturbed_writeBack ..)
    exact undisturbed_setTile fun _ => rfl

theorem undisturbed_touchHome (s : State) (l : Nat) (w : Bool) : Undisturbed s (touchHome s l w) := by
  simp only [touchHome]; split
  · exact undisturbed_recallLine ..
  · split
    · exact undisturbed_ite (undisturbed_refreshRegion ..) (.refl s)
    · refine .trans ?_ (undisturbed_noteRegion ..)
      exact (undisturbed_foldl (fun s (a : Nat × LineState) => undisturbed_wakeDirty a.1 l s) _ s).trans (undisturbed_of rfl rfl rfl)

/-! ### Reservations and releases -/

theorem undisturbed_recallFree (old : List ResEntry) (e : ResEntry) (s : State) : Undisturbed s (recallFree old e s) :=
  undisturbed_foldl (fun s (a : Nat × SMap LineState) => undisturbed_recallLine a.1 s) _ s

theorem undisturbed_settleGrants (l : List ResEntry) : ∀ (old : List ResEntry) (s : State), Undisturbed s (settleGrants s old l) := by
  induction l with
  | nil => exact fun _ s => .refl s
  | cons e r ih =>
    intro old s
    simp only [settleGrants]
    split
    · refine .trans ?_ (ih ..)
      split
      · exact undisturbed_recallFree ..
      · exact (undisturbed_recallFree old e s).trans (undisturbed_of rfl rfl rfl)
    · exact ih ..

theorem undisturbed_leaveLine (e : ResEntry) (s : State) (l : Nat) : Undisturbed s (leaveLine e s l) :=
  undisturbed_ite (undisturbed_recordOwner ..) (undisturbed_recordOwner ..)

theorem undisturbed_cutEntries (s : State) (e : ResEntry) (edge : Nat) (st : ResState) (a : Option Nat) :
    Undisturbed s (cutEntries s e edge st a) := by
  unfold cutEntries
  extract_lets cut rs src s1
  refine .trans (t := s1) ?_ (undisturbed_settleGrants ..)
  refine .trans (t := { noteCut e edge s with resv := rs }) (undisturbed_of rfl rfl rfl) ?_
  exact undisturbed_foldl (fun s x => undisturbed_foldl (fun s l => undisturbed_leaveLine x s l) _ s) _ _

theorem undisturbed_noteWait (s : State) (w : WaitKind) : Undisturbed s (s.noteWait w) := by cases w <;> exact undisturbed_of rfl rfl rfl

theorem undisturbed_flushReservation (r : Nat) (s : State) : Undisturbed s (flushReservation r s) := by
  simp only [flushReservation]
  exact (undisturbed_foldl (fun s e => undisturbed_foldl (fun s l => undisturbed_writeBack l s) _ s) _ s).trans
    (undisturbed_foldl (fun s e => undisturbed_cutEntries s e _ _ _) _ _)

theorem undisturbed_flushAll (rs : List Nat) (s : State) : Undisturbed s (flushAll rs s) :=
  undisturbed_foldl (fun s r => undisturbed_flushReservation r s) _ s

theorem undisturbed_flushHolders (l : Nat) (s : State) : Undisturbed s (flushHolders l s) :=
  undisturbed_foldl (fun s (_ : Nat × LineState) => undisturbed_flushAll _ s) _ s

theorem undisturbed_releaseLine (e : ResEntry) (s : State) (l : Nat) : Undisturbed s (releaseLine e s l) := by
  unfold releaseLine
  extract_lets others s1
  have h1 : Undisturbed s s1 := undisturbed_ite (.refl s) (undisturbed_flushAll ..)
  clear_value s1
  exact h1.trans ((undisturbed_writeBack ..).trans (undisturbed_recordOwner ..))

theorem undisturbed_releaseEntries (p : ResEntry → Bool) (s : State) : Undisturbed s (releaseEntries p s) := by
  unfold releaseEntries; split
  · extract_lets s1
    refine .trans ?_ (undisturbed_settleGrants ..)
    refine .trans ?_ (undisturbed_foldl (fun s e => undisturbed_foldl (fun s l => undisturbed_releaseLine e s l) _ s) _ _)
    exact undisturbed_of rfl rfl rfl
  · exact .refl s

theorem undisturbed_endXlats (ls : List Nat) (s : State) : Undisturbed s (endXlats ls s) := by
  unfold endXlats
  extract_lets hit s1
  refine .trans (t := s1) ?_ (undisturbed_releaseEntries ..)
  refine undisturbed_ite (.trans ?_ (undisturbed_foldl (fun s l => undisturbed_refreshRegion true l s) _ _)) (.refl s)
  exact undisturbed_mapTiles rfl rfl rfl fun _ => ⟨rfl, fun _ => rfl⟩

theorem undisturbed_freeRegion (r : Nat) (s : State) : Undisturbed s (freeRegion r s) := by
  unfold freeRegion
  extract_lets ls s1
  have h1 : Undisturbed s s1 := by
    refine .trans ?_ (undisturbed_endXlats ..)
    exact undisturbed_foldl
      (fun s l => ((undisturbed_flushHolders l s).trans (undisturbed_recallLine l _)).trans (undisturbed_recallReserved l _)) _ s
  clear_value s1
  exact h1.trans (undisturbed_of rfl rfl rfl)

theorem undisturbed_roomFor (l : Nat) (s : State) : Undisturbed s (roomFor l s) := by
  unfold roomFor; split
  · exact .refl s
  · split
    exacts [undisturbed_freeRegion .., .refl s]

/-! ### Accesses of the device itself -/

theorem undisturbed_exposeLine (s : State) (r : Option Nat) (l : Nat) : Undisturbed s (exposeLine s r l) := by
  unfold exposeLine
  extract_lets hit
  refine undisturbed_mapTiles rfl rfl rfl fun p => ?_
  dsimp only
  split <;> split <;> exact ⟨rfl, fun _ => rfl⟩

/-- At the home an access of no tile allocates nothing. -/
theorem undisturbed_cacheAccess (l o n : Nat) (w : Bool) (s : State) : Undisturbed s (cacheAccess {} .home l o n w s) := by
  unfold cacheAccess
  dsimp only
  split
  · rw [if_neg (by simp)]
    exact undisturbed_ite (.refl s) ((undisturbed_roomFor ..).trans (undisturbed_touchHome ..))
  · exact (undisturbed_roomFor ..).trans (undisturbed_touchHome ..)

theorem undisturbed_notePools (old : List Host.Cell) (pa n : Nat) (s : State) : Undisturbed s (notePools old pa n s) :=
  undisturbed_ite (undisturbed_of rfl rfl rfl) (.refl s)

theorem undisturbed_noteWrite (s : State) (pa n : Nat) : Undisturbed s (noteWrite s {} pa n) := by
  unfold noteWrite
  extract_lets s1 ls s2 s3 s4 hot
  have h3 : Undisturbed s s3 := (undisturbed_foldl (fun s l => undisturbed_wakeWatches s {} l) _ s).trans (undisturbed_endXlats ..)
  clear_value s3
  have h4 : Undisturbed s s4 := h3.trans (undisturbed_of rfl rfl rfl)
  clear_value s4
  exact undisturbed_ite h4 (h4.trans (undisturbed_of rfl rfl rfl))

theorem undisturbed_physPut (s : State) (pa : Nat) (bs : List (BitVec 8)) : Undisturbed s (physPut s {} pa bs) := by
  unfold physPut; split
  · exact .refl s
  · extract_lets s1
    have h1 : Undisturbed s s1 := undisturbed_noteWrite ..
    clear_value s1
    refine .trans ?_ (undisturbed_notePools ..)
    exact h1.trans (undisturbed_of rfl rfl rfl)

theorem undisturbed_markLeaf (s : State) (l : Leaf) (acc : Access) : Undisturbed s (markLeaf s {} l acc) :=
  undisturbed_ite (.refl s) ((undisturbed_touchHome ..).trans (undisturbed_physPut ..))

/-- An operation keeps every strand, however it ends. -/
theorem keeps_modify_undisturbed {s0 : State} {f : State → State} (h : ∀ s, Undisturbed s (f s)) :
    Keeps (Undisturbed s0) (modify f) := keeps_modify fun s hs => hs.trans (h s)

theorem keepsStrands_lineAccess (s0 : State) (va : BitVec 56) (pa n : Nat) (w : Bool) :
    Keeps (Undisturbed s0) (lineAccess {} .home va pa n w) := by
  unfold lineAccess
  refine keeps_bind (keeps_forIn fun l => ?_) fun _ => keeps_pure _
  refine keeps_bind keeps_get fun s => keeps_bind (keeps_judgeLine ..) fun _ => ?_
  refine keeps_bind (keeps_modify_undisturbed fun s => ?_) fun _ => keeps_pure _
  exact (undisturbed_cacheAccess ..).trans (undisturbed_exposeLine ..)

theorem keepsStrands_physReadQuiet (s0 : State) (va : BitVec 56) (pa n : Nat) :
    Keeps (Undisturbed s0) (physReadQuiet {} .home va pa n) :=
  keeps_bind (keepsStrands_lineAccess ..) fun _ => keeps_bind (keeps_modify_undisturbed fun s => .refl s) fun _ =>
    keeps_bind keeps_get fun _ => keeps_pure _

theorem keepsStrands_physWrite (s0 : State) (va : BitVec 56) (pa : Nat) (bs : List (BitVec 8)) :
    Keeps (Undisturbed s0) (physWrite {} .home va pa bs) :=
  keeps_bind (keepsStrands_lineAccess ..) fun _ => keeps_modify_undisturbed fun s => undisturbed_physPut s pa bs

theorem keepsStrands_translate (s0 : State) (p va : Nat) (acc : Access) : Keeps (Undisturbed s0) (translate {} p va acc) := by
  refine keeps_getThen fun s hs => ?_
  cases probe s p va acc with
  | error f => exact hs
  | ok l => exact hs.trans (undisturbed_markLeaf s l acc)

theorem keepsStrands_partRead (s0 : State) (p va n : Nat) (acc : Access) : Keeps (Undisturbed s0) (partRead p va n acc) :=
  keeps_bind (keepsStrands_translate ..) fun _ => keeps_bind (keepsStrands_physReadQuiet ..) fun _ => keeps_pure _

theorem keepsStrands_partWrite (s0 : State) (p va : Nat) (bs : List (BitVec 8)) : Keeps (Undisturbed s0) (partWrite p va bs) :=
  keeps_bind (keepsStrands_translate ..) fun _ => keepsStrands_physWrite ..

theorem keepsStrands_writeNotice (s0 : State) (p : Nat) (w : Word × Word × Word × Word) : Keeps (Undisturbed s0) (writeNotice p w) := by
  unfold writeNotice
  refine keeps_bind keeps_get fun s => keeps_bind (keepsStrands_partRead ..) fun tail => keeps_bind (keepsStrands_partRead ..) fun head => ?_
  exact keeps_ite (keeps_pure _) (keeps_bind (keepsStrands_partWrite ..) fun _ => keeps_bind (keepsStrands_partWrite ..) fun _ => keeps_pure _)

/-! ### Notices (R372) -/

theorem undisturbed_tryPost (s : State) (p : Nat) (w : Word × Word × Word × Word) : Undisturbed s (postState (tryPost s p w)) := by
  have hk := keepsStrands_writeNotice s p w
  unfold tryPost
  generalize writeNotice p w = m at hk ⊢
  have hw := hk.run s (.refl s)
  generalize m s = r at hw ⊢
  rcases r with ⟨_ | _, s1⟩ | ⟨tr | k, s1⟩
  exacts [.refl s, hw, .refl s, undisturbed_noteWait ..]

theorem undisturbed_setPartition (s : State) (p : Nat) (x : Partition) : Undisturbed s (s.setPartition p x) := undisturbed_of rfl rfl rfl

theorem log_some (s : State) (p cls src tile wave addr : Nat) : ∃ x, s.log (some p) cls src tile wave addr = s.setPartition p x := ⟨_, rfl⟩

theorem undisturbed_watchNotice (p va entry : Nat) (s : State) : Undisturbed s (watchNotice p va entry s) := by
  obtain ⟨x, hx⟩ := log_some s p 6 10 0x3FF 0 va
  unfold watchNotice
  rw [hx]
  refine (undisturbed_setPartition s p x).trans ?_
  generalize s.setPartition p x = s1
  exact undisturbed_of rfl rfl rfl

theorem undisturbed_postNotice (s : State) (p : Nat) (w : Word × Word × Word × Word) : Undisturbed s (postNotice s p w) := by
  have ht := undisturbed_tryPost s p w
  unfold postNotice
  extract_lets hold
  have hh : ∀ s, Undisturbed s (hold s) := fun s => undisturbed_setPartition ..
  split
  · exact hh s
  · generalize tryPost s p w = r at ht ⊢
    cases r with
    | posted s1 => exact ht
    | held s1 => exact ht.trans (hh s1)
    | unwritable s1 va e => exact (ht.trans (hh s1)).trans (undisturbed_watchNotice ..)

/-- Posting what a trap has still to have posted leaves every strand as it was. -/
theorem undisturbed_postTrap (s : State) (t k : Nat) (tr : Trap) (d : Bool) : Undisturbed s (postTrap s t k tr d).1 := by
  unfold postTrap; split
  · exact undisturbed_foldl (fun s w => undisturbed_postNotice s _ w) _ s
  · exact .refl s

end Sys2Proof.Laws
end

section
/-! PROOF. The frames of the statements, said once of the state's operations. -/

namespace Sys2Proof.Laws

open Sys2Proof.Machine Sys2Proof.Spec

theorem OnlyStrand.trans {s t u : State} (a : OnlyStrand s t) (b : OnlyStrand t u) : OnlyStrand s u := by
  obtain ⟨act, acs, arest, atile, astrand⟩ := a
  obtain ⟨bct, bcs, brest, btile, bstrand⟩ := b
  refine ⟨bct.trans act, bcs.trans acs, brest.trans arest, fun h => (btile h).trans (atile h), fun h k n => ?_⟩
  exact (bstrand h k (by rwa [act, acs])).trans (astrand h k n)

theorem SameBytes.trans {s t u : State} (a : SameBytes s t) (b : SameBytes t u) : SameBytes s u :=
  ⟨fun x => (b.1 x).trans (a.1 x), fun h x => (b.2 h x).trans (a.2 h x)⟩

theorem sameBytes_of_kept {s t : State} (h : Kept s t) : SameBytes s t :=
  ⟨fun a => by rw [h.mem], fun u a => by rw [h.spd]⟩

theorem tileRest_setStrandOf (s : State) (t k h : Nat) (y : Strand) : tileRest ((s.setStrandOf t k y).tile h) = tileRest (s.tile h) := by
  simp only [State.setStrandOf, State.tile_setTile]
  split
  · next e => subst e; rfl
  · rfl

theorem onlyStrand_setCur (s : State) (y : Strand) : OnlyStrand s (s.setCur y) :=
  ⟨rfl, rfl, rfl, fun _ => tileRest_setStrandOf .., fun _ _ n => State.setCur_strandOf_other s y n⟩

theorem onlyStrand_retire (s : State) (d : BitVec 5) (v : Word) : OnlyStrand s (s.retire d v) :=
  OnlyStrand.trans (onlyStrand_setCur ..) (onlyStrand_setCur ..)

theorem kept_retire (s : State) (d : BitVec 5) (v : Word) : Kept s (s.retire d v) := (kept_setCur ..).trans (kept_setCur ..)

theorem goesOn_retire (s : State) (d : BitVec 5) (v : Word) : GoesOn (s.retire d v) (s.cur.pc + 4) := by
  simp [GoesOn]

theorem specialOf_setReg (y : Strand) (d : BitVec 5) (v : Word) : specialOf (y.setReg d v) = specialOf y := by
  unfold Strand.setReg; split <;> rfl

theorem specialOf_retire (s : State) (d : BitVec 5) (v : Word) : specialOf (s.retire d v).cur = specialOf s.cur := by
  rw [State.cur_retire]; exact specialOf_setReg ..

/-- Retiring writes the destination, and nothing else but the program counter and the strand's state. -/
theorem registersOnly_retire (s : State) (d : BitVec 5) (v : Word) : RegistersOnly s (s.retire d v) [d] := by
  refine ⟨onlyStrand_retire .., sameBytes_of_kept (kept_retire ..), ⟨fun r h => ?_, specialOf_retire ..⟩, ?_, ?_⟩
  · exact State.reg_retire_other s v (by simpa using h)
  · simp
  · simp

end Sys2Proof.Laws
end

section
/-! PROOF. O17: what taking a trap does to the strand that takes it (R86, R372). -/

namespace Sys2Proof.Laws

open Sys2Proof.Machine Sys2Proof.Spec

theorem undisturbed_clearStart (s : State) (t k : Nat) (tr : Trap) : Undisturbed s (clearStart s t k tr) := by
  unfold clearStart; split
  exacts [undisturbed_setTile fun _ => rfl, .refl s]

/-- The strand as a trap leaves it: pending while a notice is held, halted, or in its handler. -/
def trappedStrand (tr : Trap) (double held : Bool) (y : Strand) : Strand :=
  if held then { y with traps := { tr with posted := true, doubled := tr.doubled || double } :: y.traps, state := .runnable, posting := true }
  else if double then { y with state := .halted }
  else y.enter tr

/-- Taking a trap writes the strand's slot, after the notices were posted. -/
theorem takeTrap_cur (s : State) (tr : Trap) : ∃ y, unwritten y = unwritten s.cur ∧
    (takeTrap s s.ct s.cs tr).cur =
      trappedStrand tr s.cur.doubles (postTrap (clearStart s s.ct s.cs tr) s.ct s.cs tr s.cur.doubles).2 y := by
  have hu := (undisturbed_clearStart s s.ct s.cs tr).trans (undisturbed_postTrap (clearStart s s.ct s.cs tr) s.ct s.cs tr s.cur.doubles)
  refine ⟨_, hu.strand s.ct s.cs, ?_⟩
  have hd : ((clearStart s s.ct s.cs tr).strandOf s.ct s.cs).doubles = s.cur.doubles := by rw [clearStart_strandOf]; rfl
  unfold takeTrap
  simp only [hd]
  generalize postTrap (clearStart s s.ct s.cs tr) s.ct s.cs tr s.cur.doubles = p at hu
  rw [State.cur, State.setStrandOf_ct, State.setStrandOf_cs, hu.ct, hu.cs, State.strandOf_setStrandOf_same]
  rfl

/-- A field other than the written bit. -/
theorem field_of_unwritten {α : Type} {f : Strand → α} (hf : ∀ y, f (unwritten y) = f y) {x y : Strand} (h : unwritten y = unwritten x) :
    f y = f x := by rw [← hf y, h, hf]

/-- The general registers are the same in strands that differ in a watch's written bit alone. -/
theorem reg_of_unwritten {x y : Strand} (h : unwritten y = unwritten x) (r : BitVec 5) : y.reg r = x.reg r := by
  have hr : y.regs = x.regs := field_of_unwritten (f := Strand.regs) (fun _ => rfl) h
  simp only [Strand.reg, hr]

/-- `tcause` is the subcode and the cause side by side (Table 1.3). -/
theorem causeWord_eq_append (cause sub : BitVec 8) : cause.zeroExtend 16 ||| (sub.zeroExtend 16 <<< 8) = sub ++ cause := by
  ext i hi
  rw [show (sub ++ cause : BitVec 16)[i] = _ from BitVec.getElem_append (x := sub) (y := cause) hi]
  simp only [BitVec.getElem_or, BitVec.truncate_eq_setWidth, BitVec.getElem_setWidth, BitVec.getElem_shiftLeft]
  by_cases h : i < 8
  · simp [h]
  · simp [h, BitVec.getLsbD_of_ge cause i (by omega), BitVec.getLsbD_eq_getElem (show i - 8 < 8 by omega)]

theorem not_doubles {s : State} (h : HandlerReady s) : s.cur.doubles = false := by
  obtain ⟨hh, hv⟩ := h
  simp only [Strand.doubles, hh, Bool.false_or, beq_eq_false_iff_ne]
  exact hv

theorem doubles_of {y : Strand} (h : y.h = true ∨ y.tvec = 0) : y.doubles = true := by
  rcases h with h | h <;> simp [Strand.doubles, h]

/-- With its notice held, a strand keeps its boundary, the trap pending (R372). -/
theorem takeTrap_held {s : State} {tr : Trap} {double : Bool} (hd : s.cur.doubles = double)
    (h : (postTrap (clearStart s s.ct s.cs tr) s.ct s.cs tr double).2 = true) :
    let z := takeTrap s s.ct s.cs tr
    z.cur.state = .runnable ∧ z.cur.posting = true ∧ z.cur.pc = s.cur.pc ∧ (∀ r, z.reg r = s.reg r) ∧
      ∃ tr', z.cur.traps = tr' :: s.cur.traps ∧ tr'.cause = tr.cause ∧ tr'.sub = tr.sub ∧ tr'.tva = tr.tva := by
  obtain ⟨y, hy, hz⟩ := takeTrap_cur s tr
  rw [hd, h] at hz
  have hpc : y.pc = s.cur.pc := field_of_unwritten (f := Strand.pc) (fun _ => rfl) hy
  have ht : y.traps = s.cur.traps := field_of_unwritten (f := Strand.traps) (fun _ => rfl) hy
  simp only [State.reg, hz]
  exact ⟨rfl, rfl, hpc, fun r => reg_of_unwritten hy r, _, congrArg (_ :: ·) ht, rfl, rfl, rfl⟩

/-- A strand with a handler, outside it, enters it. -/
theorem takeTrap_entered {s : State} {tr : Trap} (hr : HandlerReady s)
    (h : (postTrap (clearStart s s.ct s.cs tr) s.ct s.cs tr false).2 = false) :
    Entered s (takeTrap s s.ct s.cs tr) tr.cause tr.sub (tr.tpc.getD s.cur.pc) tr.tva tr.telem := by
  obtain ⟨y, hy, hz⟩ := takeTrap_cur s tr
  rw [not_doubles hr, h] at hz
  have hpc : y.pc = s.cur.pc := field_of_unwritten (f := Strand.pc) (fun _ => rfl) hy
  have hvec : y.tvec = s.cur.tvec := field_of_unwritten (f := Strand.tvec) (fun _ => rfl) hy
  have hscr : y.tscr = s.cur.tscr := field_of_unwritten (f := Strand.tscr) (fun _ => rfl) hy
  have hstat : y.fstat = s.cur.fstat := field_of_unwritten (f := Strand.fstat) (fun _ => rfl) hy
  simp only [Entered, State.reg, hz]
  exact ⟨rfl, congrArg (BitVec.zeroExtend 64) hvec, rfl, causeWord_eq_append .., by rw [← hpc]; rfl, rfl, rfl,
    fun r => reg_of_unwritten hy r, hvec, hscr, hstat⟩

/-- A strand in its handler, or without one, halts where it is. -/
theorem takeTrap_halted {s : State} {tr : Trap} (hd : s.cur.doubles = true)
    (h : (postTrap (clearStart s s.ct s.cs tr) s.ct s.cs tr true).2 = false) :
    let z := takeTrap s s.ct s.cs tr
    z.cur.state = .halted ∧ z.cur.pc = s.cur.pc ∧ ∀ r, z.reg r = s.reg r := by
  obtain ⟨y, hy, hz⟩ := takeTrap_cur s tr
  rw [hd, h] at hz
  have hpc : y.pc = s.cur.pc := field_of_unwritten (f := Strand.pc) (fun _ => rfl) hy
  simp only [State.reg, hz]
  exact ⟨rfl, hpc, fun r => reg_of_unwritten hy r⟩

theorem kept_clearStart (s : State) (t k : Nat) (tr : Trap) : Kept s (clearStart s t k tr) := by
  unfold clearStart; split
  exacts [kept_setTile rfl, .refl s]

theorem clearStart_ct (s : State) (t k : Nat) (tr : Trap) : (clearStart s t k tr).ct = s.ct := by unfold clearStart; split <;> rfl

theorem clearStart_curTile_av {s : State} {tr : Trap} (hd : tr.decode = true) (hk : s.cs = 0) :
    (clearStart s s.ct s.cs tr).curTile.ctx.av = { s.curTile.ctx.av with vstart := 0 } := by
  rw [State.curTile, clearStart_ct, clearStart, if_pos (by simp [hd, hk]), State.tile_setTile, if_pos rfl]
  rfl

theorem tile_setStrandOf_av (s : State) (t k u : Nat) (y : Strand) : ((s.setStrandOf t k y).tile u).ctx.av = (s.tile u).ctx.av := by
  simp only [State.setStrandOf, State.tile_setTile]
  split
  · next e => subst e; rfl
  · rfl

/-- Settles O17: what is posted leaves the strand as it was, and the trap then writes its slot alone. -/
theorem trapEntry : Obligations.TrapEntry := by
  intro s tr
  refine ⟨fun hr => ⟨takeTrap_entered hr, takeTrap_held (not_doubles hr), fun hw => ?_⟩,
    fun hd => ⟨takeTrap_halted (doubles_of hd), takeTrap_held (doubles_of hd)⟩⟩
  obtain ⟨hh, hv⟩ := hr
  obtain ⟨y, hz, -⟩ := takeTrap_enter s s.ct s.cs hw hh hv
  rw [hz]
  refine ⟨by rw [postTrap_of_ne _ _ _ hw], sameBytes_of_kept ((kept_clearStart ..).trans (kept_setStrandOf ..)), fun hd => ?_, fun hd hk => ?_⟩
  · rw [clearStart_of_not_decode s _ _ hd]
    exact onlyStrand_setCur s y
  · rw [State.curTile, State.setStrandOf_ct, tile_setStrandOf_av]
    exact clearStart_curTile_av hd hk

end Sys2Proof.Laws
end

section
/-! PROOF. O14 and O15: the CSR forms (R20, R84, Table 1.3). One rule for each way in which an access ends. -/

namespace Sys2Proof.Laws.Csr

open Sys2Proof.Machine Sys2Proof.Spec

/-! ### The access of a form -/

/-- The access of a form that stores `new` of the old value; a form that only reads stores nothing. -/
def formAccess (d : BitVec 5) (c : BitVec 12) (new : Option (Word → Word)) : M Unit := csrAccess d c new.isSome (new.getD id)

/-- A read-only access computes no new value. -/
theorem csrAccess_read (d : BitVec 5) (c : BitVec 12) (f g : Word → Word) : csrAccess d c false f = csrAccess d c false g := rfl

/-- A form with a source field writes when that field is nonzero (R20). -/
theorem csrAccess_source (d a : BitVec 5) (c : BitVec 12) (f : Word → Word) :
    csrAccess d c (a != 0) f = formAccess d c (if a = 0 then none else some f) := by
  by_cases ha : a = 0
  · subst ha; exact csrAccess_read ..
  · rw [if_neg ha, bne_iff_ne.mpr ha]; rfl

theorem zeroExtend_zimm (a : BitVec 5) : a.zeroExtend 64 = BitVec.ofNat 64 a.toNat := by
  apply BitVec.eq_of_toNat_eq; simp

theorem exec_csrForm {i : Instr} {s : State} {d : BitVec 5} {c : BitVec 12} {new : Option (Word → Word)}
    (h : csrForm s i = some (d, c, new)) : exec i s = runScalar (formAccess d c new) s := by
  cases i with
  | csrrw _ a _ => cases h; rfl
  | csrrs _ a _ => cases h; exact congrArg (runScalar · s) (csrAccess_source ..)
  | csrrc _ a _ => cases h; exact congrArg (runScalar · s) (csrAccess_source ..)
  | csrrwi _ a _ => cases h; rw [← zeroExtend_zimm]; rfl
  | csrrsi _ a _ => cases h; rw [← zeroExtend_zimm]; exact congrArg (runScalar · s) (csrAccess_source ..)
  | csrrci _ a _ => cases h; rw [← zeroExtend_zimm]; exact congrArg (runScalar · s) (csrAccess_source ..)
  | _ => cases h

/-! ### How an access ends, in the order of R20 -/

theorem get_bind {β : Type} (f : State → M β) (s : State) : ((get : M State) >>= f) s = f s s := rfl

theorem throw_bind {α β : Type} (e : Exit) (f : α → M β) (s : State) : ((throw e : M α) >>= f) s = .error e s := rfl

theorem awaitCommit_bind {β : Type} (f : Unit → M β) {s : State} (hb : s.enginesBusy = false) : (awaitCommit >>= f) s = f () s := by
  have h : awaitCommit s = .ok () s := by
    rw [awaitCommit, get_bind, hb]; rfl
  simp only [bind, EStateM.bind, h]

section
variable {s : State} {d : BitVec 5} {c : BitVec 12} {new : Option (Word → Word)} {m : CsrMark}

theorem formAccess_unassigned (hm : csrMark c.toNat = none) : formAccess d c new s = .error (.trap (decodeTrap cILL)) s := by
  simp only [formAccess, csrAccess, get_bind, hm]; rfl

theorem formAccess_readOnly (hm : csrMark c.toNat = some m) (hro : (new.isSome && m.ro) = true) :
    formAccess d c new s = .error (.trap (decodeTrap cILL)) s := by
  simp only [formAccess, csrAccess, get_bind, hm, hro, if_true, throw_bind]

theorem formAccess_notLead (hm : csrMark c.toNat = some m) (hl : (m.lead && !s.isLead) = true) :
    formAccess d c new s = .error (.trap (decodeTrap cILL)) s := by
  cases hro : (new.isSome && m.ro) with
  | true => exact formAccess_readOnly hm hro
  | false => simp only [formAccess, csrAccess, get_bind, hm, hro, hl, Bool.false_eq_true, if_false, if_true, throw_bind]

theorem formAccess_notSupervisor (hm : csrMark c.toNat = some m) (hro : (new.isSome && m.ro) = false) (hl : (m.lead && !s.isLead) = false)
    (hs : (m.sup && !s.isSupervisor s.ct s.cs) = true) : formAccess d c new s = .error (.trap (decodeTrap cPRIV)) s := by
  simp only [formAccess, csrAccess, get_bind, hm, hro, hl, hs, Bool.false_eq_true, if_false, if_true, throw_bind]

theorem formAccess_reads (hm : csrMark c.toNat = some m) (hl : (m.lead && !s.isLead) = false)
    (hs : (m.sup && !s.isSupervisor s.ct s.cs) = false) (hb : s.enginesBusy = false) :
    formAccess d c none s = .ok () (s.retire d (BitVec.ofNat 64 (csrRead s c.toNat))) := by
  simp only [formAccess, csrAccess, get_bind, hm, hl, hs, hb, Option.isSome, Bool.false_and, Bool.and_false, Bool.false_eq_true, if_false]
  rfl

/-- A write that is allowed goes on to the write of the register, at once or with no older engine entry to wait for. -/
theorem formAccess_allowed {u : Word → Word} (hm : csrMark c.toNat = some m) (hro : m.ro = false) (hl : (m.lead && !s.isLead) = false)
    (hs : (m.sup && !s.isSupervisor s.ct s.cs) = false) (hb : s.enginesBusy = false) {w : Option State}
    (hw : csrWrite s c.toNat (u (BitVec.ofNat 64 (csrRead s c.toNat))).toNat = w) :
    formAccess d c (some u) s = match w with
      | none => .error (.trap { cause := cRSVD }) s
      | some s' => .ok () (s'.retire d (BitVec.ofNat 64 (csrRead s c.toNat))) := by
  simp only [formAccess, csrAccess, get_bind, hm, hro, hl, hs, hb, hw, Option.isSome, Option.getD, Bool.and_false, Bool.true_and,
    Bool.false_eq_true, if_false, if_true]
  cases m.now with
  | true => cases w <;> rfl
  | false => simp only [Bool.not_false, if_true, awaitCommit_bind _ hb]; cases w <;> rfl

end

/-! ### What a write of a register leaves alone -/

/-- What a write of a register can change: a special register of the strand, or the tile's architectural view. -/
inductive CsrWritten (s : State) : State → Prop
  | strand (y : Strand) (hpc : y.pc = s.cur.pc) (hregs : y.regs = s.cur.regs) : CsrWritten s (s.setCur y)
  | view (v : View) : CsrWritten s (setViews s v)
  | nothing : CsrWritten s s

/-- Every state that the write leaves is so written. -/
def WritesCsr (s : State) (w : Option State) : Prop := ∀ s', w = some s' → CsrWritten s s'

theorem writesCsr_some {s s' : State} (h : CsrWritten s s') : WritesCsr s (some s') := fun _ e => Option.some.inj e ▸ h

theorem writesCsr_none (s : State) : WritesCsr s none := nofun

theorem writesCsr_ite {s : State} {p : Prop} [Decidable p] {a b : Option State} (ha : WritesCsr s a) (hb : WritesCsr s b) :
    WritesCsr s (if p then a else b) := by
  split
  exacts [ha, hb]

theorem writesCsr_csrWrite (s : State) (c n : Nat) : WritesCsr s (csrWrite s c n) := by
  have strand : ∀ y : Strand, y.pc = s.cur.pc → y.regs = s.cur.regs → WritesCsr s (some (s.setCur y)) :=
    fun y hpc hregs => writesCsr_some (.strand y hpc hregs)
  have view : ∀ v, WritesCsr s (some (setViews s v)) := fun v => writesCsr_some (.view v)
  exact writesCsr_ite (writesCsr_ite (strand _ rfl rfl) (writesCsr_none s)) <| writesCsr_ite (strand _ rfl rfl) <|
    writesCsr_ite (view _) <| writesCsr_ite (writesCsr_ite (view _) (writesCsr_none s)) <|
    writesCsr_ite (writesCsr_ite (view _) (writesCsr_none s)) <| writesCsr_ite (writesCsr_ite (view _) (writesCsr_none s)) <|
    writesCsr_ite (strand _ rfl rfl) <| writesCsr_ite (strand _ rfl rfl) <| writesCsr_ite (strand _ rfl rfl) <|
    writesCsr_ite (strand _ rfl rfl) <| writesCsr_ite (strand _ rfl rfl) <| writesCsr_ite (strand _ rfl rfl) <|
    writesCsr_ite (strand _ rfl rfl) (writesCsr_some .nothing)

theorem cur_setViews (s : State) (v : View) : (setViews s v).cur = s.cur := by
  show ((s.setTile s.ct _).tile s.ct).strand s.cs = (s.tile s.ct).strand s.cs
  rw [State.tile_setTile_same]; rfl

theorem kept_setViews (s : State) (v : View) : Kept s (setViews s v) := kept_setTile rfl

theorem kept_csrWrite {s s' : State} {c n : Nat} (h : csrWrite s c n = some s') : Kept s s' := by
  cases writesCsr_csrWrite s c n s' h with
  | strand y => exact kept_setCur ..
  | view v => exact kept_setViews ..
  | nothing => exact .refl _

theorem csrWrite_pc {s s' : State} {c n : Nat} (h : csrWrite s c n = some s') : s'.cur.pc = s.cur.pc := by
  cases writesCsr_csrWrite s c n s' h with
  | strand y hpc => rw [State.cur_setCur, hpc]
  | view v => rw [cur_setViews]
  | nothing => rfl

theorem csrWrite_reg {s s' : State} {c n : Nat} (h : csrWrite s c n = some s') (r : BitVec 5) : s'.reg r = s.reg r := by
  cases writesCsr_csrWrite s c n s' h with
  | strand y hpc hregs => rw [State.reg, State.cur_setCur, Strand.reg, hregs]; rfl
  | view v => rw [State.reg, cur_setViews]; rfl
  | nothing => rfl

/-! ### The statements -/

theorem exec_traps {i : Instr} {s : State} {d : BitVec 5} {c : BitVec 12} {new : Option (Word → Word)} {tr : Trap}
    (hi : csrForm s i = some (d, c, new)) (hb : s.enginesBusy = false) (h : formAccess d c new s = .error (.trap tr) s) :
    exec i s = .next (takeTrap s s.ct s.cs tr) := by
  rw [exec_csrForm hi, runScalar_trap h, raise_idle _ hb]

/-- Settles O15: the checks of an access, in their order. -/
theorem csrFaults : Obligations.CsrFaults := by
  intro i s d c new hi hb
  refine ⟨fun hm => exec_traps hi hb (formAccess_unassigned hm), fun m hm => ⟨?_, fun hro hl hsup hs => ?_, fun u hu hro hl hsup hw => ?_⟩⟩
  · rintro (⟨hnew, hro⟩ | ⟨hl, hlead⟩)
    · exact exec_traps hi hb (formAccess_readOnly hm (by rw [hnew, hro]; rfl))
    · exact exec_traps hi hb (formAccess_notLead hm (by rw [hl, hlead]; rfl))
  · refine exec_traps hi hb (formAccess_notSupervisor hm ?_ (by rw [hl]; rfl) (by rw [hsup, hs]; rfl))
    cases hnew : new.isSome with
    | true => rw [hro hnew]; rfl
    | false => rfl
  · subst hu
    exact exec_traps hi hb (formAccess_allowed hm hro (by cases h : m.lead; exacts [rfl, by rw [hl h]; rfl]) (by rw [hsup]; rfl) hb hw)

/-! ### What the read-only registers hold -/

/-- Does `w`, if it is a value, say what register `c` reads as? -/
def ReadsAs (s : State) (c : Nat) (w : Option Nat) : Prop := ∀ v, w = some v → csrRead s c = v

theorem readsAs_some {s : State} {c v : Nat} (h : csrRead s c = v) : ReadsAs s c (some v) := fun _ e => h.trans (Option.some.inj e)

theorem readsAs_none (s : State) (c : Nat) : ReadsAs s c none := nofun

theorem readsAs_ite {s : State} {c : Nat} {p : Prop} [Decidable p] {a b : Option Nat} (ha : p → ReadsAs s c a) (hb : ¬p → ReadsAs s c b) :
    ReadsAs s c (if p then a else b) := by
  split
  next hp => exact ha hp
  next hp => exact hb hp

/-- The row of a single register. -/
theorem readsAs_row {s : State} {c k v : Nat} {b : Option Nat} (ha : csrRead s k = v) (hb : ReadsAs s c b) :
    ReadsAs s c (if c = k then some v else b) :=
  readsAs_ite (fun e => readsAs_some (e ▸ ha)) fun _ => hb

theorem csrRead_chan (s : State) {c : Nat} (h : 0x030 ≤ c ∧ c ≤ 0x03F) :
    csrRead s c = ((s.curTile.ctx.xchan (c - 0x030)).top * 2 ^ 22 + (s.curTile.ctx.xchan (c - 0x030)).wm) % 2 ^ 24 := by
  simp (disch := omega) only [csrRead, if_neg, if_pos, Ctx.xchan]

theorem csrRead_record (s : State) {c : Nat} (h : 0x0D0 ≤ c ∧ c ≤ 0x0D4) :
    csrRead s c = (s.partition s.curPart).word (8 + (c - 0x0D0)) / 2 ^ 0 % 2 ^ 48 := by
  simp (disch := omega) only [csrRead, if_neg, if_pos, fieldOf]

/-- The program counter's low 48 bits without the two lowest. -/
theorem fieldOf_word_address (x : Nat) : fieldOf x 2 46 * 4 = x % 2 ^ 48 / 4 * 4 := by unfold fieldOf; omega

theorem csrRead_loop (s : State) {c : Nat} (h : 0x101 ≤ c ∧ c ≤ 0x107) :
    csrRead s c = loopReg (s.curTile.loop s.cur.drsel.toNat) (c - 0x101) := by
  simp (disch := omega) only [csrRead, if_neg, if_pos, Tile.loop]

theorem csrRead_bound (s : State) {k v : Nat} (hk : 0x101 ≤ k ∧ k ≤ 0x107) (hb : ¬ (s.curTile.loop s.cur.drsel.toNat).bound = false)
    (h : (s.curTile.loop s.cur.drsel.toNat).bound = true → loopReg (s.curTile.loop s.cur.drsel.toNat) (k - 0x101) = v) :
    csrRead s k = v := (csrRead_loop s hk).trans (h (by simpa using hb))

theorem readsAs_csrHolds (s : State) (c : Nat) : ReadsAs s c (csrHolds s c) := by
  refine readsAs_row rfl <| readsAs_row (fieldOf_word_address _) <| readsAs_ite (fun h => readsAs_some (csrRead_chan s h)) fun _ =>
    readsAs_row rfl <| readsAs_row rfl <| readsAs_row rfl <| readsAs_row rfl <| readsAs_row rfl <| readsAs_row rfl <| readsAs_row rfl <|
    readsAs_ite (fun h => readsAs_some (csrRead_record s h)) fun _ => readsAs_row rfl <|
    readsAs_ite (fun _ => readsAs_none s c) fun hb => ?_
  have row : ∀ {k v : Nat} {b : Option Nat}, 0x101 ≤ k ∧ k ≤ 0x107 →
      ((s.curTile.loop s.cur.drsel.toNat).bound = true → loopReg (s.curTile.loop s.cur.drsel.toNat) (k - 0x101) = v) → ReadsAs s c b →
      ReadsAs s c (if c = k then some v else b) := fun hk h => readsAs_row (csrRead_bound s hk hb h)
  refine row (by omega) (fun h => ?_) <| row (by omega) (fun h => ?_) <| row (by omega) (fun h => ?_) <| row (by omega) (fun h => ?_) <|
    row (by omega) (fun h => ?_) <| row (by omega) (fun h => ?_) <| row (by omega) (fun h => ?_) <| readsAs_none s c
  all_goals simp [loopReg, h, fieldOf, wrap]

theorem held_eq_reg (s : State) (d : BitVec 5) (v : Word) : (s.retire d v).reg d = held d v := State.reg_retire_same s d v

/-- Settles O14: an access that no check stops reads the register and does its write.  That `vcp` reads pc + 4 with an empty queue is the
model's choice (log 12). -/
theorem csrAccess : Obligations.CsrAccess := by
  intro i s d c new m hi hm hb hlead hsup
  have hl : (m.lead && !s.isLead) = false := by cases h : m.lead; exacts [rfl, by rw [hlead h]; rfl]
  have hs : (m.sup && !s.isSupervisor s.ct s.cs) = false := by cases h : m.sup; exacts [rfl, by rw [hsup h]; rfl]
  have reads : new = none → exec i s = .next (s.retire d (BitVec.ofNat 64 (csrRead s c.toNat))) := fun hn => by
    subst hn
    rw [exec_csrForm hi, runScalar_ok (formAccess_reads hm hl hs hb)]
  refine ⟨fun u s' hu hro hw => ?_, fun hn => ?_, fun v hn hv => ?_⟩
  · subst hu
    refine ⟨_, by rw [exec_csrForm hi, runScalar_ok (formAccess_allowed hm hro hl hs hb hw)], rfl, held_eq_reg .., ?_, fun r hr => ?_, ?_⟩
    · exact csrWrite_pc hw ▸ goesOn_retire ..
    · rw [State.reg_retire_other _ _ hr, csrWrite_reg hw]
    · exact sameBytes_of_kept ((kept_csrWrite hw).trans (kept_retire ..))
  · exact ⟨_, reads hn, held_eq_reg .., goesOn_retire .., registersOnly_retire ..⟩
  · exact ⟨_, reads hn, by rw [held_eq_reg, readsAs_csrHolds _ _ _ hv], goesOn_retire .., registersOnly_retire ..⟩

end Sys2Proof.Laws.Csr
end

section
/-! PROOF. O16: a register that software may write reads back the bits it holds (R20, R21, Table 1.3). -/

namespace Sys2Proof.Laws.Csr

open Sys2Proof.Machine Sys2Proof.Spec

/-! ### Masks -/

/-- A mask of fewer than `k` bits does not see what stands above them. -/
theorem mod_and_of_lt (n : Nat) {k m : Nat} (h : m < 2 ^ k) : n % 2 ^ k &&& m = n &&& m := by
  have hle : (n &&& m) % 2 ^ k = n &&& m := Nat.mod_eq_of_lt (lt_of_le_of_lt Nat.and_le_right h)
  rw [← hle, Nat.and_mod_two_pow, Nat.mod_eq_of_lt h]

/-- A mask of two parts holds the two parts of a number. -/
theorem and_add_mul (n a b k : Nat) (h : a < 2 ^ k) : n &&& (a + 2 ^ k * b) = (n % 2 ^ k &&& a) + 2 ^ k * (n / 2 ^ k &&& b) := by
  have hm : (a + 2 ^ k * b) % 2 ^ k = a := by rw [Nat.add_mul_mod_self_left, Nat.mod_eq_of_lt h]
  have hd : (a + 2 ^ k * b) / 2 ^ k = b := by rw [Nat.add_mul_div_left _ _ (Nat.two_pow_pos k), Nat.div_eq_of_lt h, Nat.zero_add]
  rw [← Nat.mod_add_div (n &&& (a + 2 ^ k * b)) (2 ^ k), Nat.and_mod_two_pow, Nat.and_div_two_pow, hm, hd]

/-- The fields that the mask of a `vtagtab` register holds. -/
theorem and_tagMask (n : Nat) : n &&& 0x03FF03FF03FF03FF =
    fieldOf n 0 10 + 2 ^ 16 * fieldOf n 16 10 + 2 ^ 32 * fieldOf n 32 10 + 2 ^ 48 * fieldOf n 48 10 := by
  have low : ∀ x, x % 2 ^ 16 &&& 1023 = x % 2 ^ 10 := fun x => by
    rw [mod_and_of_lt x (by decide)]; exact Nat.and_two_pow_sub_one_eq_mod x 10
  have step : ∀ x b, x &&& (1023 + 2 ^ 16 * b) = x % 2 ^ 10 + 2 ^ 16 * (x / 2 ^ 16 &&& b) := fun x b => by
    rw [and_add_mul x 1023 b 16 (by decide), low]
  rw [show 0x03FF03FF03FF03FF = 1023 + 2 ^ 16 * (1023 + 2 ^ 16 * (1023 + 2 ^ 16 * (1023 + 2 ^ 16 * 0))) from rfl, step, step, step, step,
    Nat.and_zero]
  simp only [fieldOf, Nat.div_div_eq_div_mul]
  omega

/-! ### Each register, written and read -/

/-- The registers of Table 1.3 that software may write. -/
theorem writable_cases {c : Nat} {m : CsrMark} (h : csrMark c = some m) (hro : m.ro = false) :
    c = 0x001 ∨ (0x008 ≤ c ∧ c ≤ 0x00C) ∨ c = 0x011 ∨ (0x018 ≤ c ∧ c ≤ 0x01F) ∨ c = 0x020 ∨ c = 0x021 ∨
    c = 0x040 ∨ c = 0x041 ∨ c = 0x042 ∨ c = 0x043 ∨ c = 0x044 ∨ c = 0x045 ∨ c = 0x100 := by
  by_contra hc
  simp (disch := omega) only [csrMark, if_neg] at h
  split_ifs at h <;> cases h <;> cases hro

/-- Does register `c` read back, in every state that the write `w` of `n` leaves, the bits that it holds? -/
def ReadsBack (c n : Nat) (w : Option State) : Prop := ∀ s, w = some s → csrRead s c = n &&& csrBits c

theorem readsBack_guard {c n : Nat} {p : Prop} [Decidable p] {w : Option State} (h : ReadsBack c n w) :
    ReadsBack c n (if p then w else none) := by
  split
  exacts [h, nofun]

/-- A register of the strand. -/
theorem readsBack_strand {c n : Nat} {s : State} {y : Strand} (f : Strand → Nat) (hr : ∀ s, csrRead s c = f s.cur)
    (h : f y = n &&& csrBits c) : ReadsBack c n (some (s.setCur y)) := fun s' e => by
  cases e; rw [hr, State.cur_setCur, h]

theorem view_setViews (s : State) (v : View) : (setViews s v).curTile.ctx.av = v := by
  show ((s.setTile s.ct _).tile s.ct).ctx.av = v
  rw [State.tile_setTile_same]

/-- A register of the engine's architectural view. -/
theorem readsBack_view {c n : Nat} {s : State} {v : View} (f : View → Nat) (hr : ∀ s, csrRead s c = f s.curTile.ctx.av)
    (h : f v = n &&& csrBits c) : ReadsBack c n (some (setViews s v)) := fun s' e => by
  cases e; rw [hr, view_setViews, h]

/-- The bits that a register of `k` bits keeps of a number. -/
theorem toNat_ofNat_eq_and (k n : Nat) : (BitVec.ofNat k n).toNat = n &&& (2 ^ k - 1) := by
  rw [BitVec.toNat_ofNat, Nat.and_two_pow_sub_one_eq_mod]

/-- The bits that a masked register of `k` bits keeps of a number. -/
theorem toNat_ofNat_and {k : Nat} (n : Nat) (m : BitVec k) : (BitVec.ofNat k n &&& m).toNat = n &&& m.toNat := by
  rw [BitVec.toNat_and, BitVec.toNat_ofNat, mod_and_of_lt n m.isLt]

theorem readsBack_fidx (s : State) (n : Nat) {c : Nat} (hc : 0x008 ≤ c ∧ c ≤ 0x00C) : ReadsBack c n (csrWrite s c n) := by
  have hw : csrWrite s c n =
      some (s.setCur { s.cur with fidx := sput s.cur.fidx (c - 0x008) (BitVec.ofNat 64 n &&& 0xBFFFFFFFFFFFFFFC#64) }) := by
    simp (disch := omega) only [csrWrite, if_neg, if_pos]
  have hb : csrBits c = 0xBFFFFFFFFFFFFFFC := by simp (disch := omega) only [csrBits, if_neg, if_pos]
  rw [hw]
  refine readsBack_strand (fun y => (sget 0 y.fidx (c - 0x008)).toNat) (fun s => ?_) ?_
  · simp (disch := omega) only [csrRead, if_neg, if_pos]
  · rw [sget_sput_same, hb]
    exact toNat_ofNat_and n _

/-- The entry of register `r + i` after four entries were put from `r` on. -/
theorem tag_putTags (v : View) (r n : Nat) {i : Nat} (hi : i < 4) :
    ({ v with tags := putTags v.tags r n } : View).tag (r + i) = BitVec.ofNat 16 (fieldOf n (16 * i) 10) := by
  simp only [View.tag, putTags, show List.range 4 = [0, 1, 2, 3] from rfl, List.foldl, sget_sput, Nat.add_left_cancel_iff]
  interval_cases i <;> rfl

/-- A field of ten bits stands whole in an entry. -/
theorem toNat_entry (n lo : Nat) : (BitVec.ofNat 16 (fieldOf n lo 10)).toNat = fieldOf n lo 10 := by
  rw [BitVec.toNat_ofNat]
  exact Nat.mod_eq_of_lt (lt_trans (Nat.mod_lt _ (by decide)) (by decide))

theorem tagWord_putTags (v : View) (k n : Nat) : tagWord { v with tags := putTags v.tags (4 * k) n } k = n &&& 0x03FF03FF03FF03FF := by
  have tag := fun {i : Nat} => tag_putTags v (4 * k) n (i := i)
  have tag0 := tag (i := 0) (by decide)
  rw [Nat.add_zero] at tag0
  simp only [tagWord, tag0, tag (i := 1) (by decide), tag (i := 2) (by decide), tag (i := 3) (by decide), toNat_entry]
  exact (and_tagMask n).symm

theorem readsBack_tags (s : State) (n : Nat) {c : Nat} (hc : 0x018 ≤ c ∧ c ≤ 0x01F) : ReadsBack c n (csrWrite s c n) := by
  have hb : csrBits c = 0x03FF03FF03FF03FF := by simp (disch := omega) only [csrBits, if_neg, if_pos]
  simp (disch := omega) only [csrWrite, if_neg, if_pos]
  refine readsBack_guard (readsBack_view (tagWord · (c - 0x018)) (fun s => ?_) ?_)
  · simp (disch := omega) only [csrRead, if_neg, if_pos]
  · rw [hb]
    exact tagWord_putTags ..

theorem readsBack_csrWrite (s : State) {c n : Nat} {m : CsrMark} (h : csrMark c = some m) (hro : m.ro = false) :
    ReadsBack c n (csrWrite s c n) := by
  obtain rfl | hc | rfl | hc | rfl | rfl | rfl | rfl | rfl | rfl | rfl | rfl | rfl := writable_cases h hro
  · exact readsBack_guard (readsBack_strand (·.fstat.toNat) (fun _ => rfl) (toNat_ofNat_and n _))
  · exact readsBack_fidx s n hc
  · exact readsBack_view (·.vstart) (fun _ => rfl) (Nat.and_two_pow_sub_one_eq_mod n 15).symm
  · exact readsBack_tags s n hc
  · exact readsBack_guard (readsBack_view (·.mcfg.toNat) (fun _ => rfl) (toNat_ofNat_eq_and 8 n))
  · exact readsBack_guard (readsBack_view (·.kval.toNat) (fun _ => rfl) (toNat_ofNat_eq_and 7 n))
  · exact readsBack_strand (·.tcause.toNat) (fun _ => rfl) (toNat_ofNat_eq_and 16 n)
  · exact readsBack_strand (·.tpc.toNat) (fun _ => rfl) (toNat_ofNat_and n _)
  · exact readsBack_strand (·.tva.toNat) (fun _ => rfl) (toNat_ofNat_eq_and 56 n)
  · exact readsBack_strand (·.telem.toNat) (fun _ => rfl) (toNat_ofNat_eq_and 15 n)
  · exact readsBack_strand (·.tvec.toNat) (fun _ => rfl) (toNat_ofNat_and n _)
  · exact readsBack_strand (·.tscr.toNat) (fun _ => rfl) (toNat_ofNat_eq_and 64 n)
  · exact readsBack_strand (·.drsel.toNat) (fun _ => rfl) (toNat_ofNat_eq_and 4 n)

/-- Settles O16: register by register, what the write stores is what the mask holds. -/
theorem csrReadBack : Obligations.CsrReadBack := fun s _ _ _ s' hm hro _ hw => readsBack_csrWrite s hm hro s' hw

end Sys2Proof.Laws.Csr
end

section
/-! PROOF. What the traffic of caches, directory, reservations and notices leaves of the tiles and partitions. -/

namespace Sys2Proof.Laws

open Sys2Proof.Machine

/-- A tile without its caches, translations, undo log and strands. -/
def lastingTile (x : Tile) : Tile :=
  { x with tc := [], l1d := [], l1i := [], rmask := [], xlat := [], undo := [], ctx := { x.ctx with strands := [] } }

/-- A partition without what a notice and a write of its pools' words change. -/
def lastingPart (x : Partition) : Partition := { x with reopened := [], notices := [], noteWatch := none, errlog := [] }

/-- What of the tiles and partitions that traffic leaves as it is. -/
def lasting (s : State) : (Nat → Tile) × (Nat → Partition) := (fun t => lastingTile (s.tile t), fun p => lastingPart (s.partition p))

theorem lastingTile_eq {s z : State} (h : lasting z = lasting s) (t : Nat) : lastingTile (z.tile t) = lastingTile (s.tile t) :=
  congrFun (congrArg Prod.fst h) t

/-! ### The updates that it is made of -/

theorem lasting_of {s z : State} (ht : z.tiles = s.tiles := by rfl) (hp : z.parts = s.parts := by rfl) : lasting z = lasting s := by
  simp only [lasting, State.tile, State.partition, ht, hp]

theorem lasting_setTile {s : State} {t : Nat} {x : Tile} (h : lastingTile x = lastingTile (s.tile t) := by rfl) :
    lasting (s.setTile t x) = lasting s := by
  refine Prod.ext (funext fun u => ?_) rfl
  simp only [lasting, State.tile_setTile]
  split
  · next e => rw [e, h]
  · rfl

theorem lasting_setPartition {s : State} {p : Nat} {x : Partition} (h : lastingPart x = lastingPart (s.partition p) := by rfl) :
    lasting (s.setPartition p x) = lasting s := by
  refine Prod.ext rfl (funext fun q => ?_)
  by_cases e : q = p
  · subst e; simp only [lasting, State.partition_setPartition_same, h]
  · simp only [lasting, State.partition_setPartition_other s x e]

/-- Changing every tile by a function that keeps `f` of it. -/
theorem tile_mapTiles {β : Type} (f : Tile → β) {s z : State} {g : Nat × Tile → Nat × Tile} (hz : z.tiles = s.tiles.map g)
    (h : ∀ a, (g a).1 = a.1 ∧ f (g a).2 = f a.2) (t : Nat) : f (z.tile t) = f (s.tile t) := by
  have e : g = fun a => (a.1, (fun k x => (g (k, x)).2) a.1 a.2) := funext fun a => Prod.ext (h a).1 rfl
  rw [e] at hz
  simp only [State.tile, hz, sget_eq_sfind, sfind_map (fun k x => (g (k, x)).2)]
  cases sfind s.tiles t
  exacts [rfl, (h _).2]

theorem lasting_mapTiles {s z : State} {g : Nat × Tile → Nat × Tile} (hp : z.parts = s.parts) (hz : z.tiles = s.tiles.map g)
    (h : ∀ a, (g a).1 = a.1 ∧ lastingTile (g a).2 = lastingTile a.2) : lasting z = lasting s :=
  Prod.ext (funext (tile_mapTiles lastingTile hz h)) (funext fun p => by simp only [lasting, State.partition, hp])

theorem lasting_ite {c : Prop} [Decidable c] {s a b : State} (ha : lasting a = lasting s) (hb : lasting b = lasting s) :
    lasting (if c then a else b) = lasting s := by
  split
  exacts [ha, hb]

/-! ### Caches and directory -/

@[simp] theorem lasting_wakeWatches (s : State) (ag : Agent) (l : Nat) : lasting (wakeWatches s ag l) = lasting s :=
  lasting_ite (lasting_mapTiles rfl rfl fun _ => ⟨rfl, rfl⟩) rfl

@[simp] theorem lasting_mscHold (r : Nat) (s : State) : lasting (mscHold r s) = lasting s := by
  unfold mscHold
  extract_lets held s1
  have h1 : lasting s1 = lasting s := by
    refine lasting_ite rfl ?_
    split
    exacts [lasting_of, rfl]
  clear_value s1
  exact lasting_ite rfl (Eq.trans lasting_of h1)

@[simp] theorem lasting_noteRegion (p : Bool) (l : Nat) (s : State) : lasting (noteRegion p l s) = lasting s := by
  unfold noteRegion
  extract_lets
  exact lasting_ite lasting_of ((lasting_mscHold ..).trans lasting_of)

@[simp] theorem lasting_refreshRegion (p : Bool) (l : Nat) (s : State) : lasting (refreshRegion p l s) = lasting s :=
  lasting_ite (lasting_noteRegion ..) rfl

@[simp] theorem lasting_writeBack (l : Nat) (s : State) : lasting (writeBack l s) = lasting s := by
  unfold writeBack
  split
  exacts [lasting_of, rfl]

@[simp] theorem lasting_wakeDirty (t l : Nat) (s : State) : lasting (wakeDirty t l s) = lasting s := lasting_ite lasting_of rfl

@[simp] theorem lasting_loseLine (t l : Nat) (s : State) : lasting (loseLine t l s) = lasting s := by
  unfold loseLine
  split
  · exact lasting_setTile
  · extract_lets h s1 s2 s3
    have h3 : lasting s3 = lasting s := Eq.trans lasting_setTile ((lasting_of (s := s1)).trans (lasting_wakeDirty ..))
    clear_value s3
    exact lasting_ite ((lasting_writeBack ..).trans h3) h3

@[simp] theorem lasting_recallLine (l : Nat) (s : State) : lasting (recallLine l s) = lasting s := by
  unfold recallLine
  extract_lets h
  refine lasting_ite (lasting_ite (lasting_refreshRegion ..) rfl) ((lasting_noteRegion ..).trans ?_)
  exact foldl_keeps lasting _ (fun _ _ => lasting_loseLine ..) _ s

@[simp] theorem lasting_recallReserved (l : Nat) (s : State) : lasting (recallReserved l s) = lasting s :=
  foldl_keeps lasting _ (fun _ _ => (lasting_writeBack ..).trans lasting_setTile) _ s

@[simp] theorem lasting_evictLine (t l : Nat) (s : State) : lasting (evictLine t l s) = lasting s :=
  lasting_ite ((lasting_noteRegion ..).trans (lasting_loseLine ..)) (lasting_loseLine ..)

@[simp] theorem lasting_fillTile (t l : Nat) (s : State) : lasting (fillTile t l s) = lasting s := by
  simp only [fillTile]
  refine lasting_ite rfl ?_
  split
  · rfl
  · split
    exacts [Eq.trans lasting_setTile (lasting_evictLine ..), lasting_setTile]

@[simp] theorem lasting_recordOwner (t l : Nat) (o : SMap LineState) (x : LineState) (s : State) :
    lasting (recordOwner t l o x s) = lasting s := by
  unfold recordOwner
  extract_lets keep h s1
  have h1 : lasting s1 = lasting s := lasting_of
  clear_value s1
  refine lasting_ite ?_ ?_
  · exact (lasting_noteRegion ..).trans (Eq.trans lasting_setTile ((lasting_fillTile ..).trans h1))
  · exact (lasting_refreshRegion ..).trans ((lasting_writeBack ..).trans (Eq.trans lasting_setTile h1))

@[simp] theorem lasting_touchHome (s : State) (l : Nat) (w : Bool) : lasting (touchHome s l w) = lasting s := by
  unfold touchHome
  extract_lets h s1
  have h1 : lasting s1 = lasting s := foldl_keeps lasting _ (fun _ _ => lasting_wakeDirty ..) _ s
  clear_value s1
  refine lasting_ite (lasting_recallLine ..) (lasting_ite (lasting_ite (lasting_refreshRegion ..) rfl) ?_)
  exact (lasting_noteRegion ..).trans (Eq.trans lasting_of h1)

/-! ### Reservations and releases -/

@[simp] theorem lasting_recallFree (old : List ResEntry) (e : ResEntry) (s : State) : lasting (recallFree old e s) = lasting s :=
  foldl_keeps lasting _ (fun _ _ => lasting_recallLine ..) _ s

@[simp] theorem lasting_settleGrants (l : List ResEntry) : ∀ (old : List ResEntry) (s : State), lasting (settleGrants s old l) = lasting s := by
  induction l with
  | nil => exact fun _ _ => rfl
  | cons e r ih =>
    intro old s
    simp only [settleGrants]
    refine lasting_ite ((ih ..).trans (lasting_ite (lasting_recallFree ..) ?_)) (ih ..)
    exact Eq.trans lasting_of (lasting_recallFree old e s)

@[simp] theorem lasting_leaveLine (e : ResEntry) (s : State) (l : Nat) : lasting (leaveLine e s l) = lasting s :=
  lasting_ite (lasting_recordOwner ..) (lasting_recordOwner ..)

@[simp] theorem lasting_cutEntries (s : State) (e : ResEntry) (edge : Nat) (st : ResState) (a : Option Nat) :
    lasting (cutEntries s e edge st a) = lasting s := by
  unfold cutEntries
  extract_lets cut rs s1
  refine (lasting_settleGrants ..).trans ?_
  refine (foldl_keeps lasting _ (fun s x => foldl_keeps lasting _ (fun s l => lasting_leaveLine x s l) _ s) _ _).trans ?_
  exact lasting_of

@[simp] theorem lasting_noteWait (s : State) (w : WaitKind) : lasting (s.noteWait w) = lasting s := by
  cases w <;> exact lasting_of

@[simp] theorem lasting_flushReservation (r : Nat) (s : State) : lasting (flushReservation r s) = lasting s := by
  unfold flushReservation
  extract_lets mine s1
  refine (foldl_keeps lasting _ (fun _ _ => lasting_cutEntries ..) _ s1).trans ?_
  exact foldl_keeps lasting _ (fun s e => foldl_keeps lasting _ (fun s l => lasting_writeBack l s) _ s) _ s

@[simp] theorem lasting_flushAll (rs : List Nat) (s : State) : lasting (flushAll rs s) = lasting s :=
  foldl_keeps lasting _ (fun s r => lasting_flushReservation r s) _ s

@[simp] theorem lasting_flushHolders (l : Nat) (s : State) : lasting (flushHolders l s) = lasting s :=
  foldl_keeps lasting _ (fun s (_ : Nat × LineState) => lasting_flushAll _ s) _ s

@[simp] theorem lasting_releaseLine (e : ResEntry) (s : State) (l : Nat) : lasting (releaseLine e s l) = lasting s :=
  (lasting_recordOwner ..).trans ((lasting_writeBack ..).trans (lasting_ite rfl (lasting_flushAll ..)))

@[simp] theorem lasting_releaseEntries (p : ResEntry → Bool) (s : State) : lasting (releaseEntries p s) = lasting s := by
  unfold releaseEntries
  extract_lets s1
  refine lasting_ite ((lasting_settleGrants ..).trans ?_) rfl
  refine (foldl_keeps lasting _ (fun s e => foldl_keeps lasting _ (fun s l => lasting_releaseLine e s l) _ s) _ _).trans ?_
  exact lasting_of

@[simp] theorem lasting_releaseRid (s : State) (r : Nat) : lasting (releaseRid s r) = lasting s :=
  Eq.trans lasting_of (lasting_releaseEntries ..)

@[simp] theorem lasting_endXlats (ls : List Nat) (s : State) : lasting (endXlats ls s) = lasting s := by
  unfold endXlats
  extract_lets hit s1
  refine (lasting_releaseEntries ..).trans (lasting_ite ?_ rfl)
  exact (foldl_keeps lasting _ (fun _ _ => lasting_refreshRegion ..) _ _).trans (lasting_mapTiles rfl rfl fun _ => ⟨rfl, rfl⟩)

@[simp] theorem lasting_freeRegion (r : Nat) (s : State) : lasting (freeRegion r s) = lasting s := by
  unfold freeRegion
  extract_lets ls s1
  have h1 : lasting s1 = lasting s := (lasting_endXlats ..).trans (foldl_keeps lasting _ (fun _ _ => by simp) _ s)
  clear_value s1
  exact Eq.trans lasting_of h1

@[simp] theorem lasting_roomFor (l : Nat) (s : State) : lasting (roomFor l s) = lasting s := by
  unfold roomFor
  refine lasting_ite rfl ?_
  split
  exacts [lasting_freeRegion .., rfl]

/-! ### Accesses of the device itself -/

@[simp] theorem lasting_exposeLine (s : State) (r : Option Nat) (l : Nat) : lasting (exposeLine s r l) = lasting s :=
  lasting_mapTiles rfl rfl fun a => by dsimp only; split <;> split <;> exact ⟨rfl, rfl⟩

/-- At the home an access of no tile allocates nothing. -/
@[simp] theorem lasting_cacheAccess (l o n : Nat) (w : Bool) (s : State) : lasting (cacheAccess {} .home l o n w s) = lasting s := by
  have touch : ∀ sh, lasting (touchLine (roomFor l s) .home {} l w sh) = lasting s := fun _ =>
    (lasting_touchHome ..).trans (lasting_roomFor ..)
  unfold cacheAccess
  dsimp only
  split
  · rw [if_neg (by simp)]
    exact lasting_ite rfl (touch true)
  · exact touch _

@[simp] theorem lasting_notePools (old : List Host.Cell) (pa n : Nat) (s : State) : lasting (notePools old pa n s) = lasting s := by
  refine lasting_ite (Prod.ext rfl (funext fun p => ?_)) rfl
  have e := sfind_map (fun _ (x : Partition) => { x with reopened := (x.reopened ++ reopenedPools x old s.mem pa n).eraseDups }) s.parts p
  simp only [lasting, State.partition, sget_eq_sfind, e]
  cases sfind s.parts p <;> rfl

@[simp] theorem lasting_noteWrite (s : State) (pa n : Nat) : lasting (noteWrite s {} pa n) = lasting s := by
  unfold noteWrite
  extract_lets s1 ls s2 s3 s4 hot
  have h4 : lasting s4 = lasting s := Eq.trans lasting_of
    ((lasting_endXlats ..).trans (foldl_keeps lasting _ (fun s l => lasting_wakeWatches s {} l) _ s))
  clear_value s4
  exact lasting_ite h4 (Eq.trans lasting_of h4)

@[simp] theorem lasting_physPut (s : State) (pa : Nat) (bs : List (BitVec 8)) : lasting (physPut s {} pa bs) = lasting s := by
  unfold physPut
  extract_lets s1
  exact lasting_ite rfl ((lasting_notePools ..).trans (Eq.trans lasting_of (lasting_noteWrite s pa bs.length)))

@[simp] theorem lasting_markLeaf (s : State) (l : Leaf) (acc : Access) : lasting (markLeaf s {} l acc) = lasting s :=
  lasting_ite rfl ((lasting_physPut ..).trans (lasting_touchHome ..))

/-- A state with the same lasting part as `s`. -/
def Lasts (s z : State) : Prop := lasting z = lasting s

/-- An operation keeps it, however it ends. -/
theorem keeps_modify_lasts {s0 : State} {f : State → State} (h : ∀ s, lasting (f s) = lasting s) : Keeps (Lasts s0) (modify f) :=
  keeps_modify fun s hs => (h s).trans hs

theorem keepsLasting_lineAccess (s0 : State) (va : BitVec 56) (pa n : Nat) (w : Bool) : Keeps (Lasts s0) (lineAccess {} .home va pa n w) := by
  unfold lineAccess
  refine keeps_bind (keeps_forIn fun l => ?_) fun _ => keeps_pure _
  refine keeps_bind keeps_get fun s => keeps_bind (keeps_judgeLine ..) fun _ => ?_
  refine keeps_bind (keeps_modify_lasts fun s => ?_) fun _ => keeps_pure _
  exact (lasting_exposeLine ..).trans (lasting_cacheAccess ..)

theorem keepsLasting_physReadQuiet (s0 : State) (va : BitVec 56) (pa n : Nat) : Keeps (Lasts s0) (physReadQuiet {} .home va pa n) :=
  keeps_bind (keepsLasting_lineAccess ..) fun _ => keeps_bind (keeps_modify_lasts fun _ => rfl) fun _ =>
    keeps_bind keeps_get fun _ => keeps_pure _

theorem keepsLasting_physWrite (s0 : State) (va : BitVec 56) (pa : Nat) (bs : List (BitVec 8)) :
    Keeps (Lasts s0) (physWrite {} .home va pa bs) :=
  keeps_bind (keepsLasting_lineAccess ..) fun _ => keeps_modify_lasts fun s => lasting_physPut s pa bs

theorem keepsLasting_translate (s0 : State) (p va : Nat) (acc : Access) : Keeps (Lasts s0) (translate {} p va acc) := by
  refine keeps_getThen fun s hs => ?_
  cases probe s p va acc with
  | error f => exact hs
  | ok l => exact (lasting_markLeaf s l acc).trans hs

theorem keepsLasting_partRead (s0 : State) (p va n : Nat) (acc : Access) : Keeps (Lasts s0) (partRead p va n acc) :=
  keeps_bind (keepsLasting_translate ..) fun _ => keeps_bind (keepsLasting_physReadQuiet ..) fun _ => keeps_pure _

theorem keepsLasting_partWrite (s0 : State) (p va : Nat) (bs : List (BitVec 8)) : Keeps (Lasts s0) (partWrite p va bs) :=
  keeps_bind (keepsLasting_translate ..) fun _ => keepsLasting_physWrite ..

theorem keepsLasting_writeNotice (s0 : State) (p : Nat) (w : Word × Word × Word × Word) : Keeps (Lasts s0) (writeNotice p w) := by
  unfold writeNotice
  refine keeps_bind keeps_get fun s => keeps_bind (keepsLasting_partRead ..) fun tail => keeps_bind (keepsLasting_partRead ..) fun head => ?_
  exact keeps_ite (keeps_pure _) (keeps_bind (keepsLasting_partWrite ..) fun _ => keeps_bind (keepsLasting_partWrite ..) fun _ => keeps_pure _)

/-! ### Notices (R372) -/

theorem lasting_tryPost (s : State) (p : Nat) (w : Word × Word × Word × Word) : lasting (postState (tryPost s p w)) = lasting s := by
  have hk := keepsLasting_writeNotice s p w
  unfold tryPost
  generalize writeNotice p w = m at hk ⊢
  have hw := hk.run s rfl
  generalize m s = r at hw ⊢
  rcases r with ⟨_ | _, s1⟩ | ⟨tr | k, s1⟩
  exacts [rfl, hw, rfl, lasting_noteWait ..]

/-- A record of a partition's log changes the log alone. -/
theorem log_partition (s : State) (p cls src tile wave addr : Nat) :
    ∃ e, s.log (some p) cls src tile wave addr = s.setPartition p { s.partition p with errlog := e } := ⟨_, rfl⟩

theorem lasting_watchNotice (p va entry : Nat) (s : State) : lasting (watchNotice p va entry s) = lasting s := by
  obtain ⟨e, he⟩ := log_partition s p 6 10 0x3FF 0 va
  unfold watchNotice
  rw [he]
  have h1 : lasting (s.setPartition p { s.partition p with errlog := e }) = lasting s := lasting_setPartition
  generalize s.setPartition p { s.partition p with errlog := e } = s1 at h1 ⊢
  exact Eq.trans lasting_of ((lasting_setPartition (s := s1)).trans h1)

@[simp] theorem lasting_postNotice (s : State) (p : Nat) (w : Word × Word × Word × Word) : lasting (postNotice s p w) = lasting s := by
  have ht := lasting_tryPost s p w
  unfold postNotice
  extract_lets hold
  have hh : ∀ s, lasting (hold s) = lasting s := fun s => lasting_setPartition
  refine lasting_ite (hh s) ?_
  generalize tryPost s p w = r at ht ⊢
  cases r with
  | posted s1 => exact ht
  | held s1 => exact (hh s1).trans ht
  | unwritable s1 va e => exact (lasting_watchNotice ..).trans ((hh s1).trans ht)

@[simp] theorem lasting_postAll (s : State) (p : Nat) (ws : List (Word × Word × Word × Word)) : lasting (postAll s p ws).1 = lasting s :=
  foldl_keeps lasting _ (fun s w => lasting_postNotice s p w) _ s

end Sys2Proof.Laws
end

section
/-! PROOF. The counter of a launch as its teams contribute and exit (R317, R322, R323), and that sequencers leave the tiles alone (R327). -/

namespace Sys2Proof.Laws

open Sys2Proof.Machine

/-! ### Tiles -/

theorem queueLaunch_tiles {s s1 : State} {p a : Nat} {w : List Nat} {c : BitVec 20} {pr : Option (BitVec 20)}
    {node : Option (BitVec 20 × Nat × Nat)} (h : queueLaunch s p w a pr node = some (s1, c)) : s1.tiles = s.tiles := by
  simp only [queueLaunch, Option.map_eq_some_iff] at h
  obtain ⟨⟨c', v⟩, -, e⟩ := h
  exact (congrArg (fun a => a.1.tiles) e).symm

theorem startNode_tiles (p : Nat) (c : BitVec 20) (s : State) (v : Nat) : (startNode p c s v).tiles = s.tiles := by
  simp only [startNode]
  split
  · rfl
  · split
    · rfl
    · split
      · rfl
      · split
        · rfl
        · next e =>
          rw [State.setPartition_tiles]
          exact queueLaunch_tiles e

@[simp] theorem advanceGraphs_tiles (p : Nat) (s : State) : (advanceGraphs p s).tiles = s.tiles :=
  foldl_keeps State.tiles _ (fun s (g : Graph) => foldl_keeps State.tiles _ (startNode_tiles p g.cid) _ s) _ s

@[simp] theorem onNode_tiles (p : Nat) (node : Option (BitVec 20 × Nat × Nat)) (f : GNode → Nat → GNode) (s : State) :
    (onNode p node f s).tiles = s.tiles := by
  unfold onNode
  split
  · rfl
  · extract_lets; split <;> rfl

@[simp] theorem countInstances_tiles (p : Nat) (s : State) (c : BitVec 20) : (countInstances p s c).tiles = s.tiles := by
  simp only [countInstances]
  split
  · rfl
  · split <;> rfl

@[simp] theorem reapGraphs_tiles (p : Nat) (s : State) : (reapGraphs p s).tiles = s.tiles := rfl

/-! ### A partition without graphs -/

theorem advanceGraphs_of_nil {p : Nat} {s : State} (h : (s.partition p).graphs = []) : advanceGraphs p s = s := by
  simp only [advanceGraphs, h, List.foldl_nil]

theorem onNode_of_nil {p : Nat} {s : State} (h : (s.partition p).graphs = []) (node : Option (BitVec 20 × Nat × Nat))
    (f : GNode → Nat → GNode) : onNode p node f s = s := by
  cases node <;> simp [onNode, h]

theorem countInstances_of_nil {p : Nat} {s : State} (h : (s.partition p).graphs = []) (c : BitVec 20) : countInstances p s c = s := by
  simp [countInstances, h]

theorem reapGraphs_partition {p : Nat} {s : State} (h : (s.partition p).graphs = []) : (reapGraphs p s).partition p = s.partition p := by
  simp [reapGraphs, h]

/-! ### The counts of exits -/

/-- The graphs of a partition, and how many teams of launch `c` have exited with what first status. -/
def exits (x : Partition) (c : BitVec 20) : List Graph × Nat × BitVec 8 := (x.graphs, (x.counter c).exited, (x.counter c).xst)

theorem counter_setCounter (x : Partition) (q c : BitVec 20) (v : Counter) :
    (x.setCounter q v).counter c = if cidIndex c = cidIndex q then v else x.counter c := sget_sput ..

/-- A counter that changes in other fields. -/
theorem exits_setCounter {x : Partition} {q : BitVec 20} {v : Counter} (c : BitVec 20)
    (h : v.exited = (x.counter q).exited ∧ v.xst = (x.counter q).xst) : exits (x.setCounter q v) c = exits x c := by
  simp only [exits, counter_setCounter]
  split
  · next e => rw [h.1, h.2]; simp only [Partition.counter, e]; rfl
  · rfl

theorem exits_addParent (x : Partition) (q c : BitVec 20) : exits (addParent x q) c = exits x c := by
  simp only [addParent]
  split
  · split
    exacts [rfl, exits_setCounter c ⟨rfl, rfl⟩]
  · rfl

/-- What the end of a launch does: its counter stays live no more and its parent counts it, its node and its graph's instances count it, and
the sequencers go on. -/
theorem reapLaunch_cases (p : Nat) (s : State) (c : BitVec 20) :
    reapLaunch p s c = s ∨ ∃ x s2 s3, (∀ q, exits x q = exits (s.partition p) q) ∧
      (s2 = s.setPartition p x ∨ ∃ node f, s2 = onNode p node f (s.setPartition p x)) ∧ (s3 = s2 ∨ ∃ g, s3 = countInstances p s2 g) ∧
      reapLaunch p s c = advanceGraphs p (reapGraphs p s3) := by
  unfold reapLaunch
  extract_lets x v full y x1 s1
  cases x.launches.find? (fun l => l.cid = c) with
  | none => exact .inl rfl
  | some l =>
    dsimp -zeta only
    by_cases hl : (!l.pending.isEmpty || !(teamTiles s p c).isEmpty) = true
    · exact .inl (if_pos hl)
    · rw [if_neg hl]
      extract_lets s2 s3
      have hx : ∀ q, exits x1 q = exits x q := fun q =>
        exits_setCounter (x := x) (q := c) (v := { v with live := false }) q ⟨rfl, rfl⟩
      refine .inr ⟨if full then addParent x1 c else x1, s2, s3, fun q => ?_, ?_, ?_, rfl⟩
      · split
        exacts [(exits_addParent ..).trans (hx q), hx q]
      · by_cases hf : full
        exacts [.inr ⟨l.node, _, if_pos hf⟩, .inl (if_neg hf)]
      · clear_value s2
        cases hn : l.node with
        | none => exact .inl (by simp only [s3, hn])
        | some n => exact .inr ⟨n.1, by simp only [s3, hn]⟩

@[simp] theorem reapLaunch_tiles (p : Nat) (s : State) (c : BitVec 20) : (reapLaunch p s c).tiles = s.tiles := by
  obtain h | ⟨x, s2, s3, -, h2, h3, h⟩ := reapLaunch_cases p s c
  · rw [h]
  · have e2 : s2.tiles = s.tiles := by obtain rfl | ⟨node, f, rfl⟩ := h2 <;> simp
    have e3 : s3.tiles = s2.tiles := by obtain rfl | ⟨g, rfl⟩ := h3 <;> simp
    rw [h, advanceGraphs_tiles, reapGraphs_tiles, e3, e2]

/-- Without graphs, a launch that leaves the device leaves its counts. -/
theorem exits_reapLaunch {p : Nat} {s : State} (hg : (s.partition p).graphs = []) (c : BitVec 20) :
    exits ((reapLaunch p s c).partition p) c = exits (s.partition p) c := by
  obtain h | ⟨x, s2, s3, hx, h2, h3, h⟩ := reapLaunch_cases p s c
  · rw [h]
  · have g1 : ((s.setPartition p x).partition p).graphs = [] := by
      rw [State.partition_setPartition_same]
      exact (congrArg Prod.fst (hx c)).trans hg
    have e2 : s2 = s.setPartition p x := by
      obtain rfl | ⟨node, f, rfl⟩ := h2
      exacts [rfl, onNode_of_nil g1 ..]
    have e3 : s3 = s.setPartition p x := by
      subst e2
      obtain rfl | ⟨g, rfl⟩ := h3
      exacts [rfl, countInstances_of_nil g1 _]
    have hr : (reapGraphs p s3).partition p = x := by
      rw [e3, reapGraphs_partition g1, State.partition_setPartition_same]
    have g3 : ((reapGraphs p s3).partition p).graphs = [] := by
      rw [hr]; exact (congrArg Prod.fst (hx c)).trans hg
    rw [h, advanceGraphs_of_nil g3, hr, hx]

/-! ### Contributions -/

/-- The team's contribution is counted; its node and the sequencers follow. -/
theorem contribute_cases {t p : Nat} {s : State} {m : Team} (hm : (s.tile t).team = some m) (hp : (s.tile t).part = some p) :
    contribute t s = s ∨ ∃ n s1, s1 = (s.setTile t { s.tile t with team := some { m with contributed := true } }).setPartition p
        ((s.partition p).setCounter m.cid { (s.partition p).counter m.cid with contrib := n }) ∧
      (contribute t s = s1 ∨ ∃ f, contribute t s = advanceGraphs p (onNode p m.node f s1)) := by
  simp only [contribute, hm, hp]
  split
  · exact .inl rfl
  · refine .inr ⟨((s.partition p).counter m.cid).contrib + 1, _, rfl, ?_⟩
    split
    exacts [.inr ⟨_, rfl⟩, .inl rfl]

/-- A contribution is no exit. -/
theorem exits_contribute {t p : Nat} {s : State} {m : Team} (hm : (s.tile t).team = some m) (hp : (s.tile t).part = some p)
    (h : (s.partition p).graphs = []) : exits ((contribute t s).partition p) m.cid = exits (s.partition p) m.cid := by
  obtain e | ⟨n, s1, hs1, e⟩ := contribute_cases hm hp
  · rw [e]
  · have hx : exits (s1.partition p) m.cid = exits (s.partition p) m.cid := by
      rw [hs1, State.partition_setPartition_same]
      exact exits_setCounter _ ⟨rfl, rfl⟩
    have hg : (s1.partition p).graphs = [] := (congrArg Prod.fst hx).trans h
    obtain e | ⟨f, e⟩ := e
    · rw [e, hx]
    · rw [e, onNode_of_nil hg, advanceGraphs_of_nil hg, hx]

end Sys2Proof.Laws
end

section
/-! PROOF. The copies and stripes of a tile as its team ends (R90, R145, R152, R180, R387): copies in progress go on, and what they or the
team hold is not reclaimed. -/

namespace Sys2Proof.Laws

open Sys2Proof.Machine Sys2Proof.Spec

/-! ### Families -/

theorem mem_of_mem_sdel {α : Type} {m : SMap α} {k : Nat} {a : Nat × α} (h : a ∈ sdel m k) : a ∈ m := by
  induction m with
  | nil => exact h
  | cons q r ih =>
    obtain ⟨j, w⟩ := q
    simp only [sdel] at h
    split at h
    · exact .tail _ h
    · obtain rfl | h := List.mem_cons.1 h
      exacts [.head _, .tail _ (ih h)]

theorem keyed_sdel {α : Type} {m : SMap α} (k : Nat) (h : Keyed m) : Keyed (sdel m k) := by
  induction m with
  | nil => exact h
  | cons q r ih =>
    obtain ⟨j, w⟩ := q
    obtain ⟨hlt, hr⟩ := (keyed_cons j w r).1 h
    simp only [sdel]
    split
    · exact hr
    · exact (keyed_cons ..).2 ⟨fun a ha => hlt a (mem_of_mem_sdel ha), ih hr⟩

theorem mem_of_sfind {α : Type} {m : SMap α} {k : Nat} {v : α} (h : sfind m k = some v) : (k, v) ∈ m := by
  induction m with
  | nil => cases h
  | cons q r ih =>
    obtain ⟨j, w⟩ := q
    simp only [sfind] at h
    split at h
    · next e => cases h; rw [e]; exact .head _
    · exact .tail _ (ih h)

theorem sfind_of_mem {α : Type} {m : SMap α} {k : Nat} {v : α} (hm : Keyed m) (h : (k, v) ∈ m) : sfind m k = some v := by
  induction m with
  | nil => cases h
  | cons q r ih =>
    obtain ⟨j, w⟩ := q
    obtain ⟨hlt, hr⟩ := (keyed_cons j w r).1 hm
    obtain e | h := List.mem_cons.1 h
    · cases e; simp [sfind]
    · rw [sfind, if_neg (Nat.ne_of_lt (hlt _ h)), ih hr h]

/-! ### Copies in progress -/

/-- The copies stand under different slots, and no slot whose event record waits is that of a copy in progress. -/
def CopiesInOrder (c : Ctx) : Prop := Keyed c.copies ∧ ∀ n ∈ c.deferred, ∀ k, sfind c.copies n = some k → k.state ≠ .running

/-- Copies in progress stay as they are. -/
def CopiesGoOn (c d : Ctx) : Prop :=
  CopiesInOrder c → CopiesInOrder d ∧ ∀ n k, sfind c.copies n = some k → k.state = .running → sfind d.copies n = some k

theorem CopiesGoOn.trans {c d e : Ctx} (a : CopiesGoOn c d) (b : CopiesGoOn d e) : CopiesGoOn c e := fun h =>
  ⟨(b (a h).1).1, fun n k hf hr => (b (a h).1).2 n k ((a h).2 n k hf hr) hr⟩

theorem copiesGoOn_of {c d : Ctx} (hc : d.copies = c.copies) (hd : d.deferred = c.deferred) : CopiesGoOn c d := fun h => by
  rw [CopiesInOrder, hc, hd]
  exact ⟨h, fun _ _ hf _ => hf⟩

/-- The slot holds no copy in progress. -/
def NotRunning (c : Ctx) (n : Nat) : Prop := ∀ k, sfind c.copies n = some k → k.state ≠ .running

theorem NotRunning.ne {c : Ctx} {n i : Nat} {k : Copy} (h : NotRunning c n) (hf : sfind c.copies i = some k) (hr : k.state = .running) : i ≠ n :=
  fun e => h k (e ▸ hf) hr

theorem copiesGoOn_releaseSlot {c : Ctx} {n : Nat} (hn : NotRunning c n) : CopiesGoOn c (releaseSlot c n) := fun ⟨hk, hd⟩ => by
  refine ⟨⟨keyed_sdel n hk, fun i hi k hf => ?_⟩, fun i k hf hr => (sfind_sdel_other _ (hn.ne hf hr)).trans hf⟩
  by_cases e : i = n
  · subst e
    exact nomatch (sfind_sdel_same i hk).symm.trans hf
  · exact hd i hi k ((sfind_sdel_other _ e).symm.trans hf)

theorem copiesGoOn_sput {c : Ctx} {n : Nat} {v : Copy} (hn : NotRunning c n) (hv : v.state ≠ .running) :
    CopiesGoOn c { c with copies := sput c.copies n v } := fun ⟨hk, hd⟩ => by
  refine ⟨⟨keyed_sput n v hk, fun i hi k hf => ?_⟩, fun i k hf hr => (sfind_sput_other _ v (hn.ne hf hr)).trans hf⟩
  by_cases e : i = n
  · subst e
    cases (sfind_sput_same c.copies i v).symm.trans hf
    exact hv
  · exact hd i hi k ((sfind_sput_other _ v e).symm.trans hf)

/-- A slot that is no copy's in progress joins those whose records wait. -/
theorem copiesGoOn_defer {c : Ctx} {n : Nat} (hn : NotRunning c n) : CopiesGoOn c { c with deferred := c.deferred ++ [n] } := fun ⟨hk, hd⟩ => by
  refine ⟨⟨hk, fun i hi => ?_⟩, fun _ _ hf _ => hf⟩
  obtain hi | hi := List.mem_append.1 hi
  exacts [hd i hi, List.mem_singleton.1 hi ▸ hn]

theorem copiesGoOn_postDeferred (f : Nat) : ∀ c : Ctx, CopiesGoOn c (postDeferred f c) := by
  induction f with
  | zero => exact fun _ => copiesGoOn_of rfl rfl
  | succ f ih =>
    intro c
    simp only [postDeferred]
    split
    · exact copiesGoOn_of rfl rfl
    · next n r hn =>
      have drop : ∀ ev, CopiesGoOn c { c with events := ev, deferred := r } := fun ev ⟨hk, hd⟩ =>
        ⟨⟨hk, fun i hi => hd i (hn ▸ .tail _ hi)⟩, fun _ _ hf _ => hf⟩
      split
      · exact copiesGoOn_of rfl rfl
      · split
        · exact fun h => (((drop _).trans (copiesGoOn_releaseSlot (h.2 n (hn ▸ .head _)))).trans (ih _)) h
        · exact (drop _).trans (ih _)

theorem copiesGoOn_settleSlot {c : Ctx} {n : Nat} (hn : NotRunning c n) : CopiesGoOn c (settleSlot c n) := by
  unfold settleSlot
  split
  · exact copiesGoOn_of rfl rfl
  · split
    exacts [(copiesGoOn_defer hn).trans (copiesGoOn_postDeferred _ _), copiesGoOn_releaseSlot hn]

/-- The end of a copy that is not in progress. -/
theorem copiesGoOn_endCopyCtx {c : Ctx} {n : Nat} (k : Copy) {st : CopyState} (hn : NotRunning c n) (hst : st ≠ .running)
    (cause sub : BitVec 8) (fault : Nat) (held : Bool) : CopiesGoOn c (endCopyCtx c n k st cause sub fault held) := by
  unfold endCopyCtx
  extract_lets c1 c2 c3
  have e2 : c2.copies = c.copies ∧ c2.deferred = c.deferred := by
    simp only [c2]
    split <;> exact ⟨rfl, rfl⟩
  have h2 : CopiesGoOn c c2 := copiesGoOn_of e2.1 e2.2
  have n2 : NotRunning c2 n := by rw [NotRunning, e2.1]; exact hn
  have h3 : CopiesGoOn c c3 := h2.trans (copiesGoOn_sput n2 hst)
  have n3 : NotRunning c3 n := fun k hf => by
    cases (sfind_sput_same c2.copies n _).symm.trans hf
    exact hst
  split
  exacts [h3, h3.trans (copiesGoOn_settleSlot n3)]

/-- The slots of copies that have ended are released. -/
def releaseEnded (l : SMap Copy) (c : Ctx) : Ctx := l.foldl (fun c (n, k) => if k.active || k.posting then c else releaseSlot c n) c

/-- They are not those of copies in progress. -/
theorem sfind_releaseEnded {l : SMap Copy} {n : Nat} (h : ∀ k, (n, k) ∈ l → k.active = true) (c : Ctx) :
    sfind (releaseEnded l c).copies n = sfind c.copies n := by
  induction l generalizing c with
  | nil => rfl
  | cons a l ih =>
    obtain ⟨i, v⟩ := a
    refine (ih (fun k hk => h k (.tail _ hk)) _).trans ?_
    dsimp only
    split
    · rfl
    · next hv =>
      refine sfind_sdel_other _ fun e => hv ?_
      rw [h v (e ▸ .head _), Bool.true_or]

/-- When all have ended, none is left. -/
theorem releaseEnded_all {l : SMap Copy} (h : ∀ q ∈ l, q.2.active = false ∧ q.2.posting = false) {c : Ctx} (hc : c.copies = l) :
    (releaseEnded l c).copies = [] := by
  induction l generalizing c with
  | nil => exact hc
  | cons a l ih =>
    obtain ⟨i, v⟩ := a
    obtain ⟨hact, hpost⟩ : v.active = false ∧ v.posting = false := h _ (.head _)
    have step : releaseEnded ((i, v) :: l) c = releaseEnded l (releaseSlot c i) := by simp [releaseEnded, hact, hpost]
    rw [step]
    refine ih (fun q hq => h q (.tail _ hq)) ?_
    simp [releaseSlot, hc, sdel]

/-! ### Stripes -/

/-- A tile without its allocation. -/
def unallocated (x : Tile) : Tile := { x with regions := [], evicted := [] }

/-- Is the region still held: by the supervisor, by a team, or by a copy (R180)? -/
def regionHeld (s : State) (t : Nat) (r : Region) : Bool :=
  match r.owner with
  | .supervisor => true
  | .launch c => if r.cluster then (List.range 4).any fun i => heldBy s c (clusterBase t + i) else heldBy s c t

theorem tile_reclaim (u t : Nat) (s : State) :
    (reclaim u s).tile t = if t = u then (s.tile t).keepRegions (regionHeld s t) else s.tile t := by
  unfold reclaim
  rw [State.tile_setTile]
  split
  · next e => subst e; rfl
  · rfl

theorem unallocated_reclaim (u t : Nat) (s : State) : unallocated ((reclaim u s).tile t) = unallocated (s.tile t) := by
  rw [tile_reclaim]
  split <;> rfl

theorem heldBy_of_unallocated {s z : State} {u : Nat} (h : unallocated (z.tile u) = unallocated (s.tile u)) (c : BitVec 20) :
    heldBy z c u = heldBy s c u := by
  have ht : (z.tile u).team = (s.tile u).team := (congrArg Tile.team h :)
  have hc : (z.tile u).held = (s.tile u).held := (congrArg Tile.held h :)
  simp only [heldBy, ht, hc]

theorem regionHeld_reclaim (u t : Nat) (s : State) (r : Region) : regionHeld (reclaim u s) t r = regionHeld s t r := by
  simp only [regionHeld, heldBy_of_unallocated (unallocated_reclaim u _ s)]

theorem mem_regions_reclaims (us : List Nat) (t : Nat) (s : State) (r : Region) :
    r ∈ ((us.foldl (fun s u => reclaim u s) s).tile t).regions ↔ r ∈ (s.tile t).regions ∧ (t ∈ us → regionHeld s t r = true) := by
  induction us generalizing s with
  | nil => simp
  | cons u us ih =>
    rw [List.foldl_cons, ih, regionHeld_reclaim, tile_reclaim]
    by_cases e : t = u
    · simp only [e, if_true, List.mem_cons, true_or, forall_const, Tile.keepRegions, List.mem_filter]
      exact ⟨And.left, fun h => ⟨h, fun _ => h.2⟩⟩
    · simp only [e, if_false, List.mem_cons, false_or]

theorem clusterBase_add_mod (t : Nat) : clusterBase t + t % 4 = t := Nat.div_add_mod' t 4

theorem mem_regions_reclaimAll (t : Nat) (s : State) (r : Region) :
    r ∈ ((reclaimAll t s).tile t).regions ↔ r ∈ (s.tile t).regions ∧ regionHeld s t r = true := by
  have e : reclaimAll t s = ((List.range 4).map (clusterBase t + ·)).foldl (fun s u => reclaim u s) s := by rw [List.foldl_map]; rfl
  have ht : t ∈ (List.range 4).map (clusterBase t + ·) :=
    List.mem_map.2 ⟨t % 4, List.mem_range.2 (Nat.mod_lt _ (by decide)), clusterBase_add_mod t⟩
  rw [e, mem_regions_reclaims]
  simp only [ht, true_imp_iff]

theorem unallocated_reclaimAll (u t : Nat) (s : State) : unallocated ((reclaimAll u s).tile t) = unallocated (s.tile t) :=
  foldl_keeps (fun s => unallocated (s.tile t)) _ (fun s i => unallocated_reclaim (clusterBase u + i) t s) _ s

@[simp] theorem reclaimAll_parts (u : Nat) (s : State) : (reclaimAll u s).parts = s.parts :=
  foldl_keeps State.parts _ (fun s i => show (reclaim (clusterBase u + i) s).parts = s.parts from rfl) _ s

theorem regionHeld_of_heldBy {s : State} {t : Nat} {r : Region} {c : BitVec 20} (ho : r.owner = .launch c) (h : heldBy s c t = true) :
    regionHeld s t r = true := by
  simp only [regionHeld, ho]
  split
  · exact List.any_eq_true.2 ⟨t % 4, List.mem_range.2 (Nat.mod_lt _ (by decide)), by rwa [clusterBase_add_mod]⟩
  · exact h

theorem regionHeld_own {s : State} {t : Nat} {r : Region} {c : BitVec 20} (ho : r.owner = .launch c) (hc : r.cluster = false) :
    regionHeld s t r = heldBy s c t := by
  simp [regionHeld, ho, hc]

theorem heldBy_team {s : State} {t : Nat} {m : Team} (h : (s.tile t).team = some m) : heldBy s m.cid t = true := by
  simp [heldBy, h]

/-- A launch without a team on a tile whose context is in place holds it by its copies. -/
theorem heldBy_copies {s : State} {t : Nat} (ht : (s.tile t).team = none) (hs : (s.tile t).saved = none) (hb : (s.tile t).backing = none)
    (c : BitVec 20) : heldBy s c t = (s.tile t).ctx.copies.any fun q => decide (q.2.cid = c) := by
  simp [heldBy, ht, Tile.held, hs, hb]

end Sys2Proof.Laws
end

section
/-! PROOF. A team leaves its tile (R90, R180, R323). -/

namespace Sys2Proof.Laws

open Sys2Proof.Machine Sys2Proof.Spec

/-! ### What the steps of an exit leave -/

/-- Where a tile stands: its team, its partition, its bytes, and whether its context is in place. -/
def standing (x : Tile) : Tile :=
  { team := x.team.map fun m => { m with contributed := false }, part := x.part, spd := x.spd, saved := x.saved, backing := x.backing }

/-- The same with its stripes and copies. -/
def holdings (x : Tile) : Tile :=
  { standing x with regions := x.regions, ctx := { copies := x.ctx.copies, deferred := x.ctx.deferred } }

theorem standing_of_holdings {x y : Tile} (h : holdings x = holdings y) : standing x = standing y :=
  congrArg (fun x => { x with regions := [], ctx := {} }) h

theorem fields_of_standing {x y : Tile} (h : standing x = standing y) : x.spd = y.spd ∧ x.saved = y.saved ∧ x.backing = y.backing :=
  ⟨congrArg (·.spd) h, congrArg (·.saved) h, congrArg (·.backing) h⟩

theorem team_of_standing {x y : Tile} {m : Team} (h : standing x = standing y) (hm : y.team = some m) :
    ∃ m', x.team = some m' ∧ m'.cid = m.cid := by
  have e := congrArg (fun x : Tile => x.team.map (·.cid)) h
  simp only [standing, Option.map_map, hm] at e
  exact Option.map_eq_some_iff.1 e

theorem fields_of_holdings {x y : Tile} (h : holdings x = holdings y) :
    x.regions = y.regions ∧ x.ctx.copies = y.ctx.copies ∧ x.ctx.deferred = y.ctx.deferred :=
  ⟨congrArg (·.regions) h, congrArg (·.ctx.copies) h, congrArg (·.ctx.deferred) h⟩

/-- The holdings of tile `t`, and the partitions. -/
def scene (t : Nat) (s : State) : Tile × (Nat → Partition) := (holdings (s.tile t), (lasting s).2)

theorem scene_of_lasting {s z : State} (t : Nat) (h : lasting z = lasting s) : scene t z = scene t s :=
  Prod.ext (congrArg holdings (lastingTile_eq h t) :) (congrArg Prod.snd h :)

theorem parts_of_scene {t : Nat} {s z : State} (h : scene t z = scene t s) : (lasting z).2 = (lasting s).2 := (congrArg Prod.snd h :)

theorem scene_setTile {t : Nat} {s : State} {x : Tile} (h : holdings x = holdings (s.tile t) := by rfl) :
    scene t (s.setTile t x) = scene t s := by
  simp only [scene, State.tile_setTile_same, h]
  rfl

theorem scene_closeStream (t k : Nat) (s : State) : scene t (closeStream t k s) = scene t s := by
  unfold closeStream
  extract_lets st s1
  have h1 : scene t s1 = scene t s := by
    refine scene_of_lasting t ?_
    simp only [s1]
    split
    exacts [lasting_releaseRid .., rfl]
  split
  exacts [rfl, Eq.trans scene_setTile h1]

theorem scene_unbindLoop (s : State) (t k : Nat) : scene t (unbindLoop s t k) = scene t s := by
  have h1 : scene t (dropProducer s t k) = scene t s :=
    Prod.ext (tile_mapTiles holdings rfl (fun a => by dsimp only; split <;> exact ⟨rfl, rfl⟩) t) rfl
  exact Eq.trans scene_setTile h1

/-- A contribution leaves the holdings. -/
theorem holdings_contribute {t p : Nat} {s : State} {m : Team} (hm : (s.tile t).team = some m) (hp : (s.tile t).part = some p) :
    holdings ((contribute t s).tile t) = holdings (s.tile t) := by
  obtain e | ⟨n, s1, hs1, e⟩ := contribute_cases hm hp
  · rw [e]
  · have h1 : holdings (s1.tile t) = holdings (s.tile t) := by
      rw [hs1, State.tile_setPartition, State.tile_setTile_same]
      simp only [holdings, standing, hm, Option.map_some]
    obtain e | ⟨f, e⟩ := e
    · rw [e, h1]
    · rw [e, State.tile, advanceGraphs_tiles, onNode_tiles]
      exact h1

/-- What the end of other copies leaves on tile `t`: where it stands, copies in progress, and the stripes of its team's launch. -/
structure Leaves (t : Nat) (s z : State) : Prop where
  standing : standing (z.tile t) = standing (s.tile t)
  parts : (lasting z).2 = (lasting s).2
  copies : CopiesGoOn (s.tile t).ctx (z.tile t).ctx
  regions : ∀ m, (s.tile t).team = some m → ∀ r ∈ (s.tile t).regions, r.owner = .launch m.cid → r ∈ (z.tile t).regions

theorem Leaves.trans {t : Nat} {s z w : State} (a : Leaves t s z) (b : Leaves t z w) : Leaves t s w :=
  ⟨b.standing.trans a.standing, b.parts.trans a.parts, a.copies.trans b.copies, fun m hm r hr ho => by
    obtain ⟨m', hm', hc⟩ := team_of_standing a.standing hm
    exact b.regions m' hm' r (a.regions m hm r hr ho) (hc ▸ ho)⟩

theorem leaves_of_scene {t : Nat} {s z : State} (h : scene t z = scene t s) : Leaves t s z := by
  obtain ⟨hh, hp⟩ := Prod.ext_iff.1 h
  obtain ⟨er, ec, ed⟩ := fields_of_holdings hh
  exact ⟨standing_of_holdings hh, hp, copiesGoOn_of ec ed, fun _ _ _ hr _ => er ▸ hr⟩

theorem leaves_updCtx {t : Nat} {s : State} {f : Ctx → Ctx} (h : CopiesGoOn (s.tile t).ctx (f (s.tile t).ctx)) : Leaves t s (updCtx t f s) := by
  refine ⟨?_, rfl, ?_, fun _ _ r hr _ => ?_⟩ <;> simp only [updCtx, State.tile_setTile_same]
  exacts [rfl, h, hr]

/-- The stripes of a tile's own team are not reclaimed. -/
theorem leaves_reclaimAll (t : Nat) (s : State) : Leaves t s (reclaimAll t s) := by
  have hu := unallocated_reclaimAll t t s
  refine ⟨(congrArg Laws.standing hu :), ?_, ?_, fun m hm r hr ho => ?_⟩
  · simp only [lasting, State.partition, reclaimAll_parts]
  · exact copiesGoOn_of (congrArg (·.ctx.copies) hu :) (congrArg (·.ctx.deferred) hu :)
  · exact (mem_regions_reclaimAll t s r).2 ⟨hr, regionHeld_of_heldBy ho (heldBy_team hm)⟩

theorem leaves_reclaimAfter (t : Nat) (k : Copy) (s : State) : Leaves t s (reclaimAfter t k s) := by
  unfold reclaimAfter
  split
  · split
    exacts [leaves_of_scene rfl, leaves_reclaimAll ..]
  · exact leaves_reclaimAll ..

theorem lasting_copyNotice (s : State) (t : Nat) (k : Copy) (cause sub : BitVec 8) (fault : Nat) (due : Bool) :
    lasting (copyNotice s t k cause sub fault due).1 = lasting s := by
  unfold copyNotice
  split
  exacts [lasting_postAll .., rfl]

/-- The end of a copy that is not in progress. -/
theorem leaves_endCopy {s : State} {t n : Nat} (hn : NotRunning (s.tile t).ctx n) {st : CopyState} (hst : st ≠ .running)
    (cause sub : BitVec 8) (fault : Nat) : Leaves t s (endCopy s t n st cause sub fault) := by
  unfold endCopy
  split
  · exact leaves_of_scene rfl
  · next k _ =>
    generalize hq : copyNotice s t k cause sub fault _ = q
    have hl : scene t q.1 = scene t s := scene_of_lasting t (hq ▸ lasting_copyNotice ..)
    have hnq : NotRunning (q.1.tile t).ctx n := by
      rw [NotRunning, (fields_of_holdings (congrArg Prod.fst hl)).2.1]
      exact hn
    exact ((leaves_of_scene hl).trans (leaves_updCtx (copiesGoOn_endCopyCtx k hnq hst cause sub fault q.2))).trans (leaves_reclaimAfter ..)

theorem leaves_failSuspended (s : State) (t n : Nat) : Leaves t s (failSuspended s t n) := by
  unfold failSuspended
  split
  · next k hk =>
    split
    · next l hs =>
      refine leaves_endCopy (fun k' hk' => ?_) (by decide) ..
      cases hk.symm.trans hk'
      exact fun e => nomatch hs.symm.trans e
    · exact leaves_of_scene rfl
  · exact leaves_of_scene rfl

/-- The suspended copies among `l` fail. -/
def failAll (t : Nat) (l : SMap Copy) (s : State) : State := l.foldl (fun s a => failSuspended s t a.1) s

theorem leaves_failAll (t : Nat) (l : SMap Copy) (s : State) : Leaves t s (failAll t l s) := by
  induction l generalizing s with
  | nil => exact leaves_of_scene rfl
  | cons a l ih => exact (leaves_failSuspended s t a.1).trans (ih _)

/-- Without a suspended copy nothing fails. -/
theorem failAll_of_ended {t : Nat} {s : State} (h : ∀ q ∈ (s.tile t).ctx.copies, q.2.active = false) (l : SMap Copy) :
    failAll t l s = s := by
  refine List.foldl_fixed' (fun a => ?_) l
  unfold failSuspended
  split
  · next k hk =>
    have hk := h _ (mem_of_sfind hk)
    split
    · next hs => simp [Copy.active, hs] at hk
    · rfl
  · rfl

/-! ### The copies of an ended team -/

/-- The copies' part of a context after its team's end. -/
def withoutEvents (c : Ctx) : Ctx :=
  let c1 := releaseEnded c.copies c
  { c1 with events := [], deferred := [], copies := c1.copies.map fun a => (a.1, { a.2 with ev := false }) }

theorem dropCopies_eq (t : Nat) (s : State) : dropCopies t s = updCtx t withoutEvents (failAll t (s.tile t).ctx.copies s) := rfl

theorem standing_dropCopies (t : Nat) (s : State) : standing ((dropCopies t s).tile t) = standing (s.tile t) := by
  rw [dropCopies_eq, updCtx, State.tile_setTile_same]
  exact (leaves_failAll t _ s).standing

theorem parts_dropCopies (t : Nat) (s : State) : (lasting (dropCopies t s)).2 = (lasting s).2 := (leaves_failAll t _ s).parts

theorem regions_dropCopies {t : Nat} {s : State} {m : Team} (hm : (s.tile t).team = some m) {r : Region} (hr : r ∈ (s.tile t).regions)
    (ho : r.owner = .launch m.cid) : r ∈ ((dropCopies t s).tile t).regions := by
  rw [dropCopies_eq, updCtx, State.tile_setTile_same]
  exact (leaves_failAll t _ s).regions m hm r hr ho

/-- When every copy has ended, the slots are released. -/
theorem copies_dropCopies_of_ended {t : Nat} {s : State} (h : ∀ q ∈ (s.tile t).ctx.copies, q.2.active = false ∧ q.2.posting = false) :
    ((dropCopies t s).tile t).ctx.copies = [] := by
  rw [dropCopies_eq, updCtx, State.tile_setTile_same, failAll_of_ended fun q hq => (h q hq).1]
  exact congrArg (List.map _) (releaseEnded_all h rfl)

/-- A copy in progress goes on, without an event record. -/
theorem sfind_dropCopies {t n : Nat} {s : State} {k : Copy} (hc : CopiesInOrder (s.tile t).ctx) (hf : sfind (s.tile t).ctx.copies n = some k)
    (hr : k.state = .running) : sfind ((dropCopies t s).tile t).ctx.copies n = some { k with ev := false } := by
  rw [dropCopies_eq, updCtx, State.tile_setTile_same]
  have hz := leaves_failAll t (s.tile t).ctx.copies s
  generalize failAll t (s.tile t).ctx.copies s = z at hz ⊢
  obtain ⟨hcz, hgo⟩ := hz.copies hc
  have hf' := hgo n k hf hr
  have e : sfind (releaseEnded (z.tile t).ctx.copies (z.tile t).ctx).copies n = some k := by
    refine (sfind_releaseEnded (fun k' hk' => ?_) _).trans hf'
    cases hf'.symm.trans (sfind_of_mem hcz.1 hk')
    simp [Copy.active, hr]
  exact (sfind_map (fun _ (v : Copy) => { v with ev := false }) _ n).trans (congrArg _ e)

/-! ### The exit -/

/-- The tile's stream registers are closed, after its team's contribution. -/
def streamsClosed (t : Nat) (s : State) : State := (List.range 16).foldl (fun s k => closeStream t k s) (contribute t s)

/-- Its loops are unbound. -/
def loopsUnbound (t : Nat) (s : State) : State :=
  (List.range 16).foldl (fun s k => if ((s.tile t).loop k).bound then unbindLoop s t k else s) s

/-- The state in which the exit of its team frees tile `t`. -/
def readyToFree (t : Nat) (s : State) : State := loopsUnbound t (dropCopies t (streamsClosed t s))

/-- The tile is freed, and its stripes as far as nothing holds them. -/
def freed (t : Nat) (m : Team) (img : Bool) (s : State) : State := reclaimAll t (s.setTile t (freedTile (s.tile t) m img))

/-- The launch's counter counts the exit. -/
def exitCounted (p : Nat) (m : Team) (s : State) : State :=
  let v := (s.partition p).counter m.cid
  s.setPartition p ((s.partition p).setCounter m.cid { v with exited := v.exited + 1, xst := if v.xst = 0 then m.status else v.xst })

theorem teamExit_eq {t p : Nat} {s : State} {m : Team} (hm : (s.tile t).team = some m) (hp : (s.tile t).part = some p)
    (hs : (s.tile t).still = false) (he : (s.tile t).teamEnded = true) (hr : rollbackPending s t = false) :
    ∃ img, teamExit t s = reapLaunch p (exitCounted p m (freed t m img (readyToFree t s))) m.cid := by
  simp only [teamExit, hm, hp, hs, he, hr, Bool.not_true, Bool.or_self, Bool.false_eq_true, if_false]
  exact ⟨_, rfl⟩

theorem scene_loopsUnbound (t : Nat) (s : State) : scene t (loopsUnbound t s) = scene t s := by
  refine foldl_keeps (scene t) _ (fun s k => ?_) _ s
  split
  exacts [scene_unbindLoop .., rfl]

theorem holdings_loopsUnbound (t : Nat) (s : State) : holdings ((loopsUnbound t s).tile t) = holdings (s.tile t) :=
  congrArg Prod.fst (scene_loopsUnbound t s)

theorem exits_of_parts {s z : State} (h : (lasting z).2 = (lasting s).2) (p : Nat) (c : BitVec 20) :
    exits (z.partition p) c = exits (s.partition p) c := (congrArg (exits · c) (congrFun h p :) :)

theorem scene_streamsClosed (t : Nat) (s : State) : scene t (streamsClosed t s) = scene t (contribute t s) :=
  foldl_keeps (scene t) _ (fun s k => scene_closeStream t k s) _ _

theorem holdings_streamsClosed {t p : Nat} {s : State} {m : Team} (hm : (s.tile t).team = some m) (hp : (s.tile t).part = some p) :
    holdings ((streamsClosed t s).tile t) = holdings (s.tile t) :=
  (congrArg Prod.fst (scene_streamsClosed t s) :).trans (holdings_contribute hm hp)

section
variable {t p : Nat} {s : State} {m : Team} (hm : (s.tile t).team = some m) (hp : (s.tile t).part = some p)
include hm hp

theorem standing_readyToFree : standing ((readyToFree t s).tile t) = standing (s.tile t) := by
  rw [readyToFree, standing_of_holdings (holdings_loopsUnbound ..), standing_dropCopies, standing_of_holdings (holdings_streamsClosed hm hp)]

theorem copies_readyToFree_of_ended (h : ∀ q ∈ (s.tile t).ctx.copies, q.2.active = false ∧ q.2.posting = false) :
    ((readyToFree t s).tile t).ctx.copies = [] := by
  obtain ⟨-, e, -⟩ := fields_of_holdings (holdings_loopsUnbound t (dropCopies t (streamsClosed t s)))
  obtain ⟨-, e', -⟩ := fields_of_holdings (holdings_streamsClosed hm hp)
  rw [readyToFree, e]
  exact copies_dropCopies_of_ended (by rwa [e'])

theorem sfind_readyToFree {n : Nat} {k : Copy} (hc : CopiesInOrder (s.tile t).ctx) (hf : sfind (s.tile t).ctx.copies n = some k)
    (hr : k.state = .running) : sfind ((readyToFree t s).tile t).ctx.copies n = some { k with ev := false } := by
  obtain ⟨-, e, -⟩ := fields_of_holdings (holdings_loopsUnbound t (dropCopies t (streamsClosed t s)))
  obtain ⟨-, e', d'⟩ := fields_of_holdings (holdings_streamsClosed hm hp)
  have hf' : sfind ((streamsClosed t s).tile t).ctx.copies n = some k := by rw [e', hf]
  have hc' : CopiesInOrder ((streamsClosed t s).tile t).ctx := by rwa [CopiesInOrder, e', d']
  rw [readyToFree, e, sfind_dropCopies hc' hf' hr]

theorem regions_readyToFree {r : Region} (hr : r ∈ (s.tile t).regions) (ho : r.owner = .launch m.cid) :
    r ∈ ((readyToFree t s).tile t).regions := by
  have h := holdings_streamsClosed hm hp
  obtain ⟨e, -, -⟩ := fields_of_holdings (holdings_loopsUnbound t (dropCopies t (streamsClosed t s)))
  obtain ⟨e', -, -⟩ := fields_of_holdings h
  obtain ⟨m', hm', hc⟩ := team_of_standing (standing_of_holdings h) hm
  rw [readyToFree, e]
  refine regions_dropCopies (m := m') hm' ?_ (ho.trans (congrArg _ hc.symm))
  rw [e']
  exact hr

/-- The exit's steps on the tile leave the counts of its launch. -/
theorem exits_readyToFree (hg : (s.partition p).graphs = []) : exits ((readyToFree t s).partition p) m.cid = exits (s.partition p) m.cid := by
  have h1 : (lasting (readyToFree t s)).2 = (lasting (dropCopies t (streamsClosed t s))).2 := parts_of_scene (scene_loopsUnbound ..)
  have h2 : (lasting (streamsClosed t s)).2 = (lasting (contribute t s)).2 := parts_of_scene (scene_streamsClosed t s)
  rw [exits_of_parts (h1.trans ((parts_dropCopies ..).trans h2)), exits_contribute hm hp hg]

end

/-! ### The freed tile -/

theorem unallocated_freed (t : Nat) (m : Team) (img : Bool) (s : State) :
    unallocated ((freed t m img s).tile t) = unallocated (freedTile (s.tile t) m img) := by
  rw [freed, unallocated_reclaimAll, State.tile_setTile_same]

theorem strand_freedTile (x : Tile) (m : Team) (img : Bool) {k : Nat} (hk : k ≤ m.ns) : ((freedTile x m img).strand k).state = .free := by
  let f : Nat → Strand → Strand := fun k y => if k ≤ m.ns then { drsel := y.drsel } else y
  have e : (freedTile x m img).ctx.strands = x.ctx.strands.map fun a => (a.1, f a.1 a.2) :=
    List.map_congr_left fun a _ => by simp only [f]; split <;> rfl
  rw [Tile.strand, e, sget_map {} f _ k (by simp only [f]; split <;> rfl)]
  simp only [f, if_pos hk]

/-- The freed tile has no team, no entry and no strand of it; its bytes and copies stay. -/
theorem tile_freed (t : Nat) (m : Team) (img : Bool) (s : State) :
    ((freed t m img s).tile t).team = none ∧ ((freed t m img s).tile t).queue = (s.tile t).queue.filter (fun q => decide (m.ns < q.slot)) ∧
    (∀ k, k ≤ m.ns → (((freed t m img s).tile t).strand k).state = .free) ∧ ((freed t m img s).tile t).spd = (s.tile t).spd ∧
    ((freed t m img s).tile t).ctx.copies = (s.tile t).ctx.copies := by
  have h := unallocated_freed t m img s
  have hstrand : ∀ k, ((freed t m img s).tile t).strand k = (freedTile (s.tile t) m img).strand k := fun k => (congrArg (Tile.strand · k) h :)
  exact ⟨(congrArg Tile.team h :), (congrArg Tile.queue h :), fun k hk => hstrand k ▸ strand_freedTile _ m img hk,
    (congrArg Tile.spd h :), (congrArg (·.ctx.copies) h :)⟩

theorem freed_partition (t : Nat) (m : Team) (img : Bool) (s : State) (p : Nat) : (freed t m img s).partition p = s.partition p := by
  simp only [State.partition, freed, reclaimAll_parts, State.setTile_parts]

theorem exitCounted_tiles (p : Nat) (m : Team) (s : State) : (exitCounted p m s).tiles = s.tiles := rfl

theorem mem_regions_freed {t : Nat} {m : Team} {img : Bool} {s : State} {r : Region} :
    r ∈ ((freed t m img s).tile t).regions ↔
      r ∈ (s.tile t).regions ∧ regionHeld (s.setTile t (freedTile (s.tile t) m img)) t r = true := by
  rw [freed, mem_regions_reclaimAll, State.tile_setTile_same]
  rfl

/-- What holds a launch's stripes on a freed tile are copies. -/
theorem heldBy_freedTile {t : Nat} {m : Team} {img : Bool} {s : State} (hs : (s.tile t).saved = none) (hb : (s.tile t).backing = none)
    (c : BitVec 20) :
    heldBy (s.setTile t (freedTile (s.tile t) m img)) c t = (s.tile t).ctx.copies.any fun q => decide (q.2.cid = c) := by
  have e := heldBy_copies (s := s.setTile t (freedTile (s.tile t) m img)) (t := t)
  simp only [State.tile_setTile_same] at e
  exact e rfl hs hb c

/-- The stripes of the launch stay as far as a copy of it is left. -/
theorem heldBy_readyToFree {t p : Nat} {s : State} {m : Team} (hm : (s.tile t).team = some m) (hp : (s.tile t).part = some p)
    (hs : (s.tile t).saved = none) (hb : (s.tile t).backing = none) (img : Bool) (c : BitVec 20) :
    heldBy ((readyToFree t s).setTile t (freedTile ((readyToFree t s).tile t) m img)) c t =
      ((readyToFree t s).tile t).ctx.copies.any fun q => decide (q.2.cid = c) := by
  obtain ⟨-, es, eb⟩ := fields_of_standing (standing_readyToFree hm hp)
  exact heldBy_freedTile (es.trans hs) (eb.trans hb) c

end Sys2Proof.Laws
end

section
/-! PROOF. A team starts on its tile (R62, R180, R185). -/

namespace Sys2Proof.Laws

open Sys2Proof.Machine Sys2Proof.Spec

/-! ### Which launch starts, and when (R185, R445) -/

theorem startGroup_tile {l : Launch} (h : l.record.cs = false) (t : Nat) : startGroup l t = [t] := by simp [startGroup, h]

/-- The tile that is asked for is one of those that start. -/
theorem mem_startGroup (l : Launch) (t : Nat) : t ∈ startGroup l t := by
  unfold startGroup
  split
  · exact List.mem_map.2 ⟨t % 4, List.mem_range.2 (Nat.mod_lt _ (by decide)), (Nat.add_comm ..).trans (clusterBase_add_mod t)⟩
  · exact List.mem_singleton.2 rfl

section
variable {s : State} {p t b : Nat} {c : BitVec 20} {l : Launch} (hl : launchOf s p c = some l) (hb : startBase s p l t = some b)
include hl hb

/-- Another launch comes first. -/
theorem teamStart_held {u : Nat} (hu : u ∈ startGroup l t) (h : startsFirst s p l u = false) : teamStart p c t s = s := by
  simp only [teamStart, hl, hb]
  refine if_pos ?_
  rw [Bool.not_eq_true', List.all_eq_false]
  exact ⟨u, hu, by simp [h]⟩

variable (hf : ∀ u ∈ startGroup l t, startsFirst s p l u = true)
include hf

/-- The image does not load. -/
theorem teamStart_fails {u : Nat} {tr : Trap} (h : startTeams l b s (startGroup l t) = .error (u, .trap tr)) :
    teamStart p c t s = imageFails p l u tr s := by
  simp only [teamStart, hl, hb, h, List.all_eq_true.2 hf, Bool.not_true, Bool.false_eq_true, if_false]

/-- The teams start: the launch has nothing pending on their tiles any more. -/
theorem teamStart_ok {s1 : State} (h : startTeams l b s (startGroup l t) = .ok s1) :
    (teamStart p c t s).tiles = s1.tiles ∧ (teamStart p c t s).mem = s1.mem ∧
      ∀ l' ∈ ((teamStart p c t s).partition p).launches, l'.cid = c → ∀ w ∈ startGroup l t, w ∉ l'.pending := by
  simp only [teamStart, hl, hb, h, List.all_eq_true.2 hf, Bool.not_true, Bool.false_eq_true, if_false]
  refine ⟨rfl, rfl, fun l' hl' hc w hw hp => ?_⟩
  rw [State.partition_setPartition_same] at hl'
  obtain ⟨l0, -, rfl⟩ := List.mem_map.1 hl'
  by_cases h0 : l0.cid = c
  · simp [h0, hw] at hp
  · simp [h0] at hc

end

/-! ### Stripes -/

theorem cellGet_filter_eq_zero {m : List Host.Cell} {f : Host.Cell → Bool} {a : Nat} (h : ∀ v, f (a, v) = false) :
    cellGet (m.filter f) a = 0 := by
  induction m with
  | nil => rfl
  | cons q m ih =>
    obtain ⟨j, v⟩ := q
    rw [List.filter_cons]
    split
    · next hq =>
      have hj : j ≠ a := fun e => by rw [e, h v] at hq; cases hq
      rw [cellGet, if_neg hj, ih]
    · exact ih

/-- The stripes that a team is given read 0 (R180). -/
theorem cellGet_allocate {b n a : Nat} (o : Owner) (foot cluster : Bool) (s : State) (t : Nat) (hlo : 2048 * b ≤ a)
    (hhi : a < 2048 * (b + n)) : cellGet ((allocate b n o foot cluster s t).tile t).spd a = 0 := by
  have hn : n ≠ 0 := by omega
  simp only [allocate, if_neg hn, State.tile_setTile_same]
  exact cellGet_filter_eq_zero fun v => by simp [hlo, hhi]

theorem allocate_mem (b n : Nat) (o : Owner) (foot cluster : Bool) (s : State) (t : Nat) : (allocate b n o foot cluster s t).mem = s.mem := by
  unfold allocate
  extract_lets
  split <;> rfl

/-! ### Strands (R62) -/

theorem sget_foldl_sput {α : Type} (d : α) (f : Nat → α) (m : SMap α) (n k : Nat) :
    sget d ((List.range n).foldl (fun m k => sput m k (f k)) m) k = if k < n then f k else sget d m k := by
  induction n with
  | zero => rfl
  | succ n ih =>
    rw [List.range_succ, List.foldl_append, List.foldl_cons, List.foldl_nil, sget_sput, ih]
    split
    · next e => rw [e, if_pos (Nat.lt_succ_self n)]
    · exact if_congr (by omega) rfl rfl

theorem strand_startedTile (l : Launch) (b t : Nat) (keep : Bool) (x : Tile) {k : Nat} (hk : k ≤ l.record.ns) :
    (startedTile l b t keep x).strand k =
      freshStrand l.record l.arg.toNat b ((t - l.record.first) * 8 + k) k (sget {} x.ctx.strands k) := by
  have h := sget_foldl_sput ({} : Strand)
    (fun k => freshStrand l.record l.arg.toNat b ((t - l.record.first) * 8 + k) k (sget {} x.ctx.strands k)) x.ctx.strands (l.record.ns + 1) k
  rw [if_pos (Nat.lt_succ_of_le hk)] at h
  exact h

/-- A fresh strand's registers are 0 but for those that R62 names. -/
theorem reg_freshStrand_other (r : LaunchRec) (arg b i slot : Nat) (old : Strand) {g : BitVec 5} (h : g ∉ [1, 2, 3, 30]) :
    (freshStrand r arg b i slot old).reg g = 0 := by
  simp only [List.mem_cons, List.not_mem_nil, or_false, not_or, ← BitVec.toNat_inj] at h
  obtain ⟨h1, h2, h3, h30⟩ := h
  have hsget : sget 0 (freshStrand r arg b i slot old).regs g.toNat = 0 := by
    simp only [freshStrand, sget_sput, sget_nil]
    exact (if_neg h30).trans ((if_neg h3).trans ((if_neg h2).trans (if_neg h1)))
  exact ite_eq_left_iff.2 fun _ => hsget

/-! ### The start of one team -/

/-- Tile `t` with the launch's team, from the state in which its stripes are allocated. -/
def teamPlaced (l : Launch) (b t : Nat) (s : State) : State :=
  let s1 := allocate b l.record.stripes (.launch l.cid) true l.record.cs s t
  s1.setTile t (startedTile l b t (keepsFabric (s.tile t) l) (keepNotices s1 l.region (s1.tile t)))

/-- Without an image to load, one team starts. -/
theorem startTeams_one {l : Launch} (hi : l.record.fcfg = 0) (b t : Nat) (s : State) : startTeams l b s [t] = .ok (teamPlaced l b t s) := by
  have hload : ∀ z, loadFor l t z = .ok () z := fun z => by simp only [loadFor, hi, ne_eq, not_true, if_false]; rfl
  simp only [startTeams, hload]
  split <;> rfl

theorem teamPlaced_mem (l : Launch) (b t : Nat) (s : State) : (teamPlaced l b t s).mem = s.mem := allocate_mem ..

theorem tile_teamPlaced (l : Launch) (b t : Nat) (s : State) : ∃ keep x, (teamPlaced l b t s).tile t = startedTile l b t keep x ∧
    ∀ a, 2048 * b ≤ a → a < 2048 * (b + l.record.stripes) → cellGet x.spd a = 0 :=
  ⟨_, _, State.tile_setTile_same .., fun _ hlo hhi => cellGet_allocate _ _ _ s t hlo hhi⟩

/-- The team of a launch without cluster scope and image has its strands and registers as R62 gives them, its vector state, streams and stripes
cleared, and no entry of its own in the queue. -/
theorem teamStart_starts {s : State} {p t b : Nat} {c : BitVec 20} {l : Launch} (hl : launchOf s p c = some l) (hcs : l.record.cs = false)
    (hi : l.record.fcfg = 0) (hb : startBase s p l t = some b) (hf : startsFirst s p l t = true) :
    ∃ keep x, (teamStart p c t s).tile t = startedTile l b t keep x ∧
      (∀ a, 2048 * b ≤ a → a < 2048 * (b + l.record.stripes) → cellGet x.spd a = 0) ∧ (teamStart p c t s).mem = s.mem ∧
      ∀ l' ∈ ((teamStart p c t s).partition p).launches, l'.cid = c → t ∉ l'.pending := by
  have hg := startGroup_tile hcs t
  have hall : ∀ u ∈ startGroup l t, startsFirst s p l u = true := fun u hu => by
    rw [hg] at hu
    rwa [List.mem_singleton.1 hu]
  have hok : startTeams l b s (startGroup l t) = .ok (teamPlaced l b t s) := by rw [hg, startTeams_one hi]
  obtain ⟨htiles, hmem, hpend⟩ := teamStart_ok hl hb hall hok
  obtain ⟨keep, x, hx, hz⟩ := tile_teamPlaced l b t s
  refine ⟨keep, x, ?_, hz, hmem.trans (teamPlaced_mem ..), fun l' hl' hc => hpend l' hl' hc t (mem_startGroup l t)⟩
  rw [State.tile, htiles]
  exact hx

end Sys2Proof.Laws
end

section
/-! PROOF. O50: teams start, their helpers end, and they leave (R62, R90, R180, R185, R323, R445). -/

namespace Sys2Proof.Laws

open Sys2Proof.Machine Sys2Proof.Spec

/-- The end of a strand leaves the bytes. -/
theorem kept_endStrand (t k : Nat) (st : BitVec 8) (s : State) : Kept s (endStrand t k st s) := by
  unfold endStrand
  extract_lets x x1
  refine kept_setTile ?_
  split <;> rfl

theorem state_endStrand {t k : Nat} (hk : k ≠ 0) (st : BitVec 8) (s : State) : ((endStrand t k st s).strandOf t k).state = .ended := by
  simp [endStrand, hk, State.strandOf]

/-- A helper whose lead has ended ends. -/
theorem helperEnd_ends {s : State} {t k : Nat} {m : Team} (hm : (s.tile t).team = some m) (hs : (s.tile t).still = false) (hk : k ≠ 0)
    (hn : k ≤ m.ns) (h0 : (s.strandOf t 0).state = .ended) (hh : (s.strandOf t k).state ≠ .halted) :
    ((helperEnd t k s).strandOf t k).state = .ended ∧ SameBytes s (helperEnd t k s) := by
  simp only [State.strandOf] at h0 hh
  by_cases he : ((s.tile t).strand k).state = .ended
  · have e : helperEnd t k s = s := by simp [helperEnd, hm, he]
    rw [e]
    exact ⟨he, sameBytes_of_kept (.refl s)⟩
  · have e : helperEnd t k s = endStrand t k 0 s := by simp [helperEnd, hm, hs, hk, Nat.not_lt.2 hn, h0, he, hh]
    rw [e]
    exact ⟨state_endStrand hk .., sameBytes_of_kept (kept_endStrand ..)⟩

section
variable {s : State} {t p : Nat} {m : Team} (hm : (s.tile t).team = some m) (hp : (s.tile t).part = some p)
  (hs : (s.tile t).still = false) (he : (s.tile t).teamEnded = true) (hr : rollbackPending s t = false)
include hm hp hs he hr

/-- A team whose strands have all ended leaves the tile freed, but for the stripes that are still held. -/
theorem tile_teamExit : ∃ img, (teamExit t s).tile t = (freed t m img (readyToFree t s)).tile t := by
  obtain ⟨img, e⟩ := teamExit_eq hm hp hs he hr
  refine ⟨img, ?_⟩
  rw [e, State.tile, reapLaunch_tiles, exitCounted_tiles, State.tile]

/-- The exit is counted, and the first status that is not 0 kept (R323). -/
theorem exits_teamExit (hg : (s.partition p).graphs = []) :
    exits ((teamExit t s).partition p) m.cid =
      ([], ((s.partition p).counter m.cid).exited + 1,
        if ((s.partition p).counter m.cid).xst = 0 then m.status else ((s.partition p).counter m.cid).xst) := by
  obtain ⟨img, e⟩ := teamExit_eq hm hp hs he hr
  have hx := exits_readyToFree hm hp hg
  rw [← freed_partition t m img] at hx
  rw [e]
  generalize freed t m img (readyToFree t s) = z at hx
  obtain ⟨hgr, hcount⟩ := Prod.ext_iff.1 hx
  obtain ⟨hexited, hxst⟩ := Prod.ext_iff.1 hcount
  have hgz : ((exitCounted p m z).partition p).graphs = [] := by
    rw [exitCounted, State.partition_setPartition_same]
    exact hgr.trans hg
  rw [exits_reapLaunch hgz, exits, hgz, exitCounted, State.partition_setPartition_same, counter_setCounter, if_pos rfl]
  exact Prod.ext rfl (Prod.ext (congrArg (· + 1) hexited) (congrArg (fun v => if v = 0 then m.status else v) hxst))

section
variable (hsv : (s.tile t).saved = none) (hbk : (s.tile t).backing = none)
include hsv hbk

/-- Without a copy of the team in progress its footprint is free. -/
theorem regions_teamExit_of_ended (hc : ∀ q ∈ (s.tile t).ctx.copies, q.2.active = false ∧ q.2.posting = false) :
    ∀ r ∈ ((teamExit t s).tile t).regions, r.cluster = false → r.owner ≠ .launch m.cid := by
  obtain ⟨img, e⟩ := tile_teamExit hm hp hs he hr
  intro r hr' hcl ho
  rw [e] at hr'
  obtain ⟨-, hheld⟩ := mem_regions_freed.1 hr'
  rw [regionHeld_own ho hcl, heldBy_readyToFree hm hp hsv hbk, copies_readyToFree_of_ended hm hp hc] at hheld
  cases hheld

/-- A copy in progress goes on without an event record, and keeps its launch's footprint. -/
theorem teamExit_keeps_copy (hc : CopiesInOrder (s.tile t).ctx) {n : Nat} {k : Copy} (hf : sfind (s.tile t).ctx.copies n = some k)
    (hrun : k.state = .running) :
    sfind ((teamExit t s).tile t).ctx.copies n = some { k with ev := false } ∧
      (k.cid = m.cid → ∀ r ∈ (s.tile t).regions, r.owner = .launch m.cid → r ∈ ((teamExit t s).tile t).regions) := by
  obtain ⟨img, e⟩ := tile_teamExit hm hp hs he hr
  have hk := sfind_readyToFree hm hp hc hf hrun
  refine ⟨?_, fun hcid r hr' ho => ?_⟩
  · obtain ⟨-, -, -, -, hcopies⟩ := tile_freed t m img (readyToFree t s)
    rw [e, hcopies, hk]
  · rw [e]
    refine mem_regions_freed.2 ⟨regions_readyToFree hm hp hr' ho, regionHeld_of_heldBy ho ?_⟩
    rw [heldBy_readyToFree hm hp hsv hbk]
    exact List.any_eq_true.2 ⟨_, mem_of_sfind hk, decide_eq_true hcid⟩

end

/-- What the exit leaves on the tile: no team, no entry and no strand of it, and every byte. -/
theorem teamExit_frees : ((teamExit t s).tile t).team = none ∧ (∀ q ∈ ((teamExit t s).tile t).queue, m.ns < q.slot) ∧
    (∀ k, k ≤ m.ns → (((teamExit t s).tile t).strand k).state = .free) ∧ ((teamExit t s).tile t).spd = (s.tile t).spd := by
  obtain ⟨img, e⟩ := tile_teamExit hm hp hs he hr
  obtain ⟨hteam, hqueue, hfree, hspd, -⟩ := tile_freed t m img (readyToFree t s)
  obtain ⟨espd, -, -⟩ := fields_of_standing (standing_readyToFree hm hp)
  rw [e]
  refine ⟨hteam, fun q hq => ?_, hfree, hspd.trans espd⟩
  rw [hqueue] at hq
  simpa using (List.mem_filter.1 hq).2

end

theorem exec_teamStart (p : BitVec 4) (c : BitVec 20) (tl : BitVec 10) (s : State) :
    exec (.teamStart p c tl) s = .next (teamStart p.toNat c tl.toNat s) := by rfl
theorem exec_helperEnd (tl : BitVec 10) (k : BitVec 3) (s : State) : exec (.helperEnd tl k) s = .next (helperEnd tl.toNat k.toNat s) := by rfl
theorem exec_teamExit (tl : BitVec 10) (s : State) : exec (.teamExit tl) s = .next (teamExit tl.toNat s) := by rfl

/-- Settles O50, from what a start puts on the tile, what the end of a helper changes, and what an exit frees and leaves held. -/
theorem teamEvents : Obligations.TeamEvents := by
  intro s tl t
  refine ⟨fun p c l b hl hcs hi hb hf => ?_, fun p c l b hl hb => ?_, fun k m hm hs hk hn h0 hh => ?_, fun m p hm hp hs he hr => ?_⟩
  · obtain ⟨keep, x, hx, hspd, hmem, hpend⟩ := teamStart_starts hl hcs hi hb hf
    refine ⟨_, exec_teamStart .., ?_⟩
    generalize teamStart p.toNat c t s = z at hx hmem hpend
    refine ⟨⟨_, congrArg Tile.team hx, rfl, rfl, rfl, rfl⟩, fun k hk => ?_, ?_, ?_, ?_, fun q hq => ?_, fun a hlo hhi => ?_,
      fun a => by rw [hmem], hpend⟩
    · rw [State.strandOf, hx, strand_startedTile l b t keep x hk]
      refine ⟨rfl, rfl, rfl, ?_, rfl, rfl, rfl, fun g hg => reg_freshStrand_other _ _ _ _ _ _ hg⟩
      exact BitVec.ofNat_toNat 64 _ |>.trans (BitVec.setWidth_eq _)
    · rw [hx]; rfl
    · rw [hx]; rfl
    · rw [hx]; rfl
    · rw [hx] at hq
      simpa using (List.mem_filter.1 hq).2
    · rw [hx]
      exact hspd a hlo hhi
  · refine ⟨fun hf => ?_, fun hall => ⟨fun u tr h => ?_, fun w s' h hw => ?_⟩⟩
    · rw [exec_teamStart, teamStart_held hl hb (mem_startGroup l t) hf]
    · rw [exec_teamStart, teamStart_fails hl hb hall h]
    · obtain ⟨htiles, hmem, hpend⟩ := teamStart_ok hl hb hall h
      exact ⟨_, exec_teamStart .., htiles, hmem, fun l' hl' hc => hpend l' hl' hc w hw⟩
  · have hk' : k.toNat ≠ 0 := fun e => hk (BitVec.eq_of_toNat_eq e)
    exact ⟨_, exec_helperEnd .., helperEnd_ends hm hs hk' hn h0 hh⟩
  · obtain ⟨hteam, hqueue, hfree, hspd⟩ := teamExit_frees hm hp hs he hr
    refine ⟨_, exec_teamExit .., hteam, hqueue, hfree, fun a => by rw [hspd], fun hg => ?_,
      fun hsv hbk hkeyed hdef => ⟨?_, fun n k hf hrun => ?_⟩⟩
    · obtain ⟨-, h⟩ := Prod.ext_iff.1 (exits_teamExit hm hp hs he hr hg)
      exact Prod.ext_iff.1 h
    · exact regions_teamExit_of_ended hm hp hs he hr hsv hbk
    · exact teamExit_keeps_copy hm hp hs he hr hsv hbk ⟨hkeyed, by simp [hdef]⟩ hf hrun

end Sys2Proof.Laws
end

section
/-! PROOF. O5 to O8: scalar arithmetic, divisions, branches and jumps (R65 to R67, R76, R77). The model's bit-vector operations are those
of the tables over integers. -/

namespace Sys2Proof.Laws.Scalar

open Sys2Proof.Machine Sys2Proof.Spec

/-! ### Results of the register forms (Table 3.2) -/

section
variable (x y : Word)

theorem add_eq_ofNat : x + y = BitVec.ofNat 64 (x.toNat + y.toNat) := by simp [BitVec.ofNat_add]

theorem sub_eq_ofInt : x - y = BitVec.ofInt 64 (x.toInt - y.toInt) := BitVec.eq_of_toInt_eq (by simp)

theorem mul_eq_ofInt : x * y = BitVec.ofInt 64 (x.toInt * y.toInt) := BitVec.eq_of_toInt_eq (by simp)

theorem and_eq_ofNat : x &&& y = BitVec.ofNat 64 (x.toNat &&& y.toNat) := by rw [← BitVec.toNat_and, BitVec.ofNat_toNat, BitVec.setWidth_eq]

theorem or_eq_ofNat : x ||| y = BitVec.ofNat 64 (x.toNat ||| y.toNat) := by rw [← BitVec.toNat_or, BitVec.ofNat_toNat, BitVec.setWidth_eq]

theorem xor_eq_ofNat : x ^^^ y = BitVec.ofNat 64 (x.toNat ^^^ y.toNat) := by rw [← BitVec.toNat_xor, BitVec.ofNat_toNat, BitVec.setWidth_eq]

theorem andNot_eq_ofNat : x &&& ~~~y = BitVec.ofNat 64 (x.toNat &&& (2 ^ 64 - 1 - y.toNat)) := by
  rw [← BitVec.toNat_not, and_eq_ofNat]

theorem shiftLeft_eq_ofNat (n : Nat) : x <<< n = BitVec.ofNat 64 (x.toNat * 2 ^ n) :=
  BitVec.eq_of_toNat_eq (by simp [Nat.shiftLeft_eq])

theorem shiftRight_eq_ofNat (n : Nat) : x >>> n = BitVec.ofNat 64 (x.toNat / 2 ^ n) := by
  rw [← Nat.shiftRight_eq_div_pow, ← BitVec.toNat_ushiftRight, BitVec.ofNat_toNat, BitVec.setWidth_eq]

theorem sshiftRight_eq_ofInt (n : Nat) : x.sshiftRight n = BitVec.ofInt 64 (x.toInt / 2 ^ n) := by
  have h : x.toInt / 2 ^ n = x.toInt >>> n := by rw [Int.shiftRight_eq_div_pow]; norm_cast
  rw [h, ← BitVec.toInt_sshiftRight, BitVec.ofInt_toInt]

/-- The two parts of a rotation share no bit, so that their union is their sum. -/
theorem shifts_disjoint {n : Nat} (h : n ≤ 64) : (x <<< n) &&& (x >>> (64 - n)) = 0 := by
  ext i hi
  have h1 : ¬ i < n → x.getLsbD (64 - n + i) = false := fun hn => BitVec.getLsbD_of_ge x _ (by omega)
  by_cases hn : i < n <;> simp [hn, h1]

theorem rotation_eq_ofNat {n : Nat} (h : n ≤ 64) :
    (x <<< n) ||| (x >>> (64 - n)) = BitVec.ofNat 64 (x.toNat * 2 ^ n + x.toNat / 2 ^ (64 - n)) := by
  rw [← BitVec.add_eq_or_of_and_eq_zero _ _ (shifts_disjoint x h), shiftLeft_eq_ofNat, shiftRight_eq_ofNat, ← BitVec.ofNat_add]

theorem rotateLeft_eq_ofNat {n : Nat} (h : n < 64) :
    x.rotateLeft n = BitVec.ofNat 64 (x.toNat * 2 ^ n + x.toNat / 2 ^ (64 - n)) := by
  rw [BitVec.rotateLeft_def, Nat.mod_eq_of_lt h, rotation_eq_ofNat x (by omega)]

theorem rotateRight_eq_ofNat {n : Nat} (h : n < 64) :
    x.rotateRight n = BitVec.ofNat 64 (x.toNat / 2 ^ n + x.toNat * 2 ^ (64 - n)) := by
  have hr := rotation_eq_ofNat x (n := 64 - n) (by omega)
  rw [Nat.sub_sub_self (by omega)] at hr
  rw [BitVec.rotateRight_def, Nat.mod_eq_of_lt h, BitVec.or_comm, hr, Nat.add_comm]

theorem boolWord_eq_flag (b : Bool) : boolWord b = flag b := rfl

theorem slt_eq_decide : x.slt y = decide (x.toInt < y.toInt) := BitVec.slt_eq_decide
theorem ult_eq_decide : x.ult y = decide (x.toNat < y.toNat) := rfl

theorem signedMin_eq_ofInt : (if x.slt y then x else y) = BitVec.ofInt 64 (min x.toInt y.toInt) := by
  rw [slt_eq_decide]
  by_cases h : x.toInt < y.toInt
  · simp [h, Int.min_eq_left (Int.le_of_lt h)]
  · simp [h, Int.min_eq_right (Int.not_lt.1 h)]

theorem signedMax_eq_ofInt : (if x.slt y then y else x) = BitVec.ofInt 64 (max x.toInt y.toInt) := by
  rw [slt_eq_decide]
  by_cases h : x.toInt < y.toInt
  · simp [h, Int.max_eq_right (Int.le_of_lt h)]
  · simp [h, Int.max_eq_left (Int.not_lt.1 h)]

theorem unsignedMin_eq_ofNat : (if x.ult y then x else y) = BitVec.ofNat 64 (min x.toNat y.toNat) := by
  rw [ult_eq_decide]
  by_cases h : x.toNat < y.toNat
  · simp [h, Nat.min_eq_left (Nat.le_of_lt h)]
  · simp [h, Nat.min_eq_right (Nat.not_lt.1 h)]

theorem unsignedMax_eq_ofNat : (if x.ult y then y else x) = BitVec.ofNat 64 (max x.toNat y.toNat) := by
  rw [ult_eq_decide]
  by_cases h : x.toNat < y.toNat
  · simp [h, Nat.max_eq_right (Nat.le_of_lt h)]
  · simp [h, Nat.max_eq_left (Nat.not_lt.1 h)]

theorem highProduct_unsigned : highProduct x.toNat y.toNat = BitVec.ofNat 64 (x.toNat * y.toNat / 2 ^ 64) := by
  rw [highProduct, ← BitVec.ofInt_natCast]; norm_cast

/-! ### Divisions (R66, Table 3.3) -/

theorem sdiv_eq_ofInt : x.sdiv y = BitVec.ofInt 64 (x.toInt.tdiv y.toInt) := BitVec.eq_of_toInt_eq (by rw [BitVec.toInt_sdiv, BitVec.toInt_ofInt])

theorem srem_eq_ofInt : x.srem y = BitVec.ofInt 64 (x.toInt.tmod y.toInt) := by rw [← BitVec.toInt_srem, BitVec.ofInt_toInt]

theorem neg_one_eq_allOnes : (-1 : Word) = BitVec.allOnes 64 := rfl

/-- The one quotient that does not fit is the dividend again. -/
theorem divSigned_eq : divSigned x y = if y = 0 then BitVec.allOnes 64 else if x.toInt = -2 ^ 63 ∧ y.toInt = -1 then x
    else BitVec.ofInt 64 (x.toInt.tdiv y.toInt) := by
  rw [divSigned, sdiv_eq_ofInt, neg_one_eq_allOnes]
  refine ite_congr rfl (fun _ => rfl) fun _ => ?_
  split
  · next h =>
    obtain ⟨hx, hy⟩ := h
    apply BitVec.eq_of_toInt_eq
    rw [BitVec.toInt_ofInt, hx, hy]; decide
  · rfl

theorem remSigned_eq : remSigned x y = if y = 0 then x else if x.toInt = -2 ^ 63 ∧ y.toInt = -1 then 0
    else BitVec.ofInt 64 (x.toInt.tmod y.toInt) := by
  rw [remSigned, srem_eq_ofInt]
  refine ite_congr rfl (fun _ => rfl) fun _ => ?_
  split
  · next h => obtain ⟨hx, hy⟩ := h; rw [hx, hy]; decide
  · rfl

theorem divUnsigned_eq : divUnsigned x y = if y = 0 then BitVec.allOnes 64 else BitVec.ofNat 64 (x.toNat / y.toNat) := by
  rw [divUnsigned, neg_one_eq_allOnes, ← BitVec.toNat_udiv, BitVec.ofNat_toNat, BitVec.setWidth_eq]

theorem remUnsigned_eq : remUnsigned x y = if y = 0 then x else BitVec.ofNat 64 (x.toNat % y.toNat) := by
  rw [remUnsigned, ← BitVec.toNat_umod, BitVec.ofNat_toNat, BitVec.setWidth_eq]

/-! ### Bit counts and `bswap` (R67) -/

/-- The zero bits above the highest set bit. -/
theorem leadZeros_eq {n m : Nat} (hm : m < 2 ^ n) (h0 : m ≠ 0) : leadZeros n m = n - 1 - m.log2 := by
  induction n with
  | zero => omega
  | succ n ih =>
    rw [leadZeros]
    by_cases h : m < 2 ^ n
    · have hl : m.log2 < n := (Nat.log2_lt h0).2 h
      rw [Nat.div_eq_of_lt h, if_neg (by decide), ih h]
      omega
    · have hq : m / 2 ^ n = 1 := Nat.div_eq_of_lt_le (by omega) (by rw [Nat.pow_succ] at hm; omega)
      have hl : m.log2 = n := (Nat.log2_eq_iff h0).2 ⟨by omega, hm⟩
      rw [hq, hl]; simp

theorem leadZeros_zero (n : Nat) : leadZeros n 0 = n := by
  induction n with
  | zero => rfl
  | succ n ih => rw [leadZeros, ih]; simp; omega

theorem trailZeros_zero (n : Nat) : trailZeros n 0 = n := by
  induction n with
  | zero => rfl
  | succ n ih => rw [trailZeros, ih]; simp; omega

/-- The lowest set bit: the number is an odd multiple of its power of two. -/
theorem trailZeros_spec {n m : Nat} (hm : m < 2 ^ n) (h0 : m ≠ 0) :
    trailZeros n m < n ∧ m.testBit (trailZeros n m) = true ∧ ∀ i < trailZeros n m, m.testBit i = false := by
  induction n generalizing m with
  | zero => omega
  | succ n ih =>
    rw [trailZeros]
    by_cases h : m % 2 = 1
    · rw [if_pos h]
      exact ⟨by omega, by simp [Nat.testBit_zero, h], fun i hi => by omega⟩
    · obtain ⟨h1, h2, h3⟩ := ih (m := m / 2) (by rw [Nat.pow_succ] at hm; omega) (by omega)
      rw [if_neg h, Nat.add_comm]
      refine ⟨by omega, by rw [Nat.testBit_succ]; exact h2, fun i hi => ?_⟩
      cases i with
      | zero => simp [Nat.testBit_zero]; omega
      | succ i => rw [Nat.testBit_succ]; exact h3 i (by omega)

/-- Of a word and its negative the lowest set bit is common, and no other. -/
theorem and_neg_eq_twoPow {k : Nat} (hk : k < 64) (h1 : x.getLsbD k = true) (h0 : ∀ i < k, x.getLsbD i = false) :
    x &&& -x = BitVec.twoPow 64 k := by
  apply BitVec.eq_of_getLsbD_eq
  intro i hi
  rw [BitVec.getLsbD_and, BitVec.getLsbD_neg, BitVec.getLsbD_twoPow]
  rcases Nat.lt_trichotomy i k with h | h | h
  · simp [h0 i h, Nat.ne_of_gt h]
  · subst h
    have hn : ¬ ∃ j < i, x.getLsbD j = true := fun ⟨j, hj, e⟩ => by rw [h0 j hj] at e; exact nomatch e
    simp [h1, hi, hn]
  · have he : ∃ j < i, x.getLsbD j = true := ⟨k, h, h1⟩
    cases hx : x.getLsbD i <;> simp [he, hi, Nat.ne_of_lt h]

theorem trailZeros_eq_log2 (h : x ≠ 0) : trailZeros 64 x.toNat = (x &&& -x).toNat.log2 := by
  obtain ⟨hk, h1, h0⟩ := trailZeros_spec x.isLt (by simpa using BitVec.toNat_ne.1 h)
  have e := and_neg_eq_twoPow x hk h1 h0
  rw [e, BitVec.toNat_twoPow, Nat.mod_eq_of_lt (Nat.pow_lt_pow_right (by decide) hk), Nat.log2_two_pow]

theorem leadZeros_word : BitVec.ofNat 64 (leadZeros 64 x.toNat) = if x = 0 then 64 else BitVec.ofNat 64 (63 - x.toNat.log2) := by
  split
  · next h => subst h; exact congrArg (BitVec.ofNat 64) (leadZeros_zero 64)
  · next h => rw [leadZeros_eq x.isLt (by simpa using BitVec.toNat_ne.1 h)]

theorem trailZeros_word : BitVec.ofNat 64 (trailZeros 64 x.toNat) = if x = 0 then 64 else BitVec.ofNat 64 (x &&& -x).toNat.log2 := by
  split
  · next h => subst h; exact congrArg (BitVec.ofNat 64) (trailZeros_zero 64)
  · next h => rw [trailZeros_eq_log2 x h]

theorem findFirst_word : BitVec.ofNat 64 (findFirst 64 x.toNat) = if x = 0 then 0 else BitVec.ofNat 64 ((x &&& -x).toNat.log2 + 1) := by
  rw [findFirst, Nat.mod_eq_of_lt x.isLt]
  split
  · next h => rw [if_pos (show x = 0 from BitVec.eq_of_toNat_eq h)]; rfl
  · next h => rw [if_neg fun e => h (by rw [e]; rfl), trailZeros_eq_log2 x fun e => h (by rw [e]; rfl)]

theorem popBits_eq (n m : Nat) : popBits n m = ((List.range n).filter m.testBit).length := by
  induction n generalizing m with
  | zero => rfl
  | succ n ih =>
    have hs : m.testBit ∘ Nat.succ = (m / 2).testBit := funext fun i => Nat.testBit_succ m i
    rw [popBits, ih, List.range_succ_eq_map, List.filter_cons, List.filter_map, hs, Nat.testBit_zero]
    rcases Nat.mod_two_eq_zero_or_one m with h | h <;> simp [h, Nat.add_comm]

theorem popBits_word : BitVec.ofNat 64 (popBits 64 x.toNat) = BitVec.ofNat 64 ((List.range 64).filter x.getLsbD).length := by
  rw [popBits_eq]; rfl

/-- The bytes of a number, lowest first. -/
theorem natLe_eq_map (n m : Nat) : natLe n m = (List.range n).map (byteOf m) := by
  induction n generalizing m with
  | zero => rfl
  | succ n ih =>
    rw [natLe, ih, List.range_succ_eq_map, List.map_cons, List.map_map]
    refine congrArg₂ _ (by simp [byteOf]) (List.map_congr_left fun k _ => ?_)
    rw [Function.comp_apply, byteOf, byteOf, Nat.div_div_eq_div_mul, show 2 ^ (8 * k.succ) = 256 * 2 ^ (8 * k) by rw [Nat.mul_succ, Nat.pow_add]; omega]

theorem byteOf_word (k : Nat) : byteOf x.toNat k = x.extractLsb' (8 * k) 8 := by
  apply BitVec.eq_of_toNat_eq
  rw [byteOf, BitVec.toNat_ofNat, BitVec.extractLsb'_toNat, Nat.shiftRight_eq_div_pow]

/-- Bytes in the reverse order. -/
theorem leNat_reverse_bytes (f : Nat → BitVec 8) (n : Nat) :
    leNat ((List.range (n + 1)).map f).reverse = ((List.range (n + 1)).map fun k => (f k).toNat * 2 ^ (8 * n - 8 * k)).sum := by
  induction n with
  | zero => simp [leNat]
  | succ n ih =>
    have hs : ∀ k ∈ List.range (n + 1), (f k).toNat * 2 ^ (8 * (n + 1) - 8 * k) = 256 * ((f k).toNat * 2 ^ (8 * n - 8 * k)) := fun k hk => by
      rw [show 8 * (n + 1) - 8 * k = 8 * n - 8 * k + 8 by rw [List.mem_range] at hk; omega, Nat.pow_add]; ring
    rw [List.range_succ (n := n + 1), List.map_append, List.map_append, List.reverse_append, List.sum_append, List.map_congr_left hs,
      List.sum_map_mul_left, ← ih]
    simp [leNat, Nat.add_comm]

theorem bswap_word : BitVec.ofNat 64 (leNat (natLe 8 x.toNat).reverse) =
    BitVec.ofNat 64 (((List.range 8).map fun k => (x.extractLsb' (8 * k) 8).toNat * 2 ^ (56 - 8 * k)).sum) := by
  rw [natLe_eq_map, leNat_reverse_bytes (byteOf x.toNat) 7]
  simp only [byteOf_word]

/-! ### Immediate forms (R10, R25) -/

theorem addSigned_eq_ofInt {n : Nat} (i : BitVec n) (h : n ≤ 64) : x + i.signExtend 64 = BitVec.ofInt 64 (x.toInt + i.toInt) :=
  BitVec.eq_of_toInt_eq (by rw [BitVec.toInt_add, BitVec.toInt_signExtend_of_le h, BitVec.toInt_ofInt])

theorem toNat_zeroExtend_imm (i : BitVec 16) : (i.zeroExtend 64).toNat = i.toNat := by
  exact (BitVec.toNat_setWidth ..).trans (Nat.mod_eq_of_lt (by omega))

theorem signExtend_eq_ofInt {n : Nat} (i : BitVec n) (h : n ≤ 64) : i.signExtend 64 = BitVec.ofInt 64 i.toInt := by
  rw [← BitVec.toInt_signExtend_of_le h, BitVec.ofInt_toInt]

theorem toNat_signExtend_imm (i : BitVec 15) : (i.signExtend 64).toNat = (i.toInt % 2 ^ 64).toNat := by
  rw [signExtend_eq_ofInt i (by decide), BitVec.toNat_ofInt]; rfl

theorem shiftedSigned_eq_ofInt {n : Nat} (i : BitVec n) (h : n ≤ 64) (k : Nat) :
    i.signExtend 64 <<< k = BitVec.ofInt 64 (i.toInt * 2 ^ k) := by
  have hk : BitVec.ofInt 64 (2 ^ k : Int) = BitVec.twoPow 64 k := by
    rw [show (2 ^ k : Int) = ((2 ^ k : Nat) : Int) by norm_cast, BitVec.ofInt_natCast]; exact BitVec.eq_of_toNat_eq (by simp)
  rw [signExtend_eq_ofInt i h, BitVec.shiftLeft_eq_mul_twoPow, BitVec.ofInt_mul, hk]

end

/-! ### What an instruction that retires writes -/

/-- Instruction `i` writes `v` to register `d` and goes on at the next word. -/
def Writes (s : State) (i : Instr) (d : BitVec 5) (v : Word) : Prop :=
  ∃ t, exec i s = .next t ∧ t.reg d = held d v ∧ GoesOn t (s.cur.pc + 4) ∧ RegistersOnly s t [d]

theorem writes_of_retire {s : State} {i : Instr} {d : BitVec 5} {v w : Word} (h : exec i s = .next (s.retire d w)) (hv : w = v) :
    Writes s i d v :=
  ⟨_, h, by rw [State.reg_retire_same, hv]; rfl, goesOn_retire .., registersOnly_retire ..⟩

theorem writes_binary {i : Instr} {s : State} {d a b : BitVec 5} {v : Word} (h : binaryResult (s.reg a) (s.reg b) i = some (d, a, b, v)) :
    Writes s i d v := by
  cases i with
  | add => cases h; exact writes_of_retire rfl (add_eq_ofNat ..)
  | sub => cases h; exact writes_of_retire rfl (sub_eq_ofInt ..)
  | and => cases h; exact writes_of_retire rfl (and_eq_ofNat ..)
  | or => cases h; exact writes_of_retire rfl (or_eq_ofNat ..)
  | xor => cases h; exact writes_of_retire rfl (xor_eq_ofNat ..)
  | andn => cases h; exact writes_of_retire rfl (andNot_eq_ofNat ..)
  | sll => cases h; exact writes_of_retire rfl (shiftLeft_eq_ofNat ..)
  | srl => cases h; exact writes_of_retire rfl (shiftRight_eq_ofNat ..)
  | sra => cases h; exact writes_of_retire rfl (sshiftRight_eq_ofInt ..)
  | rol => cases h; exact writes_of_retire rfl (rotateLeft_eq_ofNat _ (Nat.mod_lt _ (by decide)))
  | ror => cases h; exact writes_of_retire rfl (rotateRight_eq_ofNat _ (Nat.mod_lt _ (by decide)))
  | slt => cases h; exact writes_of_retire rfl (congrArg flag (slt_eq_decide ..))
  | sltu => cases h; exact writes_of_retire rfl (congrArg flag (ult_eq_decide ..))
  | min => cases h; exact writes_of_retire rfl (signedMin_eq_ofInt ..)
  | max => cases h; exact writes_of_retire rfl (signedMax_eq_ofInt ..)
  | minu => cases h; exact writes_of_retire rfl (unsignedMin_eq_ofNat ..)
  | maxu => cases h; exact writes_of_retire rfl (unsignedMax_eq_ofNat ..)
  | mul => cases h; exact writes_of_retire rfl (mul_eq_ofInt ..)
  | mulh => cases h; exact writes_of_retire rfl rfl
  | mulhu => cases h; exact writes_of_retire rfl (highProduct_unsigned ..)
  | mulhsu => cases h; exact writes_of_retire rfl rfl
  | _ => cases h

theorem writes_count {i : Instr} {s : State} {d a : BitVec 5} {v : Word} (h : countResult (s.reg a) i = some (d, a, v)) : Writes s i d v := by
  cases i with
  | clz => cases h; exact writes_of_retire rfl (leadZeros_word ..)
  | ctz => cases h; exact writes_of_retire rfl (trailZeros_word ..)
  | ffs => cases h; exact writes_of_retire rfl (findFirst_word ..)
  | popc => cases h; exact writes_of_retire rfl (popBits_word ..)
  | bswap => cases h; exact writes_of_retire rfl (bswap_word ..)
  | _ => cases h

theorem writes_immediate {i : Instr} {s : State} {d a : BitVec 5} {v : Word} (h : immediateResult (s.reg a) i = some (d, a, v)) :
    Writes s i d v := by
  cases i with
  | addi => cases h; exact writes_of_retire rfl (addSigned_eq_ofInt _ _ (by decide))
  | andi => cases h; exact writes_of_retire rfl (by rw [and_eq_ofNat, toNat_zeroExtend_imm])
  | ori => cases h; exact writes_of_retire rfl (by rw [or_eq_ofNat, toNat_zeroExtend_imm])
  | xori => cases h; exact writes_of_retire rfl (by rw [xor_eq_ofNat, toNat_zeroExtend_imm])
  | slti => cases h; exact writes_of_retire rfl (by rw [slt_eq_decide, BitVec.toInt_signExtend_of_le (by decide)]; rfl)
  | sltiu => cases h; exact writes_of_retire rfl (by rw [ult_eq_decide, toNat_signExtend_imm]; rfl)
  | slli => cases h; exact writes_of_retire rfl (shiftLeft_eq_ofNat ..)
  | srli => cases h; exact writes_of_retire rfl (shiftRight_eq_ofNat ..)
  | srai => cases h; exact writes_of_retire rfl (sshiftRight_eq_ofInt ..)
  | rori _ _ n => cases h; exact writes_of_retire rfl (rotateRight_eq_ofNat _ n.isLt)
  | lih => cases h; exact writes_of_retire rfl (shiftedSigned_eq_ofInt _ (by decide) 16)
  | _ => cases h

/-- Settles O5: form by form, the result of the table, retired. -/
theorem scalarArithmetic : Obligations.ScalarArithmetic :=
  ⟨fun _ _ _ _ _ _ => writes_binary, fun _ _ _ _ _ => writes_count, fun _ _ _ _ _ => writes_immediate⟩

/-- Settles O6: the quotient and the remainder of each form, with the rows of Table 3.3. -/
theorem division : Obligations.Division := by
  intro i s d a b v h
  cases i with
  | div => cases h; exact writes_of_retire rfl (divSigned_eq ..)
  | divu => cases h; exact writes_of_retire rfl (divUnsigned_eq ..)
  | rem => cases h; exact writes_of_retire rfl (remSigned_eq ..)
  | remu => cases h; exact writes_of_retire rfl (remUnsigned_eq ..)
  | _ => cases h

/-! ### Branches and jumps (R76, R77) -/

theorem wordTarget_eq {n : Nat} (pc : Word) (i : BitVec n) (h : n ≤ 64) : wordTarget pc i = pc + BitVec.ofInt 64 (4 * i.toInt) := by
  rw [wordTarget, shiftedSigned_eq_ofInt i h, Int.mul_comm]; rfl

/-- Going on elsewhere writes no register. -/
theorem registersOnly_goto (s : State) (p : Word) : RegistersOnly s (s.goto p) [] :=
  ⟨onlyStrand_setCur .., sameBytes_of_kept (kept_setCur ..), ⟨fun r _ => State.reg_goto s p r, by rw [State.cur_goto]; rfl⟩,
    by rw [State.cur_goto], by rw [State.cur_goto]⟩

theorem goesOn_goto (s : State) (p : Word) : GoesOn (s.goto p) p := by simp [GoesOn]

theorem branchIf_eq (s : State) (i : BitVec 13) (c : Bool) :
    branchIf c i s = s.goto (if c then s.cur.pc + BitVec.ofInt 64 (4 * i.toInt) else s.cur.pc + 4) := by
  cases c
  · rfl
  · rw [← wordTarget_eq _ _ (by decide)]; rfl

/-- A branch goes on as its relation says. -/
theorem branches_of_branchIf {s : State} {i : Instr} {off : BitVec 13} {b c : Bool} (h : exec i s = .next (branchIf b off s)) (hb : b = c) :
    ∃ t, exec i s = .next t ∧
      GoesOn t (if c then s.cur.pc + BitVec.ofInt 64 (4 * off.toInt) else s.cur.pc + 4) ∧ RegistersOnly s t [] := by
  subst hb
  rw [h, branchIf_eq]
  exact ⟨_, rfl, goesOn_goto .., registersOnly_goto ..⟩

theorem beq_eq_decide (x y : Word) : (x == y) = decide (x.toNat = y.toNat) := by
  rw [Bool.eq_iff_iff]; simp [BitVec.toNat_inj]

/-- Settles O7: each relation is that of Table 1.8. -/
theorem branches : Obligations.Branches := by
  intro i s a b off c h
  cases i with
  | beq => cases h; exact branches_of_branchIf rfl (beq_eq_decide ..)
  | bne => cases h; exact branches_of_branchIf rfl (by rw [bne, beq_eq_decide, decide_not])
  | blt => cases h; exact branches_of_branchIf rfl (slt_eq_decide ..)
  | bge => cases h; exact branches_of_branchIf rfl (by rw [slt_eq_decide, ← decide_not, decide_eq_decide]; exact Int.not_lt)
  | bltu => cases h; exact branches_of_branchIf rfl (ult_eq_decide ..)
  | bgeu => cases h; exact branches_of_branchIf rfl (by rw [ult_eq_decide, ← decide_not, decide_eq_decide]; exact Nat.not_lt)
  | _ => cases h

/-- A jump links a register and goes on at its target. -/
theorem jump_links (s : State) (d : BitVec 5) (v p : Word) :
    ((s.setReg d v).goto p).reg d = held d v ∧ GoesOn ((s.setReg d v).goto p) p ∧ RegistersOnly s ((s.setReg d v).goto p) [d] := by
  have hs : ∀ r, ((s.setReg d v).goto p).reg r = (s.cur.setReg d v).reg r := fun r => by rw [State.reg_goto, State.reg, State.cur_setReg]
  refine ⟨(hs d).trans (Strand.reg_setReg_same ..), goesOn_goto .., OnlyStrand.trans (onlyStrand_setCur ..) (onlyStrand_setCur ..),
    sameBytes_of_kept ((kept_setCur ..).trans (kept_setCur ..)), ⟨fun r hr => ?_, ?_⟩, ?_, ?_⟩
  · exact (hs r).trans (Strand.reg_setReg_other _ _ (by simpa using hr))
  · rw [State.cur_goto, State.cur_setReg]; exact specialOf_setReg ..
  · simp
  · simp

theorem lowBits_eq_zero_iff (x : Word) : x.extractLsb' 0 2 = 0 ↔ x.toNat % 4 = 0 := by
  rw [← BitVec.toNat_inj, BitVec.extractLsb'_toNat]; rfl

theorem exec_jalr (d a : BitVec 5) (off : BitVec 16) (s : State) : exec (.jalr d a off) s =
    (let p := s.reg a + BitVec.ofInt 64 off.toInt
     if p.toNat % 4 ≠ 0 then .next (raise s { cause := cMISALIGN, tva := p.truncate 56 }) else .next ((s.setReg d (s.cur.pc + 4)).goto p)) := by
  rw [← signExtend_eq_ofInt off (by decide)]
  exact if_congr (not_congr (lowBits_eq_zero_iff _)) rfl rfl

/-- Settles O8: the link and the target of each jump, or the trap. -/
theorem jumps : Obligations.Jumps := by
  refine ⟨fun off s => ?_, fun d a off s h => ?_, fun d a off s h hb hr => ?_⟩
  · refine ⟨_, rfl, ?_⟩
    rw [← wordTarget_eq _ _ (by decide)]
    exact jump_links s 31 _ _
  · rw [exec_jalr]
    exact ⟨_, if_neg (not_not.2 h), jump_links ..⟩
  · rw [exec_jalr]
    refine ⟨_, if_pos h, ?_⟩
    rw [raise_idle _ hb]
    exact takeTrap_entered hr (congrArg Prod.snd (postTrap_of_ne _ _ _ (show cMISALIGN ≠ cWALK by decide)))

end Sys2Proof.Laws.Scalar
end

section
/-! PROOF. O18: software traps and `tret` (R88); and what `fence.i` leaves in the L1I (R81). -/

namespace Sys2Proof.Laws.Scalar

open Sys2Proof.Machine Sys2Proof.Spec

/-! ### Software traps (R88) -/

/-- A trap that posts no notice of its own enters the handler. -/
theorem entered_of_raise {s : State} {tr : Trap} (hr : HandlerReady s) (hb : s.enginesBusy = false) (hw : tr.cause ≠ cWALK) :
    Entered s (raise s tr) tr.cause tr.sub (tr.tpc.getD s.cur.pc) tr.tva tr.telem := by
  rw [raise_idle _ hb]
  exact takeTrap_entered hr (congrArg Prod.snd (postTrap_of_ne _ _ _ hw))

theorem exec_tret_inHandler {s : State} (h : s.cur.h = true) : exec .tret s = .next (returnFromTrap s) :=
  congrArg Host.Outcome.next (if_pos h)

theorem exec_tret_outside {s : State} (h : s.cur.h = false) : exec .tret s = .next (raise s (decodeTrap cILL)) :=
  congrArg Host.Outcome.next (if_neg (by rw [h]; decide))

theorem cur_returnFromTrap (s : State) :
    (returnFromTrap s).cur = { s.cur with pc := s.cur.tpc.zeroExtend 64, h := false, state := .runnable } := State.cur_setCur ..

/-- But for H a return changes no special register. -/
theorem specialOf_returnFromTrap {s : State} (h : s.cur.h = true) : specialOf { (returnFromTrap s).cur with h := true } = specialOf s.cur := by
  rw [cur_returnFromTrap, ← h]; rfl

/-- Settles O18: the trap of each instruction, and the return from the handler. -/
theorem softwareTraps : Obligations.SoftwareTraps := by
  refine ⟨fun s hr hb => ⟨fun x y z => ⟨_, rfl, ?_⟩, fun c => ⟨_, rfl, ?_⟩, fun c => ⟨_, rfl, ?_⟩⟩, fun s => ⟨fun h => ?_, fun h hb => ?_⟩⟩
  · exact entered_of_raise hr hb (show cILL ≠ cWALK by decide)
  · exact entered_of_raise hr hb (show cTRAP ≠ cWALK by decide)
  · exact entered_of_raise hr hb (show cBRK ≠ cWALK by decide)
  · refine ⟨_, exec_tret_inHandler h, ?_, ?_, onlyStrand_setCur .., sameBytes_of_kept (kept_setCur ..), fun r => ?_, specialOf_returnFromTrap h⟩
    · rw [GoesOn, cur_returnFromTrap]; exact ⟨rfl, rfl⟩
    · rw [cur_returnFromTrap]
    · rw [State.reg, cur_returnFromTrap]; rfl
  · rw [exec_tret_outside h, raise_idle _ hb]

/-! ### `fence` and `fence.i` (R79, R81) -/

theorem mem_of_mem_sget {α : Type} {m : SMap (List α)} {k : Nat} {a : α} (h : a ∈ sget [] m k) : ∃ l, (k, l) ∈ m ∧ a ∈ l := by
  rw [sget_eq_sfind] at h
  cases e : sfind m k with
  | none => rw [e] at h; exact nomatch h
  | some l => rw [e] at h; exact ⟨l, mem_of_sfind e, h⟩

/-- A line that is left in the L1I holds what memory holds. -/
theorem freshL1i_data {s : State} {x : Tile} {set line : Nat} {c : CacheLine} (h : cacheFind (freshL1i s x) set line = some c) :
    c.data = lineBytes s line := by
  obtain ⟨l, hl, hc⟩ := mem_of_mem_sget (List.mem_of_find?_eq_some h)
  obtain ⟨⟨k, ls⟩, -, e⟩ := List.mem_map.1 (List.mem_of_mem_filter hl)
  cases e
  have hline : c.line = line := by simpa using List.find?_some h
  simpa [hline] using (List.mem_filter.1 hc).2

/-- Replacing what of the current tile its strands do not stand in. -/
theorem cur_setCurTile {s : State} {x : Tile} (h : x.ctx.strands = s.curTile.ctx.strands) : (s.setCurTile x).cur = s.cur := by
  show ((s.setTile s.ct x).tile s.ct).strand s.cs = (s.tile s.ct).strand s.cs
  rw [State.tile_setTile_same, Tile.strand, h]; rfl

theorem curTile_setCurTile (s : State) (x : Tile) : (s.setCurTile x).curTile = x := State.tile_setTile_same ..

theorem curTile_advance_l1i (s : State) : s.advance.curTile.l1i = s.curTile.l1i := by
  show ((s.setTile s.ct _).tile s.ct).l1i = _
  rw [State.tile_setTile_same]; rfl

end Sys2Proof.Laws.Scalar
end

section
/-! PROOF. O19: `fence.q` and what it is made of, the performance and the retirement of the entry at the head of the engine queue (R80, R356). -/

namespace Sys2Proof.Laws.Engine

open Sys2Proof.Machine Sys2Proof.Spec

/-! ### Updates of a tile beside its strands -/

theorem strandOf_setTile {s : State} {t : Nat} {x : Tile} (h : x.ctx.strands = (s.tile t).ctx.strands) (u k : Nat) :
    (s.setTile t x).strandOf u k = s.strandOf u k := by
  rw [State.strandOf, State.tile_setTile]
  split
  · next e => subst e; simp only [State.strandOf, Tile.strand, h]
  · rfl

@[simp] theorem strandOf_setQueue (t : Nat) (q : List Entry) (s : State) (u k : Nat) : (setQueue t q s).strandOf u k = s.strandOf u k :=
  strandOf_setTile (x := { s.tile t with queue := q }) rfl u k

theorem strandOf_updCtx {t : Nat} {f : Ctx → Ctx} {s : State} (h : (f (s.tile t).ctx).strands = (s.tile t).ctx.strands) (u k : Nat) :
    (updCtx t f s).strandOf u k = s.strandOf u k := strandOf_setTile h u k

@[simp] theorem strandOf_keepView (t : Nat) (c : Ctx) (s : State) (u k : Nat) : (keepView t c s).strandOf u k = s.strandOf u k :=
  strandOf_setTile (x := { s.tile t with ctx := { (s.tile t).ctx with av := c.av, g := c.g }, reads := [] }) rfl u k

theorem tile_setQueue_same (t : Nat) (q : List Entry) (s : State) : (setQueue t q s).tile t = { s.tile t with queue := q } :=
  State.tile_setTile_same ..

theorem tile_updCtx_same (t : Nat) (f : Ctx → Ctx) (s : State) : (updCtx t f s).tile t = { s.tile t with ctx := f (s.tile t).ctx } :=
  State.tile_setTile_same ..

theorem tile_keepView_same (t : Nat) (c : Ctx) (s : State) :
    (keepView t c s).tile t = { s.tile t with ctx := { (s.tile t).ctx with av := c.av, g := c.g }, reads := [] } := State.tile_setTile_same ..

theorem tile_setStrandOf_same (s : State) (t k : Nat) (y : Strand) : (s.setStrandOf t k y).tile t = (s.tile t).setStrand k y :=
  State.tile_setTile_same ..

theorem kept_keepView (t : Nat) (c : Ctx) (s : State) : Kept s (keepView t c s) := kept_setTile rfl

/-! ### Performance at the head -/

theorem committed_of_waits {e : Entry} (h : e.state = .issued ∨ ∃ w, e.state = .stalled w) : e.committed = false := by
  obtain h | ⟨w, h⟩ := h <;> simp [Entry.committed, h]

theorem performHead_eq {s : State} {t : Nat} {e : Entry} {rest : List Entry} (hq : (s.tile t).queue = e :: rest) (hc : e.committed = false)
    (run : Option (BitVec 1)) : performHead t run s = afterPerform t e rest s (entryPerf t [] e s) run := by
  unfold performHead
  split
  · next h => rw [hq] at h; exact nomatch h
  · next h =>
    cases hq.symm.trans h
    rw [hc]; rfl

/-- The head stands performed. -/
theorem afterPerform_done {t : Nat} {e : Entry} {rest : List Entry} {s : State} {r : Perf} {d : Done} (h : r.fin = .done d)
    (run : Option (BitVec 1)) : afterPerform t e rest s r run =
      setQueue t (e.finished r d t (s.tile t).ctx.g run :: rest) (keepView t (s.tile t).ctx r.st) := by
  simp only [afterPerform, h]

theorem afterPerform_trap {t : Nat} {e : Entry} {rest : List Entry} {s : State} {r : Perf} {n : Nat} {tr : Trap} (h : r.fin = .trap n tr)
    (run : Option (BitVec 1)) : afterPerform t e rest s r run =
      takeTrap (abandonHead t { e with flags := joinFlags e.flags r.flags } n (keepView t (s.tile t).ctx r.st)) t 0 tr := by
  simp only [afterPerform, h, headTrap]

/-- The entry as a stall of its performance `r` leaves it. -/
def stalledEntry (t : Nat) (e : Entry) (r : Perf) (w : WaitKind) : Entry :=
  { e with state := .stalled w, flags := joinFlags e.flags r.flags, rtag := r.rtag.or e.rtag, pins := (r.st.tile t).reads }

/-- The head stalls at its boundary. -/
theorem afterPerform_stall {t : Nat} {e : Entry} {rest : List Entry} {s : State} {r : Perf} {n : Nat} {w : WaitKind} (h : r.fin = .stall n w)
    (run : Option (BitVec 1)) : afterPerform t e rest s r run = standAtPort t e.op (keepResume t e n
      (setQueue t (stalledEntry t e r w :: rest) (keepView t (s.tile t).ctx (r.st.noteWait w)))) := by
  simp only [afterPerform, h, stalledEntry]

/-- The head is performed and retires. -/
theorem finishHead_done {s : State} {t : Nat} {e : Entry} {rest : List Entry} (hq : (s.tile t).queue = e :: rest) (hc : e.committed = false)
    {d : Done} (h : (entryPerf t [] e s).fin = .done d) :
    finishHead t s = retireHead t (e.finished (entryPerf t [] e s) d t (s.tile t).ctx.g none) rest
      (setQueue t (e.finished (entryPerf t [] e s) d t (s.tile t).ctx.g none :: rest) (keepView t (s.tile t).ctx (entryPerf t [] e s).st)) := by
  rw [finishHead, performHead_eq hq hc, afterPerform_done h, retirePerformed, tile_setQueue_same]
  exact if_pos rfl

theorem retirePerformed_stalled {s : State} {t : Nat} {e : Entry} {rest : List Entry} {w : WaitKind} (hq : (s.tile t).queue = e :: rest)
    (h : e.state = .stalled w) : retirePerformed t s = s := by
  rw [retirePerformed, hq]
  exact if_neg (by rw [h]; exact nofun)

/-! ### Retirement -/

/-- Recording flags changes no field but `fstat` and `fidx`. -/
theorem retireFlags_keeps {β : Type} (f : Strand → β) (h : ∀ y n i, f { y with fstat := n, fidx := i } = f y) (y : Strand) (pc : Word)
    (fl : List (Option Nat)) : f (retireFlags y pc fl) = f y := by
  unfold retireFlags
  generalize List.range 5 = l
  induction l generalizing y with
  | nil => rfl
  | cons k r ih =>
    rw [List.foldl_cons, ih]
    split
    exacts [rfl, h ..]

/-- A strand without what retirement of an entry without scalar results writes. -/
def unretired (y : Strand) : Strand := { y with fstat := 0, fidx := [], carried := [] }

theorem field_of_unretired {α : Type} {f : Strand → α} (hf : ∀ y, f (unretired y) = f y) {x y : Strand} (h : unretired y = unretired x) :
    f y = f x := by rw [← hf y, h, hf]

theorem reg_of_unretired {x y : Strand} (h : unretired y = unretired x) (r : BitVec 5) : y.reg r = x.reg r := by
  have hr : y.regs = x.regs := field_of_unretired (f := Strand.regs) (fun _ => rfl) h
  simp only [Strand.reg, hr]

theorem unretired_retireFlags (y : Strand) (pc : Word) (fl : List (Option Nat)) : unretired (retireFlags y pc fl) = unretired y :=
  retireFlags_keeps unretired (fun _ _ _ => rfl) y pc fl

/-- The queue is that of the younger entries, for which no result is kept. -/
theorem queue_retireHead {t : Nat} {e : Entry} (rest : List Entry) (s : State) (h : e.dests = []) :
    ((retireHead t e rest s).tile t).queue = rest := by
  unfold retireHead
  extract_lets y y1 s1 s2
  split
  · rw [tile_setQueue_same]
  · rw [tile_setQueue_same, h]
    simp [putDests]

theorem length_queue_retireHead {t : Nat} (e : Entry) (rest : List Entry) (s : State) :
    ((retireHead t e rest s).tile t).queue.length = rest.length := by
  unfold retireHead
  extract_lets y y1 s1 s2
  split <;> rw [tile_setQueue_same]
  exact List.length_map ..

theorem kept_retireHead (t : Nat) (e : Entry) (rest : List Entry) (s : State) : Kept s (retireHead t e rest s) := by
  unfold retireHead
  extract_lets y y1 s1 s2
  split
  · exact (kept_setStrandOf ..).trans (kept_setQueue ..)
  · exact ((kept_setStrandOf ..).trans (kept_updCtx ..)).trans (kept_setQueue ..)

theorem cursor_retireHead (t : Nat) (e : Entry) (rest : List Entry) (s : State) :
    (retireHead t e rest s).ct = s.ct ∧ (retireHead t e rest s).cs = s.cs := by
  unfold retireHead
  extract_lets y y1 s1 s2
  split <;> exact ⟨rfl, rfl⟩

/-- The strands as the retirement of an entry without scalar results leaves them. -/
theorem strandOf_retireHead {t : Nat} {e : Entry} (rest : List Entry) (s : State) (h : e.dests = []) (u k : Nat) :
    unretired ((retireHead t e rest s).strandOf u k) = unretired (s.strandOf u k) := by
  have hset : ∀ {y} j, unretired y = unretired (s.strandOf t j) → unretired ((s.setStrandOf t j y).strandOf u k) = unretired (s.strandOf u k) := by
    intro y j hy
    by_cases he : (u, k) = (t, j)
    · cases he; rwa [State.strandOf_setStrandOf_same]
    · rw [State.strandOf_setStrandOf_other _ _ he]
  unfold retireHead
  extract_lets y y1 s1 s2
  split
  · rw [strandOf_setQueue]
    exact hset e.slot rfl
  · next h0 =>
    have h0 : e.slot = 0 := not_not.1 h0
    rw [strandOf_setQueue, strandOf_updCtx rfl]
    refine hset 0 ?_
    rw [h]
    exact (unretired_retireFlags ..).trans (by simp only [y, h0]; rfl)

theorem av_retireHead {t : Nat} {e : Entry} (rest : List Entry) (s : State) :
    if e.slot = 0 then ((retireHead t e rest s).tile t).ctx.av.vstart = 0 else ((retireHead t e rest s).tile t).ctx.av = (s.tile t).ctx.av := by
  unfold retireHead
  extract_lets y y1 s1 s2
  by_cases h : e.slot = 0
  · rw [if_pos h, if_neg (not_not.2 h), tile_setQueue_same]
    simp only [s2, tile_updCtx_same]
  · rw [if_neg h, if_pos h, tile_setQueue_same, tile_setStrandOf_same]
    rfl

/-! ### Issue -/

/-- The entry that the current instruction takes. -/
def issuedEntry (op : EngOp) (v : View) (s : State) : Entry := { op := op, slot := s.cs, pc := s.cur.pc, regs := s.cur.regs, view := v }

theorem kept_enqueue (op : EngOp) (v : View) (s : State) : Kept s (enqueue op v s) :=
  ((kept_setCur ..).trans (kept_setQueue ..)).trans (kept_setCur ..)

theorem cursor_enqueue (op : EngOp) (v : View) (s : State) : (enqueue op v s).ct = s.ct ∧ (enqueue op v s).cs = s.cs := ⟨rfl, rfl⟩

theorem queue_enqueue (op : EngOp) (v : View) (s : State) :
    ((enqueue op v s).tile s.ct).queue = s.curTile.queue ++ [issuedEntry op v s] := by
  unfold enqueue
  extract_lets y e
  show (((setQueue s.ct _ _).advance).tile s.ct).queue = _
  rw [State.advance, State.goto, State.setCur_tile_queue, tile_setQueue_same]
  rfl

theorem copies_enqueue (op : EngOp) (v : View) (s : State) : ((enqueue op v s).tile s.ct).ctx.copies = s.curTile.ctx.copies := by
  show ((State.setTile _ s.ct _).tile s.ct).ctx.copies = _
  rw [State.tile_setTile_same, Tile.setStrand_ctx_copies]
  show ((State.setTile _ s.ct _).tile s.ct).ctx.copies = _
  rw [State.tile_setTile_same]
  show ((State.setTile _ s.ct _).tile s.ct).ctx.copies = _
  rw [State.tile_setTile_same, Tile.setStrand_ctx_copies]
  rfl

/-- An instruction that writes no register at issue leaves its strand at the next word. -/
theorem cur_enqueue {op : EngOp} {v : View} {s : State} (h : issueDest s.cur.reg v op s.cur = s.cur) :
    (enqueue op v s).cur = { s.cur with pc := s.cur.pc + 4, state := .runnable } := by
  have hq : ∀ q z, (setQueue s.ct q (s.setCur z)).cur = z := fun q z => by
    show (setQueue s.ct q (s.setCur z)).strandOf s.ct s.cs = z
    rw [strandOf_setQueue]; exact State.cur_setCur ..
  unfold enqueue
  extract_lets y e
  rw [State.cur_advance, hq, h]

/-! ### `fence.q` (R80) -/

theorem maskHeld_fenceQ (c : Ctx) (m : BitVec 5) : maskHeld c (.fenceQ m) = false := by simp [maskHeld, opMasks]

theorem entryPerf_fenceQ {e : Entry} {m : BitVec 5} (h : e.op = .fenceQ m) (t : Nat) (s : State) :
    entryPerf t [] e s = if m.getLsbD 2 && copiesActive (s.tile t).ctx then
        { st := s.setTile t (entryTile [] e (s.tile t)), fin := .stall 0 .copyWait }
      else perfDone (s.setTile t (entryTile [] e (s.tile t))) := by
  have hc : copiesActive ((s.setTile t (entryTile [] e (s.tile t))).tile t).ctx = copiesActive (s.tile t).ctx := by
    rw [State.tile_setTile_same]; rfl
  rw [entryPerf, performEntry]
  simp only [h, maskHeld_fenceQ, hc, Bool.false_eq_true, if_false]

/-- With an empty queue and no engine left behind, `fence.q` goes through the queue at once. -/
theorem exec_fenceQ {s : State} {m : BitVec 5} (h0 : m ≠ 0) (h1 : m ≠ 0x10) (hlag : s.lag = false) (hq : s.curTile.queue = []) :
    exec (.fenceQ m) s = .next (finishHead s.ct (enqueue (.fenceQ m) (issueView s.curTile) s)) := by
  have ht : takeEntry (.fenceQ m) s = finishHead s.ct (enqueue (.fenceQ m) (issueView s.curTile) s) := by
    simp [takeEntry, hq, hlag]
  have hi : s.isLead = true → issueEntry (.fenceQ m) s = takeEntry (.fenceQ m) s := fun hl => by
    have hg : ∀ v, engineLegal s.cur.reg v (.fenceQ m) = true := fun v => bne_iff_ne.2 h0
    simp [issueEntry, hl, hq, hg, EngOp.sources, EngOp.dests]
  show execFenceQ m s = _
  rw [execFenceQ, if_neg h0, if_neg h1, ← ht]
  split
  · next hl => rw [issueEngine, hi hl]
  · rfl

/-- A strand whose `fence.q` stands behind nothing goes on. -/
theorem fenceQ_passes {s : State} {m : BitVec 5} (h0 : m ≠ 0) (hlag : s.lag = false) (hq : s.curTile.queue = [])
    (hc : copiesActive s.curTile.ctx = false) :
    ∃ t, exec (.fenceQ m) s = .next t ∧ GoesOn t (s.cur.pc + 4) ∧ SameBytes s t ∧ (∀ r, t.reg r = s.reg r) ∧ t.curTile.queue = [] := by
  by_cases h1 : m = 0x10
  · subst h1
    refine ⟨s.advance, rfl, Scalar.goesOn_goto .., sameBytes_of_kept (kept_setCur ..), fun r => State.reg_goto .., ?_⟩
    exact (State.setCur_tile_queue ..).trans hq
  · rw [exec_fenceQ h0 h1 hlag hq]
    have hcur := cur_enqueue (op := .fenceQ m) (v := issueView s.curTile) (s := s) rfl
    have hqueue := queue_enqueue (.fenceQ m) (issueView s.curTile) s
    have hcopies := copies_enqueue (.fenceQ m) (issueView s.curTile) s
    have hkept := kept_enqueue (.fenceQ m) (issueView s.curTile) s
    have hct : (enqueue (.fenceQ m) (issueView s.curTile) s).ct = s.ct := rfl
    have hcs : (enqueue (.fenceQ m) (issueView s.curTile) s).cs = s.cs := rfl
    rw [hq, List.nil_append] at hqueue
    generalize enqueue (.fenceQ m) (issueView s.curTile) s = s1 at hcur hqueue hcopies hkept hct hcs ⊢
    have hp : entryPerf s.ct [] (issuedEntry (.fenceQ m) (issueView s.curTile) s) s1 =
        perfDone (s1.setTile s.ct (entryTile [] (issuedEntry (.fenceQ m) (issueView s.curTile) s) (s1.tile s.ct))) := by
      rw [entryPerf_fenceQ rfl, if_neg]
      have : copiesActive (s1.tile s.ct).ctx = false := by rw [copiesActive, hcopies]; exact hc
      simp [this]
    rw [finishHead_done hqueue rfl (d := {}) (by rw [hp]; rfl), hp]
    generalize hv : entryTile [] (issuedEntry (.fenceQ m) (issueView s.curTile) s) (s1.tile s.ct) = x
    have hx : x.ctx.strands = (s1.tile s.ct).ctx.strands := by rw [← hv]; rfl
    generalize hf : Entry.finished _ _ _ _ _ _ = e'
    have hd : e'.dests = [] := by rw [← hf]; rfl
    generalize hs2 : setQueue s.ct [e'] (keepView s.ct (s1.tile s.ct).ctx (perfDone (s1.setTile s.ct x)).st) = s2
    have hstr : ∀ k, unretired ((retireHead s.ct e' [] s2).strandOf s.ct k) = unretired (s1.strandOf s.ct k) := fun k => by
      rw [strandOf_retireHead [] s2 hd, ← hs2, strandOf_setQueue, strandOf_keepView]
      exact congrArg unretired (strandOf_setTile hx ..)
    have hcursor : (retireHead s.ct e' [] s2).ct = s.ct ∧ (retireHead s.ct e' [] s2).cs = s.cs :=
      ⟨(cursor_retireHead ..).1.trans (hs2 ▸ hct), (cursor_retireHead ..).2.trans (hs2 ▸ hcs)⟩
    have hs : unretired (retireHead s.ct e' [] s2).cur = unretired { s.cur with pc := s.cur.pc + 4, state := .runnable } := by
      rw [← hcur, State.cur, State.cur, hcursor.1, hcursor.2, hct, hcs]; exact hstr s.cs
    refine ⟨_, rfl, ⟨?_, ?_⟩, ?_, ?_, ?_⟩
    · exact field_of_unretired (f := Strand.pc) (fun _ => rfl) hs
    · exact field_of_unretired (f := Strand.state) (fun _ => rfl) hs
    · refine sameBytes_of_kept (hkept.trans ?_)
      refine Kept.trans ?_ (kept_retireHead ..)
      rw [← hs2]
      exact ((kept_setTile (by rw [← hv]; rfl)).trans (kept_keepView ..)).trans (kept_setQueue ..)
    · exact fun r => reg_of_unretired hs r
    · rw [State.curTile, hcursor.1]
      exact queue_retireHead [] s2 hd

theorem queue_keepResume (t : Nat) (e : Entry) (n : Nat) (s : State) (u : Nat) : ((keepResume t e n s).tile u).queue = (s.tile u).queue := by
  unfold keepResume
  split
  · rw [setVstart, updCtx, State.tile_setTile]
    split
    exacts [by subst u; rfl, rfl]
  · rfl

/-- A strand whose `fence.q` names the copies stands in the queue while one is in progress. -/
theorem fenceQ_stands {s : State} {m : BitVec 5} (hm : m.getLsbD 2 = true) (hlag : s.lag = false) (hq : s.curTile.queue = [])
    (hc : copiesActive s.curTile.ctx = true) :
    ∃ t e, exec (.fenceQ m) s = .next t ∧ t.curTile.queue = [e] ∧ e.op = .fenceQ m ∧ e.state = .stalled .copyWait := by
  have h0 : m ≠ 0 := by rintro rfl; exact absurd hm (by decide)
  have h1 : m ≠ 0x10 := by rintro rfl; exact absurd hm (by decide)
  rw [exec_fenceQ h0 h1 hlag hq]
  have hqueue := queue_enqueue (.fenceQ m) (issueView s.curTile) s
  have hcopies := copies_enqueue (.fenceQ m) (issueView s.curTile) s
  have hct : (enqueue (.fenceQ m) (issueView s.curTile) s).ct = s.ct := rfl
  rw [hq, List.nil_append] at hqueue
  generalize enqueue (.fenceQ m) (issueView s.curTile) s = s1 at hqueue hcopies hct ⊢
  generalize he : issuedEntry (.fenceQ m) (issueView s.curTile) s = e at hqueue
  have hop : e.op = .fenceQ m := he ▸ rfl
  have hactive : copiesActive (s1.tile s.ct).ctx = true := by rw [copiesActive, hcopies]; exact hc
  have hp : entryPerf s.ct [] e s1 = { st := s1.setTile s.ct (entryTile [] e (s1.tile s.ct)), fin := .stall 0 .copyWait } := by
    rw [entryPerf_fenceQ hop, if_pos (by rw [hm, hactive]; rfl)]
  have hperf := (performHead_eq hqueue (he ▸ rfl) none).trans (afterPerform_stall (congrArg Perf.fin hp) none)
  have hport : ∀ z, standAtPort s.ct e.op z = z := fun z => by rw [hop]; rfl
  rw [hport] at hperf
  generalize hs2 : keepResume s.ct e 0 _ = s2 at hperf
  generalize hst : stalledEntry s.ct e _ _ = e' at hs2
  have hq2 : (s2.tile s.ct).queue = [e'] := by rw [← hs2, queue_keepResume, tile_setQueue_same]
  have hct2 : s2.ct = s.ct := by rw [← hs2, keepResume]; split <;> exact (congrArg State.ct (congrArg Perf.st hp)).trans hct
  have hstate : e'.state = .stalled .copyWait := hst ▸ rfl
  refine ⟨_, e', rfl, ?_, hst ▸ hop, hstate⟩
  rw [finishHead, hperf, retirePerformed_stalled hq2 hstate, State.curTile, hct2]
  exact hq2

/-! ### The fences (R79 to R81) -/

/-- `fence.i` leaves the strand at the next word, and no stale line in the L1I. -/
theorem fenceI_fresh (s : State) : ∃ t, exec .fenceI s = .next t ∧ GoesOn t (s.cur.pc + 4) ∧ SameBytes s t ∧ (∀ r, t.reg r = s.reg r) ∧
    specialOf t.cur = specialOf s.cur ∧ ∀ set line c, cacheFind t.curTile.l1i set line = some c → c.data = lineBytes s line := by
  let x : Tile := { s.curTile with l1i := freshL1i s s.curTile }
  have hcur : (s.setCurTile x).cur = s.cur := Scalar.cur_setCurTile rfl
  refine ⟨_, rfl, ?_, ?_, ?_, ?_, ?_⟩
  · rw [← hcur]; exact Scalar.goesOn_goto ..
  · exact sameBytes_of_kept ((kept_setTile (t := s.ct) (x := x) rfl).trans (kept_setCur (s.setCurTile x) _))
  · exact fun r => (State.reg_goto ..).trans (congrArg (·.reg r) hcur)
  · rw [State.cur_advance, ← hcur]; rfl
  · intro set line c h
    rw [Scalar.curTile_advance_l1i, Scalar.curTile_setCurTile] at h
    exact Scalar.freshL1i_data h

/-- Settles O19: the fences of memory, of the L1I and of the engines. -/
theorem fences : Obligations.Fences := fun s =>
  ⟨fun _ => ⟨_, rfl, Scalar.goesOn_goto .., Scalar.registersOnly_goto ..⟩, fenceI_fresh s, fun _ => fenceQ_passes, fun _ => fenceQ_stands⟩

end Sys2Proof.Laws.Engine
end

section
/-! PROOF. How the steps of an access run: what waits behind a `fence.q` (R80), the translation (R304); and O20, `mwait` (R83). -/

namespace Sys2Proof.Laws.Access

open Sys2Proof.Machine Sys2Proof.Spec

/-! ### Runs of `M` -/

theorem bind_ok {α β : Type} {m : M α} {f : α → M β} {s s' : State} {a : α} (h : m s = .ok a s') : (m >>= f) s = f a s' := by
  simp only [bind, EStateM.bind, h]

theorem bind_error {α β : Type} {m : M α} {f : α → M β} {s s' : State} {e : Exit} (h : m s = .error e s') : (m >>= f) s = .error e s' := by
  simp only [bind, EStateM.bind, h]

theorem runScalar_congr {m m' : M Unit} {s : State} (h : m s = m' s) : runScalar m s = runScalar m' s := by
  simp only [runScalar, scalarEnd, h]

/-! ### Waiting for a `fence.q` (R80) -/

theorem awaitJoin_passes {s : State} (h : NoJoin s) : awaitJoin s = .ok () s := by
  have hf : (s.curTile.entriesOf s.cs).any (fun e => match e.op with | .fenceQ m => m.getLsbD 4 | _ => false) = false := by
    refine List.any_eq_false.2 fun e he => ?_
    obtain ⟨hq, hk⟩ := List.mem_filter.1 he
    split
    · next m hop => simpa using h e hq (by simpa using hk) m hop
    · simp
  rw [awaitJoin, Csr.get_bind]
  exact congrFun (if_neg (Bool.eq_false_iff.1 hf)) s

/-- A strand without an engine entry waits for no `fence.q`. -/
theorem noJoin_of_idle {s : State} (h : s.enginesBusy = false) : NoJoin s := fun e he hk => by
  have : decide (e.slot = s.cs) = false := by simpa using List.any_eq_false.1 h e he
  exact absurd hk (by simpa using this)

/-! ### Translation (R304 to R307) -/

theorem tile_agent (s : State) : s.agent.tile = some s.ct := rfl

theorem translate_tile {s : State} {ag : Agent} {t p va : Nat} {acc : Access} {l : Leaf} (ha : ag.tile = some t) (h : probe s p va acc = .ok l) :
    Machine.translate ag p va acc s = .ok (leafAddress s p l va, l.ns) (keepXlat t p va l none (markLeaf s ag l acc)) := by
  rw [Machine.translate, Csr.get_bind, h, ha]
  rfl

theorem translate_fault {s : State} {ag : Agent} {p va : Nat} {acc : Access} {f : WalkFault} (h : probe s p va acc = .error f) :
    Machine.translate ag p va acc s = .error (.trap { cause := f.cause, sub := f.sub, tva := BitVec.ofNat 56 va }) s := by
  rw [Machine.translate, Csr.get_bind, h]
  rfl

/-! ### `mwait` (R83) -/

section
variable {s : State} {d a b : BitVec 5} {va : Nat} {l : Leaf}

/-- What `mwait` does once the address names the line of `pa`. -/
def mwaitAnswer (d b : BitVec 5) (pa : Nat) : M Unit := do
  let s ← get
  if s.cur.watch ≠ some (BitVec.ofNat 49 (pa / 128)) then set (s.retire d 3)
  else match mwaitStatus s s.ct s.cs (mwaitLimit s b) with
    | some v => set (s.retire d v)
    | none => throw (.wait (.mwait d (mwaitLimit s b)))

theorem exec_mwait (hj : NoJoin s) (hc : classify (s.reg a) = some (.virt va)) (hl : probe s s.curPart va .read = .ok l)
    (hm : markLeaf s s.agent l .read = s) (hk : keepXlat s.ct s.curPart va l none s = s) :
    exec (.mwait d a b) s = runScalar (mwaitAnswer d b (leafAddress s s.curPart l va)) s := by
  have ht : Machine.translate s.agent s.curPart va .read s = .ok (leafAddress s s.curPart l va, l.ns) s := by
    rw [translate_tile (tile_agent s) hl, hm, hk]
  have hrun : mwait d a b s = mwaitAnswer d b (leafAddress s s.curPart l va) s := by
    rw [mwait, bind_ok (awaitJoin_passes hj), Csr.get_bind, hc]
    exact bind_ok ht
  exact runScalar_congr hrun

theorem mwaitAnswer_unwatched {pa : Nat} (h : s.cur.watch ≠ some (BitVec.ofNat 49 (pa / 128))) : mwaitAnswer d b pa s = .ok () (s.retire d 3) := by
  rw [mwaitAnswer, Csr.get_bind, if_pos h]; rfl

theorem mwaitAnswer_status {pa : Nat} {v : Word} (h : s.cur.watch = some (BitVec.ofNat 49 (pa / 128)))
    (hv : mwaitStatus s s.ct s.cs (mwaitLimit s b) = some v) : mwaitAnswer d b pa s = .ok () (s.retire d v) := by
  rw [mwaitAnswer, Csr.get_bind, if_neg (not_not.2 h), hv]; rfl

theorem mwaitAnswer_sleeps {pa : Nat} (h : s.cur.watch = some (BitVec.ofNat 49 (pa / 128)))
    (hv : mwaitStatus s s.ct s.cs (mwaitLimit s b) = none) : mwaitAnswer d b pa s = .error (.wait (.mwait d (mwaitLimit s b))) s := by
  rw [mwaitAnswer, Csr.get_bind, if_neg (not_not.2 h), hv]; rfl

/-- The order of R83. -/
theorem mwaitStatus_eq (s : State) (n : Option Nat) : mwaitStatus s s.ct s.cs n =
    if s.cur.written then some 0 else if limitReached s n then some 1 else if s.eventPending s.ct s.cs then some 2 else none := rfl

end

/-- Settles O20: the four answers of `mwait`, and its wait. -/
theorem mwaitStatus : Obligations.MwaitStatus := by
  intro s d a b va l hj hc hl hm hk
  rw [exec_mwait hj hc hl hm hk]
  have gives : ∀ {v}, mwaitAnswer d b (leafAddress s s.curPart l va) s = .ok () (s.retire d v) →
      ∃ t, runScalar (mwaitAnswer d b (leafAddress s s.curPart l va)) s = .next t ∧ t.reg d = held d v ∧ GoesOn t (s.cur.pc + 4) ∧
        RegistersOnly s t [d] :=
    fun h => ⟨_, runScalar_ok h, State.reg_retire_same .., goesOn_retire .., registersOnly_retire ..⟩
  refine ⟨fun hw => gives (mwaitAnswer_unwatched hw), fun hw h0 => gives (mwaitAnswer_status hw ?_), fun hw h0 h1 => gives (mwaitAnswer_status hw ?_),
    fun hw h0 h1 h2 => gives (mwaitAnswer_status hw ?_), fun hw h0 h1 h2 => runScalar_wait (mwaitAnswer_sleeps hw ?_)⟩
  all_goals simp only [mwaitStatus_eq, *, Bool.false_eq_true, if_true, if_false]

end Sys2Proof.Laws.Access
end

section
/-! PROOF. What an access leaves of the reservations: an operation may release an entry, grant it or cut it, and adds none (R296, R298). -/

namespace Sys2Proof.Laws.Access

open Sys2Proof.Machine Sys2Proof.Spec

/-! ### Operations that leave the entries as they are -/

theorem resv_foldl {α : Type} {f : State → α → State} (h : ∀ s a, (f s a).resv = s.resv) (l : List α) (s : State) :
    (l.foldl f s).resv = s.resv := by
  induction l generalizing s with
  | nil => rfl
  | cons a r ih => exact (ih _).trans (h s a)

theorem resv_ite {c : Prop} [Decidable c] {s a b : State} (ha : a.resv = s.resv) (hb : b.resv = s.resv) :
    (if c then a else b).resv = s.resv := by
  split
  exacts [ha, hb]

@[simp] theorem resv_wakeWatches (s : State) (ag : Agent) (l : Nat) : (wakeWatches s ag l).resv = s.resv := resv_ite rfl rfl

@[simp] theorem resv_mscHold (r : Nat) (s : State) : (mscHold r s).resv = s.resv := by
  unfold mscHold
  extract_lets held s1
  refine resv_ite rfl (show s1.resv = s.resv from resv_ite rfl ?_)
  split <;> rfl

@[simp] theorem resv_noteRegion (p : Bool) (l : Nat) (s : State) : (noteRegion p l s).resv = s.resv := resv_ite rfl (resv_mscHold ..)

@[simp] theorem resv_refreshRegion (p : Bool) (l : Nat) (s : State) : (refreshRegion p l s).resv = s.resv := resv_ite (resv_noteRegion ..) rfl

@[simp] theorem resv_writeBack (l : Nat) (s : State) : (writeBack l s).resv = s.resv := by unfold writeBack; split <;> rfl

@[simp] theorem resv_wakeDirty (t l : Nat) (s : State) : (wakeDirty t l s).resv = s.resv := resv_ite rfl rfl

@[simp] theorem resv_loseLine (t l : Nat) (s : State) : (loseLine t l s).resv = s.resv := by
  unfold loseLine
  split
  · rfl
  · extract_lets h s1 s2 s3
    have h3 : s3.resv = s.resv := resv_wakeDirty ..
    exact resv_ite ((resv_writeBack ..).trans h3) h3

@[simp] theorem resv_recallLine (l : Nat) (s : State) : (recallLine l s).resv = s.resv :=
  resv_ite (resv_ite (resv_refreshRegion ..) rfl) ((resv_noteRegion ..).trans (resv_foldl (fun _ _ => resv_loseLine ..) _ s))

@[simp] theorem resv_recallReserved (l : Nat) (s : State) : (recallReserved l s).resv = s.resv := resv_foldl (fun s t => resv_writeBack l (s.setTile t _)) _ s

@[simp] theorem resv_evictLine (t l : Nat) (s : State) : (evictLine t l s).resv = s.resv :=
  resv_ite ((resv_noteRegion ..).trans (resv_loseLine ..)) (resv_loseLine ..)

@[simp] theorem resv_fillTile (t l : Nat) (s : State) : (fillTile t l s).resv = s.resv := by
  unfold fillTile
  extract_lets x
  refine resv_ite rfl ?_
  split
  · rfl
  · split
    exacts [resv_evictLine .., rfl]

@[simp] theorem resv_recordOwner (t l : Nat) (o : SMap LineState) (x : LineState) (s : State) : (recordOwner t l o x s).resv = s.resv := by
  refine resv_ite ?_ ?_
  · exact (resv_noteRegion ..).trans (resv_fillTile ..)
  · exact (resv_refreshRegion ..).trans (resv_writeBack ..)

@[simp] theorem resv_fillL1d (t l : Nat) (s : State) : (fillL1d t l s).resv = s.resv := resv_ite rfl rfl

@[simp] theorem resv_probeOthers (t l : Nat) (w : Bool) (s : State) : (probeOthers t l w s).resv = s.resv :=
  resv_foldl (fun _ _ => resv_ite (resv_loseLine ..) (resv_wakeDirty ..)) _ s

@[simp] theorem resv_touchCached (s : State) (ag : Agent) (t l : Nat) (w sh : Bool) : (touchCached s ag t l w sh).resv = s.resv := by
  unfold touchCached
  extract_lets h h' s0 s1 s2
  have h1 : s1.resv = s.resv := resv_ite rfl ((resv_noteRegion ..).trans (resv_probeOthers ..))
  have h2 : s2.resv = s.resv := (resv_fillTile ..).trans h1
  exact resv_ite h2 (resv_ite (resv_ite h2 ((resv_fillL1d ..).trans h2)) (resv_ite h2 h2))

@[simp] theorem resv_touchHome (s : State) (l : Nat) (w : Bool) : (touchHome s l w).resv = s.resv :=
  resv_ite (resv_recallLine ..) (resv_ite (resv_ite (resv_refreshRegion ..) rfl)
    ((resv_noteRegion ..).trans (resv_foldl (fun _ _ => resv_wakeDirty ..) _ s)))

@[simp] theorem resv_touchLine (s : State) (p : Path) (ag : Agent) (l : Nat) (w sh : Bool) : (touchLine s p ag l w sh).resv = s.resv := by
  unfold touchLine; split
  exacts [resv_touchCached .., resv_touchHome ..]

@[simp] theorem resv_recallFree (old : List ResEntry) (e : ResEntry) (s : State) : (recallFree old e s).resv = s.resv :=
  resv_foldl (fun _ _ => resv_recallLine ..) _ s

@[simp] theorem resv_leaveLine (e : ResEntry) (s : State) (l : Nat) : (leaveLine e s l).resv = s.resv :=
  resv_ite (resv_recordOwner ..) (resv_recordOwner ..)

@[simp] theorem resv_noteUnder (ag : Agent) (us : List Nat) (s : State) : (noteUnder ag us s).resv = s.resv := by
  unfold noteUnder
  split
  · rfl
  · split <;> exact resv_ite rfl rfl

@[simp] theorem resv_touchReserved (s : State) (ag : Agent) (e : ResEntry) (l o n : Nat) (w : Bool) :
    (touchReserved s ag e l o n w).resv = s.resv := by
  unfold touchReserved
  extract_lets s1 x m s2
  have h2 : s2.resv = s.resv := resv_fillTile ..
  exact resv_ite ((resv_noteUnder ..).trans h2) h2

@[simp] theorem resv_wakeArray (s : State) (p : Path) (t : Option Nat) : (wakeArray s p t).resv = s.resv := by
  unfold wakeArray; split
  exacts [resv_ite rfl rfl, rfl]

@[simp] theorem resv_notePools (old : List Host.Cell) (pa n : Nat) (s : State) : (notePools old pa n s).resv = s.resv := resv_ite rfl rfl

@[simp] theorem resv_logMemory (s : State) (t g : Nat) : (logMemory s t g).resv = s.resv := by
  unfold logMemory
  extract_lets x
  split
  · rfl
  · exact resv_ite rfl (resv_ite rfl rfl)

/-! ### Operations that narrow them -/

/-- Every entry comes from one of the same owner and intent that covered no line less. -/
structure Narrowed (l m : List ResEntry) : Prop where
  source : ∀ e ∈ m, ∃ e0 ∈ l, e.owner = e0.owner ∧ e.write = e0.write ∧ ∀ line, e.covers line = true → e0.covers line = true

theorem Narrowed.refl (l : List ResEntry) : Narrowed l l :=
  ⟨fun e h => ⟨e, h, rfl, rfl, fun _ => id⟩⟩

theorem Narrowed.trans {l m n : List ResEntry} (a : Narrowed l m) (b : Narrowed m n) : Narrowed l n := ⟨fun e h => by
  obtain ⟨e1, h1, o1, w1, c1⟩ := b.source e h
  obtain ⟨e0, h0, o0, w0, c0⟩ := a.source e1 h1
  exact ⟨e0, h0, o1.trans o0, w1.trans w0, fun l hl => c0 l (c1 l hl)⟩⟩

theorem narrowed_of {l m : List ResEntry} (h : m = l) : Narrowed l m := h ▸ .refl l

theorem narrowed_sub {l m : List ResEntry} (h : ∀ e ∈ m, e ∈ l) : Narrowed l m :=
  ⟨fun e he => ⟨e, h e he, rfl, rfl, fun _ => id⟩⟩

/-- Changing each entry to one of the same owner and intent that covers no line more. -/
theorem narrowed_map {l : List ResEntry} {f : ResEntry → ResEntry}
    (h : ∀ e, (f e).owner = e.owner ∧ (f e).write = e.write ∧ ∀ line, (f e).covers line = true → e.covers line = true) : Narrowed l (l.map f) :=
  ⟨fun e he => by
    obtain ⟨e0, h0, rfl⟩ := List.mem_map.1 he
    exact ⟨e0, h0, h e0⟩⟩

theorem narrowed_foldl {α : Type} {f : State → α → State} (h : ∀ s a, Narrowed s.resv (f s a).resv) (l : List α) (s : State) :
    Narrowed s.resv (l.foldl f s).resv := by
  induction l generalizing s with
  | nil => exact .refl _
  | cons a r ih => exact (h s a).trans (ih _)

theorem narrowed_ite {c : Prop} [Decidable c] {l : List ResEntry} {a b : State} (ha : Narrowed l a.resv) (hb : Narrowed l b.resv) :
    Narrowed l (if c then a else b).resv := by
  split
  exacts [ha, hb]

/-- Cuts only rise, downward they only fall (R298). -/
theorem covers_applyCut {e : ResEntry} {c line : Nat} (h : (e.applyCut c).covers line = true) : e.covers line = true := by
  have hl : e.lineLeft line = true → (e.applyCut c).lineLeft line = true := by
    simp only [ResEntry.lineLeft, ResEntry.applyCut]
    split <;> simp only [decide_eq_true_eq] <;> omega
  simp only [ResEntry.covers, Bool.and_eq_true, Bool.not_eq_true'] at h ⊢
  obtain ⟨⟨ho, hs⟩, hn⟩ := h
  refine ⟨⟨ho, hs⟩, ?_⟩
  by_contra hc
  exact absurd (hl (by simpa using hc)) (by simp [hn])

theorem narrowed_settleGrants (l : List ResEntry) : ∀ (old : List ResEntry) (s : State), Narrowed s.resv (settleGrants s old l).resv := by
  induction l with
  | nil => exact fun _ s => .refl _
  | cons e r ih =>
    intro old s
    simp only [settleGrants]
    split
    · refine .trans ?_ (ih ..)
      refine narrowed_ite (narrowed_of (resv_recallFree ..)) ?_
      refine .trans (narrowed_of (resv_recallFree old e s)) (narrowed_map fun x => ?_)
      split <;> exact ⟨rfl, rfl, fun _ => id⟩
    · exact ih ..

theorem narrowed_cutEntries (s : State) (e : ResEntry) (edge : Nat) (st : ResState) (a : Option Nat) :
    Narrowed s.resv (cutEntries s e edge st a).resv := by
  unfold cutEntries
  extract_lets cut rs src s1
  have hcut : ∀ x, (cut x).owner = x.owner ∧ (cut x).write = x.write ∧ ∀ line, (cut x).covers line = true → x.covers line = true :=
    fun x => ⟨rfl, rfl, fun _ => covers_applyCut (e := x) (c := splitCut x edge)⟩
  have hrs : Narrowed s.resv rs := by
    refine .trans (narrowed_map (f := fun x => if x = e then { cut x with state := st, answer := a } else if e.sibling x then cut x else x)
      fun x => ?_) (narrowed_sub fun _ => List.mem_of_mem_filter)
    split
    · exact hcut x
    · split
      exacts [hcut x, ⟨rfl, rfl, fun _ => id⟩]
  have h1 : s1.resv = rs := resv_foldl (fun s x => resv_foldl (fun s l => resv_leaveLine x s l) _ s) _ _
  exact (h1 ▸ hrs : Narrowed s.resv s1.resv).trans (narrowed_settleGrants ..)

theorem narrowed_flushReservation (r : Nat) (s : State) : Narrowed s.resv (flushReservation r s).resv :=
  .trans (narrowed_of (resv_foldl (fun s _ => resv_foldl (fun _ _ => resv_writeBack ..) _ s) _ s))
    (narrowed_foldl (fun s e => narrowed_cutEntries s e _ _ _) _ _)

theorem narrowed_flushAll (rs : List Nat) (s : State) : Narrowed s.resv (flushAll rs s).resv :=
  narrowed_foldl (fun s r => narrowed_flushReservation r s) _ s

theorem narrowed_flushHolders (l : Nat) (s : State) : Narrowed s.resv (flushHolders l s).resv :=
  narrowed_foldl (fun s (_ : Nat × LineState) => narrowed_flushAll _ s) _ s

theorem narrowed_releaseLine (e : ResEntry) (s : State) (l : Nat) : Narrowed s.resv (releaseLine e s l).resv := by
  unfold releaseLine
  extract_lets others s1
  have h1 : Narrowed s.resv s1.resv := narrowed_ite (.refl _) (narrowed_flushAll ..)
  exact h1.trans (narrowed_of ((resv_recordOwner ..).trans (resv_writeBack ..)))

theorem narrowed_releaseEntries (p : ResEntry → Bool) (s : State) : Narrowed s.resv (releaseEntries p s).resv := by
  unfold releaseEntries; split
  · extract_lets s1
    refine .trans ?_ (narrowed_settleGrants ..)
    refine .trans (narrowed_sub (m := s.resv.filter fun e => !p e) fun _ => List.mem_of_mem_filter) ?_
    exact narrowed_foldl (fun s e => narrowed_foldl (fun s l => narrowed_releaseLine e s l) _ s) _ { s with resv := s.resv.filter fun e => !p e }
  · exact .refl _

theorem narrowed_endXlats (ls : List Nat) (s : State) : Narrowed s.resv (endXlats ls s).resv := by
  unfold endXlats
  extract_lets hit s1
  have h1 : s1.resv = s.resv := resv_ite (resv_foldl (fun _ _ => resv_refreshRegion ..) _ _) rfl
  exact (narrowed_of h1).trans (narrowed_releaseEntries ..)

theorem narrowed_freeRegion (r : Nat) (s : State) : Narrowed s.resv (freeRegion r s).resv := by
  unfold freeRegion
  extract_lets ls s1
  have h1 : Narrowed s.resv s1.resv := by
    refine .trans ?_ (narrowed_endXlats ..)
    exact narrowed_foldl (fun s l => (narrowed_flushHolders l s).trans (narrowed_of ((resv_recallReserved ..).trans (resv_recallLine ..)))) _ s
  clear_value s1
  exact h1

theorem narrowed_roomFor (l : Nat) (s : State) : Narrowed s.resv (roomFor l s).resv := by
  unfold roomFor; split
  · exact .refl _
  · split
    exacts [narrowed_freeRegion .., .refl _]

theorem narrowed_flushVictim (t l : Nat) (s : State) : Narrowed s.resv (flushVictim t l s).resv := by
  unfold flushVictim
  extract_lets x
  refine narrowed_ite (.refl _) ?_
  split
  · exact narrowed_ite (narrowed_flushAll ..) (.refl _)
  · exact .refl _

theorem narrowed_cacheAccess (ag : Agent) (p : Path) (l o n : Nat) (w : Bool) (s : State) : Narrowed s.resv (cacheAccess ag p l o n w s).resv := by
  unfold cacheAccess
  extract_lets s1
  have h1 : Narrowed s.resv s1.resv := by
    simp only [s1]
    split
    exacts [narrowed_flushVictim .., .refl _]
  have ht : ∀ b, Narrowed s1.resv (touchLine (roomFor l s1) p ag l w b).resv := fun b =>
    (narrowed_roomFor l s1).trans (narrowed_of (resv_touchLine ..))
  refine h1.trans ?_
  clear_value s1
  split
  · exact narrowed_ite (narrowed_of (resv_touchReserved ..)) (narrowed_ite (.refl _) (ht true))
  · exact ht false

theorem narrowed_noteWrite (s : State) (ag : Agent) (pa n : Nat) : Narrowed s.resv (noteWrite s ag pa n).resv := by
  unfold noteWrite
  extract_lets s1 ls s2 s3 s4 hot
  have h1 : s1.resv = s.resv := by
    simp only [s1]
    split
    exacts [resv_foldl (fun _ _ => resv_logMemory ..) _ s, rfl]
  have h2 : s2.resv = s.resv := (resv_foldl (fun _ _ => resv_wakeWatches ..) ls s1).trans h1
  have h4 : Narrowed s.resv s4.resv := (narrowed_of h2).trans (narrowed_endXlats ..)
  exact narrowed_ite h4 h4

theorem narrowed_physPut (s : State) (ag : Agent) (pa : Nat) (bs : List (BitVec 8)) : Narrowed s.resv (physPut s ag pa bs).resv := by
  unfold physPut
  refine narrowed_ite (.refl _) ?_
  extract_lets s1
  exact (narrowed_noteWrite s ag pa bs.length).trans (narrowed_of (resv_notePools ..))

theorem narrowed_markLeaf (s : State) (ag : Agent) (l : Leaf) (acc : Access) : Narrowed s.resv (markLeaf s ag l acc).resv :=
  narrowed_ite (.refl _) ((narrowed_of (resv_touchHome ..)).trans (narrowed_physPut ..))

theorem narrowed_keepXlat (t part va : Nat) (l : Leaf) (st : Option Nat) (s : State) : Narrowed s.resv (keepXlat t part va l st s).resv := by
  unfold keepXlat
  extract_lets x base ws s1 x1
  refine narrowed_ite (.refl _) ?_
  have h1 : s1.resv = s.resv := resv_foldl (fun _ _ => resv_touchHome ..) ws s
  clear_value s1 x1
  generalize hs2 : s1.setTile t _ = s2
  have h2 : s2.resv = s.resv := hs2 ▸ h1
  refine (narrowed_of h2).trans (narrowed_foldl (fun s w => ?_) ws s2)
  exact (narrowed_roomFor w s).trans (narrowed_of (resv_noteRegion ..))

theorem narrowed_keepRelease (o : Order) (p : Path) (l : Nat) (s : State) : Narrowed s.resv (keepRelease o p l s).resv := by
  unfold keepRelease
  refine narrowed_ite ?_ (.refl _)
  extract_lets s1
  have h1 : Narrowed s.resv s1.resv := (narrowed_roomFor l s).trans (narrowed_flushVictim ..)
  exact h1.trans (narrowed_of ((resv_noteRegion ..).trans (resv_fillTile ..)))

end Sys2Proof.Laws.Access
end

section
/-! PROOF. What an access leaves of the strands: of each at most the written bit of its watch (R82) and what its reads carry on (R258). -/

namespace Sys2Proof.Laws.Access

open Sys2Proof.Machine Sys2Proof.Spec

/-! ### Operations of any agent that touch no more than written bits -/

theorem undisturbed_fillL1d (t l : Nat) (s : State) : Undisturbed s (fillL1d t l s) :=
  undisturbed_ite (.refl s) (undisturbed_setTile fun _ => rfl)

theorem undisturbed_probeOthers (t l : Nat) (w : Bool) (s : State) : Undisturbed s (probeOthers t l w s) :=
  undisturbed_foldl (fun _ _ => undisturbed_ite (undisturbed_loseLine ..) (undisturbed_wakeDirty ..)) _ s

theorem undisturbed_touchCached (s : State) (ag : Agent) (t l : Nat) (w sh : Bool) : Undisturbed s (touchCached s ag t l w sh) := by
  unfold touchCached
  extract_lets h h' s0 s1 s2
  have h0 : Undisturbed s s0 := undisturbed_probeOthers ..
  have h1 : Undisturbed s s1 := by
    refine undisturbed_ite (.refl s) (.trans ?_ (undisturbed_noteRegion ..))
    exact h0.trans (undisturbed_of rfl rfl rfl)
  have h2 : Undisturbed s s2 := h1.trans (undisturbed_fillTile ..)
  clear_value s2
  refine undisturbed_ite h2 (undisturbed_ite (undisturbed_ite h2 (h2.trans (undisturbed_fillL1d ..))) (undisturbed_ite ?_ h2))
  exact h2.trans (undisturbed_setTile fun _ => rfl)

theorem undisturbed_touchLine (s : State) (p : Path) (ag : Agent) (l : Nat) (w sh : Bool) : Undisturbed s (touchLine s p ag l w sh) := by
  unfold touchLine; split
  exacts [undisturbed_touchCached .., undisturbed_touchHome ..]

theorem undisturbed_flushVictim (t l : Nat) (s : State) : Undisturbed s (flushVictim t l s) := by
  unfold flushVictim
  extract_lets x
  refine undisturbed_ite (.refl s) ?_
  split
  · exact undisturbed_ite (undisturbed_flushAll ..) (.refl s)
  · exact .refl s

theorem undisturbed_wakeArray (s : State) (p : Path) (t : Option Nat) : Undisturbed s (wakeArray s p t) := by
  unfold wakeArray; split
  exacts [undisturbed_ite (undisturbed_of rfl rfl rfl) (.refl s), .refl s]

theorem undisturbed_pushUndo (t : Nat) (k : UndoKind) (w : BitVec 16) (b : Bool) (s : State) : Undisturbed s (pushUndo t k w b s) := by
  unfold pushUndo
  extract_lets x
  refine undisturbed_ite (.trans (t := s.setTile t { x with undo := { kind := k, wave := w, time := s.undoMade, bad := b } :: x.undo }) ?_
    (undisturbed_of rfl rfl rfl)) ?_ <;> exact undisturbed_setTile fun _ => rfl

theorem undisturbed_logMemory (s : State) (t g : Nat) : Undisturbed s (logMemory s t g) := by
  unfold logMemory
  extract_lets x
  split
  · exact .refl s
  · exact undisturbed_ite (.refl s) (undisturbed_pushUndo ..)

theorem undisturbed_noteWriteOf (s : State) (ag : Agent) (pa n : Nat) : Undisturbed s (noteWrite s ag pa n) := by
  unfold noteWrite
  extract_lets s1 ls s2 s3 s4 hot
  have h1 : Undisturbed s s1 := by
    simp only [s1]
    split
    exacts [undisturbed_foldl (fun _ _ => undisturbed_logMemory ..) _ s, .refl s]
  have h2 : Undisturbed s s2 := h1.trans (undisturbed_foldl (fun s l => undisturbed_wakeWatches s ag l) ls s1)
  have h4 : Undisturbed s s4 := (h2.trans (undisturbed_endXlats ls s2)).trans (undisturbed_of rfl rfl rfl)
  clear_value s4
  exact undisturbed_ite h4 (h4.trans (undisturbed_of rfl rfl rfl))

theorem undisturbed_physPutOf (s : State) (ag : Agent) (pa : Nat) (bs : List (BitVec 8)) : Undisturbed s (physPut s ag pa bs) := by
  unfold physPut
  refine undisturbed_ite (.refl s) ?_
  extract_lets s1
  have h1 : Undisturbed s s1 := undisturbed_noteWriteOf ..
  clear_value s1
  refine .trans ?_ (undisturbed_notePools ..)
  exact h1.trans (undisturbed_of rfl rfl rfl)

theorem undisturbed_markLeafOf (s : State) (ag : Agent) (l : Leaf) (acc : Access) : Undisturbed s (markLeaf s ag l acc) :=
  undisturbed_ite (.refl s) ((undisturbed_touchHome ..).trans (undisturbed_physPutOf ..))

theorem undisturbed_keepXlat (t part va : Nat) (l : Leaf) (st : Option Nat) (s : State) : Undisturbed s (keepXlat t part va l st s) := by
  unfold keepXlat
  extract_lets x base ws s1 x1
  refine undisturbed_ite (.refl s) ?_
  have h1 : Undisturbed s s1 := undisturbed_foldl (fun _ _ => undisturbed_touchHome ..) ws s
  clear_value s1 ws
  have h2 : ∀ y, Undisturbed s1 (s1.setTile t { x1 with xlat := y }) := fun _ => undisturbed_setTile fun _ => rfl
  clear_value x1
  refine (h1.trans (h2 _)).trans (undisturbed_foldl (fun s w => ?_) ws _)
  exact (undisturbed_roomFor w s).trans (undisturbed_noteRegion ..)

theorem undisturbed_keepRelease (o : Order) (p : Path) (l : Nat) (s : State) : Undisturbed s (keepRelease o p l s) := by
  unfold keepRelease
  refine undisturbed_ite ?_ (.refl s)
  extract_lets s1
  have h1 : Undisturbed s s1 := (undisturbed_roomFor l s).trans (undisturbed_flushVictim ..)
  clear_value s1
  refine .trans ?_ (undisturbed_noteRegion ..)
  refine .trans ?_ (undisturbed_fillTile ..)
  exact h1.trans (undisturbed_of rfl rfl rfl)

/-! ### What an access leaves -/

/-- A strand without the written bit of its watch and what its reads carry on. -/
def unread (y : Strand) : Strand := { y with written := false, carried := [] }

/-- The cursor is the same, every strand but for what accesses leave in it, and there is no other reservation. -/
structure Served (s t : State) : Prop where
  ct : t.ct = s.ct
  cs : t.cs = s.cs
  strand : ∀ h k, unread (t.strandOf h k) = unread (s.strandOf h k)
  resv : Narrowed s.resv t.resv

theorem Served.refl (s : State) : Served s s := ⟨rfl, rfl, fun _ _ => rfl, .refl _⟩

theorem Served.trans {s t u : State} (a : Served s t) (b : Served t u) : Served s u :=
  ⟨b.ct.trans a.ct, b.cs.trans a.cs, fun h k => (b.strand h k).trans (a.strand h k), a.resv.trans b.resv⟩

theorem served_foldl {α : Type} {f : State → α → State} (h : ∀ s a, Served s (f s a)) (l : List α) (s : State) : Served s (l.foldl f s) := by
  induction l generalizing s with
  | nil => exact .refl s
  | cons a r ih => exact (h s a).trans (ih _)

theorem served_ite {c : Prop} [Decidable c] {s a b : State} (ha : Served s a) (hb : Served s b) : Served s (if c then a else b) := by
  split
  exacts [ha, hb]

theorem served_of {s t : State} (h : Undisturbed s t) (hr : Narrowed s.resv t.resv) : Served s t :=
  ⟨h.ct, h.cs, fun u k => congrArg (fun y : Strand => { y with carried := [] }) (h.strand u k), hr⟩

theorem served_setTile {s : State} {t : Nat} {x : Tile} (h : ∀ k, unread (x.strand k) = unread ((s.tile t).strand k)) : Served s (s.setTile t x) :=
  ⟨rfl, rfl, fun u k => by rw [State.strandOf, State.tile_setTile]; split; exacts [by subst u; exact h k, rfl], .refl _⟩

theorem served_setStrandOf {s : State} {t k : Nat} {y : Strand} (h : unread y = unread (s.strandOf t k)) : Served s (s.setStrandOf t k y) := by
  refine ⟨rfl, rfl, fun u j => ?_, .refl _⟩
  by_cases e : (u, j) = (t, k)
  · cases e; rwa [State.strandOf_setStrandOf_same]
  · rw [State.strandOf_setStrandOf_other _ _ e]

theorem served_noteUnder (ag : Agent) (us : List Nat) (s : State) : Served s (noteUnder ag us s) := by
  unfold noteUnder
  split
  · exact .refl s
  · split
    · exact served_ite (.refl s) (served_setStrandOf rfl)
    · exact served_ite (.refl s) (served_setTile fun _ => rfl)

theorem served_touchReserved (s : State) (ag : Agent) (e : ResEntry) (l o n : Nat) (w : Bool) : Served s (touchReserved s ag e l o n w) := by
  unfold touchReserved
  extract_lets s1 x m s2
  have h1 : Served s s1 := served_of (undisturbed_fillTile ..) (narrowed_of (resv_fillTile ..))
  have h2 : Served s s2 := h1.trans (served_setTile fun _ => rfl)
  exact served_ite (h2.trans (served_noteUnder ..)) h2

theorem served_cacheAccess (ag : Agent) (p : Path) (l o n : Nat) (w : Bool) (s : State) : Served s (cacheAccess ag p l o n w s) := by
  unfold cacheAccess
  extract_lets s1
  have h1 : Served s s1 := by
    simp only [s1]
    split
    exacts [served_of (undisturbed_flushVictim ..) (narrowed_flushVictim ..), .refl s]
  have ht : ∀ b, Served s1 (touchLine (roomFor l s1) p ag l w b) := fun b =>
    (served_of (undisturbed_roomFor l s1) (narrowed_roomFor l s1)).trans (served_of (undisturbed_touchLine ..) (narrowed_of (resv_touchLine ..)))
  refine h1.trans ?_
  clear_value s1
  split
  · exact served_ite (served_touchReserved ..) (served_ite (.refl s1) (ht true))
  · exact ht false

theorem served_physPut (s : State) (ag : Agent) (pa : Nat) (bs : List (BitVec 8)) : Served s (physPut s ag pa bs) :=
  served_of (undisturbed_physPutOf ..) (narrowed_physPut ..)

theorem served_markLeaf (s : State) (ag : Agent) (l : Leaf) (acc : Access) : Served s (markLeaf s ag l acc) :=
  served_of (undisturbed_markLeafOf ..) (narrowed_markLeaf ..)

theorem served_keepXlat (t part va : Nat) (l : Leaf) (st : Option Nat) (s : State) : Served s (keepXlat t part va l st s) :=
  served_of (undisturbed_keepXlat ..) (narrowed_keepXlat ..)

theorem served_keepRelease (o : Order) (p : Path) (l : Nat) (s : State) : Served s (keepRelease o p l s) :=
  served_of (undisturbed_keepRelease ..) (narrowed_keepRelease ..)

theorem served_flushHolders (l : Nat) (s : State) : Served s (flushHolders l s) := served_of (undisturbed_flushHolders ..) (narrowed_flushHolders ..)

theorem served_acquireFirst (o : Order) (ag : Agent) (pa n : Nat) (s : State) : Served s (acquireFirst o ag pa n s) :=
  served_ite (served_of (undisturbed_flushAll ..) (narrowed_flushAll ..)) (.refl s)

theorem served_carryReleases (ag : Agent) (pa n : Nat) (s : State) : Served s (carryReleases ag pa n s) := served_noteUnder ..

theorem served_afterWrite (o : Order) (pa n : Nat) (s : State) : Served s (afterWrite o pa n s) :=
  served_ite (served_of (undisturbed_of rfl rfl rfl) (.refl _)) (.refl s)

theorem served_consume (ag : Agent) (g : Nat) (s : State) : Served s (consume ag g s) := served_of (undisturbed_of rfl rfl rfl) (.refl _)

/-- The cache traffic of a line, with what it wakes and exposes. -/
theorem served_lineTraffic (ag : Agent) (p : Path) (l o n : Nat) (w : Bool) (r : Option Nat) (s : State) :
    Served s (exposeLine (wakeArray (cacheAccess ag p l o n w s) p ag.tile) r l) :=
  ((served_cacheAccess ag p l o n w s).trans (served_of (undisturbed_wakeArray ..) (narrowed_of (resv_wakeArray ..)))).trans
    (served_of (undisturbed_exposeLine ..) (.refl _))

theorem kept_lineTraffic (ag : Agent) (p : Path) (l o n : Nat) (w : Bool) (r : Option Nat) (s : State) :
    Kept s (exposeLine (wakeArray (cacheAccess ag p l o n w s) p ag.tile) r l) :=
  ((kept_cacheAccess ..).trans (kept_wakeArray ..)).trans (kept_exposeLine ..)

end Sys2Proof.Laws.Access
end

section
/-! PROOF. How the accesses run: past the reservations that do not stand in the way (R295), to the bytes of memory or of a scratchpad. -/

namespace Sys2Proof.Laws.Access

open Sys2Proof.Machine Sys2Proof.Spec

theorem modify_bind {β : Type} (g : State → State) (f : PUnit → M β) (s : State) : ((modify g : M PUnit) >>= f) s = f ⟨⟩ (g s) := rfl

theorem modify_run (g : State → State) (s : State) : (modify g : M PUnit) s = .ok ⟨⟩ (g s) := rfl

/-! ### Bytes as numbers -/

theorem leNat_map_shift (f : Nat → BitVec 8) (n : Nat) :
    leNat ((List.range n).map f) = ((List.range n).map fun k => (f k).toNat * 2 ^ (8 * k)).sum := by
  induction n generalizing f with
  | zero => rfl
  | succ n ih =>
    rw [List.range_succ_eq_map, List.map_cons, List.map_map, leNat, ih, List.map_cons, List.map_map, List.sum_cons]
    have hk : ∀ k, (f (k + 1)).toNat * 2 ^ (8 * (k + 1)) = 256 * ((f (k + 1)).toNat * 2 ^ (8 * k)) := fun k => by
      rw [Nat.mul_succ, Nat.pow_add, ← Nat.mul_assoc, Nat.mul_comm _ (2 ^ 8)]
    rw [show (fun k => (f k).toNat * 2 ^ (8 * k)) ∘ Nat.succ = fun k => 256 * ((f (k + 1)).toNat * 2 ^ (8 * k)) from funext hk,
      List.sum_map_mul_left]
    simp only [Function.comp_apply, Nat.succ_eq_add_one, Nat.mul_zero, Nat.pow_zero, Nat.mul_one]

theorem leNat_cellsGet (c : List Host.Cell) (a n : Nat) : leNat (cellsGet c a n) = number (cellGet c) a n := leNat_map_shift ..

theorem number_lt (b : Nat → BitVec 8) (a n : Nat) : number b a n < 2 ^ (8 * n) := by
  have h := leNat_lt ((List.range n).map fun k => b (a + k))
  rwa [leNat_map_shift, List.length_map, List.length_range, show 256 ^ n = 2 ^ (8 * n) from (Nat.pow_mul 2 8 n).symm] at h

/-- The bytes of a number, written at `a`. -/
theorem cellGet_cellsPut_natLe {c : List Host.Cell} (h : Memory.wf c = true) (a n v x : Nat) :
    cellGet (cellsPut c a (natLe n v)) x = stored (cellGet c) a n v x := by
  rw [cellGet_cellsPut a x _ h, length_natLe, stored]
  split
  · next hx =>
    rw [Scalar.natLe_eq_map, List.getD_eq_getElem?_getD, List.getElem?_map, List.getElem?_range (by omega)]
    rfl
  · rfl

/-! ### Reservations (R286, R295) -/

/-- No entry stands in the way of the agent at the line: those that cover it are its own tile's, or the entry and the access only read. -/
def Passes (ag : Agent) (write : Bool) (l : List ResEntry) (line : Nat) : Prop :=
  ∀ e ∈ l, e.covers line = true → ag.tile = some e.owner ∨ (e.write = false ∧ write = false)

theorem Passes.narrowed {ag : Agent} {w : Bool} {l m : List ResEntry} {line : Nat} (h : Passes ag w l line) (n : Narrowed l m) :
    Passes ag w m line := fun e he hc => by
  obtain ⟨e0, h0, o0, w0, c0⟩ := n.source e he
  rw [o0, w0]
  exact h e0 h0 (c0 line hc)

/-- An agent that accesses no stream is behind no reservation of its own (R296). -/
theorem behind_of_noStream {ag : Agent} (h : ag.stream = none) (e : ResEntry) (s : State) (line : Nat) : e.behind s ag line = false := by
  unfold ResEntry.behind
  rw [h]
  cases ag.tile <;> rfl

theorem judgeLine_passes {ag : Agent} (hs : ag.stream = none) (va : BitVec 56) {line : Nat} {w : Bool} {l : List ResEntry} (h : Passes ag w l line)
    (s : State) : judgeLine ag va line w l s = .ok () s := by
  induction l with
  | nil => rfl
  | cons e r ih =>
    have hc : e.conflicts s ag line w = false := by
      rw [ResEntry.conflicts, behind_of_noStream hs, Bool.false_or, ResEntry.holds]
      cases hcov : e.covers line with
      | false => rfl
      | true =>
        have ho : e.outsider ag w = false := by
          obtain ht | ⟨h1, h2⟩ := h e (by simp) hcov
          · simp [ResEntry.outsider, ht]
          · simp [ResEntry.outsider, h1, h2]
        rw [ho, Bool.and_false]
    rw [judgeLine, Csr.get_bind, hc]
    exact ih fun e he => h e (List.mem_cons_of_mem _ he)

/-- A line-by-line access of an agent in whose way no reservation stands. -/
theorem lineAccess_passes {ag : Agent} (hs : ag.stream = none) (path : Path) (va : BitVec 56) (pa n : Nat) (w : Bool) {s : State}
    (h : ∀ line ∈ linesOf pa n, Passes ag w s.resv line) :
    ∃ s', lineAccess ag path va pa n w s = .ok () s' ∧ Served s s' ∧ Kept s s' := by
  unfold lineAccess
  generalize linesOf pa n = ls at h
  induction ls generalizing s with
  | nil => exact ⟨s, rfl, .refl s, .refl s⟩
  | cons line r ih =>
    let s1 : State := exposeLine (wakeArray (cacheAccess ag path line (max pa (128 * line) - 128 * line)
      (min (pa + n) (128 * line + 128) - max pa (128 * line)) w s) path ag.tile) (ag.member s) line
    have hs1 : Served s s1 := served_lineTraffic ..
    have hk1 : Kept s s1 := kept_lineTraffic ..
    obtain ⟨s2, h2, hs2, hk2⟩ := ih (s := s1) fun l hl => (h l (List.mem_cons_of_mem _ hl)).narrowed hs1.resv
    refine ⟨s2, ?_, hs1.trans hs2, hk1.trans hk2⟩
    rw [List.forIn_cons, ← h2]
    have hj := judgeLine_passes hs va (h line List.mem_cons_self) s
    simp only [bind, EStateM.bind, get, getThe, MonadStateOf.get, EStateM.get, hj]
    rfl

/-! ### Memory -/

/-- Consuming poisoned granules leaves every byte, strand and reservation. -/
theorem served_consumeAll (ag : Agent) (l : List Nat) (s : State) : Served s (l.foldl (fun s g => consume ag g s) s) :=
  served_foldl (fun s g => served_consume ag g s) l s

theorem kept_consumeAll (ag : Agent) (l : List Nat) (s : State) : Kept s (l.foldl (fun s g => consume ag g s) s) :=
  kept_foldl (fun s g => kept_consume ag g s) l s

theorem physRead_passes {ag : Agent} (hs : ag.stream = none) (path : Path) (va : BitVec 56) (pa n : Nat) {s : State}
    (h : ∀ line ∈ linesOf pa n, Passes ag false s.resv line) :
    ∃ s', physRead ag path va pa n s = .ok (cellsGet s.mem pa n) s' ∧ Served s s' ∧ Kept s s' := by
  obtain ⟨s1, h1, hs1, hk1⟩ := lineAccess_passes hs path va pa n false h
  let s2 := carryReleases ag pa n s1
  have hk2 : Kept s s2 := hk1.trans (kept_carryReleases ..)
  have hq : physReadQuiet ag path va pa n s = .ok (cellsGet s.mem pa n) s2 := by
    rw [physReadQuiet, bind_ok h1, modify_bind, Csr.get_bind, ← hk2.mem]
    rfl
  refine ⟨_, by rw [physRead, bind_ok hq, modify_bind]; rfl, ?_, ?_⟩
  · exact (hs1.trans (served_carryReleases ..)).trans (served_consumeAll ..)
  · exact hk2.trans (kept_consumeAll ..)

theorem physWrite_passes {ag : Agent} (hs : ag.stream = none) (path : Path) (va : BitVec 56) (pa : Nat) (bs : List (BitVec 8)) {s : State}
    (h : ∀ line ∈ linesOf pa bs.length, Passes ag true s.resv line) :
    ∃ s', physWrite ag path va pa bs s = .ok () (physPut s' ag pa bs) ∧ Served s s' ∧ Kept s s' := by
  obtain ⟨s1, h1, hs1, hk1⟩ := lineAccess_passes hs path va pa bs.length true h
  exact ⟨s1, by rw [physWrite, bind_ok h1]; rfl, hs1, hk1⟩

/-! ### The place of a scalar access (R70) -/

/-- The state once the access of a leaf is translated. -/
def translated (s : State) (va : Nat) (l : Leaf) (acc : Access) : State := keepXlat s.ct s.curPart va l none (markLeaf s s.agent l acc)

theorem served_translated (s : State) (va : Nat) (l : Leaf) (acc : Access) : Served s (translated s va l acc) :=
  (served_markLeaf ..).trans (served_keepXlat ..)

theorem kept_translated (s : State) (va : Nat) (l : Leaf) (acc : Access) : Kept (markLeaf s s.agent l acc) (translated s va l acc) :=
  kept_keepXlat ..

theorem classify_virt {ea : Word} (h : fld ea 48 16 = 0) : classify ea = some (.virt ea.toNat) := if_pos h

section
variable {s : State} {ea : Word} {n : Nat} {acc : Access}

/-- Where the check of the address class goes on. -/
theorem placeFor_virt {va : Nat} (hc : classify ea = some (.virt va)) (ha : ea.toNat % n = 0) {l : Leaf}
    (hl : probe s s.curPart va acc = .ok l) :
    placeFor s.ct s.cs s.agent ea n acc s = .ok (.mem (leafAddress s s.curPart l va) (tvaOf ea) l.ns) (translated s va l acc) := by
  have ht : Machine.translate s.agent s.curPart va acc s = .ok (leafAddress s s.curPart l va, l.ns) (translated s va l acc) :=
    translate_tile (tile_agent s) hl
  rw [placeFor, Csr.get_bind, hc]
  simp only [ha, ne_eq, not_true, if_false]
  exact bind_ok ht

/-- The place of an access that goes through to memory. -/
theorem scalarPlace_memory {l : Leaf} (h : MemoryAccess s ea n acc l) : scalarPlace ea n acc s =
    .ok (.mem (leafAddress s s.curPart l ea.toNat) (tvaOf ea) l.ns) (translated s ea.toNat l acc) := by
  have hns : (l.ns && decide (acc ≠ .write) && s.enginesBusy) = false := by
    cases hl : l.ns with
    | false => rfl
    | true =>
      by_cases hw : acc = .write
      · simp [hw]
      · rw [h.uncached hl hw, Bool.and_false]
  rw [scalarPlace, bind_ok (awaitJoin_passes h.unjoined), Csr.get_bind, bind_ok (placeFor_virt (classify_virt h.canonical) h.aligned h.leaf)]
  simp only [hns]
  rfl

/-- The lines of the access are free for the strand, whatever was narrowed since. -/
theorem passes_of_memory {l : Leaf} (h : MemoryAccess s ea n acc l) (hn : 0 < n) {w : Bool} (hw : acc = .read ∨ acc = .fetch → w = false)
    {m : List ResEntry} (hm : Narrowed s.resv m) :
    ∀ line ∈ linesOf (leafAddress s s.curPart l ea.toNat) n, Passes s.agent w m line := fun line hl => by
  refine Passes.narrowed (fun e he hc => ?_) hm
  obtain ⟨k, hk, rfl⟩ := List.mem_map.1 hl
  rw [List.mem_range] at hk
  obtain ho | ⟨h1, h2⟩ := h.free e he _ (by omega) (by omega) hc
  · exact .inl (congrArg some ho.symm)
  · exact .inr ⟨h1, hw h2⟩

end

/-! ### The strand after an access -/

theorem cur_of_served {s t : State} (h : Served s t) : unread t.cur = unread s.cur := by
  rw [State.cur, State.cur, h.ct, h.cs]; exact h.strand ..

theorem agent_of_served {s t : State} (h : Served s t) : t.agent = s.agent := by rw [State.agent, State.agent, h.ct, h.cs]

/-- The current strand but for its watch and what its reads carry on. -/
def attentive (y : Strand) : Strand := { y with watch := none, written := false, carried := [] }

/-- The current strand stands as before, but for its watch and what its reads carry on. -/
def Stands (s t : State) : Prop := attentive t.cur = attentive s.cur

theorem Stands.trans {s t u : State} (a : Stands s t) (b : Stands t u) : Stands s u := Eq.trans b a

theorem stands_of_served {s t : State} (h : Served s t) : Stands s t :=
  show attentive (unread t.cur) = attentive (unread s.cur) from congrArg attentive (cur_of_served h)

theorem Stands.field {s t : State} (h : Stands s t) {α : Type} {f : Strand → α} (hf : ∀ y, f (attentive y) = f y) : f t.cur = f s.cur := by
  rw [← hf t.cur, show attentive t.cur = attentive s.cur from h, hf]

/-- A scalar access ends by writing its register. -/
theorem accessed_retire {s t : State} (h : Stands s t) (d : BitVec 5) (v : Word) {mem : Nat → BitVec 8} {spd : Nat → Nat → BitVec 8}
    (hm : ∀ a, cellGet t.mem a = mem a) (hs : ∀ u a, cellGet (t.tile u).spd a = spd u a) :
    (t.retire d v).reg d = held d v ∧ GoesOn (t.retire d v) (s.cur.pc + 4) ∧ Accessed s (t.retire d v) [d] mem spd := by
  have hk : Kept t (t.retire d v) := kept_retire ..
  refine ⟨State.reg_retire_same .., ?_, ⟨fun r hr => ?_, ?_⟩, fun a => by rw [hk.mem, hm], fun u a => by rw [hk.spd, hs]⟩
  · rw [← h.field (f := Strand.pc) fun _ => rfl]
    exact goesOn_retire ..
  · rw [State.reg_retire_other _ _ (by simpa using hr)]
    exact h.field (f := fun y => y.reg r) fun _ => rfl
  · rw [specialOf_retire]
    exact h.field (f := specialOf) fun _ => rfl

/-- A scalar access that writes no register ends at the next word. -/
theorem accessed_advance {s t : State} (h : Stands s t) {mem : Nat → BitVec 8} {spd : Nat → Nat → BitVec 8}
    (hm : ∀ a, cellGet t.mem a = mem a) (hs : ∀ u a, cellGet (t.tile u).spd a = spd u a) :
    GoesOn t.advance (s.cur.pc + 4) ∧ Accessed s t.advance [] mem spd := by
  have hk : Kept t t.advance := kept_setCur ..
  refine ⟨?_, ⟨fun r _ => ?_, ?_⟩, fun a => by rw [hk.mem, hm], fun u a => by rw [hk.spd, hs]⟩
  · rw [← h.field (f := Strand.pc) fun _ => rfl]
    exact Scalar.goesOn_goto ..
  · exact (State.reg_goto ..).trans (h.field (f := fun y => y.reg r) fun _ => rfl)
  · rw [State.cur_advance, ← h.field (f := specialOf) fun _ => rfl]
    rfl

/-- The strand's watch stands on the line `w`, not written since (R82). -/
def watching (w : Option (BitVec 49)) (s : State) : State := s.setCur { s.cur with watch := w, written := false }

theorem cur_watching (w : Option (BitVec 49)) (s : State) : (watching w s).cur = { s.cur with watch := w, written := false } := State.cur_setCur ..

theorem kept_watching (w : Option (BitVec 49)) (s : State) : Kept s (watching w s) := kept_setCur ..

theorem stands_watching (w : Option (BitVec 49)) (s : State) : Stands s (watching w s) := by rw [Stands, cur_watching]; rfl

/-- Writing a register leaves the watch. -/
theorem watch_retire (s : State) (d : BitVec 5) (v : Word) : (s.retire d v).cur.watch = s.cur.watch ∧ (s.retire d v).cur.written = s.cur.written := by
  constructor <;> simp

/-- Marking a leaf writes no scratchpad. -/
theorem spd_markLeaf (s : State) (ag : Agent) (l : Leaf) (acc : Access) (h : Nat) : ((markLeaf s ag l acc).tile h).spd = (s.tile h).spd := by
  unfold markLeaf
  extract_lets want new
  split
  · rfl
  · rw [physPut_spd, (kept_touchHome ..).spd]

/-! ### Loads from memory (R71, R72) -/

section
variable {s : State} {ea : Word} {n : Nat} {l : Leaf}

theorem scalarLoad_memory (h : MemoryAccess s ea n .read l) (hn : 0 < n) (o : Order) :
    ∃ t, scalarLoad ea n o s = .ok (number (cellGet (markLeaf s s.agent l .read).mem) (leafAddress s s.curPart l ea.toNat) n)
        (watching (some (BitVec.ofNat 49 (leafAddress s s.curPart l ea.toNat / 128))) t) ∧ Served s t ∧ Kept (markLeaf s s.agent l .read) t := by
  have hp := scalarPlace_memory h
  have hs1 := served_translated s ea.toNat l .read
  have hk1 := kept_translated s ea.toNat l .read
  have hfree : ∀ {m : List ResEntry}, Narrowed s.resv m → _ := fun hm => passes_of_memory (w := false) h hn (fun _ => rfl) hm
  generalize translated s ea.toNat l .read = s1 at hp hs1 hk1
  generalize leafAddress s s.curPart l ea.toNat = pa at hp hfree ⊢
  have hs2 : Served s (acquireFirst o s.agent pa n s1) := hs1.trans (served_acquireFirst ..)
  have hk2 := hk1.trans (kept_acquireFirst o s.agent pa n s1)
  obtain ⟨t, ht, hst, hkt⟩ := physRead_passes (ag := s.agent) rfl (if l.ns then .uncached else .cached) (tvaOf ea) pa n (hfree hs2.resv)
  refine ⟨t, ?_, hs2.trans hst, hk2.trans hkt⟩
  rw [scalarLoad, bind_ok hp]
  dsimp only
  rw [Csr.get_bind, agent_of_served hs1, modify_bind, Csr.get_bind, agent_of_served hs2, bind_ok ht, hk2.mem, leNat_cellsGet]
  rfl

end

/-- The two readings of `n` bytes as a signed integer. -/
theorem signed_eq_asInteger {n v : Nat} (hv : v < 2 ^ (8 * n)) : signed (8 * n) v = asInteger true n v := by
  rw [signed, asInteger, Nat.mod_eq_of_lt hv]
  simp only [true_and]
  split
  · rw [if_neg (by omega)]
  · rw [if_pos (by omega)]

/-- What a load writes into its register: the bytes as a signed or an unsigned integer. -/
theorem loaded_eq (sgn : Bool) {n v : Nat} (hv : v < 2 ^ (8 * n)) :
    (if sgn then BitVec.ofInt 64 (signed (8 * n) v) else BitVec.ofNat 64 v) = BitVec.ofInt 64 (asInteger sgn n v) := by
  cases sgn with
  | false => exact (BitVec.ofInt_natCast ..).symm
  | true => rw [if_pos rfl, signed_eq_asInteger hv]

/-- A load runs as one of its bytes at its address. -/
theorem exec_loadForm {i : Instr} {s : State} {d : BitVec 5} {ea : Word} {n : Nat} {sgn : Bool} (h : loadForm s i = some (d, ea, n, sgn)) :
    0 < n ∧ ∃ o, exec i s = runScalar (loadReg d ea n sgn o) s := by
  have he : ∀ (a : BitVec 5) (k : BitVec 13), effAddr (s.reg a) k = BitVec.ofInt 64 ((s.reg a).toInt + k.toInt) :=
    fun a k => Scalar.addSigned_eq_ofInt _ _ (by decide)
  cases i with
  | ldB => cases h; rw [← he]; exact ⟨by decide, _, rfl⟩
  | ldH => cases h; rw [← he]; exact ⟨by decide, _, rfl⟩
  | ldW => cases h; rw [← he]; exact ⟨by decide, _, rfl⟩
  | ldD => cases h; rw [← he]; exact ⟨by decide, _, rfl⟩
  | ldBu => cases h; rw [← he]; exact ⟨by decide, _, rfl⟩
  | ldHu => cases h; rw [← he]; exact ⟨by decide, _, rfl⟩
  | ldWu => cases h; rw [← he]; exact ⟨by decide, _, rfl⟩
  | orderedLoadZext => cases h; exact ⟨Nat.two_pow_pos _, _, rfl⟩
  | orderedLoadSext => cases h; exact ⟨Nat.two_pow_pos _, _, rfl⟩
  | _ => cases h

/-- How a load ends whose access gives the number `v`. -/
theorem run_loadReg {s t : State} {d : BitVec 5} {ea : Word} {n v : Nat} {sgn : Bool} {o : Order} (h : scalarLoad ea n o s = .ok v t)
    (hv : v < 2 ^ (8 * n)) : runScalar (loadReg d ea n sgn o) s = .next (t.retire d (BitVec.ofInt 64 (asInteger sgn n v))) := by
  refine runScalar_ok ?_
  rw [loadReg, bind_ok h, ← loaded_eq sgn hv]
  rfl

/-- Settles O9: the load passes the reservations, reads its bytes and watches their line. -/
theorem loadFromMemory : Obligations.LoadFromMemory := by
  intro i s d ea n sgn l _ hform hacc
  obtain ⟨hn, o, hexec⟩ := exec_loadForm hform
  obtain ⟨t, ht, hst, hkt⟩ := scalarLoad_memory hacc hn o
  obtain ⟨hd, hpc, ha⟩ := accessed_retire ((stands_of_served hst).trans (stands_watching (some (BitVec.ofNat 49 (leafAddress s s.curPart l ea.toNat / 128))) t))
    d _ (fun a => by rw [(kept_watching ..).mem, hkt.mem]) fun u a => by rw [(kept_watching ..).spd, hkt.spd, spd_markLeaf]
  refine ⟨_, hexec.trans (run_loadReg ht (number_lt ..)), hd, hpc, ha, ?_, ?_⟩
  · rw [(watch_retire ..).1, cur_watching]
  · rw [(watch_retire ..).2, cur_watching]

end Sys2Proof.Laws.Access
end

section
/-! PROOF. O10 and O11: stores and atomics on memory (R71 to R74). -/

namespace Sys2Proof.Laws.Access

open Sys2Proof.Machine Sys2Proof.Spec

theorem awaitCommit_idle {s : State} (h : s.enginesBusy = false) : awaitCommit s = .ok () s := by
  rw [awaitCommit, Csr.get_bind, h]; rfl

/-! ### Stores to memory -/

section
variable {s : State} {ea : Word} {n : Nat} {l : Leaf}

theorem scalarStore_memory (h : MemoryAccess s ea n .write l) (hb : s.enginesBusy = false) (hn : 0 < n) (v : Nat) (o : Order) :
    ∃ t, scalarStore ea n v o s = .ok () t ∧ Served s t ∧
      t.mem = cellsPut (markLeaf s s.agent l .write).mem (leafAddress s s.curPart l ea.toNat) (natLe n v) ∧
      ∀ u, (t.tile u).spd = (s.tile u).spd := by
  have hp := scalarPlace_memory h
  have hs1 := served_translated s ea.toNat l .write
  have hk1 := kept_translated s ea.toNat l .write
  have hfree := passes_of_memory (w := true) h hn (fun h => by simp at h) hs1.resv
  generalize translated s ea.toNat l .write = s1 at hp hs1 hk1 hfree
  generalize leafAddress s s.curPart l ea.toNat = pa at hp hfree ⊢
  obtain ⟨s2, h2, hs2, hk2⟩ := physWrite_passes (ag := s.agent) rfl (if l.ns then .uncached else .cached) (tvaOf ea) pa (natLe n v)
    (by rwa [length_natLe])
  refine ⟨afterWrite o pa n (physPut s2 s.agent pa (natLe n v)), ?_, ?_, ?_, fun u => ?_⟩
  · rw [scalarStore, bind_ok (awaitCommit_idle hb), bind_ok hp]
    dsimp only
    rw [Csr.get_bind, agent_of_served hs1, bind_ok h2]
    rfl
  · exact ((hs1.trans hs2).trans (served_physPut ..)).trans (served_afterWrite ..)
  · rw [(kept_afterWrite ..).mem, physPut_mem, hk2.mem, hk1.mem]
  · rw [(kept_afterWrite ..).spd, physPut_spd, hk2.spd, hk1.spd, spd_markLeaf]

end

/-- A store runs as one of its bytes at its address. -/
theorem exec_storeForm {i : Instr} {s : State} {ea : Word} {n : Nat} {v : Word} (h : storeForm s i = some (ea, n, v)) :
    0 < n ∧ ∃ o, exec i s = runScalar (storeReg ea n v o) s := by
  have he : ∀ (a : BitVec 5) (k : BitVec 13), effAddr (s.reg a) k = BitVec.ofInt 64 ((s.reg a).toInt + k.toInt) :=
    fun a k => Scalar.addSigned_eq_ofInt _ _ (by decide)
  cases i with
  | stB => cases h; rw [← he]; exact ⟨by decide, _, rfl⟩
  | stH => cases h; rw [← he]; exact ⟨by decide, _, rfl⟩
  | stW => cases h; rw [← he]; exact ⟨by decide, _, rfl⟩
  | stD => cases h; rw [← he]; exact ⟨by decide, _, rfl⟩
  | orderedStore => cases h; exact ⟨Nat.two_pow_pos _, _, rfl⟩
  | _ => cases h

theorem run_storeReg {s t : State} {ea : Word} {n : Nat} {v : Word} {o : Order} (h : scalarStore ea n v.toNat o s = .ok () t) :
    runScalar (storeReg ea n v o) s = .next t.advance := by
  refine runScalar_ok ?_
  rw [storeReg, bind_ok h]
  rfl

/-- Settles O10: the store passes the reservations and writes its bytes. -/
theorem storeToMemory : Obligations.StoreToMemory := by
  intro i s ea n v l _ hc hform hb hacc
  obtain ⟨hn, o, hexec⟩ := exec_storeForm hform
  obtain ⟨t, ht, hst, hmem, hspd⟩ := scalarStore_memory hacc hb hn v.toNat o
  have hwf : Memory.wf (markLeaf s s.agent l .write).mem = true := (canonical_markLeaf s.agent l .write hc).1
  refine ⟨_, hexec.trans (run_storeReg ht), accessed_advance (stands_of_served hst) (fun a => ?_) fun u a => by rw [hspd]⟩
  rw [hmem, cellGet_cellsPut_natLe hwf]

/-! ### Atomics on memory -/

theorem served_putAtomic (ag : Agent) (pa : Nat) (bs : List (BitVec 8)) (s : State) : Served s (putAtomic ag pa bs s) := by
  unfold putAtomic
  extract_lets before s1
  have h : Served s s1 := served_physPut ..
  clear_value s1
  exact h.trans (served_of (undisturbed_of rfl rfl rfl) (.refl _))

theorem putAtomic_mem (ag : Agent) (pa : Nat) (bs : List (BitVec 8)) (s : State) : (putAtomic ag pa bs s).mem = cellsPut s.mem pa bs :=
  physPut_mem ..

theorem putAtomic_spd (ag : Agent) (pa : Nat) (bs : List (BitVec 8)) (s : State) (u : Nat) :
    ((putAtomic ag pa bs s).tile u).spd = (s.tile u).spd := physPut_spd ..

/-- Memory once an atomic wrote its value, if it wrote one. -/
def afterAtomic (c : List Host.Cell) (a n : Nat) (r : Option Nat) : List Host.Cell :=
  match r with
  | some v => cellsPut c a (natLe n v)
  | none => c

theorem cellGet_afterAtomic {c : List Host.Cell} (h : Memory.wf c = true) (a n : Nat) (r : Option Nat) (x : Nat) :
    cellGet (afterAtomic c a n r) x = (match r with | some v => stored (cellGet c) a n v | none => cellGet c) x := by
  cases r
  exacts [rfl, cellGet_cellsPut_natLe h ..]

/-- A read-modify-write of an agent in whose way no reservation stands. -/
theorem memAtomic_passes {ag : Agent} (hs : ag.stream = none) (path : Path) (va : BitVec 56) (pa n : Nat) (f : Nat → Option Nat) {s : State}
    (h : ∀ {m : List ResEntry}, Narrowed s.resv m → ∀ line ∈ linesOf pa n, Passes ag true m line) :
    ∃ t, memAtomic ag path va pa n f s = .ok (number (cellGet s.mem) pa n) t ∧ Served s t ∧
      t.mem = afterAtomic s.mem pa n (f (number (cellGet s.mem) pa n)) ∧ ∀ u, (t.tile u).spd = (s.tile u).spd := by
  let s0 : State := if path ≠ .cached then flushHolders (pa / 128) s else s
  have hs0 : Served s s0 := served_ite (served_flushHolders ..) (.refl s)
  have hk0 : Kept s s0 := kept_ite (kept_flushHolders ..) (.refl s)
  obtain ⟨s1, h1, hs1, hk1⟩ := lineAccess_passes hs path va pa n true (h hs0.resv)
  let s2 := ((granules pa n).filter (carryReleases ag pa n s1).poisoned).foldl (fun s g => consume ag g s) (carryReleases ag pa n s1)
  have hs2 : Served s s2 := ((hs0.trans hs1).trans (served_carryReleases ag pa n s1)).trans (served_consumeAll ..)
  have hkc : Kept s (carryReleases ag pa n s1) := (hk0.trans hk1).trans (kept_carryReleases ..)
  have hk2 : Kept s s2 := hkc.trans (kept_consumeAll ..)
  have hnum : leNat (cellsGet (carryReleases ag pa n s1).mem pa n) = number (cellGet s.mem) pa n := by rw [hkc.mem, leNat_cellsGet]
  have hrun : memAtomic ag path va pa n f s = (do
      match f (number (cellGet s.mem) pa n) with
      | some v => modify (putAtomic ag pa (natLe n v))
      | none => pure ()
      return number (cellGet s.mem) pa n : M Nat) s2 := by
    rw [← hnum]
    unfold memAtomic
    by_cases hp : path ≠ .cached
    · rw [show s0 = flushHolders (pa / 128) s from if_pos hp] at h1
      rw [if_pos hp, modify_bind]
      exact bind_ok h1
    · rw [show s0 = s from if_neg hp] at h1
      rw [if_neg hp]
      exact bind_ok h1
  cases hf : f (number (cellGet s.mem) pa n) with
  | none =>
    refine ⟨s2, by rw [hrun, hf]; rfl, hs2, hk2.mem, hk2.spd⟩
  | some v =>
    refine ⟨putAtomic ag pa (natLe n v) s2, by rw [hrun, hf]; rfl, hs2.trans (served_putAtomic ..), ?_, fun u => ?_⟩
    · rw [putAtomic_mem, hk2.mem]; rfl
    · rw [putAtomic_spd, hk2.spd]

section
variable {s : State} {ea : Word} {n : Nat} {l : Leaf}

theorem scalarAtomic_memory (h : MemoryAccess s ea n .atomic l) (hb : s.enginesBusy = false) (hn : 0 < n) (o : Order) (f : Nat → Option Nat) :
    let m := (markLeaf s s.agent l .atomic).mem
    let pa := leafAddress s s.curPart l ea.toNat
    ∃ t, scalarAtomic ea n o f s = .ok (number (cellGet m) pa n) (watching (some (BitVec.ofNat 49 (pa / 128))) t) ∧ Served s t ∧
      t.mem = afterAtomic m pa n (f (number (cellGet m) pa n)) ∧ ∀ u, (t.tile u).spd = (s.tile u).spd := by
  intro m pa
  have hp := scalarPlace_memory h
  have hs1 := served_translated s ea.toNat l .atomic
  have hk1 := kept_translated s ea.toNat l .atomic
  have hfree : ∀ {m : List ResEntry}, Narrowed s.resv m → _ := fun hm => passes_of_memory (w := true) h hn (fun h => by simp at h) hm
  generalize translated s ea.toNat l .atomic = s1 at hp hs1 hk1
  have hs2 : Served s (acquireFirst o s.agent pa n s1) := hs1.trans (served_acquireFirst ..)
  have hk2 := hk1.trans (kept_acquireFirst o s.agent pa n s1)
  obtain ⟨t, ht, hst, htm, htp⟩ := memAtomic_passes (ag := s.agent) rfl (atomicPath l.ns (2 ≤ o.scope.toNat)) (tvaOf ea) pa n f
    fun hm => hfree (hs2.resv.trans hm)
  rw [hk2.mem] at ht htm
  let w : State := if (f (number (cellGet m) pa n)).isSome then
    keepRelease o (atomicPath l.ns (2 ≤ o.scope.toNat)) (pa / 128) (afterWrite o pa n t) else t
  have hsw : Served s w := (hs2.trans hst).trans (served_ite ((served_afterWrite o pa n t).trans (served_keepRelease ..)) (.refl t))
  have hkw : Kept t w := kept_ite ((kept_afterWrite o pa n t).trans (kept_keepRelease ..)) (.refl t)
  refine ⟨w, ?_, hsw, hkw.mem.trans htm, fun u => ?_⟩
  · rw [scalarAtomic, bind_ok (awaitCommit_idle hb), bind_ok hp]
    dsimp only
    rw [Csr.get_bind, agent_of_served hs1, modify_bind, bind_ok ht]
    dsimp only [w]
    split <;> rfl
  · rw [hkw.spd, htp, hk2.spd, spd_markLeaf]

end

/-- An atomic that writes what `f` gives and leaves the old value in `d`. -/
def atomicReg (d : BitVec 5) (ea : Word) (n : Nat) (o : Order) (zext : Bool) (f : Nat → Option Nat) : M Unit := do
  let old ← scalarAtomic ea n o f
  modify fun s => s.retire d (amoOld (8 * n) old zext)

theorem signed_inj {n a b : Nat} (ha : a < 2 ^ (8 * n)) (hb : b < 2 ^ (8 * n)) (h : signed (8 * n) a = signed (8 * n) b) : a = b := by
  rw [signed, signed, Nat.mod_eq_of_lt ha, Nat.mod_eq_of_lt hb] at h
  have hc : ((2 : Int) ^ (8 * n)) = ((2 ^ (8 * n) : Nat) : Int) := by norm_cast
  rw [hc] at h
  generalize 2 ^ (8 * n) = w at *
  generalize 2 ^ (8 * n - 1) = v at *
  split at h <;> split at h <;> omega

/-- An atomic runs as one of its bytes at its address; what it writes for a value of that size is what the form says. -/
theorem exec_amoForm {i : Instr} {s : State} {d : BitVec 5} {ea : Word} {n : Nat} {z : Bool} {f : Nat → Option Nat}
    (h : amoForm s i = some (d, ea, n, z, f)) :
    0 < n ∧ ∃ o g, exec i s = runScalar (atomicReg d ea n o z g) s ∧ ∀ m < 2 ^ (8 * n), g m = f m := by
  have hlt : ∀ (b : BitVec 5) (z : BitVec 2), amoForm.operand s b z < 2 ^ (8 * 2 ^ z.toNat) := fun b z => Nat.mod_lt _ (Nat.two_pow_pos _)
  cases i with
  | amoSwap => cases h; exact ⟨Nat.two_pow_pos _, _, _, rfl, fun _ _ => rfl⟩
  | amoAdd => cases h; exact ⟨Nat.two_pow_pos _, _, _, rfl, fun _ _ => rfl⟩
  | amoAnd => cases h; exact ⟨Nat.two_pow_pos _, _, _, rfl, fun _ _ => rfl⟩
  | amoOr => cases h; exact ⟨Nat.two_pow_pos _, _, _, rfl, fun _ _ => rfl⟩
  | amoXor => cases h; exact ⟨Nat.two_pow_pos _, _, _, rfl, fun _ _ => rfl⟩
  | amoMin =>
    cases h
    refine ⟨Nat.two_pow_pos _, _, _, rfl, fun m hm => congrArg some ?_⟩
    simp only [← signed_eq_asInteger hm, ← signed_eq_asInteger (hlt ..), ← not_lt, ite_not]
    rfl
  | amoMax =>
    cases h
    refine ⟨Nat.two_pow_pos _, _, _, rfl, fun m hm => congrArg some ?_⟩
    simp only [← signed_eq_asInteger hm, ← signed_eq_asInteger (hlt ..)]
    obtain h | h | h := lt_trichotomy (signed (8 * 2 ^ _) m) (signed (8 * 2 ^ _) (amoForm.operand s _ _))
    · exact (if_pos h).trans (if_pos h.le).symm
    · exact (if_neg h.not_lt).trans ((signed_inj hm (hlt ..) h).trans (if_pos h.le).symm)
    · exact (if_neg h.not_gt).trans (if_neg h.not_ge).symm
  | amoMinu =>
    cases h
    exact ⟨Nat.two_pow_pos _, _, _, rfl, fun m _ => congrArg some (min_def_lt ..).symm⟩
  | amoMaxu =>
    cases h
    exact ⟨Nat.two_pow_pos _, _, _, rfl, fun m _ => congrArg some (max_def_lt ..).symm⟩
  | amoCas => cases h; exact ⟨Nat.two_pow_pos _, _, _, rfl, fun _ _ => rfl⟩
  | _ => cases h

theorem run_atomicReg {s t : State} {d : BitVec 5} {ea : Word} {n v : Nat} {z : Bool} {o : Order} {g : Nat → Option Nat}
    (h : scalarAtomic ea n o g s = .ok v t) (hv : v < 2 ^ (8 * n)) :
    runScalar (atomicReg d ea n o z g) s = .next (t.retire d (BitVec.ofInt 64 (asInteger (!z) n v))) := by
  refine runScalar_ok ?_
  rw [atomicReg, bind_ok h, ← loaded_eq (!z) hv]
  cases z <;> rfl

/-- Settles O11: the atomic passes the reservations, reads the old value and writes the new one. -/
theorem atomicOnMemory : Obligations.AtomicOnMemory := by
  intro i s d ea n z f l _ hc hform hb hacc m pa old
  obtain ⟨hn, o, g, hexec, hg⟩ := exec_amoForm hform
  obtain ⟨t, ht, hst, hmem, hspd⟩ := scalarAtomic_memory hacc hb hn o g
  have hwf : Memory.wf (markLeaf s s.agent l .atomic).mem = true := (canonical_markLeaf s.agent l .atomic hc).1
  have hlt := number_lt m pa n
  obtain ⟨hd, hpc, ha⟩ := accessed_retire ((stands_of_served hst).trans (stands_watching (some (BitVec.ofNat 49 (pa / 128))) t)) d
    (BitVec.ofInt 64 (asInteger (!z) n old)) (mem := match f old with | some v => stored m pa n v | none => m)
    (fun a => by rw [(kept_watching ..).mem, hmem, hg _ hlt, cellGet_afterAtomic hwf]) fun u a => by rw [(kept_watching ..).spd, hspd]
  exact ⟨_, hexec.trans (run_atomicReg ht hlt), hd, hpc, ha⟩

end Sys2Proof.Laws.Access
end

section
/-! PROOF. O12: accesses to the scratchpad (R69, R71, R73), and the pins that a write finds (R190, R191). -/

namespace Sys2Proof.Laws.Access

open Sys2Proof.Machine Sys2Proof.Spec

/-! ### The place (R69, R148, R393) -/

section
variable {s : State} {ea : Word} {n h off : Nat}

theorem refillCheck_passes (hp : ∀ i < n, (off + i) / 2048 ∉ (s.tile h).evicted) : refillCheck h off n s = .ok () s := by
  have hf : ((List.range n).any fun i => (s.tile h).evicted.contains ((off + i) / 2048)) = false :=
    List.any_eq_false.2 fun i hi => by simpa using hp i (List.mem_range.1 hi)
  rw [refillCheck, Csr.get_bind, hf]
  rfl

theorem wmCheck_passes (hw : ∀ i < n, wmByte s h (off + i) = .free) (hp : ∀ i < n, (off + i) / 2048 ∉ (s.tile h).evicted) :
    wmCheck ea h off n s = .ok () s := by
  have hf : ((List.range n).find? fun i => wmByte s h (off + i) = .failed) = none :=
    List.find?_eq_none.2 fun i hi => by simp [hw i (List.mem_range.1 hi)]
  have hb : ((List.range n).any fun i => wmByte s h (off + i) = .busy) = false :=
    List.any_eq_false.2 fun i hi => by simp [hw i (List.mem_range.1 hi)]
  rw [wmCheck, Csr.get_bind, hf]
  simp only [hb, Bool.false_eq_true, if_false]
  exact refillCheck_passes hp

theorem placeFor_spd (acc : Access) (ha : ScratchpadAccess s ea n h off) : placeFor s.ct s.cs s.agent ea n acc s = .ok (.spd h off) s := by
  obtain ⟨w, pos, hc, rfl, hr⟩ := ha.address
  rw [placeFor, Csr.get_bind, hc]
  simp only [ha.aligned, hr, ne_eq, not_true, if_false, Bool.not_true, Bool.false_eq_true]
  exact bind_ok (wmCheck_passes ha.written ha.present)

theorem scalarPlace_spd (acc : Access) (ha : ScratchpadAccess s ea n h off) : scalarPlace ea n acc s = .ok (.spd h off) s := by
  rw [scalarPlace, bind_ok (awaitJoin_passes ha.unjoined), Csr.get_bind, bind_ok (placeFor_spd acc ha)]
  rfl

end

/-! ### Loads from the scratchpad -/

theorem spdRead_run (ag : Agent) (h off n : Nat) (s : State) :
    ∃ t, spdRead ag h off n s = .ok (spdGet s h off n) t ∧ Served s t ∧ Kept s t ∧ t.cur = s.cur ∧ ∀ u, t.tile u = s.tile u := by
  have hkeep : ∀ {α : Type} (v : State → α), (∀ s, v (consume ag 0 s) = v s) → ∀ l : List Nat, v (l.foldl (fun s _ => consume ag 0 s) s) = v s :=
    fun v hv l => foldl_keeps v _ (fun s _ => hv s) l s
  refine ⟨_, ?_, served_foldl (fun s _ => served_consume ag 0 s) ((granules off n).filter (s.tile h).spdBad) s,
    kept_foldl (fun s _ => kept_consume ag 0 s) _ s, hkeep State.cur (fun _ => rfl) _, fun u => hkeep (fun s => s.tile u) (fun _ => rfl) _⟩
  rw [spdRead, modify_bind, Csr.get_bind, spdGet, hkeep (fun s => s.tile h) (fun _ => rfl)]
  rfl

theorem scalarLoad_spd {s : State} {ea : Word} {n h off : Nat} (ha : ScratchpadAccess s ea n h off) (o : Order) :
    ∃ t, scalarLoad ea n o s = .ok (number (cellGet (s.tile h).spd) off n) t ∧ Stands s t ∧ Kept s t ∧ t.cur.watch = none := by
  obtain ⟨t, ht, hst, hkt, hcur, -⟩ := spdRead_run s.agent h off n (watching none s)
  refine ⟨t, ?_, (stands_watching none s).trans (stands_of_served hst), (kept_watching ..).trans hkt, by rw [hcur, cur_watching]⟩
  rw [scalarLoad, bind_ok (scalarPlace_spd .read ha)]
  dsimp only
  rw [modify_bind, Csr.get_bind]
  refine (bind_ok ht).trans ?_
  rw [spdGet, (kept_watching ..).spd, leNat_cellsGet]
  rfl

/-! ### Pins (R190, R191) -/

theorem strands_withdrawEntry (c : Ctx) (e : Entry) : (withdrawEntry c e).strands = c.strands := by
  have hw : ∀ c : Ctx, (withdrawCopy c e).strands = c.strands := fun c => by
    unfold withdrawCopy
    split
    · split
      · extract_lets x others x1
        split <;> rfl
      · rfl
    · rfl
  rw [withdrawEntry, hw]
  split <;> rfl

theorem strands_withdrawAll (t : Nat) (s : State) : ((withdrawAll t s).tile t).ctx.strands = (s.tile t).ctx.strands := by
  rw [withdrawAll, Engine.tile_updCtx_same]
  exact List.foldlRecOn (motive := fun c : Ctx => c.strands = _) _ _ rfl fun c hc e _ => (strands_withdrawEntry c e).trans hc

/-- What is left of a tile whose lead's entry `e` at the head was abandoned at its boundary. -/
structure Abandoned (e : Entry) (x y : Tile) : Prop where
  pc : (y.strand 0).pc = e.pc
  queue : ∀ o ∈ y.queue, o.slot ≠ 0
  vstart : y.ctx.av.vstart = e.op.resumeAt x.ctx.av.vstart
  strand : ∀ k, k ≠ 0 → y.strand k = x.strand k

theorem abandonHead_other (t : Nat) (e : Entry) (n : Nat) (s : State) {u : Nat} (h : u ≠ t) : (abandonHead t e n s).tile u = s.tile u := by
  simp only [abandonHead, setVstart, updCtx, dropEntries, setQueue, withdrawAll, State.setStrandOf, State.tile_setTile_other _ _ h]

theorem abandonHead_same (t : Nat) (e : Entry) (s : State) :
    Abandoned e (s.tile t) ((abandonHead t e (e.op.resumeAt (s.tile t).ctx.av.vstart) s).tile t) := by
  unfold abandonHead
  extract_lets y
  rw [setVstart, Engine.tile_updCtx_same, dropEntries, Engine.tile_setQueue_same, Engine.tile_setStrandOf_same]
  refine ⟨?_, fun o ho => ?_, rfl, fun k hk => ?_⟩
  · exact congrArg Strand.pc (Tile.strand_setStrand_same ..)
  · simpa using (List.mem_filter.1 ho).2
  · refine (Tile.strand_setStrand_other _ _ hk).trans ?_
    rw [Tile.strand, strands_withdrawAll]; rfl

/-- The heads of the tiles `l` gave up their pins; nothing else has changed. -/
structure PinsYielded (l : List Nat) (s t : State) : Prop where
  ct : t.ct = s.ct
  cs : t.cs = s.cs
  resv : t.resv = s.resv
  kept : Kept s t
  other : ∀ u, u ∉ l → t.tile u = s.tile u
  gone : ∀ u ∈ l, ∀ e, (s.tile u).queue.head? = some e → Abandoned e (s.tile u) (t.tile u)

theorem PinsYielded.nil (s : State) : PinsYielded [] s s := ⟨rfl, rfl, rfl, .refl s, fun _ _ => rfl, nofun⟩

/-- What a write to the `n` bytes does about tile `u`. -/
def pinStep (h off n u : Nat) : M (ForInStep PUnit) := do
  let s ← get
  match (s.tile u).queue with
  | e :: _ =>
    if e.yieldsPins s && e.pinsAny h off n then
      set (abandonHead u e (e.op.resumeAt (s.tile u).ctx.av.vstart) s)
      pure (.yield ⟨⟩)
    else
      throw (.wait .pin)
  | [] => pure (.yield ⟨⟩)

theorem releasePins_eq (h off n : Nat) (s : State) :
    releasePins h off n s = ((forIn (pinners s h off n) PUnit.unit fun u _ => pinStep h off n u) >>= fun _ => pure () : M Unit) s := by
  unfold releasePins
  rw [Csr.get_bind]
  refine congrFun (congrArg (· >>= fun _ => pure ()) ?_) s
  refine congrArg (forIn _ _) (funext fun u => funext fun _ => funext fun s => ?_)
  rw [Csr.get_bind, pinStep, Csr.get_bind]
  cases (s.tile u).queue with
  | nil => rfl
  | cons e r => dsimp only; split <;> rfl

section
variable {s : State} {h off n u : Nat} {e : Entry} {r : List Entry} (hq : (s.tile u).queue = e :: r)
include hq

theorem pinStep_yields (hy : (e.yieldsPins s && e.pinsAny h off n) = true) :
    pinStep h off n u s = .ok (.yield ⟨⟩) (abandonHead u e (e.op.resumeAt (s.tile u).ctx.av.vstart) s) := by
  rw [pinStep, Csr.get_bind, hq]
  simp only [hy, if_true]
  rfl

theorem pinStep_waits (hy : (e.yieldsPins s && e.pinsAny h off n) = false) : pinStep h off n u s = .error (.wait .pin) s := by
  rw [pinStep, Csr.get_bind, hq]
  simp only [hy, Bool.false_eq_true, if_false]
  rfl

end

/-- The heads of all the tiles give up their pins. -/
theorem forIn_pinStep_yields {h off n : Nat} {l : List Nat} (hl : l.Nodup) {s : State}
    (hy : ∀ u ∈ l, ∃ e r, (s.tile u).queue = e :: r ∧ e.yieldsPins s = true ∧ e.pinsAny h off n = true) :
    ∃ t, (forIn l PUnit.unit (fun u _ => pinStep h off n u) : M PUnit) s = .ok ⟨⟩ t ∧ PinsYielded l s t := by
  induction l generalizing s with
  | nil => exact ⟨s, rfl, .nil s⟩
  | cons u l ih =>
    obtain ⟨hu, hl⟩ := List.nodup_cons.1 hl
    obtain ⟨e, r, hq, hyield, hpin⟩ := hy u List.mem_cons_self
    have hstep := pinStep_yields hq (h := h) (off := off) (n := n) (by rw [hyield, hpin]; rfl)
    have hk := kept_abandonHead u e (e.op.resumeAt (s.tile u).ctx.av.vstart) s
    have ho : ∀ w, w ≠ u → _ := fun w hw => abandonHead_other u e (e.op.resumeAt (s.tile u).ctx.av.vstart) s hw
    have hs := abandonHead_same u e s
    have hr : (abandonHead u e (e.op.resumeAt (s.tile u).ctx.av.vstart) s).resv = s.resv := rfl
    have hc : (abandonHead u e (e.op.resumeAt (s.tile u).ctx.av.vstart) s).ct = s.ct := rfl
    have hd : (abandonHead u e (e.op.resumeAt (s.tile u).ctx.av.vstart) s).cs = s.cs := rfl
    generalize abandonHead u e (e.op.resumeAt (s.tile u).ctx.av.vstart) s = s1 at hstep hk ho hs hr hc hd
    have hne : ∀ w ∈ l, w ≠ u := fun w hw hwu => hu (hwu ▸ hw)
    obtain ⟨t, ht, hp⟩ := ih hl (s := s1) fun w hw => by
      obtain ⟨e', r', h1, h2, h3⟩ := hy w (List.mem_cons_of_mem _ hw)
      refine ⟨e', r', by rw [ho w (hne w hw), h1], ?_, h3⟩
      rwa [Entry.yieldsPins, hr]
    refine ⟨t, ?_, hp.ct.trans hc, hp.cs.trans hd, hp.resv.trans hr, hk.trans hp.kept, fun w hw => ?_, fun w hw e' he' => ?_⟩
    · rw [List.forIn_cons, bind_ok hstep]
      exact ht
    · rw [hp.other w fun h => hw (List.mem_cons_of_mem _ h), ho w fun h => hw (h ▸ List.mem_cons_self)]
    · obtain rfl | hw := List.mem_cons.1 hw
      · rw [hq] at he'
        cases he'
        rw [hp.other w hu]
        exact hs
      · rw [← ho w (hne w hw)] at he' ⊢
        exact hp.gone w hw e' he'

/-- The head of one of the tiles keeps a pin. -/
theorem forIn_pinStep_waits {h off n : Nat} {l : List Nat} {s : State}
    (hw : ∃ u ∈ l, ∃ e r, (s.tile u).queue = e :: r ∧ (e.yieldsPins s && e.pinsAny h off n) = false) :
    ∃ t, (forIn l PUnit.unit (fun u _ => pinStep h off n u) : M PUnit) s = .error (.wait .pin) t := by
  induction l generalizing s with
  | nil => obtain ⟨u, hu, -⟩ := hw; exact nomatch hu
  | cons v l ih =>
    obtain ⟨u, hu, e, r, hq, hn⟩ := hw
    rw [List.forIn_cons]
    cases hv : (s.tile v).queue with
    | nil =>
      have hstep : pinStep h off n v s = .ok (.yield ⟨⟩) s := by rw [pinStep, Csr.get_bind, hv]; rfl
      rw [bind_ok hstep]
      refine ih ⟨u, (List.mem_cons.1 hu).resolve_left ?_, e, r, hq, hn⟩
      rintro rfl
      rw [hq] at hv; exact nomatch hv
    | cons o q =>
      by_cases ho : (o.yieldsPins s && o.pinsAny h off n) = true
      · rw [bind_ok (pinStep_yields hv ho)]
        have hne : u ≠ v := by
          rintro rfl
          rw [hq] at hv
          cases hv
          rw [hn] at ho; exact nomatch ho
        refine ih ⟨u, (List.mem_cons.1 hu).resolve_left hne, e, r, by rw [abandonHead_other _ _ _ _ hne, hq], ?_⟩
        exact hn
      · exact ⟨s, bind_error (pinStep_waits hv (by simpa using ho))⟩

theorem nodup_pinners (s : State) (h off n : Nat) : (pinners s h off n).Nodup :=
  (List.nodup_range.map (add_right_injective _)).filter _

theorem queue_of_pinners {s : State} {h off n u : Nat} (hu : u ∈ pinners s h off n) : ∃ e r, (s.tile u).queue = e :: r := by
  have := (List.mem_filter.1 hu).2
  cases hq : (s.tile u).queue with
  | nil => rw [hq] at this; exact nomatch this
  | cons e r => exact ⟨e, r, rfl⟩

/-! ### Stores to the scratchpad -/

theorem spdWrite_yields {s : State} {h off : Nat} {bs : List (BitVec 8)} (k : Nat)
    (hy : ∀ u ∈ pinners s h off bs.length, ∃ e r, (s.tile u).queue = e :: r ∧ e.yieldsPins s = true ∧ e.pinsAny h off bs.length = true) :
    ∃ t, spdWrite k h off bs s = .ok () (spdPut t k h off bs) ∧ PinsYielded (pinners s h off bs.length) s t := by
  obtain ⟨t, ht, hp⟩ := forIn_pinStep_yields (nodup_pinners ..) hy
  have hr : releasePins h off bs.length s = .ok () t := by rw [releasePins_eq, bind_ok ht]; rfl
  exact ⟨t, by rw [spdWrite, bind_ok hr]; rfl, hp⟩

theorem spdWrite_waits {s : State} {h off : Nat} {bs : List (BitVec 8)} (k : Nat)
    (hw : ∃ u ∈ pinners s h off bs.length, ∃ e r, (s.tile u).queue = e :: r ∧ (e.yieldsPins s && e.pinsAny h off bs.length) = false) :
    ∃ t, spdWrite k h off bs s = .error (.wait .pin) t := by
  obtain ⟨t, ht⟩ := forIn_pinStep_waits hw
  exact ⟨t, by rw [spdWrite, bind_error (by rw [releasePins_eq, bind_error ht])]⟩

/-- A write of a scratchpad changes of a tile only its scratchpad and its undo log. -/
theorem tile_spdPut_keeps {β : Type} {v : Tile → β}
    (hv : ∀ x a b c u l, v { x with spd := a, spdPoison := b, spdLatent := c, undo := u, undoLost := l } = v x) (s : State) (t h off : Nat)
    (bs : List (BitVec 8)) (u : Nat) : v ((spdPut s t h off bs).tile u) = v (s.tile u) := by
  have hset : ∀ {s : State} {k x}, v x = v (s.tile k) → v ((s.setTile k x).tile u) = v (s.tile u) := fun hx => by
    rw [State.tile_setTile]; split
    exacts [by subst u; exact hx, rfl]
  have hlog : ∀ s g, v ((logSpd s t h g).tile u) = v (s.tile u) := fun s g => by
    unfold logSpd
    extract_lets x
    split
    · rfl
    · split
      · rfl
      · unfold pushUndo
        dsimp only
        split
        · exact hset (hv (s.tile t) (s.tile t).spd (s.tile t).spdPoison (s.tile t).spdLatent _ (s.tile t).undoLost)
        · exact hset (hv (s.tile t) (s.tile t).spd (s.tile t).spdPoison (s.tile t).spdLatent (s.tile t).undo _)
  have hfold := fun l => foldl_keeps (fun s => v (s.tile u)) (fun s g => logSpd s t h g) (fun s g => hlog s g) l s
  unfold spdPut
  split
  · rfl
  · extract_lets s1 x
    exact (hset (hv x _ _ _ x.undo x.undoLost)).trans (hfold _)

theorem cursor_spdPut (s : State) (t h off : Nat) (bs : List (BitVec 8)) : (spdPut s t h off bs).ct = s.ct ∧ (spdPut s t h off bs).cs = s.cs := by
  have hlog : ∀ s g, (logSpd s t h g).ct = s.ct ∧ (logSpd s t h g).cs = s.cs := fun s g => by
    unfold logSpd pushUndo
    extract_lets x
    split
    · exact ⟨rfl, rfl⟩
    · split
      · exact ⟨rfl, rfl⟩
      · split <;> exact ⟨rfl, rfl⟩
  have h1 := foldl_keeps State.ct (fun s g => logSpd s t h g) (fun s g => (hlog s g).1) (granules off bs.length) s
  have h2 := foldl_keeps State.cs (fun s g => logSpd s t h g) (fun s g => (hlog s g).2) (granules off bs.length) s
  unfold spdPut
  split
  exacts [⟨rfl, rfl⟩, ⟨h1, h2⟩]

theorem strandOf_spdPut (s : State) (t h off : Nat) (bs : List (BitVec 8)) (u k : Nat) : (spdPut s t h off bs).strandOf u k = s.strandOf u k :=
  tile_spdPut_keeps (v := fun x => x.strand k) (fun _ _ _ _ _ _ => rfl) s t h off bs u

theorem stands_spdPut (s : State) (t h off : Nat) (bs : List (BitVec 8)) : Stands s (spdPut s t h off bs) := by
  rw [Stands, State.cur, (cursor_spdPut ..).1, (cursor_spdPut ..).2, strandOf_spdPut]; rfl

/-- The bytes of the scratchpads once the number `v` is written. -/
theorem cellGet_spdPut {s t : State} (hc : Canonical s) (hk : Kept s t) (k h off n v u a : Nat) :
    cellGet ((spdPut t k h off (natLe n v)).tile u).spd a =
      (if u = h then stored (cellGet (s.tile h).spd) off n v else cellGet (s.tile u).spd) a := by
  rw [spdPut_spd, hk.spd]
  split
  · next e => subst e; exact cellGet_cellsPut_natLe (hc.2 u) ..
  · rfl

/-- The strand that writes is not the lead of a tile whose head belongs to its lead. -/
theorem lead_ne_of_idle {s : State} (hb : s.enginesBusy = false) {u : Nat} {e : Entry} {r : List Entry} (hq : (s.tile u).queue = e :: r)
    (h0 : e.slot = 0) : (u, 0) ≠ (s.ct, s.cs) := by
  intro hu
  obtain ⟨rfl, hk⟩ := Prod.mk.inj hu
  have hn : ¬ decide (e.slot = s.cs) = true := List.any_eq_false.1 hb e (by rw [State.curTile, hq]; exact List.mem_cons_self)
  exact hn (by simpa [h0] using hk)

theorem stands_pinsYielded {l : List Nat} {s t : State} (hp : PinsYielded l s t) (hb : s.enginesBusy = false)
    (hy : ∀ u ∈ l, ∃ e r, (s.tile u).queue = e :: r ∧ e.slot = 0) : Stands s t := by
  have hcur : t.cur = s.cur := by
    rw [State.cur, hp.ct, hp.cs]
    by_cases hu : s.ct ∈ l
    · obtain ⟨e, r, hq, h0⟩ := hy _ hu
      refine (hp.gone _ hu e (by rw [hq]; rfl)).strand s.cs fun h => ?_
      exact lead_ne_of_idle hb hq h0 (by rw [h])
    · rw [State.strandOf, hp.other _ hu]; rfl
  rw [Stands, hcur]

section
variable {s : State} {ea : Word} {n h off : Nat}

theorem scalarStore_spd (ha : ScratchpadAccess s ea n h off) (hb : s.enginesBusy = false) (v : Nat) (o : Order) :
    scalarStore ea n v o s = spdWrite s.ct h off (natLe n v) s := by
  rw [scalarStore, bind_ok (awaitCommit_idle hb), bind_ok (scalarPlace_spd .write ha)]
  rfl

theorem scalarAtomic_spd (ha : ScratchpadAccess s ea n h off) (hb : s.enginesBusy = false) (hc : Canonical s) (hp : pinners s h off n = [])
    (o : Order) (f : Nat → Option Nat) :
    let m := cellGet (s.tile h).spd
    ∃ t, scalarAtomic ea n o f s = .ok (number m off n) t ∧ Stands s t ∧ t.mem = s.mem ∧
      ∀ u a, cellGet (t.tile u).spd a =
        (if u = h then (match f (number m off n) with | some v => stored m off n v | none => m) else cellGet (s.tile u).spd) a := by
  intro m
  obtain ⟨t, ht, hst, hkt, hcur, htile⟩ := spdRead_run s.agent h off n s
  have hnum : leNat (spdGet s h off n) = number m off n := by rw [spdGet, leNat_cellsGet]
  have hend : ∀ z, (do
      modify fun s => s.setCur { s.cur with watch := none, written := false }
      return number m off n : M Nat) z = .ok (number m off n) (watching none z) := fun _ => rfl
  have hrun : scalarAtomic ea n o f s = (do
      match f (number m off n) with
      | some v => spdWrite (← get).ct h off (natLe n v)
      | none => pure ()
      modify fun s => s.setCur { s.cur with watch := none, written := false }
      return number m off n : M Nat) t := by
    rw [scalarAtomic, bind_ok (awaitCommit_idle hb), bind_ok (scalarPlace_spd .atomic ha), ← hnum]
    dsimp only
    rw [Csr.get_bind]
    exact bind_ok ht
  cases hf : f (number m off n) with
  | none =>
    refine ⟨watching none t, by rw [hrun, hf]; rfl, (stands_of_served hst).trans (stands_watching ..), hkt.mem, fun u a => ?_⟩
    rw [(kept_watching ..).spd, hkt.spd]
    split
    exacts [by next e => rw [e], rfl]
  | some v =>
    have hpt : pinners t h off (natLe n v).length = [] := by
      rw [length_natLe, ← hp]
      simp only [pinners, htile]
    obtain ⟨z, hz, hpz⟩ := spdWrite_yields (s := t) (h := h) (off := off) (bs := natLe n v) t.ct (by rw [hpt]; exact nofun)
    rw [hpt] at hpz
    have hzs : Stands t z := by rw [Stands, State.cur, hpz.ct, hpz.cs, State.strandOf, hpz.other _ nofun]; rfl
    refine ⟨watching none (spdPut z t.ct h off (natLe n v)), ?_, ?_, ?_, fun u a => ?_⟩
    · rw [hrun, hf]
      refine (bind_ok (m := get) rfl).trans ?_
      exact bind_ok hz
    · exact (((stands_of_served hst).trans hzs).trans (stands_spdPut ..)).trans (stands_watching ..)
    · rw [(kept_watching ..).mem, spdPut_mem, hpz.kept.mem, hkt.mem]
    · rw [(kept_watching ..).spd]
      exact cellGet_spdPut hc (hkt.trans hpz.kept) t.ct h off n v u a

end

theorem av_setStrandOf (s : State) (t k u : Nat) (y : Strand) : ((s.setStrandOf t k y).tile u).ctx.av = (s.tile u).ctx.av := by
  rw [State.setStrandOf, State.tile_setTile]
  split
  exacts [by subst u; rfl, rfl]

/-- Settles O12: the place of the access, the bytes, and what becomes of the pins.  That the watch ends at a scratchpad access is the model's
choice (log 11), and so is that among pins of which one is not given up none is (log 38). -/
theorem scratchpadAccesses : Obligations.ScratchpadAccesses := by
  refine ⟨?_, ?_, ?_⟩
  · intro i s d ea n sgn h off _ hform ha v
    obtain ⟨-, o, hexec⟩ := exec_loadForm hform
    obtain ⟨t, ht, hst, hkt, hw⟩ := scalarLoad_spd ha o
    obtain ⟨hd, hpc, hacc⟩ := accessed_retire hst d (BitVec.ofInt 64 v) (fun a => by rw [hkt.mem]) fun u a => by rw [hkt.spd]
    exact ⟨_, hexec.trans (run_loadReg ht (number_lt ..)), hd, hpc, hacc, by rw [(watch_retire ..).1, hw]⟩
  · intro i s ea n v h off _ hc hform hb ha after yields
    obtain ⟨-, o, hexec⟩ := exec_storeForm hform
    have hstore := scalarStore_spd ha hb v.toNat o
    have hlen := length_natLe n v.toNat
    have hdone : (∀ u ∈ pinners s h off n, yields u) → ∃ t, after t.advance ∧ ∃ t0, PinsYielded (pinners s h off n) s t0 ∧
        t = spdPut t0 s.ct h off (natLe n v.toNat) := fun hy => by
      have hq : ∀ u ∈ pinners s h off n, ∃ e r, (s.tile u).queue = e :: r ∧ e.yieldsPins s = true ∧ e.pinsAny h off n = true ∧ e.slot = 0 :=
        fun u hu => by
          obtain ⟨e, r, hq⟩ := queue_of_pinners hu
          exact ⟨e, r, hq, hy u hu e (by rw [hq]; rfl)⟩
      obtain ⟨t, ht, hp⟩ := spdWrite_yields (s := s) (h := h) (off := off) (bs := natLe n v.toNat) s.ct (by
        rw [hlen]
        intro u hu
        obtain ⟨e, r, h1, h2, h3, -⟩ := hq u hu
        exact ⟨e, r, h1, h2, h3⟩)
      rw [hlen] at hp
      have hst : Stands s t := stands_pinsYielded hp hb fun u hu => by
        obtain ⟨e, r, h1, -, -, h4⟩ := hq u hu
        exact ⟨e, r, h1, h4⟩
      obtain ⟨hpc, hacc⟩ := accessed_advance (hst.trans (stands_spdPut t s.ct h off (natLe n v.toNat)))
        (fun a => by rw [spdPut_mem, hp.kept.mem]) fun u a => cellGet_spdPut hc hp.kept s.ct h off n v.toNat u a
      exact ⟨_, ⟨hexec.trans (run_storeReg (hstore.trans ht)), hpc, hacc⟩, t, hp, rfl⟩
    refine ⟨fun hp => ?_, fun hw => ?_, fun hy => ?_⟩
    · obtain ⟨t, ht, -⟩ := hdone (by rw [hp]; exact nofun)
      exact ⟨_, ht⟩
    · obtain ⟨u, hu, hn⟩ := hw
      obtain ⟨e, r, hq⟩ := queue_of_pinners hu
      obtain ⟨t, ht⟩ := spdWrite_waits (s := s) (h := h) (off := off) (bs := natLe n v.toNat) s.ct (by
        rw [hlen]
        exact ⟨u, hu, e, r, hq, hn e (by rw [hq]; rfl)⟩)
      rw [hexec]
      exact runScalar_wait (by rw [storeReg, bind_error (hstore.trans ht)])
    · obtain ⟨t, ht, t0, hp, rfl⟩ := hdone hy
      refine ⟨_, ht, fun u hu e he => ?_⟩
      have hg := hp.gone u hu e he
      have hne : (u, 0) ≠ (s.ct, s.cs) := by
        obtain ⟨o, r, hq⟩ := queue_of_pinners hu
        exact lead_ne_of_idle hb hq (hy u hu o (by rw [hq]; rfl)).2.2
      generalize hz : spdPut t0 s.ct h off (natLe n v.toNat) = z
      have hzc : (z.ct, z.cs) = (s.ct, s.cs) := by rw [← hz, (cursor_spdPut ..).1, (cursor_spdPut ..).2, hp.ct, hp.cs]
      refine ⟨?_, fun x hx => hg.queue x ?_, ?_⟩
      · rw [State.advance, State.goto, State.setCur_strandOf_other _ _ (by rwa [hzc]), ← hz, strandOf_spdPut]
        exact hg.pc
      · rw [State.advance, State.goto, State.setCur_tile_queue, ← hz] at hx
        rwa [tile_spdPut_keeps (v := Tile.queue) fun _ _ _ _ _ _ => rfl] at hx
      · rw [← hg.vstart, ← tile_spdPut_keeps (v := fun x => x.ctx.av.vstart) (fun _ _ _ _ _ _ => rfl) t0 s.ct h off (natLe n v.toNat) u, hz]
        exact congrArg View.vstart (av_setStrandOf ..)
  · intro i s d ea n z f h off _ hc hform hb ha hpin m old
    obtain ⟨-, o, g, hexec, hg⟩ := exec_amoForm hform
    have hlt := number_lt m off n
    obtain ⟨t, ht, hst, hmem, hspd⟩ := scalarAtomic_spd ha hb hc hpin o g
    obtain ⟨hd, hpc, hacc⟩ := accessed_retire hst d (BitVec.ofInt 64 (asInteger (!z) n old)) (fun a => by rw [hmem])
      (spd := fun h' => if h' = h then (match f old with | some v => stored m off n v | none => m) else cellGet (s.tile h').spd)
      fun u a => by rw [hspd, ← hg _ hlt]
    exact ⟨_, hexec.trans (run_atomicReg ht hlt), hd, hpc, hacc⟩

end Sys2Proof.Laws.Access
end

section
/-! PROOF. O13: the faults of a scalar access in their order (R68 to R70, R148, R297, R306). -/

namespace Sys2Proof.Laws.Access

open Sys2Proof.Machine Sys2Proof.Spec

/-! ### The forms -/

/-- How an instruction that accesses `n` bytes at `ea` runs: a load, a store or an atomic. -/
inductive RunsAs (i : Instr) (s : State) (ea : Word) (n : Nat) : Access → Prop
  | load (d : BitVec 5) (sgn : Bool) (o : Order) (h : exec i s = runScalar (loadReg d ea n sgn o) s) : RunsAs i s ea n .read
  | store (v : Word) (o : Order) (h : exec i s = runScalar (storeReg ea n v o) s) : RunsAs i s ea n .write
  | atomic (d : BitVec 5) (o : Order) (z : Bool) (f : Nat → Option Nat) (h : exec i s = runScalar (atomicReg d ea n o z f) s) :
    RunsAs i s ea n .atomic

theorem runsAs_accessForm {i : Instr} {s : State} {ea : Word} {n : Nat} {acc : Access} (h : accessForm s i = some (ea, n, acc)) :
    RunsAs i s ea n acc := by
  unfold accessForm at h
  split at h
  · next hl =>
    cases h
    obtain ⟨-, o, he⟩ := exec_loadForm hl
    exact .load _ _ o he
  · next hs _ =>
    cases h
    obtain ⟨-, o, he⟩ := exec_storeForm hs
    exact .store _ o he
  · next ha _ _ =>
    cases h
    obtain ⟨-, o, g, he, -⟩ := exec_amoForm ha
    exact .atomic _ o _ g he
  · exact nomatch h

theorem size_accessForm {i : Instr} {s : State} {ea : Word} {n : Nat} {acc : Access} (h : accessForm s i = some (ea, n, acc)) : 0 < n ∧ n ≤ 8 := by
  have hz : ∀ z : BitVec 2, 0 < 2 ^ z.toNat ∧ 2 ^ z.toNat ≤ 8 := by decide
  cases i <;> first | (cases h; exact hz _) | (cases h; decide) | cases h

/-! ### Faults of the place -/

section
variable {i : Instr} {s s' : State} {ea : Word} {n : Nat} {acc : Access} (hb : s.enginesBusy = false)
include hb

/-- The fault of the place is the fault of the instruction. -/
theorem faults_of_place (hr : RunsAs i s ea n acc) {tr : Trap} (h : scalarPlace ea n acc s = .error (.trap tr) s') :
    exec i s = .next (takeTrap s s.ct s.cs tr) := by
  rw [← raise_idle tr hb]
  cases hr with
  | load d sgn o he =>
    rw [he]
    exact runScalar_trap (s' := s') (by rw [loadReg, bind_error (by rw [scalarLoad, bind_error h])])
  | store v o he =>
    rw [he]
    exact runScalar_trap (s' := s') (by rw [storeReg, bind_error (by rw [scalarStore, bind_ok (awaitCommit_idle hb), bind_error h])])
  | atomic d o z f he =>
    rw [he]
    exact runScalar_trap (s' := s') (by rw [atomicReg, bind_error (by rw [scalarAtomic, bind_ok (awaitCommit_idle hb), bind_error h])])

theorem scalarPlace_fault {e : Exit} (h : placeFor s.ct s.cs s.agent ea n acc s = .error e s') : scalarPlace ea n acc s = .error e s' := by
  rw [scalarPlace, bind_ok (awaitJoin_passes (noJoin_of_idle hb)), Csr.get_bind, bind_error h]

end

section
variable {s : State} {ea : Word} {n : Nat} {acc : Access}

theorem placeFor_unclassed (hc : classify ea = none) :
    placeFor s.ct s.cs s.agent ea n acc s = .error (.trap { cause := cADDR, tva := ea.truncate 56 }) s := by
  rw [placeFor, Csr.get_bind, hc]
  rfl

theorem placeFor_misaligned (hc : classify ea ≠ none) (ha : ea.toNat % n ≠ 0) :
    placeFor s.ct s.cs s.agent ea n acc s = .error (.trap { cause := cMISALIGN, tva := ea.truncate 56 }) s := by
  obtain ⟨c, hc⟩ := Option.ne_none_iff_exists'.1 hc
  rw [placeFor, Csr.get_bind, hc]
  simp only [ne_eq, ha, not_false_iff, if_true]
  rfl

section
variable {w : Bool} {pos off : Nat} (hc : classify ea = some (.spd w pos off)) (ha : ea.toNat % n = 0)
include hc ha

theorem placeFor_outOfRange (hr : spdInRange s s.ct s.cs w pos off n = false) :
    placeFor s.ct s.cs s.agent ea n acc s = .error (.trap { cause := cSPDRANGE, tva := ea.truncate 56 }) s := by
  rw [placeFor, Csr.get_bind, hc]
  simp only [ha, hr, ne_eq, not_true, if_false, Bool.not_false, if_true]
  rfl

theorem placeFor_failedCopy (hr : spdInRange s s.ct s.cs w pos off n = true) {k : Nat} (hk : k < n)
    (hf : wmByte s (spdTile s.ct w pos) (off + k) = .failed) (hfirst : ∀ j < k, wmByte s (spdTile s.ct w pos) (off + j) ≠ .failed) :
    placeFor s.ct s.cs s.agent ea n acc s = .error (.trap { cause := cXFER, tva := (ea + BitVec.ofNat 64 k).truncate 56 }) s := by
  have hfind : ((List.range n).find? fun i => wmByte s (spdTile s.ct w pos) (off + i) = .failed) = some k := by
    rw [List.find?_range_eq_some]
    exact ⟨by simpa using hf, List.mem_range.2 hk, fun j hj => by simpa using hfirst j hj⟩
  have hwm : wmCheck ea (spdTile s.ct w pos) off n s = .error (.trap { cause := cXFER, tva := (ea + BitVec.ofNat 64 k).truncate 56 }) s := by
    rw [wmCheck, Csr.get_bind, hfind]
    rfl
  rw [placeFor, Csr.get_bind, hc]
  simp only [ha, hr, ne_eq, not_true, if_false, Bool.not_true, Bool.false_eq_true]
  exact bind_error hwm

end

theorem placeFor_untranslated {va : Nat} (hc : classify ea = some (.virt va)) (ha : ea.toNat % n = 0) {f : WalkFault}
    (hf : probe s s.curPart va acc = .error f) :
    placeFor s.ct s.cs s.agent ea n acc s = .error (.trap { cause := f.cause, sub := f.sub, tva := ea.truncate 56 }) s := by
  have hva : va = ea.toNat := by
    unfold classify at hc
    split at hc
    · cases hc; rfl
    · split at hc <;> cases hc
  have ht : Machine.translate s.agent s.curPart va acc s = .error (.trap { cause := f.cause, sub := f.sub, tva := ea.truncate 56 }) s := by
    rw [translate_fault hf, hva, BitVec.ofNat_toNat]
  rw [placeFor, Csr.get_bind, hc]
  simp only [ha, ne_eq, not_true, if_false]
  exact bind_error ht

end

/-! ### A reservation under the trap policy (R297) -/

theorem judgeLine_traps {ag : Agent} (hs : ag.stream = none) (ht : ag.tile.isSome = true) (va : BitVec 56) {line : Nat} {w : Bool} {e : ResEntry}
    {s : State} (hc : e.covers line = true) (ho : e.outsider ag w = true) (hp : e.pol = 3) (hh : e.holds s line = true) {l : List ResEntry}
    (he : e ∈ l) (hl : ∀ o ∈ l, o.covers line = true → o = e) :
    judgeLine ag va line w l s = .error (.trap { cause := cRSVTRAP, tva := va }) s := by
  induction l with
  | nil => exact nomatch he
  | cons o r ih =>
    rw [judgeLine, Csr.get_bind]
    by_cases hoc : o.covers line = true
    · obtain rfl := hl o List.mem_cons_self hoc
      simp only [ResEntry.conflicts, hh, behind_of_noStream hs, ho, hp, ht, Bool.false_or, Bool.and_true, Bool.not_false, decide_true, if_true]
      rfl
    · have hn : o.conflicts s ag line w = false := by
        rw [ResEntry.conflicts, ResEntry.holds, Bool.eq_false_iff.2 hoc]; rfl
      simp only [hn, Bool.false_eq_true, if_false]
      refine ih ((List.mem_cons.1 he).resolve_left ?_) fun o ho => hl o (List.mem_cons_of_mem _ ho)
      rintro rfl
      exact hoc hc

/-- The only entry that covers a line holds it. -/
theorem holds_of_only {e : ResEntry} {s : State} {line : Nat} (hc : e.covers line = true) (hl : ∀ o ∈ s.resv, o.covers line = true → o = e) :
    e.holds s line = true := by
  rw [ResEntry.holds, hc, Bool.true_and, Bool.not_eq_true', List.any_eq_false]
  intro x hx hb
  have hxc : x.covers line = true := by
    simp only [ResEntry.holdsBack, Bool.and_eq_true] at hb
    exact hb.1.2
  obtain rfl := hl x ((List.takeWhile_sublist _).subset hx) hxc
  have := List.mem_takeWhile_imp hx
  simp at this

theorem linesOf_eq_cons (pa n : Nat) : ∃ r, linesOf pa n = pa / 128 :: r := by
  rw [linesOf, List.range_succ_eq_map, List.map_cons, Nat.zero_add]
  exact ⟨_, rfl⟩

theorem lineAccess_traps {ag : Agent} (path : Path) {va : BitVec 56} {pa n : Nat} {w : Bool} {s : State} {x : Exit}
    (h : judgeLine ag va (pa / 128) w s.resv s = .error x s) : lineAccess ag path va pa n w s = .error x s := by
  obtain ⟨r, hr⟩ := linesOf_eq_cons pa n
  unfold lineAccess
  rw [hr, List.forIn_cons]
  refine bind_error (bind_error ?_)
  rw [Csr.get_bind]
  exact bind_error h

theorem flushAll_nil (s : State) : flushAll [] s = s := by
  have hc : ∀ k, flushClosure s k [] = [] := fun k => by cases k <;> simp [flushClosure]
  rw [flushAll, List.eraseDups_nil, hc]
  rfl

section
variable {s : State} {pa n : Nat}

theorem acquireFirst_unreleased (h : s.releasesAt pa n = []) (o : Order) (ag : Agent) : acquireFirst o ag pa n s = s := by
  rw [acquireFirst, acquireFlush, h]
  simp only [List.filter_nil, List.flatMap_nil, flushAll_nil, ite_self]

theorem flushHolders_unreleased {line : Nat} (h : s.releasesAt (128 * line) 128 = []) : flushHolders line s = s := by
  have hf : ∀ t, flushLine t line s = s := fun t => by rw [flushLine, h]; exact flushAll_nil s
  rw [flushHolders]
  generalize sget [] s.lines line = l
  induction l with
  | nil => rfl
  | cons a r ih =>
    rw [List.foldl_cons]
    exact (congrArg (r.foldl _) (hf a.1)).trans ih

/-- No release stands in a part of where none stands. -/
theorem releasesAt_sub {a m : Nat} (h : s.releasesAt a m = []) (h1 : a ≤ pa) (h2 : pa + n ≤ a + m) : s.releasesAt pa n = [] := by
  rw [State.releasesAt, List.filter_eq_nil_iff] at h ⊢
  intro r hr ho
  refine h r hr ?_
  simp only [overlaps, Bool.and_eq_true, decide_eq_true_eq] at ho ⊢
  omega

end

/-- An access that the only reservation of another tile on its line excludes under the trap policy. -/
theorem faults_of_reservation {i : Instr} {s : State} {ea : Word} {n : Nat} {acc : Access} {l : Leaf} {e : ResEntry} (hr : RunsAs i s ea n acc)
    (hb : s.enginesBusy = false) (hn : n ≤ 128) {va : Nat} (hc : classify ea = some (.virt va)) (ha : ea.toNat % n = 0)
    (hl : probe s s.curPart va acc = .ok l) (hm : translated s va l acc = s)
    (hrel : s.releasesAt (128 * (leafAddress s s.curPart l va / 128)) 256 = []) (he : e ∈ s.resv)
    (hcov : e.covers (leafAddress s s.curPart l va / 128) = true)
    (honly : ∀ o ∈ s.resv, o.covers (leafAddress s s.curPart l va / 128) = true → o = e) (hp : e.pol = 3) (hown : e.owner ≠ s.ct)
    (hw : e.write = true ∨ acc ≠ .read) : exec i s = .next (takeTrap s s.ct s.cs { cause := cRSVTRAP, tva := ea.truncate 56 }) := by
  have hns : (l.ns && decide (acc ≠ .write) && s.enginesBusy) = false := by rw [hb, Bool.and_false]
  have hplace : scalarPlace ea n acc s = .ok (.mem (leafAddress s s.curPart l va) (tvaOf ea) l.ns) s := by
    rw [scalarPlace, bind_ok (awaitJoin_passes (noJoin_of_idle hb)), Csr.get_bind, bind_ok (placeFor_virt hc ha hl), hm]
    simp only [hns]
    rfl
  generalize leafAddress s s.curPart l va = pa at *
  have hout : ∀ w, (e.write = true ∨ w = true) → e.outsider s.agent w = true := fun w hw => by
    have h1 : s.agent.tile ≠ some e.owner := fun h => hown (Option.some.inj h).symm
    simpa [ResEntry.outsider, h1] using hw
  have hline : ∀ path w, (e.write = true ∨ w = true) → lineAccess s.agent path (tvaOf ea) pa n w s =
      .error (.trap { cause := cRSVTRAP, tva := ea.truncate 56 }) s := fun path w hw =>
    lineAccess_traps path (judgeLine_traps rfl rfl (tvaOf ea) hcov (hout w hw) hp (holds_of_only hcov honly) he honly)
  have hacq : ∀ o, acquireFirst o s.agent pa n s = s := fun o =>
    acquireFirst_unreleased (releasesAt_sub hrel (by omega) (by omega)) o s.agent
  have hflush : flushHolders (pa / 128) s = s := flushHolders_unreleased (releasesAt_sub hrel (by omega) (by omega))
  rw [← raise_idle _ hb]
  cases hr with
  | load d sgn o he =>
    rw [he]
    refine runScalar_trap (s' := s) ?_
    rw [loadReg]
    refine bind_error ?_
    rw [scalarLoad, bind_ok hplace]
    dsimp only
    rw [Csr.get_bind, modify_bind, hacq, Csr.get_bind]
    exact bind_error (bind_error (bind_error (hline _ false (by simpa using hw))))
  | store v o he =>
    rw [he]
    refine runScalar_trap (s' := s) ?_
    rw [storeReg]
    refine bind_error ?_
    rw [scalarStore, bind_ok (awaitCommit_idle hb), bind_ok hplace]
    dsimp only
    rw [Csr.get_bind]
    refine bind_error (bind_error ?_)
    rw [length_natLe]
    exact hline _ true (.inr rfl)
  | atomic d o z f he =>
    rw [he]
    refine runScalar_trap (s' := s) ?_
    rw [atomicReg]
    refine bind_error ?_
    rw [scalarAtomic, bind_ok (awaitCommit_idle hb), bind_ok hplace]
    dsimp only
    rw [Csr.get_bind, modify_bind, hacq]
    refine bind_error ?_
    unfold memAtomic
    split
    · rw [modify_bind, hflush]
      exact bind_error (hline _ true (.inr rfl))
    · exact bind_error (hline _ true (.inr rfl))

/-- Settles O13: each fault in its order.  That `tva` of `XFER` names the first byte that failed is the model's choice (log 33). -/
theorem accessFaults : Obligations.AccessFaults := by
  intro i s ea n acc _ hform hb faults
  have hr := runsAs_accessForm hform
  obtain ⟨-, hn⟩ := size_accessForm hform
  refine ⟨fun hc => ?_, fun hc ha => ?_, fun w pos off hc ha => ⟨fun hrange => ?_, fun k hk hrange hf hfirst => ?_⟩,
    fun va hc ha => ⟨fun f hf => ?_, fun l e hl hm hx => ?_⟩⟩
  · exact faults_of_place hb hr (scalarPlace_fault hb (placeFor_unclassed hc))
  · exact faults_of_place hb hr (scalarPlace_fault hb (placeFor_misaligned hc ha))
  · exact faults_of_place hb hr (scalarPlace_fault hb (placeFor_outOfRange hc ha hrange))
  · exact faults_of_place hb hr (scalarPlace_fault hb (placeFor_failedCopy hc ha hrange hk hf hfirst))
  · exact faults_of_place hb hr (scalarPlace_fault hb (placeFor_untranslated hc ha hf))
  · intro line hrel he hcov honly hp hown hw
    exact faults_of_reservation hr hb (by omega) hc ha hl (by rw [translated, hm, hx]) hrel he hcov honly hp hown hw

end Sys2Proof.Laws.Access
end

section
/-! PROOF. O46 refuted: a graph identifier that another strand's stalled entry pins. -/

namespace Sys2Proof.Laws.Scheduling

open Sys2Proof.Machine Sys2Proof.Spec Sys2Proof.Tests

/-- An entry of strand 1 at the head of the queue, stalled at a watermark, that pins bytes 0x10 to 0x17 of the scratchpad. -/
def foreignPin : Entry :=
  { op := .fenceQ 1, slot := 1, pc := 0x40, regs := [], state := .stalled .watermark, pins := [(0, [(0x10, 0x18)])], view := {} }

/-- A graph of one node in the scratchpad, armed by the lead while `foreignPin` pins bytes of its identifier. -/
def armingPinned : State :=
  let s := (launching 0 1 1).setCur { strand [(1, 0xFE00000000000000), (2, 1)] with }
  s.setTile 0 { s.tile 0 with
    queue := [foreignPin], spd := cellsPut [] 0 ([0x101, 0, 0, 0, 0x8000, 0].flatMap (natLe 8)) }

/-- The arming ends well, but the identifier's store abandons `foreignPin` and leaves the lead after that entry's instruction. -/
theorem gsqArm_armingPinned : ∃ t, gsqArm 1 2 armingPinned = .ok () t ∧ t.cur.pc ≠ armingPinned.cur.pc + 4 := by
  obtain ⟨_, t, hm, hpc⟩ := endsWell (m := gsqArm 1 2) (s := armingPinned) (fun _ t => t.cur.pc != armingPinned.cur.pc + 4)
    (by decide +kernel)
  exact ⟨t, hm, by simpa using hpc⟩

/-- Refutes O46: the clause of `gsq.arm` does not exclude an entry of another strand at the head of the tile's queue, stalled as R191
names, that pins bytes of the graph's identifier.  The store of the identifier abandons it as an entry of strand 0, so `gsq.arm` ends well
but the lead does not go on at the next word. -/
theorem not_launches : ¬ Obligations.Launches := by
  intro h
  obtain ⟨t, hm, hpc⟩ := gsqArm_armingPinned
  obtain ⟨-, harm, -⟩ := h armingPinned
  have hnone : (armingPinned.partition armingPinned.curPart).graphs = [] := by decide +kernel
  obtain ⟨t', _, he, ⟨⟨hgo, -⟩, -⟩, -⟩ := harm 1 2 t hm (by simp [hnone])
  have hrun : exec (.gsqArm 1 2) armingPinned = .next t := runScalar_ok hm
  obtain rfl : t = t' := Host.Outcome.next.inj (hrun.symm.trans he)
  exact hpc hgo

end Sys2Proof.Laws.Scheduling
end

section
/-! PROOF. O48 refuted: a notice whose slot shares bytes with a table entry that straddles two lines. -/

namespace Sys2Proof.Laws.Events

open Sys2Proof.Machine Sys2Proof.Spec Sys2Proof.Tests

/-- A migration that routes the table at 0x2000 to 0x307C, four bytes below the end of a line. -/
def straddling : Migration := { old := 0x2000, new := 0x307C, size := 12, ptr := 8, phase := 2 }

/-- A held notice for slot 388 of a ring at address 0.  The slot lies at 0x3080, where the leaf of the first GiB, routed to 0x307C, has its
upper four bytes. -/
def routedRing : State :=
  let p : Partition := { placePartition with sup := some 0, notices := [(1, 2, 3, 4)], mig := some straddling }
  withWords (withWords { supervised with parts := [(0, p)] } 0x307C [0x26F]) 0x8000 [388 + 388 * 2 ^ 32]

/-- The leaf of the first GiB as it is routed. -/
def routedLeaf : Leaf := { pte := 0x26F, addr := 0x307C, bits := 30 }

theorem writable_routedRing {va pa : Nat}
    (h : (match probe routedRing 0 va .write with | .ok l => decide (l = routedLeaf) | .error _ => false) = true)
    (hpa : leafAddress routedRing 0 routedLeaf va = pa) : WritableAt routedRing 0 va pa := by
  cases e : probe routedRing 0 va .write with
  | ok l => rw [e] at h; exact ⟨routedLeaf, e.trans (congrArg _ (of_decide_eq_true h)), by decide, hpa⟩
  | error f => rw [e] at h; exact nomatch h

theorem canonical_routedRing : Canonical routedRing :=
  ⟨by decide +kernel, (canonical_device { ctx := { strands := [(7, { strand [] with state := .halted })] } } rfl).2⟩

/-- The record's first word has spoiled the leaf before NTAIL is written: the notice stays with its agent. -/
theorem notices_routedRing : ((noticePostRetry 0 routedRing).partition 0).notices ≠ [] := by decide +kernel

/-- Refutes O48: the clause of the notice's retry keeps the record out of the lines that `walkedLines` names, the line of each table entry's
first byte.  Under a migration whose new frame is not aligned to 8 bytes an entry straddles two lines; the record overwrites the rest of the
leaf through which NTAIL is written next, the write faults, and the notice is not posted.  The other clauses are not what fails: among them
the restart window and the giving up after 16 (log 104) and the age 64 (log 22) are the model's choices. -/
theorem not_strandEvents : ¬ Obligations.StrandEvents := by
  intro h
  obtain ⟨-, -, -, -, -, -, -, -, -, -, -, hpost, -⟩ := h routedRing 0 0
  obtain ⟨s', he, hn, -⟩ := hpost 0 (1, 2, 3, 4) 0x8000 0x8004 0x3080 canonical_routedRing rfl rfl rfl
    (writable_routedRing (by decide +kernel) (by decide +kernel)) (writable_routedRing (by decide +kernel) (by decide +kernel))
    (writable_routedRing (by decide +kernel) (by decide +kernel)) (by unfold TablesApart; decide +kernel) (by decide +kernel)
  obtain rfl : noticePostRetry 0 routedRing = s' := Host.Outcome.next.inj he
  exact notices_routedRing hn

end Sys2Proof.Laws.Events
end
